-- ==== Sys2Proof/Word.lean ====
section
/-!
DEFINITION. The words of the Dravog DV960: 32-bit registers, 64-bit pairs and pointers, bytes, and the
few plain bit operations that every other file uses.
-/

namespace Sys2Proof

/-- A byte of memory. -/
abbrev Byte := BitVec 8

/-- A v or s register word (R10). -/
abbrev Word32 := BitVec 32

/-- A w or x pair, a pointer, a mask of up to 64 threads (R10, R18). -/
abbrev Word64 := BitVec 64

/-- The field [lo+w-1 : lo] of a word. -/
abbrev bits {n : Nat} (x : BitVec n) (lo w : Nat) : BitVec w := x.extractLsb' lo w

/-- Bit i of a word. -/
abbrev bit {n : Nat} (x : BitVec n) (i : Nat) : Bool := x.getLsbD i

/-- A Bool as a one-bit word. -/
abbrev b1 (b : Bool) : BitVec 1 := BitVec.ofBool b

/-- 2 to the power n. -/
abbrev pow2 (n : Nat) : Nat := 2 ^ n

/-- n rounded up to a multiple of m. -/
abbrev roundUp (n m : Nat) : Nat := (n + (m - 1)) / m * m

end Sys2Proof
end

