-- ==== Sys2Proof/Syntax.lean ====
section
/-!
DEFINITION. The instructions and the steps of spec/opcode_table.json, one constructor of Instr a row: the 143
instruction rows of the opcode map (R240), with their operands, and the 103 rows that are steps of the other
agents of the device (95_what_each_step_holds.md), with what each needs to be told.
-/

namespace Sys2Proof

/-- The fields that mean the same in every instruction (R226). -/
structure Ctl where
  dist  : BitVec 3
  wait  : BitVec 12
  setf  : BitVec 4
  hold  : BitVec 2
  guard : BitVec 5
  gneg  : Bool
  deriving DecidableEq, Repr

/-- The neutral control fields of R227. -/
def Ctl.neutral : Ctl := ⟨0, 0, 15, 0, 31, false⟩

/-- The three operand forms of R244. -/
inductive Form | r | i | c
  deriving DecidableEq, Repr

/-- A source operand: a register of the form's own file (v, or s in S form), a scalar register named by a
kind bit (R229), or the immediate of layout I. -/
inductive Src
  | reg (n : BitVec 8)
  | sca (n : BitVec 8)
  | imm (v : BitVec 32)
  deriving DecidableEq, Repr

/-- TYPE of R245. -/
inductive IType | n32 | i32 | n8 | i8 | n16 | i16
  deriving DecidableEq, Repr

/-- COND of R252. -/
inductive ICond | eq | ne | lt | le | gt | ge
  deriving DecidableEq, Repr

/-- COND of R255. -/
inductive FCond | eq | ne | lt | le | gt | ge | un | ord
  deriving DecidableEq, Repr

/-- The rounding modes of R127. -/
inductive Rnd | rn | rz | ru | rd
  deriving DecidableEq, Repr

/-- The format codes of R258. -/
inductive FFmt | f32 | bf16 | f16 | e4m3 | e5m2 | e2m1
  deriving DecidableEq, Repr

/-- Operands of an integer or address instruction (R248). -/
structure Alu where
  ctl  : Ctl
  s    : Bool
  form : Form
  dst  : BitVec 8
  a    : Src
  b    : Src
  c    : Src
  ty   : IType
  sat  : Bool
  deriving DecidableEq, Repr

/-- Operands of a floating-point or conversion instruction (R253, R258). -/
structure Flt where
  ctl  : Ctl
  s    : Bool
  form : Form
  dst  : BitVec 8
  a    : Src
  b    : Src
  c    : Src
  rnd  : Rnd
  deriving DecidableEq, Repr

/-- What MOVI writes, by MOD and length (R251). -/
inductive MoviVal
  | word (v : BitVec 32)
  | sext (v : BitVec 32)
  | zext (v : BitVec 32)
  | pair (lo hi : BitVec 32)
  deriving DecidableEq, Repr

/-- Operands of PAND, POR and PXOR (R260). -/
structure Prd where
  ctl : Ctl
  dst : BitVec 8
  a   : BitVec 8
  b   : BitVec 8
  na  : Bool
  nb  : Bool
  deriving DecidableEq, Repr

/-- Modes of VOTE (R275). -/
inductive VoteMode | any | all | ballot
  deriving DecidableEq, Repr

/-- Modes of SHFL (R276). -/
inductive ShflMode | idx | up | down | xor
  deriving DecidableEq, Repr

/-- ROP of WRED and WSCAN (R277). -/
inductive RedOp | add | min | max | and | or | xor | fadd
  deriving DecidableEq, Repr

/-- The lengths of NOP (R243). -/
inductive Len | l64 | l96 | l128
  deriving DecidableEq, Repr

/-- SZ of R286; .n32 and .i32 are one code. -/
inductive MSize | n8 | i8 | n16 | i16 | n32 | n64 | n128
  deriving DecidableEq, Repr

/-- The mould of LD, ST, LDL, STL, PRF and CADD (R285). -/
structure Mem where
  ctl  : Ctl
  s    : Bool
  wide : Bool
  dst  : BitVec 8
  ptr  : BitVec 8
  off  : BitVec 32
  deriving DecidableEq, Repr

/-- COP of R294. -/
inductive COp | fadd | badd | add | min | max | and | or
  deriving DecidableEq, Repr

/-- AOP of R290. -/
inductive AOp | xchg | add | min | max | and | or | xor | fadd
  deriving DecidableEq, Repr

/-- Operands of ATOM and CAS (R290). -/
structure Atm where
  ctl  : Ctl
  s    : Bool
  dst  : BitVec 8
  ptr  : BitVec 8
  val  : Src
  new  : Src
  wide : Bool
  deriving DecidableEq, Repr

/-- An 8-bit immediate or a scalar register (LEASE, R293). -/
inductive NArg
  | imm (n : BitVec 8)
  | reg (r : BitVec 8)
  deriving DecidableEq, Repr

/-- EXPECT of BINIT (R299). -/
inductive EArg
  | imm (n : BitVec 12)
  | reg (r : BitVec 8)
  deriving DecidableEq, Repr

/-- What a TLD or TST moves (R328, R330). -/
inductive TMov
  | data
  | strided (r : BitVec 8)
  | scales
  | mxScales
  deriving DecidableEq, Repr

/-- Operands of an MMA (R328). -/
structure Mma where
  ctl  : Ctl
  acc  : BitVec 8
  a    : BitVec 8
  b    : BitVec 8
  n    : BitVec 8
  za   : Bool
  preg : BitVec 6
  deriving DecidableEq, Repr

/-- Operands of a TDRAIN (R328). -/
structure Drn where
  ctl  : Ctl
  tile : BitVec 8
  acc  : BitVec 8
  tv   : BitVec 8
  sn   : BitVec 8
  scv  : Bool
  ncv  : Bool
  sat  : Bool
  byp  : Bool
  zero : Bool
  c0   : BitVec 5
  deriving DecidableEq, Repr

/-- Operands of a barrier arrival (R299): count is the active threads, or a scalar register. -/
structure Arr where
  ctl  : Ctl
  wide : Bool
  ptr  : BitVec 8
  off  : BitVec 32
  cnt  : Option (BitVec 8)
  deriving DecidableEq, Repr

/-- Where an uncorrectable error is found in a register or tile (R140, R323). -/
inductive UeSite
  | vreg (wave reg tid : Nat)
  | sreg (wave reg : Nat)
  | pred (wave reg tid : Nat)
  | tileWord (core tile word : Nat)
  | tileScale (core tile byte : Nat)
  | accElem (core acc elem : Nat)
  deriving DecidableEq, Repr

/-- What the management cluster drains or powers off (R67, R211). -/
inductive Unit4
  | tower (die : Nat)
  | core (core : Nat)
  | bank (core : Nat)
  | loupe (core : Nat)
  | luna (core : Nat)
  deriving DecidableEq, Repr

/-- The kinds of a word that is not an instruction (R225, R241). -/
structure Bad where
  len0    : Bool
  subcode : Nat
  extra   : Nat
  cross   : Bool := false
  deriving DecidableEq, Repr

/-- A flattened or declared range (R30). -/
structure Range where
  gbase : Nat
  len   : Nat
  dbase : Nat
  perm  : BitVec 3
  deriving DecidableEq, Repr

/-- What the management cluster gives a root context (R175, R202, R30): the id, the 160 bytes of its
configuration record, its ranges, the device address of its entry launch record, the checkpoint period in
ticks, the undo log's size in lines, the borrowers its margin may be lent to, its Chrysalis area: device address and bytes (R205,
R206); its observation configuration, if it sets one: 32 bytes (R212). -/
structure RootCfg where
  id      : Nat
  conf    : List Byte
  ranges  : List Range
  entry   : Nat
  period  : Nat
  logMax  : Nat
  borrow  : List Nat
  area    : Nat × Nat := (0, 0)
  obs     : List Byte := []
  deriving DecidableEq, Repr

/-- The route table (R371): the device's own id, and for every other device id the ports of its route. -/
structure Routes where
  own     : BitVec 6
  entries : List (Nat × List Nat)
  deriving DecidableEq, Repr

/-- What the boot ROM finds and the management cluster sets (R373): for each image slot in order whether the signature verifies and its
security version; the fused minimum that the image asks for; whether the rest verifies; the towers whose self-test passes and their
failed cores; whether the links train; the route table, the devices present, whether the host's link is one of those that train; the
second-tier bytes of each peer, the host's memory, the HDM windows, the bytes that each of the eight second-tier ports serves; the
digests of the firmware, of the eight towers' microcode and of the eight engine-layer programs (R375). -/
structure BootIn where
  slots    : List (Bool × Nat)
  raiseTo  : Nat
  restOk   : Bool
  towers   : BitVec 8
  badCores : List Nat := []
  linksOk  : Bool := true
  hostLink : Bool := true
  present  : List Nat
  peerMem  : List (Nat × Nat) := []
  hostMem  : Nat := 0
  hdm      : List (Nat × Nat)
  routes   : Routes
  tier2    : List Nat
  fw       : BitVec 256
  tower    : List (BitVec 256)
  engine   : List (BitVec 256)
  deriving DecidableEq, Repr

/-- Who gives up a line (R83, R89), and the data that come with it: those of a die stand in its frame, another device's come with
the message. -/
structure Giver where
  who  : Nat
  data : List (BitVec 8) := []
  deriving DecidableEq, Repr

/-- A port, and the flit whose CRC fails there (R370). -/
structure BadFlit where
  port : Nat
  flit : Nat
  deriving DecidableEq, Repr

/-- One row of the opcode table each. -/
inductive Instr
  -- integer and address (R248)
  | iadd (o : Alu)
  | isub (o : Alu)
  | imul (o : Alu)
  | imulh (o : Alu)
  | imad (o : Alu)
  | imadw (o : Alu)
  | iaddw (o : Alu)
  | isubw (o : Alu)
  | ineg (o : Alu)
  | iabs (o : Alu)
  | imin (o : Alu)
  | imax (o : Alu)
  | band (o : Alu)
  | bor (o : Alu)
  | bxor (o : Alu)
  | bandn (o : Alu)
  | bnot (o : Alu)
  | shl (o : Alu)
  | shr (o : Alu)
  | sar (o : Alu)
  | shlw (o : Alu)
  | shrw (arith : Bool) (o : Alu)
  | bfx (o : Alu)
  | bfi (o : Alu)
  | popc (o : Alu)
  | clz (o : Alu)
  | ctz (o : Alu)
  | brev (o : Alu)
  | permb (o : Alu)
  | icmp (cond : ICond) (o : Alu)
  | sel (w64 : Bool) (o : Alu)
  | mov (w64 : Bool) (o : Alu)
  | movi (ctl : Ctl) (sc : Bool) (dst : BitVec 8) (v : MoviVal)
  | lea (sh : BitVec 2) (o : Alu)
  -- floating point and conversion (R253, R258)
  | fadd (o : Flt)
  | fsub (o : Flt)
  | fmul (o : Flt)
  | ffma (o : Flt)
  | fmin (o : Flt)
  | fmax (o : Flt)
  | fcmp (cond : FCond) (o : Flt)
  | fclass (o : Flt)
  | frcp (o : Flt)
  | frsq (o : Flt)
  | fsqrt (o : Flt)
  | fexp2 (o : Flt)
  | flog2 (o : Flt)
  | fsin (o : Flt)
  | fcos (o : Flt)
  | frnd (o : Flt)
  | badd2 (o : Flt)
  | bmul2 (o : Flt)
  | bfma2 (o : Flt)
  | hfma2 (o : Flt)
  | fcvt (d sf : FFmt) (sat : Bool) (o : Flt)
  | fcvtp (d : FFmt) (sat : Bool) (j : BitVec 2) (o : Flt)
  | fcvtx (sf : FFmt) (j : BitVec 3) (o : Flt)
  | i2f (ty : IType) (o : Flt)
  | f2i (ty : IType) (o : Flt)
  -- predicate (R260)
  | pand (o : Prd)
  | por (o : Prd)
  | pxor (o : Prd)
  | pnot (o : Prd)
  | pmov (o : Prd)
  | p2v (ctl : Ctl) (dst : BitVec 8)
  | v2p (ctl : Ctl) (a : BitVec 8) (mask : BitVec 24)
  -- wave (R262, R274 to R277)
  | split (ctl : Ctl) (d : BitVec 8)
  | fuse (ctl : Ctl) (d a n : BitVec 8)
  | vote (ctl : Ctl) (mode : VoteMode) (ds : Bool) (d a : BitVec 8)
  | shfl (ctl : Ctl) (mode : ShflMode) (d a : BitVec 8) (b : Src)
  | wred (ctl : Ctl) (op : RedOp) (sgn ds : Bool) (d a : BitVec 8)
  | wscan (ctl : Ctl) (op : RedOp) (sgn excl : Bool) (d a : BitVec 8)
  | bcast (ctl : Ctl) (ds : Bool) (d a : BitVec 8) (b : Src)
  | grow (ctl : Ctl) (n : Src)
  | shrink (ctl : Ctl) (n : Src)
  -- control and system (R262 to R273, R236 to R239, R243)
  | bra (ctl : Ctl) (wide : Bool) (off : BitVec 32)
  | brx (ctl : Ctl) (sc : Bool) (a : BitVec 8)
  | call (ctl : Ctl) (wide : Bool) (off : BitVec 32)
  | callx (ctl : Ctl) (sc : Bool) (a : BitVec 8)
  | ret (ctl : Ctl) (sc : Bool) (a : BitVec 8)
  | exit (ctl : Ctl)
  | meet (ctl : Ctl)
  | yield (ctl : Ctl) (n : BitVec 8)
  | nop (ctl : Ctl) (len : Len)
  | rep (count : BitVec 6) (idst isa isb : BitVec 3)
  | pfc (ctl : Ctl) (a : BitVec 8) (lines : BitVec 16)
  | mark (ctl : Ctl) (block : BitVec 24)
  | bkpt (ctl : Ctl) (n : BitVec 8)
  | trap (ctl : Ctl) (n : BitVec 8)
  | tretRetry (ctl : Ctl)
  | tretSkip (ctl : Ctl)
  | srd (ctl : Ctl) (sc w64 : Bool) (d sel : BitVec 8)
  | swr (ctl : Ctl) (w64 : Bool) (sel a : BitVec 8)
  -- memory (R285 to R296)
  | ld (sz : MSize) (o : Mem)
  | st (sz : MSize) (o : Mem)
  | ldl (sz : MSize) (o : Mem)
  | stl (sz : MSize) (o : Mem)
  | atom (op : AOp) (sgn noret : Bool) (o : Atm)
  | cas (o : Atm)
  | prf (n : BitVec 3) (o : Mem)
  | crange (ctl : Ctl) (op : COp) (slot : BitVec 3) (d a : BitVec 8) (len poff : BitVec 32)
  | cadd (op : COp) (o : Mem)
  | crflush (ctl : Ctl) (slot : BitVec 3)
  | lease (ctl : Ctl) (n : NArg)
  | fence (ctl : Ctl)
  -- teams and barriers (R297 to R302)
  | tnew (ctl : Ctl) (d : BitVec 8) (size : Src)
  | tjoin (ctl : Ctl) (d a : BitVec 8)
  | tleave (ctl : Ctl)
  | binit (ctl : Ctl) (a : BitVec 8) (off : BitVec 32) (e : EArg)
  | barv (o : Arr)
  | bdrop (o : Arr)
  | bwait (ctl : Ctl) (d a : BitVec 8) (ph : BitVec 4) (off ticks : BitVec 32)
  | btest (ctl : Ctl) (d a : BitVec 8) (off : BitVec 32)
  -- copies, counters, engines and launch (R303 to R319)
  | copy (ctl : Ctl) (a : BitVec 8)
  | copyr (ctl : Ctl) (a : BitVec 8)
  | copym (ctl : Ctl) (a : BitVec 8)
  | cntadd (ctl : Ctl) (a : BitVec 8) (inc : Src)
  | waitge (ctl : Ctl) (d a : BitVec 8) (tgt : Src) (ticks : BitVec 32)
  | vqput (ctl : Ctl) (nw : Bool) (d a : BitVec 8)
  | launch (ctl : Ctl) (a : BitVec 8)
  -- matrix and tile (R328)
  | tcfg (ctl : Ctl) (t : BitVec 8) (v : Src)
  | tld (ctl : Ctl) (t a : BitVec 8) (m : TMov)
  | tst (ctl : Ctl) (t a : BitVec 8) (m : TMov)
  | tzero (ctl : Ctl) (t : BitVec 8)
  | azero (ctl : Ctl) (acc : BitVec 8)
  | azeroRel (ctl : Ctl) (acc : BitVec 8)
  | mmaF (o : Mma)
  | mmaX (o : Mma)
  | mmaI8 (o : Mma)
  | mmaBp (o : Mma)
  | tdrain (o : Drn)
  -- contexts and privileged operations (R279, R39)
  | ctxnew (ctl : Ctl) (d r : BitVec 8)
  | ctxgrant (ctl : Ctl) (d k r : BitVec 8)
  | ctxrevoke (ctl : Ctl) (d k r : BitVec 8)
  | ctxrun (ctl : Ctl) (d k : BitVec 8)
  | ctxstop (ctl : Ctl) (d k c : BitVec 8)
  | ctxpeek (ctl : Ctl) (d k b item : BitVec 8) (index : BitVec 24)
  | ctxpoke (ctl : Ctl) (d k b item : BitVec 8) (index : BitVec 24)
  | ctxkill (ctl : Ctl) (d k c : BitVec 8)
  | tlbinvPage (ctl : Ctl) (a c : BitVec 8) (n : BitVec 16)
  | tlbinvCtx (ctl : Ctl) (c : BitVec 8)
  | tlbinvChild (ctl : Ctl) (k c : BitVec 8)
  | qosset (ctl : Ctl) (d k v : BitVec 8)
  -- trampolines (R237)
  | tramp (ctl : Ctl) (n : BitVec 24)
  | trampret (ctl : Ctl) (n : BitVec 24)
  -- steps of the memory system
  | accessPerformed (wave id : Nat)
  | pinGrant (wave : Nat)
  | pinGrantTimeout (wave req : Nat)
  | pinTimeout (wave req : Nat)
  | ptsTick
  | lasttouchSweep
  | timestampSweep
  | monarchInterval
  | forwardingEnd (core frame gen : Nat)
  | locate (core ctx vpart : Nat)
  | fill (core ctx part : Nat)
  | eviction (die part : Nat) (replica : Option Nat)
  | frameArrival (core ctx vpart : Nat) (write : Bool)
  | atlasHoldExpiry (die part : Nat)
  | wrapNotice (core frame : Nat)
  | pageWalk (core ctx va ver restarts : Nat)
  | tlbinvComplete (issuer target first n : Nat) (all : Bool) (cnt : BitVec 64)
  | homeRead (line die : Nat)
  | homeReadForOwnership (line die : Nat)
  | homeUpgrade (line die : Nat)
  | writeBack (line : Nat) (die : Giver)
  | cleanEvictionNotice (line die rts : Nat)
  | forwardedRead (line die : Nat)
  | forwardedReadForOwnership (line die : Nat)
  | invalidation (line die : Nat)
  | holderRegistration (part die : Nat)
  | backInvalidation (part die : Nat)
  | streamedAccess (wave id : Nat)
  | clocklessWaitDone (id : Nat)
  | combine (ctx slot line : Nat)
  -- host requests (R90 to R92)
  | memrd (addr size : Nat)
  | memwr (addr : Nat) (data : List Byte)
  | meminv (line : Nat)
  | snpdata (line : Nat)
  | snpinv (line : Nat)
  | snpcur (line : Nat)
  | hostUnsupportedRequest
  -- engines
  | copyStart (id : Nat)
  | copyStop (id : Nat)
  | copyComplete (id : Nat)
  | arrayOperationComplete (core : Nat)
  | gather (core id : Nat)
  | bilerp (core id : Nat)
  | search (core id : Nat)
  | engineRequestComplete (core id : Nat)
  -- launch and issue
  | waitCounterPoll (ctx id : Nat)
  | waitCounterRetry (ctx id : Nat)
  | dispatchPlacement (ctx : Nat)
  | headAging (ctx queue : Nat)
  | gridClose (ctx queue : Nat)
  | waveFree (wave : Nat)
  | pathUrgent (wave path : Nat)
  | yieldExpiry (wave path : Nat)
  | fetchBlockArrival (wave path addr : Nat)
  | growGrant (wave : Nat)
  | spill (lp : Nat)
  | restore (wave : Nat)
  | fuseTimeout (wave req : Nat)
  | pollRecheck (wave path : Nat)
  -- rings, errors, partitions
  | ringRecordWrite (ctx : Nat)
  | ringReply (ctx serial action : Nat)
  | ringWriteRetry (ctx : Nat)
  | localUe (core ctx off : Nat)
  | registerUe (site : UeSite)
  | checkpoint (root : Nat)
  | sliceEnd (root : Nat)
  | sliceStart (root : Nat)
  | lendUnit (core borrower : Nat)
  | reclaim (core : Nat)
  | rootConfiguration (cfg : RootCfg)
  | bankPowerOff (u : Unit4)
  | bankPowerOn (u : Unit4)
  | unitDrain (u : Unit4)
  | homeFailureRecovery (die : Nat)
  | homelostClear (part : Nat)
  | dualHomeOpen (page newBase : Nat)
  | switch (page : Nat)
  | bucketRefill
  | sample (core lp : Nat)
  | ctxstopComplete (ctx : Nat)
  | ctxkillComplete (ctx : Nat)
  | ctxrevokeComplete (issuer target : Nat) (cnt : BitVec 64)
  -- outside
  | hostLinkReset
  | bar0Write (off : Nat) (v : BitVec 64)
  | attestationRequest (nonce : BitVec 256)
  | flitCrcRetry (port : BadFlit)
  | deviceUnreachable (dev : Nat)
  | memoryDeviceLoss (die base len : Nat)
  | poisonResponse (line : Nat)
  | modulePowerOn (b : BootIn)
  | throttleStep (n : BitVec 3)
  | thermalPowerOff
  | orderlyPowerOff (preserve : List (Nat × Nat))
  | notAnInstruction (b : Bad)
  | resultWritten (wave id : Nat)
  | traceRecordWrite (core : Nat)
  | lanePairCycle
  | purgeComplete (page : Nat)
  | bisnpResponse (line : Nat)
  | hostLinkTrained
  | modulePowerLoss
  deriving DecidableEq, Repr

end Sys2Proof
end

