-- ==== Sys2Proof/Machine/Fp.lean ====
section
/-!
DEFINITION. Number formats and their arithmetic (R122 to R132, R254 to R259): values, one rounding, and the special
functions by fixed-point arithmetic on natural numbers wide enough to round correctly.
-/

namespace Sys2Proof.Machine

/-- The value of a bit pattern: NaN (signalling or not), an infinity, or (-1)^neg * m * 2^e. -/
inductive FVal
  | nan (sig : Bool)
  | inf (neg : Bool)
  | fin (neg : Bool) (m : Nat) (e : Int)
  deriving DecidableEq, Repr

/-- %fstat bits (R130). -/
abbrev fINVALID : Word32 := 1
abbrev fDIVZERO : Word32 := 2
abbrev fOVERFLOW : Word32 := 4
abbrev fUNDERFLOW : Word32 := 8
abbrev fINEXACT : Word32 := 16
abbrev fIOVF : Word32 := 32

/-- Exponent bits, mantissa bits, bias of a format (R122). -/
def fEbits : FFmt → Nat
  | .f32 | .bf16 => 8 | .f16 | .e5m2 => 5 | .e4m3 => 4 | .e2m1 => 2
def fMbits : FFmt → Nat
  | .f32 => 23 | .bf16 => 7 | .f16 => 10 | .e4m3 => 3 | .e5m2 => 2 | .e2m1 => 1
def fBias : FFmt → Int
  | .f32 | .bf16 => 127 | .f16 | .e5m2 => 15 | .e4m3 => 7 | .e2m1 => 1
def fBits (f : FFmt) : Nat := 1 + fEbits f + fMbits f

/-- Largest finite: mantissa and exponent of its last bit. -/
def fMaxM (f : FFmt) : Nat := match f with | .e4m3 => 14 | f => 2 ^ (fMbits f + 1) - 1
def fMaxE (f : FFmt) : Int := (match f with | .e4m3 => 8 | .e2m1 => 2 | f => fBias f) - fMbits f

/-- Codes: canonical NaN, largest finite, infinity. -/
def fNaN : FFmt → Nat
  | .f32 => 0x7FC00000 | .bf16 => 0x7FC0 | .f16 => 0x7E00 | .e4m3 => 0x7F | .e5m2 => 0x7E | .e2m1 => 0
def fMax : FFmt → Nat
  | .f32 => 0x7F7FFFFF | .bf16 => 0x7F7F | .f16 => 0x7BFF | .e4m3 => 0x7E | .e5m2 => 0x7B | .e2m1 => 7
def fHasInf : FFmt → Bool
  | .e4m3 | .e2m1 => false | _ => true
def fInf (f : FFmt) : Nat := (2 ^ fEbits f - 1) * 2 ^ fMbits f
def fSign (f : FFmt) (neg : Bool) : Nat := if neg then 2 ^ (fBits f - 1) else 0

/-- Read a code (R122, R123). -/
def fDecode (f : FFmt) (x : Nat) : FVal :=
  let mb := fMbits f
  let m := x % 2 ^ mb
  let e := x / 2 ^ mb % 2 ^ fEbits f
  let neg := x / 2 ^ (mb + fEbits f) % 2 == 1
  let top := 2 ^ fEbits f - 1
  let nan := match f with
    | .e4m3 => e == top && m == 7
    | .e2m1 => false
    | _ => e == top && m != 0
  if nan then .nan (match f with | .f32 | .bf16 | .f16 => decide (m < 2 ^ (mb - 1)) | _ => false)
  else if fHasInf f && e == top then .inf neg
  else if e == 0 then .fin neg m (1 - fBias f - mb)
  else .fin neg (2 ^ mb + m) (e - fBias f - mb)

/-- A result: code and %fstat bits. -/
structure FR where
  code  : Nat
  flags : Word32
  deriving DecidableEq, Repr

/-- Number of bits of m. -/
def bitLen (m : Nat) : Nat := if m = 0 then 0 else Nat.log2 m + 1

/-- m / 2^d rounded to an integer by a mode (R127). -/
def roundShift (rnd : Rnd) (neg : Bool) (m d : Nat) : Nat :=
  let hi := m / 2 ^ d
  let rem := m % 2 ^ d
  if rem = 0 then hi
  else
    let up := match rnd with
      | .rn => decide (2 ^ d < 2 * rem) || (2 * rem == 2 ^ d && hi % 2 == 1)
      | .rz => false
      | .ru => !neg
      | .rd => neg
    if up then hi + 1 else hi

/-- m * 2^e on the grid 2^q, rounded by a mode, and whether that is exact. -/
def onGrid (rnd : Rnd) (neg : Bool) (m : Nat) (e q : Int) : Nat × Bool :=
  if q ≤ e then (m * 2 ^ (e - q).toNat, true)
  else (roundShift rnd neg m (q - e).toNat, m % 2 ^ (q - e).toNat == 0)

/-- Is a * 2^x below b * 2^y? -/
def ltScaled (a : Nat) (x : Int) (b : Nat) (y : Int) : Bool :=
  if x ≤ y then decide (a < b * 2 ^ (y - x).toNat) else decide (a * 2 ^ (x - y).toNat < b)

/-- The result of an overflow (R127, R132). -/
def overflowCode (f : FFmt) (rnd : Rnd) (sat neg : Bool) : Nat :=
  let toMax := sat || f == .e2m1 || (match rnd with | .rn => false | .rz => true | .ru => neg | .rd => !neg)
  if toMax then fSign f neg + fMax f
  else if fHasInf f then fSign f neg + fInf f
  else fNaN f

/-- One rounding of an exact finite value (R127, R128). -/
def roundFin (f : FFmt) (rnd : Rnd) (sat neg : Bool) (m : Nat) (e : Int) : FR :=
  if m = 0 then ⟨fSign f neg, 0⟩
  else
    let mb := fMbits f
    let emin : Int := 1 - fBias f
    let qu : Int := e + (bitLen m : Int) - (mb + 1)
    let q : Int := max qu (emin - mb)
    let (r, exact) := onGrid rnd neg m e q
    if ltScaled (fMaxM f) (fMaxE f) r q then ⟨overflowCode f rnd sat neg, fOVERFLOW ||| fINEXACT⟩
    else
      let (ru, _) := onGrid rnd neg m e qu
      let tiny := ltScaled ru qu 1 emin
      let flags : Word32 := if exact then 0 else if tiny then fINEXACT ||| fUNDERFLOW else fINEXACT
      let code :=
        if r < 2 ^ mb then r
        else if r = 2 ^ (mb + 1) then (q + 1 + mb + fBias f).toNat * 2 ^ mb
        else (q + mb + fBias f).toNat * 2 ^ mb + (r - 2 ^ mb)
      ⟨fSign f neg + code, flags⟩

/-- Round any value into a format (R129, R132). -/
def fRound (f : FFmt) (rnd : Rnd) (sat : Bool) : FVal → FR
  | .nan sig => ⟨fNaN f, if sig || f == .e2m1 then fINVALID else 0⟩
  | .inf neg =>
    if fHasInf f && !sat then ⟨fSign f neg + fInf f, 0⟩
    else if sat || f == .e2m1 then ⟨fSign f neg + fMax f, fINVALID⟩
    else ⟨fNaN f, fINVALID⟩
  | .fin neg m e => roundFin f rnd sat neg m e

/-! ### Exact arithmetic (R127 to R129, R254) -/

def isSig : FVal → Bool
  | .nan s => s
  | _ => false
def isNan : FVal → Bool
  | .nan _ => true
  | _ => false
def fNeg : FVal → FVal
  | .nan s => .nan s
  | .inf n => .inf (!n)
  | .fin n m e => .fin (!n) m e

/-- The exact sum; the flag says that a NaN arose from operands that are none. -/
def fAdd (rnd : Rnd) : FVal → FVal → FVal × Bool
  | .nan _, _ => (.nan false, false)
  | _, .nan _ => (.nan false, false)
  | .inf a, .inf b => if a == b then (.inf a, false) else (.nan false, true)
  | .inf a, _ => (.inf a, false)
  | _, .inf b => (.inf b, false)
  | .fin na ma ea, .fin nb mb eb =>
    let e := min ea eb
    let a : Int := (ma * 2 ^ (ea - e).toNat : Nat)
    let b : Int := (mb * 2 ^ (eb - e).toNat : Nat)
    let t : Int := (if na then -a else a) + (if nb then -b else b)
    if t = 0 then (.fin (if na == nb then na else rnd == .rd) 0 0, false)
    else (.fin (decide (t < 0)) t.natAbs e, false)

/-- The exact product. -/
def fMul : FVal → FVal → FVal × Bool
  | .nan _, _ => (.nan false, false)
  | _, .nan _ => (.nan false, false)
  | .inf a, .inf b => (.inf (a != b), false)
  | .inf a, .fin nb mb _ => if mb = 0 then (.nan false, true) else (.inf (a != nb), false)
  | .fin na ma _, .inf b => if ma = 0 then (.nan false, true) else (.inf (na != b), false)
  | .fin na ma ea, .fin nb mb eb => (.fin (na != nb) (ma * mb) (ea + eb), false)

def invIf (b : Bool) : Word32 := if b then fINVALID else 0

def fAddR (f : FFmt) (rnd : Rnd) (a b : FVal) : FR :=
  let (v, inv) := fAdd rnd a b
  let r := fRound f rnd false v
  ⟨r.code, r.flags ||| invIf (inv || isSig a || isSig b)⟩
def fMulR (f : FFmt) (rnd : Rnd) (a b : FVal) : FR :=
  let (v, inv) := fMul a b
  let r := fRound f rnd false v
  ⟨r.code, r.flags ||| invIf (inv || isSig a || isSig b)⟩

/-- a * b + c rounded once; 0 * inf is invalid whatever c is (R254). -/
def fFmaR (f : FFmt) (rnd : Rnd) (a b c : FVal) : FR :=
  let (p, inv) := fMul a b
  let (v, inv') := fAdd rnd p c
  let r := fRound f rnd false v
  ⟨r.code, r.flags ||| invIf (inv || inv' || isSig a || isSig b || isSig c)⟩

/-- Ordering of two values that are no NaN: less, equal by value. -/
def fLess : FVal → FVal → Bool
  | .inf n, b => n && !(b == .inf true)
  | .fin _ _ _, .inf n => !n
  | .fin na ma ea, .fin nb mb eb =>
    if na && !nb then ma != 0 || mb != 0
    else if !na && nb then false
    else if na then ltScaled mb eb ma ea
    else ltScaled ma ea mb eb
  | _, _ => false
def fEqual (a b : FVal) : Bool := !isNan a && !isNan b && !fLess a b && !fLess b a

def fIsNeg : FVal → Bool
  | .nan _ => false
  | .inf n => n
  | .fin n _ _ => n

/-- FMIN and FMAX on codes: -0 stands below +0, a NaN gives the canonical NaN (R129, R254). -/
def fMinMax (f : FFmt) (max : Bool) (x y : Nat) : FR :=
  let a := fDecode f x
  let b := fDecode f y
  if isNan a || isNan b then ⟨fNaN f, invIf (isSig a || isSig b)⟩
  else
    let aLess := fLess a b || (fEqual a b && fIsNeg a && !fIsNeg b)
    ⟨if aLess == max then y else x, 0⟩

/-! ### Conversions (R131, R259) -/

/-- FCVT. A NaN raises INVALID only when signalling, or into .e2m1. -/
def fCvt (d s : FFmt) (rnd : Rnd) (sat : Bool) (x : Nat) : FR := fRound d rnd sat (fDecode s (x % 2 ^ fBits s))

/-- A finite value rounded to an integer by a mode. -/
def toInteger (rnd : Rnd) (neg : Bool) (m : Nat) (e : Int) : Int × Bool :=
  let (r, exact) := onGrid rnd neg m e 0
  (if neg then -(r : Int) else r, exact)

/-- Range of an integer type. -/
def iMin : IType → Int
  | .i8 => -128 | .i16 => -32768 | .i32 => -2147483648 | _ => 0
def iMax : IType → Int
  | .i8 => 127 | .n8 => 255 | .i16 => 32767 | .n16 => 65535 | .i32 => 2147483647 | .n32 => 4294967295

/-- Float to integer: rounded, then saturated (R131). -/
def fToI (t : IType) (rnd : Rnd) : FVal → Int × Word32
  | .nan _ => (0, fINVALID)
  | .inf n => (if n then iMin t else iMax t, fINVALID)
  | .fin n m e =>
    let (r, exact) := toInteger rnd n m e
    if r < iMin t then (iMin t, fINVALID)
    else if iMax t < r then (iMax t, fINVALID)
    else (r, if exact then 0 else fINEXACT)

def fOfInt (v : Int) : FVal := .fin (decide (v < 0)) v.natAbs 0

/-- FRND: an integral FP32 value; a zero keeps the sign of A (R256). -/
def fRnd (rnd : Rnd) (x : Nat) : FR :=
  match fDecode .f32 x with
  | .nan sig => ⟨fNaN .f32, invIf sig⟩
  | .inf n => ⟨fSign .f32 n + fInf .f32, 0⟩
  | .fin n m e =>
    if 0 ≤ e then ⟨x, 0⟩
    else
      let (r, _) := onGrid rnd n m e 0
      ⟨(roundFin .f32 .rn false n r 0).code, 0⟩

/-! ### Special functions (R256) -/

/-- The integer square root by bits from the top. -/
def isqrtFrom : Nat → Nat → Nat → Nat
  | 0, _, r => r
  | k + 1, n, r =>
    let c := r + 2 ^ k
    if c * c ≤ n then isqrtFrom k n c else isqrtFrom k n r
def isqrt (n : Nat) : Nat := isqrtFrom (bitLen n / 2 + 1) n 0

/-- A value with a sticky last bit: r * 2^e, not exact when rest. -/
def sticky (neg : Bool) (r : Nat) (e : Int) (rest : Bool) : FVal := .fin neg (2 * r + (if rest then 1 else 0)) (e - 1)

def rcpVal (neg : Bool) (m : Nat) (e : Int) : FVal :=
  let k := bitLen m + 40
  sticky neg (2 ^ k / m) (-e - k) (2 ^ k % m != 0)

/-- m * 2^e with an even exponent. -/
def evenExp (m : Nat) (e : Int) : Nat × Int := if e % 2 = 0 then (m, e) else (2 * m, e - 1)

def sqrtVal (m : Nat) (e : Int) : FVal :=
  let (m, e) := evenExp m e
  let n := m * 2 ^ 80
  let r := isqrt n
  sticky false r (e / 2 - 40) (r * r != n)

def rsqVal (m : Nat) (e : Int) : FVal :=
  let (m, e) := evenExp m e
  let n := 2 ^ 160 / m
  let r := isqrt n
  sticky false r (-(e / 2) - 80) (r * r * m != 2 ^ 160)

/-- Fraction bits of the fixed-point arithmetic. -/
abbrev fxBits : Nat := 400
abbrev fxOne : Nat := 2 ^ fxBits

/-- The sum over n of x^(2k+1) / (2k+1), k below n, with z = x^2 (atanh), in fixed point. -/
def atanhSum : Nat → Nat → Nat → Nat → Nat
  | 0, _, _, _ => 0
  | n + 1, p, z, k => p / (2 * k + 1) + atanhSum n (p * z / fxOne) z (k + 1)

/-- ln 2 = 2 atanh (1/3). -/
def ln2 : Nat := 2 * atanhSum 140 (fxOne / 3) (fxOne / 9) 0

/-- e^y for y below 1, in fixed point. -/
def expSum : Nat → Nat → Nat → Nat → Nat
  | 0, _, _, _ => 0
  | n + 1, t, y, k => t + expSum n (t * y / fxOne / (k + 1)) y (k + 1)

/-- Alternating atan series of 1/q. -/
def atanInv : Nat → Nat → Nat → Nat → Int
  | 0, _, _, _ => 0
  | n + 1, p, q2, k => (p / (2 * k + 1) : Nat) - atanInv n (p / q2) q2 (k + 1)

/-- pi by Machin's formula. -/
def piFx : Nat := (16 * atanInv 180 (fxOne / 5) 25 0 - 4 * atanInv 60 (fxOne / 239) 57121 0).toNat

/-- sin y for y up to 2: the terms y^(2k+1)/(2k+1)! with alternating signs. -/
def sinSum : Nat → Nat → Nat → Nat → Int
  | 0, _, _, _ => 0
  | n + 1, t, y2, k => (t : Int) - sinSum n (t * y2 / fxOne / ((2 * k + 2) * (2 * k + 3))) y2 (k + 1)

/-- m * 2^e in fixed point (e is at least -149). -/
def toFx (m : Nat) (e : Int) : Nat := m * 2 ^ (e + fxBits).toNat

def exp2Val (neg : Bool) (m : Nat) (e : Int) : FVal :=
  if m = 0 then .fin false 1 0
  else if decide (10 < e + bitLen m) then .fin false 1 (if neg then -1000 else 1000)
  else
    let x : Int := if neg then -(toFx m e : Int) else toFx m e
    let i : Int := x / fxOne
    let f : Nat := (x % fxOne).toNat
    if f = 0 then .fin false 1 i
    else sticky false (expSum 110 fxOne (f * ln2 / fxOne) 0) (i - fxBits) true

def log2Val (m : Nat) (e : Int) : FVal :=
  let n := bitLen m
  let i : Int := e + n - 1
  if m = 2 ^ (n - 1) then fOfInt i
  else
    let t := m * 2 ^ (fxBits + 1 - n)
    let z := (t - fxOne) * fxOne / (t + fxOne)
    let l := 2 * atanhSum 140 z (z * z / fxOne) 0 * fxOne / ln2
    let v : Int := i * fxOne + l
    sticky (decide (v < 0)) v.natAbs (-fxBits) true

/-- sin (pi * r) for a fixed-point r in [0, 2), with the sign of the operand: exact at multiples of one half. -/
def sinPi (neg : Bool) (r : Nat) : FVal :=
  let h := r % fxOne
  let minus := neg != decide (fxOne ≤ r)
  if h = 0 then .fin neg 0 0
  else if 2 * h = fxOne then .fin minus 1 0
  else
    let h := if fxOne < 2 * h then fxOne - h else h
    let y := h * piFx / fxOne
    sticky minus (sinSum 70 y (y * y / fxOne) 0).toNat (-fxBits) true

def special (v : FVal) (k : Bool → Nat → Int → FR) (infPos infNeg : FR) : FR :=
  match v with
  | .nan sig => ⟨fNaN .f32, invIf sig⟩
  | .inf false => infPos
  | .inf true => infNeg
  | .fin n m e => k n m e

def invNaN : FR := ⟨fNaN .f32, fINVALID⟩
def f32Inf (neg : Bool) : Nat := fSign .f32 neg + fInf .f32

def fRcp (x : Nat) : FR :=
  special (fDecode .f32 x)
    (fun n m e => if m = 0 then ⟨f32Inf n, fDIVZERO⟩ else fRound .f32 .rn false (rcpVal n m e))
    ⟨0, 0⟩ ⟨fSign .f32 true, 0⟩
def fRsq (x : Nat) : FR :=
  special (fDecode .f32 x)
    (fun n m e => if m = 0 then ⟨f32Inf n, fDIVZERO⟩ else if n then invNaN
      else fRound .f32 .rn false (rsqVal m e)) ⟨0, 0⟩ invNaN
def fSqrt (x : Nat) : FR :=
  special (fDecode .f32 x)
    (fun n m e => if m = 0 then ⟨x, 0⟩ else if n then invNaN else fRound .f32 .rn false (sqrtVal m e))
    ⟨f32Inf false, 0⟩ invNaN
def fExp2 (x : Nat) : FR :=
  special (fDecode .f32 x) (fun n m e => fRound .f32 .rn false (exp2Val n m e)) ⟨f32Inf false, 0⟩ ⟨0, 0⟩
def fLog2 (x : Nat) : FR :=
  special (fDecode .f32 x)
    (fun n m e => if m = 0 then ⟨f32Inf true, fDIVZERO⟩ else if n then invNaN
      else fRound .f32 .rn false (log2Val m e)) ⟨f32Inf false, 0⟩ invNaN
def fSinPi (x : Nat) : FR :=
  special (fDecode .f32 x)
    (fun n m e => if 2 ≤ e then ⟨fSign .f32 n, 0⟩
      else fRound .f32 .rn false (sinPi n (toFx m e % (2 * fxOne)))) invNaN invNaN
def fCosPi (x : Nat) : FR :=
  special (fDecode .f32 x)
    (fun _ m e =>
      if 2 ≤ e then fRound .f32 .rn false (.fin false 1 0)
      else
        let v := sinPi false ((toFx m e + fxOne / 2) % (2 * fxOne))
        fRound .f32 .rn false (match v with | .fin _ 0 _ => .fin false 0 0 | v => v)) invNaN invNaN

/-- FCLASS (R255): the one-hot class of an FP32 code. -/
def fClass (x : Nat) : Nat :=
  match fDecode .f32 x with
  | .nan true => 256
  | .nan false => 512
  | .inf n => if n then 1 else 128
  | .fin n m _ =>
    if m = 0 then (if n then 8 else 16)
    else if m < 2 ^ 23 then (if n then 4 else 32)
    else (if n then 2 else 64)

/-- FCMP (R255): the answer and the status. -/
def fCompare (c : FCond) (x y : Nat) : Bool × Word32 :=
  let a := fDecode .f32 x
  let b := fDecode .f32 y
  let un := isNan a || isNan b
  let sig := isSig a || isSig b
  match c with
  | .eq => (fEqual a b, invIf sig)
  | .ne => (!(fEqual a b), invIf sig)
  | .lt => (!un && fLess a b, invIf un)
  | .le => (!un && !(fLess b a), invIf un)
  | .gt => (!un && fLess b a, invIf un)
  | .ge => (!un && !(fLess a b), invIf un)
  | .un => (un, invIf sig)
  | .ord => (!un, invIf sig)

/-- FP32 words. -/
abbrev f32 (x : Word32) : FVal := fDecode .f32 x.toNat
abbrev w32 (n : Nat) : Word32 := BitVec.ofNat 32 n
def addRne (a b : Word32) : Word32 := w32 (fAddR .f32 .rn (f32 a) (f32 b)).code

end Sys2Proof.Machine
end

