-- ==== Sys2Proof/Config.lean ====
section
/-!
DEFINITION. The free values of the model: what the manual leaves open while the machine goes on (R12).
Each is an opaque constant, so that nothing in Lean can evaluate it or prove a value of it. The field
`sch.free` of State is the plain counter they are applied to.
-/

namespace Sys2Proof.Config

/-- The value a 32-bit register read too early returns (R12, R16, R247): DESIGN CHOICE, log 5. First
argument the free counter, second the register's key. -/
opaque freeWord : Nat → Nat → BitVec 32

/-- The value an unspecified byte takes: overlapping copies (R310), a combined range that LDL or STL
touched (R97), arenas that others wrote (R148). DESIGN CHOICE, log 5. -/
opaque freeByte : Nat → Nat → BitVec 8

/-- Which of two racing results is kept (R234), and the other two-way choices of the manual (R157).
DESIGN CHOICE, log 5. -/
opaque freeChoice : Nat → Nat → Bool

/-- The cycles from an access's issue to the step that performs it, and of every other step whose time the
manual does not fix (R72 gives bounds only). DESIGN CHOICE, log 6. -/
opaque latency : Nat → Nat

/-- The cycles, at most 64, after which a special function writes its result (R247). -/
opaque sfuLatency : Nat → Nat

/-- Which of a die's two HBM stacks holds a line (R2, R99): the manual does not say. DESIGN CHOICE, log 53. -/
opaque hbmStack : Nat → Bool

/-- The signature that the device identity key gives an attestation report (R375): the key never leaves
the management cluster. DESIGN CHOICE, log 7. -/
opaque signature : Nat → BitVec 512

end Sys2Proof.Config
end

