-- ==== Sys2Proof/Machine/State.lean ====
section
/-!
DEFINITION. What the machine holds: the whole architectural state of the Dravog DV960 as plain data, and the
state after reset. Every collection is a list; a sparse collection is kept by Machine/Sparse.lean in one
canonical form. Timestamps are device ticks as natural numbers (log 8); context time adds the TOFF of the
context (R73).
-/

namespace Sys2Proof.Machine

/-- Why a step has no next state. Raised only by an instruction row that is executed while no path of a wave is
the issuer (State.cur is none): no such machine exists, so the stop is safe. -/
inductive Fault
  /-- exec of an instruction row with no issuing path; the step never does it. Safe. -/
  | noIssuer
  deriving DecidableEq, Repr

/-- Why the model does not say what happens. -/
inductive Refusal
  /-- The arm of Dispatch.lean has no meaning yet. Safe. -/
  | notModelled (mnemonic : String)
  deriving DecidableEq, Repr

/-! ### Registers -/

/-- A v or s register word with its poison tag (R140). -/
structure VWord where
  val    : Word32 := 0
  poison : Bool := false
  deriving DecidableEq, Repr

/-- A predicate bit with its poison tag (R140). -/
structure PBit where
  val    : Bool := false
  poison : Bool := false
  deriving DecidableEq, Repr

/-- One register write. -/
inductive RegW
  | v (reg tid : Nat) (w : VWord)
  | s (reg : Nat) (w : VWord)
  | p (reg tid : Nat) (b : PBit)
  deriving DecidableEq, Repr

/-! ### Paths (R150) -/

/-- KIND of a path-table entry. -/
inductive PKind | free | path | meet | ret
  deriving DecidableEq, Repr

/-- STATE of a path-table entry, in the order of its codes 000 to 111. -/
inductive PState | ready | waiting | counting | atMeet | trapped | stopped | handler | atReturn
  deriving DecidableEq, Repr

/-- The 128 bits of a path-table entry. -/
structure Entry where
  kind  : PKind := .free
  state : PState := .ready
  link  : Nat := 31
  pc    : Word64 := 0
  mask  : Word64 := 0
  deriving DecidableEq, Repr

/-- A REP group in progress (R239): the address of the REP word, its fields, the next repetition, the flag the
group owes once repetition 0 has issued (15 for none) and its class of R218. -/
structure Rep where
  pos   : Word64
  count : Nat
  idst  : BitVec 3
  isa   : BitVec 3
  isb   : BitVec 3
  idx   : Nat
  flag  : Nat := 15
  cls   : Nat := 2
  deriving DecidableEq, Repr

/-- What a reply resumes (R198): an ordinary fault, a held launch, a copy, a follow-on MMA, a debug stop. -/
inductive ParkKind
  | fault
  | launch (rec pc : Nat)
  | copy (id : Nat)
  | mma (id : Nat)
  | debug
  deriving DecidableEq, Repr

/-- A path parked with an outstanding record: the ring's context, its serial, the path's address and that of
the instruction after it. -/
structure Park where
  ctx    : Nat
  serial : Nat
  kind   : ParkKind
  pc     : Word64
  after  : Word64
  deriving DecidableEq, Repr

/-- A WAITGE or BWAIT that polls (R302, R304): its issue number, address, object, active threads, target with its
poison, the tick at which its bound ends, and whether it matches no breakpoint (R221). -/
structure Poll where
  instr    : Instr
  id       : Nat
  pc       : Word64
  addr     : Word64
  mask     : Word64
  target   : Word64 := 0
  poison   : Bool := false
  deadline : Nat
  quiet    : Bool := false
  deriving DecidableEq, Repr

/-- The predecessor of a path (R231): the cycle in which it issued, or is to issue, its last thread pair, and the number of its issue
on the machine, none for the start of a handler. -/
structure Pred where
  cycle : Nat
  op    : Option Nat := none
  deriving DecidableEq, Repr

/-- One of the 16 entries of a path table, with what the sequencer keeps beside it: `fetch` the fetch buffer, `fetching` the
block that is on its way and the issue number the wave had reached when it was asked for (R189), `slipped` when that fetch
has been counted (R188); `wants` while its instruction waits for a seal, `sealed` once one has been taken (R208); `stopAt` the
issue number at which the path stands while a fault or a match of its instruction waits for commit (R115, R221). -/
structure Path where
  e        : Entry := {}
  spin     : Nat := 0
  demoted  : Bool := false
  eligible : Nat := 0
  urgentAt : Option Nat := none
  yieldTo  : Nat := 0
  rep      : Option Rep := none
  pred     : Option Pred := none
  fetch    : List (Nat × List Byte) := []
  fetching : Option (Nat × Nat) := none
  slipped  : Bool := false
  serves   : Option (Nat × Nat) := none
  trec     : Word64 := 0
  park     : Option Park := none
  poll     : Option Poll := none
  noMatch  : Bool := false
  kept     : Option PState := none
  reason   : Nat := 0
  wants    : Bool := false
  sealed   : Bool := false
  stopAt   : Option Nat := none
  deriving DecidableEq, Repr

/-- A deferral record (R152). -/
structure Defer where
  mask  : Word64
  pc    : Word64
  owner : Nat
  phase : Bool
  ret   : Bool
  deriving DecidableEq, Repr

/-! ### Translations (R50) -/

/-- A target of a translation (R50). -/
inductive Target
  | none
  | home
  | frame (core frame gen : Nat)
  deriving DecidableEq, Repr

/-- A TLB entry (R50); `l1` tells the level. -/
structure TlbEntry where
  ctx      : Nat
  vpart    : Nat
  part     : Nat
  r        : Bool
  w        : Bool
  x        : Bool
  tc       : Nat
  irrev    : Bool
  shared   : Bool
  perm     : BitVec 3
  streamed : Bool
  target   : Target
  l1       : Bool
  deriving DecidableEq, Repr

/-- A translated access: device address, flags of the page, whether it is device-absolute, and its TLB entry when it has one. -/
structure Xl where
  dev    : Nat
  irrev  : Bool
  shared : Bool
  direct : Bool
  ent    : Option TlbEntry
  deriving DecidableEq, Repr

/-! ### Windows (R106 to R118) -/

/-- One thread's part of an access: pointer, data, second datum (CAS), poison of the data, of the pointer; its translation, once
the access has begun and waits between threads (R194, log 18). -/
structure Lane where
  tid     : Nat
  ptr     : Word64
  d0      : BitVec 128 := 0
  d1      : Word64 := 0
  poison  : Bool := false
  pointer : Bool := false
  xl      : Option Xl := none
  deriving DecidableEq, Repr

/-- An access issued and not yet placed in the order: `id` is its place in issue order. A load performed early
(R107) stays until commit reaches it. `base` and `rep` are where its path stood, `next` the lanes already performed,
`quiet` tells that it matches no breakpoint (R221), `tile` the operation on a tile (R326), `high` that
it waits at R73's ceiling, `paused` that it waits for a checkpoint of its partition (R207, R208), `sealed` that one has been taken for
it, `faulted` the serial of its record while that is not written yet (R115). -/
structure Access where
  id     : Nat
  path   : Nat
  pc     : Word64
  base   : Word64
  after  : Word64
  rep    : Option Rep := none
  instr  : Instr
  mask   : Word64
  lanes  : List Lane
  next   : Nat := 0
  early  : Bool := false
  sealed : Bool := false
  quiet  : Bool := false
  tile   : Option Nat := none
  high   : Bool := false
  paused : Bool := false
  faulted : Option Nat := none
  deriving DecidableEq, Repr

/-- A result on its way to its registers (R16, R247). -/
structure Pend where
  id     : Nat
  writes : List RegW
  stat   : Word32
  deriving DecidableEq, Repr

/-- What an undo record restores (R111, KIND 1 to 6, and what the checkpoint area does not show: the place of a path that has gone on
without any other change of its entry, and the deferral stack, to which R111 gives no KIND: log 16, log 38). -/
inductive UndoWhat
  | vreg (reg : Nat) (olds : List (Nat × VWord))
  | sreg (reg : Nat) (old : VWord)
  | pred (reg : Nat) (olds : List (Nat × PBit))
  | entry (idx : Nat) (old : Path)
  | place (idx : Nat) (old : Path)
  | flags (flag : Nat) (old : BitVec 12)
  | lease (old : Nat)
  | defers (old : List Defer)
  deriving DecidableEq, Repr

/-- An undo record, with the issue number of the instruction that appended it. -/
structure Undo where
  id   : Nat
  what : UndoWhat
  deriving DecidableEq, Repr

/-- A line of the read set (R107): the issue number of its youngest reader, global line number (local lines above 2^56), frame and
generation of the first read, smallest RTS. -/
structure ReadLine where
  id    : Nat
  line  : Nat
  place : Option (Nat × Nat × Nat)
  rts   : Nat
  deriving DecidableEq, Repr

/-- An instruction of a window: issue number, address, the address its path stood at and that of the instruction
after it, path, bytes of undo room it reserves (R111). -/
structure WinIns where
  id    : Nat
  pc    : Word64
  base  : Word64
  after : Word64
  path  : Nat
  room  : Nat
  deriving DecidableEq, Repr

/-- The open window of a wave: issue number, address, path of its first instruction, the address its path stood at
and that of the instruction after it. -/
structure Window where
  first  : Nat
  pc     : Word64
  path   : Nat
  base   : Word64
  after  : Word64
  undo   : List Undo := []
  reads  : List ReadLine := []
  ins    : List WinIns := []
  pinned : Bool := false
  deriving DecidableEq, Repr

/-- An instruction that owes a flag (R232): flag, issue number, class of R218 (0 memory, 1 matrix, 2 other). -/
structure Owe where
  flag : Nat
  id   : Nat
  cls  : Nat
  deriving DecidableEq, Repr

/-! ### Waves (R144) -/

/-- WSTATE of R147; an absent wave is FREE. -/
inductive WState | running | blocked | parked | spilled
  deriving DecidableEq, Repr

/-- A FUSE that waits for its buddy (R160). -/
structure FuseWait where
  path     : Nat
  pc       : Word64
  after    : Word64
  dst      : Nat
  sa       : Nat
  n        : Nat
  req      : Nat
  deadline : Nat
  deriving DecidableEq, Repr

/-- A sample record on its way (R216). -/
structure Sample where
  ctx    : Nat
  pc     : Word64
  mask   : Word64
  tick   : Word64
  wave   : Nat
  path   : Nat
  reason : Nat
  deriving DecidableEq, Repr

/-- A wave. The registers are sparse: v and p by reg * 64 + tid, s by reg. `also` names the launches of the waves fused
into it, by job and index; `samples` wait for the commit of their instruction. -/
structure Wave where
  ctx     : Nat
  width   : Nat
  budget  : Nat
  state   : WState := .running
  left    : WState := .running
  age     : Nat := 0
  job     : Nat := 0
  index   : Nat := 0
  also    : List (Nat × Nat) := []
  tc      : Nat := 0
  vregs   : List (Nat × VWord) := []
  sregs   : List (Nat × VWord) := []
  preds   : List (Nat × PBit) := []
  owed    : List Owe := []
  fstat   : Word32 := 0
  held    : List (Nat × Word32) := []
  lease   : Nat := 16
  paths   : List Path := []
  defer   : List Defer := []
  team    : Option Nat := none
  areas   : List (Nat × Nat) := []
  runs    : List (Nat × Nat) := []
  cprog   : Word32 := 0
  copyOp  : Option Nat := none
  seq     : Nat := 0
  accs    : List Access := []
  pend    : List Pend := []
  win     : Option Window := none
  keyPc   : Word64 := 0
  keyPath : Nat := 0
  count   : Nat := 0
  careful : Nat := 0
  fuse    : Option FuseWait := none
  growTo  : Option Nat := none
  raced   : List (Nat × Nat) := []
  pinReq  : Option Nat := none
  samples : List (Nat × Sample) := []
  deriving DecidableEq, Repr

/-! ### Frames (R42 to R49) -/

/-- KIND of R42. -/
inductive FKind | free | locl | primary | replica | forward | dropping
  deriving DecidableEq, Repr

/-- A frame's record (R44) and Monarch's counts (R62, R63). -/
structure FrameRec where
  kind    : FKind := .free
  gen     : Nat := 0
  ctx     : Nat := 0
  part    : Nat := 0
  touch   : Nat := 0
  fcore   : Nat := 0
  fframe  : Nat := 0
  fgen    : Nat := 0
  counts  : List (Nat × Nat) := []
  writes  : Nat := 0
  own     : Nat := 0
  cand    : Option (Nat × Bool) := none
  skip    : Nat := 0
  lows    : Nat := 0
  deriving DecidableEq, Repr

/-- STATE of R45. -/
inductive LState | i | s | e | o | m | r
  deriving DecidableEq, Repr

/-- A line record (R45); WTS and RTS in device ticks (log 8). -/
structure LineRec where
  wts    : Nat := 0
  rts    : Nat := 0
  poison : Bool := false
  dirty  : Bool := false
  valid  : Bool := false
  state  : LState := .i
  pinned : Bool := false
  deriving DecidableEq, Repr

/-- ASTATE of R48. -/
inductive AState | placed | moving | dropping
  deriving DecidableEq, Repr

/-- An Atlas entry (R48) with its way. -/
structure AtlasEntry where
  part     : Nat
  pcore    : Nat
  pframe   : Nat
  pgen     : Nat
  astate   : AState := .placed
  replicas : BitVec 32 := 0
  way      : Nat := 0
  deriving DecidableEq, Repr

/-- A holder-table entry (R86, R89): the part, the vector, the way; the list is in order of registration. -/
structure Holder where
  part : Nat
  vec  : Word64
  way  : Nat
  deriving DecidableEq, Repr

/-- A hold on a part at Atlas (R53, R117): the core that took it, the wave whose access bounced, if it is a wave's, and the cycle
at which it ends, 0 for the hold of a pinned window, which the window's end removes. -/
structure Hold where
  part : Nat
  core : Nat
  wave : Option Nat := none
  till : Nat := 0
  deriving DecidableEq, Repr

/-- A die. -/
structure Die where
  evMark     : Nat := 0
  homeMark   : Nat := 0
  atlas      : List AtlasEntry := []
  holds      : List Hold := []
  holders    : List Holder := []
  devHolders : List Holder := []
  down       : Bool := false
  deriving DecidableEq, Repr

/-- DSTATE of R82. -/
inductive DState | none | shared | excl | owned
  deriving DecidableEq, Repr

/-- A directory word (R82); `devs` are the devices that hold a shared copy, whose answers an invalidation waits for (R89). -/
structure DirWord where
  state   : DState := .none
  owner   : Nat := 0
  oremote : Bool := false
  odev    : Nat := 0
  devs    : BitVec 64 := 0
  sharers : BitVec 8 := 0
  deriving DecidableEq, Repr

/-- RSHARE (R82): at least one other device holds a shared copy. -/
abbrev DirWord.rshare (d : DirWord) : Bool := d.devs != 0

/-! ### Cores -/

/-- A team-table entry (R162, R164): arena offset and size, members, engine operations in progress. -/
structure Team where
  ctx     : Nat
  base    : Nat
  size    : Nat
  members : List Nat
  ops     : Nat := 0
  deriving DecidableEq, Repr

/-- What an array-queue entry does (R327). -/
inductive ArrKind
  | azero
  | arel
  | mma (kind : Nat) (a b n p : Nat) (za : Bool)
  | drain (tile tv c0 nc : Nat) (scv sat zero : Bool)
  deriving DecidableEq, Repr

/-- An entry of the array queue. `wave` and `seq` name the instruction that owes its flag, `start` the cycle of its
first step; `wraps` counts by element how often an integer sum has wrapped (IOVF, R139); `poison` when a scalar operand word
that it read was poisoned (R141). -/
structure ArrOp where
  id    : Nat
  ctx   : Nat
  wave  : Nat
  seq   : Nat
  acc   : Nat
  kind  : ArrKind
  done  : Nat := 0
  total : Nat := 1
  start : Option Nat := none
  wraps  : List (Nat × Int) := []
  poison : Bool := false
  deriving DecidableEq, Repr

/-- A tile-level operation that is pending on the core (R326): the tiles it still has to read and to write; `acc` the accumulator of a
follow-on MMA that has its place in the order and is not in the array queue yet (R312); `byp` while
the next MMA may take its result through the bypass (R338). -/
structure TileOp where
  id     : Nat
  ctx    : Nat
  reads  : List Nat
  writes : List Nat
  byp    : Bool := false
  acc    : Option Nat := none
  deriving DecidableEq, Repr

/-- A Periscope request (R313, R314). `done` elements are complete; of the next one `got` holds what has been read, `sub`
how much has been written, `poison` whether a source was poisoned, `tags` the tags of the words of `row`. `begun` once it has started, `ended` when its work is
over, `noted` when its completion record needs nothing more, `told` when a fault of CNT was reported. -/
structure Request where
  id      : Nat
  ctx     : Nat
  wave    : Nat
  bytes   : List Byte
  status  : Nat := 0
  code    : Nat := 0
  subcode : Nat := 0
  field   : Nat := 0
  done    : Nat := 0
  addr    : Word64 := 0
  got     : List Nat := []
  row     : List Byte := []
  tags    : List Bool := []
  sub     : Nat := 0
  poison  : Bool := false
  begun   : Bool := false
  ended   : Bool := false
  noted   : Bool := false
  told    : Bool := false
  deriving DecidableEq, Repr

/-- A launch record (R176). -/
structure LaunchRec where
  entry    : Word64
  args     : Word64
  affinity : Word64
  waitCnt  : Word64
  waitTgt  : Word64
  doneCnt  : Word64
  count    : Nat
  incr     : Nat
  ctl      : Word64
  deriving DecidableEq, Repr

/-- A launch held in the launch buffer (R110); `released` when it only waits for a queue entry (R179); `full` while it finds its queue or
wait list full; `refused` when its path cannot park yet: the CODE, SUBCODE, ADDR and EXTRA of its record (R177, log 47); `lrec` its launch record, once
read at release. -/
structure HeldLaunch where
  wave     : Nat
  id       : Nat
  path     : Nat
  pc       : Word64
  ptr      : Word64
  released : Bool := false
  full     : Bool := false
  refused  : Option (Nat × Nat × Word64 × Word64) := none
  lrec     : Option LaunchRec := none
  deriving DecidableEq, Repr

/-- A trace record on its way (R214, R215). -/
structure TraceRec where
  ctx : Nat
  lo  : Word64
  hi  : Word64
  deriving DecidableEq, Repr

/-- A core with its bank (die * 32 + core). `draining` while waves are never placed on it (R211), `leaving` while its bank is
evacuated (R60, R67), `spare` how many spare cores have taken its number in turn (R211). `lostQ` counts by context the records lost and not yet added to LOST;
`used` is the tick at which a wave last left the core (R205). -/
structure Core where
  bankOn   : Bool := true
  loupeOn  : Bool := true
  lunaOn   : Bool := true
  draining : Bool := false
  leaving  : Bool := false
  spare    : Nat := 0
  pts      : List (Nat × Nat) := []
  tlb      : List TlbEntry := []
  carve    : List (Nat × List Nat) := []
  mprog    : List (Nat × Word32) := []
  tc       : List (Nat × Word32) := []
  owner    : List (Nat × Nat) := []
  imode    : List (Nat × Bool) := []
  arrayQ   : List ArrOp := []
  tileOps  : List TileOp := []
  scope    : List Request := []
  launches : List HeldLaunch := []
  traceQ   : List TraceRec := []
  sampleQ  : List Sample := []
  lostQ    : List (Nat × Nat) := []
  teams    : List (Nat × Team) := []
  contrib  : List (Nat × Nat) := []
  turn     : Nat := 0
  used     : Nat := 0
  deriving DecidableEq, Repr

/-- An entry of the operand latch (R235): a v register or a predicate, the first of its pair for a w source. -/
structure Latch where
  wave : Nat
  pred : Bool
  reg  : Nat
  vals : List (Nat × VWord)
  left : Nat
  deriving DecidableEq, Repr

/-- An instruction that still issues thread pairs (R185): its wave and issue number, the pairs left, the number of its issue on the
machine, and the waves and issue numbers that have its results, which a SPLIT or FUSE changes. -/
structure Busy where
  wave  : Nat
  id    : Nat
  left  : Nat
  op    : Nat
  names : List (Nat × Nat)
  deriving DecidableEq, Repr

/-- The instruction that begins in a cycle: context, wave, path, the path's PC and mask, its issue number, and
whether it stands in a window. -/
structure Began where
  ctx  : Nat
  wave : Nat
  path : Nat
  pc   : Word64
  mask : Word64
  id   : Nat
  win  : Bool
  deriving DecidableEq, Repr

/-- A lane pair (core * 32 + lane pair); `turned` is the cycle after the last in which it had its turn with a wave. -/
structure LanePair where
  hist   : List (Nat × Word64) := []
  stall  : List (Nat × Word64) := []
  idle   : Word64 := 0
  busy   : Nat := 0
  slip   : Word64 := 0
  latch  : List (Nat × Latch) := []
  prog   : List Busy := []
  eligN  : Nat := 0
  reason : Nat := 0
  began  : Option Began := none
  cycles : Nat := 0
  turned : Nat := 0
  deriving DecidableEq, Repr

/-- An accumulator element (R325). -/
structure AccElem where
  e      : Word32 := 0
  o      : Word32 := 0x80000000
  poison : Bool := false
  deriving DecidableEq, Repr

/-! ### Contexts (R201) -/

/-- The configuration record (R202). -/
structure Conf where
  units   : BitVec 256 := 0
  margin  : BitVec 256 := 0
  troot   : Word64 := 0
  tvec    : Word64 := 0
  hmask   : Word32 := 0
  localfr : Nat := 0
  nearq   : Nat := 0
  dieq    : Nat := 0
  lstatic : Nat := 0
  ckpta   : Nat := 3
  privf   : Bool := false
  ring    : Word64 := 0
  ringn   : Nat := 16
  trampn  : Nat := 0
  trampt  : Word64 := 0
  entry   : Word64 := 0
  toff    : Word64 := 0
  deriving DecidableEq, Repr

/-- A declared range (R33): CG, PG, LEN, PERM. -/
structure Decl where
  cg   : Nat
  pg   : Nat
  len  : Nat
  perm : BitVec 3
  deriving DecidableEq, Repr

/-- A completion increment that is owed (R180): counter, increment, the tick at which it is tried again, whether its fault was
reported. -/
structure Due where
  cnt  : Word64
  incr : Nat
  when : Nat := 0
  told : Bool := false
  deriving DecidableEq, Repr

/-- Where a launch stands (R179, R181, R182). -/
inductive JobState | waiting | grid | queued | placed
  deriving DecidableEq, Repr

/-- A launch, or a grid of launches: `members` in order of arrival, `next` the first %launch not yet placed,
`alive` the waves that are not FREE, `arrived` the cycle of arrival, `headAt` the tick since which it has been at the
head of its queue, `groupAt` the tick since which it waits for its next group, `aged` what aging has added to its
priority, `reported` when a fault of its wait counter was, `ready` when that has reached its target and only the queue has no room
(R179), `redo` the %launch to place again and `killed` how often each was killed (R192), `dues` the completion increments not
yet performed (R180). -/
structure Job where
  id       : Nat
  lr       : LaunchRec
  members  : List LaunchRec
  state    : JobState
  next     : Nat := 0
  alive    : Nat := 0
  arrived  : Nat := 0
  headAt   : Option Nat := none
  groupAt  : Nat := 0
  aged     : Nat := 0
  reported : Bool := false
  ready    : Bool := false
  killed   : List (Nat × Nat) := []
  redo     : List Nat := []
  dues     : List Due := []
  deriving DecidableEq, Repr

/-- A fault record (R193). -/
structure FaultRec where
  code   : Nat
  sub    : Nat
  flags  : BitVec 16 := 0
  serial : Nat := 0
  mask   : Word64 := 0
  pc     : Word64 := 0
  addr   : Word64 := 0
  wave   : Nat := 0
  path   : Nat := 31
  ctx    : Nat := 0
  extra  : Word64 := 0
  tick   : Word64 := 0
  index  : Nat := 0
  waited : Bool := false
  deriving DecidableEq, Repr

/-- A record raised by a context and not answered (R198), or answered since the checkpoint that captured its path (R210):
the context whose ring has it (none is the management cluster), its serial and place, the device address of its REPLY
word once written, the path it names, whether a handler has it, whether it is VOID (`mark` while its record does not
say so yet), DONE with its ACTION, `closed` once its record says so. -/
structure Outst where
  ring   : Option Nat
  serial : Nat
  index  : Nat
  reply  : Option Nat := none
  wave   : Nat
  path   : Option Nat
  taken  : Bool := false
  void   : Bool := false
  mark   : Bool := false
  done   : Bool := false
  action : Nat := 0
  closed : Bool := false
  deriving DecidableEq, Repr

/-- A context's ring unit (R195 to R198): whether the header's N is written, the last serial it gave as a faulting
context, the records ever put on its ring, those not yet written, dropped records not yet counted in NPLOST, its own
unanswered records, the serial of an outstanding report (R197). -/
structure Ring where
  made   : Bool := false
  serial : Nat := 0
  next   : Nat := 0
  lost   : Nat := 0
  held   : List FaultRec := []
  out    : List Outst := []
  report : Option Nat := none
  deriving DecidableEq, Repr

/-- A commutative range (R95). `spoilt` when an LDL or STL has touched its partials (R97). -/
structure CRange where
  base   : Word64
  len    : Nat
  op     : COp
  poff   : Nat
  spoilt : Bool := false
  deriving DecidableEq, Repr

/-- A context's state (R204). -/
inductive CState | stopped | running | preempted
  deriving DecidableEq, Repr

/-- A context. `stops` are counters that advance when a stop is complete, `kills` those that advance when the id of a
killed context is free (R281): counter and issuer, killed id and counter. -/
structure Ctx where
  conf     : Conf := {}
  parent   : Option Nat := none
  depth    : Nat := 1
  state    : CState := .stopped
  started  : Bool := false
  entry    : Option LaunchRec := none
  declared : List Decl := []
  flat     : List Range := []
  gver     : Nat := 0
  hold     : Bool := false
  jobs     : List Job := []
  ring     : Ring := {}
  obsBy    : Option Nat := none
  obsT     : Word64 := 0
  obsS     : Word64 := 0
  obsPer   : Nat := 0
  obsTlog  : Nat := 0
  obsSlog  : Nat := 0
  obsCtl   : BitVec 2 := 0
  bkpts    : List (Nat × BitVec 128) := []
  step     : Word32 := 0
  bucket   : Option (Nat × Nat) := none
  tokens   : List (Nat × Int) := []
  cranges  : List (Nat × CRange) := []
  stops    : List (Word64 × Nat) := []
  kills    : List (Nat × Word64) := []
  deriving DecidableEq, Repr

/-! ### Engines -/

/-- A tensor shape record (R306). -/
structure TShape where
  base   : Word64
  dense  : Word64
  cnt    : Word64
  incr   : Nat
  ctl    : Word32
  ext    : List Nat
  str    : List Nat
  pad    : BitVec 16
  follow : Word64
  deriving DecidableEq, Repr

/-- A source element of a copy: its number, bytes, poison. -/
structure SrcElem where
  k      : Nat
  bytes  : List Byte
  poison : Bool
  deriving DecidableEq, Repr

/-- A copy (R305 to R312): 0 COPY, 1 COPYR, 2 COPYM. `lines` are the destination lines written, `elem` their elements,
`got` the source elements already read for the next line;
`landed` when the last byte has landed, `paid` when CNT has advanced, `told` when a fault of CNT was reported, `chained`
when nothing of the follow-on MMA is left to do, `held` while its record is unanswered, `hazard` its hold on its tiles
until it enters the queue. -/
structure Copy where
  id      : Nat
  op      : Nat
  core    : Nat
  ctx     : Nat
  owner   : Nat
  path    : Nat
  seq     : Nat
  team    : Option Nat
  pc      : Word64
  after   : Word64
  ptr     : Word64
  shape   : Option TShape := none
  lines   : Nat := 0
  elem    : Nat := 0
  got     : List SrcElem := []
  started : Bool := false
  stopped : Bool := false
  landed  : Bool := false
  paid    : Bool := false
  told    : Bool := false
  chained : Bool := true
  held    : Bool := false
  hazard  : Option Nat := none
  quiet   : Bool := false
  failure : Option (Nat × Nat × Word64 × Word64) := none
  deriving DecidableEq, Repr

/-- A member's contribution to a collective (R309): wave, path, issue number, address of its copy instruction and of
the one after it. -/
structure Given where
  wave  : Nat
  path  : Nat
  seq   : Nat
  pc    : Word64
  after : Word64
  quiet : Bool := false
  deriving DecidableEq, Repr

/-- The open collective of a team (R309): OP, record, the contributions in order. -/
structure Collective where
  team  : Nat
  op    : Nat
  ptr   : Word64
  froms : List Given
  deriving DecidableEq, Repr

/-- An old line of an undo log (R207). -/
structure LogLine where
  line   : Nat
  poison : Bool
  ctx    : Nat
  data   : List Byte
  deriving DecidableEq, Repr

/-- Tiles and accumulators of all cores: image bytes by (core * 16 + tile) * 32768 + byte, scales by
(core * 16 + tile) * 4096 + byte, the tags of image words and scales likewise, accumulator elements by
(core * 4 + acc) * 16384 + row * 512 + column. -/
structure Matrix where
  image   : List Host.Cell := []
  scales  : List Host.Cell := []
  wpoison : List (Nat × Bool) := []
  spoison : List (Nat × Bool) := []
  accs    : List (Nat × AccElem) := []
  deriving DecidableEq, Repr

/-- What a checkpoint captures (R206), by the same types; `ops` are the TLB invalidations and revocations that its contexts
wait for. A slice end adds the counters of its lane pairs (R219) and the contents of its carve-outs: bytes and poisoned
lines by (core * 4096 + context) * 2^22 + offset. -/
structure Snapshot where
  waves  : List (Nat × Wave) := []
  cores  : List (Nat × Core) := []
  ctxs   : List (Nat × Ctx) := []
  copies : List Copy := []
  colls  : List Collective := []
  mx     : Matrix := {}
  ops    : List Instr := []
  lps    : List (Nat × LanePair) := []
  locals : List Host.Cell := []
  lpoison : List Nat := []
  deriving DecidableEq, Repr

/-- A partition (R205 to R209), keyed by its root context: checkpoint period in ticks, lines of its undo log, borrowers, log
with the newest line first, snapshot, units lent to it with their owner, counters of its own units that it has lent,
`ended` while it is rolled back, `pausing` while a checkpoint waits for the accesses on their way, `area` its Chrysalis area in HBM:
device address and bytes (R206). -/
structure Partition where
  period  : Nat
  logMax  : Nat
  borrow  : List Nat
  log     : List LogLine := []
  snap    : Snapshot := {}
  lent    : List (Nat × Nat) := []
  saved   : List (Nat × LanePair) := []
  ended   : Bool := false
  pausing : Bool := false
  area    : Nat × Nat := (0, 0)
  deriving DecidableEq, Repr

/-! ### The device and the outside -/

/-- The clocks (R6, R377); `phase` is how far the tick has gone, of 26,880; `swept` is the tick to which the last LASTTOUCH_SWEEP has raised every older LASTTOUCH (R44). -/
structure Clock where
  cycle    : Nat := 0
  tick     : Nat := 0
  phase    : Nat := 0
  throttle : BitVec 3 := 0
  swept    : Nat := 0
  deriving DecidableEq, Repr

/-- A peer port (R370): the flit that failed its CRC last, and how often it has been retried. -/
structure Port where
  down    : Bool := false
  flit    : Nat := 0
  retries : Nat := 0
  deriving DecidableEq, Repr

/-- The device's outside: host link, ports, boot, attestation, power; the management cluster's ring, and the unanswered
records of contexts that are gone, by context. `tier2` is the second-tier memory installed, `peerMem` that of each peer, `hostMem`
the host's memory (R24); `failing` the peer devices under recovery (R100); `hostQ` the host's requests that wait, each under an id,
in order of arrival (R121); `replies` what the host and the peers have been answered, none for an unsupported request (R90);
`tower` and `engine` the digests of the dies' images (R375). -/
structure Device where
  state    : Nat := 1
  dieUp    : BitVec 8 := 0
  devId    : BitVec 6 := 0
  hostCnt  : Word64 := 0
  hdm      : List (Nat × Nat) := []
  hostUp   : Bool := false
  hostOn   : Bool := false
  hostId   : Nat := 63
  present  : List Nat := []
  tier2    : Nat := 0
  peerMem  : List (Nat × Nat) := []
  hostMem  : Nat := 0
  failing  : List Nat := []
  hostQ    : List (Nat × Instr) := []
  ports    : List (Nat × Port) := []
  routes   : List (Nat × List Nat) := []
  power    : Bool := false
  ring     : List FaultRec := []
  orphans  : List (Nat × Outst) := []
  mailbox  : List (Nat × Word64) := []
  svn      : Nat := 0
  minSvn   : Nat := 0
  fw       : BitVec 256 := 0
  tower    : List (BitVec 256) := []
  engine   : List (BitVec 256) := []
  reports  : List (List Byte) := []
  replies  : List (Option (Nat × List Byte)) := []
  deriving DecidableEq, Repr

/-- A dual-home window (R93): page, new base, whether it has switched. -/
structure Dual where
  page     : Nat
  base     : Nat
  switched : Bool := false
  redirect : Bool := false
  deriving DecidableEq, Repr

/-- What the homes keep beside the data: poisoned lines, directory words, lost parts with their lost lines,
dual-home windows. -/
structure Homes where
  poison : List (Nat × Bool) := []
  dir    : List (Nat × DirWord) := []
  lost   : List (Nat × List Nat) := []
  dual   : List Dual := []
  deriving DecidableEq, Repr

/-- The pin grant of the coherent domain (R117): holder, waves waiting in order, the tick of the grant. -/
structure Pins where
  holder : Option Nat := none
  queue  : List Nat := []
  since  : Nat := 0
  deriving DecidableEq, Repr

/-- A line of read sets that something has struck (R113): on every core of a die, or on one core, but for the
wave that struck it. -/
structure Hit where
  onCore : Bool
  unit   : Nat
  line   : Nat
  except : Option Nat
  deriving DecidableEq, Repr

/-- A step due at a cycle, or at a tick when `onTick`. -/
structure Timer where
  onTick : Bool
  due    : Nat
  ev     : Instr
  deriving DecidableEq, Repr

/-- An operation waits in physical time for a lease (R73, R77): of the home mark of a die (kind 0), of a line (1), of a part's lines
(2); the tick at which it may go on, and the wave whose access it is, if it is a core's (log 45). -/
structure Gate where
  kind : Nat
  key  : Nat
  due  : Nat
  wave : Option Nat
  deriving DecidableEq, Repr

/-- The path that issues: wave, path index, address and slot length of its instruction, the address the path
stands at (the REP word of a group), whether it is a repetition. -/
structure Cur where
  wave : Nat
  path : Nat
  pc   : Word64
  base : Word64
  slot : Nat
  rep  : Bool
  deriving DecidableEq, Repr

/-- The model's own fields (log 4): the steps due now, the steps due later, the lane pairs that have not begun
in this cycle, the issuing path, whether the last exec began its instruction, the counter of the free values,
the counter of fresh ids, the steps that wait in physical time, the conflicts not yet acted on, the waits of R73 and R77 that
later accesses of cores stay behind. -/
structure Sched where
  agenda : List Instr := []
  timers : List Timer := []
  todo   : List Nat := []
  cur    : Option Cur := none
  issued : Bool := false
  free   : Nat := 0
  nextId : Nat := 0
  waits  : List (Nat × Instr) := []
  hits   : List Hit := []
  gates  : List Gate := []
  deriving DecidableEq, Repr

/-- The machine. mem is the memory at home by device address; fmem the data of the frames by
(core * 256 + frame) * 65536 + byte. -/
structure State where
  clk    : Clock
  dev    : Device
  mem    : List Host.Cell
  fmem   : List Host.Cell
  homes  : Homes
  dies   : List (Nat × Die)
  frames : List (Nat × FrameRec)
  lines  : List (Nat × LineRec)
  cores  : List (Nat × Core)
  lps    : List (Nat × LanePair)
  mx     : Matrix
  waves  : List (Nat × Wave)
  ctxs   : List (Nat × Ctx)
  parts  : List (Nat × Partition)
  copies : List Copy
  colls  : List Collective
  pins   : Pins
  sch    : Sched
  deriving DecidableEq, Repr

/-- The machine right after reset: no context, no wave, every frame FREE at generation 0, every directory word
NONE, every mark 0 (R44, R45, R48, R59, R82, R88), DEVSTAT booting (R368). Where the manual gives no value, log 2. -/
def State.reset : State where
  clk    := {}
  dev    := {}
  mem    := []
  fmem   := []
  homes  := {}
  dies   := []
  frames := []
  lines  := []
  cores  := []
  lps    := []
  mx     := {}
  waves  := []
  ctxs   := []
  parts  := []
  copies := []
  colls  := []
  pins   := {}
  sch    := {}

end Sys2Proof.Machine
end

