-- ==== Sys2Proof/Machine/Sparse.lean ====
section
/-!
DEFINITION. Sparse collections: a list of (key, value) pairs with strictly rising keys. `Sp.get` and `Sp.put`
take the value that an unlisted key reads as; `Sp.put` of that value removes the entry, so that equal contents
are equal lists.
-/

namespace Sys2Proof.Machine

variable {α : Type}

/-- The value listed at a key. -/
def Sp.find : List (Nat × α) → Nat → Option α
  | [], _ => none
  | (j, v) :: m, k => if j = k then some v else Sp.find m k

/-- The list with the value at a key set. -/
def Sp.insert : List (Nat × α) → Nat → α → List (Nat × α)
  | [], k, v => [(k, v)]
  | (j, w) :: m, k, v =>
    if k < j then (k, v) :: (j, w) :: m
    else if j = k then (k, v) :: m
    else (j, w) :: Sp.insert m k v

/-- The list without a key. -/
def Sp.erase : List (Nat × α) → Nat → List (Nat × α)
  | [], _ => []
  | (j, w) :: m, k => if j = k then Sp.erase m k else (j, w) :: Sp.erase m k

/-- What a key reads as, `d` when it is not listed. -/
def Sp.get (d : α) (m : List (Nat × α)) (k : Nat) : α := (Sp.find m k).getD d

/-- The list with what a key reads as set. -/
def Sp.put [DecidableEq α] (d : α) (m : List (Nat × α)) (k : Nat) (v : α) : List (Nat × α) :=
  if v = d then Sp.erase m k else Sp.insert m k v

/-- Apply a function to what a key reads as. -/
def Sp.upd [DecidableEq α] (d : α) (m : List (Nat × α)) (k : Nat) (f : α → α) : List (Nat × α) :=
  Sp.put d m k (f (Sp.get d m k))

/-- Keys strictly rise. -/
abbrev Sp.Sorted (m : List (Nat × α)) : Prop := m.Pairwise (fun a b => a.1 < b.1)

/-- The canonical form: keys strictly rise and no entry holds what an unlisted key reads as. -/
abbrev Sp.Canon [DecidableEq α] (d : α) (m : List (Nat × α)) : Prop :=
  Sp.Sorted m ∧ ∀ c ∈ m, c.2 ≠ d

/-- What an unlisted byte of memory at home, of a frame, or of a tile image reads as: log 3. -/
def Memory.fresh : Byte := 0

/-- What an unlisted scale byte reads as: 0x7F, as a claim leaves it (R324). -/
def Memory.scaleFresh : Byte := 0x7F

/-- Read one byte. -/
def Memory.read (m : List Host.Cell) (a : Nat) : Byte := Sp.get Memory.fresh m a

/-- Write one byte. -/
def Memory.write (m : List Host.Cell) (a : Nat) (b : Byte) : List Host.Cell := Sp.put Memory.fresh m a b

/-- n bytes from a, the lowest address first. -/
def Memory.readN (m : List Host.Cell) (a : Nat) : Nat → List Byte
  | 0 => []
  | n + 1 => Memory.read m a :: Memory.readN m (a + 1) n

/-- Write bytes from a upwards. -/
def Memory.writeN (m : List Host.Cell) (a : Nat) : List Byte → List Host.Cell
  | [] => m
  | b :: bs => Memory.writeN (Memory.write m a b) (a + 1) bs

/-- The canonical form of a memory. -/
abbrev Memory.wf (m : List Host.Cell) : Prop := Sp.Canon Memory.fresh m

/-- Little-endian value of bytes (R122). -/
def leNat : List Byte → Nat
  | [] => 0
  | b :: bs => b.toNat + 256 * leNat bs

/-- n little-endian bytes of a value. -/
def leBytes (v : Nat) : Nat → List Byte
  | 0 => []
  | n + 1 => BitVec.ofNat 8 v :: leBytes (v / 256) n

/-- The value of w bits at a byte offset of a record. -/
def fieldAt (bs : List Byte) (off n : Nat) : Nat := leNat ((bs.drop off).take n)

end Sys2Proof.Machine
end

