-- ==== Sys2Proof/WellFormed.lean ====
section
/-!
DEFINITION. Which terms of Instr are instructions: the register files, the pair and group rules, and the values
that an entry reserves (R228, R235, R241, R244 to R299, R328). A term that fails is encoded by no word.
-/

namespace Sys2Proof

/-- The register classes of R228. -/
inductive RegClass | v | w | s | x | p | t | a | q
  deriving DecidableEq, Repr

/-- Is n a register of the class (R228, R286)? The class q is the .n128 group of four v registers. -/
def RegClass.ok : RegClass → BitVec 8 → Bool
  | .v, _ => true
  | .w, n => n.toNat % 2 == 0
  | .q, n => n.toNat % 4 == 0
  | .s, n => n.toNat < 64
  | .x, n => n.toNat < 64 && n.toNat % 2 == 0
  | .p, n => n.toNat < 24
  | .t, n => n.toNat < 16
  | .a, n => n.toNat < 4

/-- The class in S form of a class of the vector form (R228). -/
def RegClass.scalar : RegClass → RegClass
  | .v => .s
  | .w => .x
  | c => c

/-- The class a register field has in the form: s and x in S form, v and w otherwise. -/
def RegClass.inForm (c : RegClass) (s : Bool) : RegClass := if s then c.scalar else c

/-- A .n128 group in the form's file (R286). -/
def groupOk (s : Bool) (n : BitVec 8) : Bool := n.toNat % 4 == 0 && (!s || n.toNat < 64)

/-- A guard and flag that some instruction may carry (R226, R230); take says whether this entry takes a
guard (R262) and flag whether SETF is free. -/
def Ctl.ok (take flag : Bool) (k : Ctl) : Bool :=
  (k.guard.toNat < 24 && take || k.guard == 31 && !k.gneg) &&
  (k.setf.toNat < 12 && flag || k.setf == 15)

/-- HOLD may name only a register source the instruction has, vector or predicate (R235). -/
def Ctl.holdOk (a b c : Bool) (k : Ctl) : Bool :=
  k.hold == 0 || k.hold == 1 && a || k.hold == 2 && b || k.hold == 3 && c

/-- Control fields of an instruction without a source to latch. -/
def Ctl.plain (take : Bool) (k : Ctl) : Bool := k.ok take true && k.hold == 0

/-- A source that is a register of the class in the form, a scalar under a kind bit, or neutral. -/
def Src.okReg (c : RegClass) (s : Bool) : Src → Bool
  | .reg n => (c.inForm s).ok n
  | .sca n => !s && c.scalar.ok n && (c == .v || c == .w)
  | .imm _ => false

/-- The neutral source. -/
def Src.none : Src := .reg 0

/-- Is the source the immediate? -/
def Src.isImm : Src → Bool
  | .imm _ => true
  | _ => false

/-- Is the source a plain register of the form's file? -/
def Src.isReg : Src → Bool
  | .reg _ => true
  | _ => false

/-- May the source be held in the operand latch (R235)? -/
def Src.canHold (s : Bool) (x : Src) : Bool := !s && x.isReg

/-- Which TYPE values an entry takes in form I or C (R248). -/
inductive TypeSet | any | word | zero | wide
  deriving DecidableEq, Repr

/-- Is the TYPE in the set, in the given form? wide is IADDW and ISUBW: .n32, or .i32 for an immediate. -/
def TypeSet.has : TypeSet → Form → IType → Bool
  | .any, _, _ => true
  | .word, _, t => t == .n32 || t == .i32
  | .zero, _, t => t == .n32
  | .wide, .i, t => t == .n32 || t == .i32
  | .wide, _, t => t == .n32

/-- How an entry of R248 or R253 uses its fields. -/
structure Shape where
  r : Bool
  i : Bool
  c : Bool
  srcs : Nat
  d : RegClass
  ka : RegClass
  kb : RegClass
  kc : RegClass
  ty : TypeSet
  sat : Bool
  sgn : Bool
  deriving DecidableEq, Repr

/-- Does the entry have the form? -/
def Shape.has (h : Shape) : Form → Bool
  | .r => h.r
  | .i => h.i
  | .c => h.c

/-- The sources a shape takes in a form: the immediate stands for the last one (R229). -/
def Shape.srcsOk (h : Shape) (s : Bool) (f : Form) (a b c : Src) : Bool :=
  let plain (k : RegClass) (x : Src) := x.okReg k s && (f == .c || x.isReg)
  match h.srcs with
  | 0 => a == .none && b == .none && c == .none
  | 1 => plain h.ka a && b == .none && c == .none
  | 2 => plain h.ka a && c == .none && (if f == .i then b.isImm else plain h.kb b)
  | _ => plain h.ka a && plain h.kb b && (if f == .i then c.isImm else plain h.kc c)

/-- Which latches HOLD may fill for these sources. -/
def Shape.holdOk (h : Shape) (s : Bool) (k : Ctl) (a b c : Src) : Bool :=
  k.holdOk (decide (1 ≤ h.srcs) && a.canHold s) (decide (2 ≤ h.srcs) && b.canHold s)
    (decide (3 ≤ h.srcs) && c.canHold s)

/-- A destination register of the shape: a predicate destination is a scalar register in S form (R248). -/
def Shape.dstOk (h : Shape) (s : Bool) (d : BitVec 8) : Bool :=
  if h.d == .p then (if s then RegClass.ok .s d else RegClass.ok .p d) else (h.d.inForm s).ok d

/-- The TYPE an integer instruction has in each form: form R has .n32 or, where MOD holds SGN, .i32, and the
immediate of a three-source instruction has no TYPE (R244, R248). -/
def Shape.tyOk (h : Shape) (dflt : IType) (f : Form) (t : IType) : Bool :=
  match f with
  | .r => t == dflt || h.sgn && (t == .n32 || t == .i32)
  | .i => if h.srcs == 3 then t == .n32 else h.ty.has .i t
  | .c => h.ty.has .c t

/-- Well-formed integer operands. -/
def Alu.wf (h : Shape) (dflt : IType) (o : Alu) : Bool :=
  o.ctl.ok true true && h.has o.form && h.srcsOk o.s o.form o.a o.b o.c &&
  h.holdOk o.s o.ctl o.a o.b o.c && h.dstOk o.s o.dst && h.tyOk dflt o.form o.ty &&
  (!o.sat || h.sat && (o.form == .c || o.form == .i))

/-- Well-formed floating operands; rnds says whether the entry carries RND. -/
def Flt.wf (h : Shape) (rnds : Bool) (o : Flt) : Bool :=
  o.ctl.ok true true && h.has o.form && h.srcsOk o.s o.form o.a o.b o.c &&
  h.holdOk o.s o.ctl o.a o.b o.c && h.dstOk o.s o.dst && (rnds || o.rnd == .rn)

namespace Shape
/-- Two 32-bit sources in all three forms, any TYPE, SAT (IADD, ISUB, IMUL). -/
def arith : Shape := ⟨true, true, true, 2, .v, .v, .v, .v, .any, true, false⟩
/-- IMIN, IMAX. -/
def minmax : Shape := ⟨true, true, true, 2, .v, .v, .v, .v, .any, false, true⟩
/-- IMULH, BFX: SGN in form R, 32-bit TYPE. -/
def wordSgn : Shape := ⟨true, true, true, 2, .v, .v, .v, .v, .word, false, true⟩
/-- Bitwise and shift instructions. -/
def word2 : Shape := ⟨true, true, true, 2, .v, .v, .v, .v, .word, false, false⟩
/-- IMAD, BFI, PERMB. -/
def word3 : Shape := ⟨false, true, true, 3, .v, .v, .v, .v, .word, false, false⟩
/-- IMADW. -/
def madw : Shape := ⟨false, false, true, 3, .w, .v, .v, .w, .word, false, false⟩
/-- IADDW, ISUBW. -/
def wide2 : Shape := ⟨true, true, true, 2, .w, .w, .w, .w, .wide, false, false⟩
/-- INEG, IABS. -/
def unSat : Shape := ⟨true, false, true, 1, .v, .v, .v, .v, .any, true, false⟩
/-- NOT, POPC, CLZ, CTZ, BREV. -/
def un : Shape := ⟨true, false, true, 1, .v, .v, .v, .v, .word, false, false⟩
/-- SHLW, SHRW. -/
def shiftW : Shape := ⟨true, true, true, 2, .w, .w, .v, .v, .word, false, false⟩
/-- ICMP. -/
def icmp : Shape := ⟨false, true, true, 2, .p, .v, .v, .v, .any, false, false⟩
/-- SEL, whose third source is a predicate, or a scalar register in S form. -/
def sel (w64 : Bool) : Shape :=
  if w64 then ⟨false, false, true, 3, .w, .w, .w, .p, .zero, false, false⟩
  else ⟨false, false, true, 3, .v, .v, .v, .p, .zero, false, false⟩
/-- MOV. -/
def mov (w64 : Bool) : Shape :=
  if w64 then ⟨true, false, true, 1, .w, .w, .v, .v, .zero, false, false⟩
  else ⟨true, false, true, 1, .v, .v, .v, .v, .zero, false, false⟩
/-- LEA: any TYPE in form C, 32-bit in form I. -/
def lea (f : Form) : Shape :=
  ⟨true, true, true, 2, .w, .w, .v, .v, if f == .i then .word else .any, false, false⟩
/-- Two floating sources in all three forms. -/
def flt2 : Shape := ⟨true, true, true, 2, .v, .v, .v, .v, .zero, false, false⟩
/-- Three floating sources, forms I and C. -/
def flt3 : Shape := ⟨false, true, true, 3, .v, .v, .v, .v, .zero, false, false⟩
/-- FCMP. -/
def fcmp : Shape := ⟨false, true, true, 2, .p, .v, .v, .v, .zero, false, false⟩
/-- One floating source, form R only. -/
def flt1 : Shape := ⟨true, false, false, 1, .v, .v, .v, .v, .zero, false, false⟩
/-- FCVTP: two sources, form C only. -/
def cvtp : Shape := ⟨false, false, true, 2, .v, .v, .v, .v, .zero, false, false⟩
end Shape

/-- SEL's third source: a predicate number, or in S form a scalar register (R251). -/
def selSrcOk (s : Bool) : Src → Bool
  | .reg n => if s then RegClass.ok .s n else RegClass.ok .p n
  | _ => false

/-- SEL's operands. -/
def Alu.wfSel (w64 : Bool) (o : Alu) : Bool :=
  let k : RegClass := if w64 then .w else .v
  o.ctl.ok true true && o.form == .c && o.a.okReg k o.s && o.b.okReg k o.s && selSrcOk o.s o.c &&
  o.ctl.holdOk (o.a.canHold o.s) (o.b.canHold o.s) (o.c.canHold o.s) && (k.inForm o.s).ok o.dst && o.ty == .n32 && !o.sat

/-- SAT goes only with FP8 and FP4 destinations (R258). -/
def FFmt.satOk : FFmt → Bool
  | .e4m3 | .e5m2 | .e2m1 => true
  | _ => false

/-- The last j of FCVTP for a destination (R259); FP32 has none. -/
def FFmt.lastPair : FFmt → Option Nat
  | .f32 => none
  | .bf16 | .f16 => some 0
  | .e4m3 | .e5m2 => some 1
  | .e2m1 => some 3

/-- The last j of FCVTX for a source (R259); FP32 has none. -/
def FFmt.lastElem : FFmt → Option Nat
  | .f32 => none
  | .bf16 | .f16 => some 1
  | .e4m3 | .e5m2 => some 3
  | .e2m1 => some 7

/-- j is within a bound that may be absent. -/
def withinLast (l : Option Nat) (j : Nat) : Bool :=
  match l with
  | some m => decide (j ≤ m)
  | none => false

/-- Well-formed predicate operands (R260). -/
def Prd.wf (two : Bool) (o : Prd) : Bool :=
  o.ctl.ok true true && o.ctl.holdOk true two false && RegClass.ok .p o.dst && RegClass.ok .p o.a &&
  (if two then RegClass.ok .p o.b else o.b == 0 && !o.na && !o.nb)

/-- The register class a transfer of the size names, in the form (R286). -/
def MSize.regOk (z : MSize) (s : Bool) (n : BitVec 8) : Bool :=
  match z with
  | .n128 => groupOk s n
  | .n64 => (RegClass.w.inForm s).ok n
  | _ => (RegClass.v.inForm s).ok n

/-- Control fields of the memory mould: the pointer pair may be latched in vector form (R235, R285). -/
def Mem.wf (o : Mem) : Bool :=
  o.ctl.ok true true && o.ctl.holdOk (!o.s) false false && (RegClass.w.inForm o.s).ok o.ptr &&
  (o.wide || o.off == 0)

/-- Well-formed ATOM and CAS operands (R290). -/
def Atm.wf (isCas noret : Bool) (o : Atm) : Bool :=
  let k : RegClass := if o.wide then .w else .v
  o.ctl.ok true true && (RegClass.w.inForm o.s).ok o.ptr && o.val.okReg k o.s &&
  (if isCas then o.new.okReg k o.s else o.new == .none) &&
  (if noret then o.dst == 0 else (k.inForm o.s).ok o.dst) &&
  o.ctl.holdOk (!o.s) (o.val.canHold o.s) (isCas && o.new.canHold o.s)

/-- The assigned selectors of R272, with width 64, writability, and whether S form reads it. -/
def specialReg (sel : Nat) : Option (Bool × Bool × Bool) :=
  if sel == 0 then some (false, false, false)
  else if sel ≤ 8 then some (false, false, true)
  else if 0x10 ≤ sel && sel ≤ 0x13 then some (true, false, true)
  else if sel == 0x18 then some (false, true, true)
  else if 0x20 ≤ sel && sel ≤ 0x24 then some (false, true, true)
  else if 0x40 ≤ sel && sel ≤ 0x5D then some (true, true, true)
  else none

/-- SRD's and SWR's selector rules (R271). -/
def srdOk (sc w64 : Bool) (sel : BitVec 8) : Bool :=
  match specialReg sel.toNat with
  | some (w, _, sOk) => w == w64 && (!sc || sOk)
  | none => false
def swrOk (w64 : Bool) (sel : BitVec 8) : Bool :=
  match specialReg sel.toNat with
  | some (w, wr, _) => w == w64 && wr
  | none => false

/-- SGN goes only with min and max (R277, R290). -/
def RedOp.sgnOk : RedOp → Bool
  | .min | .max => true
  | _ => false
def AOp.sgnOk : AOp → Bool
  | .min | .max => true
  | _ => false

/-- A 64-bit form's offset is zero (R299). -/
def Arr.wf (o : Arr) : Bool :=
  o.ctl.plain true && RegClass.ok .x o.ptr && (o.wide || o.off == 0) &&
  (match o.cnt with | some r => RegClass.ok .s r | none => true)

/-- An MMA's operands (R328). -/
def Mma.wf (bp : Bool) (o : Mma) : Bool :=
  o.ctl.plain false && RegClass.ok .a o.acc && RegClass.ok .t o.a && RegClass.ok .t o.b && RegClass.ok .s o.n &&
  (bp || o.preg == 0)

/-- A TDRAIN's operands (R328). -/
def Drn.wf (o : Drn) : Bool :=
  o.ctl.plain false && RegClass.ok .t o.tile && RegClass.ok .a o.acc &&
  (if o.scv then RegClass.ok .t o.tv else o.tv == 0) && (if o.ncv then RegClass.ok .s o.sn else o.sn == 0)

/-- A register or an immediate of a scalar instruction with both forms. -/
def Src.okScalar (k : RegClass) : Src → Bool
  | .reg n => k.ok n
  | .imm _ => true
  | .sca _ => false

/-- The signed offset of a 64-bit BRA or CALL has 20 bits (R236). -/
def offOk (wide : Bool) (off : BitVec 32) : Bool := wide || ((off.setWidth 20).signExtend 32 == off)

/-- A tile move's operands (R328). -/
def tmovOk (st : Bool) : TMov → Bool
  | .data => true
  | .strided r => RegClass.ok .s r
  | .scales => true
  | .mxScales => !st

/-- The terms that are instructions. The rows that are steps of other agents are no instructions: they have
no word, and none is well formed as one. -/
def Instr.wf : Instr → Bool
  | .iadd o | .isub o | .imul o => o.wf .arith .n32
  | .imulh o | .bfx o => o.wf .wordSgn .n32
  | .imad o | .bfi o | .permb o => o.wf .word3 .n32
  | .imadw o => o.wf .madw .n32
  | .iaddw o | .isubw o => o.wf .wide2 .n32
  | .ineg o => o.wf .unSat .n32
  | .iabs o => o.wf .unSat .i32
  | .imin o | .imax o => o.wf .minmax .n32
  | .band o | .bor o | .bxor o | .bandn o | .shl o | .shr o | .sar o => o.wf .word2 .n32
  | .bnot o | .popc o | .clz o | .ctz o | .brev o => o.wf .un .n32
  | .shlw o | .shrw _ o => o.wf .shiftW .n32
  | .icmp _ o => o.wf .icmp .n32
  | .sel w o => o.wfSel w
  | .mov w o => o.wf (.mov w) .n32
  | .movi k s d v =>
    k.plain true && (match v with | .word _ => (RegClass.v.inForm s).ok d | _ => (RegClass.w.inForm s).ok d)
  | .lea _ o => o.wf (.lea o.form) .n32
  | .fadd o | .fsub o | .fmul o => o.wf .flt2 true
  | .ffma o => o.wf .flt3 true
  | .fmin o | .fmax o | .badd2 o | .bmul2 o => o.wf .flt2 false
  | .bfma2 o | .hfma2 o => o.wf .flt3 false
  | .fcmp _ o => o.wf .fcmp false
  | .frnd o => o.wf .flt1 true
  | .fclass o | .frcp o | .frsq o | .fsqrt o | .fexp2 o | .flog2 o | .fsin o | .fcos o => o.wf .flt1 false
  | .fcvt d _ sat o => o.wf .flt1 true && (!sat || d.satOk)
  | .fcvtp d sat j o => o.wf .cvtp true && (!sat || d.satOk) && withinLast d.lastPair j.toNat
  | .fcvtx f j o => o.wf .flt1 false && withinLast f.lastElem j.toNat
  | .i2f _ o | .f2i _ o => o.wf .flt1 true
  | .pand o | .por o | .pxor o => o.wf true
  | .pnot o | .pmov o => o.wf false
  | .p2v k _ => k.plain true
  | .v2p k _ _ => k.ok true true && k.holdOk true false false
  | .split k d => k.plain false && RegClass.ok .s d
  | .fuse k d a n => k.plain false && RegClass.ok .s d && decide (a.toNat + n.toNat ≤ 64) && (n != 0 || a == 0) &&
      RegClass.ok .s a
  | .vote k m ds d a => k.ok true true && k.holdOk true false false && RegClass.ok .p a &&
      (if m == .ballot then (if ds then RegClass.ok .x d else RegClass.ok .w d)
       else (if ds then RegClass.ok .s d else RegClass.ok .p d))
  | .shfl k _ _ _ b => k.ok true true && k.holdOk true b.isReg false && (b.isReg || b.isImm)
  | .wred k op sgn ds d _ => k.ok true true && k.holdOk true false false && (!sgn || op.sgnOk) &&
      (!ds || RegClass.ok .s d)
  | .wscan k op sgn _ _ _ => k.ok true true && k.holdOk true false false && (!sgn || op.sgnOk)
  | .bcast k ds d _ b => k.ok true true && k.holdOk true false false && (!ds || RegClass.ok .s d) &&
      (match b with | .sca n => RegClass.ok .s n | .imm _ => true | .reg _ => false)
  | .grow k n | .shrink k n => k.plain false && n.okScalar .s
  | .bra k w off => k.plain true && offOk w off
  | .call k w off => k.plain false && offOk w off
  | .brx k s a => k.ok true true && k.holdOk (!s) false false && (RegClass.w.inForm s).ok a
  | .callx k s a | .ret k s a => k.ok false true && k.holdOk (!s) false false && (RegClass.w.inForm s).ok a
  | .exit k => k.plain true
  | .meet k | .yield k _ | .mark k _ | .bkpt k _ | .tretRetry k | .tretSkip k => k.plain false
  | .nop k _ => k.plain false
  | .rep _ _ _ _ => true
  | .pfc k a _ => k.plain false && RegClass.ok .x a
  | .trap k _ => k.plain true
  | .srd k s w d r => k.plain (!s) && srdOk s w r && (if w then (RegClass.w.inForm s).ok d else (RegClass.v.inForm s).ok d)
  | .swr k w r a => k.plain false && swrOk w r && (if w then RegClass.ok .x a else RegClass.ok .s a)
  | .ld z o | .st z o | .ldl z o | .stl z o => o.wf && z.regOk o.s o.dst
  | .prf _ o => o.wf && o.dst == 0
  | .cadd _ o => o.wf && (RegClass.v.inForm o.s).ok o.dst
  | .atom op sgn nr o => o.wf false nr && (!sgn || op.sgnOk) && !(op == .fadd && o.wide)
  | .cas o => o.wf true false
  | .crange k _ _ d a _ _ => k.plain false && RegClass.ok .s d && RegClass.ok .x a
  | .crflush k _ => k.plain false
  | .lease k n => k.plain false && (match n with | .imm n => n != 0 | .reg r => RegClass.ok .s r)
  | .fence k | .tleave k => k.plain false
  | .tnew k d n => k.plain false && RegClass.ok .x d && n.okScalar .s
  | .tjoin k d a => k.plain false && RegClass.ok .s d && RegClass.ok .x a
  | .binit k a _ e => k.plain false && RegClass.ok .x a && (match e with | .reg r => RegClass.ok .s r | .imm _ => true)
  | .barv o | .bdrop o => o.wf
  | .bwait k d a _ _ _ => k.plain true && RegClass.ok .p d && RegClass.ok .x a
  | .btest k d a _ => k.plain true && RegClass.ok .x d && RegClass.ok .x a
  | .copy k a | .copyr k a | .copym k a | .launch k a => k.plain false && RegClass.ok .x a
  | .cntadd k a n => k.plain true && RegClass.ok .x a && n.okScalar .x
  | .waitge k d a t _ => k.plain true && RegClass.ok .p d && RegClass.ok .x a && t.okScalar .x
  | .vqput k _ d a => k.plain false && RegClass.ok .s d && RegClass.ok .x a
  | .tcfg k t v => k.plain false && RegClass.ok .t t && v.okScalar .s
  | .tld k t a m => k.plain false && RegClass.ok .t t && RegClass.ok .x a && tmovOk false m
  | .tst k t a m => k.plain false && RegClass.ok .t t && RegClass.ok .x a && tmovOk true m
  | .tzero k t => k.plain false && RegClass.ok .t t
  | .azero k a | .azeroRel k a => k.plain false && RegClass.ok .a a
  | .mmaF o | .mmaX o | .mmaI8 o => o.wf false
  | .mmaBp o => o.wf true
  | .tdrain o => o.wf
  | .ctxnew k d r => k.plain false && RegClass.ok .x d && RegClass.ok .x r
  | .ctxgrant k d t r | .ctxrevoke k d t r | .ctxstop k d t r | .ctxkill k d t r =>
      k.plain false && RegClass.ok .s d && RegClass.ok .s t && RegClass.ok .x r
  | .ctxrun k d t => k.plain false && RegClass.ok .s d && RegClass.ok .s t
  | .ctxpeek k d t b _ _ | .ctxpoke k d t b _ _ =>
      k.plain false && RegClass.ok .s d && RegClass.ok .s t && RegClass.ok .x b
  | .tlbinvPage k a c _ => k.ok false false && k.hold == 0 && RegClass.ok .x a && RegClass.ok .x c
  | .tlbinvCtx k c => k.ok false false && k.hold == 0 && RegClass.ok .x c
  | .tlbinvChild k t c => k.ok false false && k.hold == 0 && RegClass.ok .s t && RegClass.ok .x c
  | .qosset k d t v => k.plain false && RegClass.ok .s d && RegClass.ok .s t && RegClass.ok .s v
  | .tramp k _ | .trampret k _ => k.ok false false && k.hold == 0
  | .accessPerformed _ _ | .pinGrant _ | .pinGrantTimeout _ _ | .pinTimeout _ _ | .ptsTick | .lasttouchSweep
  | .timestampSweep | .monarchInterval | .forwardingEnd _ _ _ | .locate _ _ _ | .fill _ _ _ | .eviction _ _ _
  | .frameArrival _ _ _ _ | .atlasHoldExpiry _ _ | .wrapNotice _ _ | .pageWalk _ _ _ _ _
  | .tlbinvComplete _ _ _ _ _ _ | .homeRead _ _ | .homeReadForOwnership _ _ | .homeUpgrade _ _ | .writeBack _ _
  | .cleanEvictionNotice _ _ _ | .forwardedRead _ _ | .forwardedReadForOwnership _ _ | .invalidation _ _
  | .holderRegistration _ _ | .backInvalidation _ _ | .streamedAccess _ _ | .clocklessWaitDone _ | .combine _ _ _
  | .memrd _ _ | .memwr _ _ | .meminv _ | .snpdata _ | .snpinv _ | .snpcur _ | .hostUnsupportedRequest
  | .copyStart _ | .copyStop _ | .copyComplete _ | .arrayOperationComplete _ | .gather _ _ | .bilerp _ _
  | .search _ _ | .engineRequestComplete _ _ | .waitCounterPoll _ _ | .waitCounterRetry _ _ | .dispatchPlacement _
  | .headAging _ _ | .gridClose _ _ | .waveFree _ | .pathUrgent _ _ | .yieldExpiry _ _ | .fetchBlockArrival _ _ _
  | .growGrant _ | .spill _ | .restore _ | .fuseTimeout _ _ | .pollRecheck _ _ | .ringRecordWrite _
  | .ringReply _ _ _ | .ringWriteRetry _ | .localUe _ _ _ | .registerUe _ | .checkpoint _ | .sliceEnd _
  | .sliceStart _ | .lendUnit _ _ | .reclaim _ | .rootConfiguration _ | .bankPowerOff _ | .bankPowerOn _
  | .unitDrain _ | .homeFailureRecovery _ | .homelostClear _ | .dualHomeOpen _ _ | .switch _ | .bucketRefill
  | .sample _ _ | .ctxstopComplete _ | .ctxkillComplete _ | .ctxrevokeComplete _ _ _ | .hostLinkReset
  | .bar0Write _ _ | .attestationRequest _ | .flitCrcRetry _ | .deviceUnreachable _ | .memoryDeviceLoss _ _ _
  | .poisonResponse _ | .modulePowerOn _ | .throttleStep _ | .thermalPowerOff | .orderlyPowerOff _
  | .notAnInstruction _ | .resultWritten _ _ | .traceRecordWrite _ | .lanePairCycle | .purgeComplete _
  | .bisnpResponse _ | .hostLinkTrained | .modulePowerLoss => false

end Sys2Proof
end

