-- ==== Sys2Proof/Machine/Uses.lean ====
section
/-!
DEFINITION. What an instruction names: its control fields, the v registers its budget must cover (R165), the
fields that REP steps (R238, R239), the kind of flag it owes (R218), and how it meets a speculation window
(R109).
-/

namespace Sys2Proof.Machine

/-- The shape of an integer instruction. -/
def aluShape : Instr → Option (Shape × Alu)
  | .iadd o | .isub o | .imul o => some (.arith, o)
  | .imulh o | .bfx o => some (.wordSgn, o)
  | .imad o | .bfi o | .permb o => some (.word3, o)
  | .imadw o => some (.madw, o)
  | .iaddw o | .isubw o => some (.wide2, o)
  | .ineg o | .iabs o => some (.unSat, o)
  | .imin o | .imax o => some (.minmax, o)
  | .band o | .bor o | .bxor o | .bandn o | .shl o | .shr o | .sar o => some (.word2, o)
  | .bnot o | .popc o | .clz o | .ctz o | .brev o => some (.un, o)
  | .shlw o | .shrw _ o => some (.shiftW, o)
  | .icmp _ o => some (.icmp, o)
  | .sel w o => some (.sel w, o)
  | .mov w o => some (.mov w, o)
  | .lea _ o => some (.lea o.form, o)
  | _ => none

/-- The shape of a floating or conversion instruction. -/
def fltShape : Instr → Option (Shape × Flt)
  | .fadd o | .fsub o | .fmul o | .fmin o | .fmax o | .badd2 o | .bmul2 o => some (.flt2, o)
  | .ffma o | .bfma2 o | .hfma2 o => some (.flt3, o)
  | .fcmp _ o => some (.fcmp, o)
  | .frnd o | .fclass o | .frcp o | .frsq o | .fsqrt o | .fexp2 o | .flog2 o | .fsin o | .fcos o
  | .fcvt _ _ _ o | .fcvtx _ _ o | .i2f _ o | .f2i _ o => some (.flt1, o)
  | .fcvtp _ _ _ o => some (.cvtp, o)
  | _ => none

/-- The memory mould of R285 with the class of its DST. -/
def memMould : Instr → Option (RegClass × Mem)
  | .ld z o | .st z o | .ldl z o | .stl z o =>
    some ((match z with | .n128 => .q | .n64 => .w | _ => .v), o)
  | .cadd _ o => some (.v, o)
  | .prf _ o => some (.p, o)
  | _ => none

/-- Least budget under which a register of the class in vector form exists. -/
def topOf : RegClass → BitVec 8 → Nat
  | .v, n => n.toNat + 1
  | .w, n => n.toNat + 2
  | .q, n => n.toNat + 4
  | _, _ => 0

/-- The same for a source. -/
def srcTop (c : RegClass) (s : Bool) : Src → Nat
  | .reg n => if s then 0 else topOf c n
  | _ => 0

/-- The same for the sources and destination of a shape. -/
def shapeNeed (h : Shape) (s : Bool) (dst : BitVec 8) (a b c : Src) : Nat :=
  max (if s then 0 else topOf h.d dst)
    (max (if 1 ≤ h.srcs then srcTop h.ka s a else 0)
      (max (if 2 ≤ h.srcs then srcTop h.kb s b else 0) (if 3 ≤ h.srcs then srcTop h.kc s c else 0)))

/-- The least budget an instruction runs under (R165): 0 when it names no v register. -/
def need (i : Instr) : Nat :=
  match aluShape i with
  | some (h, o) => shapeNeed h o.s o.dst o.a o.b o.c
  | none =>
  match fltShape i with
  | some (h, o) => shapeNeed h o.s o.dst o.a o.b o.c
  | none =>
  match memMould i with
  | some (c, o) => if o.s then 0 else max (topOf c o.dst) (topOf .w o.ptr)
  | none =>
  match i with
  | .movi _ s d v => if s then 0 else (match v with | .word _ => topOf .v d | _ => topOf .w d)
  | .p2v _ d => topOf .v d
  | .v2p _ a _ => topOf .v a
  | .vote _ m ds d _ => if ds then 0 else if m == .ballot then topOf .w d else 0
  | .shfl _ _ d a b => max (topOf .v d) (max (topOf .v a) (srcTop .v false b))
  | .wred _ _ _ ds d a => max (if ds then 0 else topOf .v d) (topOf .v a)
  | .wscan _ _ _ _ d a => max (topOf .v d) (topOf .v a)
  | .bcast _ ds d a _ => max (if ds then 0 else topOf .v d) (topOf .v a)
  | .brx _ s a | .callx _ s a | .ret _ s a => if s then 0 else topOf .w a
  | .call _ _ _ => 0
  | .srd _ s w d _ => if s then 0 else topOf (if w then .w else .v) d
  | .atom _ _ nr o =>
    if o.s then 0 else
      let k : RegClass := if o.wide then .w else .v
      max (if nr then 0 else topOf k o.dst) (max (topOf .w o.ptr) (srcTop k false o.val))
  | .cas o =>
    if o.s then 0 else
      let k : RegClass := if o.wide then .w else .v
      max (topOf k o.dst) (max (topOf .w o.ptr) (max (srcTop k false o.val) (srcTop k false o.new)))
  | _ => 0

/-- The control fields of an instruction; the rows that have none take the neutral ones (R227). -/
def ctlOf (i : Instr) : Ctl :=
  match aluShape i with
  | some (_, o) => o.ctl
  | none =>
  match fltShape i with
  | some (_, o) => o.ctl
  | none =>
  match memMould i with
  | some (_, o) => o.ctl
  | none =>
  match i with
  | .movi k _ _ _ | .p2v k _ | .v2p k _ _ | .split k _ | .fuse k _ _ _ | .vote k _ _ _ _ | .shfl k _ _ _ _
  | .wred k _ _ _ _ _ | .wscan k _ _ _ _ _ | .bcast k _ _ _ _ | .grow k _ | .shrink k _ | .bra k _ _ | .brx k _ _
  | .call k _ _ | .callx k _ _ | .ret k _ _ | .exit k | .meet k | .yield k _ | .nop k _ | .pfc k _ _ | .mark k _
  | .bkpt k _ | .trap k _ | .tretRetry k | .tretSkip k | .srd k _ _ _ _ | .swr k _ _ _ | .crange k _ _ _ _ _ _
  | .crflush k _ | .lease k _ | .fence k | .tnew k _ _ | .tjoin k _ _ | .tleave k | .binit k _ _ _
  | .bwait k _ _ _ _ _ | .btest k _ _ _ | .copy k _ | .copyr k _ | .copym k _ | .cntadd k _ _ | .waitge k _ _ _ _
  | .vqput k _ _ _ | .launch k _ | .tcfg k _ _ | .tld k _ _ _ | .tst k _ _ _ | .tzero k _ | .azero k _
  | .azeroRel k _ | .ctxnew k _ _ | .ctxgrant k _ _ _ | .ctxrevoke k _ _ _ | .ctxrun k _ _ | .ctxstop k _ _ _
  | .ctxpeek k _ _ _ _ _ | .ctxpoke k _ _ _ _ _ | .ctxkill k _ _ _ | .tlbinvPage k _ _ _ | .tlbinvCtx k _
  | .tlbinvChild k _ _ | .qosset k _ _ _ | .tramp k _ | .trampret k _ => k
  | .pand o | .por o | .pxor o | .pnot o | .pmov o => o.ctl
  | .atom _ _ _ o | .cas o => o.ctl
  | .barv o | .bdrop o => o.ctl
  | .mmaF o | .mmaX o | .mmaI8 o | .mmaBp o => o.ctl
  | .tdrain o => o.ctl
  | _ => .neutral

/-- Is the instruction executed once for the path (R145)? The instructions whose S is 0 are issued for its active threads. -/
def scalarForm (i : Instr) : Bool :=
  match aluShape i with
  | some (_, o) => o.s
  | none =>
  match fltShape i with
  | some (_, o) => o.s
  | none =>
  match memMould i with
  | some (_, o) => o.s
  | none =>
  match i with
  | .movi _ s _ _ | .brx _ s _ | .callx _ s _ | .ret _ s _ | .srd _ s _ _ _ => s
  | .atom _ _ _ o | .cas o => o.s
  | .pand _ | .por _ | .pxor _ | .pnot _ | .pmov _ | .p2v _ _ | .v2p _ _ _ | .vote _ _ _ _ _ | .shfl _ _ _ _ _
  | .wred _ _ _ _ _ _ | .wscan _ _ _ _ _ _ | .bcast _ _ _ _ _ | .trap _ _ => false
  | .bra _ _ _ | .call _ _ _ | .exit _ | .meet _ | .yield _ _ | .nop _ _ | .mark _ _ | .bkpt _ _ | .tretRetry _ | .tretSkip _
  | .fence _ | .tramp _ _ | .trampret _ _ => false
  | _ => true

/-- 0 memory, 1 tile, matrix, copy or drain, 2 any other (R218 orders 9 to 11). -/
def oweClass : Instr → Nat
  | .ld _ _ | .st _ _ | .ldl _ _ | .stl _ _ | .atom _ _ _ _ | .cas _ | .prf _ _ | .crange _ _ _ _ _ _ _ | .cadd _ _
  | .crflush _ _ | .lease _ _ | .fence _ | .tnew _ _ _ | .tjoin _ _ _ | .tleave _ | .binit _ _ _ _ | .barv _
  | .bdrop _ | .bwait _ _ _ _ _ _ | .btest _ _ _ _ | .cntadd _ _ _ | .waitge _ _ _ _ _ | .vqput _ _ _ _
  | .launch _ _ | .tlbinvPage _ _ _ _ | .tlbinvCtx _ _ | .tlbinvChild _ _ _ | .ctxnew _ _ _ | .ctxgrant _ _ _ _
  | .ctxrevoke _ _ _ _ | .ctxrun _ _ _ | .ctxstop _ _ _ _ | .ctxpeek _ _ _ _ _ _ | .ctxpoke _ _ _ _ _ _
  | .ctxkill _ _ _ _ | .qosset _ _ _ _ => 0
  | .copy _ _ | .copyr _ _ | .copym _ _ | .tcfg _ _ _ | .tld _ _ _ _ | .tst _ _ _ _ | .tzero _ _ | .azero _ _
  | .azeroRel _ _ | .mmaF _ | .mmaX _ | .mmaI8 _ | .mmaBp _ | .tdrain _ => 1
  | _ => 2

/-- Does the instruction wait until the wave has no older unperformed access, with its store queue drained
(R109, R263, R330)? LAUNCH is held instead, FUSE gives a status, and CALL and CALLX wait only when they GROW. -/
def waitsForWave : Instr → Bool
  | .atom _ _ _ _ | .cas _ | .barv _ | .bdrop _ | .binit _ _ _ _ => true
  | .copy _ _ | .copyr _ _ | .copym _ _ | .vqput _ _ _ _ | .ctxnew _ _ _ | .ctxgrant _ _ _ _ | .ctxrevoke _ _ _ _
  | .ctxrun _ _ _ | .ctxstop _ _ _ _ | .ctxpeek _ _ _ _ _ _ | .ctxpoke _ _ _ _ _ _ | .ctxkill _ _ _ _
  | .tlbinvPage _ _ _ _ | .tlbinvCtx _ _ | .tlbinvChild _ _ _ | .qosset _ _ _ _ | .trap _ _ | .bkpt _ _
  | .fence _ => true
  | .tcfg _ _ _ | .tld _ _ _ _ | .tst _ _ _ _ | .tzero _ _ | .azero _ _ | .azeroRel _ _ | .mmaF _ | .mmaX _
  | .mmaI8 _ | .mmaBp _ | .tdrain _ => true
  | .split _ _ | .grow _ _ | .shrink _ _ | .tnew _ _ _ | .tjoin _ _ _ | .tleave _ | .crange _ _ _ _ _ _ _
  | .lease _ _ | .swr _ _ _ _ | .tretRetry _ | .tretSkip _ => true
  | _ => false

/-- Does the instruction wait until the wave has no pending flag (R158, R160, R273)? -/
def waitsForFlags : Instr → Bool
  | .split _ _ | .fuse _ _ _ _ | .swr _ _ _ _ => true
  | _ => false

/-- Is the operation irrevocable, so that a seal is taken just before it is performed (R109, R208)? -/
def irrevocable : Instr → Bool
  | .copy _ _ | .copyr _ _ | .copym _ _ | .vqput _ _ _ _ | .ctxnew _ _ _ | .ctxgrant _ _ _ _ | .ctxrevoke _ _ _ _
  | .ctxrun _ _ _ | .ctxstop _ _ _ _ | .ctxpeek _ _ _ _ _ _ | .ctxpoke _ _ _ _ _ _ | .ctxkill _ _ _ _
  | .tlbinvPage _ _ _ _ | .tlbinvCtx _ _ | .tlbinvChild _ _ _ | .qosset _ _ _ _ | .trap _ _ | .bkpt _ _
  | .fence _ => true
  | _ => false

/-! ### REP (R238, R239) -/

/-- The classes of the fields DST, SA, SB as register operands; the outer Option is the opcode ranges that REP
may prefix. -/
def stepClasses (i : Instr) : Option (Option RegClass × Option RegClass × Option RegClass) :=
  let src (c : RegClass) (s : Bool) : Src → Option RegClass
    | .reg _ => some (c.inForm s)
    | .sca _ => some c.scalar
    | .imm _ => none
  let of (h : Shape) (s : Bool) (a b : Src) : Option RegClass × Option RegClass × Option RegClass :=
    (some (if h.d == .p then (if s then .s else .p) else h.d.inForm s),
      if 1 ≤ h.srcs then src h.ka s a else none, if 2 ≤ h.srcs then src h.kb s b else none)
  match aluShape i with
  | some (h, o) => some (of h o.s o.a o.b)
  | none =>
  match fltShape i with
  | some (h, o) => some (of h o.s o.a o.b)
  | none =>
  match i with
  | .movi _ s _ v => some (some (match v with | .word _ => RegClass.v.inForm s | _ => RegClass.w.inForm s), none, none)
  | .pand _ | .por _ | .pxor _ => some (some .p, some .p, some .p)
  | .pnot _ | .pmov _ => some (some .p, some .p, none)
  | .p2v _ _ => some (some .v, none, none)
  | .v2p _ _ _ => some (none, some .v, none)
  | .ld z o | .st z o | .ldl z o | .stl z o =>
    let c : RegClass := match z with | .n128 => .q | .n64 => RegClass.w.inForm o.s | _ => RegClass.v.inForm o.s
    some (some c, some (RegClass.w.inForm o.s), none)
  | _ => none

/-- Registers a step of one counts. -/
def stepUnit : RegClass → Nat
  | .w | .x => 2
  | .q => 4
  | _ => 1

/-- The registers of the class's file. -/
def fileSize (s : Bool) : RegClass → Nat
  | .s | .x => 64
  | .p => 24
  | .q => if s then 64 else 256
  | _ => 256

/-- Register n moved by j steps. -/
def moved (c : Option RegClass) (step : BitVec 3) (j : Nat) (n : BitVec 8) : BitVec 8 :=
  match c with
  | some c => n + BitVec.ofInt 8 (step.toInt * j * stepUnit c)
  | none => n

/-- Does repetition j keep the register within its file? -/
def stepOk (s : Bool) (c : Option RegClass) (step : BitVec 3) (j : Nat) (n : BitVec 8) : Bool :=
  match c with
  | some c =>
    let r : Int := n.toNat + step.toInt * j * stepUnit c
    decide (0 ≤ r) && decide (r + stepUnit c ≤ fileSize s c)
  | none => step == 0

/-- A source with its register number changed. -/
def srcMap (f : BitVec 8 → BitVec 8) : Src → Src
  | .reg n => .reg (f n)
  | .sca n => .sca (f n)
  | .imm v => .imm v

/-- The instruction with DST, SA and SB changed. -/
def mapRegs (d a b : BitVec 8 → BitVec 8) (i : Instr) : Instr :=
  let al (o : Alu) : Alu := { o with dst := d o.dst, a := srcMap a o.a, b := srcMap b o.b }
  let fl (o : Flt) : Flt := { o with dst := d o.dst, a := srcMap a o.a, b := srcMap b o.b }
  let me (o : Mem) : Mem := { o with dst := d o.dst, ptr := a o.ptr }
  let pr (o : Prd) : Prd := { o with dst := d o.dst, a := a o.a, b := b o.b }
  match i with
  | .iadd o => .iadd (al o) | .isub o => .isub (al o) | .imul o => .imul (al o) | .imulh o => .imulh (al o)
  | .imad o => .imad (al o) | .imadw o => .imadw (al o) | .iaddw o => .iaddw (al o) | .isubw o => .isubw (al o)
  | .ineg o => .ineg (al o) | .iabs o => .iabs (al o) | .imin o => .imin (al o) | .imax o => .imax (al o)
  | .band o => .band (al o) | .bor o => .bor (al o) | .bxor o => .bxor (al o) | .bandn o => .bandn (al o)
  | .bnot o => .bnot (al o) | .shl o => .shl (al o) | .shr o => .shr (al o) | .sar o => .sar (al o)
  | .shlw o => .shlw (al o) | .shrw x o => .shrw x (al o) | .bfx o => .bfx (al o) | .bfi o => .bfi (al o)
  | .popc o => .popc (al o) | .clz o => .clz (al o) | .ctz o => .ctz (al o) | .brev o => .brev (al o)
  | .permb o => .permb (al o) | .icmp c o => .icmp c (al o) | .sel w o => .sel w (al o) | .mov w o => .mov w (al o)
  | .movi k s n v => .movi k s (d n) v | .lea h o => .lea h (al o)
  | .fadd o => .fadd (fl o) | .fsub o => .fsub (fl o) | .fmul o => .fmul (fl o) | .ffma o => .ffma (fl o)
  | .fmin o => .fmin (fl o) | .fmax o => .fmax (fl o) | .fcmp c o => .fcmp c (fl o) | .fclass o => .fclass (fl o)
  | .frcp o => .frcp (fl o) | .frsq o => .frsq (fl o) | .fsqrt o => .fsqrt (fl o) | .fexp2 o => .fexp2 (fl o)
  | .flog2 o => .flog2 (fl o) | .fsin o => .fsin (fl o) | .fcos o => .fcos (fl o) | .frnd o => .frnd (fl o)
  | .badd2 o => .badd2 (fl o) | .bmul2 o => .bmul2 (fl o) | .bfma2 o => .bfma2 (fl o) | .hfma2 o => .hfma2 (fl o)
  | .fcvt x y z o => .fcvt x y z (fl o) | .fcvtp x y z o => .fcvtp x y z (fl o) | .fcvtx x y o => .fcvtx x y (fl o)
  | .i2f t o => .i2f t (fl o) | .f2i t o => .f2i t (fl o)
  | .pand o => .pand (pr o) | .por o => .por (pr o) | .pxor o => .pxor (pr o) | .pnot o => .pnot (pr o)
  | .pmov o => .pmov (pr o) | .p2v k n => .p2v k (d n) | .v2p k n m => .v2p k (a n) m
  | .ld z o => .ld z (me o) | .st z o => .st z (me o) | .ldl z o => .ldl z (me o) | .stl z o => .stl z (me o)
  | i => i

/-- The fields DST, SA, SB. -/
def regFields (i : Instr) : BitVec 8 × BitVec 8 × BitVec 8 :=
  let num : Src → BitVec 8
    | .reg n => n
    | .sca n => n
    | .imm _ => 0
  match aluShape i with
  | some (_, o) => (o.dst, num o.a, num o.b)
  | none =>
  match fltShape i with
  | some (_, o) => (o.dst, num o.a, num o.b)
  | none =>
  match memMould i with
  | some (_, o) => (o.dst, o.ptr, 0)
  | none =>
  match i with
  | .pand o | .por o | .pxor o | .pnot o | .pmov o => (o.dst, o.a, o.b)
  | .movi _ _ n _ | .p2v _ n => (n, 0, 0)
  | .v2p _ n _ => (0, n, 0)
  | _ => (0, 0, 0)

/-- A source that is a register: is it a predicate, its number, how many registers it takes. -/
def heldReg (k : RegClass) : Src → Option (Bool × Nat × Nat)
  | .reg n => some (k == .p, n.toNat, if k == .w then 2 else 1)
  | _ => none

/-- The source that HOLD names (R235). -/
def heldSource (i : Instr) (hold : BitVec 2) : Option (Bool × Nat × Nat) :=
  let pick (ka kb kc : RegClass) (a b c : Src) : Option (Bool × Nat × Nat) :=
    if hold == 1 then heldReg ka a else if hold == 2 then heldReg kb b else if hold == 3 then heldReg kc c else none
  match aluShape i with
  | some (h, o) => pick h.ka h.kb h.kc o.a o.b o.c
  | none =>
  match fltShape i with
  | some (h, o) => pick h.ka h.kb h.kc o.a o.b o.c
  | none =>
  match memMould i with
  | some (_, o) => pick .w .v .v (.reg o.ptr) .none .none
  | none =>
  match i with
  | .pand o | .por o | .pxor o | .pnot o | .pmov o => pick .p .p .p (.reg o.a) (.reg o.b) .none
  | .vote _ _ _ _ a => pick .p .v .v (.reg a) .none .none
  | .shfl _ _ _ a b => pick .v .v .v (.reg a) b .none
  | .v2p _ a _ | .wred _ _ _ _ _ a | .wscan _ _ _ _ _ a | .bcast _ _ _ a _ => pick .v .v .v (.reg a) .none .none
  | .atom _ _ _ o | .cas o =>
    let k : RegClass := if o.wide then .w else .v
    pick .w k k (.reg o.ptr) o.val o.new
  | .prf _ o => pick .w .v .v (.reg o.ptr) .none .none
  | .brx _ _ a | .callx _ _ a | .ret _ _ a => pick .w .v .v (.reg a) .none .none
  | _ => none

/-- Repetition j of a prefixed instruction (R239). -/
def stepped (i : Instr) (idst isa isb : BitVec 3) (j : Nat) : Instr :=
  match stepClasses i with
  | some (cd, ca, cb) => mapRegs (moved cd idst j) (moved ca isa j) (moved cb isb j) i
  | none => i

/-- Does the group obey R238 for every repetition up to count? -/
def repOk (i : Instr) (idst isa isb : BitVec 3) : Nat → Bool
  | 0 => (stepClasses i).isSome
  | j + 1 =>
    match stepClasses i with
    | some (cd, ca, cb) =>
      let (d, a, b) := regFields i
      let s := scalarForm i
      stepOk s cd idst j d && stepOk s ca isa j a && stepOk s cb isb j b && repOk i idst isa isb j
    | none => false

/-- The least budget of every repetition before count (R239). -/
def repNeed (i : Instr) (idst isa isb : BitVec 3) : Nat → Nat
  | 0 => 0
  | j + 1 => max (need (stepped i idst isa isb j)) (repNeed i idst isa isb j)

end Sys2Proof.Machine
end

