-- ==== Sys2Proof/Machine/Ops.lean ====
section
/-!
DEFINITION. The named operations over the machine: finding and setting its parts, registers with their undo
records, time, the frame every instruction issues in, taking a fault (R191 to R200) and returning from one.
-/

namespace Sys2Proof.Machine

abbrev Out := Host.Outcome State Fault Refusal

/-! ### Parts -/

/-- The global lane pair, the core, the die of a wave id (R8). -/
abbrev lpOf (w : Nat) : Nat := w / 16
abbrev coreOf (w : Nat) : Nat := w / 512
abbrev dieOf (w : Nat) : Nat := w / 16384

def State.wave? (s : State) (w : Nat) : Option Wave := Sp.find s.waves w
def State.setWave (s : State) (w : Nat) (x : Wave) : State := { s with waves := Sp.insert s.waves w x }
def State.dropWave (s : State) (w : Nat) : State := { s with waves := Sp.erase s.waves w }
def State.updWave (s : State) (w : Nat) (f : Wave → Wave) : State :=
  match s.wave? w with
  | some x => s.setWave w (f x)
  | none => s
def State.ctx? (s : State) (c : Nat) : Option Ctx := Sp.find s.ctxs c
def State.setCtx (s : State) (c : Nat) (x : Ctx) : State := { s with ctxs := Sp.insert s.ctxs c x }
def State.updCtx (s : State) (c : Nat) (f : Ctx → Ctx) : State :=
  match s.ctx? c with
  | some x => s.setCtx c (f x)
  | none => s
def State.core (s : State) (c : Nat) : Core := Sp.get {} s.cores c
def State.setCore (s : State) (c : Nat) (x : Core) : State := { s with cores := Sp.put {} s.cores c x }
def State.die (s : State) (d : Nat) : Die := Sp.get {} s.dies d
def State.setDie (s : State) (d : Nat) (x : Die) : State := { s with dies := Sp.put {} s.dies d x }
def State.lp (s : State) (l : Nat) : LanePair := Sp.get {} s.lps l
def State.setLp (s : State) (l : Nat) (x : LanePair) : State := { s with lps := Sp.put {} s.lps l x }
def State.frame (s : State) (f : Nat) : FrameRec := Sp.get {} s.frames f
def State.setFrame (s : State) (f : Nat) (x : FrameRec) : State := { s with frames := Sp.put {} s.frames f x }
def State.line (s : State) (l : Nat) : LineRec := Sp.get {} s.lines l
def State.setLine (s : State) (l : Nat) (x : LineRec) : State := { s with lines := Sp.put {} s.lines l x }
def State.part? (s : State) (r : Nat) : Option Partition := Sp.find s.parts r
def State.setPart (s : State) (r : Nat) (x : Partition) : State := { s with parts := Sp.insert s.parts r x }

/-! ### Time (R6, R73, R377) -/

/-- Context time of a context (R73). -/
def State.ctxTime (s : State) (c : Nat) : Word64 :=
  BitVec.ofNat 64 s.clk.tick + (match s.ctx? c with | some x => x.conf.toff | none => 0)

/-- A step due now. -/
def State.soon (s : State) (i : Instr) : State := { s with sch := { s.sch with agenda := s.sch.agenda ++ [i] } }

/-- A step due n cycles from now. -/
def State.after (s : State) (n : Nat) (i : Instr) : State :=
  { s with sch := { s.sch with timers := s.sch.timers ++ [⟨false, s.clk.cycle + n, i⟩] } }

/-- A step due n ticks from now. -/
def State.afterTicks (s : State) (n : Nat) (i : Instr) : State :=
  { s with sch := { s.sch with timers := s.sch.timers ++ [⟨true, s.clk.tick + n, i⟩] } }

/-- %idle of a lane pair: the cycles of the device in which it held no wave, and what a write has made of it (R217, R219). -/
def LanePair.idleAt (l : LanePair) (cycle : Nat) : Word64 := BitVec.ofNat 64 (cycle - l.busy) + l.idle
/-- %idle set to a value at a cycle. -/
def LanePair.setIdle (l : LanePair) (cycle : Nat) (v : Word64) : LanePair := { l with idle := v - BitVec.ofNat 64 (cycle - l.busy) }

/-- The next free-value index (log 5). -/
def State.tickFree (s : State) : State := { s with sch := { s.sch with free := s.sch.free + 1 } }

/-- A step whose time the manual leaves open, due at a latency of Config (log 6). -/
def State.later (s : State) (i : Instr) : State :=
  (s.after (Config.latency s.sch.free) i).tickFree

/-- A step due in n ticks, unless the same step is due already. -/
def State.ensureTicks (s : State) (n : Nat) (i : Instr) : State :=
  if s.sch.timers.any (fun t => t.ev == i) then s else s.afterTicks n i

/-- A step due now, unless the same step is due now already. -/
def State.ensureSoon (s : State) (i : Instr) : State :=
  if s.sch.agenda.contains i then s else s.soon i

/-- A fresh id. -/
def State.fresh (s : State) : Nat × State :=
  (s.sch.nextId, { s with sch := { s.sch with nextId := s.sch.nextId + 1 } })

/-- The reason of a wait that R73 or R77 bounds: the gate it sets for later accesses, above all stall reasons. Kinds 0 to 2 are
those of Gate; 3 and 4 are 0 and 1 for an access that R73's ceiling holds back; 5 is the wait for a combine that a seal precedes. -/
def gateReason (kind key : Nat) : Nat := 256 + 6 * key + kind

/-- The wait of an agent for the step COMBINE of a line of a slot of a context (R29, R97). -/
def combineReason (c slot line : Nat) : Nat := gateReason 5 ((c * 8 + slot) * 8192 + line)

/-- Is it a wait at R73's ceiling? -/
def ceilingWait (r : Nat) : Bool := r == 7 || (decide (256 ≤ r) && ((r - 256) % 6 == 3 || (r - 256) % 6 == 4))

/-- Later accesses of cores stay behind what waits until a tick, when its reason is a gate (R73, R77, log 45); the COMBINE that an
agent waits for is due now. -/
def State.gate (s : State) (t r : Nat) (wave : Option Nat) : State :=
  if r < 256 then s
  else if (r - 256) % 6 == 5 then
    let k := (r - 256) / 6
    s.ensureSoon (.combine (k / 65536) (k / 8192 % 8) (k % 8192))
  else
    let g : Gate := { kind := (r - 256) % 6 % 3, key := (r - 256) / 6, due := t, wave := wave }
    let gs := s.sch.gates.filter (fun x => decide (s.clk.tick ≤ x.due))
    let same (x : Gate) : Bool := x == g || (wave.isSome && x.kind == g.kind && x.key == g.key && x.wave == wave)
    { s with sch := { s.sch with gates := if gs.any same then gs.map (fun x => if same x then g else x) else gs ++ [g] } }

/-- A step that waits in physical time until a tick (R77): it is kept under an id and due with it. -/
def State.waitTick (s : State) (t r : Nat) (i : Instr) : State :=
  let s := s.gate t r (match i with
    | .accessPerformed w _ | .streamedAccess w _ | .fetchBlockArrival w _ _ => some w
    | _ => none)
  if s.sch.waits.any (fun w => w.2 == i && s.sch.timers.any (fun x => x.ev == .clocklessWaitDone w.1 && decide (x.due ≤ t))) then s
  else
    let (n, s) := s.fresh
    { s with sch := { s.sch with waits := s.sch.waits ++ [(n, i)],
                                 timers := s.sch.timers ++ [⟨true, t, .clocklessWaitDone n⟩] } }

/-! ### Paths of a wave -/

def Wave.path (w : Wave) (i : Nat) : Path := w.paths.getD i {}
def Wave.setPath (w : Wave) (i : Nat) (p : Path) : Wave := { w with paths := w.paths.set i p }

/-- The fetch block of an address. -/
def blockOf (a : Word64) : Nat := a.toNat / 32 * 32

/-- A path goes to an address: a target outside both buffered blocks empties its fetch buffer, and what is on its way to it is
of no use (R188). -/
def Path.goesTo (p : Path) (t : Word64) : Path :=
  if p.fetch.any (fun x => x.1 == blockOf t) then { p with e := { p.e with pc := t } }
  else { p with e := { p.e with pc := t }, fetch := [], fetching := none }

/-- Set a path-table entry by instruction id; inside a window the old entry is kept for a rollback (R106, R111). -/
def Wave.putPath (w : Wave) (id i : Nat) (p : Path) : Wave :=
  let old := w.path i
  let w := w.setPath i p
  match w.win with
  | some n => if n.first ≤ id && (old.e != p.e || old.rep != p.rep)
      then { w with win := some { n with undo := ⟨id, if { old.e with pc := p.e.pc } == p.e then .place i old else .entry i old⟩ :: n.undo } } else w
  | none => w

/-- The lowest free entry at or above k. -/
def freeFrom : List Path → Nat → Option Nat
  | [], _ => none
  | p :: ps, k => if p.e.kind == .free then some k else freeFrom ps (k + 1)

def Wave.freeEntry (w : Wave) : Option Nat := freeFrom w.paths 0
def Wave.freeCount (w : Wave) : Nat := (w.paths.filter (fun p => p.e.kind == .free)).length

/-- Is the path parked by a fault or a stop (R199, R204)? -/
def Path.parked (p : Path) : Bool := p.e.kind == .path && (p.e.state == .trapped || p.e.state == .stopped)

/-- PARKED and RUNNING follow the paths (R147), also for what a SPILLED wave comes back to. -/
def Wave.settle (w : Wave) : Wave :=
  let live := w.paths.filter (fun p => p.e.kind == .path)
  if w.state == .running && !live.isEmpty && live.all Path.parked then { w with state := .parked }
  else if w.state == .parked && !(live.all Path.parked) then { w with state := .running }
  else if w.state == .spilled && w.left != .blocked then
    { w with left := if !live.isEmpty && live.all Path.parked then .parked else .running }
  else w

/-- Thread t of a mask. -/
abbrev has (m : Word64) (t : Nat) : Bool := m.getLsbD t

/-- The threads of a mask below n, ascending. -/
def threadsBelow (m : Word64) : Nat → List Nat
  | 0 => []
  | n + 1 => threadsBelow m n ++ (if has m n then [n] else [])

abbrev threads (m : Word64) : List Nat := threadsBelow m 64

/-- The mask of one thread, and of a list of threads. -/
abbrev bitAt (t : Nat) : Word64 := 1#64 <<< t
def maskOf : List Nat → Word64
  | [] => 0
  | t :: ts => bitAt t ||| maskOf ts

def popcount (m : Word64) : Nat := (threads m).length

/-! ### Registers -/

/-- The keys of R234's races and of sparse registers. -/
abbrev vKey (r t : Nat) : Nat := r * 64 + t
abbrev sKey (r : Nat) : Nat := 0x100000 + r
abbrev pKey (p t : Nat) : Nat := 0x200000 + p * 64 + t

def Wave.v (w : Wave) (r t : Nat) : VWord := Sp.get {} w.vregs (vKey r t)
def Wave.s (w : Wave) (r : Nat) : VWord := Sp.get {} w.sregs r
def Wave.p (w : Wave) (r t : Nat) : PBit := Sp.get {} w.preds (vKey r t)

def RegW.key : RegW → Nat
  | .v r t _ => vKey r t
  | .s r _ => sKey r
  | .p r t _ => pKey r t

/-- The registers an unperformed access will write: scalar, first register, how many (R286, R291, R302). -/
def accDst : Instr → Option (Bool × Nat × Nat)
  | .ld z o | .ldl z o =>
    some (o.s, o.dst.toNat, match z with | .n128 => 4 | .n64 => 2 | _ => 1)
  | .atom _ _ nr o => if nr then none else some (o.s, o.dst.toNat, if o.wide then 2 else 1)
  | .cas o => some (o.s, o.dst.toNat, if o.wide then 2 else 1)
  | .btest _ d _ _ => some (true, d.toNat, 2)
  | _ => none

/-- Is a register still to be written by an instruction already issued? -/
def Wave.inFlight (w : Wave) (k : Nat) : Bool :=
  w.pend.any (fun p => p.writes.any (fun x => x.key == k)) ||
  w.accs.any (fun a => !a.early && a.faulted.isNone && (match accDst a.instr with
    | some (true, r, n) => decide (sKey r ≤ k) && decide (k < sKey r + n)
    | some (false, r, n) => a.lanes.any (fun l => decide (l.tid = k % 64)) && decide (r ≤ k / 64) &&
        decide (k / 64 < r + n)
    | none => false))

/-- Reads (R16): a register whose result has not landed reads as a free value, which carries no poison (log 5). -/
def Wave.readV (w : Wave) (free r t : Nat) : VWord :=
  if w.inFlight (vKey r t) then ⟨Config.freeWord free (vKey r t), false⟩ else w.v r t
def Wave.readS (w : Wave) (free r : Nat) : VWord :=
  if w.inFlight (sKey r) then ⟨Config.freeWord free (sKey r), false⟩ else w.s r
/-- The same by another wave: its free values are its own. -/
def Wave.readSOf (w : Wave) (free r : Nat) : VWord :=
  if w.inFlight (sKey r) then ⟨Config.freeWord free (0x300000 + r), false⟩ else w.s r
def Wave.readP (w : Wave) (free r t : Nat) : PBit :=
  if w.inFlight (pKey r t) then ⟨(Config.freeWord free (pKey r t)).getLsbD 0, false⟩ else w.p r t

/-- A w pair of a thread, an x pair of the wave: value and poison. -/
def Wave.readW (w : Wave) (free r t : Nat) : Word64 × Bool :=
  let a := w.readV free r t
  let b := w.readV free (r + 1) t
  (b.val ++ a.val, a.poison || b.poison)
def Wave.readX (w : Wave) (free r : Nat) : Word64 × Bool :=
  let a := w.readS free r
  let b := w.readS free (r + 1)
  (b.val ++ a.val, a.poison || b.poison)

/-- Put one register value. -/
def Wave.poke (w : Wave) : RegW → Wave
  | .v r t x => { w with vregs := Sp.put {} w.vregs (vKey r t) x }
  | .s r x => { w with sregs := Sp.put {} w.sregs r x }
  | .p r t x => { w with preds := Sp.put {} w.preds (vKey r t) x }

/-- The old value of what a write replaces, as an undo record. -/
def Wave.undoOf (w : Wave) : RegW → UndoWhat
  | .v r t _ => .vreg r [(t, w.v r t)]
  | .s r _ => .sreg r (w.s r)
  | .p r t _ => .pred r [(t, w.p r t)]

/-- A register write by instruction id: inside a window its old value is recorded first (R111). -/
def Wave.set (w : Wave) (id : Nat) (x : RegW) : Wave :=
  let u := w.undoOf x
  let w := w.poke x
  match w.win with
  | some n => if n.first ≤ id then { w with win := some { n with undo := ⟨id, u⟩ :: n.undo } } else w
  | none => w

/-- A write at issue: a register still in flight is marked as raced (R234). -/
def Wave.write (w : Wave) (id : Nat) (x : RegW) : Wave :=
  let w := if w.inFlight x.key then { w with raced := (x.key, id) :: w.raced } else w
  w.set id x

def Wave.writes (w : Wave) (id : Nat) : List RegW → Wave
  | [] => w
  | x :: xs => (w.write id x).writes id xs

/-- An undo record of the register that a write names keeps the value written; beside it, the record of what it kept before. -/
def UndoWhat.after (u : UndoWhat) (x : RegW) : Option (UndoWhat × UndoWhat) :=
  match u, x with
  | .vreg r olds, .v r' t y => if r != r' then none else
    (olds.find? (fun o => o.1 == t)).map (fun o => (.vreg r (olds.map (fun o => if o.1 == t then (t, y) else o)), .vreg r [o]))
  | .sreg r old, .s r' y => if r != r' then none else some (.sreg r y, .sreg r old)
  | .pred r olds, .p r' t y => if r != r' then none else
    (olds.find? (fun o => o.1 == t)).map (fun o => (.pred r (olds.map (fun o => if o.1 == t then (t, y) else o)), .pred r [o]))
  | _, _ => none

/-- A result of instruction id lands in a register that a younger instruction of the window has written before: the oldest
record of that write keeps the value landed (R114), and a record of the landing itself, if it needs one, stands before it. -/
def undoAfter (id : Nat) (own : Bool) (x : RegW) : List Undo → Option (List Undo)
  | [] => none
  | u :: us =>
    match undoAfter id own x us with
    | some vs => some (u :: vs)
    | none =>
      if u.id ≤ id then none
      else (u.what.after x).map (fun y => ⟨u.id, y.1⟩ :: ((if own then [⟨id, y.2⟩] else []) ++ us))

/-- Put a result where it lands; `stays` when it is what the register then holds. -/
def Wave.landAs (w : Wave) (id : Nat) (stays : Bool) (x : RegW) : Wave :=
  match w.win.bind (fun n => (undoAfter id (decide (n.first ≤ id)) x n.undo).map (fun us => { n with undo := us })) with
  | some n => let w := { w with win := some n }; if stays then w.poke x else w
  | none => if stays then w.set id x else w

/-- A write at completion: where a later write came first, which of the two stays is free (R234). -/
def Wave.land (w : Wave) (free id : Nat) (x : RegW) : Wave :=
  if w.raced.any (fun y => y.1 == x.key && decide (id < y.2)) then
    { w with raced := w.raced.filter (fun y => y.1 != x.key) }.landAs id (Config.freeChoice free x.key) x
  else w.landAs id true x

def Wave.lands (w : Wave) (free id : Nat) : List RegW → Wave
  | [] => w
  | x :: xs => (w.land free id x).lands free id xs

/-- A scalar word, pair. -/
abbrev wS (r : Nat) (v : Word32) : RegW := .s r ⟨v, false⟩
def wX (r : Nat) (v : Word64) (poison : Bool) : List RegW :=
  [.s r ⟨v.setWidth 32, poison⟩, .s (r + 1) ⟨bits v 32 32, poison⟩]
def wW (r t : Nat) (v : Word64) (poison : Bool) : List RegW :=
  [.v r t ⟨v.setWidth 32, poison⟩, .v (r + 1) t ⟨bits v 32 32, poison⟩]

/-- Sticky status bits of instruction id: inside a window they are held apart until commit (R130). -/
def Wave.raiseStat (w : Wave) (id : Nat) (f : Word32) : Wave :=
  if f = 0 then w else
  match w.win with
  | some n => if n.first ≤ id then { w with held := w.held ++ [(id, f)] } else { w with fstat := w.fstat ||| f }
  | none => { w with fstat := w.fstat ||| f }

/-! ### Flags (R232) -/

/-- The flag of a REP group is pending from repetition 0 until every repetition has completed (R239). -/
def repOwes (w : Wave) : List Owe :=
  w.paths.filterMap (fun p => match p.rep with
    | some r => if r.flag < 12 then some (Owe.mk r.flag 0 r.cls) else none
    | none => none)

/-- The flags still owed, with what owes them. -/
def Wave.owes (w : Wave) : List Owe := w.owed ++ repOwes w

def Wave.pendingFlags (w : Wave) : BitVec 12 :=
  w.owes.foldl (fun m o => m ||| (1#12 <<< o.flag)) 0

/-- Before the flag state changes for an instruction of the open window, a record keeps the pending mask (R111). -/
def Wave.noteFlag (w : Wave) (id flag : Nat) : Wave :=
  match w.win with
  | some n => if n.first ≤ id then { w with win := some { n with undo := ⟨id, .flags flag w.pendingFlags⟩ :: n.undo } } else w
  | none => w

/-- An instruction completes or is abandoned: its flag is no longer owed. -/
def Wave.clearFlag (w : Wave) (id : Nat) : Wave :=
  let w := match w.owed.find? (fun o => o.id == id) with | some o => w.noteFlag id o.flag | none => w
  { w with owed := w.owed.filter (fun o => o.id != id) }

/-- Has the wave an access that is not performed? -/
def Wave.unperformed (w : Wave) : Bool := w.accs.any (fun a => !a.early)

/-! ### Faults (R191 to R194) -/

namespace Code
abbrev ILLEGAL := 0x01
abbrev LEN := 0x02
abbrev FETCH_CROSS := 0x03
abbrev SPACE := 0x04
abbrev ALIGN := 0x05
abbrev PERM := 0x06
abbrev NOTMAPPED := 0x07
abbrev PTE_RSVD := 0x08
abbrev GRANT := 0x09
abbrev HOMELOST := 0x0A
abbrev POISON_USE := 0x0B
abbrev LOCAL_RANGE := 0x0C
abbrev LOCAL_OFF := 0x0D
abbrev SHAPE := 0x0E
abbrev BAR_OVERRUN := 0x0F
abbrev BAR_MISUSE := 0x10
abbrev BUDGET := 0x11
abbrev TILE_CFG := 0x12
abbrev TRAMP_RANGE := 0x13
abbrev PRIV := 0x14
abbrev CTX := 0x15
abbrev LAUNCH_REC := 0x16
abbrev SCRATCH_UE := 0x17
abbrev LIVELOCK := 0x18
abbrev DEBUG_STOP := 0x19
abbrev TRAP := 0x1A
end Code

/-- Routes of R191. -/
inductive Route | own | parent | none
  deriving DecidableEq, Repr

def routeOf (code : Nat) : Route :=
  if code == Code.GRANT || code == Code.PRIV || code == Code.DEBUG_STOP then .parent
  else if code == Code.HOMELOST || code == Code.SCRATCH_UE then .none
  else .own

/-- A fault as its rule states it; `later` when it is none, but a check that cannot be made yet: a page walk whose table lines have
failed homes (R100), or whose context holds no token for them (R99). -/
structure FaultInfo where
  code  : Nat
  sub   : Nat := 0
  mask  : Word64 := 0
  addr  : Word64 := 0
  extra : Word64 := 0
  flags : BitVec 16 := 0
  later : Bool := false
  deriving DecidableEq, Repr

/-- A failing check of one thread. -/
abbrev Fail := FaultInfo

/-- The one fault of an instruction from its threads' first failing checks (R194): code, subcode, address and
extra of the lowest, with every thread that fails the same way. -/
def firstFault (fs : List (Nat × Fail)) : Option FaultInfo :=
  match fs with
  | [] => none
  | (_, f) :: _ =>
    some { f with mask := maskOf ((fs.filter (fun x => x.2.code == f.code && x.2.sub == f.sub)).map (·.1)) }

/-- Flag bits of a record. -/
abbrev fDEFERRED : BitVec 16 := 1
abbrev fNOPATH : BitVec 16 := 2
abbrev fREFLECTED : BitVec 16 := 4
abbrev fNESTED : BitVec 16 := 8
abbrev fNOHANDLER : BitVec 16 := 16
abbrev fVOID : BitVec 16 := 32

/-- The next serial of a faulting context: 1, 2, …, wrapping from 2^32 - 1 to 1 (R193). -/
def nextSerial (n : Nat) : Nat := if n + 1 ≥ 0x100000000 then 1 else n + 1

/-- Put a record on a ring, none being the management cluster. A record without a path that finds 4,096 such records waiting is
dropped and counted (R196); those that name a path wait in their cores. -/
def ringPut (s : State) (ring : Option Nat) (r : FaultRec) : State :=
  match ring with
  | none => { s with dev := { s.dev with ring := s.dev.ring ++ [r] } }
  | some c =>
    match s.ctx? c with
    | none => { s with dev := { s.dev with ring := s.dev.ring ++ [r] } }
    | some x =>
      if r.path == 31 && decide (4096 ≤ (x.ring.held.filter (fun h => h.path == 31)).length) then
        (s.setCtx c { x with ring := { x.ring with lost := x.ring.lost + 1 } }).soon (.ringRecordWrite c)
      else
        (s.setCtx c { x with ring := { x.ring with held := x.ring.held ++ [{ r with index := x.ring.next }],
                                                   next := x.ring.next + 1 } }).soon (.ringRecordWrite c)

/-- Where a record of context c goes, by route (R191): its own ring or the parent's. -/
def ringFor (s : State) (c : Nat) (r : Route) : Option Nat :=
  match r with
  | .parent => (match s.ctx? c with | some x => x.parent | none => none)
  | _ => some c

/-- A record of a context that names no path (R194) goes to a ring, with flags and a wave of its own. -/
def raiseTo (s : State) (c : Nat) (ring : Option Nat) (fl : BitVec 16) (wave : Nat) (f : FaultInfo) (pc : Word64 := 0) : State :=
  match s.ctx? c with
  | none => s
  | some x =>
    let n := nextSerial x.ring.serial
    let idx := match ring with
      | some d => (match s.ctx? d with | some y => y.ring.next | none => 0)
      | none => 0
    let o : Outst := { ring := ring, serial := n, index := idx, wave := wave, path := none }
    let s := s.setCtx c { x with ring := { x.ring with serial := n, out := x.ring.out ++ [o] } }
    ringPut s ring { code := f.code, sub := f.sub, serial := n, pc := pc, addr := f.addr, extra := f.extra, ctx := c, wave := wave,
                     flags := f.flags ||| fNOPATH ||| fl, tick := s.ctxTime c }

/-- Raise a fault that belongs to no path (R194) in a context; `pc` is the address of an instruction that its wave has left behind
(R311). -/
def raiseNoPath (s : State) (c : Nat) (f : FaultInfo) (pc : Word64 := 0) : State :=
  let r := routeOf f.code
  raiseTo s c (ringFor s c r) (if r == .parent then fREFLECTED else 0) 0 f pc

/-- Drop the operand latch entries of a wave (R235). -/
def dropLatch (s : State) (w : Nat) : State :=
  let l := s.lp (lpOf w)
  s.setLp (lpOf w) { l with latch := l.latch.filter (fun x => x.2.wave != w) }

/-- The route a path's fault takes: that of its code, and the parent's when the path serves a record itself (R199). -/
def faultRoute (p : Path) (code : Nat) : Route := if p.serves.isSome then .parent else routeOf code

/-- Does the fault of a path ask for a handler path (R199)? -/
def wantsHandler (c : Ctx) (p : Path) (code : Nat) : Bool :=
  faultRoute p code == .own && c.conf.tvec != 0 && c.conf.hmask.getLsbD code && p.serves.isNone

/-- The flags of a path's record (R193, R199): REFLECTED on the parent's ring, NESTED in a handler, NOHANDLER where no
entry was free for one. -/
def faultFlags (p : Path) (f : FaultInfo) (noHandler : Bool) : BitVec 16 :=
  f.flags ||| (if faultRoute p f.code == .parent then fREFLECTED else 0) ||| (if p.serves.isSome then fNESTED else 0) |||
    (if noHandler then fNOHANDLER else 0)

/-- The path parks (R194): STATE 101 for a debug stop, 100 otherwise; it stands at `base`, and keeps its place at a join. -/
def parkPath (p : Path) (code : Nat) (base : Word64) (k : Park) : Path :=
  { p with e := { p.e with state := if code == Code.DEBUG_STOP then .stopped else .trapped, pc := base },
           park := some k, poll := none, noMatch := false, reason := 11, stopAt := none,
           kept := if p.e.state == .atMeet || p.e.state == .atReturn then some p.e.state else p.kept }

/-- The handler path (R200): at TVEC with the mask and LINK of the path it serves, its w-registers' record address in
%trec. -/
def handlerPath (c : Ctx) (p : Path) (i serial idx cycle : Nat) : Path :=
  { e := { kind := .path, state := .handler, link := p.e.link, pc := c.conf.tvec, mask := p.e.mask },
    serves := some (i, serial), pred := some { cycle := cycle },
    trec := c.conf.ring + 64 + 64 * BitVec.ofNat 64 (idx % c.conf.ringn) }

/-- The place of the next record on a ring. -/
def nextIndex (s : State) (ring : Option Nat) : Nat :=
  match ring with
  | some d => (match s.ctx? d with | some y => y.ring.next | none => 0)
  | none => 0

/-- A request for the grant that is still pending is withdrawn (R118). -/
def withdrawPin (s : State) (wid : Nat) : State :=
  let s := { s with pins := { s.pins with queue := s.pins.queue.filter (· != wid) } }
  s.updWave wid (fun w => { w with pinReq := none })

/-- No line is pinned any more. -/
def unmarkLines (s : State) : State :=
  (s.lines.filter (fun x => x.2.pinned)).foldl (fun s x => s.setLine x.1 { s.line x.1 with pinned := false }) s

/-- Pins end, and the grant goes to the next wave (R117, R118). One wave of the domain holds all its pins. -/
def unpin (s : State) (wid : Nat) : State :=
  if s.pins.holder != some wid then s
  else
    let s := unmarkLines s
    let s := { s with dies := s.dies.map (fun (d : Nat × Die) => (d.1, { d.2 with holds := d.2.holds.filter (fun (h : Hold) => h.till != 0) })) }
    let s := { s with pins := { s.pins with holder := none } }
    match s.pins.queue with
    | [] => s
    | q :: _ => s.ensureSoon (.pinGrant q)

/-- TAKING A FAULT (R193, R194, R199, R200): path i of wave w parks at `base`, its record goes to the ring its
route names, and a handler path starts where R199 lets it. `pc` is the record's PC, `next` where SKIP resumes. -/
def takeFault (s : State) (w i : Nat) (pc base next : Word64) (kind : ParkKind) (f : FaultInfo) : State :=
  match s.wave? w with
  | none => s
  | some x =>
  match s.ctx? x.ctx with
  | none => s
  | some c =>
    let cid := x.ctx
    let p := x.path i
    let n := nextSerial c.ring.serial
    let ring := ringFor s cid (faultRoute p f.code)
    let wants := wantsHandler c p f.code
    let slot := if wants then x.freeEntry else none
    let y := x.setPath i (parkPath p f.code base ⟨cid, n, kind, base, next⟩)
    let y := match slot with
      | some h => y.setPath h (handlerPath c p i n (nextIndex s ring) s.clk.cycle)
      | none => y
    let o : Outst := { ring := ring, serial := n, index := nextIndex s ring, wave := w, path := some i,
                       taken := slot.isSome }
    let t := (s.setWave w y.settle).setCtx cid { c with ring := { c.ring with serial := n, out := c.ring.out ++ [o] } }
    let t := if y.settle.state == .running then t else withdrawPin (unpin t w) w
    ringPut (dropLatch t w) ring
      { code := f.code, sub := f.sub, flags := faultFlags p f (wants && slot.isNone), serial := n, mask := f.mask, pc := pc,
        addr := f.addr, wave := w, path := i, ctx := cid, extra := f.extra, tick := (dropLatch t w).ctxTime cid }

/-! ### Rollback (R114, R116 to R118) -/

/-- One record is undone; what a path has fetched, and what is on its way to it, stays. A flag is owed no more once its
instruction is undone. -/
def undoOne (w : Wave) : UndoWhat → Wave
  | .vreg r olds => olds.foldl (fun w x => w.poke (.v r x.1 x.2)) w
  | .sreg r x => w.poke (.s r x)
  | .pred r olds => olds.foldl (fun w x => w.poke (.p r x.1 x.2)) w
  | .entry i p | .place i p => w.setPath i { p with poll := none, fetch := (w.path i).fetch, fetching := (w.path i).fetching,
                                                         slipped := (w.path i).slipped }
  | .flags _ _ => w
  | .lease n => { w with lease := n }
  | .defers ds => { w with defer := ds }

def undoAll (w : Wave) : List Undo → Wave
  | [] => w
  | u :: us => undoAll (undoOne w u.what) us

/-- Undo the open window of a wave. -/
def undoWindow (s : State) (wid : Nat) (n : Window) : State :=
  match s.wave? wid with
  | none => s
  | some w =>
    let w := undoAll w n.undo
    let keep (id : Nat) : Bool := decide (id < n.first)
    let w := { w with accs := w.accs.filter (fun a => keep a.id), pend := w.pend.filter (fun p => keep p.id),
                      owed := w.owed.filter (fun o => keep o.id), held := w.held.filter (fun h => keep h.1),
                      raced := w.raced.filter (fun r => keep r.2), win := none,
                      samples := w.samples.filter (fun y => keep y.1),
                      paths := (w.paths.map (fun (p : Path) => { p with stopAt := p.stopAt.filter (fun k => decide (k < n.first)) })).map
                        (fun (p : Path) => match p.poll with
                        | some q => if keep q.id then p else { p with poll := none, reason := 9 }
                        | none => { p with reason := if p.reason == 0 then 9 else p.reason }) }
    let s := s.setWave wid w.settle
    let k := s.core (coreOf wid)
    let s := s.setCore (coreOf wid)
      { k with launches := k.launches.filter (fun h => h.wave != wid || h.released || keep h.id) }
    dropLatch (unpin s wid) wid

/-- ROLLBACK (R114) of a wave's window, with what R116 makes of a counted one. -/
def rollback (s : State) (wid : Nat) (counted : Bool) : State :=
  match s.wave? wid with
  | none => s
  | some w =>
    match w.win with
    | none => s
    | some n =>
      let s := undoWindow s wid n
      if !counted then s
      else
        let same := w.keyPc == n.pc && w.keyPath == n.path && w.count != 0
        let c := if same then w.count + 1 else 1
        let s := s.updWave wid (fun w => { w with keyPc := n.pc, keyPath := n.path, count := c,
                                                   careful := if c == 4 then 1024 else w.careful })
        if c == 64 then
          let mask := match s.wave? wid with | some v => (v.path n.path).e.mask | none => 0
          takeFault s wid n.path n.pc n.base n.after .fault { code := Code.LIVELOCK, mask := mask }
        else s

/-! ### Issue -/

/-- What an instruction works with: the issuing path, its active threads, its number in the wave's issue order and on the machine. -/
structure Iss where
  cur : Cur
  w   : Wave
  p   : Path
  act : Word64
  id  : Nat
  op  : Nat
  deriving DecidableEq, Repr

/-- What an instruction comes to at issue: it is performed (`done`: and complete once its last thread pair has
issued, or later), it has moved its path itself, it does not issue for a stall reason of R218, it faults (`stallAt`,
`trapAt`: in a state that it has changed; `faulted`: its path is parked already). -/
inductive Act
  | done (s : State)
  | later (s : State)
  | moved (s : State)
  | movedLater (s : State)
  | stall (reason : Nat)
  | stallAt (s : State) (reason : Nat)
  | waits (tick gate reason : Nat)
  | trap (f : FaultInfo)
  | trapAt (s : State) (f : FaultInfo)
  | faulted (s : State)

/-- The cycles an instruction takes (R145). -/
def pairsOf (scalar : Bool) (act : Word64) : Nat := if scalar then 1 else max 1 ((popcount act + 1) / 2)

/-- The path does not issue: its reason stands until it does, and it does not count as eligible (R217). -/
def stallPath (s : State) (c : Cur) (reason : Nat) : State :=
  let was := match s.wave? c.wave with | some w => (w.path c.path).reason | none => 0
  let s := s.updWave c.wave (fun w => w.setPath c.path { w.path c.path with reason := reason })
  let l := s.lp (lpOf c.wave)
  let s := s.setLp (lpOf c.wave) { l with eligN := if was == 0 then l.eligN - 1 else l.eligN }
  { s with sch := { s.sch with issued := false } }

/-- The first instruction issued after an older access that is unperformed opens a window (R106). -/
def Wave.openWindow (w : Wave) (id : Nat) (c : Cur) (pinned : Bool) : Wave :=
  match w.win with
  | some _ => w
  | none =>
    if w.unperformed then
      { w with win := some { first := id, pc := c.pc, path := c.path, base := c.base,
                             after := c.pc + BitVec.ofNat 64 c.slot, pinned := pinned } }
    else w

/-- Has the wave an access issued before issue number k that is not performed? -/
def Wave.owesUntil (w : Wave) (k : Nat) : Bool := w.accs.any (fun a => !a.early && decide (a.id < k))

/-- A fault or a match of the issuing path waits for commit: the path stands at issue number id, inside a window (R115, R221). -/
def stallStop (s : State) (c : Cur) (id : Nat) : State :=
  stallPath (s.updWave c.wave (fun w =>
    let p := w.path c.path
    (w.setPath c.path { p with stopAt := some (p.stopAt.getD id) }).openWindow id c false)) c 12

/-- Where a path stands after its instruction, and the repetition that is next (R239). -/
def advance (c : Cur) (k : Ctl) (cls : Nat) (p : Path) : Path :=
  match c.rep, p.rep with
  | true, some r =>
    if r.idx < r.count then { p with rep := some { r with idx := r.idx + 1, flag := k.setf.toNat, cls := cls } }
    else { p with rep := none, e := { p.e with pc := c.pc + BitVec.ofNat 64 c.slot } }
  | _, _ => { p with rep := none, e := { p.e with pc := c.pc + BitVec.ofNat 64 c.slot } }

/-- The vector registers or predicates that an instruction names as its destination: whether predicates, the first, how many. -/
def destOf (i : Instr) : Option (Bool × Nat × Nat) :=
  let v (d : BitVec 8) (n : Nat) : Option (Bool × Nat × Nat) := some (false, d.toNat, n)
  let p (d : BitVec 8) : Option (Bool × Nat × Nat) := some (true, d.toNat, 1)
  let shaped (h : RegClass) (s : Bool) : Option (Bool × Nat × Nat) :=
    let (d, _, _) := regFields i
    if s then none else if h == .p then p d else v d (if h == .w then 2 else 1)
  match aluShape i with
  | some (h, o) => shaped h.d o.s
  | none => match fltShape i with
    | some (h, o) => shaped h.d o.s
    | none => match accDst i with
      | some (sc, r, n) => if sc then none else some (false, r, n)
      | none => match i with
        | .movi _ s d x => if s then none else v d (match x with | .word _ => 1 | _ => 2)
        | .srd _ s wide d _ => if s then none else v d (if wide then 2 else 1)
        | .pand _ | .por _ | .pxor _ | .pnot _ | .pmov _ => p (regFields i).1
        | .v2p _ _ m => some (true, 0, if m == 0 then 0 else 24)
        | .p2v _ d => v d 1
        | .shfl _ _ d _ _ | .wscan _ _ _ _ d _ => v d 1
        | .vote _ m ds d _ => if m == .ballot then (if ds then none else v d 2) else if ds then none else p d
        | .wred _ _ _ ds d _ | .bcast _ ds d _ _ => if ds then none else v d 1
        | .bwait _ d _ _ _ _ | .waitge _ d _ _ _ => p d
        | _ => none

/-- Does an instruction name a latched register as its destination? -/
def overwrites (i : Instr) (x : Latch) : Bool :=
  match destOf i with
  | some (pred, r, n) =>
    let pair : Nat := if x.vals.any (fun y => decide (64 ≤ y.1)) then 2 else 1
    pred == x.pred && decide (r < x.reg + pair) && decide (x.reg < r + n) &&
      (match i with | .v2p _ _ m => m.getLsbD x.reg | _ => true)
  | none => false

/-- The latch's values of a source for some threads. -/
def latchVals (w : Wave) (act : Word64) (pred : Bool) (reg n : Nat) : List (Nat × VWord) :=
  (List.range n).flatMap (fun j => (threads act).map (fun t =>
    (64 * j + t, if pred then ⟨if (w.p reg t).val then 1 else 0, (w.p reg t).poison⟩ else w.v (reg + j) t)))

/-- Results land in registers: the latch drops what they write (R235). -/
def latchLand (s : State) (wid : Nat) (ws : List RegW) : State :=
  let l := s.lp (lpOf wid)
  let hit (x : Latch) : Bool := ws.any (fun w => match w with
    | .v r _ _ => !x.pred && (r == x.reg || (r == x.reg + 1 && x.vals.any (fun y => decide (64 ≤ y.1))))
    | .p r _ _ => x.pred && r == x.reg
    | .s _ _ => false)
  if l.latch.any (fun x => x.2.wave == wid && hit x.2)
  then s.setLp (lpOf wid) { l with latch := l.latch.filter (fun x => !(x.2.wave == wid && hit x.2)) } else s

/-- Place a source in the operand latch, count down the wave's others and drop those written (R235). The latch changes no
result. -/
def latchStep (l : LanePair) (wid : Nat) (w : Wave) (act : Word64) (i : Instr) (wrote : Bool) : LanePair :=
  let hold := (ctlOf i).hold
  let kept := (l.latch.map (fun x => if x.2.wave == wid then (x.1, { x.2 with left := x.2.left - 1 }) else x)).filter
    (fun x => x.2.left != 0 && !(wrote && x.2.wave == wid && overwrites i x.2))
  match heldSource i hold with
  | some (p, r, n) => { l with latch := Sp.insert kept hold.toNat ⟨wid, p, r, latchVals w act p r n, 2⟩ }
  | none => { l with latch := kept }

/-- The bytes an undo record takes (R111): 16 for its header, and its old values. -/
def vecRoom (n : Nat) : Nat := 16 + (4 * n + 15) / 16 * 16

/-- Bytes of the undo records that instruction i of path k may need for n active threads (R111): two of a flag, which it sets
and later clears; of the path table, an entry for each group of a split and for its join, at most every entry in use at a MEET or
an EXIT, two of a path that polls. -/
def undoRoom (i : Instr) (w : Wave) (k n : Nat) : Nat :=
  let vec := vecRoom n
  let used := 32 * (16 - w.freeCount)
  let split : Nat := if n ≤ 1 then 0 else 32 * min (n + 1) (w.freeCount + 1)
  let regs : Nat := match aluShape i with
    | some (h, o) => if h.d == .p then 32 else if h.d == .w then (if o.s then 32 else 2 * vec) else if o.s then 16 else vec
    | none => match fltShape i with
      | some (h, o) => if h.d == .p then 32 else if o.s then 16 else vec
      | none => match accDst i with
        | some (sc, _, k) => if sc then 16 * k else k * vec
        | none => match i with
          | .movi _ s _ v => (match v with | .word _ => 1 | _ => 2) * (if s then 16 else vec)
          | .srd _ s wide _ _ => (if wide then 2 else 1) * (if s then 16 else vec)
          | .pand _ | .por _ | .pxor _ | .pnot _ | .pmov _ => 32
          | .bwait _ _ _ _ _ _ | .waitge _ _ _ _ _ => 96
          | .v2p _ _ m => 32 * popcount (m.setWidth 64)
          | .p2v _ _ | .shfl _ _ _ _ _ | .wscan _ _ _ _ _ _ => vec
          | .vote _ m ds _ _ => (if m == .ballot then 2 else 1) * (if ds then 16 else if m == .ballot then vec else 32)
          | .wred _ _ _ ds _ _ | .bcast _ ds _ _ _ => if ds then 16 else vec
          | .bra _ _ _ => if n == popcount (w.path k).e.mask then 0 else 96
          | .brx _ s _ => if s then 0 else split
          | .ret _ s _ => (if s then 0 else split) + used
          | .exit _ | .meet _ => used
          | .call _ _ _ => 2 * vecRoom n
          | .callx _ s _ => (if s then 0 else split) + 2 * vecRoom (if s then popcount (w.path k).e.mask else n)
          | _ => 0
  if n = 0 then 0 else regs + (if (ctlOf i).setf.toNat < 12 then 32 else 0)

/-- Is there room for an instruction's undo records in the wave's checkpoint area of 2^CKPTA KiB (R111, R202)? -/
def roomFor (s : State) (w : Wave) (room : Nat) : Bool :=
  match w.win with
  | none => true
  | some n =>
    let area := match s.ctx? w.ctx with | some c => 1024 * 2 ^ c.conf.ckpta | none => 0
    decide (n.ins.foldl (fun t x => t + x.room) 0 + room ≤ area)

/-- Note an instruction in the open window, and a change of the deferral stack it made. -/
def Wave.noteIns (w : Wave) (id : Nat) (c : Cur) (room : Nat) (old : List Defer) : Wave :=
  match w.win with
  | some n =>
    if n.first ≤ id then
      let u := if old == w.defer then n.undo else ⟨id, .defers old⟩ :: n.undo
      let d := WinIns.mk id c.pc c.base (c.pc + BitVec.ofNat 64 c.slot) c.path room
      { w with win := some { n with ins := n.ins ++ [d], undo := u } }
    else w
  | none => w

/-- Does an instruction that completes at issue owe its flag for the cycles it still takes? -/
def owesFlag (x : Iss) (i : Instr) (later : Bool) : Bool :=
  decide ((ctlOf i).setf.toNat < 12) && (later || decide (1 < pairsOf (scalarForm i) x.act))

/-- The cycles until the last thread pair of the instruction that begins now: its first issues in this cycle, the others
after those of the instructions in progress (R186). -/
def pairDelay (x : Iss) (sc : Bool) (s : State) : Nat :=
  let n := pairsOf sc x.act - 1
  if n == 0 then 0 else n + (s.lp (lpOf x.cur.wave)).prog.foldl (fun t b => t + b.left) 0

def lastPair (x : Iss) (i : Instr) (s : State) : Nat := pairDelay x (scalarForm i) s

/-- The issuing wave's path table at the end of issue: the path advances unless the instruction moved it. Its last thread
pair issues in cycle `last`. -/
def endPath (x : Iss) (i : Instr) (moved : Bool) (last : Nat) (w : Wave) : Wave :=
  let p := w.path x.cur.path
  let p := if moved then p else advance x.cur (ctlOf i) (oweClass i) p
  let p : Path := { p with pred := some ⟨last, some x.op⟩, eligible := 0, urgentAt := none,
                           reason := 0, noMatch := false, wants := false, sealed := false, stopAt := none }
  if p.e.kind == PKind.free then w else if moved then w.setPath x.cur.path p else w.putPath x.id x.cur.path p

/-- What the issuing wave owes at the end of issue: its flag until completion (R231 to R233), and its issue order goes
on. -/
def endOwe (x : Iss) (i : Instr) (later : Bool) (w : Wave) : Wave :=
  let f := (ctlOf i).setf.toNat
  let w := if owesFlag x i later then { (w.noteFlag x.id f) with owed := w.owed ++ [Owe.mk f x.id (oweClass i)] } else w
  let w := w.noteIns x.id x.cur (undoRoom i x.w x.cur.path (popcount x.act)) x.w.defer
  { w with seq := w.seq + 1, careful := w.careful - 1 }

/-- Has an instruction written its destination at issue? A result on its way, an access and a poll that goes on write later. -/
def wroteNow (x : Iss) (i : Instr) (w : Wave) : Bool :=
  x.act != 0 && (accDst i).isNone && (w.path x.cur.path).poll.isNone &&
    !w.pend.any (fun p => p.id == x.id && !p.writes.isEmpty)

/-- The lane pair at the end of issue: the cycles are taken (R145), the operand latch and the count of eligible paths
follow. -/
def endLane (x : Iss) (i : Instr) (wrote : Bool) (l : LanePair) : LanePair :=
  let pairs := pairsOf (scalarForm i) x.act
  let l := if pairs ≤ 1 then l
    else { l with prog := l.prog ++ [⟨x.cur.wave, x.id, pairs - 1, x.op, [(x.cur.wave, x.id)]⟩] }
  let l := latchStep l x.cur.wave x.w x.act i wrote
  { l with began := some ⟨x.w.ctx, x.cur.wave, x.cur.path, x.cur.base, x.p.e.mask, x.id, x.w.win.isSome⟩,
           eligN := if x.p.reason == 0 then l.eligN else l.eligN + 1 }

/-- The end of issue: the path advances unless the instruction moved it, the flag is owed until completion
(R231 to R233), the cycles are taken (R145), the counts of R116 and R186 go on. -/
def finish (x : Iss) (i : Instr) (moved later : Bool) (s : State) : State :=
  let s := match s.wave? x.cur.wave with
    | none => s
    | some w =>
      let w := endOwe x i later (endPath x i moved (s.clk.cycle + lastPair x i s) w)
      if owesFlag x i later && !later then
        (s.setWave x.cur.wave { w with pend := w.pend ++ [Pend.mk x.id [] 0] }).after
          (lastPair x i s + 1) (.resultWritten x.cur.wave x.id)
      else s.setWave x.cur.wave w
  let now := (s.wave? x.cur.wave).any (wroteNow x i)
  let s := s.setLp (lpOf x.cur.wave) (endLane x i now (s.lp (lpOf x.cur.wave)))
  { s with sch := { s.sch with issued := true, free := s.sch.free + 1 } }

/-- A fault of the issuing path. -/
def faultNow (x : Iss) (f : FaultInfo) (s : State) : State :=
  let s := takeFault s x.cur.wave x.cur.path x.cur.pc x.cur.base (x.cur.pc + BitVec.ofNat 64 x.cur.slot)
    (if f.code == Code.DEBUG_STOP then .debug else .fault) f
  { s with sch := { s.sch with issued := true, free := s.sch.free + 1 } }

/-- The threads a guard leaves active (R230), and whether a guard bit of the path is poisoned. -/
def guardMask (w : Wave) (free : Nat) (k : Ctl) (mask : Word64) : Word64 :=
  if k.guard == 31 then mask
  else maskOf ((threads mask).filter (fun t => (w.readP free k.guard.toNat t).val != k.gneg))
def guardPoison (w : Wave) (free : Nat) (k : Ctl) (mask : Word64) : Word64 :=
  if k.guard == 31 then 0
  else maskOf ((threads mask).filter (fun t => (w.readP free k.guard.toNat t).poison))

/-- Must the window this instruction opens be pinned (R116)? -/
def needsPin (w : Wave) (c : Cur) : Bool :=
  w.win.isNone && w.unperformed && decide (16 ≤ w.count) && w.keyPc == c.pc && w.keyPath == c.path

/-- Request the pin grant (R117). -/
def requestPin (s : State) (w : Nat) : State :=
  if s.pins.queue.contains w then s
  else
    let (n, s) := s.fresh
    let s := { s with pins := { s.pins with queue := s.pins.queue ++ [w] } }
    ((s.updWave w (fun x => { x with pinReq := some n })).soon (.pinGrant w)).afterTicks 4096 (.pinGrantTimeout w n)

/-- Fields of an address breakpoint (R220). -/
def bkptAddr (b : BitVec 128) : Word64 := bits b 64 64
def bkptKind (b : BitVec 128) : Nat := (bits b 1 2).toNat
def bkptPath (b : BitVec 128) (w p : Nat) : Bool :=
  bit b 0 && (!bit b 46 || (bits b 47 17).toNat == w) && (!bit b 40 || (bits b 41 5).toNat == p)

/-- The lowest execute breakpoint that a path about to begin the instruction at an address matches (R221). -/
def bkptAt (c : Ctx) (w p : Nat) (pc : Word64) : Option Nat :=
  (c.bkpts.find? (fun b => bkptPath b.2 w p && bkptKind b.2 == 0 && bkptAddr b.2 == pc)).map (·.1)

/-- The match of the issuing path: at its instruction, or at the REP word before repetition 0. -/
def execHit (s : State) (c : Cur) (w : Wave) : Option Nat :=
  let p := w.path c.path
  if p.noMatch then none else
  match s.ctx? w.ctx with
  | none => none
  | some x =>
    match bkptAt x c.wave c.path c.pc, (if c.rep && (match p.rep with | some r => r.idx == 0 | none => true)
        then bkptAt x c.wave c.path c.base else none) with
    | some a, some b => some (min a b)
    | some a, none => some a
    | none, b => b

/-- Step control (R222): an armed path's instruction fires it after issue. -/
def stepArmed (c : Ctx) (w i : Nat) : Bool :=
  c.step.getLsbD 31 && (bits c.step 5 17).toNat == w && (bits c.step 0 5).toNat == i

/-- Every path that holds threads of the mask parks with STATE 101 and a DEBUG_STOP record of subcode 3. -/
def stepStop (s : State) (w : Nat) (mask : Word64) (pc : Word64) : List Nat → State
  | [] => s
  | i :: is =>
    let s := match s.wave? w with
      | some x =>
        let p := x.path i
        if p.e.kind == .path && !p.parked && (p.e.mask &&& mask) != 0 then
          takeFault s w i pc p.e.pc p.e.pc .debug { code := Code.DEBUG_STOP, sub := 3, mask := p.e.mask }
        else s
      | none => s
    stepStop s w mask pc is

/-- Fire an armed step of path i of a wave: every path that holds threads of the mask stops. -/
def fireStepAt (s : State) (ctx wid i : Nat) (mask pc : Word64) : State :=
  match s.ctx? ctx with
  | some c =>
    if stepArmed c wid i then
      stepStop (s.setCtx ctx { c with step := c.step &&& 0x7FFFFFFF }) wid mask pc (List.range 16)
    else s
  | none => s

/-- Before an armed step of a path fires after its issue, a window that siblings have open rolls back (R115). -/
def lateRoll (s : State) (ctx wid i : Nat) : State :=
  if (s.ctx? ctx).any (fun c => stepArmed c wid i) then rollback s wid false else s

/-- Does a path still wait inside its instruction: a WAITGE or BWAIT that polls, a FUSE? -/
def Wave.midway (w : Wave) (i : Nat) : Bool := (w.path i).poll.isSome || (w.fuse.map (·.path)) == some i

/-- Fire an armed step of the issuing path, once its instruction has completed issue (R222). -/
def fireStep (x : Iss) (s : State) : State :=
  if (s.wave? x.cur.wave).any (fun w => w.midway x.cur.path) then s
  else fireStepAt s x.w.ctx x.cur.wave x.cur.path x.p.e.mask x.cur.pc

/-- The budget the registers of an instruction need (R165); before repetition 0 of a REP group, that of every repetition
(R239). -/
def leastBudget (i : Instr) (c : Cur) (w : Wave) : Nat :=
  match c.rep, (w.path c.path).rep with
  | true, some r => if r.idx == 0 then repNeed i r.idst r.isa r.isb (r.count + 1) else need i
  | _, _ => need i

/-- Is step control armed for the issuing path (R222)? -/
def armedAt (s : State) (c : Cur) (w : Wave) : Bool :=
  match s.ctx? w.ctx with
  | some y => stepArmed y c.wave c.path
  | none => false

/-- A step that meets a breakpoint has fired; only the breakpoint's record is written (R222). -/
def disarm (s : State) (c : Nat) : State := s.updCtx c (fun x => { x with step := x.step &&& 0x7FFFFFFF })

/-- The issuing path faults at its instruction, from state t: once commit has reached the instruction (R115, R221); what siblings have
issued since then rolls back first. -/
def raiseAt (x : Iss) (s t : State) (f : FaultInfo) : Out :=
  if f.later then .next (stallPath s x.cur 12)
  else if x.w.owesUntil (x.p.stopAt.getD x.id) then .next (stallStop s x.cur x.id)
  else .next (faultNow x f (if x.w.unperformed then rollback t x.cur.wave false else t))

/-- The issuing path is about to begin an instruction at an execute breakpoint; where an armed step would fire too, only the
breakpoint's record is written (R221, R222). -/
def breakAt (x : Iss) (s : State) (b : Nat) : Out :=
  raiseAt x s (if armedAt s x.cur x.w then disarm s x.w.ctx else s)
    { code := Code.DEBUG_STOP, sub := 1, mask := x.p.e.mask, extra := BitVec.ofNat 64 b }

/-- ISSUE: what every instruction goes through from order 8 of R242 on. The budget and the guard are checked,
an instruction with no active thread has no effect (R145) but that it may open a window (R106), R109 and R116 hold back what
may not run ahead, and `act` is the instruction's own part. A fault other than an access's own, a breakpoint's match, and an armed
step wait for commit (log 14): those waits have reason 12 until pathReason charges them. -/
def issue (i : Instr) (s : State) (act : Iss → State → Act) : Out :=
  match s.sch.cur with
  | none => .fault .noIssuer
  | some c =>
  match s.wave? c.wave with
  | none => .fault .noIssuer
  | some w =>
    let p := w.path c.path
    let k := ctlOf i
    let id := w.seq
    let free := s.sch.free
    let a := guardMask w free k p.e.mask
    let x : Iss := ⟨c, w, p, a, id, free⟩
    let armed := armedAt s c w
    let open? := w.unperformed
    let raise := raiseAt x s s
    match execHit s c w with
    | some b => breakAt x s b
    | none =>
    if w.budget < leastBudget i c w then raise { code := Code.BUDGET, sub := 2, mask := p.e.mask }
    else if guardPoison w free k p.e.mask != 0 then
      raise { code := Code.POISON_USE, mask := guardPoison w free k p.e.mask }
    else if open? && (armed || (a != 0 && waitsForWave i) || decide (0 < w.careful)) then .next (stallPath s c 12)
    else if a != 0 && waitsForFlags i && w.pendingFlags != 0 then .next (stallPath s c 3)
    else if needsPin w c && s.pins.holder != some c.wave then .next (stallPath (requestPin s c.wave) c 12)
    else if !(roomFor s (w.openWindow id c false) (undoRoom i w c.path (popcount a))) then .next (stallPath s c 9)
    else
      let w' := w.openWindow id c (needsPin w c && s.pins.holder == some c.wave)
      let x := { x with w := w' }
      if a == 0 then .next (fireStep x (finish x i false false (s.setWave c.wave w')))
      else match act x (s.setWave c.wave w') with
      | .stall r => .next (stallPath s c r)
      | .stallAt t r => .next (stallPath t c r)
      | .waits t g r => .next (stallPath (s.gate t g (some c.wave)) c (if ceilingWait g then 7 else r))
      | .trap f => raise f
      | .trapAt t f => .next (faultNow x f t)
      | .faulted t => .next { t with sch := { t.sch with issued := true, free := t.sch.free + 1 } }
      | .done t => .next (fireStep x (finish x i false false t))
      | .later t => .next (fireStep x (finish x i false true t))
      | .moved t => .next (fireStep x (finish x i true false t))
      | .movedLater t => .next (fireStep x (finish x i true true t))

end Sys2Proof.Machine
end

