-- ==== Sys2Proof/Machine/Areas.lean ====
section
/-!
DEFINITION. Wave areas of local space as bytes (R148, R149): the deferral stack (R152), the undo records of the checkpoint area
(R111) and the registers of a SPILLED wave. State holds what they mean; a read shows it, and a store to them changes it (log 38).
-/

namespace Sys2Proof.Machine

/-! ### Path-table entries (R150) -/

/-- Codes of KIND and STATE. -/
def pKindCode : PKind → Nat
  | .free => 0
  | .path => 1
  | .meet => 2
  | .ret => 3
def pStateCode : PState → Nat
  | .ready => 0
  | .waiting => 1
  | .counting => 2
  | .atMeet => 3
  | .trapped => 4
  | .stopped => 5
  | .handler => 6
  | .atReturn => 7

def pKindOf (n : Nat) : PKind := if n == 1 then .path else if n == 2 then .meet else if n == 3 then .ret else .free
def pStateOf (n : Nat) : PState :=
  ([.ready, .waiting, .counting, .atMeet, .trapped, .stopped, .handler, .atReturn] : List PState).getD n .ready

/-- The 128 bits of a path-table entry. -/
def entryBits (e : Entry) : Nat :=
  e.mask.toNat * 2 ^ 64 + (bits e.pc 3 49).toNat * 2 ^ 15 + e.link % 32 * 2 ^ 10 + pStateCode e.state * 2 ^ 7 +
    pKindCode e.kind * 2 ^ 5

def entryOf (v : Nat) : Entry where
  kind  := pKindOf (v / 2 ^ 5 % 4)
  state := pStateOf (v / 2 ^ 7 % 8)
  link  := v / 2 ^ 10 % 32
  pc    := BitVec.ofNat 64 (v / 2 ^ 15 % 2 ^ 49 * 8)
  mask  := BitVec.ofNat 64 (v / 2 ^ 64)

/-! ### Deferral records (R152) -/

def Defer.bytes (d : Defer) : List Byte :=
  leBytes d.mask.toNat 8 ++ leBytes ((bits d.pc 3 49).toNat * 2 ^ 15 + d.owner % 16 * 2 ^ 11 + (if d.phase then 2 ^ 10 else 0) +
    (if d.ret then 2 ^ 9 else 0)) 8

def deferOf (bs : List Byte) : Defer where
  mask  := BitVec.ofNat 64 (fieldAt bs 0 8)
  pc    := BitVec.ofNat 64 (fieldAt bs 8 8 / 2 ^ 15 * 8)
  owner := fieldAt bs 8 8 / 2 ^ 11 % 16
  phase := (fieldAt bs 8 8).testBit 10
  ret   := (fieldAt bs 8 8).testBit 9

/-! ### Bytes put over bytes -/

/-- Bytes that stand at an offset, with those stored at another put over them. -/
def putOver (old : List Byte) (at_ off : Nat) (bs : List Byte) : List Byte :=
  old.zipIdx.map (fun y => if decide (off ≤ at_ + y.2) && decide (at_ + y.2 < off + bs.length)
    then bs.getD (at_ + y.2 - off) y.1 else y.1)

/-- The same for a number of n bytes. -/
def numOver (v n at_ off : Nat) (bs : List Byte) : Nat := leNat (putOver (leBytes v n) at_ off bs)

/-! ### Undo records (R111) -/

/-- A record of the checkpoint area: the instruction that wrote it, KIND, REG, OLD, and its values by thread. -/
structure CkptRec where
  id   : Nat
  kind : Nat
  reg  : Nat
  old  : Nat := 0
  vals : List (Nat × Nat) := []
  deriving DecidableEq, Repr

def ckptRecOf (u : Undo) : Option CkptRec :=
  match u.what with
  | .vreg r olds => some { id := u.id, kind := 1, reg := r, vals := olds.map (fun x => (x.1, x.2.val.toNat)) }
  | .sreg r x => some { id := u.id, kind := 2, reg := r, old := x.val.toNat }
  | .pred r olds => some { id := u.id, kind := 3, reg := r, vals := olds.map (fun x => (x.1, if x.2.val then 1 else 0)) }
  | .entry i p => some { id := u.id, kind := 4, reg := i, vals := [(0, entryBits p.e)] }
  | .flags f m => some { id := u.id, kind := 5, reg := f, old := m.toNat }
  | .lease n => some { id := u.id, kind := 6, reg := 0, old := n }
  | .place _ _ | .defers _ => none

/-- Does a record hold what one write of an instruction replaced in other threads? -/
def CkptRec.takes (q r : CkptRec) : Bool :=
  (r.kind == 1 || r.kind == 3) && q.id == r.id && q.kind == r.kind && q.reg == r.reg &&
    r.vals.all (fun x => (Sp.find q.vals x.1).isNone)

/-- One write of a register is one record for all its threads. -/
def joinRec (rs : List CkptRec) (r : CkptRec) : List CkptRec :=
  match rs.find? (fun q => q.takes r) with
  | some q => rs.map (fun x => if x == q then { q with vals := r.vals.foldl (fun m y => Sp.insert m y.1 y.2) q.vals } else x)
  | none => rs ++ [r]

/-- The records of a window, the oldest first. -/
def Window.recs (n : Window) : List CkptRec := (n.undo.reverse.filterMap ckptRecOf).foldl joinRec []

def CkptRec.value (r : CkptRec) : List Byte :=
  if r.kind == 1 then (let bs := r.vals.flatMap (fun x => leBytes x.2 4); bs ++ leBytes 0 ((16 - bs.length % 16) % 16))
  else if r.kind == 3 then leBytes ((r.vals.map (fun x => x.2 * 2 ^ x.1)).foldl (· + ·) 0) 8 ++ leBytes 0 8
  else if r.kind == 4 then r.vals.flatMap (fun x => leBytes x.2 16)
  else []

def CkptRec.bytes (r : CkptRec) : List Byte :=
  leBytes r.kind 1 ++ leBytes r.reg 1 ++ leBytes (16 + r.value.length) 2 ++ leBytes r.old 4 ++
    leBytes (if r.kind == 1 || r.kind == 3 then (maskOf (r.vals.map (·.1))).toNat else 0) 8 ++ r.value

/-- The sequence, which a KIND of 0 ends. -/
def Window.ckptSeq (n : Window) : List Byte := n.recs.flatMap CkptRec.bytes ++ leBytes 0 1

/-- The records with their places in the sequence. -/
def placed : List CkptRec → Nat → List (Nat × CkptRec)
  | [], _ => []
  | r :: rs, p => (p, r) :: placed rs (p + r.bytes.length)

/-- Old values as a store of bytes at a place of the sequence leaves them; of a record's header only OLD can change (log 38). -/
def Window.pokeCkpt (n : Window) (off : Nat) (bs : List Byte) : Window :=
  let rs := placed n.recs 0
  let spot (id kind reg t : Nat) : Option (Nat × Nat) := rs.findSome? (fun y =>
    if y.2.id == id && y.2.kind == kind && y.2.reg == reg && (kind == 2 || decide (4 ≤ kind) || (Sp.find y.2.vals t).isSome)
    then some (y.1, (y.2.vals.filter (fun x => decide (x.1 < t))).length) else none)
  let new (u : Undo) : UndoWhat := match u.what with
    | .vreg r olds => .vreg r (olds.map (fun x => match spot u.id 1 r x.1 with
      | some (p, k) => (x.1, { x.2 with val := BitVec.ofNat 32 (numOver x.2.val.toNat 4 (p + 16 + 4 * k) off bs) })
      | none => x))
    | .sreg r x => match spot u.id 2 r 0 with
      | some (p, _) => .sreg r { x with val := BitVec.ofNat 32 (numOver x.val.toNat 4 (p + 4) off bs) }
      | none => .sreg r x
    | .pred r olds => .pred r (olds.map (fun x => match spot u.id 3 r x.1 with
      | some (p, _) => (x.1, { x.2 with val :=
          (numOver (if x.2.val then 2 ^ (x.1 % 8) else 0) 1 (p + 16 + x.1 / 8) off bs).testBit (x.1 % 8) })
      | none => x))
    | .entry i q => match spot u.id 4 i 0 with
      | some (p, _) =>
        let v := numOver (entryBits q.e) 16 (p + 16) off bs
        if v == entryBits q.e then .entry i q else .entry i { q with e := entryOf v }
      | none => .entry i q
    | .flags f m => match spot u.id 5 f 0 with
      | some (p, _) => .flags f (BitVec.ofNat 12 (numOver m.toNat 4 (p + 4) off bs))
      | none => .flags f m
    | .lease l => match spot u.id 6 0 0 with
      | some (p, _) => .lease (numOver l 4 (p + 4) off bs)
      | none => .lease l
    | .place i q => .place i q
    | .defers ds => .defers ds
  { n with undo := n.undo.map (fun u => { u with what := new u }) }

/-! ### The register run of a SPILLED wave (R149, R169) -/

/-- Threads of one run of a wave. -/
def Wave.runWidth (w : Wave) : Nat := w.width / max 1 w.runs.length

/-- Run i of a wave's registers: register r of its thread t at (r * H + t) * 4, H threads to a run (R144). R149 gives no order for the
SPILL field; this is that of the VREGS item (R282; DESIGN CHOICE, log 38). -/
def Wave.runBytes (w : Wave) (i : Nat) : List Byte :=
  let h := w.runWidth
  (List.range w.budget).flatMap (fun r => (List.range h).flatMap (fun t => leBytes (w.v r (i * h + t)).val.toNat 4))

/-- A store of bytes at an offset of run i changes the registers that it holds. -/
def Wave.pokeRun (w : Wave) (i off : Nat) (bs : List Byte) : Wave :=
  let h := w.runWidth
  let first := off / 4
  let last := (off + bs.length + 3) / 4
  (List.range (last - first)).foldl (fun w k =>
    let n := first + k
    let r := n / h
    let t := i * h + n % h
    if h == 0 || decide (w.budget ≤ r) then w
    else
      let x := w.v r t
      w.poke (.v r t { x with val := BitVec.ofNat 32 (numOver x.val.toNat 4 (4 * n) off bs) })) w

/-! ### An area -/

/-- What area i of a wave shows of the wave: pieces of bytes by offset. A fused wave keeps its deferral stack and its undo records
in its first area (log 38). -/
def Wave.areaShows (w : Wave) (i : Nat) : List (Nat × List Byte) :=
  (if i == 0 then [(0, w.defer.flatMap Defer.bytes)] else []) ++
    (if w.state == .spilled then [(1024, w.runBytes i)]
     else if i == 0 then (match w.win with | some n => [(1024, n.ckptSeq)] | none => []) else [])

/-- A store at an offset of area i. -/
def Wave.pokeArea (w : Wave) (i off : Nat) (bs : List Byte) : Wave :=
  let w := if i == 0 && decide (off < 1024) then
      { w with defer := w.defer.zipIdx.map (fun y =>
        let new := putOver y.1.bytes (16 * y.2) off bs
        if new == y.1.bytes then y.1 else deferOf new) }
    else w
  if off + bs.length ≤ 1024 then w
  else
    let (o, bs) := if off < 1024 then (0, bs.drop (1024 - off)) else (off - 1024, bs)
    if w.state == .spilled then w.pokeRun i o bs
    else if i == 0 then { w with win := w.win.map (fun n => n.pokeCkpt o bs) } else w

/-- The wave areas of a context on a core: wave, number of the area, offset, size. -/
def areasAt (s : State) (core c : Nat) : List (Nat × Nat × Nat × Nat) :=
  (s.waves.filter (fun w => coreOf w.1 == core && w.2.ctx == c)).flatMap (fun w =>
    w.2.areas.zipIdx.map (fun a => (w.1, a.2, a.1.1, a.1.2)))

/-- Bytes of local space at an offset, as the waves' areas show them. -/
def showAreas (s : State) (core c off : Nat) (bs : List Byte) : List Byte :=
  (areasAt s core c).foldl (fun bs a =>
    if decide (off < a.2.2.1 + a.2.2.2) && decide (a.2.2.1 < off + bs.length) then
      match s.wave? a.1 with
      | some w => (w.areaShows a.2.1).foldl (fun bs p => putOver bs off (a.2.2.1 + p.1) (p.2.take (a.2.2.2 - p.1))) bs
      | none => bs
    else bs) bs

/-- A store of bytes to local space changes what the areas it meets mean. -/
def pokeAreas (s : State) (core c off : Nat) (bs : List Byte) : State :=
  (areasAt s core c).foldl (fun s a =>
    if decide (off < a.2.2.1 + a.2.2.2) && decide (a.2.2.1 < off + bs.length) then
      s.updWave a.1 (fun w => w.pokeArea a.2.1 (off - a.2.2.1) (bs.drop (a.2.2.1 - off)))
    else s) s

/-- Does an offset lie in a wave area or a team arena that a wave does not own (R148)? -/
def foreignAt (s : State) (core c off : Nat) (wave : Option Nat) : Bool :=
  match wave with
  | none => false
  | some wid =>
    (areasAt s core c).any (fun a => a.1 != wid && decide (a.2.2.1 ≤ off) && decide (off < a.2.2.1 + a.2.2.2)) ||
    (s.core core).teams.any (fun t => t.2.ctx == c && !t.2.members.contains wid && decide (t.2.base ≤ off) &&
      decide (off < t.2.base + t.2.size))

end Sys2Proof.Machine
end

