-- ==== Sys2Proof/Machine/Frames.lean ====
section
/-!
DEFINITION. Frames, Atlas, directory and homes: where data lives and how a die comes to hold a line (R42 to R69,
R81 to R93). Evictions, moves and forwarded requests are taken whole in one step (log 9); what must wait in
physical time (R77) answers `wait` with the tick at which it may go on.
-/

namespace Sys2Proof.Machine

/-- The outcome of a memory operation: done, to be tried again at a tick (with a stall reason, or the gate that R77's bound
needs), or a failing check. -/
inductive Res (α : Type)
  | ok (a : α) (s : State)
  | wait (tick reason : Nat)
  | fail (f : Fail)

/-- A failing check, or one that is to be made again at the next tick. -/
def failed {α : Type} (s : State) (f : Fail) : Res α := if f.later then .wait (s.clk.tick + 1) 0 else .fail f

/-! ### Addresses (R23, R81) -/

abbrev partOf (dev : Nat) : Nat := dev / 65536
abbrev lineOf (dev : Nat) : Nat := dev / 128
abbrev deviceOf (dev : Nat) : Nat := dev / 0x4000000000000
abbrev kindOf (dev : Nat) : Nat := dev / 0x1000000000000 % 4

/-- The die that is home, or proxy home, of a device address (R81, R89, R92; the host port is on die 0, log 10). -/
def homeDie (s : State) (dev : Nat) : Nat :=
  if kindOf dev == 1 then (if deviceOf dev == s.dev.hostId then 0 else partOf dev % 8)
  else dev / 0x200000000000 % 8

/-- The set of a part in Atlas and in the holder table (R363). -/
def atlasSet (part : Nat) : Nat := ((part % 2048) ^^^ (part / 2048 % 2048))
def holderSet (part : Nat) : Nat := part % 2048

/-- Frame key, line key, and address in fmem. -/
abbrev frameKey (core frame : Nat) : Nat := core * 256 + frame
abbrev flKey (fk line : Nat) : Nat := fk * 512 + line
abbrev lineIx (dev : Nat) : Nat := dev / 128 % 512

def State.atlas (s : State) (die part : Nat) : Option AtlasEntry :=
  (s.die die).atlas.find? (fun e => e.part == part)

def State.setAtlas (s : State) (die : Nat) (e : AtlasEntry) : State :=
  let d := s.die die
  let es := if d.atlas.any (fun x => x.part == e.part)
    then d.atlas.map (fun x => if x.part == e.part then e else x) else d.atlas ++ [e]
  s.setDie die { d with atlas := es }

def State.dropAtlas (s : State) (die part : Nat) : State :=
  let d := s.die die
  s.setDie die { d with atlas := d.atlas.filter (fun x => x.part != part) }

/-- The frame of a part's replica in a bank. -/
def replicaFrame (s : State) (core part : Nat) : Option Nat :=
  ((s.frames.filter (fun x => x.1 / 256 == core && x.2.kind == .replica && x.2.part == part)).head?).map (·.1)

/-! ### Directory (R82) -/

def State.dirOf (s : State) (l : Nat) : DirWord := Sp.get {} s.homes.dir l
def State.setDir (s : State) (l : Nat) (d : DirWord) : State :=
  { s with homes := { s.homes with dir := Sp.put {} s.homes.dir l d } }
def State.homePoison (s : State) (l : Nat) : Bool := Sp.get false s.homes.poison l
def State.setHomePoison (s : State) (l : Nat) (b : Bool) : State :=
  { s with homes := { s.homes with poison := Sp.put false s.homes.poison l b } }
def raiseHome (s : State) (dev t : Nat) : State :=
  let h := homeDie s dev
  let d := s.die h
  s.setDie h { d with homeMark := max d.homeMark t }
def homeMarkOf (s : State) (dev : Nat) : Nat := (s.die (homeDie s dev)).homeMark

/-- Write bytes at the home; an open dual-home window mirrors them (R93). -/
def homeWrite (s : State) (dev : Nat) (bs : List Byte) : State :=
  let s := { s with mem := Memory.writeN s.mem dev bs }
  match s.homes.dual.find? (fun w => w.page == dev / 0x200000 && !w.switched) with
  | some w => { s with mem := Memory.writeN s.mem (w.base + dev % 0x200000) bs }
  | none => s

/-! ### Frame data -/

abbrev fAddr (fk off : Nat) : Nat := fk * 65536 + off
def State.fbytes (s : State) (fk off n : Nat) : List Byte := Memory.readN s.fmem (fAddr fk off) n
def State.setFbytes (s : State) (fk off : Nat) (bs : List Byte) : State :=
  { s with fmem := Memory.writeN s.fmem (fAddr fk off) bs }

/-- The frame in which a die's primary of a part stands. -/
def primaryOf (s : State) (die part : Nat) : Option Nat :=
  (s.atlas die part).map (fun e => frameKey e.pcore e.pframe)

/-- A die's own line record of a device line. -/
def dieLine (s : State) (die l : Nat) : Option (Nat × LineRec) :=
  match primaryOf s die (l / 512) with
  | some fk =>
    let r := s.line (flKey fk (l % 512))
    if r.valid then some (flKey fk (l % 512), r) else none
  | none => none

/-- The latest RTS that a die has granted on a line, on its primary and on every replica (R77). -/
def dieRts (s : State) (die l : Nat) : Nat :=
  let reps := s.frames.filter (fun x => x.1 / 8192 == die && x.2.kind == .replica && x.2.part == l / 512)
  let base := match dieLine s die l with | some (_, r) => r.rts | none => 0
  reps.foldl (fun m x => max m (s.line (flKey x.1 (l % 512))).rts) base

def diePinned (s : State) (die l : Nat) : Bool :=
  match dieLine s die l with | some (_, r) => r.pinned | none => false

/-- The bytes of a line as the last write left them: at its owner, else at home. -/
def curBytes (s : State) (dev n : Nat) : List Byte :=
  let d := s.dirOf (lineOf dev)
  match d.state with
  | .excl | .owned =>
    (match dieLine s d.owner (lineOf dev) with
     | some (k, _) => if d.oremote then Memory.readN s.mem dev n else s.fbytes (k / 512) (dev % 65536) n
     | none => Memory.readN s.mem dev n)
  | _ => Memory.readN s.mem dev n

/-- The poison of a line as the last write left it. -/
def curPoison (s : State) (dev : Nat) : Bool :=
  let d := s.dirOf (lineOf dev)
  match d.state with
  | .excl | .owned =>
    (match dieLine s d.owner (lineOf dev) with
     | some (_, r) => if d.oremote then s.homePoison (lineOf dev) else r.poison
     | none => s.homePoison (lineOf dev))
  | _ => s.homePoison (lineOf dev)

/-! ### Tenant bandwidth (R99) -/

/-- The context and its ancestors, at most 8 deep (R203). -/
def lineage : Nat → State → Nat → List Nat
  | 0, _, _ => []
  | n + 1, s, c => c :: (match s.ctx? c with
    | some x => (match x.parent with | some p => lineage n s p | none => [])
    | none => [])

/-- The controller that moves a line: one of a die's two HBM stacks, which the manual leaves to the implementation (log 53), or
its CXL port (R2, R99). -/
def controllerOf (s : State) (dev : Nat) : Nat :=
  if kindOf dev == 1 then 16 + homeDie s dev else 2 * homeDie s dev + (if Config.hbmStack (lineOf dev) then 1 else 0)

/-- One token from the context's own bucket and from each ancestor's (R99); none when one of them holds none. -/
def takeTokens (s : State) (k : Nat) : List Nat → Option State
  | [] => some s
  | c :: cs =>
    match s.ctx? c with
    | none => takeTokens s k cs
    | some x =>
      match x.bucket with
      | none => takeTokens s k cs
      | some (rate, depth) =>
        let t := Sp.get ((rate * depth : Nat) : Int) x.tokens k
        if t ≤ 0 then none else takeTokens (s.setCtx c { x with tokens := Sp.insert x.tokens k (t - 1) }) k cs

def charge (s : State) (c dev : Nat) : Option State := takeTokens s (controllerOf s dev) (lineage 8 s c)

/-- A transfer that never waits is charged all the same, down to −(RATE × DEPTH). -/
def forceTokens (s : State) (k : Nat) : List Nat → State
  | [] => s
  | c :: cs =>
    match s.ctx? c with
    | none => forceTokens s k cs
    | some x =>
      match x.bucket with
      | none => forceTokens s k cs
      | some (rate, depth) =>
        let cap : Int := ((rate * depth : Nat) : Int)
        forceTokens (s.setCtx c { x with tokens := Sp.insert x.tokens k (max (-cap) (Sp.get cap x.tokens k - 1)) }) k cs

/-- Write-backs and forwarded data are charged to the frame's context. -/
def forceCharge (s : State) (c dev : Nat) : State := forceTokens s (controllerOf s dev) (lineage 8 s c)

/-- Does an owner's primary supply a line, rather than home memory (R83)? -/
def ownerSupplies (s : State) (l : Nat) : Bool :=
  let d := s.dirOf l
  (d.state == .excl || d.state == .owned) && !d.oremote && (dieLine s d.owner l).isSome

/-- A transfer of a line for a context: one token, or, where an owner forwards its data, one of the owner's frame, which never waits
(R99); none when a token is wanting. -/
def chargeLine (s : State) (c dev : Nat) : Option State :=
  let d := s.dirOf (lineOf dev)
  match (if ownerSupplies s (lineOf dev) then dieLine s d.owner (lineOf dev) else none) with
  | some (k, _) => some (forceCharge s (s.frame (k / 512)).ctx dev)
  | none => charge s c dev

/-- Note a conflict with read sets on a die (R113). -/
def strikeDie (s : State) (die l : Nat) : State :=
  { s with sch := { s.sch with hits := s.sch.hits ++ [⟨false, die, l, none⟩] } }

/-! ### Losing a line (R84, R88) -/

/-- Write a line back and let its home forget the die (R83, R84). -/
def giveUp (s : State) (die l : Nat) : State :=
  match dieLine s die l with
  | none => s
  | some (k, r) =>
    let d := s.dirOf l
    let dirty := r.state == .m || r.state == .o
    let s := if dirty then
        (homeWrite (forceCharge s (s.frame (k / 512)).ctx (l * 128)) (l * 128)
          (s.fbytes (k / 512) (l % 512 * 128) 128)).setHomePoison l r.poison else s
    let sh := d.sharers &&& ~~~(1#8 <<< die)
    let owns := (d.state == .excl || d.state == .owned) && !d.oremote && d.owner == die
    let st : DState := if owns then (if sh == 0 && !d.rshare then .none else .shared)
      else match d.state with | .shared => if sh == 0 && !d.rshare then .none else .shared | x => x
    let s := s.setDir l { d with sharers := sh, state := st, owner := if owns then 0 else d.owner }
    let s := raiseHome s (l * 128) r.rts
    s.setLine k { r with valid := false, state := .i, dirty := false }

def giveUps (s : State) (die : Nat) : List Nat → State
  | [] => s
  | l :: ls => giveUps (giveUp s die l) die ls

/-- A die's copy is removed by an invalidation or a forwarded read for ownership (R84). -/
def invalidate (s : State) (die l : Nat) : State :=
  match dieLine s die l with
  | none => s
  | some (k, r) => strikeDie (s.setLine k { r with valid := false, state := .i, dirty := false }) die l

def invalidates (s : State) (l : Nat) : List Nat → State
  | [] => s
  | d :: ds => invalidates (invalidate s d l) l ds

/-! ### The home's answers (R83, R87, R88) -/

/-- What the home supplies: bytes, poison, the WTS that forwarded data carry, the STATE granted, whether the data differ from
the home copy. -/
structure Supply where
  data   : List Byte
  poison : Bool
  wts    : Nat
  state  : LState
  dirty  : Bool := false

/-- The dies that hold a line. -/
def holdersOf (s : State) (l : Nat) : List Nat :=
  let d := s.dirOf l
  (List.range 8).filter (fun i => d.sharers.getLsbD i ||
    ((d.state == .excl || d.state == .owned) && !d.oremote && d.owner == i))

/-- Every die's copy of a line goes, its data written back first (R65): a write at the home itself. -/
def recallAll (s : State) (l : Nat) : Res Unit :=
  let d := s.dirOf l
  if d.oremote || d.rshare then .wait (s.clk.tick + 1) 0
  else
    let hs := holdersOf s l
    let t := hs.foldl (fun m h => max m (dieRts s h l)) 0
    if hs.any (fun h => diePinned s h l) then .wait (s.clk.tick + 1) 0
    else if !hs.isEmpty && s.clk.tick ≤ t then .wait (t + 1) (gateReason 1 l)
    else
      let s := hs.foldl (fun s h => strikeDie (giveUp s h l) h l) s
      .ok () (s.setDir l {})

/-- Is a line's directory word kept in the second-tier directory of its home die: second-tier lines, and the lines that other
devices and the host home (R82, R89, R92)? -/
def tiered (s : State) (l : Nat) : Bool := kindOf (l * 128) != 0 || deviceOf (l * 128) != s.dev.devId.toNat

/-- Room for a line's word in that directory of 2^20 entries, 16 ways: a full set first recalls the line of one of its entries
(R82, log 51). -/
def tierRoom (s : State) (l : Nat) : Res Unit :=
  if !tiered s l || (Sp.find s.homes.dir l).isSome then .ok () s
  else
    let set := s.homes.dir.filter (fun e => e.1 % 65536 == l % 65536 && tiered s e.1 &&
      homeDie s (e.1 * 128) == homeDie s (l * 128))
    match set.head? with
    | some v => if decide (16 ≤ set.length) then recallAll s v.1 else .ok () s
    | none => .ok () s

/-- HOME_READ (R83) by a die. A line held by another device or the host is first recalled (R89, R91). -/
def homeReadOp (s : State) (l die : Nat) : Res Supply :=
  let d := s.dirOf l
  let mem : Supply := ⟨Memory.readN s.mem (l * 128) 128, s.homePoison l, 0, .s, false⟩
  if d.oremote then .wait (s.clk.tick + 1) 0 else
  match tierRoom s l with
  | .wait a b => .wait a b
  | .fail f => .fail f
  | .ok _ s =>
  match d.state with
  | .none => .ok { mem with state := if d.rshare then .s else .e }
      (s.setDir l (if d.rshare then { d with state := .shared, sharers := 1#8 <<< die }
        else { d with state := .excl, owner := die }))
  | .shared => .ok mem (s.setDir l { d with sharers := d.sharers ||| (1#8 <<< die) })
  | .excl | .owned =>
    match dieLine s d.owner l with
    | none => .ok mem (s.setDir l { d with state := .shared, sharers := d.sharers ||| (1#8 <<< die) })
    | some (k, r) =>
      let data := s.fbytes (k / 512) (l % 512 * 128) 128
      let dirty := r.state == .m || r.state == .o
      let s := (forceCharge s (s.frame (k / 512)).ctx (l * 128)).setLine k { r with state := if dirty then .o else .s }
      .ok ⟨data, r.poison, r.wts, .s, false⟩
        (s.setDir l (if dirty then { d with state := .owned, sharers := d.sharers ||| (1#8 <<< die) }
          else { d with state := .shared, owner := 0, sharers := (1#8 <<< d.owner) ||| (1#8 <<< die) }))

/-- The tick after which every other die's right to a line may be removed (R77), and whether a pin forbids it. -/
def othersRts (s : State) (l die : Nat) : Nat :=
  ((holdersOf s l).filter (· != die)).foldl (fun m d => max m (dieRts s d l)) 0
def othersPinned (s : State) (l die : Nat) : Bool :=
  ((holdersOf s l).filter (· != die)).any (fun d => diePinned s d l)

/-- HOME_READ_FOR_OWNERSHIP and HOME_UPGRADE (R83): every other copy goes, after the wait of R77. -/
def homeRfoOp (s : State) (l die : Nat) : Res Supply :=
  let d := s.dirOf l
  if d.oremote || d.rshare then .wait (s.clk.tick + 1) 0
  else if othersPinned s l die then .wait (s.clk.tick + 1) 0
  else
    let others := (holdersOf s l).filter (· != die)
    let t := othersRts s l die
    if !others.isEmpty && s.clk.tick ≤ t then .wait (t + 1) (gateReason 1 l)
    else match tierRoom s l with
    | .wait a b => .wait a b
    | .fail f => .fail f
    | .ok _ s =>
      let sup : Supply := match d.state with
        | .excl | .owned =>
          (match dieLine s d.owner l with
           | some (k, r) => ⟨s.fbytes (k / 512) (l % 512 * 128) 128, r.poison, r.wts, .m, r.state == .m || r.state == .o⟩
           | none => ⟨Memory.readN s.mem (l * 128) 128, s.homePoison l, 0, .m, false⟩)
        | _ => ⟨Memory.readN s.mem (l * 128) 128, s.homePoison l, 0, .m, false⟩
      let s := if ownerSupplies s l && d.owner != die then forceCharge s (match dieLine s d.owner l with
        | some (k, _) => (s.frame (k / 512)).ctx
        | none => 0) (l * 128) else s
      .ok sup ((invalidates s l others).setDir l { d with state := .excl, owner := die, sharers := 0 })

/-- A line of a die upgraded to M, `dirty` when the owner that has gone for it held it in M or O (R45, R83). What a core has read at
the home while the die held the line in S was granted a lease on the home mark (R379): the next write lands above it (R78, log 46). -/
def upgraded (s : State) (dev : Nat) (r : LineRec) (dirty : Bool) : LineRec :=
  { r with state := .m, dirty := r.dirty || dirty, rts := if r.state == .s then max r.rts (homeMarkOf s dev) else r.rts }

/-- A die installs a line it has received (R59, R88): it differs from the home copy where an owner that held it in M or O has
supplied it and gone (R45, R83). -/
def installLine (s : State) (die fk l : Nat) (u : Supply) : State :=
  let t := max (max (max s.clk.tick (homeMarkOf s (l * 128))) (s.die die).evMark) u.wts
  let s := s.setFbytes fk (l % 512 * 128) u.data
  s.setLine (flKey fk (l % 512)) { wts := t, rts := t, poison := u.poison, dirty := u.dirty, valid := true,
                                   state := u.state }

/-! ### Frames: allocation, eviction (R54, R58) -/

/-- A target that names a frame becomes NONE. -/
def TlbEntry.clearTarget (e : TlbEntry) (fk : Nat) : TlbEntry :=
  match e.target with
  | .frame a b _ => if frameKey a b == fk then { e with target := .none } else e
  | _ => e

/-- The targets that a wave's begun accesses keep (log 18). -/
def Wave.clearTargets (w : Wave) (fk : Nat) : Wave :=
  { w with accs := w.accs.map (fun a => { a with lanes := a.lanes.map (fun n =>
      { n with xl := n.xl.map (fun x => { x with ent := x.ent.map (fun e => e.clearTarget fk) }) }) }) }

/-- The targets of some cores that name a frame become NONE, those of accesses on their way with them: what finds its target so
locates its part afresh (R54). -/
def clearTargets (s : State) (fk : Nat) : List Nat → State
  | [] => s
  | c :: cs =>
    let k := s.core c
    let s := s.setCore c { k with tlb := k.tlb.map (fun e => e.clearTarget fk) }
    clearTargets { s with waves := s.waves.map (fun (x : Nat × Wave) =>
      if coreOf x.1 == c then (x.1, x.2.clearTargets fk) else x) } fk cs

/-- The cores of a die. -/
def coresOf (die : Nat) : List Nat := (List.range 32).map (fun i => die * 32 + i)

/-- Advance a frame's generation; a wrap first sends the notice to all cores of the die (R54). -/
def bumpGen (s : State) (fk : Nat) : State :=
  let f := s.frame fk
  let s := if f.gen == 255 then clearTargets s fk (coresOf (fk / 8192)) else s
  s.setFrame fk { f with gen := (f.gen + 1) % 256 }

/-- Reset the 512 line records of a frame. -/
def resetLines (s : State) (fk : Nat) : State :=
  { s with lines := s.lines.filter (fun x => x.1 / 512 != fk) }

/-- The lines of a frame that are valid, as device lines. -/
def validLines (s : State) (fk part : Nat) : List Nat :=
  (s.lines.filter (fun x => x.1 / 512 == fk && x.2.valid)).map (fun x => part * 512 + x.1 % 512)

def maxRts (s : State) (fk : Nat) : Nat :=
  (s.lines.filter (fun x => x.1 / 512 == fk)).foldl (fun m x => max m x.2.rts) 0

/-- A frame becomes FREE; its data, record and line records go. Its GEN and the tick of its last access stay (R44). -/
def freeFrame (s : State) (fk : Nat) : State :=
  let s := resetLines s fk
  let s := { s with fmem := s.fmem.filter (fun c => c.1 / 65536 != fk) }
  s.setFrame fk { gen := (s.frame fk).gen, touch := (s.frame fk).touch }

/-- Drop a replica (R58). -/
def dropReplica (s : State) (fk : Nat) : State :=
  let f := s.frame fk
  let die := fk / 8192
  let t := maxRts s fk
  let s := match s.atlas die f.part with
    | some e => s.setAtlas die { e with replicas := e.replicas &&& ~~~(1#32 <<< (fk / 256 % 32)) }
    | none => s
  let d := s.die die
  freeFrame (bumpGen (s.setDie die { d with evMark := max d.evMark t }) fk) fk

def dropReplicas (s : State) : List Nat → State
  | [] => s
  | f :: fs => dropReplicas (dropReplica s f) fs

/-- The replicas of a part on a die. -/
def replicasOf (s : State) (die part : Nat) : List Nat :=
  (s.frames.filter (fun x => x.1 / 8192 == die && x.2.kind == .replica && x.2.part == part)).map (·.1)

/-- A die's bit in a holder table goes (R86). -/
def clearHolder (s : State) (part die : Nat) : State :=
  let h := homeDie s (part * 65536)
  let d := s.die h
  let hs := d.holders.map (fun x => if x.part == part then { x with vec := x.vec &&& ~~~bitAt die } else x)
  s.setDie h { d with holders := hs.filter (fun x => x.vec != 0) }

/-- FORWARDING_END: a frame that forwards becomes FREE at the next generation, its part is placed (R64). -/
def endForwarding (s : State) (fk gen : Nat) : State :=
  let f := s.frame fk
  if f.kind != .forward || f.gen != gen then s
  else
    let s := match s.atlas (fk / 8192) f.part with
      | some e => s.setAtlas (fk / 8192) { e with astate := if e.astate == .moving then .placed else e.astate }
      | none => s
    freeFrame (bumpGen s fk) fk

/-- The moves of a part on a die end (R60). -/
def endMoves (s : State) (die part : Nat) : State :=
  ((s.frames.filter (fun x => x.1 / 8192 == die && x.2.kind == .forward && x.2.part == part)).map (·.1)).foldl
    (fun s fk => endForwarding s fk (s.frame fk).gen) s

/-- EVICTION of a die's primary of a part (R58), after the end of a move (R60). -/
def evict (s : State) (die part : Nat) : State :=
  let s := endMoves s die part
  match s.atlas die part with
  | none => s
  | some e =>
    let fk := frameKey e.pcore e.pframe
    let s := dropReplicas s (replicasOf s die part)
    let t := maxRts s fk
    let s := giveUps s die (validLines s fk part)
    let s := raiseHome s (part * 65536) t
    let s := clearHolder s part die
    let d := s.die die
    let s := bumpGen (s.setDie die { d with evMark := max d.evMark t }) fk
    (freeFrame s fk).dropAtlas die part

/-- Does Atlas defer every move, drop and eviction of a part (R53, R117)? -/
def heldPart (s : State) (die part : Nat) : Bool := (s.die die).holds.any (fun h => h.part == part)

/-- Is a move of a part of a die under way (R60)? -/
def moving (s : State) (die part : Nat) : Bool := (s.atlas die part).any (fun e => e.astate == .moving)

/-- May a part of a die be evicted, or its replica dropped, now? -/
def atRest (s : State) (die part : Nat) : Bool := !heldPart s die part && !moving s die part

/-- LASTTOUCH of a frame: the tick of its last access, which a sweep raises in every frame whose age exceeds 2^15 ticks (R44). -/
def State.lastTouch (s : State) (f : FrameRec) : Nat := max f.touch s.clk.swept

/-- Age for least-recently-touched comparisons, saturating at 2^15 ticks (R44). -/
def touchOf (s : State) (f : FrameRec) : Nat := max f.touch (s.clk.tick - 0x8000)

/-- The least recently touched primary among frames that satisfy a test (R57): lowest core, then frame, on ties. -/
def oldest (s : State) (ok : Nat → FrameRec → Bool) : Option (Nat × FrameRec) :=
  s.frames.foldl (fun b x =>
    if x.2.kind == .primary && ok x.1 x.2 then
      match b with
      | some y => if touchOf s x.2 < touchOf s y.2 then some x else b
      | none => some x
    else b) none

/-- The lowest FREE frame of a bank from frame k. -/
def freeIn (s : State) (core : Nat) : Nat → Nat → Option Nat
  | 0, _ => none
  | n + 1, k => if (s.frame (frameKey core k)).kind == .free then some k else freeIn s core n (k + 1)

def freeFrames (s : State) (core : Nat) : Nat :=
  256 - (s.frames.filter (fun x => x.1 / 256 == core && x.2.kind != .free)).length

/-- What the choice of a primary to evict comes to: there is none, the one chosen cannot go yet, or the frame it has freed. -/
inductive Evicted
  | none
  | later
  | done (fk : Nat) (s : State)

/-- Evict the least recently touched primary that satisfies a test: Atlas passes over held parts while there is another (R53,
log 9), and waits for the end of a move (R60). -/
def evictOldest (s : State) (ok : Nat → FrameRec → Bool) : Evicted :=
  match oldest s (fun k f => ok k f && !heldPart s (k / 8192) f.part) with
  | some (k, f) => if moving s (k / 8192) f.part then .later else .done k (evict s (k / 8192) f.part)
  | none => if (oldest s ok).isSome then .later else .none

/-- Is d the context c or one of its descendants? -/
def inSubtree (s : State) (c d : Nat) : Bool := (lineage 8 s d).contains c

def quotaNear (s : State) (c : Nat) : Nat := match s.ctx? c with | some x => x.conf.nearq | none => 0
def quotaDie (s : State) (c : Nat) : Nat := match s.ctx? c with | some x => x.conf.dieq | none => 0

/-- Is a core in a context's unit set? -/
def inUnits (s : State) (c core : Nat) : Bool :=
  match s.ctx? c with | some x => x.conf.units.getLsbD core | none => false

/-- A context's near quota on a core: none on a core outside its unit set (R57). -/
def nearOn (s : State) (c core : Nat) : Nat := if inUnits s c core then quotaNear s c else 0

/-- The primaries of a bank, and of a die, that count against a context's quotas: its own and its descendants' (R57, R203). -/
def nearCount (s : State) (ctx core : Nat) : Nat :=
  (s.frames.filter (fun x => x.2.kind == .primary && x.1 / 256 == core && inSubtree s ctx x.2.ctx)).length
def dieCount (s : State) (ctx die : Nat) : Nat :=
  (s.frames.filter (fun x => x.2.kind == .primary && x.1 / 8192 == die && inSubtree s ctx x.2.ctx)).length

/-- Evict, for a full quota of a context, the least recently touched primary that it or a descendant holds in a bank or on a die:
the frame freed. A choice that cannot go yet waits; where there is none, nothing happens. -/
def evictFor (s : State) (ctx : Nat) (ok : Nat → Bool) : Res (Option Nat) :=
  match evictOldest s (fun k f => ok k && inSubtree s ctx f.ctx) with
  | .none => .ok none s
  | .later => .wait (s.clk.tick + 1) 0
  | .done fk s => .ok (some fk) s

/-- The later of two freed frames that lies in a bank. -/
def freedIn (core : Nat) (a b : Option Nat) : Option Nat :=
  (b.filter (fun k => k / 256 == core)).or a

/-- A full quota of an ancestor evicts the least recently touched primary it or a descendant holds (R203); answers the frame
of the bank that an eviction has freed last. -/
def makeRoom (s : State) (core : Nat) (freed : Option Nat) : List Nat → Res (Option Nat)
  | [] => .ok freed s
  | a :: as =>
    match (if nearOn s a core != 0 && decide (nearOn s a core ≤ nearCount s a core) then
        evictFor s a (fun k => k / 256 == core) else .ok none s) with
    | .wait t r => .wait t r
    | .fail f => .fail f
    | .ok near s =>
      match (if decide (quotaDie s a ≤ dieCount s a (core / 32)) then
          evictFor s a (fun k => k / 8192 == core / 32) else .ok none s) with
      | .wait t r => .wait t r
      | .fail f => .fail f
      | .ok all s => makeRoom s core (freedIn core (freedIn core freed near) all) as

/-- The least recently touched replica of a bank, the lowest frame number on ties (log 54). -/
def oldReplica (s : State) (core : Nat) : Option Nat :=
  ((s.frames.filter (fun x => x.1 / 256 == core && x.2.kind == .replica && !heldPart s (core / 32) x.2.part)).foldl (fun b x =>
    match b with
    | some y => if touchOf s x.2 < touchOf s y.2 then some x else b
    | none => some x) none).map (·.1)

/-- A frame of a bank for a fill: the one that an eviction of the fill has freed, else a FREE one, else one that a drop or an
eviction frees where R56 step 2 allows; none serves the access from home. -/
def takeFrame (s : State) (core : Nat) (freed : Option Nat) : Res (Option Nat) :=
  match freed.or ((freeIn s core 256 0).map (frameKey core)) with
  | some k => .ok (some (k % 256)) s
  | none =>
    match oldReplica s core with
    | some k => .ok (some (k % 256)) (dropReplica s k)
    | none =>
      match evictOldest s (fun k f => k / 256 == core && decide (nearOn s f.ctx core < nearCount s f.ctx core) &&
          !moving s (core / 32) f.part) with
      | .none => .ok none s
      | .later => .wait (s.clk.tick + 1) 0
      | .done k s => .ok (some (k % 256)) s

/-- The bank of a die that fits a test best, the lowest core on ties. -/
def bestBank (die : Nat) (score : Nat → Nat) : Option Nat :=
  (coresOf die).foldl (fun b c => if score c = 0 then b else match b with
    | some y => if score y < score c then some c else b
    | none => some c) none

/-- May fills choose a bank: it is on, and not being evacuated (R60, R67)? -/
def bankEligible (s : State) (core : Nat) : Bool :=
  (s.core core).bankOn && !(s.core core).draining && !(s.core core).leaving

/-- Can every frame of a bank be freed now: no part there is held, none moves (R53, R60)? -/
def bankAtRest (s : State) (core : Nat) : Bool :=
  s.frames.all (fun x => x.1 / 256 != core || (match x.2.kind with
    | .replica => !heldPart s (core / 32) x.2.part
    | .primary => atRest s (core / 32) x.2.part
    | .forward => false
    | _ => true))

/-- Can every primary of some contexts be evicted now? -/
def ctxsAtRest (s : State) (cs : List Nat) : Bool :=
  s.frames.all (fun x => x.2.kind != .primary || !cs.contains x.2.ctx || atRest s (x.1 / 8192) x.2.part)

/-- The bank of a fill (R57), after the evictions it asks for, and the frame they have freed there; none serves the access from
home. A bank under evacuation takes none (R60). Where every bank in which the context has near quota is so, the spec does not
say what rule holds, and the model places by rule 5 (DESIGN CHOICE, log 54). -/
def fillBank (s : State) (core ctx : Nat) : Res (Option (Nat × Option Nat)) :=
  let die := core / 32
  let q := nearOn s ctx core
  let full := decide (quotaDie s ctx ≤ dieCount s ctx die)
  let on := bankEligible s
  let evicted (ok : Nat → Bool) (next : Option Nat → State → Res (Option (Nat × Option Nat))) : Res (Option (Nat × Option Nat)) :=
    match evictFor s ctx ok with
    | .wait t r => .wait t r
    | .fail f => .fail f
    | .ok k s => next k s
  if q > 0 && on core then
    if decide (q ≤ nearCount s ctx core) then
      evicted (fun k => k / 256 == core) (fun k s => .ok (some (core, k)) s)
    else if full then evicted (fun k => k / 8192 == die) (fun k s => .ok (some (core, freedIn core none k)) s)
    else .ok (some (core, none)) s
  else if quotaNear s ctx > 0 && (coresOf die).any (fun c => inUnits s ctx c && on c) then
    let unused (c : Nat) : Nat := if inUnits s ctx c && on c then quotaNear s ctx - nearCount s ctx c else 0
    match (if full then none else bestBank die unused) with
    | some c => .ok (some (c, none)) s
    | none => evicted (fun k => k / 8192 == die && on (k / 256)) (fun k s => .ok (k.map (fun f => (f / 256, some f))) s)
  else
    let place (freed : Option Nat) (s : State) : Res (Option (Nat × Option Nat)) :=
      let fits c := on c && (decide (0 < freeFrames s c) || (oldReplica s c).isSome)
      if fits core then .ok (some (core, freedIn core none freed)) s
      else match freed.filter (fun f => on (f / 256)) with
        | some f => .ok (some (f / 256, some f)) s
        | none => .ok ((bestBank die (fun c => if fits c then freeFrames s c + 1 else 0)).map (fun c => (c, none))) s
    if full then evicted (fun k => k / 8192 == die) place else place none s

/-- Back-invalidation of a part at a die (R86): R58 after the wait of R77, and once nothing holds the part (R53, R60, R117). -/
def backInvalidate (s : State) (die part : Nat) : Res Unit :=
  match primaryOf s die part with
  | none => .ok () s
  | some fk =>
    let t := (replicasOf s die part).foldl (fun m k => max m (maxRts s k)) (maxRts s fk)
    if s.clk.tick ≤ t then .wait (t + 1) (gateReason 2 part)
    else if !atRest s die part then .wait (s.clk.tick + 1) (gateReason 2 part)
    else
      let ls := validLines s fk part
      .ok () (ls.foldl (fun s l => strikeDie s die l) (evict s die part))

def backInvalidates (s : State) (part : Nat) : List Nat → Res Unit
  | [] => .ok () s
  | d :: ds =>
    match backInvalidate s d part with
    | .ok _ s => backInvalidates s part ds
    | .wait t r => .wait t r
    | .fail f => .fail f

/-- HOLDER_REGISTRATION of a die for a part at its home (R86); a full set first replaces its oldest entry. -/
def registerHolder (s : State) (part die : Nat) : Res Unit :=
  let h := homeDie s (part * 65536)
  let d := s.die h
  match d.holders.find? (fun x => x.part == part) with
  | some x =>
    let hs := d.holders.filter (fun y => y.part != part) ++ [{ x with vec := x.vec ||| bitAt die }]
    .ok () (s.setDie h { d with holders := hs })
  | none =>
    let same := d.holders.filter (fun x => holderSet x.part == holderSet part)
    match same with
    | old :: _ =>
      if same.length < 8 then
        let way := ((List.range 8).find? (fun w => same.all (fun x => x.way != w))).getD 0
        .ok () (s.setDie h { d with holders := d.holders ++ [⟨part, bitAt die, way⟩] })
      else
        match backInvalidates s old.part (threads old.vec) with
        | .ok _ s =>
          let d := s.die h
          let hs := (d.holders.filter (fun x => x.part != old.part)) ++ [⟨part, bitAt die, old.way⟩]
          .ok () (s.setDie h { d with holders := hs })
        | .wait t r => .wait t r
        | .fail f => .fail f
    | [] => .ok () (s.setDie h { d with holders := d.holders ++ [⟨part, bitAt die, 0⟩] })

/-! ### Devices as holders (R89, R91) -/

/-- Does a device hold a line, as its owner or with a shared copy? -/
def devHolds (d : DirWord) (dev : Nat) : Bool := (d.oremote && d.odev == dev) || d.devs.getLsbD dev

/-- A directory word without a device. -/
def withoutDev (d : DirWord) (dev : Nat) : DirWord :=
  let v := d.devs &&& ~~~bitAt dev
  let left : DState := if d.sharers == 0 && v == 0 then .none else .shared
  if d.oremote && d.odev == dev then { d with oremote := false, odev := 0, devs := v, state := left }
  else { d with devs := v, state := if d.state == .shared then left else d.state }

/-- Does a device hold a line of a part? -/
def devHoldsPart (s : State) (part dev : Nat) : Bool :=
  s.homes.dir.any (fun (x : Nat × DirWord) => x.1 / 512 == part && devHolds x.2 dev)

/-- A device enters a part's device vector at its home die. A full set first back-invalidates the part of its oldest entry at each
device there, until none holds a line of it (R86, R89). -/
def registerDev (s : State) (part dev : Nat) : Res Unit :=
  let h := homeDie s (part * 65536)
  let d := s.die h
  let put (others : List Holder) (way : Nat) : Res Unit :=
    .ok () (s.setDie h { d with devHolders := others ++ [⟨part, bitAt dev, way⟩] })
  match d.devHolders.find? (fun x => x.part == part) with
  | some x => .ok () (s.setDie h { d with
      devHolders := d.devHolders.filter (fun y => y.part != part) ++ [{ x with vec := x.vec ||| bitAt dev }] })
  | none =>
    let same := d.devHolders.filter (fun x => holderSet x.part == holderSet part)
    match same with
    | old :: _ =>
      if same.length < 8 then put d.devHolders (((List.range 8).find? (fun w => same.all (fun x => x.way != w))).getD 0)
      else if (threads old.vec).any (devHoldsPart s old.part) then .wait (s.clk.tick + 1) 0
      else put (d.devHolders.filter (fun x => x.part != old.part)) old.way
    | [] => put d.devHolders 0

/-- A device's bit of a part goes once it holds no line of it; an entry with an empty vector is freed (R86, R89). -/
def forgetDev (s : State) (part dev : Nat) : State :=
  if devHoldsPart s part dev then s
  else
    let h := homeDie s (part * 65536)
    let d := s.die h
    let hs := d.devHolders.map (fun x => if x.part == part then { x with vec := x.vec &&& ~~~bitAt dev } else x)
    s.setDie h { d with devHolders := hs.filter (fun x => x.vec != 0) }

/-- A device gives up a line. -/
def dropDev (s : State) (l dev : Nat) : State := forgetDev (s.setDir l (withoutDev (s.dirOf l) dev)) (l / 512) dev

/-- What a device held is gone with it: lines that it owned are poisoned at their home (R369). -/
def endDevHolds (s : State) (dev : Nat) : State :=
  (s.homes.dir.filter (fun (x : Nat × DirWord) => devHolds x.2 dev)).foldl (fun s x =>
    dropDev (if x.2.oremote then s.setHomePoison x.1 true else s) x.1 dev) s

/-- A request of a device does not wait for the device's own hold, which stays. -/
def asDev {α : Type} (s : State) (l dev : Nat) (f : State → Res α) : Res α :=
  let d := s.dirOf l
  if devHolds d dev then
    match f (s.setDir l (withoutDev d dev)) with
    | .ok a s =>
      let e := s.dirOf l
      .ok a (s.setDir l (if d.oremote then d
        else { e with devs := e.devs ||| bitAt dev, state := if e.state == .none then .shared else e.state }))
    | r => r
  else f s

/-- A full Atlas set evicts the part whose primary is least recently touched (R49), passing over held parts while there is
another, and waits while the one chosen cannot go; the frame that it frees. -/
def atlasRoom (s : State) (die part : Nat) : Res (Option Nat) :=
  let same := (s.die die).atlas.filter (fun e => atlasSet e.part == atlasSet part)
  if same.length < 8 then .ok none s
  else
    let t (e : AtlasEntry) := touchOf s (s.frame (frameKey e.pcore e.pframe))
    let v := (same.filter (fun e => !heldPart s die e.part)).foldl (fun b e => match b with
      | some y => if t e < t y || (t e == t y && decide (e.way < y.way)) then some e else b
      | none => some e) none
    match v with
    | some e => if moving s die e.part then .wait (s.clk.tick + 1) 0
        else .ok (some (frameKey e.pcore e.pframe)) (evict s die e.part)
    | none => .wait (s.clk.tick + 1) 0

/-- The primary of a fill in a frame of a bank (R56 steps 3 and 4). Its LASTTOUCH is the tick of the fill, before any access has
reached it (DESIGN CHOICE, log 54). -/
def placePrimary (s : State) (ctx part bank f : Nat) : Res (Option AtlasEntry) :=
  let die := bank / 32
  let fk := frameKey bank f
  let s := resetLines (bumpGen s fk) fk
  let g := (s.frame fk).gen
  let s := s.setFrame fk { kind := .primary, gen := g, ctx := ctx, part := part, touch := s.clk.tick }
  let ways := ((s.die die).atlas.filter (fun e => atlasSet e.part == atlasSet part)).map (·.way)
  let way := ((List.range 8).find? (fun w => !ways.contains w)).getD 0
  let e : AtlasEntry := { part := part, pcore := bank, pframe := f, pgen := g, way := way }
  .ok (some e) (s.setAtlas die e)

/-- FILL (R56, R57): a primary of the part for the context, chosen from core c; none serves from home. -/
def fill (s : State) (core ctx part : Nat) : Res (Option AtlasEntry) :=
  let die := core / 32
  match registerHolder s part die with
  | .wait t r => .wait t r
  | .fail f => .fail f
  | .ok _ s =>
  match atlasRoom s die part with
  | .wait t r => .wait t r
  | .fail f => .fail f
  | .ok way s =>
  match fillBank s core ctx with
  | .wait t r => .wait t r
  | .fail f => .fail f
  | .ok none s => .ok none (clearHolder s part die)
  | .ok (some (bank, freed)) s =>
  match makeRoom s bank (freedIn bank (freedIn bank none way) freed) ((lineage 8 s ctx).drop 1) with
  | .wait t r => .wait t r
  | .fail f => .fail f
  | .ok freed s =>
  match takeFrame s bank freed with
  | .wait t r => .wait t r
  | .fail f => .fail f
  | .ok none s => .ok none (clearHolder s part die)
  | .ok (some f) s => placePrimary s ctx part bank f

/-- LOCATE (R51): the target of a core for a part of a context; NONE where a fill found no frame, so that this access is served
from the home and the next touch tries the fill again (R56). -/
def locate (s : State) (core ctx part : Nat) (streamed : Bool) : Res Target :=
  if streamed || quotaDie s ctx == 0 then .ok .home s
  else
    let go (e : AtlasEntry) (s : State) : Res Target :=
      match (if e.replicas.getLsbD (core % 32) then replicaFrame s core part else none) with
      | some k => .ok (.frame core (k % 256) (s.frame k).gen) s
      | none => .ok (.frame e.pcore e.pframe e.pgen) s
    match s.atlas (core / 32) part with
    | some e => if e.astate == .dropping then .wait (s.clk.tick + 1) 0 else go e s
    | none =>
      match fill s core ctx part with
      | .ok (some e) s => go e s
      | .ok none s => .ok .none s
      | .wait t r => .wait t r
      | .fail f => .fail f

/-- FRAME_ARRIVAL (R52): where an access carrying a frame and generation is served; none bounces. -/
def arrive (s : State) (core frame gen : Nat) : Option (Nat × Nat × Nat) :=
  let f := s.frame (frameKey core frame)
  if !(s.core core).bankOn || f.gen != gen then none
  else match f.kind with
    | .primary | .replica => some (core, frame, gen)
    | .forward => some (f.fcore, f.fframe, f.fgen)
    | _ => none

/-! ### Monarch (R61 to R64) -/

/-- An access reaches a frame (R44). -/
def touchFrame (s : State) (fk : Nat) : State := s.setFrame fk { s.frame fk with touch := s.clk.tick }

/-- An access counts for its core at a frame and touches it (R44, R62). -/
def countAt (s : State) (fk core : Nat) (write : Bool) : State :=
  let f := s.frame fk
  if f.kind == .replica then s.setFrame fk { f with own := min 4095 (f.own + 1), touch := s.clk.tick }
  else s.setFrame fk { f with counts := Sp.upd 0 f.counts (core % 32) (fun n => min 4095 (n + 1)),
                              writes := if write then min 4095 (f.writes + 1) else f.writes, touch := s.clk.tick }

/-- REPLICA_CREATE (R63). Its LASTTOUCH is the tick of its creation (log 54). -/
def makeReplica (s : State) (fk core : Nat) : State :=
  let f := s.frame fk
  let n := (s.frames.filter (fun x => x.1 / 256 == core && x.2.kind == .replica)).length
  if n ≥ 64 then s else
  match freeIn s core 256 0 with
  | none => s
  | some k =>
    let nk := frameKey core k
    let s := resetLines (bumpGen s nk) nk
    let s := s.setFrame nk { kind := .replica, gen := (s.frame nk).gen, ctx := f.ctx, part := f.part,
                             touch := s.clk.tick }
    match s.atlas (fk / 8192) f.part with
    | some e => clearTargets (s.setAtlas (fk / 8192) { e with replicas := e.replicas ||| (1#32 <<< (core % 32)) }) fk [core]
    | none => s

/-- Each valid line of one frame moves to another with its record and its data (R64 step 3). -/
def moveLines (s : State) (o n : Nat) : State :=
  let goes (k : Nat) : Bool := k / 512 == o && (s.line k).valid
  let cs := s.fmem.filter (fun c => goes (c.1 / 128))
  let rest := s.fmem.filter (fun c => !goes (c.1 / 128))
  let ls := s.lines.filter (fun x => goes x.1)
  let s := ls.foldl (fun s x => s.setLine (flKey n (x.1 % 512)) x.2)
    { s with lines := s.lines.filter (fun x => !goes x.1) }
  { s with fmem := cs.foldl (fun m c => Memory.write m (fAddr n (c.1 % 65536)) c.2) rest }

/-- MOVE (R64): a primary goes to a bank with a FREE frame; the old frame forwards for 64 ticks. The LASTTOUCH of the new one
is the tick of the move (log 54). -/
def movePrimary (s : State) (fk core : Nat) : State :=
  let f := s.frame fk
  match freeIn s core 256 0, s.atlas (fk / 8192) f.part with
  | some k, some e =>
    let nk := frameKey core k
    let s := resetLines (bumpGen s nk) nk
    let g := (s.frame nk).gen
    let s := s.setFrame nk { f with gen := g, touch := s.clk.tick, counts := [], writes := 0, own := 0, cand := none,
                                    skip := 2, lows := 0 }
    let s := s.setAtlas (fk / 8192) { e with astate := .moving, pcore := core, pframe := k, pgen := g }
    let s := moveLines s fk nk
    let s := s.setFrame fk { kind := .forward, gen := f.gen, ctx := f.ctx, part := f.part, touch := f.touch,
                             fcore := core, fframe := k, fgen := g }
    s.afterTicks 64 (.forwardingEnd (fk / 256) (fk % 256) f.gen)
  | _, _ => s

end Sys2Proof.Machine
end

