-- ==== Sys2Proof/Machine/Ranges.lean ====
section
/-!
DEFINITION. What commutative ranges hold (R95 to R97): elements, identities, the partials of the contributing cores in local
space, and what a line comes to when they are folded over it.
-/

namespace Sys2Proof.Machine

/-- The frame byte of a local offset (R43). -/
def localAddr (s : State) (core ctx off : Nat) : Nat :=
  match (s.core core).carve.find? (fun c => c.1 == ctx) with
  | some c => fAddr (frameKey core (c.2.getD (off / 65536) 0)) (off % 65536)
  | none => 0

/-- Local bytes (R22), at the core's pts (R73); a wave's area shows its deferral stack, undo records or spilled registers (R149). -/
def localRead (s : State) (core ctx off n : Nat) : List Byte :=
  showAreas s core ctx off (Memory.readN s.fmem (localAddr s core ctx off) n)

/-- Element bytes of an operation (R95). -/
def copElem (o : COp) : Nat := if o == .badd then 2 else 4

/-- Bytes of the partial area of a range. -/
def partialBytes (r : CRange) : Nat := r.len / copElem r.op * 4

/-- The identity of an operation (R95). -/
def copIdentity : COp → Word32
  | .fadd | .badd => 0x80000000
  | .add => 0
  | .min => 0x7FFFFFFF
  | .max => 0x80000000
  | .and => 0xFFFFFFFF
  | .or => 0

/-- p OP v on 32-bit partials; a BF16 value comes as FP32. -/
def copApply (o : COp) (a b : Word32) : Word32 :=
  match o with
  | .fadd | .badd => addRne a b
  | .add => a + b
  | .min => if a.toInt ≤ b.toInt then a else b
  | .max => if a.toInt ≤ b.toInt then b else a
  | .and => a &&& b
  | .or => a ||| b

/-- A BF16 as FP32, and FP32 rounded to BF16. -/
def bf16Up (x : Nat) : Word32 := BitVec.ofNat 32 (x % 65536 * 65536)
def bf16Down (x : Word32) : Nat := (fRound .bf16 .rn false (f32 x)).code

/-- The cores that contribute to a slot, ascending (R97). -/
def contributors (s : State) (c slot : Nat) : List Nat :=
  (s.cores.filter (fun k => k.2.contrib.contains (c, slot))).map (·.1)

/-- The slot of a context that holds a virtual address. -/
def slotAt (s : State) (c : Nat) (a : Word64) : Option (Nat × CRange) :=
  match s.ctx? c with
  | none => none
  | some x => x.cranges.find? (fun y => decide (y.2.base.toNat ≤ a.toNat) && decide (a.toNat < y.2.base.toNat + y.2.len))

/-- The partial of element n of a slot on a core. -/
def partialAt (s : State) (core c : Nat) (r : CRange) (n : Nat) : Word32 :=
  BitVec.ofNat 32 (leNat (localRead s core c (r.poff + 4 * n) 4))

/-- One element folded over its contributors (R97). -/
def foldElem (s : State) (c : Nat) (r : CRange) (n old : Nat) (cores : List Nat) : Nat :=
  let start : Word32 := if r.op == .badd then bf16Up old else BitVec.ofNat 32 old
  let v := cores.foldl (fun v k => copApply r.op v (partialAt s k c r n)) start
  if r.op == .badd then bf16Down v else v.toNat

def foldLine (s : State) (c : Nat) (r : CRange) (first : Nat) (cores : List Nat) : List Byte → Nat → List Byte
  | _, 0 => []
  | bs, k + 1 =>
    let es := copElem r.op
    leBytes (foldElem s c r first (leNat (bs.take es)) cores) es ++
      foldLine s c r (first + 1) cores (bs.drop es) k

end Sys2Proof.Machine
end

