-- ==== Sys2Proof/Machine/Access.lean ====
section
/-!
DEFINITION. One element access: the checks of R38 in their order, translation (R25 to R37), where the access is
performed (R51, R52, R65, R66, R288), its place in logical time (R73 to R77, R379), and its bytes.
-/

namespace Sys2Proof.Machine

/-! ### Permissions and kinds -/

/-- Permission bits R, W, X (R30). -/
abbrev pR : BitVec 3 := 1
abbrev pW : BitVec 3 := 2
abbrev pX : BitVec 3 := 4
abbrev pRW : BitVec 3 := 3

/-- A failing check. -/
def bad (code sub : Nat) (addr : Word64) (extra : Nat := 0) : Fail :=
  { code := code, sub := sub, addr := addr, extra := BitVec.ofNat 64 extra }

/-- The spaces an instruction accepts (R20). -/
inductive Spaces | global | globalDev | locl | any
  deriving DecidableEq, Repr

abbrev spaceOf (p : Word64) : BitVec 3 := bits p 61 3

/-- Must-be-zero bits of a pointer's own space (R18, R19, R23). -/
def mustZero (p : Word64) : Bool :=
  let sp := spaceOf p
  if sp == 0 then bits p 52 9 == 0
  else if sp == 1 then bits p 22 39 == 0
  else
    bits p 56 5 == 0 &&
      (match (bits p 48 2).toNat with
       | 0 => bits p 37 8 == 0
       | 1 => bits p 44 4 == 0
       | _ => true)

def Spaces.has (a : Spaces) (sp : BitVec 3) : Bool :=
  match a with
  | .global => sp == 0
  | .globalDev => sp == 0 || sp == 2
  | .locl => sp == 1
  | .any => sp == 0 || sp == 1 || sp == 2

/-- Orders 1 to 4 of R38. -/
def checkPtr (p : Word64) (size : Nat) (sp : Spaces) : Option Fail :=
  if decide (3 ≤ (spaceOf p).toNat) then some (bad Code.SPACE 1 p)
  else if !mustZero p then some (bad Code.SPACE 2 p)
  else if !sp.has (spaceOf p) then some (bad Code.SPACE 3 p)
  else if p.toNat % size != 0 then some (bad Code.ALIGN 0 p)
  else none

/-- Bytes of a context's local space on a core (R22, R43): its carve-out, or, while its bank is off, the size that it is
configured to have (R68). -/
def localSize (s : State) (core ctx : Nat) : Nat :=
  65536 * (match (s.core core).carve.find? (fun c => c.1 == ctx), s.ctx? ctx with
    | some c, _ => c.2.length
    | none, some x => if !(s.core core).bankOn && x.conf.units.getLsbD core then x.conf.localfr else 0
    | none, none => 0)

/-- Order 6 of R38. -/
def checkLocal (s : State) (core ctx : Nat) (p : Word64) (size : Nat) : Option Fail :=
  if localSize s core ctx < p.toNat % 0x400000 + size then some (bad Code.LOCAL_RANGE 0 p)
  else if !(s.core core).bankOn then some (bad Code.LOCAL_OFF 0 p)
  else none

/-! ### Ranges (R30 to R32) -/

def flatOf (s : State) (c : Nat) : List Range := match s.ctx? c with | some x => x.flat | none => []

/-- A granted address through a context's flattened ranges (R31). -/
def granted (s : State) (c g : Nat) : Option (Nat × BitVec 3) :=
  ((flatOf s c).find? (fun r => decide (r.gbase ≤ g) && decide (g < r.gbase + r.len))).map
    (fun r => (r.dbase + (g - r.gbase), r.perm))

/-- A device address against the device side of the ranges (R32). -/
def deviceSide (s : State) (c d : Nat) (need : BitVec 3) (p : Word64) : Option Fail :=
  match (flatOf s c).filter (fun r => decide (r.dbase ≤ d) && decide (d < r.dbase + r.len)) with
  | [] => some (bad Code.GRANT 4 p)
  | rs => if rs.any (fun r => r.perm &&& need == need) then none else some (bad Code.GRANT 3 p)

/-- Order 10 of R38: the device is present and the offset installed (R24, R369, R374); a peer has the HBM of R2. -/
def installed (s : State) (d : Nat) : Bool :=
  let dv := deviceOf d
  if dv == s.dev.devId.toNat then
    (match kindOf d with
     | 0 => s.dev.dieUp.getLsbD (d / 0x200000000000 % 8)
     | 1 => decide (d % 0x100000000000 < s.dev.tier2) && s.dev.dieUp.getLsbD (partOf d % 8)
     | _ => false)
  else if dv == s.dev.hostId then
    kindOf d == 1 && s.dev.hostUp && s.dev.hostOn && decide (d % 0x100000000000 < s.dev.hostMem)
  else s.dev.present.contains dv &&
    (kindOf d == 0 || (kindOf d == 1 && decide (d % 0x100000000000 < Sp.get 0 s.dev.peerMem dv)))

/-- Orders 10 and 11 of R38. -/
def checkHome (s : State) (d : Nat) (p : Word64) : Option Fail :=
  if !installed s d then some (bad Code.GRANT 5 p)
  else if (Sp.find s.homes.lost (partOf d)).isSome then some (bad Code.HOMELOST 0 p)
  else none

/-! ### Walks (R25 to R28, R35) -/

/-- Is the home of a device address out of reach for now: its die or its device has failed (R100)? While a die's homes are
recovered the whole second tier waits, since its parts are interleaved over the dies (R81, log 40). -/
def homeDown (s : State) (d : Nat) : Bool :=
  (s.die (homeDie s d)).down || s.dev.failing.contains (deviceOf d) ||
    (kindOf d == 1 && deviceOf d == s.dev.devId.toNat &&
      (List.range 8).any (fun i => (s.die i).down && s.dev.dieUp.getLsbD i))

/-- A check that is to be made again. -/
abbrev notYet : Fail := { code := 0, later := true }

/-- A page-table entry's device address through the grant: GRANT subcode 2 where it is unmapped, subcode 3 without R; a failed home
is waited for (R100). -/
def tableAddr (s : State) (c g : Nat) (p : Word64) : Except Fail Nat :=
  match granted s c g with
  | none => .error (bad Code.GRANT 2 p)
  | some (d, perm) =>
    if perm &&& pR == 0 then .error (bad Code.GRANT 3 p)
    else match checkHome s d p with
      | some f => .error f
      | none => if homeDown s d then .error notYet else .ok d

/-- CHECK of R35 for an entry whose word 0 is e, at level 1, 2 or 3 (the leaf). -/
def entryCheck (e : Nat × Bool) (level : Nat) (p : Word64) : Option Fail :=
  let w := BitVec.ofNat 64 e.1
  let rsvd := match level with
    | 1 => bits w 1 12 != 0
    | 2 => bits w 1 14 != 0
    | _ => bits w 10 11 != 0 || bits w 6 2 != 0 || (bit w 2 && !bit w 1)
  if !bit w 0 then some (bad Code.NOTMAPPED level p)
  else if rsvd then some (bad Code.PTE_RSVD level p)
  else if e.2 then some (bad Code.PTE_RSVD 5 p)
  else none

/-- What a walk finds before the range lookup: the leaf's word 0, the granted address, the part's state. -/
structure Leaf where
  word : Word64
  addr : Nat
  part : Nat

/-- WALK up to the part (R35), with the walker's read of n bytes of an entry. -/
def walkLeafBy (rd : Nat → Nat → Except Fail (Nat × Bool)) (s : State) (c : Nat) (p : Word64) : Except Fail Leaf :=
  let va := p.toNat
  let root := match s.ctx? c with | some x => x.conf.troot.toNat | none => 0
  match rd (root + va / 0x40000000000 % 1024 * 8) 8 with
  | .error f => .error f
  | .ok e1 =>
  match entryCheck e1 1 p with
  | some f => .error f
  | none =>
  match rd (e1.1 / 8192 * 8192 + va / 0x100000000 % 1024 * 8) 8 with
  | .error f => .error f
  | .ok e2 =>
  match entryCheck e2 2 p with
  | some f => .error f
  | none =>
  match rd (e2.1 / 8192 * 8192 + va / 0x200000 % 2048 * 16) 16 with
  | .error f => .error f
  | .ok lf =>
  match entryCheck (lf.1 % 0x10000000000000000, lf.2) 3 p with
  | some f => .error f
  | none =>
    let i := va / 65536 % 32
    let st := lf.1 / 0x10000000000000000 / 2 ^ (2 * i) % 4
    if st == 0 then .error (bad Code.NOTMAPPED 4 p i)
    else if st == 3 then .error (bad Code.PTE_RSVD 4 p i)
    else .ok ⟨BitVec.ofNat 64 lf.1, lf.1 % 0x10000000000000000 / 0x200000 * 0x200000 + va % 0x200000, st⟩

/-- A walk that reads table lines as they stand in memory. -/
def bareLeaf (s : State) (c : Nat) (p : Word64) : Except Fail Leaf :=
  walkLeafBy (fun g n => match tableAddr s c g p with
    | .error f => .error f
    | .ok d => .ok (leNat (curBytes s d n), curPoison s d)) s c p

/-- The slots with contributors that a device line belongs to, with the line's number in each (R97). -/
def rangeHits (s : State) (dl : Nat) : List (Nat × Nat × Nat) :=
  ((s.cores.flatMap (fun k => k.2.contrib)).eraseDups).flatMap (fun y =>
    match (s.ctx? y.1).bind (fun x => Sp.find x.cranges y.2) with
    | none => []
    | some r => (List.range (r.len / 65536 + 2)).filterMap (fun i =>
        let va := r.base.toNat / 65536 * 65536 + i * 65536
        match bareLeaf s y.1 (BitVec.ofNat 64 va) with
        | .error _ => none
        | .ok l =>
          let a := va + dl % 512 * 128
          if (granted s y.1 l.addr).any (fun d => partOf d.1 == dl / 512) && decide (r.base.toNat ≤ a) &&
              decide (a < r.base.toNat + r.len) then some (y.1, y.2, (a - r.base.toNat) / 128) else none))

/-- A line with the partials of a slot folded over it, as its combine will write it (R97). -/
def combinedLine (s : State) (h : Nat × Nat × Nat) (dl : Nat) (bs : List Byte) : List Byte :=
  match (s.ctx? h.1).bind (fun x => Sp.find x.cranges h.2.1) with
  | none => bs
  | some r =>
    if r.spoilt then (List.range 128).map (fun i => Config.freeByte s.sch.free (dl * 128 + i))
    else foldLine s h.1 r (h.2.2 * 128 / copElem r.op) (contributors s h.1 h.2.1) bs (128 / copElem r.op)

/-- A page-table entry as the walker reads it: with its line combined first (R97), which the walk then makes due. -/
def tableRead (s : State) (c g n : Nat) (p : Word64) : Except Fail (Nat × Bool) :=
  match tableAddr s c g p with
  | .error f => .error f
  | .ok d =>
    match rangeHits s (lineOf d) with
    | [] => .ok (leNat (curBytes s d n), curPoison s d)
    | hs =>
      let line := hs.foldl (fun bs h => combinedLine s h (lineOf d) bs) (curBytes s (d / 128 * 128) 128)
      .ok (leNat ((line.drop (d % 128)).take n), false)

def walkLeaf (s : State) (c : Nat) (p : Word64) : Except Fail Leaf := walkLeafBy (fun g n => tableRead s c g n p) s c p

/-- The lines that a walk reads (R35). -/
def tableLines (s : State) (c : Nat) (p : Word64) : List Nat :=
  let lines (g : Nat) : List Nat := match tableAddr s c g p with | .ok d => [lineOf d] | .error _ => []
  let va := p.toNat
  let root := match s.ctx? c with | some x => x.conf.troot.toNat | none => 0
  let entry (g n : Nat) : Nat := match tableRead s c g n p with | .ok e => e.1 | .error _ => 0
  let g1 := root + va / 0x40000000000 % 1024 * 8
  let g2 := entry g1 8 / 8192 * 8192 + va / 0x100000000 % 1024 * 8
  let g3 := entry g2 8 / 8192 * 8192 + va / 0x200000 % 2048 * 16
  (lines g1 ++ lines g2 ++ lines g3).eraseDups

/-- The combines that a walk's reads of range lines ask for (R97). -/
def combineTables (s : State) (c : Nat) (p : Word64) : State :=
  if s.cores.all (fun k => k.2.contrib.isEmpty) then s
  else ((tableLines s c p).flatMap (rangeHits s)).foldl (fun s h => s.ensureSoon (.combine h.1 h.2.1 h.2.2)) s

def chargeLines (s : State) (c : Nat) : List Nat → Option State
  | [] => some s
  | l :: ls => (chargeLine s c (l * 128)).bind (fun s => chargeLines s c ls)

/-- What a walk leaves beside its translation: its reads take their tokens (R99), and range lines are combined (R97); none when a
token is wanting. -/
def walked (s : State) (c : Nat) (p : Word64) : Option State :=
  if (lineage 8 s c).all (fun d => (s.ctx? d).all (fun x => x.bucket.isNone)) then some (combineTables s c p)
  else (chargeLines s c (tableLines s c p)).map (fun s => combineTables s c p)

/-- A TLB entry from a walk: the leaf's permissions first, then the range (R38 orders 7 and 8). -/
def walk (s : State) (c : Nat) (p : Word64) (want : BitVec 3) : Except Fail TlbEntry :=
  match walkLeaf s c p with
  | .error f => .error f
  | .ok l =>
    let leaf : BitVec 3 := bits l.word 1 3
    if leaf &&& want != want then .error (bad Code.PERM 0 p)
    else match granted s c l.addr with
      | none => .error (bad Code.GRANT 1 p)
      | some (d, perm) =>
        if perm &&& want != want then .error (bad Code.GRANT 3 p)
        else .ok { ctx := c, vpart := p.toNat / 65536 % 0x1000000000, part := partOf d, r := bit leaf 0,
                   w := bit leaf 1, x := bit leaf 2, tc := (bits l.word 8 2).toNat, irrev := bit l.word 4,
                   shared := bit l.word 5, perm := perm, streamed := l.part == 2, target := .none, l1 := true }

/-- Install a translation: the newest of 256 stand in L1, the next 4,096 in L2 (R50; replacement is log 11). -/
def installTlb (s : State) (core : Nat) (e : TlbEntry) : State :=
  let k := s.core core
  let rest := k.tlb.filter (fun x => !(x.ctx == e.ctx && x.vpart == e.vpart))
  let all := e :: rest
  let l1 := (all.take 256).map (fun x => { x with l1 := true })
  let l2 := ((all.drop 256).take 4096).map (fun x => { x with l1 := false })
  s.setCore core { k with tlb := l1 ++ l2 }

def findTlb (s : State) (core c vpart : Nat) : Option TlbEntry :=
  (s.core core).tlb.find? (fun x => x.ctx == c && x.vpart == vpart)

def leafPerm (e : TlbEntry) : BitVec 3 := b1 e.x ++ b1 e.w ++ b1 e.r

/-- REDIRECT (R93): where the old home of a moved page sends a request for a part. -/
def redirected (s : State) (part : Nat) : Option Nat :=
  (s.homes.dual.find? (fun w => w.switched && w.redirect && w.page == part / 32)).map
    (fun w => w.base / 65536 + part % 32)

/-- Where a request of another device or of the host at a device address is served: at the new home once its page has moved (R93). -/
def nowAt (s : State) (dev : Nat) : Nat := match redirected s (partOf dev) with
  | some p => p * 65536 + dev % 65536
  | none => dev

/-- The requesting core rewrites its entry's device address (R93). -/
def setTlbPart (s : State) (core c vpart part : Nat) : State :=
  let k := s.core core
  s.setCore core { k with tlb := k.tlb.map (fun e =>
    if e.ctx == c && e.vpart == vpart then { e with part := part } else e) }

/-- Orders 5 and 7 to 11 of R38 for a global or device-absolute pointer whose orders 1 to 4 passed. A cached entry
that would fault is walked afresh (R37). -/
def translate (s : State) (core c : Nat) (p : Word64) (want : BitVec 3) : Except Fail (Xl × State) :=
  if spaceOf p == 2 then
    let d := p.toNat % 0x100000000000000
    let priv := match s.ctx? c with | some x => x.conf.privf | none => false
    if !priv then .error (bad Code.PRIV 0 p)
    else if kindOf d == 2 then .error (bad Code.SPACE 4 p)
    else if kindOf d == 3 then .error (bad Code.PRIV 0 p)
    else match deviceSide s c d want p with
      | some f => .error f
      | none =>
        match checkHome s d p with
        | some f => .error f
        | none => .ok (⟨d, true, true, true, none⟩, s)
  else
    let vp := p.toNat / 65536 % 0x1000000000
    let go (e : TlbEntry) (s : State) : Except Fail (Xl × State) :=
      let d := e.part * 65536 + p.toNat % 65536
      match checkHome s d p with
      | some f => .error f
      | none => .ok (⟨d, e.irrev, e.shared, false, some e⟩, s)
    let fresh : Except Fail (Xl × State) :=
      match walk s c p want with
      | .error f => .error f
      | .ok e => match walked s c p with
        | some s => go e (installTlb s core e)
        | none => .error notYet
    match findTlb s core c vp with
    | some e =>
      if leafPerm e &&& want == want && e.perm &&& want == want then
        match redirected s e.part with
        | some q => go { e with part := q } (setTlbPart s core c vp q)
        | none => go e s
      else fresh
    | none => fresh

/-! ### Where an access is performed -/

/-- A place: a frame key, or the home. -/
inductive Place
  | frame (fk : Nat)
  | home
  deriving DecidableEq, Repr

def setTarget (s : State) (core c vpart : Nat) (t : Target) : State :=
  let k := s.core core
  s.setCore core { k with tlb := k.tlb.map (fun e =>
    if e.ctx == c && e.vpart == vpart then { e with target := t } else e) }

/-- STALE_BOUNCE (R52): the target goes to NONE; a bounce on a part of the wave's read set is a conflict (R113). -/
def bounce (s : State) (core c vpart part : Nat) (lines : List Nat) : State :=
  let s := setTarget s core c vpart .none
  { s with sch := { s.sch with hits := s.sch.hits ++
      (lines.filter (fun l => l / 512 == part)).map (fun l => ⟨true, core, l, none⟩) } }

/-- LOCATE (R51) of an entry whose target is NONE: after its installation by a walk and after a bounce. -/
def locateEntry (s : State) (core ctx vpart : Nat) : State :=
  match findTlb s core ctx vpart with
  | none => s
  | some e =>
    if e.target != .none then s
    else match locate s core ctx e.part e.streamed with
      | .ok t s => setTarget s core ctx vpart t
      | .wait t r => s.waitTick t r (.locate core ctx vpart)
      | .fail _ => s

/-- A core's hold at Atlas for 64 cycles, for an access of a wave or of an agent (R53). -/
def takeHold (s : State) (core : Nat) (wave : Option Nat) (part : Nat) : State :=
  let die := core / 32
  let d := s.die die
  (s.setDie die { d with holds := d.holds ++ [⟨part, core, wave, s.clk.cycle + 64⟩] }).after 64 (.atlasHoldExpiry die part)

/-- Was a hold taken for an access of a core and wave to a part (R53)? -/
def Hold.serves (h : Hold) (core : Nat) (wave : Option Nat) (part : Nat) : Bool :=
  h.part == part && h.core == core && h.wave == wave && h.till != 0

/-- An access is performed: the hold that its core took for it ends (R53). -/
def endHold (s : State) (core : Nat) (wave : Option Nat) (part : Nat) : State :=
  let die := core / 32
  let d := s.die die
  if d.holds.any (fun h => h.serves core wave part) then
    s.setDie die { d with holds := d.holds.filter (fun h => !h.serves core wave part) } else s

/-- The place of a translated access from a core, by the target that its entry has now, with LOCATE and at most `n` bounces; the fourth
bounce takes a hold at Atlas (R53). `lines` are the lines of the issuing wave's read set. -/
def placeOf (wave : Option Nat) : Nat → State → Nat → Nat → Xl → List Nat → Res Place
  | 0, s, core, _, x, _ =>
    let s := takeHold s core wave (partOf x.dev)
    match s.atlas (core / 32) (partOf x.dev) with
    | some e => .ok (.frame (frameKey e.pcore e.pframe)) s
    | none => .ok .home s
  | n + 1, s, core, c, x, lines =>
    if homeDown s x.dev then .wait (s.clk.tick + 1) 0 else
    match x.ent with
    | none =>
      match s.atlas (core / 32) (partOf x.dev) with
      | some e => .ok (.frame (frameKey e.pcore e.pframe)) s
      | none => .ok .home s
    | some e =>
      let now := match findTlb s core c e.vpart with | some y => if y.part == e.part then y.target else e.target | none => e.target
      let t : Res Target := match (if now == .none then none else some now) with
        | some t => .ok t s
        | none =>
          match locate s core c e.part e.streamed with
          | .ok t s => .ok t (setTarget s core c e.vpart t)
          | r => r
      match t with
      | .wait a b => .wait a b
      | .fail f => .fail f
      | .ok .none s => .ok .home s
      | .ok .home s => .ok .home s
      | .ok (.frame a b g) s =>
        match arrive s a b g with
        | some (a', b', g') =>
          let s := if a' == a && b' == b then s else setTarget s core c e.vpart (.frame a' b' g')
          .ok (.frame (frameKey a' b')) s
        | none =>
          placeOf wave n (bounce s core c e.vpart e.part lines) core c { x with ent := some { e with target := .none } } lines

/-! ### Logical time (R73 to R77, R379) -/

/-- A core's pts for a context: never below the tick (R73). -/
def ptsOf (s : State) (core c : Nat) : Nat := max s.clk.tick (Sp.get 0 (s.core core).pts c)
def setPts (s : State) (core c t : Nat) : State :=
  let k := s.core core
  s.setCore core { k with pts := Sp.put 0 k.pts c t }

/-- The ceiling of R73: pts may stand at most 1,024 ticks ahead. -/
def overCeiling (s : State) (t : Nat) : Bool := s.clk.tick + 1024 < t

/-- Who performs an access; `pin` when its reads take pinned leases, `own` when the pins of the domain are its wave's (R117). -/
structure Who where
  core  : Nat
  ctx   : Nat
  lease : Nat
  pin   : Bool := false
  own   : Bool := false
  wave  : Option Nat := none
  lines : List Nat := []

/-- What a read found: the place, its generation, the RTS granted. -/
structure Got where
  place : Place
  rts   : Nat
  poison : Bool

def lineAt (s : State) (fk dev : Nat) : LineRec := s.line (flKey fk (lineIx dev))

/-- The gates that hold for an access to a line, in order of arrival (log 45). At the home (`home`) those of the home mark too. -/
def gatesOf (s : State) (dev : Nat) (home : Bool) : List Gate :=
  s.sch.gates.filter (fun g => (g.kind == 1 && g.key == lineOf dev) || (g.kind == 2 && g.key == partOf dev) ||
    (home && g.kind == 0 && g.key == homeDie s dev))

/-- Does a wave's access stay behind one that waits already (R73, R77, log 45)? Until when, and with which reason: behind those
of other waves that began to wait before it did, and behind every clockless agent's. -/
def behind (s : State) (w : Who) (dev : Nat) (home : Bool) : Option (Nat × Nat) :=
  if w.wave.isNone then none
  else
    let gs := gatesOf s dev home
    ((gs.takeWhile (fun g => g.wave != w.wave) ++ gs.filter (fun g => g.wave.isNone)).find?
      (fun g => decide (s.clk.tick ≤ g.due))).map (fun g => (g.due + 1, gateReason g.kind g.key))

/-- What a wave waits for is over once its access goes on. -/
def passGate (s : State) (w : Who) (dev : Nat) (home : Bool) : State :=
  if w.wave.isNone then s
  else
    let gs := gatesOf s dev home
    { s with sch := { s.sch with gates := s.sch.gates.filter (fun g => !(g.wave == w.wave && gs.contains g)) } }

/-- Make a line valid in a primary frame (R46), for reading or for writing. -/
def fetchLine (s : State) (c fk dev : Nat) (write : Bool) : Res Unit :=
  let die := fk / 8192
  let l := lineOf dev
  let r := lineAt s fk dev
  match (if r.valid || ownerSupplies s l then some s else charge s c dev) with
  | none => .wait (s.clk.tick + 1) 0
  | some s =>
  if !write then
    if r.valid then .ok () s
    else match homeReadOp s l die with
      | .ok u s => .ok () (installLine s die fk l u)
      | .wait a b => .wait a b
      | .fail f => .fail f
  else if r.valid && (r.state == .m) then .ok () s
  else if r.valid && r.state == .e then .ok () (s.setLine (flKey fk (lineIx dev)) { r with state := .m })
  else match homeRfoOp s l die with
    | .ok u s =>
      if r.valid then .ok () (s.setLine (flKey fk (lineIx dev)) (upgraded s dev r u.dirty))
      else .ok () (installLine s die fk l u)
    | .wait a b => .wait a b
    | .fail f => .fail f

/-- LOAD_AT_PRIMARY (R74). -/
def readPrimary (s : State) (w : Who) (fk dev : Nat) : Res Got :=
  match behind s w dev false with
  | some (t, r) => .wait t r
  | none =>
  let s := passGate s w dev false
  let kept := (lineAt s fk dev).valid
  match fetchLine s w.ctx fk dev false with
  | .wait a b => .wait a b
  | .fail f => .fail f
  | .ok _ s =>
    let r := lineAt s fk dev
    let t := max (ptsOf s w.core w.ctx) r.wts
    if overCeiling s t then .wait (t - 1024) (if kept then gateReason 4 (lineOf dev) else gateReason 3 (homeDie s dev))
    else
      let rts := max r.rts (t + w.lease)
      let s := setPts s w.core w.ctx t
      .ok ⟨.frame fk, rts, r.poison⟩
        (s.setLine (flKey fk (lineIx dev)) { r with rts := rts, pinned := r.pinned || w.pin })

/-- A replica fetches a line from its primary (R46, R75). -/
def refetch (s : State) (w : Who) (fk dev : Nat) : Res Unit :=
  match primaryOf s (fk / 8192) (partOf dev) with
  | none => .wait (s.clk.tick + 1) 0
  | some pk =>
    match readPrimary s w pk dev with
    | .wait a b => .wait a b
    | .fail f => .fail f
    | .ok g s =>
      let off := dev % 65536 / 128 * 128
      let s := (touchFrame s pk).setFbytes fk off (s.fbytes pk off 128)
      .ok () (s.setLine (flKey fk (lineIx dev)) { wts := (lineAt s pk dev).wts, rts := g.rts, poison := g.poison,
                                                  valid := true, state := .r })

/-- The owner's primary that supplies a line to a reader at its home (R65, R83). -/
def supplierOf (s : State) (l : Nat) : Option (Nat × LineRec) :=
  let d := s.dirOf l
  if (d.state == .excl || d.state == .owned) && !d.oremote then dieLine s d.owner l else none

/-- The owner has supplied a line to a reader that keeps no copy: M becomes O, E becomes S, and the directory records no sharer for
the reader (R65, R84); its RTS rises (R379). -/
def supplied (s : State) (l k rts : Nat) : State :=
  let r := s.line k
  let d := s.dirOf l
  let dirty := r.state == .m || r.state == .o
  (s.setLine k { r with rts := max r.rts rts, state := if dirty then .o else .s }).setDir l
    (if dirty then { d with state := .owned } else { d with state := .shared, owner := 0, sharers := 1#8 <<< d.owner })

/-- An access reaches a frame (R44): it counts for its core, unless it is device-absolute (R62, R66). -/
def reached (s : State) (x : Xl) (fk core : Nat) (write : Bool) : State :=
  if x.direct then touchFrame s fk else countAt s fk core write

/-- An access that has been performed ends the hold that was taken for it (R53). -/
def unheld (w : Who) (x : Xl) (r : Res Got) : Res Got :=
  match r with
  | .ok g s => .ok g (endHold s w.core w.wave (partOf x.dev))
  | r => r

/-- A read of one element or line where it is performed. The line is then at `place`. -/
def readAt (s : State) (w : Who) (x : Xl) : Res Got := unheld w x <|
  match placeOf w.wave 4 s w.core w.ctx x w.lines with
  | .wait a b => .wait a b
  | .fail f => .fail f
  | .ok .home s =>
    match behind s w x.dev true with
    | some (t, r) => .wait t r
    | none =>
    let s := passGate s w x.dev true
    match chargeLine s w.ctx x.dev with
    | none => .wait (s.clk.tick + 1) 0
    | some s =>
    let l := lineOf x.dev
    if (s.dirOf l).oremote then .wait (s.clk.tick + 1) 0 else
    match supplierOf s l with
    | some (k, r) =>
      let t := max (ptsOf s w.core w.ctx) r.wts
      if overCeiling s t then .wait (t - 1024) (gateReason 4 l)
      else
        let rts := max r.rts (t + w.lease)
        let s := supplied s l k rts
        .ok ⟨.frame (k / 512), rts, r.poison⟩ (setPts s w.core w.ctx t)
    | none =>
      let t := max (ptsOf s w.core w.ctx) (homeMarkOf s x.dev)
      if overCeiling s t then .wait (t - 1024) (gateReason 3 (homeDie s x.dev))
      else .ok ⟨.home, t + w.lease, s.homePoison l⟩
        (setPts (raiseHome s x.dev (t + w.lease)) w.core w.ctx t)
  | .ok (.frame fk) s =>
    let f := s.frame fk
    if f.kind == .replica then
      let r := lineAt s fk x.dev
      let t := ptsOf s w.core w.ctx
      if r.valid && decide (t ≤ r.rts) && !(w.pin) then
        let t := max t r.wts
        if overCeiling s t then .wait (t - 1024) 7
        else .ok ⟨.frame fk, r.rts, r.poison⟩ (countAt (setPts s w.core w.ctx t) fk w.core false)
      else match refetch s w fk x.dev with
        | .ok _ s =>
          let r := lineAt s fk x.dev
          .ok ⟨.frame fk, r.rts, r.poison⟩ (countAt (setPts s w.core w.ctx (max (ptsOf s w.core w.ctx) r.wts)) fk
            w.core false)
        | .wait a b => .wait a b
        | .fail f => .fail f
    else match readPrimary s w fk x.dev with
      | .ok g s => .ok g (reached s x fk w.core false)
      | r => r

/-- The place and logical time of a store, atomic or CAS (R76, R379, R65); the caller then changes the bytes. -/
def writeAt (s : State) (w : Who) (x : Xl) : Res Got := unheld w x <|
  let l := lineOf x.dev
  match placeOf w.wave 4 s w.core w.ctx x w.lines with
  | .wait a b => .wait a b
  | .fail f => .fail f
  | .ok .home s =>
    match behind s w x.dev true with
    | some (t, r) => .wait t r
    | none =>
    let s := passGate s w x.dev true
    match charge s w.ctx x.dev with
    | none => .wait (s.clk.tick + 1) 0
    | some s =>
    match recallAll s l with
    | .wait a b => .wait a b
    | .fail f => .fail f
    | .ok _ s =>
      let t := max (ptsOf s w.core w.ctx) (homeMarkOf s x.dev + 1)
      if overCeiling s t then .wait (t - 1024) (gateReason 3 (homeDie s x.dev))
      else .ok ⟨.home, t, s.homePoison l⟩ (setPts (raiseHome s x.dev t) w.core w.ctx t)
  | .ok (.frame fk) s =>
    let fk := if (s.frame fk).kind == .replica then (primaryOf s (fk / 8192) (partOf x.dev)).getD fk else fk
    match behind s w x.dev false with
    | some (t, r) => .wait t r
    | none =>
    let s := passGate s w x.dev false
    let kept := (lineAt s fk x.dev).valid
    match fetchLine s w.ctx fk x.dev true with
    | .wait a b => .wait a b
    | .fail f => .fail f
    | .ok _ s =>
      let r := lineAt s fk x.dev
      if r.pinned && !w.own then .wait (s.clk.tick + 1) 0
      else
        let t := max (ptsOf s w.core w.ctx) (r.rts + 1)
        if overCeiling s t then .wait (t - 1024) (if kept then gateReason 4 (lineOf x.dev) else gateReason 3 (homeDie s x.dev))
        else
          let s := setPts s w.core w.ctx t
          let s := s.setLine (flKey fk (lineIx x.dev)) { r with wts := t, rts := t, dirty := true, state := .m }
          .ok ⟨.frame fk, t, r.poison⟩ (reached s x fk w.core true)

/-- The failing comparison of a CAS (R65, R76, R379): a read where the write would have been, never at a replica; at the home,
once every die's copy has been recalled. -/
def casReadAt (s : State) (w : Who) (x : Xl) : Res Got := unheld w x <|
  match placeOf w.wave 4 s w.core w.ctx x w.lines with
  | .wait a b => .wait a b
  | .fail f => .fail f
  | .ok .home s =>
    match behind s w x.dev true with
    | some (t, r) => .wait t r
    | none =>
    let s := passGate s w x.dev true
    match charge s w.ctx x.dev with
    | none => .wait (s.clk.tick + 1) 0
    | some s =>
    match recallAll s (lineOf x.dev) with
    | .wait a b => .wait a b
    | .fail f => .fail f
    | .ok _ s =>
      let t := max (ptsOf s w.core w.ctx) (homeMarkOf s x.dev)
      if overCeiling s t then .wait (t - 1024) (gateReason 3 (homeDie s x.dev))
      else .ok ⟨.home, t + w.lease, s.homePoison (lineOf x.dev)⟩
        (setPts (raiseHome s x.dev (t + w.lease)) w.core w.ctx t)
  | .ok (.frame fk) s =>
    let fk := if (s.frame fk).kind == .replica then (primaryOf s (fk / 8192) (partOf x.dev)).getD fk else fk
    match fetchLine s w.ctx fk x.dev true with
    | .wait a b => .wait a b
    | .fail f => .fail f
    | .ok _ s =>
      if (lineAt s fk x.dev).pinned && !w.own then .wait (s.clk.tick + 1) 0
      else match readPrimary s w fk x.dev with
        | .ok g s => .ok g (reached s x fk w.core false)
        | r => r

/-- Bytes at a place. -/
def placeBytes (s : State) (p : Place) (dev n : Nat) : List Byte :=
  match p with
  | .frame fk => s.fbytes fk (dev % 65536) n
  | .home => Memory.readN s.mem dev n

/-- The 16-bit poison of a line clears only with a whole-line write (R140). -/
def setPoison (s : State) (p : Place) (dev : Nat) (b : Bool) : State :=
  match p with
  | .frame fk =>
    let k := flKey fk (lineIx dev)
    s.setLine k { s.line k with poison := b }
  | .home => s.setHomePoison (lineOf dev) b

/-- UNDO_LOG_APPEND (R207): the first write of a partition to a line since its checkpoint logs the old line. -/
def rootOf (s : State) (c : Nat) : Nat := ((lineage 8 s c).getLast?).getD c

def logLine (s : State) (c : Nat) (key : Nat) (old : List Byte) (poison : Bool) : State :=
  let r := rootOf s c
  match s.part? r with
  | none => s
  | some p =>
    if p.log.any (fun x => x.line == key) then s
    else s.setPart r { p with log := ⟨key, poison, c, old⟩ :: p.log }

/-- Local lines are numbered above all device lines (R113, R207). -/
def localLine (s : State) (core ctx off : Nat) : Nat := 0x100000000000000 + localAddr s core ctx off / 128

/-- The local line of an offset is logged (R207). -/
def logLocal (s : State) (core c off : Nat) : State :=
  let a := localAddr s core c off / 128
  logLine s c (localLine s core c off) (Memory.readN s.fmem (a * 128) 128) (s.line a).poison

/-- The stores to a core's lines strike the read sets of its other waves (R113). -/
def strikeCore (s : State) (core l : Nat) (wave : Option Nat) : State :=
  { s with sch := { s.sch with hits := s.sch.hits ++ [⟨true, core, l, wave⟩] } }

/-- Write bytes at a place on behalf of a context; `logged` is false for irrevocable writes (R207). -/
def putBytes (s : State) (w : Who) (p : Place) (dev : Nat) (bs : List Byte) (logged : Bool) : State :=
  let base := dev / 128 * 128
  let pz := match p with | .frame fk => (lineAt s fk dev).poison | .home => s.homePoison (lineOf dev)
  let s := if logged then logLine s w.ctx (lineOf dev) (placeBytes s p base 128) pz else s
  let s := match p with
    | .frame fk => s.setFbytes fk (dev % 65536) bs
    | .home => homeWrite s dev bs
  strikeCore s w.core (lineOf dev) w.wave

/-- Is a local line poisoned? -/
def localPoison (s : State) (core ctx off : Nat) : Bool := (s.line (localAddr s core ctx off / 128)).poison
/-- An access reaches the frame of a local offset (R44). -/
def touchLocal (s : State) (core ctx off : Nat) : State := touchFrame s (localAddr s core ctx off / 65536)

/-- The bytes that a store leaves at a local offset: unspecified ones where an STL meets an arena or a wave area that its wave does
not own (R148, log 5). -/
def storedLocal (s : State) (w : Who) (off : Nat) (bs : List Byte) (stl : Bool) : List Byte :=
  if stl && foreignAt s w.core w.ctx off w.wave then
    (List.range bs.length).map (fun i => Config.freeByte s.sch.free (localAddr s w.core w.ctx off + i))
  else bs

/-- A store to local space, logged unless `log` is false. -/
def localWrite (s : State) (w : Who) (off : Nat) (bs : List Byte) (log : Bool := true) (stl : Bool := false) : State :=
  let a := localAddr s w.core w.ctx off
  let bs := storedLocal s w off bs stl
  let s := if log then logLocal s w.core w.ctx off else s
  let s := pokeAreas s w.core w.ctx off bs
  strikeCore { s with fmem := Memory.writeN s.fmem a bs } w.core (localLine s w.core w.ctx off) w.wave

/-- The checks of R38 for one pointer of one thread, in full; `true` in the answer means a local pointer. -/
def checkAccess (s : State) (core c : Nat) (p : Word64) (size : Nat) (want : BitVec 3) (sp : Spaces) :
    Except Fail (Option Xl × State) :=
  match checkPtr p size sp with
  | some f => .error f
  | none =>
    if spaceOf p == 1 then
      match checkLocal s core c p size with
      | some f => .error f
      | none => .ok (none, s)
    else match translate s core c p want with
      | .error f => .error f
      | .ok (x, s) => .ok (some x, s)

/-! ### Clockless agents (R77, R379) -/

/-- A clockless read of up to a line at its home: the current value, once context time has reached the WTS of the owner that
supplies it, whose RTS rises to now, or the home mark (R65, R77, R379). -/
def clRead (s : State) (dev n : Nat) : Res (List Byte × Bool) :=
  let l := lineOf dev
  if homeDown s dev || (s.dirOf l).oremote then .wait (s.clk.tick + 1) 0 else
  match supplierOf s l with
  | some (k, r) =>
    if s.clk.tick < r.wts then .wait r.wts (gateReason 1 l)
    else .ok (s.fbytes (k / 512) (dev % 65536) n, r.poison) (supplied (forceCharge s (s.frame (k / 512)).ctx dev) l k s.clk.tick)
  | none =>
    let m := homeMarkOf s dev
    if s.clk.tick < m then .wait m (gateReason 0 (homeDie s dev))
    else .ok (Memory.readN s.mem dev n, s.homePoison l) (raiseHome s dev s.clk.tick)

/-- A clockless change of n bytes of one line: every copy is recalled after its wait, then the home is written and its
mark rises to now (R77, R83). Answers the old bytes; a line written whole loses its poison (R140). -/
def clUpdate (s : State) (dev n : Nat) (whole : Bool) (f : List Byte → List Byte) : Res (List Byte × Bool) :=
  let l := lineOf dev
  if homeDown s dev then .wait (s.clk.tick + 1) 0 else
  match recallAll s l with
  | .wait a b => .wait a b
  | .fail f => .fail f
  | .ok _ s =>
    let m := homeMarkOf s dev
    if s.clk.tick ≤ m then .wait (m + 1) (gateReason 0 (homeDie s dev))
    else
      let old := Memory.readN s.mem dev n
      let pz := s.homePoison l
      let s := raiseHome (homeWrite s dev (f old)) dev s.clk.tick
      .ok (old, pz) (if whole then s.setHomePoison l false else s)

/-- A clockless write. -/
def clWrite (s : State) (dev : Nat) (bs : List Byte) : Res Unit :=
  match clUpdate s dev bs.length (decide (128 ≤ bs.length)) (fun _ => bs) with
  | .wait a b => .wait a b
  | .fail f => .fail f
  | .ok _ s => .ok () s

/-- A clockless atomic add of 64 bits: counter increments (R119, R278). -/
def clAdd (s : State) (dev : Nat) (n : Nat) : Res Unit :=
  match clUpdate s dev 8 false (fun bs => leBytes ((leNat bs + n) % 0x10000000000000000) 8) with
  | .wait a b => .wait a b
  | .fail f => .fail f
  | .ok _ s => .ok () s

/-- The home marks of another state. -/
def withMarks (s t : State) : State :=
  (List.range 8).foldl (fun u d => u.setDie d { u.die d with homeMark := (s.die d).homeMark }) t

/-- The later of two states' home marks, die by die. -/
def joinMarks (t u : State) : State :=
  (List.range 8).foldl (fun v d => v.setDie d { v.die d with homeMark := max (v.die d).homeMark (t.die d).homeMark }) u

/-- One more access of an operation that began in s and has come to t: what the operation itself has raised a home mark to
does not hold it up, since all of it has one logical time (R77, log 44). -/
def alongside {α : Type} (s t : State) (f : State → Res α) : Res α :=
  match f (withMarks s t) with
  | .ok a u => .ok a (joinMarks t u)
  | r => r

/-- A clockless access through a context's own pointer, on a core. -/
def clCheck (s : State) (core c : Nat) (p : Word64) (size : Nat) (want : BitVec 3) : Except Fail (Nat × State) :=
  match checkPtr p size .globalDev with
  | some f => .error f
  | none => match translate s core c p want with
    | .error f => .error f
    | .ok (x, s) => .ok (x.dev, match x.ent with | some e => locateEntry s core c e.vpart | none => s)

/-! ### Skipper, Loupe and Luna (R70, R77, R310) -/

/-- A line of a primary copied into a replica, with its record there (R46, R75). -/
def copyLine (s : State) (pk fk dev : Nat) (r : LineRec) : State :=
  let off := dev % 65536 / 128 * 128
  (s.setFbytes fk off (s.fbytes pk off 128)).setLine (flKey fk (lineIx dev)) r

/-- An engine's read of part of a line, where its core's own access would be served, as a clockless agent; a replica whose line is
invalid or expired first fetches it again (R46, R61). -/
def agentRead (s : State) (core c : Nat) (x : Xl) (n : Nat) : Res (List Byte × Bool) :=
  let home (s : State) : Res (List Byte × Bool) :=
    match (if ownerSupplies s (lineOf x.dev) then some s else charge s c x.dev) with
    | none => .wait (s.clk.tick + 1) 0
    | some s => clRead s x.dev n
  match placeOf none 4 s core c x [] with
  | .wait a b => .wait a b
  | .fail f => .fail f
  | .ok .home s => home s
  | .ok (.frame fk) s =>
    let r := lineAt s fk x.dev
    let replica := (s.frame fk).kind == .replica
    if replica && r.valid && decide (r.wts ≤ s.clk.tick) && decide (s.clk.tick ≤ r.rts) then
      .ok (s.fbytes fk (x.dev % 65536) n, r.poison) (endHold (reached s x fk core false) core none (partOf x.dev))
    else
      let pk := if replica then (primaryOf s (fk / 8192) (partOf x.dev)).getD fk else fk
      let kept := (lineAt s pk x.dev).valid
      match fetchLine s c pk x.dev false with
      | .wait a b => .wait a b
      | .fail f => .fail f
      | .ok _ s =>
        let r := lineAt s pk x.dev
        if s.clk.tick < r.wts then .wait r.wts (if kept then gateReason 1 (lineOf x.dev) else gateReason 0 (homeDie s x.dev))
        else
          let r := { r with rts := max r.rts s.clk.tick }
          let s := s.setLine (flKey pk (lineIx x.dev)) r
          let s := if replica then
              copyLine (touchFrame s pk) pk fk x.dev { wts := r.wts, rts := r.rts, poison := r.poison, valid := true, state := .r }
            else s
          .ok (s.fbytes pk (x.dev % 65536) n, r.poison) (endHold (reached s x fk core false) core none (partOf x.dev))

/-- Bytes of one line put at device addresses. -/
def putPieces (s : State) (w : Who) (p : Place) (logged : Bool) : List (Nat × List Byte) → State
  | [] => s
  | (d, bs) :: ps => putPieces (putBytes s w p d bs logged) w p logged ps

/-- An engine's write of pieces of one line, as one operation: f answers them from what stands at the line's place; `log` is false
for an irrevocable one (R207). The time at which the line itself arrives for it does not hold it up (log 44). -/
def agentUpdate (s : State) (core c : Nat) (x : Xl) (f : State → Place → List (Nat × List Byte)) (log : Bool := true) : Res Unit :=
  let w : Who := { core := core, ctx := c, lease := 0 }
  let logged := log && !(x.irrev || x.shared)
  let whole (ps : List (Nat × List Byte)) : Bool := decide (128 ≤ (ps.map (fun y => y.2.length)).foldl (· + ·) 0)
  match placeOf none 4 s core c x [] with
  | .wait a b => .wait a b
  | .fail f => .fail f
  | .ok .home s =>
    match charge s c x.dev with
    | none => .wait (s.clk.tick + 1) 0
    | some s =>
      match clUpdate s x.dev 0 false (fun _ => []) with
      | .wait a b => .wait a b
      | .fail f => .fail f
      | .ok _ s =>
        let ps := f s .home
        let s := putPieces s w .home logged ps
        .ok () (if whole ps then s.setHomePoison (lineOf x.dev) false else s)
  | .ok (.frame fk) s =>
    let pk := if (s.frame fk).kind == .replica then (primaryOf s (fk / 8192) (partOf x.dev)).getD fk else fk
    let old := lineAt s pk x.dev
    let kept := old.valid && decide (s.clk.tick ≤ old.rts)
    match fetchLine s c pk x.dev true with
    | .wait a b => .wait a b
    | .fail f => .fail f
    | .ok _ s =>
      let r := lineAt s pk x.dev
      let rts := if old.valid || decide (s.clk.tick < r.rts) then r.rts
        else max (homeMarkOf s x.dev) (s.die (pk / 8192)).evMark
      if r.pinned then .wait (s.clk.tick + 1) 0
      else if s.clk.tick ≤ rts then
        .wait (rts + 1) (if kept then gateReason 1 (lineOf x.dev) else gateReason 0 (homeDie s x.dev))
      else
        let ps := f s (.frame pk)
        let s := putPieces s w (.frame pk) logged ps
        let s := s.setLine (flKey pk (lineIx x.dev)) { r with wts := s.clk.tick, rts := s.clk.tick, dirty := true,
                                                              state := .m, poison := r.poison && !whole ps }
        .ok () (endHold (reached s x pk core true) core none (partOf x.dev))

def agentWrite (s : State) (core c : Nat) (x : Xl) (ps : List (Nat × List Byte)) (log : Bool := true) : Res Unit :=
  agentUpdate s core c x (fun _ _ => ps) log

end Sys2Proof.Machine
end

