-- ==== Sys2Proof/Machine/Commut.lean ====
section
/-!
DEFINITION. Commutative ranges (R94 to R97, R294 to R296): writing partials, the combine of a line, and the contribution of
one element.
-/

namespace Sys2Proof.Machine

/-! ### What a performed write wakes -/

def unitsOf (s : State) (c : Nat) : BitVec 256 := match s.ctx? c with | some x => x.conf.units | none => 0

/-- The core whose TLB the launch unit uses for a context: the lowest of its unit set. -/
def launchCore (s : State) (c : Nat) : Nat :=
  ((List.range 256).find? (fun k => (unitsOf s c).getLsbD k)).getD 0

/-- The line of a pointer that passes its checks: a device line, or a local line (above all device lines). -/
def keyOfPtr (s : State) (core c : Nat) (p : Word64) : Option Nat :=
  match checkAccess s core c p 1 0 .any with
  | .error _ => none
  | .ok (none, _) => some (0x8000000000000000 + localAddr s core c (p.toNat % 0x400000))
  | .ok (some x, _) => some x.dev

/-- Is the record whose REPLY word stands at a device address that of a context's fault with a serial (R193)? A later record of the
ring may have taken the place of one that is not answered. -/
def namesRecord (s : State) (d c serial : Nat) : Bool :=
  leNat (curBytes s (d - 52) 4) == serial && leNat (curBytes s (d - 18) 2) == c

/-- The polls on a line go on (R302), its wait counters are read (R180), the replies in it are observed and matched to their faults
by CTX and SERIAL (R198); a record that a handler has is answered only by its TRET. -/
def wrote (s : State) (key n : Nat) : State :=
  let polls := s.waves.foldl (fun l w => l ++ ((List.range 16).filter (fun i =>
    match (w.2.path i).poll with
    | some p => (keyOfPtr s (coreOf w.1) w.2.ctx p.addr).map (· / 128) == some (key / 128)
    | none => false)).map (fun i => Instr.pollRecheck w.1 i)) []
  let counters := s.ctxs.foldl (fun l c => l ++ (c.2.jobs.filter (fun j => j.state == .waiting &&
    (keyOfPtr s (launchCore s c.1) c.1 j.lr.waitCnt).map (· / 128) == some (key / 128))).map
      (fun j => Instr.waitCounterPoll c.1 j.id)) []
  let replyOf (c : Nat) (o : Outst) : Option Instr := match o.reply with
    | some d =>
      if !o.done && !o.taken && decide (key ≤ d) && decide (d + 8 ≤ key + n) && namesRecord s d c o.serial then
        let v := leNat (curBytes s d 8)
        if v < 0x8000000000000000 && decide (1 ≤ v % 256) && decide (v % 256 ≤ 3)
          then some (Instr.ringReply c o.serial (v % 256)) else none
      else none
    | none => none
  let replies := s.ctxs.foldl (fun l c => l ++ c.2.ring.out.filterMap (replyOf c.1)) [] ++
    s.dev.orphans.filterMap (fun y => replyOf y.1 y.2)
  (polls ++ counters ++ replies).foldl State.ensureSoon s

/-! ### Partials -/

/-- Write the partial of element n of a slot on a core. -/
def setPartial (s : State) (core c : Nat) (r : CRange) (n : Nat) (v : Word32) : State :=
  { s with fmem := Memory.writeN s.fmem (localAddr s core c (r.poff + 4 * n)) (leBytes v.toNat 4) }

def setPartials (s : State) (core c : Nat) (r : CRange) (first : Nat) : Nat → State
  | 0 => s
  | k + 1 => setPartial (setPartials s core c r first k) core c r (first + k) (copIdentity r.op)

/-- The local lines of n partials from one that begins a line on. -/
def partialLines (r : CRange) (first n : Nat) : List Nat := (List.range ((4 * n + 127) / 128)).map (fun i => r.poff + 4 * first + 128 * i)

/-- Partials become the identity: local writes, which are logged (R207). -/
def resetPartials (s : State) (core c : Nat) (r : CRange) (first n : Nat) : State :=
  setPartials ((partialLines r first n).foldl (fun s off => logLocal s core c off) s) core c r first n

/-- Are the partials of a line of a slot the identity on every contributor? -/
def stillLine (s : State) (c : Nat) (r : CRange) (cores : List Nat) (line : Nat) : Bool :=
  let n := 128 / copElem r.op
  !r.spoilt && cores.all (fun k => (List.range n).all (fun i => partialAt s k c r (n * line + i) == copIdentity r.op))

/-! ### The combine (R97) -/

/-- The check of a combine under R38, with R and W (R294, R296). -/
def combineCheck (s : State) (c slot line : Nat) : Option Fail :=
  match (s.ctx? c).bind (fun x => Sp.find x.cranges slot) with
  | none => none
  | some r =>
    let va := r.base + BitVec.ofNat 64 (128 * line)
    match walk s c va pRW with
    | .error f => some f
    | .ok e => checkHome s (e.part * 65536 + va.toNat % 65536) va

/-- COMBINE of one line of a slot, as a clockless agent (R77, R97), which takes a token of its context (R99). On a page that is SHARED
or IRREV a seal comes first, and neither the write nor the new partials are logged (R29, R207, R208): unless one has been taken
(`sealed`), the step COMBINE is asked for, which takes it; there a line whose partials are all the identity is not written (log 17). -/
def combineLine (s : State) (c slot line : Nat) (r : CRange) (cores : List Nat) (sealed : Bool) : Res Unit :=
  let va := r.base + BitVec.ofNat 64 (128 * line)
  match walk s c va 0 with
  | .error f => if f.later then .wait (s.clk.tick + 1) 0 else .ok () s
  | .ok e =>
    let dev := e.part * 65536 + va.toNat % 65536
    let n := 128 / copElem r.op
    let seals := e.irrev || e.shared
    let free := s.sch.free
    let new (t : State) (bs : List Byte) : List Byte :=
      if r.spoilt then (List.range 128).map (fun i => Config.freeByte free (dev + i)) else foldLine t c r (n * line) cores bs n
    if seals && stillLine s c r cores line then .ok () s
    else if seals && !sealed then .wait (s.clk.tick + 1) (combineReason c slot line)
    else match charge s c dev with
    | none => .wait (s.clk.tick + 1) 0
    | some s =>
      match clUpdate s dev 128 true (new s) with
      | .wait a b => .wait a b
      | .fail f => .fail f
      | .ok (bs, pz) s =>
        let s := if seals then s.tickFree else logLine s.tickFree c (lineOf dev) bs pz
        let s := cores.foldl (fun s k => if seals then setPartials s k c r (n * line) n else resetPartials s k c r (n * line) n) s
        .ok () (wrote ((List.range 8).foldl (fun s d => strikeDie s d (lineOf dev)) s) dev 128)

/-- COMBINE of the line of a slot at a line number, checked unless it belongs to an access that has begun; no contributor leaves it as
it is, also unchecked unless each line of the slot is to be (`flush`). -/
def combineAt (s : State) (c slot line : Nat) (chk : Bool := true) (flush : Bool := false) (sealed : Bool := false) : Res Unit :=
  match (s.ctx? c).bind (fun x => Sp.find x.cranges slot) with
  | none => .ok () s
  | some r =>
    let cores := contributors s c slot
    if cores.isEmpty && !flush then .ok () s
    else match (if chk then combineCheck s c slot line else none) with
    | some f => failed s f
    | none => if cores.isEmpty then .ok () s else combineLine s c slot line r cores sealed

/-- The lines that the combine of a line of a slot appends to the undo log (R207): the line's own and those of the partials; none
where a seal covers it. -/
def combineLogs (s : State) (c slot line : Nat) : List Nat :=
  match (s.ctx? c).bind (fun x => Sp.find x.cranges slot) with
  | none => []
  | some r =>
    let va := r.base + BitVec.ofNat 64 (128 * line)
    let n := 128 / copElem r.op
    let cores := contributors s c slot
    if cores.isEmpty then []
    else match walk s c va 0 with
      | .ok e => if e.irrev || e.shared then [] else (e.part * 65536 + va.toNat % 65536) / 128 ::
          cores.flatMap (fun k => (partialLines r (n * line) n).map (fun off => localLine s k c off))
      | .error _ => []

/-- Does the combine of a line of a slot ask for a seal (R29)? -/
def sealsLine (s : State) (c slot line : Nat) : Bool :=
  match (s.ctx? c).bind (fun x => Sp.find x.cranges slot) with
  | none => false
  | some r =>
    let cores := contributors s c slot
    !cores.isEmpty && !stillLine s c r cores line && (match walk s c (r.base + BitVec.ofNat 64 (128 * line)) 0 with
      | .ok e => e.irrev || e.shared
      | .error _ => false)

/-- The lines of a slot. -/
def slotLines (s : State) (c slot : Nat) : List Nat :=
  match (s.ctx? c).bind (fun x => Sp.find x.cranges slot) with
  | none => []
  | some r => List.range (r.len / 128)

/-- Combine the lines of a slot from `line` on, after a seal where one is asked for, up to the first that faults: its fault, if any.
After the last line the slot has no contributor (R295, log 17). -/
def combineLines (s₀ s : State) (c slot line : Nat) (flush : Bool) : Nat → Res (Option Fail)
  | 0 =>
    let s := s.updCtx c (fun x => { x with cranges := x.cranges.map (fun y =>
      if y.1 == slot then (y.1, { y.2 with spoilt := false }) else y) })
    .ok none { s with cores := s.cores.map (fun k =>
      (k.1, { k.2 with contrib := k.2.contrib.filter (fun y => y != (c, slot)) })) }
  | n + 1 =>
    match alongside s₀ s (fun s => combineAt s c slot line true flush true) with
    | .ok _ s => combineLines s₀ s c slot (line + 1) flush n
    | .wait a b => .wait a b
    | .fail f => .ok (some f) s

def combineRun (s : State) (c slot line n : Nat) (flush : Bool := false) : Res (Option Fail) := combineLines s s c slot line flush n

/-- Combine lines of slots one after another, as one operation that began in s₀ (log 44). -/
def combineHits (s₀ s : State) (chk sealed : Bool) : List (Nat × Nat × Nat) → Res Unit
  | [] => .ok () s
  | h :: hs =>
    match alongside s₀ s (fun s => combineAt s h.1 h.2.1 h.2.2 chk false sealed) with
    | .ok _ s => combineHits s₀ s chk sealed hs
    | r => r

/-- Any access to a range line other than CADD combines it first, with every range that it belongs to (R97). -/
def combineFirst (s : State) (dev : Nat) (chk : Bool := true) (sealed : Bool := false) : Res Unit :=
  combineHits s s chk sealed (rangeHits s (lineOf dev))

/-- The fault that the combine before an access to a line would raise (R97, R296). -/
def combineFault (s : State) (dev : Nat) : Option Fail :=
  ((rangeHits s (lineOf dev)).filterMap (fun h =>
    if (contributors s h.1 h.2.1).isEmpty then none else combineCheck s h.1 h.2.1 h.2.2)).head?

/-- The same for one more access of an operation that began in s₀ (log 44). -/
def combineNext (s₀ s : State) (dev : Nat) : Res Unit := alongside s₀ s (fun s => combineFirst s dev)

/-- Is this the core's first contribution to a slot? -/
def firstCadd (s : State) (core c slot : Nat) : Bool := !(s.core core).contrib.contains (c, slot)

/-- A core's first contribution to a slot writes the identity over its partial area and registers it (R96, R295). -/
def registerCore (s : State) (core c slot : Nat) (r : CRange) : State :=
  if !firstCadd s core c slot then s
  else
    let s := resetPartials s core c r 0 (r.len / copElem r.op)
    s.setCore core { s.core core with contrib := (s.core core).contrib ++ [(c, slot)] }

/-- An LDL or STL of n bytes touches the partials of a range that its core contributes to: what the range combines to is
unspecified (R97). -/
def spoil (s : State) (core c off n : Nat) : State :=
  s.updCtx c (fun x => { x with cranges := x.cranges.map (fun y =>
    if (s.core core).contrib.contains (c, y.1) && decide (off < y.2.poff + partialBytes y.2) && decide (y.2.poff < off + n)
    then (y.1, { y.2 with spoilt := true }) else y) })

/-- The element value a CADD contributes: BF16 in the low half (R295). -/
def caddValue (o : COp) (v : Word32) : Word32 := if o == .badd then bf16Up v.toNat else v

/-- An ordinary read and write of the element at its place, with CADD's own operation (R96, R295). -/
def caddDirect (o : COp) (old v : Word32) : Nat :=
  if o == .badd then bf16Down (addRne (bf16Up old.toNat) (bf16Up v.toNat)) else (copApply o old v).toNat

end Sys2Proof.Machine
end

