-- ==== Sys2Proof/Machine/Tiles.lean ====
section
/-!
DEFINITION. Tiles (R321 to R324): their control registers, images, scales and tags, and the memory lines that a TLD or
TST moves (R330).
-/

namespace Sys2Proof.Machine

/-! ### Control registers (R321, R322) -/

/-- The value of a tile control register. -/
def State.tcOf (s : State) (core t : Nat) : Word32 := Sp.get 0 (s.core core).tc t

def tcFmt (v : Word32) : Nat := (bits v 0 4).toNat
def tcRows (v : Word32) : Nat := (bits v 4 9).toNat + 1
def tcSteps (v : Word32) : Nat := (bits v 13 5).toNat + 1
def tcScl (v : Word32) : Bool := bit v 18

/-- Bytes of a row image. -/
def rowBytes (v : Word32) : Nat := 48 * tcSteps v

/-- Is the format one of FP8 or FP4, which native scales apply to? -/
def scaledFmt (f : Nat) : Bool := f == 3 || f == 4 || f == 5

/-- Does TCFG accept the value (R321)? -/
def tcValid (v : Word32) : Bool :=
  bits v 19 13 == 0 && decide (tcFmt v ≤ 10) && decide (tcSteps v ≤ 16) && decide (tcRows v * tcSteps v ≤ 512) &&
    (!tcScl v || scaledFmt (tcFmt v)) && (tcFmt v != 0 || v == 0)

/-- Half-bytes of an element (R322); a BPI row is read by bytes. -/
def fmtHalf : Nat → Nat
  | 1 | 2 => 4
  | 5 => 1
  | 9 | 10 => 8
  | _ => 2

/-- The floating format of a code. -/
def fmtFloat : Nat → Option FFmt
  | 1 => some .bf16
  | 2 => some .f16
  | 3 => some .e4m3
  | 4 => some .e5m2
  | 5 => some .e2m1
  | 9 => some .f32
  | _ => none

/-- The integer type of a code. -/
def fmtInt : Nat → Option IType
  | 6 => some .i8
  | 7 => some .n8
  | 10 => some .i32
  | _ => none

/-- Elements of a row in one K-step (R322). -/
def fmtStep (f : Nat) : Nat := 96 / fmtHalf f

/-! ### Owners (R324) -/

/-- The owner of tile t, or of accumulator t - 16. -/
def State.tileOwner (s : State) (core t : Nat) : Option Nat := Sp.find (s.core core).owner t

def State.setOwner (s : State) (core t : Nat) (c : Option Nat) : State :=
  let k := s.core core
  s.setCore core { k with owner := match c with
    | some c => Sp.insert k.owner t c
    | none => Sp.erase k.owner t }

def tileFault (sub extra : Nat) : FaultInfo := { code := Code.TILE_CFG, sub := sub, extra := BitVec.ofNat 64 extra }

/-- The first register of a list that a context does not own. -/
def notOwned (s : State) (core c : Nat) (ts : List Nat) : Option FaultInfo :=
  (ts.find? (fun t => s.tileOwner core t != some c)).map (fun t => tileFault 5 t)

/-! ### Images, scales and tags (R323) -/

abbrev tileNo (core t : Nat) : Nat := core * 16 + t
abbrev imgKey (core t off : Nat) : Nat := tileNo core t * 32768 + off
abbrev wordKey (core t word : Nat) : Nat := tileNo core t * 8192 + word
abbrev sclKey (core t off : Nat) : Nat := tileNo core t * 4096 + off

def State.setMx (s : State) (m : Matrix) : State := { s with mx := m }

def State.imgByte (s : State) (core t off : Nat) : Byte := Memory.read s.mx.image (imgKey core t off)
def State.imgBytes (s : State) (core t off n : Nat) : List Byte := Memory.readN s.mx.image (imgKey core t off) n
def State.wordPoison (s : State) (core t word : Nat) : Bool := Sp.get false s.mx.wpoison (wordKey core t word)
def State.sclByte (s : State) (core t off : Nat) : Byte := Sp.get Memory.scaleFresh s.mx.scales (sclKey core t off)
def State.sclPoison (s : State) (core t off : Nat) : Bool := Sp.get false s.mx.spoison (sclKey core t off)

/-- Set the tags of n image words from one on. -/
def setWords (m : List (Nat × Bool)) (k : Nat) (b : Bool) : Nat → List (Nat × Bool)
  | 0 => m
  | n + 1 => setWords (Sp.put false m k b) (k + 1) b n

/-- Write image bytes; the words they touch take the tag. -/
def State.putImg (s : State) (core t off : Nat) (bs : List Byte) (poison : Bool) : State :=
  let n := if bs.isEmpty then 0 else (off + bs.length + 3) / 4 - off / 4
  s.setMx { s.mx with image := Memory.writeN s.mx.image (imgKey core t off) bs,
                      wpoison := setWords s.mx.wpoison (wordKey core t (off / 4)) poison n }

/-- Write scale bytes with their tag. -/
def State.putScl (s : State) (core t off : Nat) (poison : Bool) : List Byte → State
  | [] => s
  | b :: bs =>
    (s.setMx { s.mx with scales := Sp.put Memory.scaleFresh s.mx.scales (sclKey core t off) b,
                         spoison := Sp.put false s.mx.spoison (sclKey core t off) poison }).putScl core t (off + 1) poison bs

/-- The image and every tag to 0, every scale to 0x7F (R324, R331). -/
def State.clearTile (s : State) (core t : Nat) : State :=
  let n := tileNo core t
  s.setMx { s.mx with image := s.mx.image.filter (fun c => c.1 / 32768 != n),
                      wpoison := s.mx.wpoison.filter (fun c => c.1 / 8192 != n),
                      scales := s.mx.scales.filter (fun c => c.1 / 4096 != n),
                      spoison := s.mx.spoison.filter (fun c => c.1 / 4096 != n) }

/-- Where element k of row m stands: image byte, and whether it is the upper half of it. -/
def elemAt (v : Word32) (m k : Nat) : Nat := 48 * (m * tcSteps v) + k * fmtHalf (tcFmt v) / 2

/-- The code of element k of row m. -/
def State.elemCode (s : State) (core t : Nat) (v : Word32) (m k : Nat) : Nat :=
  let h := fmtHalf (tcFmt v)
  let x := leNat (s.imgBytes core t (elemAt v m k) ((h + 1) / 2))
  if h == 1 then x / 16 ^ (k % 2) % 16 else x

def State.elemPoison (s : State) (core t : Nat) (v : Word32) (m k : Nat) : Bool :=
  s.wordPoison core t (elemAt v m k / 4)

/-- The scale byte of element k of row m. -/
def scaleAt (v : Word32) (m k : Nat) : Nat :=
  let ks := fmtStep (tcFmt v)
  6 * (m * tcSteps v + k / ks) + k % ks / 16

/-! ### Accumulator elements (R325) -/

abbrev accKey (core acc m n : Nat) : Nat := (core * 4 + acc) * 16384 + m * 512 + n

def State.accElem (s : State) (core acc m n : Nat) : AccElem := Sp.get {} s.mx.accs (accKey core acc m n)
def State.setAcc (s : State) (core acc m n : Nat) (e : AccElem) : State :=
  s.setMx { s.mx with accs := Sp.put {} s.mx.accs (accKey core acc m n) e }

def State.setImode (s : State) (core acc : Nat) (b : Bool) : State :=
  let k := s.core core
  s.setCore core { k with imode := Sp.put false k.imode acc b }
def State.imodeOf (s : State) (core acc : Nat) : Bool := Sp.get false (s.core core).imode acc

/-- AZERO (R325). -/
def State.clearAcc (s : State) (core acc : Nat) : State :=
  (s.setMx { s.mx with accs := s.mx.accs.filter (fun c => c.1 / 16384 != core * 4 + acc) }).setImode core acc false

/-! ### Source protection (R326, R338) -/

/-- Does the context of a queue entry run? The array works for running contexts only (R174, R327). -/
def ctxRuns (s : State) (c : Nat) : Bool := match s.ctx? c with
  | some x => x.state == .running
  | none => false

/-- Must an operation that reads some tiles and writes others wait at issue? `byp` is the tile that the bypass
excepts. -/
def tileBusy (k : Core) (reads writes : List Nat) (byp : Option Nat) : Bool :=
  k.tileOps.any (fun o =>
    o.writes.any (fun t => writes.contains t || (reads.contains t && !(o.byp && byp == some t))) ||
    o.reads.any (fun t => writes.contains t))

def State.addTileOp (s : State) (core : Nat) (o : TileOp) : State :=
  let k := s.core core
  s.setCore core { k with tileOps := k.tileOps ++ [o] }

def State.endTileOp (s : State) (core id : Nat) : State :=
  let k := s.core core
  s.setCore core { k with tileOps := k.tileOps.filter (fun o => o.id != id) }

/-- The operation of an access on a tile, if it is one, is over. -/
def State.endTileOf (s : State) (core : Nat) (a : Access) : State :=
  match a.tile with
  | some id => s.endTileOp core id
  | none => s

/-! ### The lines of a TLD or TST (R330) -/

/-- A run of bytes that a move of a tile takes: memory address, offset in the tile, length. -/
structure Piece where
  va  : Word64
  off : Nat
  len : Nat
  deriving DecidableEq, Repr

/-- Scale bytes of a step of a row in memory: 3 for FP8 and for MX scales, 6 for E2M1. -/
def sclCount (v : Word32) (mx : Bool) : Nat := if tcFmt v == 5 && !mx then 6 else 3

/-- The whole runs of a move: one for each row of data, one for all scales. -/
def tileRuns (v : Word32) (m : TMov) (base : Word64) (stride : Nat) : List Piece :=
  match m with
  | .data | .strided _ =>
    (List.range (tcRows v)).map (fun r => ⟨base + BitVec.ofNat 64 (r * stride), r * rowBytes v, rowBytes v⟩)
  | .scales => [⟨base, 0, sclCount v false * tcRows v * tcSteps v⟩]
  | .mxScales => [⟨base, 0, sclCount v true * tcRows v * tcSteps v⟩]

/-- A run cut at the boundaries of lines. -/
def cutLines : Nat → Piece → List Piece
  | 0, _ => []
  | n + 1, p =>
    let k := min p.len (128 - p.va.toNat % 128)
    if p.len == 0 then []
    else ⟨p.va, p.off, k⟩ :: cutLines n ⟨p.va + BitVec.ofNat 64 k, p.off + k, p.len - k⟩

/-- Every piece of a move. -/
def tilePieces (v : Word32) (m : TMov) (base : Word64) (stride : Nat) : List Piece :=
  (tileRuns v m base stride).flatMap (fun p => cutLines (p.len / 128 + 2) p)

abbrev lineVa (p : Word64) : Word64 := p &&& ~~~127

/-- Insert into an ascending list without repeats. -/
def insertVa (p : Word64) : List Word64 → List Word64
  | [] => [p]
  | q :: qs => if p == q then q :: qs else if decide (p.toNat < q.toNat) then p :: q :: qs else q :: insertVa p qs

/-- The lines of a move, ascending: the order in which the model performs them, where R103 leaves it open (DESIGN CHOICE, log 18). -/
def pieceLines (ps : List Piece) : List Word64 := ps.foldl (fun l p => insertVa (lineVa p.va) l) []

/-- What a tile access moves: tile, kind, whether it is a store. -/
def tileMove : Instr → Option (Nat × TMov × Bool)
  | .tld _ t _ m => some (t.toNat, m, false)
  | .tst _ t _ m => some (t.toNat, m, true)
  | _ => none

/-- The pieces of one line of a tile access; the lane carries the base and the stride. -/
def lanePieces (v : Word32) (m : TMov) (l : Lane) : List Piece :=
  (tilePieces v m (l.d0.setWidth 64) l.d1.toNat).filter (fun p => lineVa p.va == l.ptr)

/-- The tile offset where byte i of a run of scales stands: the scale store holds 6 for each step of a row. -/
def sclSlot (v : Word32) (mx : Bool) (i : Nat) : List Nat :=
  let n := sclCount v mx
  if mx then [6 * (i / n) + 2 * (i % n), 6 * (i / n) + 2 * (i % n) + 1] else [6 * (i / n) + i % n]

/-- The bytes of a tile that a piece stores, with their joint poison. -/
def pieceBytes (s : State) (core t : Nat) (v : Word32) (m : TMov) (p : Piece) : List Byte × Bool :=
  match m with
  | .data | .strided _ =>
    (s.imgBytes core t p.off p.len, (List.range ((p.len + 3) / 4)).any (fun i => s.wordPoison core t (p.off / 4 + i)))
  | .scales | .mxScales =>
    let slots := (List.range p.len).flatMap (fun i => sclSlot v false (p.off + i))
    (slots.map (fun x => s.sclByte core t x), slots.any (fun x => s.sclPoison core t x))

/-- Bytes loaded into a tile by a piece, with the poison of their line. -/
def loadPiece (s : State) (core t : Nat) (v : Word32) (m : TMov) (p : Piece) (bs : List Byte) (pz : Bool) : State :=
  match m with
  | .data | .strided _ => s.putImg core t p.off bs pz
  | .scales => bs.zipIdx.foldl (fun s b => (sclSlot v false (p.off + b.2)).foldl (fun s x => s.putScl core t x pz [b.1]) s) s
  | .mxScales => bs.zipIdx.foldl (fun s b => (sclSlot v true (p.off + b.2)).foldl (fun s x => s.putScl core t x pz [b.1]) s) s

/-- A line of memory with the pieces of a store over it. -/
def overlay (s : State) (core t : Nat) (v : Word32) (m : TMov) : List Piece → List Byte → List Byte
  | [], bs => bs
  | p :: ps, bs =>
    let o := p.va.toNat % 128
    overlay s core t v m ps (bs.take o ++ (pieceBytes s core t v m p).1 ++ bs.drop (o + p.len))

/-- Does a store of pieces cover the whole line? -/
def coversLine (ps : List Piece) : Bool :=
  (List.range 128).all (fun i => ps.any (fun p => decide (p.va.toNat % 128 ≤ i) && decide (i < p.va.toNat % 128 + p.len)))

end Sys2Proof.Machine
end

