-- ==== Sys2Proof/Machine/Array.lean ====
section
/-!
DEFINITION. The matrix array (R133 to R139, R327, R332 to R338): the steps of a product and of a drain, and the queue
that runs them one at a time.
-/

namespace Sys2Proof.Machine

/-! ### Products (R133, R139, R333) -/

/-- A value times 2^n. -/
def scaleBy (n : Int) : FVal → FVal
  | .fin s m e => .fin s m (e + n)
  | v => v

/-- Element k of row m of a tile: its value as a number format, with its poison. -/
def State.elemVal (s : State) (core t : Nat) (v : Word32) (m k : Nat) : FVal × Bool :=
  match fmtFloat (tcFmt v) with
  | some f => (fDecode f (s.elemCode core t v m k), s.elemPoison core t v m k)
  | none => (.nan false, s.elemPoison core t v m k)

/-- The same times its scale (R133, R135). -/
def State.scaledVal (s : State) (core t : Nat) (v : Word32) (m k : Nat) : FVal × Bool :=
  let x := s.elemVal core t v m k
  let c := (s.sclByte core t (scaleAt v m k)).toNat
  (if c == 255 then .nan false else scaleBy ((c : Int) - 127) x.1, x.2 || s.sclPoison core t (scaleAt v m k))

/-- The same as an integer, signed for .i8. -/
def State.elemInt (s : State) (core t : Nat) (v : Word32) (m k : Nat) : Int × Bool :=
  let c := s.elemCode core t v m k
  (if tcFmt v == 6 then (BitVec.ofNat 8 c).toInt else (c : Int), s.elemPoison core t v m k)

/-- The tile and row of the B group that hold column n. -/
def bTile (s : State) (core b n : Nat) : Nat × Nat :=
  let r := tcRows (s.tcOf core b)
  (b + n / r, n % r)

/-- An exact product; one beyond FP32 range is an infinity (R139). -/
def capProduct : FVal → FVal
  | .fin neg m e => if (roundFin .f32 .rn false neg m e).flags &&& fOVERFLOW != 0 then .inf neg else .fin neg m e
  | v => v

/-- Add a product into a chain: E for even k, O for odd (R139). -/
def accumulate (e : AccElem) (k : Nat) (p : FVal × Bool) : AccElem :=
  let add (x : Word32) : Word32 := w32 (fAddR .f32 .rn (f32 x) p.1).code
  { e with e := if k % 2 == 0 then add e.e else e.e, o := if k % 2 == 0 then e.o else add e.o,
           poison := e.poison || p.2 }

/-- A chain of products of one step of a float form. -/
def dotFloat (s : State) (core a b m n : Nat) (scaled : Bool) (k : Nat) : Nat → AccElem → AccElem
  | 0, e => e
  | c + 1, e =>
    let (tb, r) := bTile s core b n
    let val (t row : Nat) : FVal × Bool :=
      if scaled then s.scaledVal core t (s.tcOf core t) row k else s.elemVal core t (s.tcOf core t) row k
    let x := val a m
    let y := val tb r
    dotFloat s core a b m n scaled (k + 1) c (accumulate e k (capProduct (fMul x.1 y.1).1, x.2 || y.2))

/-- The exact sum of products of one step of MMA.I8, with its poison. -/
def dotInt (s : State) (core a b m n : Nat) (k : Nat) : Nat → Int × Bool
  | 0 => (0, false)
  | c + 1 =>
    let (tb, r) := bTile s core b n
    let x := s.elemInt core a (s.tcOf core a) m k
    let y := s.elemInt core tb (s.tcOf core tb) r k
    let z := dotInt s core a b m n (k + 1) c
    (x.1 * y.1 + z.1, x.2 || y.2 || z.2)

/-- Bit j of weight k of column n of a BPI group, with its poison (R136, R323). -/
def planeBit (s : State) (core b n k j : Nat) : Bool × Bool :=
  let (t, r) := bTile s core b n
  let off := rowBytes (s.tcOf core t) * r + 384 * (k / 384) + 48 * j + k % 384 / 8
  ((s.imgByte core t off).getLsbD (k % 8), s.wordPoison core t (off / 4))

/-- The weight of plane j, and the midpoint completion of p planes (R137). -/
def planeWeight (j : Nat) : Int := if j == 0 then -128 else 2 ^ (7 - j)
def midpoint (p : Nat) : Int := if p == 8 then 0 else 2 ^ (7 - p)

/-- What one step of MMA.BP adds to an element (R334). -/
def dotPlane (s : State) (core a b m n p j : Nat) (k : Nat) : Nat → Int × Bool
  | 0 => (0, false)
  | c + 1 =>
    let x := s.elemInt core a (s.tcOf core a) m k
    let y := planeBit s core b n k j
    let z := dotPlane s core a b m n p j (k + 1) c
    ((if y.1 then planeWeight j * x.1 else 0) + (if j == 0 then midpoint p * x.1 else 0) + z.1, x.2 || y.2 || z.2)

/-- Count a wrap of an element. -/
def addOver (l : List (Nat × Int)) (k : Nat) (d : Int) : List (Nat × Int) := Sp.upd 0 l k (· + d)

/-- An integer element takes an exact sum: the wrapped value, and how often it wraps (R139). -/
def addInt (e : AccElem) (d : Int × Bool) : AccElem × Int :=
  let x := e.e.toInt + d.1
  let v : Word32 := BitVec.ofInt 32 x
  ({ e := v, o := 0, poison := e.poison || d.2 }, (x - v.toInt) / 4294967296)

/-- Update the elements of 32 rows and some columns, counting the wraps. -/
def eachElem (s : State) (core acc : Nat) (wraps : List (Nat × Int)) (cols : List Nat)
    (f : Nat → Nat → AccElem → AccElem × Int) : State × List (Nat × Int) :=
  (List.range 32).foldl (fun x m => cols.foldl (fun x n =>
    let (e, d) := f m n (x.1.accElem core acc m n)
    (x.1.setAcc core acc m n e, if d == 0 then x.2 else addOver x.2 (m * 512 + n) d)) x) (s, wraps)

/-- Step i of an MMA (R333, R334): KIND 1 MMA.F, 2 MMA.X, 3 MMA.I8, 4 MMA.BP; `pz` when a scalar operand of it is poisoned. -/
def mmaStep (s : State) (core acc kind a b n p : Nat) (za pz : Bool) (i : Nat) (wraps : List (Nat × Int)) :
    State × List (Nat × Int) :=
  let st := tcSteps (s.tcOf core a)
  let t := s.setImode core acc (decide (3 ≤ kind))
  if kind == 4 then
    let h := i / (st * p)
    let c := i % (st * p) / p
    let j := i % p
    let cols := (List.range 128).filterMap (fun x => if 128 * h + x < n then some (128 * h + x) else none)
    eachElem t core acc wraps cols (fun m n e =>
      let e := if za && c == 0 && j == 0 then { e with e := 0, poison := false } else e
      let d := dotPlane t core a b m n p j (48 * c) 48
      addInt e (d.1, d.2 || pz))
  else
    let g := i / st
    let c := i % st
    let ks := fmtStep (tcFmt (s.tcOf core a))
    let cols := (List.range 16).map (fun x => 16 * g + x)
    eachElem t core acc wraps cols (fun m n e =>
      if kind == 3 then
        let d := dotInt t core a b m n (c * ks) ks
        addInt (if za && c == 0 then { e with e := 0, poison := false } else e) (d.1, d.2 || pz)
      else
        let d := dotFloat t core a b m n (kind == 2) (c * ks) ks (if za && c == 0 then {} else e)
        ({ d with poison := d.poison || pz }, 0))

/-- Steps of an MMA. -/
def mmaTotal (kind n steps p : Nat) : Nat := if kind == 4 then (n + 127) / 128 * steps * p else n / 16 * steps

/-! ### Drains (R336, R337) -/

/-- A drained value before its conversion: an exact integer, or an FP32 code. -/
inductive Drained
  | int (v : Int)
  | flt (code : Nat)

/-- DRAIN, the scaling and the poison of column c of row m; n is the column of the tile. -/
def drainVal (s : State) (core acc tv m c n : Nat) (scv exact : Bool) : Drained × Bool :=
  let e := s.accElem core acc m c
  let scale : Nat := leNat (s.imgBytes core tv (4 * n) 4)
  let mul (x : Nat) : Nat := if scv then (fMulR .f32 .rn (fDecode .f32 x) (fDecode .f32 scale)).code else x
  let pz := e.poison || (scv && s.wordPoison core tv n)
  if s.imodeOf core acc then
    if exact then (.int e.e.toInt, pz) else (.flt (mul (roundFin .f32 .rn false (decide (e.e.toInt < 0)) e.e.toInt.natAbs 0).code), pz)
  else (.flt (mul (addRne e.e e.o).toNat), pz)

/-- CONVERT into a tile format after division by 2^d (R131, R132, R336, R337): the code. -/
def drainCode (f : Nat) (sat : Bool) (d : Int) (v : Drained) : Nat :=
  match fmtInt f with
  | some t =>
    let x : Int := match v with
      | .int x => max (iMin t) (min (iMax t) x)
      | .flt c => (fToI t .rn (fDecode .f32 c)).1
    (BitVec.ofInt 32 x).toNat % 2 ^ (4 * fmtHalf f)
  | none =>
    match v, fmtFloat f with
    | .flt c, some g => if f == 9 then c else (fRound g .rn (sat && scaledFmt f) (scaleBy (-d) (fDecode .f32 c))).code
    | _, _ => 0

/-- The codes of elements packed into bytes, two E2M1 elements in one. -/
def packCodes (half : Nat) : List Nat → List Byte
  | [] => []
  | [a] => leBytes a ((half + 1) / 2)
  | a :: b :: l =>
    (if half == 1 then [BitVec.ofNat 8 (a + 16 * b)] else leBytes a (half / 2) ++ leBytes b (half / 2)) ++ packCodes half l

/-- The scale code of a block (R337): the least with M ≤ L * 2^(e - 127). -/
def scaleCode (f : FFmt) (vs : List Nat) : Nat :=
  let fits (e : Nat) : Bool := vs.all (fun c => match fDecode .f32 c with
    | .fin _ m x => !ltScaled (fMaxM f) (fMaxE f + (e : Int) - 127) m x
    | _ => true)
  ((List.range 255).find? fits).getD 254

/-- Reset an element as AZERO does, by mode (R336). -/
def zeroElem (imode : Bool) : AccElem := if imode then { e := 0, o := 0 } else {}

/-- One row of step i of a drain: 16 columns. The scale byte of R337 carries no tag, also where an element of its block or the scalar
operand is poisoned: R141 gives tags to the elements (DESIGN CHOICE, log 27). -/
def drainRow (s : State) (core acc tile tv c0 : Nat) (scv sat zero pz : Bool) (i m : Nat) : State :=
  let v := s.tcOf core tile
  let f := tcFmt v
  let exact := !scv && (fmtInt f).isSome
  let cols := List.range 16
  let vals := cols.map (fun x => drainVal s core acc tv m (c0 + 16 * i + x) (16 * i + x) scv exact)
  let e := if tcScl v then scaleCode ((fmtFloat f).getD .e4m3) (vals.filterMap (fun y => match y.1 with
    | .flt c => some c
    | .int _ => none)) else 127
  let bytes := packCodes (fmtHalf f) (vals.map (fun y => drainCode f sat ((e : Int) - 127) y.1))
  let at_ := elemAt v m (16 * i)
  let s := s.putImg core tile at_ bytes false
  let s := vals.zipIdx.foldl (fun s y => if y.1.2 || pz
    then s.setMx { s.mx with wpoison := Sp.put false s.mx.wpoison (wordKey core tile (elemAt v m (16 * i + y.2) / 4)) true }
    else s) s
  let s := if tcScl v then s.putScl core tile (scaleAt v m (16 * i)) false [BitVec.ofNat 8 e] else s
  if zero then cols.foldl (fun s x => s.setAcc core acc m (c0 + 16 * i + x) (zeroElem (s.imodeOf core acc))) s else s

/-- After the last step the rest of every row is 0, with tags clear, and its scales 0x7F. -/
def drainTail (s : State) (core tile nc : Nat) : State :=
  let v := s.tcOf core tile
  let used := nc * fmtHalf (tcFmt v) / 2
  (List.range 32).foldl (fun s m =>
    let s := s.putImg core tile (rowBytes v * m + used) (List.replicate (rowBytes v - used) 0) false
    if tcScl v then
      let blocks := (rowBytes v * 2 / fmtHalf (tcFmt v)) / 16
      ((List.range blocks).filter (fun j => decide (nc ≤ 16 * j))).foldl (fun s j =>
        s.putScl core tile (scaleAt v m (16 * j)) false [0x7F]) s
    else s) s

/-- Step i of a TDRAIN. -/
def drainStep (s : State) (core acc tile tv c0 nc : Nat) (scv sat zero pz : Bool) (i : Nat) : State :=
  let s := (List.range 32).foldl (fun s m => drainRow s core acc tile tv c0 scv sat zero pz i m) s
  if 16 * (i + 1) == nc then drainTail s core tile nc else s

/-! ### The queue (R173, R327) -/

/-- %mprog: ACTIVE, STOPPED, DONE, TOTAL. -/
def progWord (active stopped : Bool) (done total : Nat) : Word32 :=
  BitVec.ofNat 32 ((if active then 0x80000000 else 0) + (if stopped then 0x40000000 else 0) + done % 1024 * 1024 + total % 1024)

def State.setMprog (s : State) (core acc : Nat) (v : Word32) : State :=
  let k := s.core core
  s.setCore core { k with mprog := Sp.put 0 k.mprog acc v }

def State.setArr (s : State) (core : Nat) (o : ArrOp) : State :=
  let k := s.core core
  s.setCore core { k with arrayQ := k.arrayQ.map (fun x => if x.id == o.id then o else x) }

/-- The entry that the array works on. -/
def arrHead (s : State) (core : Nat) : Option ArrOp := (s.core core).arrayQ.find? (fun o => ctxRuns s o.ctx)

/-- One step of an entry; the steps of an AZERO and of an AZERO.rel are their whole effect. -/
def arrStep (s : State) (core : Nat) (o : ArrOp) : State :=
  let done (s : State) (wraps : List (Nat × Int)) : State :=
    (s.setArr core { o with done := o.done + 1, wraps := wraps }).setMprog core o.acc (progWord true false (o.done + 1) o.total)
  match o.kind with
  | .azero => done (s.clearAcc core o.acc) o.wraps
  | .arel => done (s.setOwner core (16 + o.acc) none) o.wraps
  | .mma kind a b n p za =>
    let (s, wraps) := mmaStep s core o.acc kind a b n p za o.poison o.done o.wraps
    done s wraps
  | .drain tile tv c0 nc scv sat zero => done (drainStep s core o.acc tile tv c0 nc scv sat zero o.poison o.done) o.wraps

/-- A cycle of one core's array: an entry starts, or takes a step; the last one makes its completion due. -/
def arrCycle (s : State) (core : Nat) : State :=
  match arrHead s core with
  | none => s
  | some o =>
    match o.start with
    | none => (s.setArr core { o with start := some (s.clk.cycle + 1) }).setMprog core o.acc
        (progWord true false o.done o.total)
    | some c =>
      if s.clk.cycle ≤ c then s
      else if o.total ≤ o.done then s.ensureSoon (.arrayOperationComplete core)
      else
        let s := arrStep s core o
        if o.total ≤ o.done + 1 then s.ensureSoon (.arrayOperationComplete core) else s

/-- The cores whose arrays have work. -/
def arrCores (s : State) : List Nat := (s.cores.filter (fun k => !k.2.arrayQ.isEmpty)).map (·.1)

def arrCycles (s : State) : List Nat → State
  | [] => s
  | c :: cs => arrCycles (arrCycle s c) cs

/-- An entry of the array queue is done or abandoned: it protects no tile and owes no flag. -/
def arrEnd (s : State) (core : Nat) (o : ArrOp) : State :=
  let s := s.endTileOp core o.id
  let k := s.core core
  let s := s.setCore core { k with arrayQ := k.arrayQ.filter (fun x => x.id != o.id) }
  s.updWave o.wave (fun w => w.clearFlag o.seq)

/-- A stopped operation of a context on an accumulator is abandoned by a write of 0 to %mprog (R273). -/
def abandonArr (s : State) (core c acc : Nat) : State :=
  match (s.core core).arrayQ.find? (fun o => o.ctx == c && o.acc == acc && o.start.isSome && decide (o.done < o.total)) with
  | some o => arrEnd s core o
  | none => s

/-- IOVF of the elements whose exact sum has left INT32; poison never sets it (R130, R139, R141). -/
def arrStat (s : State) (core : Nat) (o : ArrOp) : Word32 :=
  if o.wraps.any (fun x => x.2 != 0 && !(s.accElem core o.acc (x.1 / 512) (x.1 % 512)).poison) then fIOVF else 0

/-- ARRAY_OPERATION_COMPLETE: ACTIVE 0 and DONE = TOTAL, the flag clears, the next entry starts (R327). -/
def arrComplete (s : State) (core : Nat) : State :=
  match arrHead s core with
  | none => s
  | some o =>
    if o.done < o.total then s
    else
      let s := s.setMprog core o.acc (progWord false false o.total o.total)
      let f := arrStat s core o
      let s := s.updWave o.wave (fun w => if w.ctx == o.ctx then { w with fstat := w.fstat ||| f } else w)
      let s := arrEnd s core o
      match arrHead s core with
      | some n => if n.start.isNone then (s.setArr core { n with start := some s.clk.cycle }).setMprog core n.acc
          (progWord true false n.done n.total) else s
      | none => s

end Sys2Proof.Machine
end

