-- ==== Sys2Proof/Decode.lean ====
section
/-!
DEFINITION. Decoding (R224 to R229, R240 to R242) and encoding. A slot of 16 bytes is read as one 128-bit word,
bit 0 the lowest bit of the first byte. Decoding is total: a word that is no instruction gives its fault (Bad).
The checks of one word are made in the order of R242; those of order 5 are collected as pairs of EXTRA and
subcode, and the least pair decides.
-/

namespace Sys2Proof

/-- The fields of the base word (R226), the extension word, and the last word: the pad of a 96-bit instruction
or EXT2 of a 128-bit one (R229). -/
structure Fields where
  len   : BitVec 2
  op    : BitVec 8
  dist  : BitVec 3
  wait  : BitVec 12
  setf  : BitVec 4
  hold  : BitVec 2
  s     : Bool
  guard : BitVec 5
  gneg  : Bool
  dst   : BitVec 8
  sa    : BitVec 8
  sb    : BitVec 8
  mod   : BitVec 2
  ext   : BitVec 32
  ext2  : BitVec 32
  deriving DecidableEq, Repr

/-- The fields of a slot. A 64-bit instruction has no extension. -/
def Fields.ofWord (w : BitVec 128) : Fields where
  len   := bits w 0 2
  op    := bits w 2 8
  dist  := bits w 10 3
  wait  := bits w 13 12
  setf  := bits w 25 4
  hold  := bits w 29 2
  s     := bit w 31
  guard := bits w 32 5
  gneg  := bit w 37
  dst   := bits w 38 8
  sa    := bits w 46 8
  sb    := bits w 54 8
  mod   := bits w 62 2
  ext   := if bits w 0 2 == 1 then 0 else bits w 64 32
  ext2  := if bits w 0 2 == 1 then 0 else bits w 96 32

/-- The slot that holds the fields. -/
def Fields.word (f : Fields) : BitVec 128 :=
  f.ext2 ++ f.ext ++ f.mod ++ f.sb ++ f.sa ++ f.dst ++ b1 f.gneg ++ f.guard ++ b1 f.s ++ f.hold ++ f.setf ++
  f.wait ++ f.dist ++ f.op ++ f.len

/-- Layout C of the extension (R229). -/
def Fields.sc (f : Fields) : BitVec 8 := bits f.ext 24 8
def Fields.ka (f : Fields) : Bool := bit f.ext 23
def Fields.kb (f : Fields) : Bool := bit f.ext 22
def Fields.kc (f : Fields) : Bool := bit f.ext 21
def Fields.xmod (f : Fields) : BitVec 21 := bits f.ext 0 21
/-- FORMC, bit 0 of the pad word (R229). -/
def Fields.formc (f : Fields) : Bool := bit f.ext2 0
/-- OFF and the 24-bit fields in [61:38] (R236, R237, R267). -/
def Fields.mid24 (f : Fields) : BitVec 24 := f.sb ++ f.sa ++ f.dst
def Fields.ctl (f : Fields) : Ctl := ⟨f.dist, f.wait, f.setf, f.hold, f.guard, f.gneg⟩

/-- A list of failed checks: the lowest bit of the offence and the subcode. -/
abbrev Fails := List (Nat × Nat)

/-- The lowest set bit of a nonzero number. -/
def lowBit : Nat → Nat → Nat
  | 0, _ => 0
  | n + 1, v => if v % 2 == 1 then 0 else lowBit n (v / 2) + 1

/-- Bits at lo that must be zero (subcode 4). -/
def mbz {n : Nat} (v : BitVec n) (lo : Nat) : Fails :=
  if v == 0 then [] else [(lo + lowBit n v.toNat, 4)]

/-- A failed check of subcode 3 or 4 at a bit. -/
def fail3 (bad : Bool) (lo : Nat) : Fails := if bad then [(lo, 3)] else []
def fail4 (bad : Bool) (lo : Nat) : Fails := if bad then [(lo, 4)] else []

/-- GUARD and GNEG (R227, R230, R241). -/
def guardFails (take : Bool) (f : Fields) : Fails :=
  if 24 ≤ f.guard.toNat && f.guard.toNat ≤ 30 || f.guard == 31 && f.gneg then [(32, 3)]
  else if take || f.guard == 31 then []
  else mbz (f.guard ^^^ 31) 32

/-- SETF (R227, R241). -/
def setfFails (flag : Bool) (f : Fields) : Fails :=
  if 12 ≤ f.setf.toNat && f.setf.toNat ≤ 14 then [(25, 3)]
  else if flag || f.setf == 15 then []
  else mbz (f.setf ^^^ 15) 25

/-- The order-5 and order-6 checks of one instruction, and the instruction they leave. -/
structure Entry where
  f5  : Fails
  f6  : List (Bool × Nat)
  ins : Instr

/-- A register field of a class at bit lo, in the form. -/
def rchk (c : RegClass) (s : Bool) (n : BitVec 8) (lo : Nat) : Bool × Nat := ((c.inForm s).ok n, lo)

def iTypeOf (v : BitVec 3) : IType :=
  match v.toNat with
  | 1 => .i32 | 2 => .n8 | 3 => .i8 | 4 => .n16 | 5 => .i16 | _ => .n32
def IType.code : IType → BitVec 3
  | .n32 => 0 | .i32 => 1 | .n8 => 2 | .i8 => 3 | .n16 => 4 | .i16 => 5
def iCondOf (v : BitVec 3) : ICond :=
  match v.toNat with
  | 1 => .ne | 2 => .lt | 3 => .le | 4 => .gt | 5 => .ge | _ => .eq
def ICond.code : ICond → BitVec 3
  | .eq => 0 | .ne => 1 | .lt => 2 | .le => 3 | .gt => 4 | .ge => 5
def fCondOf (v : BitVec 3) : FCond :=
  match v.toNat with
  | 1 => .ne | 2 => .lt | 3 => .le | 4 => .gt | 5 => .ge | 6 => .un | 7 => .ord | _ => .eq
def FCond.code : FCond → BitVec 3
  | .eq => 0 | .ne => 1 | .lt => 2 | .le => 3 | .gt => 4 | .ge => 5 | .un => 6 | .ord => 7
def rndOf (v : BitVec 2) : Rnd :=
  match v.toNat with
  | 1 => .rz | 2 => .ru | 3 => .rd | _ => .rn
def Rnd.code : Rnd → BitVec 2
  | .rn => 0 | .rz => 1 | .ru => 2 | .rd => 3
def fFmtOf (v : BitVec 3) : FFmt :=
  match v.toNat with
  | 1 => .bf16 | 2 => .f16 | 3 => .e4m3 | 4 => .e5m2 | 5 => .e2m1 | _ => .f32
def FFmt.code : FFmt → BitVec 3
  | .f32 => 0 | .bf16 => 1 | .f16 => 2 | .e4m3 => 3 | .e5m2 => 4 | .e2m1 => 5
def redOpOf (v : BitVec 3) : RedOp :=
  match v.toNat with
  | 1 => .min | 2 => .max | 3 => .and | 4 => .or | 5 => .xor | 6 => .fadd | _ => .add
def RedOp.code : RedOp → BitVec 3
  | .add => 0 | .min => 1 | .max => 2 | .and => 3 | .or => 4 | .xor => 5 | .fadd => 6
def cOpOf (v : BitVec 3) : COp :=
  match v.toNat with
  | 1 => .badd | 2 => .add | 3 => .min | 4 => .max | 5 => .and | 6 => .or | _ => .fadd
def COp.code : COp → BitVec 3
  | .fadd => 0 | .badd => 1 | .add => 2 | .min => 3 | .max => 4 | .and => 5 | .or => 6
def aOpOf (v : BitVec 3) : AOp :=
  match v.toNat with
  | 1 => .add | 2 => .min | 3 => .max | 4 => .and | 5 => .or | 6 => .xor | 7 => .fadd | _ => .xchg
def AOp.code : AOp → BitVec 3
  | .xchg => 0 | .add => 1 | .min => 2 | .max => 3 | .and => 4 | .or => 5 | .xor => 6 | .fadd => 7
def mSizeOf (v : BitVec 3) : MSize :=
  match v.toNat with
  | 0 => .n8 | 1 => .i8 | 2 => .n16 | 3 => .i16 | 5 => .n64 | 6 => .n128 | _ => .n32
def MSize.code : MSize → BitVec 3
  | .n8 => 0 | .i8 => 1 | .n16 => 2 | .i16 => 3 | .n32 => 4 | .n64 => 5 | .n128 => 6
def voteModeOf (v : BitVec 2) : VoteMode :=
  match v.toNat with
  | 1 => .all | 2 => .ballot | _ => .any
def VoteMode.code : VoteMode → BitVec 2
  | .any => 0 | .all => 1 | .ballot => 2
def shflModeOf (v : BitVec 2) : ShflMode :=
  match v.toNat with
  | 1 => .up | 2 => .down | 3 => .xor | _ => .idx
def ShflMode.code : ShflMode → BitVec 2
  | .idx => 0 | .up => 1 | .down => 2 | .xor => 3

/-- A source register with its kind bit. -/
def srcK (k : Bool) (n : BitVec 8) : Src := if k then .sca n else .reg n

/-- The register field and kind bit of a source. -/
def Src.num : Src → BitVec 8
  | .reg n | .sca n => n
  | .imm _ => 0
def Src.isSca : Src → Bool
  | .sca _ => true
  | _ => false
def Src.immVal : Src → BitVec 32
  | .imm v => v
  | _ => 0

/-- The check of a source register in layout C: a kind bit makes it scalar, and is refused in S form and on an
operand of another file (R229). -/
def srcFails (c : RegClass) (s k : Bool) (bitNo : Nat) : Fails := fail4 (k && (s || !(c == .v || c == .w))) bitNo
def srcReg (c : RegClass) (s k : Bool) (n : BitVec 8) (lo : Nat) : Bool × Nat :=
  ((if k then c.scalar else c.inForm s).ok n, lo)

/-- Which of the three forms a word has (R224, R229): I and C are told apart by FORMC where both exist. -/
def formOf (h : Shape) (f : Fields) : Option Form :=
  if f.len == 1 then (if h.r then some .r else none)
  else if f.len == 2 then
    (if h.i && h.c then some (if f.formc then .c else .i)
     else if h.i then some .i else if h.c then some .c else none)
  else none

/-- The pad word of a 96-bit instruction (R224, R241 subcode 7). -/
def padFails (both : Bool) (f : Fields) : Fails :=
  if f.len != 2 then []
  else
    let p := if both then f.ext2 &&& 0xFFFFFFFE else f.ext2
    if p == 0 then [] else [(96 + lowBit 32 p.toNat, 7)]

/-- The control byte of R244 at bit lo. cmp says whether COND is used, and how many of its codes exist; with 0 the entry assigns none
of the byte's fields: they must be zero (R227), and SAT may not be given (R245), but form C has no such byte (R253). -/
def cbFails (h : Shape) (form : Form) (cmp : Option Nat) (cb : BitVec 8) (lo : Nat) : Fails :=
  if cmp == some 0 then (if form == .c then mbz cb lo
    else mbz (bits cb 0 6) lo ++ fail3 (bit cb 6) (lo + 6) ++ mbz (bits cb 7 1) (lo + 7)) else
  mbz (bits cb 7 1) (lo + 7) ++ fail3 (bit cb 6 && !h.sat) (lo + 6) ++
  (match cmp with
   | some n => fail3 (decide (n ≤ (bits cb 3 3).toNat)) (lo + 3)
   | none => mbz (bits cb 3 3) (lo + 3)) ++
  fail3 (decide (6 ≤ (bits cb 0 3).toNat) || !h.ty.has form (iTypeOf (bits cb 0 3))) lo

/-- What decoding a word of the R248 and R253 tables gives. -/
structure Arith where
  form : Form
  a    : Src
  b    : Src
  c    : Src
  cb   : BitVec 8
  f5   : Fails
  f6   : List (Bool × Nat)

/-- The common decoding of the tables of R248 and R253, for the form found. xlo is the lowest XMOD bit that must
be zero in form C (8 where CB stands there); cmp as in cbFails. -/
def arithOf (h : Shape) (form : Form) (cmp : Option Nat) (f : Fields) : Arith :=
  let s := f.s
  let c' := form == .c
  let a : Src := srcK (c' && f.ka) f.sa
  let b : Src := srcK (c' && f.kb) f.sb
  let c : Src := srcK (c' && f.kc) f.sc
  let im : Src := .imm f.ext
  let kinds := if c' then srcFails h.ka s f.ka 87 ++ (if 2 ≤ h.srcs then srcFails h.kb s f.kb 86 else fail4 f.kb 86) ++
    (if 3 ≤ h.srcs then srcFails h.kc s f.kc 85 else fail4 f.kc 85) else []
  let cb : BitVec 8 := if c' then bits f.ext 0 8 else if form == .i && h.srcs == 2 then f.sb else 0
  let cbF := if c' then cbFails h form cmp cb 64 ++ mbz (bits f.ext 8 13) 72
    else if form == .i && h.srcs == 2 then cbFails h form cmp cb 54 else []
  let sa6 := [srcReg h.ka s (c' && f.ka) f.sa 46]
  let dst6 := [(h.dstOk s f.dst, 38)]
  let sb6 := [srcReg h.kb s (c' && f.kb) f.sb 54]
  let sc6 := [srcReg h.kc s (c' && f.kc) f.sc 88]
  let hv (x : Src) := x.canHold s
  let hold (x y z : Bool) := fail3 (!f.ctl.holdOk x y z) 29
  let zc := if c' then mbz f.sc 88 else []
  match h.srcs, form with
  | 1, _ => ⟨form, a, .none, .none, cb, kinds ++ cbF ++ mbz f.sb 54 ++ zc ++ hold (hv a) false false, dst6 ++ sa6⟩
  | 2, .i => ⟨form, a, im, .none, cb, kinds ++ cbF ++ hold (hv a) false false, dst6 ++ sa6⟩
  | 2, _ => ⟨form, a, b, .none, cb, kinds ++ cbF ++ zc ++ hold (hv a) (hv b) false, dst6 ++ sa6 ++ sb6⟩
  | _, .i => ⟨form, a, b, im, cb, kinds ++ cbF ++ hold (hv a) (hv b) false, dst6 ++ sa6 ++ sb6⟩
  | _, _ => ⟨form, a, b, c, cb, kinds ++ cbF ++ hold (hv a) (hv b) (hv c),
      dst6 ++ sa6 ++ sb6 ++ sc6⟩

/-- The fixed checks of every instruction of the two tables. -/
def arithCommon (h : Shape) (f : Fields) : Fails := guardFails true f ++ setfFails true f ++ padFails (h.i && h.c) f

/-- An integer instruction: modBad says which MOD values the entry refuses in the form. -/
def intEntry (h : Shape) (dflt : IType) (modBad : Form → Bool) (mk : Alu → Instr) (f : Fields) : Option Entry :=
  (formOf h f).map fun form =>
    let x := arithOf h form none f
    let ty : IType := match form with
      | .r => if h.sgn then (if bit f.mod 0 then .i32 else .n32) else dflt
      | .i => if h.srcs == 3 then .n32 else iTypeOf (bits x.cb 0 3)
      | .c => iTypeOf (bits x.cb 0 3)
    ⟨arithCommon h f ++ x.f5 ++ fail3 (modBad form) 62, x.f6,
     mk ⟨f.ctl, f.s, form, f.dst, x.a, x.b, x.c, ty, bit x.cb 6⟩⟩

/-- A floating-point instruction; rnds says whether MOD is RND. -/
def fltEntry (h : Shape) (rnds : Bool) (mk : Flt → Instr) (f : Fields) : Option Entry :=
  (formOf h f).map fun form =>
    let x := arithOf h form (some 0) f
    ⟨arithCommon h f ++ x.f5 ++ fail3 (!rnds && f.mod != 0) 62, x.f6,
     mk ⟨f.ctl, f.s, form, f.dst, x.a, x.b, x.c, if rnds then rndOf f.mod else .rn⟩⟩

/-- A compare: COND in the control byte (R252, R255). -/
def icmpEntry (f : Fields) : Option Entry :=
  (formOf .icmp f).map fun form =>
    let x := arithOf .icmp form (some 6) f
    ⟨arithCommon .icmp f ++ x.f5 ++ fail3 (f.mod != 0) 62, x.f6,
     .icmp (iCondOf (bits x.cb 3 3)) ⟨f.ctl, f.s, form, f.dst, x.a, x.b, x.c, iTypeOf (bits x.cb 0 3), false⟩⟩
def fcmpEntry (f : Fields) : Option Entry :=
  (formOf .fcmp f).map fun form =>
    let x := arithOf .fcmp form (some 8) f
    ⟨arithCommon .fcmp f ++ x.f5 ++ fail3 (f.mod != 0) 62, x.f6,
     .fcmp (fCondOf (bits x.cb 3 3)) ⟨f.ctl, f.s, form, f.dst, x.a, x.b, x.c, .rn⟩⟩

/-- A conversion of one source in form R, whose SB field holds controls: sb5 are their checks. -/
def cvtEntry (sb5 : Fails) (rnds : Bool) (mk : Flt → Instr) (f : Fields) : Option Entry :=
  if f.len != 1 then none else
  some ⟨guardFails true f ++ setfFails true f ++ sb5 ++ fail3 (!rnds && f.mod != 0) 62 ++
      fail3 (!f.ctl.holdOk (!f.s) false false) 29,
    [rchk .v f.s f.dst 38, rchk .v f.s f.sa 46],
    mk ⟨f.ctl, f.s, .r, f.dst, .reg f.sa, .none, .none, if rnds then rndOf f.mod else .rn⟩⟩

/-- FCVTP (R258, R259). -/
def fcvtpEntry (f : Fields) : Option Entry :=
  if f.len != 2 then none else
  let d := fFmtOf (bits f.ext 0 3)
  let j : BitVec 2 := bits f.ext 8 2
  some ⟨guardFails true f ++ setfFails true f ++ padFails false f ++
      fail3 (decide (6 ≤ (bits f.ext 0 3).toNat) || d == .f32) 64 ++ mbz (bits f.ext 3 3) 67 ++
      fail3 (bit f.ext 6 && !d.satOk) 70 ++ mbz (bits f.ext 7 1) 71 ++
      fail3 (d != .f32 && !withinLast d.lastPair j.toNat) 72 ++ mbz (bits f.ext 10 11) 74 ++
      srcFails .v f.s f.ka 87 ++ srcFails .v f.s f.kb 86 ++ fail4 f.kc 85 ++ mbz f.sc 88 ++
      fail3 (!f.ctl.holdOk (!f.s && !f.ka) (!f.s && !f.kb) false) 29,
    [rchk .v f.s f.dst 38, srcReg .v f.s f.ka f.sa 46, srcReg .v f.s f.kb f.sb 54],
    .fcvtp d (bit f.ext 6) j ⟨f.ctl, f.s, .c, f.dst, srcK f.ka f.sa, srcK f.kb f.sb, .none, rndOf f.mod⟩⟩

/-- SEL (R248, R251). -/
def selEntry (f : Fields) : Option Entry :=
  if f.len != 2 then none else
  let w := bit f.mod 0
  let k : RegClass := if w then .w else .v
  some ⟨guardFails true f ++ setfFails true f ++ padFails false f ++ fail3 (bit f.mod 1) 62 ++
      srcFails k f.s f.ka 87 ++ srcFails k f.s f.kb 86 ++ fail4 f.kc 85 ++
      cbFails (.sel w) .c none (bits f.ext 0 8) 64 ++ mbz (bits f.ext 8 13) 72 ++
      fail3 (!f.ctl.holdOk (!f.s && !f.ka) (!f.s && !f.kb) (!f.s)) 29,
    [rchk k f.s f.dst 38, srcReg k f.s f.ka f.sa 46, srcReg k f.s f.kb f.sb 54, (selSrcOk f.s (.reg f.sc), 88)],
    .sel w ⟨f.ctl, f.s, .c, f.dst, srcK f.ka f.sa, srcK f.kb f.sb, .reg f.sc, .n32, false⟩⟩

/-- MOVI (R251). -/
def moviEntry (f : Fields) : Option Entry :=
  if f.len == 1 then none else
  let v : MoviVal := if f.len == 3 then .pair f.ext f.ext2 else
    match f.mod.toNat with | 0 => .word f.ext | 1 => .sext f.ext | _ => .zext f.ext
  some ⟨guardFails true f ++ setfFails true f ++ padFails false f ++ mbz f.sa 46 ++ mbz f.sb 54 ++
      fail3 ((f.mod == 3) != (f.len == 3)) 62 ++ fail3 (f.hold != 0) 29,
    [rchk (if f.len == 2 && f.mod == 0 then .v else .w) f.s f.dst 38], .movi f.ctl f.s f.dst v⟩

/-- What the many entries with fields of their own share: the lengths and S values that exist, whether a guard is
taken, the latches HOLD may fill. -/
def plainEntry (lenOk sOk : Bool) (take : Bool) (holdA holdB : Bool) (f5 : Fails) (f6 : List (Bool × Nat)) (ins : Instr)
    (f : Fields) : Option Entry :=
  if lenOk && sOk then
    some ⟨guardFails take f ++ setfFails true f ++ padFails false f ++ fail3 (!f.ctl.holdOk holdA holdB false) 29 ++ f5, f6, ins⟩
  else none

def is64 (f : Fields) : Bool := f.len == 1
def is96 (f : Fields) : Bool := f.len == 2
def is128 (f : Fields) : Bool := f.len == 3
/-- MOD must be 00 (R227). -/
def mod0 (f : Fields) : Fails := fail3 (f.mod != 0) 62
/-- MOD is one bit. -/
def mod01 (f : Fields) : Fails := fail3 (bit f.mod 1) 62

/-- Predicate instructions (R260). -/
def prdEntry (two : Bool) (mk : Prd → Instr) (f : Fields) : Option Entry :=
  plainEntry (is64 f) (!f.s) true true two (if two then [] else mod0 f ++ mbz f.sb 54)
    ([rchk .p false f.dst 38, rchk .p false f.sa 46] ++ (if two then [rchk .p false f.sb 54] else []))
    (mk ⟨f.ctl, f.dst, f.sa, f.sb, two && bit f.mod 0, two && bit f.mod 1⟩) f

/-- The moulded memory instructions (R285); dst6 is the check of DST. -/
def memEntry (f5 : Fails) (dst6 : List (Bool × Nat)) (mk : Mem → Instr) (f : Fields) : Option Entry :=
  plainEntry (is64 f || is96 f) true true (!f.s) false (mod0 f ++ mbz (bits f.sb 3 5) 57 ++ f5)
    (dst6 ++ [rchk .w f.s f.sa 46]) (mk ⟨f.ctl, f.s, is96 f, f.dst, f.sa, f.ext⟩) f
def ldstEntry (mk : MSize → Mem → Instr) (f : Fields) : Option Entry :=
  let z := mSizeOf (bits f.sb 0 3)
  memEntry (fail3 (bits f.sb 0 3 == 7) 54) [(z.regOk f.s f.dst, 38)] (mk z) f

/-- ATOM and CAS (R290). -/
def atmEntry (isCas : Bool) (f : Fields) : Option Entry :=
  let wide := bit f.ext 3
  let k : RegClass := if wide then .w else .v
  let nr := !isCas && bit f.ext 6
  let op := aOpOf (bits f.ext 0 3)
  let sgn := bit f.ext 5
  let o : Atm := ⟨f.ctl, f.s, f.dst, f.sa, srcK f.kb f.sb, if isCas then srcK f.kc f.sc else .none, wide⟩
  plainEntry (is96 f) true true (!f.s) (!f.s && !f.kb) 
    (mod0 f ++ mbz (bits f.ext 7 14) 71 ++ fail3 (bit f.ext 4) 67 ++ fail4 f.ka 87 ++ fail4 (f.kb && f.s) 86 ++
      (if isCas then fail3 (bits f.ext 0 3 != 0) 64 ++ mbz (bits f.ext 5 2) 69 ++ fail4 (f.kc && f.s) 85
       else fail3 (op == .fadd && wide) 64 ++ fail4 (sgn && !op.sgnOk) 69 ++ fail4 f.kc 85 ++ mbz f.sc 88 ++
         (if nr then mbz f.dst 38 else [])))
    ((if nr then [] else [rchk k f.s f.dst 38]) ++ [rchk .w f.s f.sa 46, srcReg k f.s f.kb f.sb 54] ++
      (if isCas then [srcReg k f.s f.kc f.sc 88] else []))
    (if isCas then .cas o else .atom op sgn nr o) f

/-- HOLD C of a CAS (R235): checked beside the others, because only CAS has a vector source C. -/
def casEntry (f : Fields) : Option Entry :=
  (atmEntry true { f with hold := if f.hold == 3 && !f.s && !f.kc then 0 else f.hold }).map fun e =>
    match e.ins with
    | .cas o => ⟨e.f5, e.f6, .cas { o with ctl := f.ctl }⟩
    | _ => e

/-- BARV and BDROP (R299). -/
def arrEntry (mk : Arr → Instr) (f : Fields) : Option Entry :=
  plainEntry (is64 f || is96 f) f.s true false false (mod01 f ++ mbz f.dst 38 ++ (if f.mod == 0 then mbz f.sb 54 else []))
    ([rchk .x true f.sa 46] ++ (if bit f.mod 0 then [rchk .s true f.sb 54] else []))
    (mk ⟨f.ctl, is96 f, f.sa, f.ext, if bit f.mod 0 then some f.sb else none⟩) f

/-- The MMAs (R328). -/
def mmaEntry (bp : Bool) (mk : Mma → Instr) (f : Fields) : Option Entry :=
  plainEntry (is96 f) f.s false false false
    (mod0 f ++ fail4 f.ka 87 ++ fail4 f.kb 86 ++ fail4 f.kc 85 ++ mbz (bits f.ext 7 14) 71 ++
      (if bp then [] else mbz (bits f.ext 1 6) 65))
    [rchk .a true f.dst 38, rchk .t true f.sa 46, rchk .t true f.sb 54, rchk .s true f.sc 88]
    (mk ⟨f.ctl, f.dst, f.sa, f.sb, f.sc, bit f.ext 0, bits f.ext 1 6⟩) f

/-- TDRAIN (R328). -/
def drnEntry (f : Fields) : Option Entry :=
  let scv := bit f.ext 0
  let ncv := bit f.ext 1
  plainEntry (is96 f) f.s false false false
    (mod0 f ++ fail4 f.ka 87 ++ fail4 f.kb 86 ++ fail4 f.kc 85 ++ mbz (bits f.ext 10 11) 74 ++
      (if scv then [] else mbz f.sb 54) ++ (if ncv then [] else mbz f.sc 88))
    ([rchk .t true f.dst 38, rchk .a true f.sa 46] ++ (if scv then [rchk .t true f.sb 54] else []) ++
      (if ncv then [rchk .s true f.sc 88] else []))
    (.tdrain ⟨f.ctl, f.dst, f.sa, f.sb, f.sc, scv, ncv, bit f.ext 2, bit f.ext 3, bit f.ext 4, bits f.ext 5 5⟩) f

/-- TLD and TST (R328, R339). -/
def tmovEntry (st : Bool) (f : Fields) : Option Entry :=
  let sc := bit f.mod 1
  let str := bit f.mod 0
  let m : TMov := if sc then (if bit f.sb 0 && !st then .mxScales else .scales) else if str then .strided f.sb else .data
  plainEntry (is64 f) f.s false false false
    (fail3 (sc && str) 62 ++
      (if sc then mbz (bits f.sb 1 7) 55 ++ fail3 (st && bit f.sb 0) 54 else if str then [] else mbz f.sb 54))
    ([rchk .t true f.dst 38, rchk .x true f.sa 46] ++ (if !sc && str then [rchk .s true f.sb 54] else []))
    (if st then .tst f.ctl f.dst f.sa m else .tld f.ctl f.dst f.sa m) f

/-- The context instructions of 64 bits (R279): dst and the target are scalar registers, third as given. -/
def ctxEntry (third : Option RegClass) (target : Bool) (dk : RegClass) (ins : Instr) (f : Fields) : Option Entry :=
  plainEntry (is64 f) f.s false false false
    (mod0 f ++ (if third.isNone then mbz f.sb 54 else []))
    ([rchk dk true f.dst 38] ++ [rchk (if target then .s else .x) true f.sa 46] ++
      (match third with | some c => [rchk c true f.sb 54] | none => [])) ins f
/-- CTXPEEK and CTXPOKE. -/
def peekEntry (ins : Instr) (f : Fields) : Option Entry :=
  plainEntry (is96 f) f.s false false false (mod0 f)
    [rchk .s true f.dst 38, rchk .s true f.sa 46, rchk .x true f.sb 54] ins f

/-- TLBINV (R39): GUARD, SETF and S are fixed. -/
def tlbEntry (f : Fields) : Option Entry :=
  if !(is96 f && f.s) then none else
  some ⟨guardFails false f ++ setfFails false f ++ padFails false f ++ fail3 (f.hold != 0) 29 ++ mbz f.dst 38 ++
      fail3 (f.mod == 3) 62 ++ (if f.mod == 0 then mbz (bits f.ext 16 16) 80 else mbz f.ext 64) ++
      (if f.mod == 1 then mbz f.sa 46 else []),
    (if f.mod == 0 then [rchk .x true f.sa 46] else if f.mod == 2 then [rchk .s true f.sa 46] else []) ++ [rchk .x true f.sb 54],
    match f.mod.toNat with
    | 0 => .tlbinvPage f.ctl f.sa f.sb (bits f.ext 0 16)
    | 1 => .tlbinvCtx f.ctl f.sb
    | _ => .tlbinvChild f.ctl f.sa f.sb⟩

/-- An entry that fixes guard, flag and every operand field but [61:38] (R237). -/
def trampEntry (mk : Ctl → BitVec 24 → Instr) (f : Fields) : Option Entry :=
  if !(is64 f && !f.s) then none else
  some ⟨guardFails false f ++ setfFails false f ++ fail3 (f.hold != 0) 29 ++ mod0 f, [], mk f.ctl f.mid24⟩

/-- REP (R238): DIST and WAIT are fixed at 0 as well. -/
def repEntry (f : Fields) : Option Entry :=
  if !(is64 f && !f.s) then none else
  some ⟨guardFails false f ++ setfFails false f ++ fail3 (f.hold != 0) 29 ++ mod0 f ++ mbz f.dist 10 ++ mbz f.wait 13 ++
      mbz (bits f.mid24 15 9) 53, [],
    .rep (bits f.mid24 0 6) (bits f.mid24 6 3) (bits f.mid24 9 3) (bits f.mid24 12 3)⟩

/-- BRA and CALL (R236). -/
def braEntry (take : Bool) (mk : Ctl → Bool → BitVec 32 → Instr) (f : Fields) : Option Entry :=
  plainEntry (is64 f || is96 f) (!f.s) take false false
    (mod0 f ++ (if is96 f then mbz f.mid24 38 else mbz (bits f.mid24 20 4) 58))
    [] (mk f.ctl (is96 f) (if is96 f then f.ext else (bits f.mid24 0 20).signExtend 32)) f

/-- BRX, CALLX and RET (R262, R265). -/
def brxEntry (take : Bool) (mk : Ctl → Bool → BitVec 8 → Instr) (f : Fields) : Option Entry :=
  plainEntry (is64 f) true take (!f.s) false (mod0 f ++ mbz f.dst 38 ++ mbz f.sb 54) [rchk .w f.s f.sa 46] (mk f.ctl f.s f.sa) f

/-- An instruction without operands (R262). -/
def bareEntry (sWant take : Bool) (ins : Instr) (f : Fields) : Option Entry :=
  plainEntry (is64 f) (f.s == sWant) take false false (mod0 f ++ mbz f.dst 38 ++ mbz f.sa 46 ++ mbz f.sb 54) [] ins f

/-- An S-form instruction whose only operand is a pointer in SA. -/
def ptrEntry (mk : Ctl → BitVec 8 → Instr) (f : Fields) : Option Entry :=
  plainEntry (is64 f) f.s false false false (mod0 f ++ mbz f.dst 38 ++ mbz f.sb 54) [rchk .x true f.sa 46] (mk f.ctl f.sa) f

/-- The entry of an integer or address opcode, 0x00 to 0x21 (R240, R248). -/
def decodeInt (f : Fields) : Option Entry :=
  let m0 (_ : Form) : Bool := f.mod != 0
  let sgn (form : Form) : Bool := if form == .r then bit f.mod 1 else f.mod != 0
  let one (_ : Form) : Bool := bit f.mod 1
  match f.op.toNat with
  | 0x00 => intEntry .arith .n32 m0 .iadd f
  | 0x01 => intEntry .arith .n32 m0 .isub f
  | 0x02 => intEntry .arith .n32 m0 .imul f
  | 0x03 => intEntry .wordSgn .n32 sgn .imulh f
  | 0x04 => intEntry .word3 .n32 m0 .imad f
  | 0x05 => intEntry .madw .n32 m0 .imadw f
  | 0x06 => intEntry .wide2 .n32 m0 .iaddw f
  | 0x07 => intEntry .wide2 .n32 m0 .isubw f
  | 0x08 => intEntry .unSat .n32 m0 .ineg f
  | 0x09 => intEntry .unSat .i32 m0 .iabs f
  | 0x0A => intEntry .minmax .n32 sgn .imin f
  | 0x0B => intEntry .minmax .n32 sgn .imax f
  | 0x0C => intEntry .word2 .n32 m0 .band f
  | 0x0D => intEntry .word2 .n32 m0 .bor f
  | 0x0E => intEntry .word2 .n32 m0 .bxor f
  | 0x0F => intEntry .word2 .n32 m0 .bandn f
  | 0x10 => intEntry .un .n32 m0 .bnot f
  | 0x11 => intEntry .word2 .n32 m0 .shl f
  | 0x12 => intEntry .word2 .n32 m0 .shr f
  | 0x13 => intEntry .word2 .n32 m0 .sar f
  | 0x14 => intEntry .shiftW .n32 m0 .shlw f
  | 0x15 => intEntry .shiftW .n32 one (.shrw (bit f.mod 0)) f
  | 0x16 => intEntry .wordSgn .n32 sgn .bfx f
  | 0x17 => intEntry .word3 .n32 m0 .bfi f
  | 0x18 => intEntry .un .n32 m0 .popc f
  | 0x19 => intEntry .un .n32 m0 .clz f
  | 0x1A => intEntry .un .n32 m0 .ctz f
  | 0x1B => intEntry .un .n32 m0 .brev f
  | 0x1C => intEntry .word3 .n32 m0 .permb f
  | 0x1D => icmpEntry f
  | 0x1E => selEntry f
  | 0x1F => intEntry (.mov (bit f.mod 0)) .n32 one (.mov (bit f.mod 0)) f
  | 0x20 => moviEntry f
  | 0x21 => intEntry (.lea (if is96 f && !f.formc then .i else .r)) .n32 (fun _ => false) (.lea f.mod) f
  | _ => none

/-- The entry of a floating-point or conversion opcode, 0x40 to 0x58 (R240, R253, R258). -/
def decodeFlt (f : Fields) : Option Entry :=
  let sf := fFmtOf (bits f.sb 3 3)
  let d := fFmtOf (bits f.sb 0 3)
  let lo := fFmtOf (bits f.sb 0 3)
  let bad3 (v : BitVec 3) : Bool := decide (6 ≤ v.toNat)
  match f.op.toNat with
  | 0x40 => fltEntry .flt2 true .fadd f
  | 0x41 => fltEntry .flt2 true .fsub f
  | 0x42 => fltEntry .flt2 true .fmul f
  | 0x43 => fltEntry .flt3 true .ffma f
  | 0x44 => fltEntry .flt2 false .fmin f
  | 0x45 => fltEntry .flt2 false .fmax f
  | 0x46 => fcmpEntry f
  | 0x47 => fltEntry .flt1 false .fclass f
  | 0x48 => fltEntry .flt1 false .frcp f
  | 0x49 => fltEntry .flt1 false .frsq f
  | 0x4A => fltEntry .flt1 false .fsqrt f
  | 0x4B => fltEntry .flt1 false .fexp2 f
  | 0x4C => fltEntry .flt1 false .flog2 f
  | 0x4D => fltEntry .flt1 false .fsin f
  | 0x4E => fltEntry .flt1 false .fcos f
  | 0x4F => fltEntry .flt1 true .frnd f
  | 0x50 => fltEntry .flt2 false .badd2 f
  | 0x51 => fltEntry .flt2 false .bmul2 f
  | 0x52 => fltEntry .flt3 false .bfma2 f
  | 0x53 => fltEntry .flt3 false .hfma2 f
  | 0x54 => cvtEntry (fail3 (bad3 (bits f.sb 0 3)) 54 ++ fail3 (bad3 (bits f.sb 3 3)) 57 ++
      fail3 (bit f.sb 6 && !d.satOk) 60 ++ mbz (bits f.sb 7 1) 61) true (.fcvt d sf (bit f.sb 6)) f
  | 0x55 => fcvtpEntry f
  | 0x56 => cvtEntry (fail3 (bad3 (bits f.sb 0 3) || lo == .f32) 54 ++
      fail3 (lo != .f32 && !withinLast lo.lastElem (bits f.sb 3 3).toNat) 57 ++ mbz (bits f.sb 6 2) 60)
      false (.fcvtx lo (bits f.sb 3 3)) f
  | 0x57 => cvtEntry (fail3 (bad3 (bits f.sb 0 3)) 54 ++ mbz (bits f.sb 3 5) 57) true (.i2f (iTypeOf (bits f.sb 0 3))) f
  | 0x58 => cvtEntry (fail3 (bad3 (bits f.sb 0 3)) 54 ++ mbz (bits f.sb 3 5) 57) true (.f2i (iTypeOf (bits f.sb 0 3))) f
  | _ => none

/-- The entry of a predicate or wave opcode, 0x70 to 0x7F (R240, R260, R262). -/
def decodeWave (f : Fields) : Option Entry :=
  let ds := bit f.sb 0
  let bdsC := bit f.ext 0
  match f.op.toNat with
  | 0x70 => prdEntry true .pand f
  | 0x71 => prdEntry true .por f
  | 0x72 => prdEntry true .pxor f
  | 0x73 => prdEntry false .pnot f
  | 0x74 => prdEntry false .pmov f
  | 0x75 => plainEntry (is64 f) (!f.s) true false false (mod0 f ++ mbz f.sa 46 ++ mbz f.sb 54) [] (.p2v f.ctl f.dst) f
  | 0x76 => plainEntry (is96 f) (!f.s) true true false (mod0 f ++ mbz f.dst 38 ++ mbz f.sb 54 ++ mbz (bits f.ext 24 8) 88) []
      (.v2p f.ctl f.sa (bits f.ext 0 24)) f
  | 0x77 => plainEntry (is64 f) f.s false false false (mod0 f ++ mbz f.sa 46 ++ mbz f.sb 54) [rchk .s true f.dst 38]
      (.split f.ctl f.dst) f
  | 0x78 => plainEntry (is64 f) f.s false false false (mod0 f ++ (if f.sb == 0 then mbz f.sa 46 else []))
      [rchk .s true f.dst 38, (decide (f.sa.toNat + f.sb.toNat ≤ 64) && RegClass.ok .s f.sa, 46)] (.fuse f.ctl f.dst f.sa f.sb) f
  | 0x79 => plainEntry (is64 f) (!f.s) true true false (fail3 (f.mod == 3) 62 ++ mbz (bits f.sb 1 7) 55)
      [(if f.mod == 2 then (if ds then RegClass.ok .x f.dst else RegClass.ok .w f.dst)
        else (if ds then RegClass.ok .s f.dst else RegClass.ok .p f.dst), 38), rchk .p false f.sa 46]
      (.vote f.ctl (voteModeOf f.mod) ds f.dst f.sa) f
  | 0x7A => plainEntry (is64 f || is96 f) (!f.s) true true (is64 f) (if is96 f then mbz f.sb 54 else []) []
      (.shfl f.ctl (shflModeOf f.mod) f.dst f.sa (if is96 f then .imm f.ext else .reg f.sb)) f
  | 0x7B => plainEntry (is64 f) (!f.s) true true false (mod0 f ++ mbz (bits f.sb 5 3) 59 ++ fail3 (bits f.sb 0 3 == 7) 54 ++
        fail4 (bit f.sb 3 && bits f.sb 0 3 != 7 && !(redOpOf (bits f.sb 0 3)).sgnOk) 57)
      [((if bit f.sb 4 then RegClass.ok .s f.dst else true), 38)]
      (.wred f.ctl (redOpOf (bits f.sb 0 3)) (bit f.sb 3) (bit f.sb 4) f.dst f.sa) f
  | 0x7C => plainEntry (is64 f) (!f.s) true true false (mod0 f ++ mbz (bits f.sb 5 3) 59 ++ fail3 (bits f.sb 0 3 == 7) 54 ++
        fail4 (bit f.sb 3 && bits f.sb 0 3 != 7 && !(redOpOf (bits f.sb 0 3)).sgnOk) 57) []
      (.wscan f.ctl (redOpOf (bits f.sb 0 3)) (bit f.sb 3) (bit f.sb 4) f.dst f.sa) f
  | 0x7D =>
    if !(is96 f && !f.s) then none
    else if f.formc then
      some ⟨guardFails true f ++ setfFails true f ++ padFails true f ++ fail3 (!f.ctl.holdOk true false false) 29 ++ mod0 f ++
          fail4 f.ka 87 ++ fail4 (!f.kb) 86 ++ fail4 f.kc 85 ++ mbz f.sc 88 ++ mbz (bits f.ext 1 20) 65,
        [((if bdsC then RegClass.ok .s f.dst else true), 38), rchk .s true f.sb 54],
        .bcast f.ctl bdsC f.dst f.sa (.sca f.sb)⟩
    else
      some ⟨guardFails true f ++ setfFails true f ++ padFails true f ++ fail3 (!f.ctl.holdOk true false false) 29 ++ mod0 f ++
          mbz (bits f.sb 1 7) 55,
        [((if ds then RegClass.ok .s f.dst else true), 38)], .bcast f.ctl ds f.dst f.sa (.imm f.ext)⟩
  | 0x7E => plainEntry (is64 f || is96 f) f.s false false false
      (mod0 f ++ mbz f.dst 38 ++ mbz f.sb 54 ++ (if is96 f then mbz f.sa 46 else []))
      (if is96 f then [] else [rchk .s true f.sa 46]) (.grow f.ctl (if is96 f then .imm f.ext else .reg f.sa)) f
  | 0x7F => plainEntry (is64 f || is96 f) f.s false false false
      (mod0 f ++ mbz f.dst 38 ++ mbz f.sb 54 ++ (if is96 f then mbz f.sa 46 else []))
      (if is96 f then [] else [rchk .s true f.sa 46]) (.shrink f.ctl (if is96 f then .imm f.ext else .reg f.sa)) f
  | _ => none

/-- The entry of a control or system opcode, 0x80 to 0x90 (R240, R262). -/
def decodeCtl (f : Fields) : Option Entry :=
  let w64 := bit f.mod 0
  match f.op.toNat with
  | 0x80 => braEntry true .bra f
  | 0x81 => brxEntry true .brx f
  | 0x82 => braEntry false .call f
  | 0x83 => brxEntry false .callx f
  | 0x84 => brxEntry false .ret f
  | 0x85 => bareEntry false true (.exit f.ctl) f
  | 0x86 => bareEntry false false (.meet f.ctl) f
  | 0x87 => plainEntry (is64 f) (!f.s) false false false (mod0 f ++ mbz f.dst 38 ++ mbz f.sa 46) [] (.yield f.ctl f.sb) f
  | 0x88 => plainEntry true (!f.s) false false false (mod0 f ++ mbz f.dst 38 ++ mbz f.sa 46 ++ mbz f.sb 54 ++ mbz f.ext 64 ++
        (if is128 f then mbz f.ext2 96 else [])) []
      (.nop f.ctl (if is64 f then .l64 else if is96 f then .l96 else .l128)) f
  | 0x89 => repEntry f
  | 0x8A => plainEntry (is96 f) f.s false false false (mod0 f ++ mbz f.dst 38 ++ mbz f.sb 54 ++ mbz (bits f.ext 16 16) 80)
      [rchk .x true f.sa 46] (.pfc f.ctl f.sa (bits f.ext 0 16)) f
  | 0x8B => plainEntry (is64 f) (!f.s) false false false (mod0 f) [] (.mark f.ctl f.mid24) f
  | 0x8C => plainEntry (is64 f) (!f.s) false false false (mod0 f ++ mbz f.sa 46 ++ mbz f.sb 54) [] (.bkpt f.ctl f.dst) f
  | 0x8D => plainEntry (is64 f) (!f.s) true false false (mod0 f ++ mbz f.sa 46 ++ mbz f.sb 54) [] (.trap f.ctl f.dst) f
  | 0x8E => plainEntry (is64 f) (!f.s) false false false (mod01 f ++ mbz f.dst 38 ++ mbz f.sa 46 ++ mbz f.sb 54) []
      (if bit f.mod 0 then .tretSkip f.ctl else .tretRetry f.ctl) f
  | 0x8F => plainEntry (is64 f) true (!f.s) false false
      (mod01 f ++ mbz f.sb 54 ++
        (match specialReg f.sa.toNat with
         | none => [(46, 3)]
         | some (w, _, sOk) => fail3 (f.s && !sOk) 46 ++ fail3 (w != w64) 62))
      [rchk (if w64 then .w else .v) f.s f.dst 38] (.srd f.ctl f.s w64 f.dst f.sa) f
  | 0x90 => plainEntry (is64 f) f.s false false false
      (mod01 f ++ mbz f.sb 54 ++
        (match specialReg f.dst.toNat with
         | none => [(38, 3)]
         | some (w, wr, _) => fail3 (!wr) 38 ++ fail3 (w != w64) 62))
      [rchk (if w64 then .x else .s) true f.sa 46] (.swr f.ctl w64 f.dst f.sa) f
  | _ => none

/-- The entry of a memory, team or barrier opcode, 0xA0 to 0xB7 (R240). -/
def decodeMem (f : Fields) : Option Entry :=
  match f.op.toNat with
  | 0xA0 => ldstEntry .ld f
  | 0xA1 => ldstEntry .st f
  | 0xA2 => ldstEntry .ldl f
  | 0xA3 => ldstEntry .stl f
  | 0xA4 => atmEntry false f
  | 0xA5 => casEntry f
  | 0xA6 => memEntry (mbz f.dst 38) [] (.prf (bits f.sb 0 3)) f
  | 0xA7 => plainEntry (is128 f) f.s false false false (mod0 f ++ fail3 (bits f.sb 0 3 == 7) 54 ++ mbz (bits f.sb 6 2) 60)
      [rchk .s true f.dst 38, rchk .x true f.sa 46]
      (.crange f.ctl (cOpOf (bits f.sb 0 3)) (bits f.sb 3 3) f.dst f.sa f.ext f.ext2) f
  | 0xA8 => memEntry (fail3 (bits f.sb 0 3 == 7) 54) [rchk .v f.s f.dst 38] (.cadd (cOpOf (bits f.sb 0 3))) f
  | 0xA9 => plainEntry (is64 f) f.s false false false (mod0 f ++ mbz f.dst 38 ++ mbz f.sa 46 ++ mbz (bits f.sb 3 5) 57) []
      (.crflush f.ctl (bits f.sb 0 3)) f
  | 0xAA =>
    if bit f.mod 0 then
      plainEntry (is64 f) f.s false false false (mod01 f ++ mbz f.dst 38 ++ (if bit f.mod 1 then [] else mbz f.sb 54))
        [rchk .s true f.sa 46] (.lease f.ctl (.reg f.sa)) f
    else
      plainEntry (is64 f) f.s false false false (mod01 f ++ mbz f.dst 38 ++
        (if bit f.mod 1 then [] else mbz f.sa 46 ++ fail3 (f.sb == 0) 54)) [] (.lease f.ctl (.imm f.sb)) f
  | 0xAB => bareEntry false false (.fence f.ctl) f
  | 0xB0 => plainEntry (is64 f || is96 f) f.s false false false (mod0 f ++ mbz f.sb 54 ++ (if is96 f then mbz f.sa 46 else []))
      ([rchk .x true f.dst 38] ++ (if is96 f then [] else [rchk .s true f.sa 46]))
      (.tnew f.ctl f.dst (if is96 f then .imm f.ext else .reg f.sa)) f
  | 0xB1 => plainEntry (is64 f) f.s false false false (mod0 f ++ mbz f.sb 54) [rchk .s true f.dst 38, rchk .x true f.sa 46]
      (.tjoin f.ctl f.dst f.sa) f
  | 0xB2 => bareEntry true false (.tleave f.ctl) f
  | 0xB3 =>
    if bit f.mod 0 then
      plainEntry (is128 f) f.s false false false (mod01 f ++ mbz f.dst 38 ++ (if bit f.mod 1 then [] else mbz f.ext2 96))
        [rchk .x true f.sa 46, rchk .s true f.sb 54] (.binit f.ctl f.sa f.ext (.reg f.sb)) f
    else
      plainEntry (is128 f) f.s false false false (mod01 f ++ mbz f.dst 38 ++
          (if bit f.mod 1 then [] else mbz f.sb 54 ++ mbz (bits f.ext2 12 20) 108))
        [rchk .x true f.sa 46] (.binit f.ctl f.sa f.ext (.imm (bits f.ext2 0 12))) f
  | 0xB4 => arrEntry .barv f
  | 0xB5 => arrEntry .bdrop f
  | 0xB6 => plainEntry (is128 f) f.s true false false (mod0 f ++ mbz (bits f.sb 4 4) 58)
      [rchk .p false f.dst 38, rchk .x true f.sa 46] (.bwait f.ctl f.dst f.sa (bits f.sb 0 4) f.ext f.ext2) f
  | 0xB7 => plainEntry (is96 f) f.s true false false (mod0 f ++ mbz f.sb 54)
      [rchk .x true f.dst 38, rchk .x true f.sa 46] (.btest f.ctl f.dst f.sa f.ext) f
  | _ => none

/-- The entry of a copy, counter, engine, launch, matrix, context or trampoline opcode, 0xC0 to 0xF1 (R240). -/
def decodeSys (f : Fields) : Option Entry :=
  match f.op.toNat with
  | 0xC0 => ptrEntry .copy f
  | 0xC1 => ptrEntry .copyr f
  | 0xC2 => ptrEntry .copym f
  | 0xC3 => plainEntry (is64 f || is96 f) f.s true false false (mod0 f ++ mbz f.dst 38 ++ (if is96 f then mbz f.sb 54 else []))
      ([rchk .x true f.sa 46] ++ (if is96 f then [] else [rchk .x true f.sb 54]))
      (.cntadd f.ctl f.sa (if is96 f then .imm f.ext else .reg f.sb)) f
  | 0xC4 =>
    let ti := bit f.mod 0
    plainEntry (is128 f) f.s true false false (mod01 f ++ (if ti then mbz f.sb 54 else mbz f.ext 64))
      ([rchk .p false f.dst 38, rchk .x true f.sa 46] ++ (if ti then [] else [rchk .x true f.sb 54]))
      (.waitge f.ctl f.dst f.sa (if ti then .imm f.ext else .reg f.sb) f.ext2) f
  | 0xC5 => plainEntry (is64 f) f.s false false false (mod01 f ++ mbz f.sb 54) [rchk .s true f.dst 38, rchk .x true f.sa 46]
      (.vqput f.ctl (bit f.mod 0) f.dst f.sa) f
  | 0xC6 => ptrEntry .launch f
  | 0xD0 => plainEntry (is64 f || is96 f) f.s false false false (mod0 f ++ mbz f.sb 54 ++ (if is96 f then mbz f.sa 46 else []))
      ([rchk .t true f.dst 38] ++ (if is96 f then [] else [rchk .s true f.sa 46]))
      (.tcfg f.ctl f.dst (if is96 f then .imm f.ext else .reg f.sa)) f
  | 0xD1 => tmovEntry false f
  | 0xD2 => tmovEntry true f
  | 0xD3 => plainEntry (is64 f) f.s false false false (mod0 f ++ mbz f.sa 46 ++ mbz f.sb 54) [rchk .t true f.dst 38] (.tzero f.ctl f.dst) f
  | 0xD4 => plainEntry (is64 f) f.s false false false (mod01 f ++ mbz f.sa 46 ++ mbz f.sb 54) [rchk .a true f.dst 38]
      (if bit f.mod 0 then .azeroRel f.ctl f.dst else .azero f.ctl f.dst) f
  | 0xD5 => mmaEntry false .mmaF f
  | 0xD6 => mmaEntry false .mmaX f
  | 0xD7 => mmaEntry false .mmaI8 f
  | 0xD8 => mmaEntry true .mmaBp f
  | 0xD9 => drnEntry f
  | 0xE0 => ctxEntry none false .x (.ctxnew f.ctl f.dst f.sa) f
  | 0xE1 => ctxEntry (some .x) true .s (.ctxgrant f.ctl f.dst f.sa f.sb) f
  | 0xE2 => ctxEntry (some .x) true .s (.ctxrevoke f.ctl f.dst f.sa f.sb) f
  | 0xE3 => ctxEntry none true .s (.ctxrun f.ctl f.dst f.sa) f
  | 0xE4 => ctxEntry (some .x) true .s (.ctxstop f.ctl f.dst f.sa f.sb) f
  | 0xE5 => peekEntry (.ctxpeek f.ctl f.dst f.sa f.sb (bits f.ext 0 8) (bits f.ext 8 24)) f
  | 0xE6 => peekEntry (.ctxpoke f.ctl f.dst f.sa f.sb (bits f.ext 0 8) (bits f.ext 8 24)) f
  | 0xE7 => ctxEntry (some .x) true .s (.ctxkill f.ctl f.dst f.sa f.sb) f
  | 0xE8 => tlbEntry f
  | 0xE9 => ctxEntry (some .s) true .s (.qosset f.ctl f.dst f.sa f.sb) f
  | 0xF0 => trampEntry .tramp f
  | 0xF1 => trampEntry .trampret f
  | _ => none

/-- Is the opcode assigned (R240)? -/
def opAssigned (n : Nat) : Bool :=
  n ≤ 0x21 || 0x40 ≤ n && n ≤ 0x58 || 0x70 ≤ n && n ≤ 0x90 || 0xA0 ≤ n && n ≤ 0xAB || 0xB0 ≤ n && n ≤ 0xB7 ||
  0xC0 ≤ n && n ≤ 0xC6 || 0xD0 ≤ n && n ≤ 0xD9 || 0xE0 ≤ n && n ≤ 0xE9 || 0xF0 ≤ n && n ≤ 0xF1

/-- The entry of a word whose opcode is assigned; none where no form of it exists (R241 subcode 2). -/
def decodeEntry (f : Fields) : Option Entry :=
  let n := f.op.toNat
  if n < 0x40 then decodeInt f else if n < 0x70 then decodeFlt f else if n < 0x80 then decodeWave f
  else if n < 0xA0 then decodeCtl f else if n < 0xC0 then decodeMem f else decodeSys f

/-- The least failed check: by EXTRA, then by subcode (R242). -/
def worst : Fails → Option (Nat × Nat)
  | [] => none
  | (e, c) :: rest =>
    match worst rest with
    | none => some (e, c)
    | some (e', c') => if e < e' || e == e' && c ≤ c' then some (e, c) else some (e', c')

/-- The lowest register field that fails (R241 subcode 5). -/
def badReg : List (Bool × Nat) → Option Nat
  | [] => none
  | (ok, lo) :: rest =>
    match badReg rest with
    | none => if ok then none else some lo
    | some l => if ok then some l else some (min lo l)

/-- The instruction that the fields stand for, or the fault of R241, by the order of R242. -/
def ofFields (f : Fields) : Except Bad Instr :=
  let n := f.op.toNat
  if f.len == 0 then .error ⟨true, 0, 0, false⟩
  else if 0xF2 ≤ n && n ≤ 0xF7 then .error ⟨false, 8, n, false⟩
  else if !opAssigned n then .error ⟨false, 1, n, false⟩
  else
    match decodeEntry f with
    | none => .error ⟨false, 2, n, false⟩
    | some e =>
      match worst e.f5 with
      | some (extra, sub) => .error ⟨false, sub, extra, false⟩
      | none =>
        match badReg e.f6 with
        | some lo => .error ⟨false, 5, lo, false⟩
        | none => .ok e.ins

/-- Decoding of a slot. -/
def decode (w : BitVec 128) : Except Bad Instr := ofFields (Fields.ofWord w)

/-- The bytes an instruction's slot takes, from LEN alone (R224). -/
def slotBytes (w : BitVec 128) : Nat := if bits w 1 1 == 0 then 8 else 16

/-! ## Encoding -/

/-- Fields with a control group and everything else neutral. -/
def Fields.mk0 (len : BitVec 2) (op : BitVec 8) (s : Bool) (k : Ctl) : Fields :=
  ⟨len, op, k.dist, k.wait, k.setf, k.hold, s, k.guard, k.gneg, 0, 0, 0, 0, 0, 0⟩

/-- Layout C (R229). -/
def layoutC (sc : BitVec 8) (ka kb kc : Bool) (xmod : BitVec 21) : BitVec 32 := sc ++ b1 ka ++ b1 kb ++ b1 kc ++ xmod

/-- The control byte of R244. -/
def cbWord (sat : Bool) (cond ty : BitVec 3) : BitVec 8 := (0 : BitVec 1) ++ b1 sat ++ cond ++ ty

/-- The word of an instruction of the two arithmetic tables. both says whether the entry has forms I and C. -/
def encArith (op : BitVec 8) (both : Bool) (srcs : Nat) (k : Ctl) (s : Bool) (form : Form) (dst : BitVec 8)
    (a b c : Src) (cb : BitVec 8) (mod : BitVec 2) : Fields :=
  let f := Fields.mk0 (match form with | .r => 1 | _ => 2) op s k
  match form with
  | .r => { f with dst := dst, sa := a.num, sb := b.num, mod := mod }
  | .i =>
    if srcs == 2 then { f with dst := dst, sa := a.num, sb := cb, mod := mod, ext := b.immVal }
    else { f with dst := dst, sa := a.num, sb := b.num, mod := mod, ext := c.immVal }
  | .c => { f with dst := dst, sa := a.num, sb := b.num, mod := mod, ext := layoutC c.num a.isSca b.isSca c.isSca (cb.setWidth 21), ext2 := if both then 1 else 0 }

/-- The word of an integer instruction. -/
def encInt (op : BitVec 8) (h : Shape) (mod : BitVec 2) (cond : BitVec 3) (o : Alu) : Fields :=
  let m : BitVec 2 := if o.form == .r && h.sgn && o.ty == .i32 then 1 else mod
  encArith op (h.i && h.c) h.srcs o.ctl o.s o.form o.dst o.a o.b o.c (cbWord o.sat cond o.ty.code) m

/-- The word of a floating-point instruction. -/
def encFlt (op : BitVec 8) (h : Shape) (cond : BitVec 3) (o : Flt) : Fields :=
  encArith op (h.i && h.c) h.srcs o.ctl o.s o.form o.dst o.a o.b o.c (cbWord false cond 0) o.rnd.code

/-- The word of a conversion in form R, with its control in SB. -/
def encCvt (op : BitVec 8) (sb : BitVec 8) (o : Flt) : Fields :=
  { Fields.mk0 1 op o.s o.ctl with dst := o.dst, sa := o.a.num, sb := sb, mod := o.rnd.code }

/-- The word of a predicate instruction. -/
def encPrd (op : BitVec 8) (o : Prd) : Fields :=
  { Fields.mk0 1 op false o.ctl with dst := o.dst, sa := o.a, sb := o.b, mod := b1 o.nb ++ b1 o.na }

/-- The word of a moulded memory instruction. -/
def encMem (op : BitVec 8) (z : BitVec 3) (o : Mem) : Fields :=
  { Fields.mk0 (if o.wide then 2 else 1) op o.s o.ctl with dst := o.dst, sa := o.ptr, sb := z.setWidth 8, ext := o.off }

/-- Operand fields of a 64-bit word. -/
def enc64 (op : BitVec 8) (s : Bool) (k : Ctl) (dst sa sb : BitVec 8) (mod : BitVec 2) : Fields :=
  { Fields.mk0 1 op s k with dst := dst, sa := sa, sb := sb, mod := mod }

/-- A 24-bit field in [61:38]. -/
def encMid (op : BitVec 8) (k : Ctl) (v : BitVec 24) : Fields :=
  enc64 op false k (bits v 0 8) (bits v 8 8) (bits v 16 8) 0

/-- A scalar operand that is a register in the 64-bit form and the immediate in the 96-bit form. -/
def encRegImm (op : BitVec 8) (k : Ctl) (dst : BitVec 8) (n : Src) : Fields :=
  match n with
  | .imm v => { Fields.mk0 2 op true k with dst := dst, ext := v }
  | n => { Fields.mk0 1 op true k with dst := dst, sa := n.num }

def encMma (op : BitVec 8) (o : Mma) : Fields :=
  { Fields.mk0 2 op true o.ctl with dst := o.acc, sa := o.a, sb := o.b, ext := layoutC o.n false false false ((0 : BitVec 14) ++ o.preg ++ b1 o.za) }

def encArr (op : BitVec 8) (o : Arr) : Fields :=
  { Fields.mk0 (if o.wide then 2 else 1) op true o.ctl with
      sa := o.ptr, sb := o.cnt.getD 0, mod := if o.cnt.isSome then 1 else 0, ext := o.off }

def encBra (op : BitVec 8) (k : Ctl) (wide : Bool) (off : BitVec 32) : Fields :=
  if wide then { Fields.mk0 2 op false k with ext := off } else encMid op k ((off.setWidth 20).setWidth 24)

def encTmov (op : BitVec 8) (k : Ctl) (t a : BitVec 8) (m : TMov) : Fields :=
  match m with
  | .data => enc64 op true k t a 0 0
  | .strided r => enc64 op true k t a r 1
  | .scales => enc64 op true k t a 0 2
  | .mxScales => enc64 op true k t a 1 2

def encAtm (op : BitVec 8) (x : BitVec 7) (o : Atm) : Fields :=
  { Fields.mk0 2 op o.s o.ctl with dst := o.dst, sa := o.ptr, sb := o.val.num, ext := layoutC o.new.num false o.val.isSca o.new.isSca (x.setWidth 21) }

/-- The fields of an instruction; none for the rows that are steps of other agents. -/
def toFields : Instr → Option Fields
  | .iadd o => some (encInt 0x00 .arith 0 0 o)
  | .isub o => some (encInt 0x01 .arith 0 0 o)
  | .imul o => some (encInt 0x02 .arith 0 0 o)
  | .imulh o => some (encInt 0x03 .wordSgn 0 0 o)
  | .imad o => some (encInt 0x04 .word3 0 0 o)
  | .imadw o => some (encInt 0x05 .madw 0 0 o)
  | .iaddw o => some (encInt 0x06 .wide2 0 0 o)
  | .isubw o => some (encInt 0x07 .wide2 0 0 o)
  | .ineg o => some (encInt 0x08 .unSat 0 0 o)
  | .iabs o => some (encInt 0x09 .unSat 0 0 o)
  | .imin o => some (encInt 0x0A .minmax 0 0 o)
  | .imax o => some (encInt 0x0B .minmax 0 0 o)
  | .band o => some (encInt 0x0C .word2 0 0 o)
  | .bor o => some (encInt 0x0D .word2 0 0 o)
  | .bxor o => some (encInt 0x0E .word2 0 0 o)
  | .bandn o => some (encInt 0x0F .word2 0 0 o)
  | .bnot o => some (encInt 0x10 .un 0 0 o)
  | .shl o => some (encInt 0x11 .word2 0 0 o)
  | .shr o => some (encInt 0x12 .word2 0 0 o)
  | .sar o => some (encInt 0x13 .word2 0 0 o)
  | .shlw o => some (encInt 0x14 .shiftW 0 0 o)
  | .shrw ar o => some (encInt 0x15 .shiftW (if ar then 1 else 0) 0 o)
  | .bfx o => some (encInt 0x16 .wordSgn 0 0 o)
  | .bfi o => some (encInt 0x17 .word3 0 0 o)
  | .popc o => some (encInt 0x18 .un 0 0 o)
  | .clz o => some (encInt 0x19 .un 0 0 o)
  | .ctz o => some (encInt 0x1A .un 0 0 o)
  | .brev o => some (encInt 0x1B .un 0 0 o)
  | .permb o => some (encInt 0x1C .word3 0 0 o)
  | .icmp cond o => some (encInt 0x1D .icmp 0 cond.code o)
  | .sel w o => some (encInt 0x1E (.sel w) (if w then 1 else 0) 0 o)
  | .mov w o => some (encInt 0x1F (.mov w) (if w then 1 else 0) 0 o)
  | .movi k s d v => some (match v with
      | .word v => { Fields.mk0 2 0x20 s k with dst := d, ext := v }
      | .sext v => { Fields.mk0 2 0x20 s k with dst := d, ext := v, mod := 1 }
      | .zext v => { Fields.mk0 2 0x20 s k with dst := d, ext := v, mod := 2 }
      | .pair lo hi => { Fields.mk0 3 0x20 s k with dst := d, ext := lo, ext2 := hi, mod := 3 })
  | .lea sh o => some (encInt 0x21 (.lea o.form) sh 0 o)
  | .fadd o => some (encFlt 0x40 .flt2 0 o)
  | .fsub o => some (encFlt 0x41 .flt2 0 o)
  | .fmul o => some (encFlt 0x42 .flt2 0 o)
  | .ffma o => some (encFlt 0x43 .flt3 0 o)
  | .fmin o => some (encFlt 0x44 .flt2 0 o)
  | .fmax o => some (encFlt 0x45 .flt2 0 o)
  | .fcmp cond o => some (encFlt 0x46 .fcmp cond.code o)
  | .fclass o => some (encFlt 0x47 .flt1 0 o)
  | .frcp o => some (encFlt 0x48 .flt1 0 o)
  | .frsq o => some (encFlt 0x49 .flt1 0 o)
  | .fsqrt o => some (encFlt 0x4A .flt1 0 o)
  | .fexp2 o => some (encFlt 0x4B .flt1 0 o)
  | .flog2 o => some (encFlt 0x4C .flt1 0 o)
  | .fsin o => some (encFlt 0x4D .flt1 0 o)
  | .fcos o => some (encFlt 0x4E .flt1 0 o)
  | .frnd o => some (encFlt 0x4F .flt1 0 o)
  | .badd2 o => some (encFlt 0x50 .flt2 0 o)
  | .bmul2 o => some (encFlt 0x51 .flt2 0 o)
  | .bfma2 o => some (encFlt 0x52 .flt3 0 o)
  | .hfma2 o => some (encFlt 0x53 .flt3 0 o)
  | .fcvt d sf sat o => some (encCvt 0x54 ((0 : BitVec 1) ++ b1 sat ++ sf.code ++ d.code) o)
  | .fcvtp d sat j o => some { Fields.mk0 2 0x55 o.s o.ctl with dst := o.dst, sa := o.a.num, sb := o.b.num, mod := o.rnd.code, ext := layoutC 0 o.a.isSca o.b.isSca false ((0 : BitVec 11) ++ j ++ (0 : BitVec 1) ++ b1 sat ++ (0 : BitVec 3) ++ d.code) }
  | .fcvtx sf j o => some (encCvt 0x56 ((0 : BitVec 2) ++ j ++ sf.code) o)
  | .i2f ty o => some (encCvt 0x57 (ty.code.setWidth 8) o)
  | .f2i ty o => some (encCvt 0x58 (ty.code.setWidth 8) o)
  | .pand o => some (encPrd 0x70 o)
  | .por o => some (encPrd 0x71 o)
  | .pxor o => some (encPrd 0x72 o)
  | .pnot o => some (encPrd 0x73 o)
  | .pmov o => some (encPrd 0x74 o)
  | .p2v k d => some (enc64 0x75 false k d 0 0 0)
  | .v2p k a m => some { Fields.mk0 2 0x76 false k with sa := a, ext := m.setWidth 32 }
  | .split k d => some (enc64 0x77 true k d 0 0 0)
  | .fuse k d a n => some (enc64 0x78 true k d a n 0)
  | .vote k m ds d a => some (enc64 0x79 false k d a (if ds then 1 else 0) m.code)
  | .shfl k m d a b => some (match b with
      | .imm v => { Fields.mk0 2 0x7A false k with dst := d, sa := a, mod := m.code, ext := v }
      | b => enc64 0x7A false k d a b.num m.code)
  | .wred k op sgn ds d a => some (enc64 0x7B false k d a ((0 : BitVec 3) ++ b1 ds ++ b1 sgn ++ op.code) 0)
  | .wscan k op sgn ex d a => some (enc64 0x7C false k d a ((0 : BitVec 3) ++ b1 ex ++ b1 sgn ++ op.code) 0)
  | .bcast k ds d a b => some (match b with
      | .imm v => { Fields.mk0 2 0x7D false k with dst := d, sa := a, sb := if ds then 1 else 0, ext := v }
      | b => { Fields.mk0 2 0x7D false k with dst := d, sa := a, sb := b.num, ext := layoutC 0 false true false (if ds then 1 else 0), ext2 := 1 })
  | .grow k n => some (encRegImm 0x7E k 0 n)
  | .shrink k n => some (encRegImm 0x7F k 0 n)
  | .bra k w off => some (encBra 0x80 k w off)
  | .brx k s a => some (enc64 0x81 s k 0 a 0 0)
  | .call k w off => some (encBra 0x82 k w off)
  | .callx k s a => some (enc64 0x83 s k 0 a 0 0)
  | .ret k s a => some (enc64 0x84 s k 0 a 0 0)
  | .exit k => some (enc64 0x85 false k 0 0 0 0)
  | .meet k => some (enc64 0x86 false k 0 0 0 0)
  | .yield k n => some (enc64 0x87 false k 0 0 n 0)
  | .nop k l => some (Fields.mk0 (match l with | .l64 => 1 | .l96 => 2 | .l128 => 3) 0x88 false k)
  | .rep n d a b => some (encMid 0x89 Ctl.neutral ((0 : BitVec 9) ++ b ++ a ++ d ++ n))
  | .pfc k a n => some { Fields.mk0 2 0x8A true k with sa := a, ext := n.setWidth 32 }
  | .mark k n => some (encMid 0x8B k n)
  | .bkpt k n => some (enc64 0x8C false k n 0 0 0)
  | .trap k n => some (enc64 0x8D false k n 0 0 0)
  | .tretRetry k => some (enc64 0x8E false k 0 0 0 0)
  | .tretSkip k => some (enc64 0x8E false k 0 0 0 1)
  | .srd k s w d r => some (enc64 0x8F s k d r 0 (if w then 1 else 0))
  | .swr k w r a => some (enc64 0x90 true k r a 0 (if w then 1 else 0))
  | .ld z o => some (encMem 0xA0 z.code o)
  | .st z o => some (encMem 0xA1 z.code o)
  | .ldl z o => some (encMem 0xA2 z.code o)
  | .stl z o => some (encMem 0xA3 z.code o)
  | .atom op sgn nr o => some (encAtm 0xA4 (b1 nr ++ b1 sgn ++ (0 : BitVec 1) ++ b1 o.wide ++ op.code) o)
  | .cas o => some (encAtm 0xA5 ((0 : BitVec 3) ++ b1 o.wide ++ (0 : BitVec 3)) o)
  | .prf n o => some (encMem 0xA6 n o)
  | .crange k op sl d a len poff => some { Fields.mk0 3 0xA7 true k with dst := d, sa := a, sb := (0 : BitVec 2) ++ sl ++ op.code, ext := len, ext2 := poff }
  | .cadd op o => some (encMem 0xA8 op.code o)
  | .crflush k sl => some (enc64 0xA9 true k 0 0 (sl.setWidth 8) 0)
  | .lease k n => some (match n with
      | .imm n => enc64 0xAA true k 0 0 n 0
      | .reg r => enc64 0xAA true k 0 r 0 1)
  | .fence k => some (enc64 0xAB false k 0 0 0 0)
  | .tnew k d n => some (encRegImm 0xB0 k d n)
  | .tjoin k d a => some (enc64 0xB1 true k d a 0 0)
  | .tleave k => some (enc64 0xB2 true k 0 0 0 0)
  | .binit k a off e => some (match e with
      | .imm n => { Fields.mk0 3 0xB3 true k with sa := a, ext := off, ext2 := n.setWidth 32 }
      | .reg r => { Fields.mk0 3 0xB3 true k with sa := a, sb := r, mod := 1, ext := off })
  | .barv o => some (encArr 0xB4 o)
  | .bdrop o => some (encArr 0xB5 o)
  | .bwait k d a ph off t => some { Fields.mk0 3 0xB6 true k with dst := d, sa := a, sb := ph.setWidth 8, ext := off, ext2 := t }
  | .btest k d a off => some { Fields.mk0 2 0xB7 true k with dst := d, sa := a, ext := off }
  | .copy k a => some (enc64 0xC0 true k 0 a 0 0)
  | .copyr k a => some (enc64 0xC1 true k 0 a 0 0)
  | .copym k a => some (enc64 0xC2 true k 0 a 0 0)
  | .cntadd k a n => some (match n with
      | .imm v => { Fields.mk0 2 0xC3 true k with sa := a, ext := v }
      | n => enc64 0xC3 true k 0 a n.num 0)
  | .waitge k d a t ticks => some (match t with
      | .imm v => { Fields.mk0 3 0xC4 true k with dst := d, sa := a, mod := 1, ext := v, ext2 := ticks }
      | t => { Fields.mk0 3 0xC4 true k with dst := d, sa := a, sb := t.num, ext2 := ticks })
  | .vqput k nw d a => some (enc64 0xC5 true k d a 0 (if nw then 1 else 0))
  | .launch k a => some (enc64 0xC6 true k 0 a 0 0)
  | .tcfg k t v => some (encRegImm 0xD0 k t v)
  | .tld k t a m => some (encTmov 0xD1 k t a m)
  | .tst k t a m => some (encTmov 0xD2 k t a m)
  | .tzero k t => some (enc64 0xD3 true k t 0 0 0)
  | .azero k a => some (enc64 0xD4 true k a 0 0 0)
  | .azeroRel k a => some (enc64 0xD4 true k a 0 0 1)
  | .mmaF o => some (encMma 0xD5 o)
  | .mmaX o => some (encMma 0xD6 o)
  | .mmaI8 o => some (encMma 0xD7 o)
  | .mmaBp o => some (encMma 0xD8 o)
  | .tdrain o => some { Fields.mk0 2 0xD9 true o.ctl with dst := o.tile, sa := o.acc, sb := o.tv, ext := layoutC o.sn false false false ((0 : BitVec 11) ++ o.c0 ++ b1 o.zero ++ b1 o.byp ++ b1 o.sat ++ b1 o.ncv ++ b1 o.scv) }
  | .ctxnew k d r => some (enc64 0xE0 true k d r 0 0)
  | .ctxgrant k d t r => some (enc64 0xE1 true k d t r 0)
  | .ctxrevoke k d t r => some (enc64 0xE2 true k d t r 0)
  | .ctxrun k d t => some (enc64 0xE3 true k d t 0 0)
  | .ctxstop k d t c => some (enc64 0xE4 true k d t c 0)
  | .ctxpeek k d t b item ix => some { Fields.mk0 2 0xE5 true k with dst := d, sa := t, sb := b, ext := ix ++ item }
  | .ctxpoke k d t b item ix => some { Fields.mk0 2 0xE6 true k with dst := d, sa := t, sb := b, ext := ix ++ item }
  | .ctxkill k d t c => some (enc64 0xE7 true k d t c 0)
  | .tlbinvPage k a c n => some { Fields.mk0 2 0xE8 true k with sa := a, sb := c, ext := n.setWidth 32 }
  | .tlbinvCtx k c => some { Fields.mk0 2 0xE8 true k with sb := c, mod := 1 }
  | .tlbinvChild k t c => some { Fields.mk0 2 0xE8 true k with sa := t, sb := c, mod := 2 }
  | .qosset k d t v => some (enc64 0xE9 true k d t v 0)
  | .tramp k n => some (encMid 0xF0 k n)
  | .trampret k n => some (encMid 0xF1 k n)
  | .accessPerformed _ _ | .pinGrant _ | .pinGrantTimeout _ _ | .pinTimeout _ _ | .ptsTick | .lasttouchSweep
  | .timestampSweep | .monarchInterval | .forwardingEnd _ _ _ | .locate _ _ _ | .fill _ _ _ | .eviction _ _ _
  | .frameArrival _ _ _ _ | .atlasHoldExpiry _ _ | .wrapNotice _ _ | .pageWalk _ _ _ _ _
  | .tlbinvComplete _ _ _ _ _ _ | .homeRead _ _ | .homeReadForOwnership _ _ | .homeUpgrade _ _ | .writeBack _ _
  | .cleanEvictionNotice _ _ _ | .forwardedRead _ _ | .forwardedReadForOwnership _ _ | .invalidation _ _
  | .holderRegistration _ _ | .backInvalidation _ _ | .streamedAccess _ _ | .clocklessWaitDone _ | .combine _ _ _
  | .memrd _ _ | .memwr _ _ | .meminv _ | .snpdata _ | .snpinv _ | .snpcur _ | .hostUnsupportedRequest
  | .copyStart _ | .copyStop _ | .copyComplete _ | .arrayOperationComplete _ | .gather _ _ | .bilerp _ _
  | .search _ _ | .engineRequestComplete _ _ | .waitCounterPoll _ _ | .waitCounterRetry _ _ | .dispatchPlacement _
  | .headAging _ _ | .gridClose _ _ | .waveFree _ | .pathUrgent _ _ | .yieldExpiry _ _ | .fetchBlockArrival _ _ _
  | .growGrant _ | .spill _ | .restore _ | .fuseTimeout _ _ | .pollRecheck _ _ | .ringRecordWrite _
  | .ringReply _ _ _ | .ringWriteRetry _ | .localUe _ _ _ | .registerUe _ | .checkpoint _ | .sliceEnd _
  | .sliceStart _ | .lendUnit _ _ | .reclaim _ | .rootConfiguration _ | .bankPowerOff _ | .bankPowerOn _
  | .unitDrain _ | .homeFailureRecovery _ | .homelostClear _ | .dualHomeOpen _ _ | .switch _ | .bucketRefill
  | .sample _ _ | .ctxstopComplete _ | .ctxkillComplete _ | .ctxrevokeComplete _ _ _ | .hostLinkReset
  | .bar0Write _ _ | .attestationRequest _ | .flitCrcRetry _ | .deviceUnreachable _ | .memoryDeviceLoss _ _ _
  | .poisonResponse _ | .modulePowerOn _ | .throttleStep _ | .thermalPowerOff | .orderlyPowerOff _
  | .notAnInstruction _ | .resultWritten _ _ | .traceRecordWrite _ | .lanePairCycle | .purgeComplete _
  | .bisnpResponse _ | .hostLinkTrained | .modulePowerLoss => none

/-- The slot of an instruction, as a word of 128 bits (R224); none for the rows that have no word. -/
def encode (i : Instr) : Option (BitVec 128) := (toFields i).map Fields.word

/-- What the decoder reads from a word numbered as the opcode table numbers bits, every higher bit 0: the
base word is bits 63 to 0 and the later words follow. -/
def decodeTableWord (nbits w : Nat) : Option Instr :=
  match decode (BitVec.ofNat 128 (w % 2 ^ nbits)) with
  | .ok i => some i
  | .error _ => none

end Sys2Proof
end

