-- ==== Sys2Proof/Machine/Paths.lean ====
section
/-!
DEFINITION. Path tables: splitting (R151 to R153), joining (R154), leaving (R155), and the resumption of a parked
path (R198, R200, R204).
-/

namespace Sys2Proof.Machine

/-- A group of threads with its target. -/
abbrev Group := Word64 × Word64

/-- The STATE of a path that waits for nothing: a handler keeps its own, and its split paths are of the same handler
(R200, R270; log 21). -/
def Path.rest (p : Path) : PState := if p.serves.isSome then .handler else .ready

/-- A taken branch to a lower address, a YIELD or a completed wait counts (R187). -/
def Path.spun (p : Path) : Path := { p with spin := p.spin + 1, demoted := p.demoted || decide (64 ≤ p.spin + 1) }

/-- The count of a path that has moved to `t` from an instruction at `a`. -/
def Path.spunTo (p : Path) (t a : Word64) : Path := if decide (t.toNat < a.toNat) then p.spun else p

/-- A new path that a split makes of a path p at address a (R151, R187, R231). At a lower address it has taken the branch itself, so
that its spin count is 1 (DESIGN CHOICE, log 52). -/
def Path.child (p : Path) (a : Word64) (link : Nat) (pred : Option Pred) (g : Group) : Path :=
  Path.spunTo { e := { kind := .path, state := p.rest, link := link, pc := g.2, mask := g.1 }, pred := pred,
                serves := p.serves, trec := p.trec } g.2 a

/-- New PATH entries at the lowest free entries, all linked to a join, each with the split as its predecessor. -/
def addPaths (w : Wave) (id : Nat) (p : Path) (a : Word64) (link : Nat) (pred : Option Pred) : List Group → Wave
  | [] => w
  | g :: gs =>
    match w.freeEntry with
    | some h => addPaths (w.putPath id h (p.child a link pred g)) id p a link pred gs
    | none => addPaths w id p a link pred gs

/-- Push deferral records for the groups, the last first (R151, R153). -/
def pushDefers (w : Wave) (owner : Nat) (ret : Bool) (gs : List Group) : Wave :=
  { w with defer := w.defer ++ gs.reverse.map (fun g => ⟨g.1, g.2, owner, false, ret⟩) }

/-- SPLIT_PATH (R151) at address a on two or more groups; none when a deferral stack of 64 records would overflow (R153). -/
def splitPath (w : Wave) (id i : Nat) (a : Word64) (gs : List Group) (kind : PKind) (ret : Word64)
    (pred : Option Pred) : Option Wave :=
  match gs with
  | [] => some w
  | g :: rest =>
    let p := w.path i
    let free := w.freeCount
    let n := if free ≥ gs.length then rest.length else min rest.length (free - 1)
    let late := rest.drop n
    if w.defer.length + late.length > 64 then none
    else if n = 0 then
      some (pushDefers (w.putPath id i (Path.spunTo ({ p with e := { p.e with mask := g.1 } }.goesTo g.2) g.2 a)) i
        (kind == .ret) late)
    else
      match w.freeEntry with
      | none => none
      | some j =>
        let w := w.putPath id j { e := { kind := kind, mask := p.e.mask, link := p.e.link,
                                         pc := if kind == .ret then ret else 0 } }
        let w := w.putPath id i (Path.spunTo ({ p with e := { p.e with mask := g.1, link := j } }.goesTo g.2) g.2 a)
        let w := addPaths w id p a j pred (rest.take n)
        some (pushDefers w i (kind == .ret) late)

/-- The indices of the entries whose LINK is j. -/
def linked (w : Wave) (j : Nat) : List Nat :=
  (List.range 16).filter (fun i => (w.path i).e.kind != .free && (w.path i).e.link == j)

/-- Free an entry. -/
def freeEntryAt (w : Wave) (id i : Nat) : Wave := w.putPath id i {}

def freeEntries (w : Wave) (id : Nat) : List Nat → Wave
  | [] => w
  | i :: is => freeEntries (freeEntryAt w id i) id is

def minThread (m : Word64) : Nat := ((threads m).head?).getD 64

/-- The latest of two predecessors (R231). -/
def laterPred : Option Pred → Option Pred → Option Pred
  | some a, some b => some (if a.cycle < b.cycle then b else a)
  | some a, none => some a
  | none, b => b

/-- A join merges once every entry linked to it is a PATH at MEET or at return; a join without any is freed, and
the join it is nested in is looked at in turn (R154, R155). -/
def tryMerge : Nat → Wave → Nat → Nat → Wave
  | 0, w, _, _ => w
  | n + 1, w, id, j =>
    let q := w.path j
    if q.e.kind != .meet && q.e.kind != .ret then w else
    match linked w j with
    | [] => tryMerge n (freeEntryAt w id j) id q.e.link
    | m :: ms =>
      let all := m :: ms
      if all.all (fun i => (w.path i).e.kind == .path &&
          ((w.path i).e.state == .atMeet || (w.path i).e.state == .atReturn)) then
        let union := all.foldl (fun u i => u ||| (w.path i).e.mask) 0
        let low := all.foldl (fun b i => if minThread (w.path i).e.mask < minThread (w.path b).e.mask then i else b) m
        let pred := all.foldl (fun d i => laterPred d (w.path i).pred) none
        let p := w.path m
        let pc := if q.e.kind == .ret then q.e.pc else (w.path low).e.pc
        let w := freeEntries w id (j :: ms)
        let p := if pc == p.e.pc then p else p.goesTo pc
        w.putPath id m { p with e := { p.e with state := p.rest, mask := union, link := q.e.link }, pred := pred, kept := none }
      else w

/-- The newest deferral record of an owner, at a MEET or at a return: its index from the oldest. -/
def newestDefer (ds : List Defer) (owner : Nat) (ret : Bool) : Option (Nat × Defer) :=
  ((List.range ds.length).zip ds).foldl (fun b x => if x.2.owner == owner && x.2.ret == ret then some x else b) none

/-- Is the path's LINK a join it takes part in? A handler never joins at the join of the path it serves (R266). -/
def Wave.joins (w : Wave) (i : Nat) : Bool :=
  let p := w.path i
  p.e.link != 31 && (match p.serves with
    | some (k, _) => (w.path k).e.link != p.e.link
    | none => true)

/-- MEET by path i at address a, whose next instruction is at `next` (R154). -/
def meet : Nat → Wave → Nat → Nat → Bool → Word64 → Word64 → Wave
  | 0, w, _, _, _, _, _ => w
  | n + 1, w, id, i, ret, a, next =>
    let p := w.path i
    match newestDefer w.defer i ret with
    | some (k, r) =>
      if r.phase then
        let w := { w with defer := w.defer.eraseIdx k }
        meet n (w.putPath id i { p with e := { p.e with mask := p.e.mask ||| r.mask } }) id i ret a next
      else
        let w := { w with defer := w.defer.set k { r with mask := p.e.mask, pc := a, phase := true } }
        w.putPath id i ({ p with e := { p.e with mask := r.mask, state := p.rest } }.goesTo r.pc)
    | none =>
      if !w.joins i then w.putPath id i { p with e := { p.e with pc := next } }
      else
        let w := w.putPath id i { p with e := { p.e with pc := next, state := if ret then .atReturn else .atMeet } }
        tryMerge 16 w id p.e.link

/-- Clear threads from one entry; an emptied PATH is freed, unless a deferred side of it is still to run
(log 15). -/
def clearEntry (w : Wave) (id : Nat) (m : Word64) (i : Nat) : Wave :=
  let p := w.path i
  if p.e.kind == .free || (p.e.mask &&& m) == 0 then w
  else
    let rest := p.e.mask &&& ~~~m
    if p.e.kind != .path || rest != 0 then w.putPath id i { p with e := { p.e with mask := rest } }
    else
      match newestDefer w.defer i false with
      | some (k, r) =>
        let w := { w with defer := w.defer.eraseIdx k }
        w.putPath id i ({ p with e := { p.e with mask := r.mask, state := p.rest }, park := none, rep := none }.goesTo r.pc)
      | none =>
        match newestDefer w.defer i true with
        | some (k, r) =>
          let w := { w with defer := w.defer.eraseIdx k }
          w.putPath id i ({ p with e := { p.e with mask := r.mask, state := p.rest }, park := none, rep := none }.goesTo r.pc)
        | none => freeEntryAt w id i

def clearEntries (w : Wave) (id : Nat) (m : Word64) : List Nat → Wave
  | [] => w
  | i :: is => clearEntries (clearEntry w id m i) id m is

/-- Joins that may now merge or be freed. -/
def sweepJoins (w : Wave) (id : Nat) : List Nat → Wave
  | [] => w
  | j :: js => sweepJoins (tryMerge 16 w id j) id js

/-- Threads leave the wave (R155): from every path, join and deferral record. -/
def exitThreads (w : Wave) (id : Nat) (m : Word64) : Wave :=
  let w := { w with defer := (w.defer.map (fun r => { r with mask := r.mask &&& ~~~m })).filter (fun r => r.mask != 0) }
  sweepJoins (clearEntries w id m (List.range 16)) id (List.range 16)

/-- Has the wave no thread left? -/
def Wave.empty (w : Wave) : Bool := w.paths.all (fun p => p.e.kind != .path)

/-- The state a resumed path takes: that in which it was held at a join (R199, R222), a handler's own, or the state a stop of its
context keeps for it (R204). -/
def resumeState (s : State) (c : Nat) (p : Path) : PState × Option PState :=
  let st : PState := match p.kept with
    | some .atMeet => .atMeet
    | some .atReturn => .atReturn
    | _ => p.rest
  match s.ctx? c with
  | some x => if x.state == .running then (st, none) else (.stopped, some st)
  | none => (st, none)

/-- A reply, or TRET, acts on a path parked by an ordinary fault or a debug stop (R198): 1 RETRY, 2 SKIP, 3 EXIT. -/
def resumePath (s : State) (w i action : Nat) : State :=
  match s.wave? w with
  | none => s
  | some x =>
    let p := x.path i
    match p.park with
    | none => s
    | some k =>
      let (st, kept) := resumeState s x.ctx p
      if action == 3 then
        let x := (exitThreads x x.seq p.e.mask).settle
        let s := s.setWave w x
        if x.empty then s.soon (.waveFree w) else s
      else
        let skip := action == 2 && k.after != k.pc
        let p := { p with e := { p.e with state := st }, park := none, kept := kept, rep := if skip then none else p.rep,
                          noMatch := k.kind == .debug && action == 1, reason := 0, eligible := 0 }
        let x := x.setPath i (if skip then p.goesTo k.after else p)
        s.setWave w (if st == .atMeet || st == .atReturn then tryMerge 16 x x.seq p.e.link else x).settle

/-- A record is answered: DONE with its ACTION (R198); the ring unit then writes it. -/
def closeRecord (s : State) (c serial action : Nat) : State :=
  (s.updCtx c (fun x => { x with ring := { x.ring with
    out := x.ring.out.map (fun o => if o.serial == serial then { o with done := true, action := action } else o) } })).soon
      (.ringReply c serial action)

end Sys2Proof.Machine
end

