-- ==== Sys2Proof/Machine/Places.lean ====
section
/-!
DEFINITION. What a wave occupies: slots, register runs, wave areas and team arenas (R144 to R149), the budgets that
GROW and SHRINK change, spilling and restoring (R165 to R169), and the waves that wait for one of these.
-/

namespace Sys2Proof.Machine

/-! ### First fit -/

/-- Does [c, c + n) miss every interval of a list of (offset, length)? -/
def clearOf (iv : List (Nat × Nat)) (c n : Nat) : Bool :=
  iv.all (fun x => decide (c + n ≤ x.1) || decide (x.1 + x.2 ≤ c))

/-- The least and the greatest of a list. -/
def leastOf : List Nat → Option Nat
  | [] => none
  | a :: l => match leastOf l with
    | some b => some (min a b)
    | none => some a
def greatestOf : List Nat → Option Nat
  | [] => none
  | a :: l => match greatestOf l with
    | some b => some (max a b)
    | none => some a

/-- First fit upwards from base, below limit. -/
def fitUp (iv : List (Nat × Nat)) (base limit n : Nat) : Option Nat :=
  leastOf ((base :: iv.map (fun x => x.1 + x.2)).filter (fun c =>
    decide (base ≤ c) && decide (c + n ≤ limit) && clearOf iv c n))

/-- First fit downwards from limit, not below base. -/
def fitDown (iv : List (Nat × Nat)) (base limit n : Nat) : Option Nat :=
  greatestOf (((limit :: iv.map (·.1)).filterMap (fun e => if n ≤ e then some (e - n) else none)).filter (fun c =>
    decide (base ≤ c) && decide (c + n ≤ limit) && clearOf iv c n))

/-! ### Lane pairs (R144, R146) -/

/-- The waves of a lane pair. -/
def wavesOf (s : State) (lp : Nat) : List (Nat × Wave) := s.waves.filter (fun w => lpOf w.1 == lp)

/-- The runs that the waves of a lane pair hold, but for one wave; a SPILLED wave holds none. -/
def runsBut (s : State) (lp : Nat) (but : Option Nat) : List (Nat × Nat) :=
  ((wavesOf s lp).filter (fun w => some w.1 != but && w.2.state != .spilled)).flatMap (fun w => w.2.runs)

/-- Free register units of a lane pair. -/
def freeUnits (s : State) (lp : Nat) : Nat := 512 - ((runsBut s lp none).map (·.2)).foldl (· + ·) 0

/-- The units of a run of n threads at a budget (R144). -/
def unitsFor (threads budget : Nat) : Nat := threads * budget * 4 / 128

/-- k runs of n units each, at the lowest runs that fit. -/
def fitRuns (iv : List (Nat × Nat)) (n : Nat) : Nat → Option (List (Nat × Nat))
  | 0 => some []
  | k + 1 =>
    match fitUp iv 0 512 n with
    | some c => (fitRuns ((c, n) :: iv) n k).map (fun l => (c, n) :: l)
    | none => none

/-- Is a slot of a lane pair empty? -/
def slotFree (s : State) (lp slot : Nat) : Bool := (s.wave? (lp * 16 + slot)).isNone

/-- The lowest free slot, and the lowest wholly free aligned pair (its even slot). -/
def freeSlot (s : State) (lp : Nat) : Option Nat := (List.range 16).find? (slotFree s lp)
def freePair (s : State) (lp : Nat) : Option Nat :=
  ((List.range 8).map (· * 2)).find? (fun k => slotFree s lp k && slotFree s lp (k + 1))

/-! ### Local space (R148, R149) -/

def lstaticOf (s : State) (c : Nat) : Nat := match s.ctx? c with | some x => x.conf.lstatic | none => 0

/-- Bytes of a checkpoint area (R111). -/
def ckptBytes (s : State) (c : Nat) : Nat := match s.ctx? c with | some x => 1024 * 2 ^ x.conf.ckpta | none => 0

/-- Bytes of a wave area for a run of n units (R149). -/
def areaBytes (s : State) (c n : Nat) : Nat := roundUp (1024 + max (ckptBytes s c) (n * 128)) 1024

/-- The wave areas and the arenas of a context on a core. -/
def areasOf (s : State) (core c : Nat) : List (Nat × Nat) :=
  (s.waves.filter (fun w => coreOf w.1 == core && w.2.ctx == c)).flatMap (fun w => w.2.areas)
def arenasOf (s : State) (core c : Nat) : List (Nat × Nat) :=
  ((s.core core).teams.filter (fun t => t.2.ctx == c)).map (fun t => (t.2.base, t.2.size))

/-- k wave areas of n bytes beside the areas `iv` (R148). -/
def fitAreas (s : State) (core c n : Nat) (iv : List (Nat × Nat)) : Nat → Option (List (Nat × Nat))
  | 0 => some []
  | k + 1 =>
    match fitDown iv (lstaticOf s c) (localSize s core c) n with
    | some a =>
      if clearOf (arenasOf s core c) a n then (fitAreas s core c n ((a, n) :: iv) k).map (fun l => (a, n) :: l)
      else none
    | none => none

/-- A team arena of n bytes (R148). -/
def fitArena (s : State) (core c n : Nat) : Option Nat :=
  match fitUp (arenasOf s core c) (lstaticOf s c) (localSize s core c) n with
  | some a => if clearOf (areasOf s core c) a n then some a else none
  | none => none

/-! ### Budgets (R166 to R169) -/

/-- Runs of a wave moved together from unit 0 on, in the order of the list: a relocation (R167). -/
def packRuns : List (Nat × Wave) → Nat → List (Nat × Wave)
  | [], _ => []
  | (id, w) :: ws, at_ =>
    let (rs, e) := w.runs.foldl (fun (a : List (Nat × Nat) × Nat) r => (a.1 ++ [(a.2, r.2)], a.2 + r.2)) ([], at_)
    (id, { w with runs := rs }) :: packRuns ws e

/-- Give a wave k runs of n units: in place where each fits, else the lowest that fit, else after a relocation of the
lane pair's runs (R166, R167; log 22). -/
def resizeRuns (s : State) (wid n : Nat) : State :=
  match s.wave? wid with
  | none => s
  | some w =>
    let others := runsBut s (lpOf wid) (some wid)
    let inPlace := w.runs.map (fun r => (r.1, n))
    let fits := inPlace.all (fun r => decide (r.1 + n ≤ 512) && clearOf others r.1 n) &&
      decide ((inPlace.eraseDups).length = inPlace.length) &&
      inPlace.all (fun r => clearOf (inPlace.filter (· != r)) r.1 n)
    if fits then s.setWave wid { w with runs := inPlace }
    else match fitRuns others n w.runs.length with
      | some rs => s.setWave wid { w with runs := rs }
      | none =>
        let s := s.setWave wid { w with runs := w.runs.map (fun r => (r.1, n)) }
        let live := (wavesOf s (lpOf wid)).filter (fun x => x.2.state != .spilled)
        (packRuns live 0).foldl (fun s x => s.updWave x.1 (fun w => { w with runs := x.2.runs })) s

/-- Additional units that budget n needs. -/
def growNeed (w : Wave) (n : Nat) : Nat := w.runs.length * (unitsFor w.runWidth n - unitsFor w.runWidth w.budget)

/-- The order of waves by age (R147). -/
def olderWave (a b : Nat × Wave) : Bool := decide (a.2.age < b.2.age) || (a.2.age == b.2.age && decide (a.1 < b.1))
def oldestWave (l : List (Nat × Wave)) : Option (Nat × Wave) :=
  l.foldl (fun b x => match b with
    | some y => if olderWave x y then some x else b
    | none => some x) none
def youngestWave (l : List (Nat × Wave)) : Option (Nat × Wave) :=
  l.foldl (fun b x => match b with
    | some y => if olderWave y x then some x else b
    | none => some x) none

def blockedOf (s : State) (lp : Nat) : List (Nat × Wave) := (wavesOf s lp).filter (fun w => w.2.state == .blocked)
def spilledOf (s : State) (lp : Nat) : List (Nat × Wave) := (wavesOf s lp).filter (fun w => w.2.state == .spilled)

/-- Registers n and above of a budget read 0 (R166). -/
def Wave.dropRegs (w : Wave) (n : Nat) : Wave := { w with vregs := w.vregs.filter (fun x => decide (x.1 < n * 64)) }

/-- Enlarge a wave's budget (R166). -/
def enlarge (s : State) (wid n : Nat) : State :=
  match s.wave? wid with
  | none => s
  | some w =>
    let s := resizeRuns s wid (unitsFor w.runWidth n)
    s.updWave wid (fun w => ({ (w.dropRegs w.budget) with
      budget := n, growTo := none, state := if w.state == .blocked then .running else w.state } : Wave).settle)

/-- What GROW comes to. -/
inductive Grown
  | done (s : State)
  | blocked (s : State)
  | fault (f : FaultInfo)

/-- GROW of a wave to n registers (R166, R168). The old areas of a fused wave both stand while the new ones are found (log 22). -/
def growWave (s : State) (wid n : Nat) (mask : Word64) : Grown :=
  match s.wave? wid with
  | none => .done s
  | some w =>
    let n := roundUp n 8
    if decide (256 < n) || decide (65536 < w.width * n * 4) then .fault { code := Code.BUDGET, sub := 1, mask := mask }
    else if n ≤ w.budget then .done s
    else
      let core := coreOf wid
      let size := areaBytes s w.ctx (unitsFor w.runWidth n)
      let areas : Option (List (Nat × Nat)) :=
        if w.areas.all (fun a => decide (size ≤ a.2)) then some w.areas
        else fitAreas s core w.ctx size (areasOf s core w.ctx) w.areas.length
      match areas with
      | none => .fault { code := Code.BUDGET, sub := 4, mask := mask }
      | some as =>
        let s := s.setWave wid { w with areas := as }
        let first := (blockedOf s (lpOf wid)).all (fun x => !olderWave x (wid, w))
        if decide (growNeed w n ≤ freeUnits s (lpOf wid)) && first then .done (enlarge s wid n)
        else .blocked (s.updWave wid (fun w => { w with state := .blocked, growTo := some n }))

/-- The budget a blocked wave waits for. -/
def Wave.target (w : Wave) : Nat := w.growTo.getD w.budget

/-- GROW_GRANT: the oldest pending GROW of a lane pair, once the free units are enough (R167, R168). -/
def grantGrow (s : State) (wid : Nat) : State :=
  match s.wave? wid with
  | none => s
  | some w =>
    let first := (blockedOf s (lpOf wid)).all (fun x => x.1 == wid || !olderWave x (wid, w))
    if w.state == .blocked && first && decide (growNeed w w.target ≤ freeUnits s (lpOf wid)) then enlarge s wid w.target
    else s

/-- Write a spilled wave's registers to its areas, one run to an area (R149), line by line. -/
def writeSpill (s : State) (wid : Nat) (w : Wave) : State :=
  w.areas.zipIdx.foldl (fun s a =>
    let bs := w.runBytes a.2
    (List.range ((bs.length + 127) / 128)).foldl (fun s i =>
      localWrite s { core := coreOf wid, ctx := w.ctx, lease := 0, wave := some wid } (a.1.1 + 1024 + 128 * i)
        ((bs.drop (128 * i)).take 128)) s) s

/-- The local lines that a spill writes. -/
def spillLines (s : State) (wid : Nat) (w : Wave) : List Nat :=
  w.areas.zipIdx.flatMap (fun a => (List.range (((w.runBytes a.2).length + 127) / 128)).map (fun i =>
    localLine s (coreOf wid) w.ctx (a.1.1 + 1024 + 128 * i)))

/-- Can the oldest blocked wave of a lane pair not be granted while all are BLOCKED or PARKED (R169)? -/
def mustSpill (s : State) (lp : Nat) : Option (Nat × Wave) :=
  let ws := wavesOf s lp
  let live := ws.filter (fun w => w.2.state != .spilled)
  match oldestWave (blockedOf s lp) with
  | some o =>
    if live.all (fun w => w.2.state == .blocked || w.2.state == .parked) &&
        decide (freeUnits s lp < growNeed o.2 o.2.target) then
      youngestWave (live.filter (fun w => w.1 != o.1)) else none
  | none => none

/-- SPILL: the youngest BLOCKED or PARKED wave but the oldest BLOCKED one gives up its units (R169). -/
def spillOne (s : State) (lp : Nat) : State :=
  match mustSpill s lp with
  | some (id, w) =>
    (writeSpill s id w).setWave id { w with state := .spilled, left := w.state }
  | none => s

/-- RESTORE: a SPILLED wave comes back at its granted budget, in the state it left (R147, R168). -/
def restoreWave (s : State) (wid : Nat) : State :=
  match s.wave? wid with
  | none => s
  | some w =>
    let n := unitsFor w.runWidth w.target
    if w.state == .spilled && (blockedOf s (lpOf wid)).isEmpty && decide (n * w.runs.length ≤ freeUnits s (lpOf wid)) then
      let s := s.setWave wid { w with state := w.left }
      if w.left == .blocked then enlarge s wid w.target else resizeRuns s wid n
    else s

/-- What a lane pair may now do for its BLOCKED and SPILLED waves. -/
def serveLane (s : State) (lp : Nat) : State :=
  match oldestWave (blockedOf s lp) with
  | some (id, w) =>
    if decide (growNeed w w.target ≤ freeUnits s lp) then s.ensureSoon (.growGrant id)
    else if (mustSpill s lp).isSome then s.ensureSoon (.spill lp) else s
  | none =>
    match oldestWave (spilledOf s lp) with
    | some (id, w) =>
      if decide (unitsFor w.runWidth w.target * w.runs.length ≤ freeUnits s lp) then s.ensureSoon (.restore id) else s
    | none => s

/-! ### Waves that wait for nothing more (R155, R160) -/

/-- Row 3 of R160 for the wave in the other slot: empty, parked, trapped, stopped, SPILLED, BLOCKED or exiting. -/
def unfitBuddy (s : State) (wid : Nat) : Bool :=
  match s.wave? wid with
  | none => true
  | some w =>
    let ps := w.paths.filter (fun p => p.e.kind == .path)
    w.state != .running || ps.isEmpty || ps.any (fun p => p.parked || p.serves.isSome)

/-- The other slot of an aligned pair. -/
def buddyOf (wid : Nat) : Nat := if wid % 2 == 0 then wid + 1 else wid - 1

/-- May a wave without threads become FREE: no unperformed access, no pending flag, no held launch (R155)? -/
def drained (s : State) (wid : Nat) (w : Wave) : Bool :=
  w.empty && !w.unperformed && w.pendingFlags == 0 && w.pend.isEmpty &&
    !(s.core (coreOf wid)).launches.any (fun h => h.wave == wid)

/-- The steps that the waves' own state makes due: the end of an empty wave, of a FUSE whose buddy is unfit, and what
a lane pair does for BLOCKED and SPILLED waves. -/
def watchWaves (s : State) : State :=
  let s := s.waves.foldl (fun s w =>
    if drained s w.1 w.2 then s.ensureSoon (.waveFree w.1)
    else match w.2.fuse with
      | some f => if unfitBuddy s (buddyOf w.1) then s.ensureSoon (.fuseTimeout w.1 f.req) else s
      | none => s) s
  let lanes := ((s.waves.filter (fun w => w.2.state == .blocked || w.2.state == .spilled)).map
    (fun w => lpOf w.1)).eraseDups
  lanes.foldl serveLane s

end Sys2Proof.Machine
end

