-- ==== Sys2Proof/Machine/Launch.lean ====
section
/-!
DEFINITION. Launch records (R176 to R182): reading one, its checks, the queues, the wait list, the aggregator and the
completion counters.
-/

namespace Sys2Proof.Machine

/-! ### Records in memory -/

/-- Who reads a record for a wave: its core, context and lease length. -/
def whoOf (wid : Nat) (w : Wave) : Who := { core := coreOf wid, ctx := w.ctx, lease := w.lease, wave := some wid }

/-- What the buckets of some contexts lack for a token at a controller. -/
def lacking (s : State) (k : Nat) (cs : List Nat) : List (Nat × Int) :=
  cs.filterMap (fun c => match (s.ctx? c).bind (fun x => x.bucket.map (fun b => Sp.get ((b.1 * b.2 : Nat) : Int) x.tokens k)) with
    | some t => if t ≤ 0 then some (c, 1 - t) else none
    | none => none)

/-- Tokens lent to buckets at a controller, or taken back, never below −(RATE × DEPTH). -/
def lendTokens (s : State) (k : Nat) (ds : List (Nat × Int)) : State :=
  ds.foldl (fun s d => s.updCtx d.1 (fun x => match x.bucket with
    | some b => { x with tokens := Sp.insert x.tokens k (max (-((b.1 * b.2 : Nat) : Int)) (Sp.get ((b.1 * b.2 : Nat) : Int) x.tokens k + d.2)) }
    | none => x)) s

/-- A further access of an operation that has begun does not wait for a token: it is charged below zero (R99, log 37). -/
def onCredit {α : Type} (s : State) (c dev : Nat) (f : State → Res α) : Res α :=
  let k := controllerOf s dev
  let ds := lacking s k (lineage 8 s c)
  match f (lendTokens s k ds) with
  | .ok a t => .ok a (lendTokens t k (ds.map (fun d => (d.1, -d.2))))
  | r => r

/-- One of the 16-byte reads of a record: the first waits for what an access waits for, the others have its logical time (log 37,
log 44). -/
def recordPiece (s₀ s : State) (w : Who) (x : Xl) (first : Bool) : Res Got :=
  if first then readAt s w x else onCredit s w.ctx x.dev (fun s => alongside s₀ s (fun s => readAt s w x))

/-- The bytes of a record as n consecutive 16-byte reads from p on, each checked under R38 and performed by itself, and whether
some line they come from is poisoned. -/
def loadFrom (s₀ s : State) (w : Who) (p : Word64) (first : Bool) : Nat → Res (List Byte × Bool)
  | 0 => .ok ([], false) s
  | n + 1 =>
    let rest (s : State) (bs : List Byte) (pz : Bool) : Res (List Byte × Bool) :=
      match loadFrom s₀ s w (p + 16) false n with
      | .ok cs s => .ok (bs ++ cs.1, pz || cs.2) s
      | r => r
    match checkAccess s w.core w.ctx p 16 pR .globalDev with
    | .error f => failed s f
    | .ok (none, s) => rest s (localRead s w.core w.ctx (p.toNat % 0x400000) 16) (localPoison s w.core w.ctx (p.toNat % 0x400000))
    | .ok (some x, s) =>
      match combineNext s₀ s x.dev with
      | .wait a b => .wait a b
      | .fail f => .fail f
      | .ok _ s =>
        match recordPiece s₀ s w x first with
        | .wait a b => .wait a b
        | .fail f => .fail f
        | .ok g s => rest s (placeBytes s g.place x.dev 16) g.poison

def loadRecord (s : State) (w : Who) (p : Word64) (n : Nat) : Res (List Byte × Bool) := loadFrom s s w p true n

/-- A 64-byte launch record (R176). -/
def launchRecOf (bs : List Byte) : LaunchRec where
  entry    := BitVec.ofNat 64 (fieldAt bs 0 8)
  args     := BitVec.ofNat 64 (fieldAt bs 8 8)
  affinity := BitVec.ofNat 64 (fieldAt bs 16 8)
  waitCnt  := BitVec.ofNat 64 (fieldAt bs 24 8)
  waitTgt  := BitVec.ofNat 64 (fieldAt bs 32 8)
  doneCnt  := BitVec.ofNat 64 (fieldAt bs 40 8)
  count    := fieldAt bs 48 4
  incr     := fieldAt bs 52 4
  ctl      := BitVec.ofNat 64 (fieldAt bs 56 8)

/-! ### CTL (R176) -/

def LaunchRec.affOn (r : LaunchRec) : Bool := bit r.ctl 50
def LaunchRec.aggregate (r : LaunchRec) : Bool := bit r.ctl 49
def LaunchRec.idempotent (r : LaunchRec) : Bool := bit r.ctl 48
def LaunchRec.doneOn (r : LaunchRec) : Bool := bit r.ctl 47
def LaunchRec.waitOn (r : LaunchRec) : Bool := bit r.ctl 46
def LaunchRec.tgroup (r : LaunchRec) : Nat := (bits r.ctl 29 3).toNat
def LaunchRec.teamPol (r : LaunchRec) : Nat := (bits r.ctl 27 2).toNat
def LaunchRec.dieMask (r : LaunchRec) : BitVec 8 := bits r.ctl 16 8
def LaunchRec.tc (r : LaunchRec) : Nat := (bits r.ctl 14 2).toNat
def LaunchRec.prio (r : LaunchRec) : Nat := (bits r.ctl 11 3).toNat
def LaunchRec.queue (r : LaunchRec) : Nat := (bits r.ctl 8 3).toNat
def LaunchRec.budget (r : LaunchRec) : Nat := 8 * ((bits r.ctl 3 5).toNat + 1)
def LaunchRec.width (r : LaunchRec) : Nat := 4 * 2 ^ (bits r.ctl 0 3).toNat

/-- Is a die allowed? A mask of 0 allows every die. -/
def LaunchRec.dieOk (r : LaunchRec) (die : Nat) : Bool := r.dieMask == 0 || r.dieMask.getLsbD die

/-- Waves of a placement group (R183). -/
def LaunchRec.group (r : LaunchRec) : Nat := if r.teamPol == 0 then 1 else 2 ^ r.tgroup

def launchFault (sub extra : Nat) (p : Word64) : FaultInfo :=
  { code := Code.LAUNCH_REC, sub := sub, addr := p, extra := BitVec.ofNat 64 extra }

/-- Is a pointer global, or global or device-absolute, and aligned? -/
def globalAt (p : Word64) (size : Nat) : Bool := spaceOf p == 0 && mustZero p && p.toNat % size == 0
def memoryAt (p : Word64) (size : Nat) : Bool :=
  (spaceOf p == 0 || spaceOf p == 2) && mustZero p && p.toNat % size == 0

/-- Orders 2 to 9 of R177, for a record that stands at p. -/
def checkLaunch (units : BitVec 256) (r : LaunchRec) (p : Word64) : Option FaultInfo :=
  if bits r.ctl 51 13 != 0 || bits r.ctl 32 14 != 0 || bits r.ctl 24 3 != 0 || decide (4 < (bits r.ctl 0 3).toNat) ||
      r.teamPol == 3 || decide (4 < r.tgroup) then some (launchFault 1 9 p)
  else if decide (65536 < r.width * r.budget * 4) then some (launchFault 2 9 p)
  else if !((List.range 8).any (fun d => r.dieOk d && bits units (32 * d) 32 != 0)) then some (launchFault 3 9 p)
  else if !globalAt r.entry 8 then some (launchFault 4 1 p)
  else if decide (0x1000000 ≤ r.count) || r.count % 2 ^ r.tgroup != 0 then some (launchFault 5 7 p)
  else if r.waitOn && !memoryAt r.waitCnt 8 then some (launchFault 6 4 p)
  else if r.doneOn && !memoryAt r.doneCnt 8 then some (launchFault 6 6 p)
  else if r.teamPol == 2 && (r.tgroup != 1 || decide (32 < r.width)) then some (launchFault 7 9 p)
  else none

/-- The launch record at p for a wave's context, read and checked (R177). Its pointers are addresses: a poisoned record faults
(R142, log 55). -/
def readLaunch (s : State) (w : Who) (p : Word64) : Res LaunchRec :=
  if p.toNat % 64 != 0 then .fail (bad Code.ALIGN 0 p)
  else match loadRecord s w p 4 with
    | .wait a b => .wait a b
    | .fail f => .fail f
    | .ok (_, true) _ => .fail (bad Code.POISON_USE 0 p)
    | .ok (bs, false) s =>
      let r := launchRecOf bs
      match checkLaunch (unitsOf s w.ctx) r p with
      | some f => .fail f
      | none => .ok r s

/-! ### Completion counters (R178, R180, R181) -/

/-! ### Jobs -/

def State.updJob (s : State) (c id : Nat) (f : Job → Job) : State :=
  s.updCtx c (fun x => { x with jobs := x.jobs.map (fun j => if j.id == id then f j else j) })

def State.job? (s : State) (c id : Nat) : Option Job :=
  match s.ctx? c with
  | some x => x.jobs.find? (fun j => j.id == id)
  | none => none

/-- Report the first failing read of a record's wait counter (R180), and try again in 4,096 ticks. -/
def jobFault (s : State) (c id : Nat) (f : Fail) : State :=
  match s.job? c id with
  | none => s
  | some j =>
    let s := if j.reported then s else raiseNoPath (s.updJob c id (fun j => { j with reported := true })) c f
    s.ensureTicks 4096 (.waitCounterRetry c id)

/-- A job that has nothing left to do goes. -/
def dropJob (s : State) (c id : Nat) : State :=
  s.updCtx c (fun x => { x with jobs := x.jobs.filter (fun j => j.id != id ||
    !(j.state == .placed && j.alive == 0 && j.dues.isEmpty && j.redo.isEmpty)) })

/-- A counter advances by n as one clockless atomic through a context's pointer (R119), once it has a token (R99), and wakes what
waits on it. The old line is logged unless its page is IRREV or SHARED (R207). -/
def bump (s : State) (core c : Nat) (p : Word64) (n : Nat) : Res Unit :=
  match checkPtr p 8 .globalDev with
  | some f => .fail f
  | none =>
    match translate s core c p pRW with
    | .error f => failed s f
    | .ok (x, s) =>
      match combineFirst s x.dev with
      | .wait a b => .wait a b
      | .fail f => .fail f
      | .ok _ t =>
        let l := lineOf x.dev
        let old := curBytes t (l * 128) 128
        let pz := curPoison t (l * 128)
        match (match charge t c x.dev with
          | none => Res.wait (s.clk.tick + 1) 0
          | some t => alongside s t (fun s => clAdd s x.dev n)) with
        | .wait a b => .wait a b
        | .fail f => .fail f
        | .ok _ s => .ok () (wrote (if x.irrev || x.shared then s else logLine s c l old pz) x.dev 8)

/-- A record, or a member of a grid, has completed: its counter is owed (R180, R181). -/
def complete (s : State) (c id : Nat) (r : LaunchRec) : State :=
  if r.doneOn then
    (s.updJob c id (fun j => { j with dues := j.dues ++ [{ cnt := r.doneCnt, incr := r.incr }] })).ensureSoon (.waitCounterRetry c id)
  else dropJob s c id

/-! ### Queues (R179, R182) -/

/-- Records in a launch queue; a grid takes one place, however many records it has (DESIGN CHOICE, log 37). -/
def queueLength (x : Ctx) (q : Nat) : Nat :=
  (x.jobs.filter (fun j => j.lr.queue == q && (j.state == .queued || j.state == .grid))).length

def waitLength (x : Ctx) : Nat := (x.jobs.filter (fun j => j.state == .waiting)).length

/-- Close a queue's open grid: it is a record of the queue, in its first record's position. -/
def closeGrid (x : Ctx) (q : Nat) : Ctx :=
  { x with jobs := x.jobs.map (fun j => if j.state == .grid && j.lr.queue == q then { j with state := .queued } else j) }

/-- May a record join a grid (R182)? -/
def joins (cycle : Nat) (j : Job) (r : LaunchRec) : Bool :=
  j.state == .grid && j.lr.queue == r.queue && decide (j.members.length < 64) && decide (cycle ≤ j.arrived + 256) &&
    j.lr.entry == r.entry && (j.lr.ctl ||| bitAt 48) == (r.ctl ||| bitAt 48)

/-- A record enters the tail of its queue. -/
def enterQueue (s : State) (c : Nat) (r : LaunchRec) : State :=
  match s.ctx? c with
  | none => s
  | some x =>
    let now := s.clk.cycle
    if r.count == 0 then
      let (id, s) := s.fresh
      complete (s.setCtx c { x with jobs := x.jobs ++ [{ id := id, lr := r, members := [r], state := .placed }] }) c id r
    else if r.aggregate && r.count == 1 then
      match x.jobs.find? (fun j => joins now j r) with
      | some g =>
        let g' := { g with members := g.members ++ [r] }
        let g' := if decide (64 ≤ g'.members.length) then { g' with state := .queued } else g'
        (s.setCtx c { x with jobs := x.jobs.map (fun j => if j.id == g.id then g' else j) }).ensureSoon
          (.dispatchPlacement c)
      | none =>
        let (id, s) := s.fresh
        let x := closeGrid x r.queue
        let s := s.setCtx c { x with jobs := x.jobs ++ [{ id := id, lr := r, members := [r], state := .grid,
                                                           arrived := now }] }
        (s.after 256 (.gridClose c r.queue)).ensureSoon (.dispatchPlacement c)
    else
      let (id, s) := s.fresh
      (s.setCtx c { x with jobs := x.jobs ++ [{ id := id, lr := r, members := [r], state := .queued, arrived := now }] })
        |>.ensureSoon (.dispatchPlacement c)

/-- The records whose counters have reached their targets enter their queues where there is room, in the order in which they
joined the wait list (R179). -/
def enterReady (s : State) (c : Nat) : State :=
  let js : List Job := match s.ctx? c with | some x => x.jobs.filter (fun j => j.state == .waiting && j.ready) | none => []
  js.foldl (fun s j => match s.ctx? c with
    | some x => if decide (queueLength x j.lr.queue < 512) then
        enterQueue (s.setCtx c { x with jobs := x.jobs.filter (fun k => k.id != j.id) }) c j.lr else s
    | none => s) s

/-- A checked record enters its wait list or its queue; none when that is full (R179). -/
def enqueue (s : State) (c : Nat) (r : LaunchRec) : Option State :=
  match s.ctx? c with
  | none => some s
  | some x =>
    if r.waitOn then
      if decide (1024 ≤ waitLength x) then none
      else
        let (id, s) := s.fresh
        some ((s.setCtx c { x with jobs := x.jobs ++ [{ id := id, lr := r, members := [r], state := .waiting }] }).soon
          (.waitCounterPoll c id))
    else if decide (512 ≤ queueLength x r.queue) then none
    else some (enterQueue s c r)

/-- A wait counter is read (R180): with a value at or above the target the record is ready for its queue. -/
def pollWait (s : State) (c id : Nat) : State :=
  match s.job? c id with
  | some j =>
    if j.state != .waiting || j.ready then s
    else
      let again (a r : Nat) : State := if s.sch.waits.any (fun y => y.2 == .waitCounterPoll c id) then s
        else s.waitTick a r (.waitCounterPoll c id)
      match clCheck s (launchCore s c) c j.lr.waitCnt 8 pR with
      | .error f => if f.later then again (s.clk.tick + 1) 0 else jobFault s c id f
      | .ok (d, t) =>
        match combineFirst t d with
        | .wait a r => again a r
        | .fail f => jobFault s c id f
        | .ok _ t =>
          match clRead t d 8 with
          | .wait a r => again a r
          | .fail f => jobFault s c id f
          | .ok (bs, _) t =>
            if decide (j.lr.waitTgt.toNat ≤ leNat bs) then enterReady (t.updJob c id (fun j => { j with ready := true })) c
            else t.ensureTicks 16 (.waitCounterPoll c id)
  | none => s

end Sys2Proof.Machine
end

