-- ==== Sys2Proof/Machine/Window.lean ====
section
/-!
DEFINITION. Speculation windows (R106 to R118): accesses waiting to be performed, loads performed early, commit,
conflicts and rollback, the pin grant, held launches, and the seal that precedes an irrevocable operation (R208).
-/

namespace Sys2Proof.Machine

/-! ### What an access does -/

/-- Bytes, accepted spaces, permission needed, whether it writes. -/
structure AccKind where
  size   : Nat
  spaces : Spaces
  want   : BitVec 3
  store  : Bool
  deriving DecidableEq, Repr

def sizeOf : MSize → Nat
  | .n8 | .i8 => 1
  | .n16 | .i16 => 2
  | .n32 => 4
  | .n64 => 8
  | .n128 => 16

def accKind : Instr → AccKind
  | .ld z _ => ⟨sizeOf z, .globalDev, pR, false⟩
  | .st z _ => ⟨sizeOf z, .globalDev, pW, true⟩
  | .ldl z _ => ⟨sizeOf z, .locl, pR, false⟩
  | .stl z _ => ⟨sizeOf z, .locl, pW, true⟩
  | .atom _ _ _ o | .cas o => ⟨if o.wide then 8 else 4, .globalDev, pRW, true⟩
  | .cadd o _ => ⟨copElem o, .globalDev, pRW, true⟩
  | .cntadd _ _ _ => ⟨8, .globalDev, pRW, true⟩
  | .waitge _ _ _ _ _ => ⟨8, .globalDev, pR, false⟩
  | .binit _ _ _ _ | .barv _ | .bdrop _ => ⟨16, .any, pRW, true⟩
  | .bwait _ _ _ _ _ _ | .btest _ _ _ _ => ⟨16, .any, pR, false⟩
  | .prf _ _ => ⟨1, .globalDev, pR, false⟩
  | .tld _ _ _ _ => ⟨128, .globalDev, pR, false⟩
  | .tst _ _ _ _ => ⟨128, .globalDev, pW, true⟩
  | _ => ⟨1, .globalDev, pRW, true⟩

/-- Does it wait in the store queue (R108, R296, R303)? -/
def queuedStore : Instr → Bool
  | .st _ _ | .stl _ _ | .cadd _ _ | .cntadd _ _ _ | .crflush _ _ => true
  | _ => false

/-- Is it performed early in a window (R107)? -/
def earlyLoad : Instr → Bool
  | .ld _ _ | .ldl _ _ | .prf _ _ | .btest _ _ _ _ => true
  | _ => false

/-- Does a performed access end the demotion of spinning paths (R187)? -/
def endsDemotion : Instr → Bool
  | .st _ _ | .stl _ _ | .atom _ _ _ _ | .cas _ | .cadd _ _ | .cntadd _ _ _ | .barv _ | .bdrop _
  | .binit _ _ _ _ => true
  | _ => false

/-- The words of a loaded value (R286). -/
def loadWords (z : MSize) (bs : List Byte) : List Word32 :=
  let v := leNat bs
  match z with
  | .n8 | .n16 | .n32 => [BitVec.ofNat 32 v]
  | .i8 => [(BitVec.ofNat 8 v).signExtend 32]
  | .i16 => [(BitVec.ofNat 16 v).signExtend 32]
  | .n64 => [BitVec.ofNat 32 v, BitVec.ofNat 32 (v / 0x100000000)]
  | .n128 => [BitVec.ofNat 32 v, BitVec.ofNat 32 (v / 0x100000000), BitVec.ofNat 32 (v / 0x10000000000000000),
              BitVec.ofNat 32 (v / 0x1000000000000000000000000)]

/-- Register writes of consecutive words, in the form's own file. -/
def wordWrites (sc : Bool) (dst tid : Nat) (poison : Bool) : List Word32 → List RegW
  | [] => []
  | v :: vs => (if sc then .s dst ⟨v, poison⟩ else .v dst tid ⟨v, poison⟩) :: wordWrites sc (dst + 1) tid poison vs

/-- The new value of an ATOM on n bits and the status bits it raises (R291). -/
def atomNew (op : AOp) (sgn : Bool) (n old v : Nat) : Nat × Word32 :=
  let less (a b : Nat) : Bool := if sgn then decide ((BitVec.ofNat n a).toInt ≤ (BitVec.ofNat n b).toInt) else decide (a ≤ b)
  match op with
  | .xchg => (v, 0)
  | .add => ((old + v) % 2 ^ n, 0)
  | .min => (if less old v then old else v, 0)
  | .max => (if less old v then v else old, 0)
  | .and => (old &&& v, 0)
  | .or => (old ||| v, 0)
  | .xor => (old ^^^ v, 0)
  | .fadd =>
    let r := fAddR .f32 .rn (fDecode .f32 old) (fDecode .f32 v)
    (r.code, r.flags)

/-! ### Barrier objects (R298 to R301) -/

def barFault (code sub : Nat) (p : Word64) : FaultInfo := { code := code, sub := sub, addr := p }

/-- ARRIVE (R300): the new object, if it changes, and the fault. A DROP that no arrivals give may leave its field, or exceed
EXPECT: a free value, since the manual states none (log 5). -/
def arriveAt (o : BitVec 128) (c : Nat) (drop : Bool) (wid : Nat) (p : Word64) (free : Nat) :
    Option (BitVec 128) × Option FaultInfo :=
  let expect := (bits o 0 12).toNat
  let arrived := (bits o 12 12).toNat
  let dropped := (bits o 28 12).toNat
  if bits o 96 32 != 0 || bits o 41 7 != 0 || expect == 0 then (none, some (barFault Code.BAR_MISUSE 2 p))
  else if c == 0 || decide (4095 < c) then (none, some (barFault Code.BAR_MISUSE 3 p))
  else if decide (expect < arrived + c) then
    (some (o ||| (1#128 <<< 40)), some (barFault Code.BAR_OVERRUN 0 p))
  else
    let arrived := arrived + c
    let dropped := dropped + (if drop then c else 0)
    let open12 : BitVec 12 := (Config.freeWord free o.toNat).setWidth 12
    if arrived == expect then
      let ph : BitVec 4 := bits o 24 4 + 1
      let comp : BitVec 32 := bits o 64 32 + 1
      let lastw : BitVec 16 := BitVec.ofNat 16 wid
      let ovr : BitVec 1 := bits o 40 1
      let lo : BitVec 64 := lastw ++ (0#7) ++ ovr ++ (0#12) ++ ph ++ (0#12) ++
        (if dropped ≤ expect then BitVec.ofNat 12 (expect - dropped) else open12)
      (some ((0#32) ++ comp ++ lo), none)
    else
      let ph : BitVec 4 := bits o 24 4
      let mid : BitVec 40 := (if dropped < 4096 then BitVec.ofNat 12 dropped else open12) ++ ph ++
        BitVec.ofNat 12 arrived ++ BitVec.ofNat 12 expect
      (some ((o &&& ~~~(0xFFFFFFFFFF : BitVec 128)) ||| mid.setWidth 128), none)

/-! ### Demotion -/

/-- A path's spin count and demotion end. -/
def Path.calm (p : Path) : Path := { p with spin := 0, demoted := false }

/-- The demotions that a performed write ends also end in what a rollback would restore. -/
def calmUndo (own : Bool) (path : Nat) (u : Undo) : Undo :=
  match u.what with
  | .entry i p => if (own && i == path) || p.demoted then { u with what := .entry i p.calm } else u
  | .place i p => if (own && i == path) || p.demoted then { u with what := .place i p.calm } else u
  | _ => u

/-- A write to memory by a path is performed: its own spin count and the demotion of the core's paths end (R187). -/
def noteWrite (s : State) (wid path : Nat) : State :=
  { s with waves := s.waves.map (fun w =>
      if coreOf w.1 != coreOf wid then w
      else (w.1, { w.2 with
        paths := ((List.range 16).map w.2.path).zipIdx.map (fun y =>
          if (w.1 == wid && y.2 == path) || y.1.demoted then y.1.calm else y.1),
        win := w.2.win.map (fun n => { n with undo := n.undo.map (calmUndo (w.1 == wid) path) }) })) }

/-! ### One thread's operation -/

/-- What one lane came to: register writes, status bits, a fault of a barrier object. -/
structure Done where
  writes : List RegW := []
  stat   : Word32 := 0
  fault  : Option FaultInfo := none

/-- The checks of R38 for a lane; those of an access that has begun have been made (R194). -/
def laneCheck (s : State) (core c : Nat) (l : Lane) (size : Nat) (want : BitVec 3) (sp : Spaces) : Except Fail (Option Xl × State) :=
  match l.xl with
  | some x => .ok (some x, s)
  | none => checkAccess s core c l.ptr size want sp

/-- Has the pinned window of another wave read a local line (R117)? -/
def localPinned (s : State) (line : Nat) (wave : Option Nat) : Bool :=
  match s.pins.holder with
  | none => false
  | some h => some h != wave && (match s.wave? h with
    | some w => w.win.any (fun n => n.pinned && n.reads.any (fun r => r.line == line))
    | none => false)

/-- Read size bytes for a lane, at its place; a line of a commutative range is combined first, after the access's own seal where that
needs one (R97). -/
def laneRead (s : State) (w : Who) (l : Lane) (k : AccKind) : Res (List Byte × Bool) :=
  match laneCheck s w.core w.ctx l k.size k.want k.spaces with
  | .error f => failed s f
  | .ok (none, s) =>
    let off := l.ptr.toNat % 0x400000
    .ok (localRead s w.core w.ctx off k.size, localPoison s w.core w.ctx off) (touchLocal s w.core w.ctx off)
  | .ok (some x, s) =>
    match combineFirst s x.dev l.xl.isNone true with
    | .wait a b => .wait a b
    | .fail f => .fail f
    | .ok _ s =>
      match readAt s w x with
      | .wait a b => .wait a b
      | .fail f => .fail f
      | .ok g s => .ok (placeBytes s g.place x.dev k.size, g.poison) s

/-- Change size bytes for a lane by f, at its place: f answers the new bytes, or none where nothing is written. -/
def laneWrite (s : State) (w : Who) (l : Lane) (k : AccKind) (f : List Byte → Option (List Byte)) :
    Res (List Byte × Bool) :=
  match laneCheck s w.core w.ctx l k.size k.want k.spaces with
  | .error f => failed s f
  | .ok (none, s) =>
    let off := l.ptr.toNat % 0x400000
    let old := localRead s w.core w.ctx off k.size
    let pz := localPoison s w.core w.ctx off
    if localPinned s (localLine s w.core w.ctx off) w.wave then .wait (s.clk.tick + 1) 0
    else match f old with
    | none => .ok (old, pz) (touchLocal (strikeCore s w.core (localLine s w.core w.ctx off) w.wave) w.core w.ctx off)
    | some new =>
      .ok (old, pz) (wrote (touchLocal (localWrite s w off new true (k.spaces == .locl)) w.core w.ctx off)
        (0x8000000000000000 + localAddr s w.core w.ctx off) k.size)
  | .ok (some x, s) =>
    match combineFirst s x.dev l.xl.isNone true with
    | .wait a b => .wait a b
    | .fail f => .fail f
    | .ok _ s =>
      match f (curBytes s x.dev k.size) with
      | none =>
        match casReadAt s w x with
        | .wait a b => .wait a b
        | .fail f => .fail f
        | .ok g s => .ok (placeBytes s g.place x.dev k.size, g.poison) (strikeCore s w.core (lineOf x.dev) w.wave)
      | some _ =>
        match writeAt s w x with
        | .wait a b => .wait a b
        | .fail f => .fail f
        | .ok g s =>
          let old := placeBytes s g.place x.dev k.size
          .ok (old, g.poison)
            (wrote (putBytes s w g.place x.dev ((f old).getD old) (!(x.irrev || x.shared))) x.dev k.size)

/-- The slot in which a CADD contributes to a partial: that of its element, if it is of the same COP (R295). -/
def caddSlot (s : State) (c : Nat) (o : COp) (p : Word64) : Option (Nat × CRange) :=
  if spaceOf p == 0 then (slotAt s c p).filter (fun y => y.2.op == o) else none

/-- One thread's CADD (R96, R295). A contribution leaves the line as it is, but a pin on the line holds it up too (R117). -/
def laneCadd (s : State) (w : Who) (l : Lane) (o : COp) (v : Word32) : Res (List Byte × Bool) :=
  let p := l.ptr
  match laneCheck s w.core w.ctx l (copElem o) pRW .globalDev with
  | .error f => failed s f
  | .ok (none, s) => .ok ([], false) s
  | .ok (some x, t) =>
    match caddSlot s w.ctx o p with
    | some (slot, r) =>
      if (List.range 8).any (fun d => diePinned t d (lineOf x.dev)) && !w.own then .wait (t.clk.tick + 1) 0
      else
        let t := match x.ent with | some e => locateEntry t w.core w.ctx e.vpart | none => t
        let t := registerCore t w.core w.ctx slot r
        let n := (p.toNat - r.base.toNat) / copElem o
        let off := r.poff + 4 * n
        let t := logLocal t w.core w.ctx off
        let t := setPartial t w.core w.ctx r n (copApply o (partialAt t w.core w.ctx r n) (caddValue o v))
        .ok ([], false) (touchLocal (strikeCore t w.core (lineOf x.dev) w.wave) w.core w.ctx off)
    | none => laneWrite s w l (accKind (.cadd o ⟨.neutral, false, false, 0, 0, 0⟩))
        (fun bs => some (leBytes (caddDirect o (BitVec.ofNat 32 (leNat bs)) v) (copElem o)))

/-- PRF of one line (R289): made valid where its target is a frame; anything that would fault is skipped. -/
def lanePrf (s : State) (w : Who) (l : Lane) : Res Unit :=
  match laneCheck s w.core w.ctx l 1 pR .globalDev with
  | .error f => if f.later then .wait (s.clk.tick + 1) 0 else .ok () s
  | .ok (none, _) => .ok () s
  | .ok (some x, t) =>
    match combineFirst t x.dev l.xl.isNone true with
    | .wait a b => .wait a b
    | .fail _ => .ok () s
    | .ok _ t =>
      match placeOf w.wave 4 t w.core w.ctx x w.lines with
      | .wait a b => .wait a b
      | .fail _ => .ok () s
      | .ok .home t => .ok () t
      | .ok (.frame _) t =>
        match readAt t w x with
        | .wait a b => .wait a b
        | .fail _ => .ok () s
        | .ok _ t => .ok () t

/-- The operation of one lane of an access of a wave (R287, R289, R291, R295, R300, R301, R303). -/
def laneOp (s : State) (w : Who) (wid : Nat) (a : Access) (l : Lane) : Res Done :=
  let k := accKind a.instr
  let write (f : List Byte → Option (List Byte)) (done : Nat → Bool → Done) : Res Done :=
    match laneWrite s w l k f with
    | .wait a b => .wait a b
    | .fail f => .fail f
    | .ok (bs, pz) s => .ok (done (leNat bs) pz) s
  let touch (s : State) : State := if k.spaces == .locl then spoil s w.core w.ctx (l.ptr.toNat % 0x400000) k.size else s
  match a.instr with
  | .ld z o | .ldl z o =>
    match laneRead s w l k with
    | .wait a b => .wait a b
    | .fail f => .fail f
    | .ok (bs, pz) s => .ok { writes := wordWrites o.s o.dst.toNat l.tid pz (loadWords z bs) } (touch s)
  | .st _ _ | .stl _ _ =>
    match write (fun _ => some (leBytes l.d0.toNat k.size)) (fun _ _ => {}) with
    | .ok d s => .ok d (touch s)
    | r => r
  | .atom op sgn nr o =>
    let n := 8 * k.size
    let v := l.d0.toNat % 2 ^ n
    write (fun bs => some (leBytes (atomNew op sgn n (leNat bs) v).1 k.size))
      (fun old pz => { writes := if nr then [] else wordWrites o.s o.dst.toNat l.tid pz
                         (loadWords (if o.wide then .n64 else .n32) (leBytes old k.size)),
                       stat := if pz then 0 else (atomNew op sgn n old v).2 })
  | .cas o =>
    let n := 8 * k.size
    write (fun bs => if leNat bs == l.d0.toNat % 2 ^ n then some (leBytes (l.d1.toNat % 2 ^ n) k.size) else none)
      (fun old pz => { writes := wordWrites o.s o.dst.toNat l.tid pz
                         (loadWords (if o.wide then .n64 else .n32) (leBytes old k.size)) })
  | .cadd o _ =>
    match laneCadd s w l o (l.d0.setWidth 32) with
    | .wait a b => .wait a b
    | .fail f => .fail f
    | .ok _ s => .ok {} s
  | .cntadd _ _ _ =>
    write (fun bs => some (leBytes ((leNat bs + l.d0.toNat) % 0x10000000000000000) 8)) (fun _ _ => {})
  | .binit _ _ _ _ =>
    if l.d0 == 0 || decide (4095 < l.d0.toNat) then .ok { fault := some (barFault Code.BAR_MISUSE 3 l.ptr) } s
    else write (fun _ => some (leBytes l.d0.toNat 16)) (fun _ _ => {})
  | .barv _ | .bdrop _ =>
    let drop := match a.instr with | .bdrop _ => true | _ => false
    let go (bs : List Byte) := arriveAt (BitVec.ofNat 128 (leNat bs)) l.d0.toNat drop wid l.ptr s.sch.free
    write (fun bs => (go bs).1.map (fun o => leBytes o.toNat 16))
      (fun old _ => { fault := (go (leBytes old 16)).2 })
  | .btest _ d _ _ =>
    match laneRead s w l k with
    | .wait a b => .wait a b
    | .fail f => .fail f
    | .ok (bs, pz) s => .ok { writes := wordWrites true d.toNat 0 pz (loadWords .n64 (bs.take 8)) } s
  | .prf _ _ =>
    match lanePrf s w l with
    | .wait a b => .wait a b
    | .fail f => .fail f
    | .ok _ s => .ok {} s
  | .crflush _ slot =>
    match s.ctx? w.ctx with
    | none => .ok {} s
    | some x =>
      match Sp.find x.cranges slot.toNat with
      | none => .ok {} s
      | some r =>
        match combineRun s w.ctx slot.toNat 0 (r.len / 128) true with
        | .wait a b => .wait a b
        | .fail f => .fail f
        | .ok f s => .ok { fault := f } s
  | .tld _ t _ m =>
    let v := s.tcOf w.core t.toNat
    match laneRead s w l k with
    | .wait a b => .wait a b
    | .fail f => .fail f
    | .ok (bs, pz) s =>
      .ok {} ((lanePieces v m l).foldl (fun s p =>
        loadPiece s w.core t.toNat v m p ((bs.drop (p.va.toNat % 128)).take p.len) pz) s)
  | .tst _ t _ m =>
    let v := s.tcOf w.core t.toNat
    write (fun bs => some (overlay s w.core t.toNat v m (lanePieces v m l) bs)) (fun _ _ => {})
  | _ => .ok {} s

/-! ### Checks before an access is performed -/

/-- The first failing check of a lane (R38, R142, R287, R291), and that of the combine before it (R97). -/
def laneFault (s : State) (core c : Nat) (i : Instr) (l : Lane) : Option Fail :=
  let k := accKind i
  let poisoned : Fail := bad Code.POISON_USE 0 l.ptr
  let late := match i with | .st _ _ | .stl _ _ => true | _ => false
  if l.pointer then some poisoned
  else if l.poison && !late then some poisoned
  else match i with
    | .prf _ _ | .crflush _ _ => none
    | _ =>
      match checkAccess s core c l.ptr k.size k.want k.spaces with
      | .error f => some f
      | .ok (x, t) =>
        if l.poison then some poisoned
        else match i, x with
          | _, none => none
          | .cadd o _, some x => if (caddSlot t c o l.ptr).isSome then none else combineFault t x.dev
          | _, some x => combineFault t x.dev

/-- The fault of an access; one that is to be checked again later stands for all of them. -/
def lanesFault (s : State) (core c : Nat) (i : Instr) (ls : List Lane) : Option FaultInfo :=
  let fs := ls.filterMap (fun l => (laneFault s core c i l).map (fun f => (l.tid, f)))
  match fs.find? (fun f => f.2.later) with
  | some f => some f.2
  | none => firstFault fs

/-- The lowest breakpoint that a byte range, read or written by a path, matches (R221). -/
def bkptHit (c : Ctx) (w p : Nat) (rd wr : Bool) (a : Word64) (n : Nat) : Option Nat :=
  (c.bkpts.find? (fun b => bkptPath b.2 w p && spaceOf a == 0 &&
    ((rd && (bkptKind b.2 == 1 || bkptKind b.2 == 3)) || (wr && (bkptKind b.2 == 2 || bkptKind b.2 == 3))) &&
    decide (a.toNat < (bkptAddr b.2).toNat + 2 ^ (bits b.2 5 4).toNat) &&
    decide ((bkptAddr b.2).toNat < a.toNat + n))).map (·.1)

/-- The lowest match of an access. -/
def accBkpt (s : State) (wid c : Nat) (a : Access) : Option Nat :=
  if a.quiet then none else
  match s.ctx? c, a.instr with
  | _, .prf _ _ => none
  | _, .crflush _ _ => none
  | some x, _ =>
    let k := accKind a.instr
    let ranges : List (Word64 × Nat) := a.lanes.flatMap (fun l => match tileMove a.instr with
      | some (t, m, _) => (lanePieces (s.tcOf (coreOf wid) t) m l).map (fun p => (p.va, p.len))
      | none => [(l.ptr, k.size)])
    let hits := ranges.filterMap (fun r => bkptHit x wid a.path (k.want &&& pR != 0) k.store r.1 r.2)
    hits.foldl (fun b n => match b with | some m => some (min m n) | none => some n) none
  | none, _ => none

/-! ### Conflicts (R113) -/

/-- Roll back, without counting, every window of the waves that a test selects. -/
def rollbackAll (s : State) (ok : Nat → Wave → Bool) : State :=
  ((s.waves.filter (fun w => ok w.1 w.2)).map (·.1)).foldl (fun s w => rollback s w false) s

/-- Conflicts noted since the last step are acted on (R113): every window that holds a struck line rolls back. -/
def settleHits (s : State) : State :=
  let hits := s.sch.hits
  let s := { s with sch := { s.sch with hits := [] } }
  let struck (wid : Nat) (w : Wave) : Bool := match w.win with
    | some n => !n.pinned && hits.any (fun h => h.except != some wid &&
        (if h.onCore then h.unit == coreOf wid else h.unit == dieOf wid) && n.reads.any (fun r => r.line == h.line))
    | none => false
  if hits.isEmpty then s
  else (((s.waves.filter (fun (w : Nat × Wave) => struck w.1 w.2)).map Prod.fst)).foldl (fun s w => rollback s w true) s

/-! ### The seal (R206 to R208) -/

/-- Is a core lent by a root to another? -/
def lentAway (s : State) (root core : Nat) : Bool := s.parts.any (fun p => p.1 != root && p.2.lent.any (fun l => l.1 == core))

/-- The cores a partition runs on: its root's units but for those it has lent, and those lent to it. -/
def partCores (s : State) (root : Nat) : List Nat :=
  let lent : List Nat := match s.part? root with | some p => p.lent.map Prod.fst | none => []
  (List.range 256).filter (fun c => ((unitsOf s root).getLsbD c && !lentAway s root c) || lent.contains c)

/-- The part of tiles and accumulators that belongs to some cores. -/
def Matrix.of (m : Matrix) (ok : Nat → Bool) : Matrix where
  image   := m.image.filter (fun c => ok (c.1 / 524288))
  scales  := m.scales.filter (fun c => ok (c.1 / 65536))
  wpoison := m.wpoison.filter (fun c => ok (c.1 / 131072))
  spoison := m.spoison.filter (fun c => ok (c.1 / 65536))
  accs    := m.accs.filter (fun c => ok (c.1 / 65536))

/-- Operations under way whose only trace is the step that completes them. -/
def opOf (s : State) (root : Nat) : Instr → Bool
  | .tlbinvComplete c _ _ _ _ _ | .ctxrevokeComplete c _ _ => inSubtree s root c
  | _ => false

/-- Every step that is due now or later. -/
def State.due (s : State) : List Instr := s.sch.agenda ++ s.sch.timers.map (·.ev) ++
  (s.sch.waits.map (fun (w : Nat × Instr) => w.2))

/-- What a checkpoint of a partition captures (R206). -/
def capture (s : State) (root : Nat) : Snapshot :=
  let cores := partCores s root
  let mine (c : Nat) : Bool := inSubtree s root c
  { waves := s.waves.filter (fun w => mine w.2.ctx),
    cores := s.cores.filter (fun k => cores.contains k.1),
    ctxs := s.ctxs.filter (fun c => mine c.1),
    copies := s.copies.filter (fun c => mine c.ctx),
    colls := s.colls.filter (fun c => cores.contains (c.team / 64)),
    mx := s.mx.of cores.contains,
    ops := s.due.filter (opOf s root) }

/-- The accesses that wait for a checkpoint have it (R208), and go on. -/
def servePaused (s : State) (root : Nat) : State :=
  let mine := s.waves.filter (fun w => inSubtree s root w.2.ctx)
  let s := { s with waves := s.waves.map (fun w => if inSubtree s root w.2.ctx then (w.1, { w.2 with
    accs := w.2.accs.map (fun a => if a.paused then { a with paused := false, sealed := true } else a),
    paths := w.2.paths.map (fun (p : Path) => if p.wants then { p with wants := false, sealed := true } else p) }) else w) }
  mine.foldl (fun s w => (w.2.accs.filter (fun a => a.paused)).foldl (fun s a => s.ensureSoon (.accessPerformed w.1 a.id)) s) s

/-- CHECKPOINT of a partition: windows roll back, open grids close, the state is captured, the undo log is empty. -/
def checkpointOf (s : State) (root : Nat) : State :=
  match s.part? root with
  | none => s
  | some _ =>
    let s := rollbackAll s (fun _ w => inSubtree s root w.ctx)
    let s := { s with ctxs := s.ctxs.map (fun (c : Nat × Ctx) => if inSubtree s root c.1
      then (c.1, (List.range 8).foldl closeGrid c.2) else c) }
    let shut (x : Ctx) : Ctx := { x with ring := { x.ring with out := x.ring.out.filter (fun o => !o.closed) } }
    let s := { s with ctxs := s.ctxs.map (fun (c : Nat × Ctx) => if inSubtree s root c.1 then (c.1, shut c.2) else c) }
    match s.part? root with
    | some p => servePaused (s.setPart root { p with log := [], snap := capture s root, pausing := false }) root
    | none => s

/-- A seal for a context's partition. -/
def takeSeal (s : State) (c : Nat) : State := checkpointOf s (rootOf s c)

/-- Is an access of a wave on its way: issued outside the open window, which a checkpoint rolls back, not performed, and not itself
waiting for the checkpoint? -/
def onItsWay (w : Wave) (a : Access) : Bool :=
  !(a.early || a.paused || a.faulted.isSome || (match w.win with | some n => decide (n.first ≤ a.id) | none => false))

/-- A checkpoint lets the accesses on their way complete (R206): is there none in a partition? -/
def partQuiet (s : State) (root : Nat) : Bool :=
  s.waves.all (fun w => !inSubtree s root w.2.ctx || w.2.accs.all (fun a => !onItsWay w.2 a))

/-- Must a seal for a context wait for accesses of its partition that are on their way? -/
def sealWaits (s : State) (c : Nat) : Bool := (s.part? (rootOf s c)).isSome && !partQuiet s (rootOf s c)

/-- Windows of a partition roll back, and its issue pauses (R206, R209). -/
def pausePart (s : State) (root : Nat) : State :=
  match s.part? root with
  | none => s
  | some p =>
    if p.pausing then s
    else rollbackAll (s.setPart root { p with pausing := true }) (fun _ w => inSubtree s root w.ctx)

/-- A checkpoint is asked for: issue pauses until it has been taken (R206). -/
def askCheckpoint (s : State) (root : Nat) : State :=
  if (s.part? root).any (fun p => p.pausing) then s
  else if (s.part? root).isSome then (pausePart s root).ensureSoon (.checkpoint root) else s

/-- Does the issue of a context's partition pause? -/
def issuePaused (s : State) (c : Nat) : Bool := (s.part? (rootOf s c)).any (fun p => p.pausing)

/-- What is preceded by a seal is served by one that was taken while it waited, else takes one; where accesses of the partition are
still on their way, it waits for them (R208). -/
def sealedAct (x : Iss) (s : State) (act : State → Act) : Act :=
  if x.p.sealed then act s
  else if sealWaits s x.w.ctx then
    .stallAt (askCheckpoint (s.updWave x.cur.wave (fun w => w.setPath x.cur.path { w.path x.cur.path with wants := true }))
      (rootOf s x.w.ctx)) 12
  else act (takeSeal s x.w.ctx)

/-- An instruction that is preceded by a seal (R109, R208). -/
def issueSealed (i : Instr) (s : State) (act : Iss → State → Act) : Out := issue i s (fun x s => sealedAct x s (act x))

/-- Do the appends of some lines to the log of a context's partition find it full (R207)? A line logged since the last checkpoint is
not appended again; an empty log takes them all. -/
def logShort (s : State) (c : Nat) (keys : List Nat) : Bool :=
  (s.part? (rootOf s c)).any (fun p =>
    let new := (keys.eraseDups).filter (fun k => !p.log.any (fun x => x.line == k))
    !new.isEmpty && !p.log.isEmpty && decide (p.logMax < p.log.length + new.length))

/-- Does the next append to the log of a context's partition first force a checkpoint (R207)? -/
def logFull (s : State) (c : Nat) : Bool :=
  (s.part? (rootOf s c)).any (fun p => decide (p.logMax ≤ p.log.length))

/-- Does the combine of the first n lines of a slot begin with a seal, or with a checkpoint that its log lines force (R29, R207)? -/
def runSeals (s : State) (c slot n : Nat) : Bool :=
  (List.range n).any (sealsLine s c slot) || logShort s c ((List.range n).flatMap (combineLogs s c slot))

/-- A step of an agent that appends some lines to the log: where the checkpoint they force must wait, the step waits too. -/
def withLines (s : State) (c : Nat) (keys : List Nat) (self : Instr) (f : State → State) : State :=
  if !logShort s c keys then f s
  else if sealWaits s c then (askCheckpoint s (rootOf s c)).ensureTicks 1 self else f (takeSeal s c)

/-- An append that finds the log full first forces a checkpoint (R207). -/
def logRoom (s : State) (c : Nat) : State := if logFull s c then takeSeal s c else s

/-- A step of an agent that may append to the log: where the checkpoint it forces must wait, the step waits too. -/
def withRoom (s : State) (c : Nat) (self : Instr) (f : State → State) : State :=
  if logFull s c && sealWaits s c then (askCheckpoint s (rootOf s c)).ensureTicks 1 self else f (logRoom s c)

/-- An access waits for a checkpoint of its partition: taken at once where nothing else is on its way (`true`), else asked for. -/
def checkpointFor (s : State) (wid c id : Nat) : State × Bool :=
  let root := rootOf s c
  let s := s.updWave wid (fun w => { w with accs := w.accs.map (fun a => if a.id == id then { a with paused := true } else a) })
  if partQuiet s root then (checkpointOf s root, true) else (askCheckpoint s root, false)

/-! ### Held launches (R110, R177) -/

/-- The entry of a wave that parks: the issuer's own, or the lowest PATH when a join has taken that one up. -/
def ownerPath (w : Wave) (i : Nat) : Option Nat :=
  if (w.path i).e.kind == .path then some i
  else (List.range 16).find? (fun j => (w.path j).e.kind == .path)

/-- May the path park now? One that waits at a join, in a FUSE, or is parked already, parks later. -/
def mayPark (w : Wave) (i : Nat) : Bool :=
  let p := w.path i
  !p.parked && (p.e.state == .ready || p.e.state == .waiting || p.e.state == .handler ||
    (p.e.state == .counting && p.poll.isSome))

/-- A launch leaves the buffer. -/
def dropHeld (s : State) (wid id : Nat) : State :=
  let k := s.core (coreOf wid)
  s.setCore (coreOf wid) { k with launches := k.launches.filter (fun x => !(x.wave == wid && x.id == id)) }

/-- A refused launch parks its path at the instruction it would issue next, with a DEFERRED record; while the path is parked
already or waits at a join, the record waits too; once the path has exited, the record has none (log 47). -/
def refuseHeld (s : State) (wid : Nat) (h : HeldLaunch) (f : FaultInfo) : State :=
  let keep (s : State) : State :=
    let k := s.core (coreOf wid)
    (s.setCore (coreOf wid) { k with launches := k.launches.map (fun x =>
      if x.wave == wid && x.id == h.id then { x with refused := some (f.code, f.sub, f.addr, f.extra) } else x) }).ensureTicks 1
      (.accessPerformed wid h.id)
  match s.wave? wid with
  | none => dropHeld s wid h.id
  | some w =>
    if (ownerPath w h.path).any (fun i => (w.path i).parked) then keep s
    else
      let s := rollback s wid false
      match s.wave? wid with
      | none => s
      | some w =>
        match ownerPath w h.path with
        | none => raiseNoPath (dropHeld s wid h.id) w.ctx { f with flags := fDEFERRED }
        | some i =>
          if !mayPark w i then keep s
          else
            let p := w.path i
            let w := match p.poll with | some q => w.clearFlag q.id | none => w
            takeFault (dropHeld (s.setWave wid w) wid h.id) wid i h.pc p.e.pc p.e.pc (.launch h.ptr.toNat h.pc.toNat)
              { f with flags := fDEFERRED, mask := p.e.mask }

/-- Refused launches whose paths could not park are tried again. -/
def lateLaunches (s : State) (wid : Nat) : State :=
  (s.core (coreOf wid)).launches.foldl (fun s h => match h.refused with
    | some (c, b, a, e) => if h.wave == wid then refuseHeld s wid h { code := c, sub := b, addr := a, extra := e } else s
    | none => s) s

/-- A released launch, whose record has been read, finds its queue or wait list full (R179). -/
def noteFull (s : State) (wid id : Nat) (r : LaunchRec) : State :=
  let k := s.core (coreOf wid)
  s.setCore (coreOf wid) { k with launches := k.launches.map (fun h =>
    if h.wave == wid && h.id == id then { h with full := true, lrec := some r } else h) }

/-- Try the wave's released launches in issue order; each record is read once (R110); one that is refused holds up no other
(R177). -/
def releaseRun : Nat → State → Nat → State
  | 0, s, _ => s
  | n + 1, s, wid =>
    match s.wave? wid, ((s.core (coreOf wid)).launches.filter (fun h => h.wave == wid && h.released && h.refused.isNone)).head? with
    | some w, some h =>
      (match (match h.lrec with | some r => Res.ok r s | none => readLaunch s (whoOf wid w) h.ptr) with
       | .wait t r => s.waitTick t r (.accessPerformed wid h.id)
       | .fail f => releaseRun n (refuseHeld s wid h f) wid
       | .ok r s =>
         match enqueue s w.ctx r with
         | none => (noteFull s wid h.id r).ensureTicks 1 (.accessPerformed wid h.id)
         | some s => releaseRun n (dropHeld s wid h.id) wid)
    | _, _ => s

/-- Commit has reached issue number n: the launches below it are released. -/
def releaseLaunches (s : State) (wid n : Nat) : State :=
  let k := s.core (coreOf wid)
  let s := s.setCore (coreOf wid) { k with launches := k.launches.map (fun h =>
    if h.wave == wid && decide (h.id < n) then { h with released := true } else h) }
  releaseRun 8 s wid

/-! ### Performing an access -/

/-- An access of a wave is gone: performed, abandoned or stopped. -/
def Wave.dropAccess (w : Wave) (id : Nat) : Wave :=
  { (w.clearFlag id) with accs := w.accs.filter (fun a => a.id != id) }

def Wave.setAccess (w : Wave) (a : Access) : Wave :=
  { w with accs := w.accs.map (fun b => if b.id == a.id then a else b) }

/-- The wave as a reader: with its lease and its read set, and whether the pins of the domain are its own. -/
def whoIn (wid : Nat) (w : Wave) : Who :=
  match w.win with
  | some n => { whoOf wid w with own := n.pinned, lines := n.reads.map (·.line) }
  | none => whoOf wid w

/-- The oldest access faults, or a breakpoint stops it (R115, R221): the window rolls back uncounted, its path parks where it
stood, and it counts as performed once its record is written. -/
def accessFault (s : State) (wid : Nat) (a : Access) (kind : ParkKind) (f : FaultInfo) : State :=
  let s := rollback s wid false
  let f := if scalarForm a.instr then { f with mask := a.mask } else f
  match s.wave? wid with
  | none => s
  | some w =>
    let serial := match s.ctx? w.ctx with | some c => nextSerial c.ring.serial | none => 0
    let ringed := (ringFor s w.ctx (faultRoute (w.path a.path) f.code)).any (fun r => (s.ctx? r).isSome)
    let w := if ringed then (w.clearFlag a.id).setAccess { a with faulted := some serial } else w.dropAccess a.id
    let w := w.setPath a.path { w.path a.path with rep := a.rep }
    let s := takeFault ((s.setWave wid w).endTileOf (coreOf wid) a) wid a.path a.pc a.base a.after kind f
    releaseLaunches s wid a.id

/-- The lines of commutative ranges that one lane's operation combines first, and those of the slot that a CRFLUSH combines. -/
def laneCombines (s : State) (core c : Nat) (i : Instr) (l : Lane) : List (Nat × Nat × Nat) :=
  let line (s : State) : List (Nat × Nat × Nat) := match laneCheck s core c l (accKind i).size 0 .any with
    | .ok (some x, t) => rangeHits t (lineOf x.dev)
    | _ => []
  match i with
  | .crflush _ slot => (slotLines s c slot.toNat).map (fun n => (c, slot.toNat, n))
  | .cadd o _ => if (caddSlot s c o l.ptr).isSome then [] else line s
  | _ => line s

/-- Does some lane write a page that asks for a seal, or combine a line of one (R28, R29, R109)? -/
def needsSeal (s : State) (core c : Nat) (a : Access) : Bool :=
  !a.sealed && a.lanes.any (fun l =>
    (match (accKind a.instr).store, a.instr, laneCheck s core c l (accKind a.instr).size 0 .any with
     | true, .crflush _ _, _ => false
     | true, _, .ok (some x, _) => x.irrev || x.shared
     | _, _, _ => false) || (laneCombines s core c a.instr l).any (fun h => sealsLine s h.1 h.2.1 h.2.2))

/-- The lines whose old values one lane's operation appends to the undo log (R207). -/
def laneLogs (s : State) (core c : Nat) (i : Instr) (l : Lane) : List Nat :=
  let own : List Nat := match (accKind i).store, i, laneCheck s core c l (accKind i).size 0 .any with
    | true, .crflush _ _, _ => []
    | true, .cadd o _, .ok (some x, _) => (match caddSlot s c o l.ptr with
      | some (slot, r) =>
        localLine s core c (r.poff + 4 * ((l.ptr.toNat - r.base.toNat) / copElem o)) ::
          (if firstCadd s core c slot then (partialLines r 0 (r.len / copElem o)).map (localLine s core c) else [])
      | none => if x.irrev || x.shared then [] else [lineOf x.dev])
    | true, _, .ok (some x, _) => if x.irrev || x.shared then [] else [lineOf x.dev]
    | true, _, .ok (none, _) => [localLine s core c (l.ptr.toNat % 0x400000)]
    | _, _, _ => []
  own ++ (laneCombines s core c i l).flatMap (fun h => combineLogs s h.1 h.2.1 h.2.2)

/-- An access waits until a tick; R73's ceiling shows in the stall reason of its path (R218). -/
def waitHigh (s : State) (wid id t r : Nat) : State :=
  (s.updWave wid (fun w => { w with accs := w.accs.map (fun a => if a.id == id then { a with high := ceilingWait r } else a) })).waitTick
    t r (.accessPerformed wid id)

/-- How far an access came: performed, held up until a tick or until a checkpoint, faulted. -/
inductive Came
  | all (s : State)
  | wait (s : State) (tick reason : Nat)
  | paused (s : State)
  | fault (s : State) (f : FaultInfo)

/-- Perform the lanes of an access that remain, one by one in ascending %tid. -/
def runLanes : Nat → State → Nat → Access → Came
  | 0, s, _, _ => .all s
  | n + 1, s, wid, a =>
    match s.wave? wid, a.lanes[a.next]? with
    | some w, some l =>
      match (if logShort s w.ctx (laneLogs s (coreOf wid) w.ctx a.instr l) then checkpointFor s wid w.ctx a.id else (s, true)) with
      | (s, false) => .paused s
      | (s, true) =>
      match laneOp s (whoIn wid w) wid a l with
      | .wait t r => .wait s t r
      | .fail f => .fault s { f with mask := bitAt l.tid }
      | .ok d s =>
        let a := { a with next := a.next + 1 }
        let free := s.sch.free
        let s := latchLand ((s.updWave wid (fun w => ((w.lands free a.id d.writes).raiseStat a.id d.stat).setAccess a)).tickFree) wid d.writes
        match d.fault with
        | some f => .fault s { f with mask := a.mask }
        | none => runLanes n s wid a
    | _, _ => .all s

/-- A line loses its poison, at the place where a die's access finds it. -/
def unpoison (s : State) (die ln : Nat) : State :=
  match dieLine s die ln with
  | some (k, r) => s.setLine k { r with poison := false }
  | none => s.setHomePoison ln false

/-- The key of a lane's address: where its access has begun, by the translation made then. -/
def laneKey (s : State) (core c : Nat) (l : Lane) : Option Nat :=
  match l.xl with
  | some x => some x.dev
  | none => keyOfPtr s core c l.ptr

/-- The lines that the lanes of a store cover whole. -/
def wholeLines (s : State) (core c : Nat) (a : Access) : List Nat :=
  let size := (accKind a.instr).size
  match a.instr with
  | .tst _ t _ m =>
    let v := s.tcOf core t.toNat
    a.lanes.filterMap (fun l => if coversLine (lanePieces v m l) then (laneKey s core c l).map (· / 128) else none)
  | .st _ _ | .stl _ _ =>
    if a.lanes.length * size < 128 then []
    else
      let keys := a.lanes.filterMap (laneKey s core c)
      ((keys.map (fun k => k / 128)).eraseDups).filter (fun ln =>
        (List.range 128).all (fun i => keys.any (fun k => decide (k ≤ ln * 128 + i) && decide (ln * 128 + i < k + size))))
  | _ => []

/-- Those lines lose their poison (R140). -/
def clearWhole (s : State) (wid : Nat) (w : Wave) (a : Access) : State :=
  (wholeLines s (coreOf wid) w.ctx a).foldl (fun s ln =>
    if decide (0x100000000000000 ≤ ln) then
      let k := ln - 0x100000000000000
      s.setLine k { s.line k with poison := false }
    else unpoison s (dieOf wid) ln) s

/-- The lanes of an access with the translations that they pass their checks with, which they go on with where the access waits
between threads (R194, log 18); the TLB keeps what they walk to. -/
def fixLanes (s : State) (core c : Nat) (i : Instr) : List Lane → State × List Lane
  | [] => (s, [])
  | l :: ls =>
    match laneCheck s core c l (accKind i).size (accKind i).want (accKind i).spaces with
    | .ok (some x, t) =>
      let (u, ms) := fixLanes t core c i ls
      (u, { l with xl := some x } :: ms)
    | _ =>
      let (u, ms) := fixLanes s core c i ls
      (u, l :: ms)

/-- A performed access ends the holds that its core took for its parts (R53). -/
def endHolds (s : State) (wid : Nat) (w : Wave) (a : Access) : State :=
  a.lanes.foldl (fun s l => match laneKey s (coreOf wid) w.ctx l with
    | some k => endHold s (coreOf wid) (some wid) (k / 65536)
    | none => s) s

/-- The lanes of the oldest access of a wave are performed, after a seal where it needs one. -/
def performLanes (s : State) (wid : Nat) (w : Wave) (a : Access) : State × Bool :=
  let needed := needsSeal s (coreOf wid) w.ctx a
  match (if needed then checkpointFor s wid w.ctx a.id else (s, true)) with
  | (s, false) => (s, false)
  | (s, true) =>
    let a := { a with sealed := a.sealed || needed }
    let (s, ls) := if a.next == 0 then fixLanes s (coreOf wid) w.ctx a.instr a.lanes else (s, a.lanes)
    let a := { a with lanes := ls }
    let kept (t : State) : State := t.updWave wid (fun v => { v with accs := v.accs.map (fun b =>
      if b.id == a.id then { b with sealed := a.sealed } else b) })
    match runLanes (a.lanes.length + 1) s wid a with
    | .wait t d r => (waitHigh (kept t) wid a.id d r, false)
    | .paused t => (kept t, false)
    | .fault s f => (accessFault s wid a .fault f, false)
    | .all s =>
      let s := endHolds (clearWhole s wid w a) wid w a
      let s := (s.updWave wid (fun w => w.dropAccess a.id)).endTileOf (coreOf wid) a
      (if endsDemotion a.instr then noteWrite s wid a.path else s, true)

/-- Perform the oldest access of a wave; `true` when it is performed. Its checks are made once, before its first lane (R194). -/
def performOldest (s : State) (wid : Nat) (a : Access) : State × Bool :=
  match s.wave? wid with
  | none => (s, false)
  | some w =>
    if a.faulted.isSome then (s, false)
    else if a.next != 0 then performLanes s wid w a
    else match lanesFault s (coreOf wid) w.ctx a.instr a.lanes with
    | some f =>
      if f.later then (s.waitTick (s.clk.tick + 1) 0 (.accessPerformed wid a.id), false)
      else (accessFault s wid a .fault f, false)
    | none =>
      match accBkpt s wid w.ctx a with
      | some b => (accessFault s wid a .debug
          { code := Code.DEBUG_STOP, sub := 1, mask := a.mask, extra := BitVec.ofNat 64 b }, false)
      | none => performLanes s wid w a

/-! ### Early loads (R107) -/

/-- Bytes of a load with those of older queued stores of the wave over them. -/
def forwardFrom (s : State) (core c : Nat) (stores : List Access) (key : Nat) (bs : List Byte) : List Byte :=
  stores.foldl (fun bs a =>
    a.lanes.foldl (fun bs l =>
      match laneKey s core c l with
      | some k =>
        let d := leBytes l.d0.toNat (accKind a.instr).size
        bs.zipIdx.map (fun y => if decide (k ≤ key + y.2) && decide (key + y.2 < k + d.length)
          then d.getD (key + y.2 - k) 0 else y.1)
      | none => bs) bs) bs

/-- Enter a line in the read set: one record a line, with the first place, the smallest RTS and its youngest reader; none when a
65th line would be needed. -/
def Window.addRead (n : Window) (r : ReadLine) : Option Window :=
  if n.reads.any (fun x => x.line == r.line) then
    some { n with reads := n.reads.map (fun x =>
      if x.line == r.line then { x with rts := min x.rts r.rts, id := max x.id r.id } else x) }
  else if decide (64 ≤ n.reads.length) then none
  else some { n with reads := n.reads ++ [r] }

/-- Never expires. -/
abbrev rtsMax : Nat := 0x100000000000000000

/-- A read of a window performed early (R107): its bytes with their poison, nothing for a skipped line of a PRF; none
where it must wait for commit. A load behind an older unperformed ATOM, CAS, BARV, BDROP, BINIT, CADD, CNTADD or CRFLUSH of its line
waits too: what R107 forwards is a store's data alone, and of these it says nothing (DESIGN CHOICE, log 16).
The line enters the read set under issue number id. -/
def earlyRead (s : State) (wid id : Nat) (i : Instr) (ptr : Word64) : Option (Res (Option (List Byte × Bool))) :=
  match s.wave? wid with
  | none => none
  | some w =>
    match w.win with
    | none => none
    | some n =>
      let core := coreOf wid
      let who := { whoIn wid w with pin := n.pinned }
      let k := accKind i
      let isPrf : Bool := match i with | .prf _ _ => true | _ => false
      let skip (s : State) : Option (Res (Option (List Byte × Bool))) := if isPrf then some (.ok none s) else none
      let older := w.accs.filter (fun b => decide (b.id < id) && !b.early && b.faulted.isNone)
      let stores := older.filter (fun b => match b.instr with | .st _ _ | .stl _ _ => true | _ => false)
      let blocks (key : Nat) : Bool := older.any (fun b => (accKind b.instr).store &&
        !(match b.instr with | .st _ _ | .stl _ _ => true | _ => false) &&
        b.lanes.any (fun m => match b.instr with
          | .crflush _ slot => spaceOf ptr == 0 && (slotAt s w.ctx ptr).any (fun y => y.1 == slot.toNat)
          | _ => (laneKey s core w.ctx m).map (· / 128) == some (key / 128)))
      let got (s : State) (key : Nat) (bs : List Byte) (pz : Bool) (r : ReadLine) :
          Option (Res (Option (List Byte × Bool))) :=
        match n.addRead r with
        | none => none
        | some n =>
          let clean := stores.any (fun b => (wholeLines s core w.ctx b).contains (key / 128))
          some (.ok (some (forwardFrom s core w.ctx stores key bs, pz && !clean))
            (s.updWave wid (fun w => { w with win := some { n with undo := (w.win.getD n).undo } })))
      match checkAccess s core w.ctx ptr k.size k.want k.spaces with
      | .error f => if f.later then none else skip s
      | .ok (none, s) =>
        let off := ptr.toNat % 0x400000
        let key := 0x8000000000000000 + localAddr s core w.ctx off
        if blocks key then none
        else got (touchLocal s core w.ctx off) key (localRead s core w.ctx off k.size) (localPoison s core w.ctx off)
          ⟨id, localLine s core w.ctx off, none, rtsMax⟩
      | .ok (some x, s) =>
        if x.direct || deviceOf x.dev == s.dev.hostId || blocks x.dev then none
        else match combineFirst s x.dev with
          | .wait a b => some (.wait a b)
          | .fail _ => none
          | .ok _ s =>
            match placeOf who.wave 4 s core w.ctx x who.lines with
            | .wait a b => some (.wait a b)
            | .fail _ => none
            | .ok .home s => skip s
            | .ok (.frame _) s =>
              match readAt s who x with
              | .wait a b => some (.wait a b)
              | .fail _ => none
              | .ok g s =>
                match g.place with
                | .home => none
                | .frame fk =>
                  let s := if who.pin then
                      (let d := s.die (core / 32)
                       let hs := d.holds.filter (fun h => !(h.part == partOf x.dev && h.till == 0))
                       s.setDie (core / 32) { d with holds := { part := partOf x.dev, core := core } :: hs }) else s
                  got s x.dev (s.fbytes fk (x.dev % 65536) k.size) g.poison
                    ⟨id, lineOf x.dev, some (fk / 256, fk % 256, (s.frame fk).gen), g.rts⟩

/-- One lane of an early load: none where R107 makes it wait for commit. -/
def earlyLane (s : State) (wid : Nat) (a : Access) (l : Lane) : Option (Res Unit) :=
  match earlyRead s wid a.id a.instr l.ptr with
  | none => none
  | some (.wait a b) => some (.wait a b)
  | some (.fail f) => some (.fail f)
  | some (.ok none s) => some (.ok () s)
  | some (.ok (some (bs, pz)) s) =>
    let ws := match a.instr with
      | .ld z o | .ldl z o => wordWrites o.s o.dst.toNat l.tid pz (loadWords z bs)
      | .btest _ d _ _ => wordWrites true d.toNat 0 pz (loadWords .n64 (bs.take 8))
      | _ => []
    let free := s.sch.free
    let s := match s.wave? wid, a.instr with
      | some w, .ldl z _ => spoil s (coreOf wid) w.ctx (l.ptr.toNat % 0x400000) (sizeOf z)
      | _, _ => s
    some (.ok () (latchLand (s.updWave wid (fun w => w.lands free a.id ws)).tickFree wid ws))

def earlyLanes : Nat → State → Nat → Access → Option (Res Unit)
  | 0, s, _, _ => some (.ok () s)
  | n + 1, s, wid, a =>
    match a.lanes[a.next]? with
    | none => some (.ok () s)
    | some l =>
      match earlyLane s wid a l with
      | some (.ok _ s) => earlyLanes n s wid { a with next := a.next + 1 }
      | r => r

/-- A load issued inside a window is performed early, or stays unperformed until commit reaches it. -/
def performEarly (s : State) (wid : Nat) (a : Access) : State :=
  match s.wave? wid with
  | none => s
  | some w =>
    if !earlyLoad a.instr || a.early || (accBkpt s wid w.ctx a).isSome ||
        (lanesFault s (coreOf wid) w.ctx a.instr a.lanes).isSome then s
    else match earlyLanes (a.lanes.length + 1) s wid a with
      | some (.ok _ t) => t.updWave wid (fun w => (w.setAccess { a with early := true, high := false }).clearFlag a.id)
      | some (.wait t r) => waitHigh s wid a.id t r
      | some (.fail _) => s
      | none => s

/-! ### Commit (R112) -/

/-- Are the lines of the read set still as they were read? -/
def verified (s : State) (wid : Nat) (w : Wave) (n : Window) : Bool :=
  n.pinned || n.reads.all (fun r =>
    (match r.place with
     | some (c, f, g) => (s.frame (frameKey c f)).gen == g && decide (ptsOf s (coreOf wid) w.ctx ≤ r.rts)
     | none => true))

/-- What commit up to issue number n frees: undo records, the lines all of whose readers are committed, held status bits; the pins end
(R117). A window whose instructions have all been committed is none. -/
def commitTo (s : State) (wid n : Nat) : State :=
  match s.wave? wid with
  | none => s
  | some w =>
    match w.win with
    | none => s
    | some win =>
      let stat := (w.held.filter (fun h => decide (h.1 < n))).foldl (fun f h => f ||| h.2) w.fstat
      let past := w.keyPc == win.pc && w.keyPath == win.path && decide (win.first < n)
      let first : Option WinIns := (win.ins.filter (fun x => decide (n ≤ x.id))).head?
      let win' := { win with
        undo := win.undo.filter (fun u => decide (n ≤ u.id)), ins := win.ins.filter (fun x => decide (n ≤ x.id)),
        reads := win.reads.filter (fun r => decide (n ≤ r.id)), pinned := false }
      let w : Wave := { w with
        fstat := stat, held := w.held.filter (fun h => decide (n ≤ h.1)),
        accs := w.accs.filter (fun a => !(a.early && decide (a.id < n))), count := if past then 0 else w.count,
        win := first.map (fun (x : WinIns) =>
          { win' with first := n, pc := x.pc, path := x.path, base := x.base, after := x.after }) }
      let done := (w.samples.filter (fun y => decide (y.1 < n))).map (·.2)
      let w := { w with samples := w.samples.filter (fun y => decide (n ≤ y.1)) }
      let k := s.core (coreOf wid)
      let s := if done.isEmpty then s
        else (s.setCore (coreOf wid) { k with sampleQ := k.sampleQ ++ done }).ensureSoon (.sample (coreOf wid) (lpOf wid % 32))
      unpin (s.setWave wid w) wid

/-- The window closes: nothing of the wave is unperformed. -/
def closeWindow (s : State) (wid : Nat) : State :=
  match s.wave? wid with
  | none => s
  | some w => (commitTo s wid w.seq).updWave wid (fun w => { w with win := none, held := [] })

/-- The instructions of a window that has been verified, in issue order: early loads take their place, queued stores are performed, and
where one raises pts beyond a lease that a later load rests on, that is a conflict (R113); the next access that is neither becomes
the oldest. Then the launches held until there are released, after every store (R110). -/
def drain : Nat → State → Nat → State
  | 0, s, _ => s
  | k + 1, s, wid =>
    match s.wave? wid with
    | none => s
    | some w =>
      match w.accs.find? (fun a => !a.early) with
      | none => releaseLaunches (closeWindow s wid) wid w.seq
      | some a =>
        let s := commitTo s wid (a.id + 1)
        if queuedStore a.instr then
          match performOldest s wid a with
          | (s, true) =>
            (match (s.wave? wid).bind (fun w => w.win.filter (fun n => !verified s wid w n)) with
             | some n => releaseLaunches (rollback s wid true) wid n.first
             | none => drain k s wid)
          | (s, false) => s
        else releaseLaunches (s.ensureSoon (.accessPerformed wid a.id)) wid a.id

/-- COMMIT: after the oldest access was performed (R112). -/
def commit (k : Nat) (s : State) (wid : Nat) : State :=
  match s.wave? wid with
  | none => s
  | some w =>
    match w.win with
    | none => s
    | some n => if verified s wid w n then drain k s wid else rollback s wid true

/-- The wave and path of a memory request at a core's request port: an access not begun, a load of a poll, a fetch. -/
def requestOf (s : State) : Instr → Option (Nat × Nat)
  | .accessPerformed v id => (s.wave? v).bind (fun w => (w.accs.find? (fun b => b.id == id)).map (fun b => (v, b.path)))
  | .pollRecheck v i => some (v, i)
  | .fetchBlockArrival v i _ => some (v, i)
  | _ => none

/-- Must a request of path i wait for that of an undemoted path of the core, which is due now too (R187)? -/
def portBusy (s : State) (wid i : Nat) : Bool :=
  let plain (v j : Nat) : Bool := match s.wave? v with | some w => !(w.path j).demoted | none => false
  let ready (e : Instr) : Bool := match requestOf s e with
    | some (v, j) => coreOf v == coreOf wid && plain v j
    | none => false
  let now (t : Timer) : Bool := if t.onTick then decide (t.due ≤ s.clk.tick) else decide (t.due ≤ s.clk.cycle)
  !plain wid i && (s.wave? wid).isSome && (s.sch.agenda.any ready || s.sch.timers.any (fun t => now t && ready t.ev))

/-- Has a launch of the wave, released before issue number id, still to read its record (R110)? -/
def unreadLaunch (s : State) (wid id : Nat) : Bool :=
  (s.core (coreOf wid)).launches.any (fun h => h.wave == wid && h.released && h.lrec.isNone && h.refused.isNone && decide (h.id < id))

/-- ACCESS_PERFORMED: the access is performed if it is the wave's oldest, early if it is a load of a window. -/
def performAccess (s : State) (wid id : Nat) : State :=
  match s.wave? wid with
  | none => s
  | some w =>
    match w.accs.find? (fun a => a.id == id) with
    | none =>
      if (s.core (coreOf wid)).launches.any (fun h => h.wave == wid && h.released) then settleHits (releaseRun 8 (lateLaunches s wid) wid)
      else s
    | some a =>
      if a.early || a.faulted.isSome then s
      else if a.next == 0 && portBusy s wid a.path then s.after 1 (.accessPerformed wid id)
      else if (w.accs.find? (fun a => !a.early)).map (·.id) == some id then
        if unreadLaunch s wid id then s.ensureTicks 1 (.accessPerformed wid id)
        else match performOldest s wid a with
        | (s, true) => settleHits (commit (w.accs.length + 1) s wid)
        | (s, false) => settleHits s
      else settleHits (performEarly s wid a)

/-! ### Issuing an access -/

/-- The lines an access touches, of the lanes whose translation passes. -/
def accLines (s : State) (core c : Nat) (ls : List Lane) : List Nat :=
  (ls.filterMap (fun l => (laneKey s core c l).map (· / 128))).eraseDups

/-- Has an operation of path i's threads, issued before issue number n, still to take its place in the order: an access, one performed
early too, or the read of a launch record? A fetch has its place after it (R189). -/
def owesBefore (s : State) (wid i n : Nat) : Bool :=
  match s.wave? wid with
  | none => false
  | some w =>
    w.accs.any (fun a => decide (a.id < n) && a.faulted.isNone && a.mask &&& (w.path i).e.mask != 0) ||
    (s.core (coreOf wid)).launches.any (fun h => h.wave == wid && h.path == i && decide (h.id < n) && h.lrec.isNone && h.refused.isNone)

/-- Does an instruction read early in a window: a load, a poll (R107)? -/
def readsEarly (i : Instr) : Bool := earlyLoad i || (match i with | .bwait _ _ _ _ _ _ | .waitge _ _ _ _ _ => true | _ => false)

/-- The lines that an early load would bring into the read set (R107). -/
def setLines (s : State) (core c : Nat) (i : Instr) (ls : List Lane) : List Nat :=
  let k := accKind i
  if !readsEarly i then []
  else ls.filterMap (fun l => match checkAccess s core c l.ptr k.size k.want k.spaces with
    | .error _ => none
    | .ok (none, _) => some (localLine s core c (l.ptr.toNat % 0x400000))
    | .ok (some x, _) =>
      if x.direct || deviceOf x.dev == s.dev.hostId || quotaDie s c == 0 ||
        x.ent.any (fun e => e.streamed || e.target == .home) then none
      else some (lineOf x.dev))

/-- Would an access issued with some lanes bring the read set of its wave's open window to more than 64 lines (R107)? -/
def readsFull (s : State) (core : Nat) (w : Wave) (i : Instr) (lanes : List Lane) : Bool :=
  match w.win with
  | some n =>
    let waiting := (w.accs.filter (fun a => !a.early && decide (n.first ≤ a.id))).flatMap (fun a => setLines s core w.ctx a.instr a.lanes) ++
      (w.paths.filterMap (fun p => p.poll.filter (fun q => decide (n.first ≤ q.id)))).flatMap (fun q =>
        setLines s core w.ctx q.instr [{ tid := 0, ptr := q.addr }])
    readsEarly i && decide (64 < ((n.reads.map (fun r => r.line) ++ waiting ++ setLines s core w.ctx i lanes).eraseDups).length)
  | none => false

/-- The stores of a wave that its store queue holds (R108). -/
def queuedStores (w : Wave) : Nat :=
  (w.accs.filter (fun a => queuedStore a.instr && (match w.win with
    | some n => decide (n.first ≤ a.id) | none => false))).length

/-- Does an access touch a line of a TST of the wave that is not yet performed (R330)? -/
def meetsTst (s : State) (core : Nat) (w : Wave) (lanes : List Lane) : Bool :=
  w.accs.any (fun a => match a.instr with
    | .tst _ _ _ _ =>
      let ls := accLines s core w.ctx (a.lanes.drop a.next)
      (accLines s core w.ctx lanes).any (fun l => ls.contains l)
    | _ => false)

/-- The record of a read or write breakpoint. -/
def bkptFault (x : Iss) (b : Nat) : FaultInfo :=
  { code := Code.DEBUG_STOP, sub := 1, mask := x.act, extra := BitVec.ofNat 64 b }

/-- The issuing instruction meets a breakpoint: it is not performed, and where an armed step would fire too, only the breakpoint's
record is written (R221, R222). -/
def breakStop (x : Iss) (s : State) (b : Nat) : Act :=
  if armedAt s x.cur x.w then .trapAt (disarm s x.w.ctx) (bkptFault x b) else .trap (bkptFault x b)

/-- The lowest breakpoint that bytes which the issuing instruction itself reads or writes match: a record, a buffer (R221). -/
def ownStop (x : Iss) (s : State) (rd wr : Bool) (a : Word64) (n : Nat) : Option Nat :=
  if x.p.noMatch then none else (s.ctx? x.w.ctx).bind (fun c => bkptHit c x.cur.wave x.cur.path rd wr a n)

/-- Issue an access (R107, R108): it stalls where the read set or the store queue has no room for it; otherwise it is on
its way. -/
def issueAccess (i : Instr) (x : Iss) (s : State) (lanes : List Lane) (tile : Option Nat := none) : Act :=
  let w := x.w
  let core := coreOf x.cur.wave
  let armed := armedAt s x.cur w
  if queuedStore i && decide (32 ≤ queuedStores w) then .stall 8
  else if readsFull s core w i lanes || meetsTst s core w lanes then .stall 12
  else match (if armed then lanesFault s core w.ctx i lanes else none) with
  | some f => .trap (if scalarForm i then { f with mask := x.act } else f)
  | none =>
  let a : Access := { id := x.id, path := x.cur.path, pc := x.cur.pc, base := x.cur.base,
                        after := x.cur.pc + BitVec.ofNat 64 x.cur.slot, rep := x.p.rep, instr := i, mask := x.act,
                        lanes := lanes, quiet := x.p.noMatch, tile := tile }
  match (if armed then accBkpt s x.cur.wave w.ctx a else none) with
  | some b => .trapAt (disarm s w.ctx) (bkptFault x b)
  | none =>
    .later ((s.updWave x.cur.wave (fun w => { w with accs := w.accs ++ [a] })).later
      (.accessPerformed x.cur.wave x.id))

end Sys2Proof.Machine
end

