-- ==== Sys2Proof/Machine/Skipper.lean ====
section
/-!
DEFINITION. Skipper (R305 to R311): where the elements of a copy stand, the lines it moves, and what a reply makes of a
path that a copy, a follow-on MMA or a held launch has parked (R198).
-/

namespace Sys2Proof.Machine

/-! ### Shape records (R306, R307) -/

def shapeOf (bs : List Byte) : TShape where
  base   := BitVec.ofNat 64 (fieldAt bs 0 8)
  dense  := BitVec.ofNat 64 (fieldAt bs 8 8)
  cnt    := BitVec.ofNat 64 (fieldAt bs 16 8)
  incr   := fieldAt bs 24 4
  ctl    := BitVec.ofNat 32 (fieldAt bs 28 4)
  ext    := [fieldAt bs 32 4, fieldAt bs 36 2, fieldAt bs 38 2, fieldAt bs 40 2]
  str    := [fieldAt bs 44 4, fieldAt bs 48 4, fieldAt bs 52 4]
  pad    := BitVec.ofNat 16 (fieldAt bs 42 2)
  follow := BitVec.ofNat 64 (fieldAt bs 56 8)

def TShape.fmt (h : TShape) : Nat := (bits h.ctl 0 4).toNat
def TShape.rank (h : TShape) : Nat := (bits h.ctl 8 3).toNat
def TShape.overlap (h : TShape) : Bool := bit h.ctl 11
def TShape.rop (h : TShape) : Nat := (bits h.ctl 12 3).toNat

/-- Bytes of an element of FMT. -/
def copySize (f : Nat) : Nat :=
  match f with
  | 1 | 6 => 2
  | 2 | 5 | 7 | 8 => 4
  | 3 => 8
  | 4 => 16
  | _ => 1

def TShape.sz (h : TShape) : Nat := copySize h.fmt

/-- Extent and stride of dimension j: 1 and 0 at or above RANK. -/
def TShape.e (h : TShape) (j : Nat) : Nat := if j < h.rank then h.ext.getD j 1 else 1
def TShape.s (h : TShape) (j : Nat) : Nat :=
  if j = 0 then h.sz else if j < h.rank then h.str.getD (j - 1) 0 else 0

/-- The number of elements. -/
def TShape.count (h : TShape) : Nat := h.e 0 * h.e 1 * h.e 2 * h.e 3

/-- Element k, in element order, on the strided and on the dense side (R306). -/
def TShape.strided (h : TShape) (k : Nat) : Word64 :=
  h.base + BitVec.ofNat 64 (k % h.e 0 * h.s 0 + k / h.e 0 % h.e 1 * h.s 1 + k / (h.e 0 * h.e 1) % h.e 2 * h.s 2 +
    k / (h.e 0 * h.e 1 * h.e 2) * h.s 3)
def TShape.densely (h : TShape) (k : Nat) : Word64 := h.dense + BitVec.ofNat 64 (h.sz * k)

/-- Destination and source of element k; the destination of a COPYM is its offset in the tile's image. -/
def copyDst (op : Nat) (h : TShape) (k : Nat) : Word64 :=
  match op with
  | 0 => h.densely k
  | 1 => h.strided k
  | _ => BitVec.ofNat 64 (h.sz * k)
def copySrc (op : Nat) (h : TShape) (k : Nat) : Word64 := if op == 1 then h.densely k else h.strided k

/-- How many elements from k on stand in one destination line, at most fuel. -/
def sameLine (op : Nat) (h : TShape) (k : Nat) : Nat → Nat
  | 0 => 0
  | n + 1 =>
    if decide (k < h.count) then
      1 + (if decide (k + 1 < h.count) && lineVa (copyDst op h (k + 1)) == lineVa (copyDst op h k)
        then sameLine op h (k + 1) n else 0)
    else 0

/-- The elements of the first n destination lines, in the order of R310. -/
def firstLines (op : Nat) (h : TShape) : Nat → Nat
  | 0 => 0
  | n + 1 =>
    let k := firstLines op h n
    k + sameLine op h k 128

/-! ### Progress and end of a copy (R173, R174) -/

def State.copy? (s : State) (id : Nat) : Option Copy := s.copies.find? (fun c => c.id == id)
def State.setCopy (s : State) (c : Copy) : State :=
  { s with copies := s.copies.map (fun x => if x.id == c.id then c else x) }

/-- %cprog of the owner, when this is its latest copy. -/
def copyProg (s : State) (c : Copy) (active stopped : Bool) : State :=
  s.updWave c.owner (fun w =>
    if w.copyOp == some c.id && w.ctx == c.ctx then
      { w with cprog := BitVec.ofNat 32 ((if active then 0x80000000 else 0) + (if stopped then 0x40000000 else 0) +
                          c.lines % 0x1000000) }
    else w)

/-- A stopped copy is abandoned by a write of 0 to %cprog: it moves nothing more, owes neither its tile nor its FLAG, and starts over
when its owner issues it again (R273). -/
def abandonCopy (s : State) (wid : Nat) : State :=
  match (s.wave? wid).bind (fun w => w.copyOp.bind (fun i => (s.copy? i).filter (fun c => c.stopped && c.ctx == w.ctx))) with
  | none => s
  | some c =>
    let s := s.endTileOp c.core c.id
    (s.setCopy { c with shape := none, lines := 0, elem := 0, got := [], landed := false, paid := false, told := false,
                        chained := true }).updWave wid (fun w => w.clearFlag c.seq)

/-- An engine operation of a team is over (R164). -/
def teamOpDone (s : State) (t : Option Nat) : State :=
  match t with
  | none => s
  | some t =>
    let k := s.core (t / 64)
    match Sp.find k.teams (t % 64) with
    | none => s
    | some x =>
      let x := { x with ops := x.ops - 1 }
      s.setCore (t / 64) { k with teams :=
        if x.members.isEmpty && x.ops == 0 then Sp.erase k.teams (t % 64) else Sp.insert k.teams (t % 64) x }

/-- A copy is gone: complete, abandoned, or discarded before it started. Its tile is no longer pending, its FLAG clears
unless an MMA still owes it, a collective that it had not yet started is discarded. -/
def dropCopy (s : State) (c : Copy) (flag : Bool) : State :=
  let s := { s with copies := s.copies.filter (fun x => x.id != c.id) }
  let s := s.endTileOp c.core c.id
  let s := match c.hazard with | some h => s.endTileOp c.core h | none => s
  let s := if flag then s.updWave c.owner (fun w => if w.ctx == c.ctx then w.clearFlag c.seq else w) else s
  let s := match c.team with
    | some t => if c.started then s else { s with colls := s.colls.filter (fun x => x.team != t) }
    | none => s
  teamOpDone s c.team

/-- The path of an owner that is held until its copy has started goes on. -/
def releaseOwner (s : State) (c : Copy) : State :=
  s.updWave c.owner (fun w =>
    let p := w.path c.path
    if p.e.kind == .path && p.e.state == .counting && p.poll.isNone then
      w.setPath c.path { p with e := { p.e with state := p.rest }, reason := 0 }
    else if p.kept == some .counting && p.poll.isNone then w.setPath c.path { p with kept := some p.rest }
    else w)

/-! ### Moving a line (R310, R311) -/

/-- Is byte address a one of the copy's source bytes? -/
def inSource (op : Nat) (h : TShape) (a : Word64) : Bool :=
  if op == 1 then decide (h.dense.toNat ≤ a.toNat) && decide (a.toNat < h.dense.toNat + h.sz * h.count)
  else (List.range (h.e 3)).any (fun i => (List.range (h.e 2)).any (fun j => (List.range (h.e 1)).any (fun k =>
    let b := h.base.toNat + k * h.s 1 + j * h.s 2 + i * h.s 3
    decide (b ≤ a.toNat) && decide (a.toNat < b + h.e 0 * h.sz))))

/-- Check the destination, which needs W also in a reduction (R29), and read the source of element k. -/
def gatherElem (s : State) (c : Copy) (h : TShape) (k : Nat) : Res SrcElem :=
  let dst : Except Fail State :=
    if c.op == 2 then .ok s
    else match checkAccess s c.core c.ctx (copyDst c.op h k) h.sz pW .globalDev with
      | .error f => .error f
      | .ok (_, s) => .ok s
  match dst with
  | .error f => failed s f
  | .ok s =>
    match checkAccess s c.core c.ctx (copySrc c.op h k) h.sz pR .globalDev with
    | .error f => failed s f
    | .ok (none, s) => .ok ⟨k, [], false⟩ s
    | .ok (some x, s) =>
      match combineFirst s x.dev with
      | .wait a b => .wait a b
      | .fail f => .fail f
      | .ok _ s =>
        match agentRead s c.core c.ctx x h.sz with
        | .wait a b => .wait a b
        | .fail f => .fail f
        | .ok (bs, pz) s =>
          if pz && c.op != 2 then .fail (bad Code.POISON_USE 0 (copySrc c.op h k)) else .ok ⟨k, bs, pz⟩ s

/-- How far the next line of a copy came: it is moved, with how many elements; it goes on later; an access fails. -/
inductive Moved
  | line (n : Nat) (s : State)
  | wait (s : State)
  | fail (f : Fail)

/-- Read the source elements of the next line that are still to be read, in element order, and keep them with the copy;
true when the line has all of its n. -/
def gatherElems (s : State) (c : Copy) (h : TShape) (n : Nat) : Nat → Except Fail (State × Copy × Bool)
  | 0 => .ok (s, c, true)
  | m + 1 =>
    if n ≤ c.got.length then .ok (s, c, true)
    else match gatherElem s c h (c.elem + c.got.length) with
      | .fail f => .error f
      | .wait t r => .ok (s.gate t r none, c, false)
      | .ok e s =>
        let c := { c with got := c.got ++ [e] }
        gatherElems (s.setCopy c) c h n m

/-- old OP new of a reduction (R98, R310). -/
def reduce (rop fmt : Nat) (old new : List Byte) : List Byte :=
  let a := leNat old
  let b := leNat new
  let x : Word32 := BitVec.ofNat 32 a
  let y : Word32 := BitVec.ofNat 32 b
  let less : Bool := if fmt == 7 then decide (x.toInt ≤ y.toInt) else decide (a ≤ b)
  let v : Nat := match rop with
    | 1 => if fmt == 5 then (addRne x y).toNat
           else if fmt == 6 then (fAddR .bf16 .rn (fDecode .bf16 a) (fDecode .bf16 b)).code
           else (a + b) % 0x100000000
    | 2 => if fmt == 5 then (fMinMax .f32 false a b).code else if less then a else b
    | 3 => if fmt == 5 then (fMinMax .f32 true a b).code else if less then b else a
    | 4 => a &&& b
    | _ => a ||| b
  leBytes v new.length

/-- The bytes that element e writes, with those unspecified that overlap the source (R310, R12). -/
def overlapBytes (s : State) (c : Copy) (h : TShape) (e : SrcElem) (bs : List Byte) : List Byte :=
  if c.op == 2 then bs
  else bs.zipIdx.map (fun b =>
    let a := copyDst c.op h e.k + BitVec.ofNat 64 b.2
    if inSource c.op h a then Config.freeByte s.sch.free a.toNat else b.1)

/-- Reductions of one line at its home, each element, at its offset in the line, a clockless atomic (R98). They are logged but on a
page that is SHARED or IRREV (R207). -/
def reduceLine (s : State) (c : Copy) (h : TShape) (line : Nat) (logged : Bool) (es : List (Nat × SrcElem)) : Res Unit :=
  let put (bs : List Byte) : List Byte := es.foldl (fun bs e =>
    bs.take e.1 ++ overlapBytes s c h e.2 (reduce h.rop h.fmt ((bs.drop e.1).take h.sz) e.2.bytes) ++ bs.drop (e.1 + h.sz)) bs
  match charge s c.ctx (line * 128) with
  | none => .wait (s.clk.tick + 1) 0
  | some s =>
    match clUpdate s (line * 128) 128 false put with
    | .wait a b => .wait a b
    | .fail f => .fail f
    | .ok (old, pz) s => .ok () (if logged then logLine s c.ctx line old pz else s)

/-- Write the next destination line of a copy, whose source has been read. -/
def putLine (s : State) (c : Copy) (h : TShape) : Res Unit :=
  let k := c.elem
  let es := c.got
  if c.op == 2 then
    let t := (bits h.dense 0 4).toNat
    let s := s.putImg c.core t (h.sz * k) (es.flatMap (·.bytes)) false
    let mark (m : List (Nat × Bool)) (e : SrcElem) : List (Nat × Bool) :=
      if e.poison then setWords m (wordKey c.core t (h.sz * e.k / 4)) true ((h.sz + 3) / 4) else m
    .ok () (s.setMx { s.mx with wpoison := es.foldl mark s.mx.wpoison })
  else
    let a0 := copyDst c.op h k
    match checkAccess s c.core c.ctx a0 h.sz pW .globalDev with
    | .error f => failed s f
    | .ok (none, s) => .ok () s
    | .ok (some x, s) =>
      match combineFirst s x.dev with
      | .wait a b => .wait a b
      | .fail f => .fail f
      | .ok _ t =>
        let at_ (e : SrcElem) : Nat := (copyDst c.op h e.k - a0).toNat
        let done : Res Unit := alongside s t (fun s =>
          if h.rop == 0 then
            agentWrite s.tickFree c.core c.ctx x (es.map (fun e => (x.dev + at_ e, overlapBytes s c h e e.bytes)))
          else reduceLine s.tickFree c h (lineOf x.dev) (!x.irrev && !x.shared) (es.map (fun e => ((x.dev + at_ e) % 128, e))))
        match done with
        | .wait a b => .wait a b
        | .fail f => .fail f
        | .ok _ s => .ok () (wrote s (lineOf x.dev * 128) 128)

/-- Move the next destination line of a copy; where the log is full and its checkpoint must wait, the line waits too. -/
def moveLine (s : State) (c : Copy) (h : TShape) : Moved :=
  let n := sameLine c.op h c.elem 128
  if logFull s c.ctx && sealWaits s c.ctx then .wait (askCheckpoint s (rootOf s c.ctx))
  else match gatherElems (logRoom s c.ctx) c h n n with
  | .error f => .fail f
  | .ok (s, _, false) => .wait s
  | .ok (s, c, true) =>
    match putLine s c h with
    | .wait t r => .wait (s.gate t r none)
    | .fail f => .fail f
    | .ok _ s => .line n s

/-- A cycle of one copy: it moves up to n lines; the last one makes its completion due, a failing one its stop. -/
def copyCycle (s : State) (id : Nat) : Nat → State × Nat
  | 0 => (s, 0)
  | n + 1 =>
    match s.copy? id with
    | none => (s, n + 1)
    | some c =>
      match c.shape with
      | none => (s, n + 1)
      | some h =>
        if !c.started || c.stopped || c.landed || !ctxRuns s c.ctx then (s, n + 1)
        else if h.count ≤ c.elem then
          ((s.setCopy { c with landed := true }).ensureSoon (.copyComplete id), n + 1)
        else match moveLine s c h with
          | .wait s => (s, n + 1)
          | .fail _ => (s.ensureSoon (.copyStop id), n + 1)
          | .line k s =>
            let c := { c with lines := c.lines + 1, elem := c.elem + k, got := [] }
            let s := copyProg (s.setCopy c) c true false
            if h.count ≤ c.elem then ((s.setCopy { c with landed := true }).ensureSoon (.copyComplete id), n)
            else copyCycle s id n

/-- The copies of one core share 256 bytes, two lines, in a cycle (R310). -/
def coreCopies (s : State) : List Nat → Nat → State
  | [], _ => s
  | id :: ids, n =>
    let (s, n) := copyCycle s id n
    coreCopies s ids n

def copyCycles (s : State) : State :=
  ((s.copies.map (·.core)).eraseDups).foldl (fun s k =>
    settleHits (coreCopies s ((s.copies.filter (fun c => c.core == k)).map (·.id)) 2)) s

/-! ### Deferred records of a copy's owner (R311, R332) -/

/-- What a deferred record comes to: the owner is parked, must be asked again later, or has exited. -/
inductive Deferred
  | parked (s : State)
  | later
  | gone

/-- Park the owner's path at the instruction it would issue next, with a DEFERRED record. -/
def parkOwner (s : State) (c : Copy) (kind : ParkKind) (f : FaultInfo) : Deferred :=
  match s.wave? c.owner with
  | none => .gone
  | some w =>
    if w.ctx != c.ctx then .gone
    else match ownerPath w c.path with
      | none => .gone
      | some i =>
        if !mayPark w i then .later
        else
          let s := rollback s c.owner false
          match s.wave? c.owner with
          | none => .gone
          | some w =>
            let p := w.path i
            let w := match p.poll with | some q => w.clearFlag q.id | none => w
            .parked (takeFault (s.setWave c.owner w) c.owner i c.pc p.e.pc p.e.pc kind
              { f with flags := fDEFERRED, mask := p.e.mask })

/-! ### Replies (R198, R309, R311, R332) -/

/-- A reply to a record of a copy: RETRY starts or continues it, SKIP and EXIT discard it. -/
def copyReply (s : State) (id action : Nat) (deferred : Bool) : State :=
  match s.copy? id with
  | none => s
  | some c =>
    if action != 1 then copyProg (dropCopy s c true) c false false
    else if !c.started then (if deferred then s.soon (.copyStart id) else s)
    else if c.shape.isNone then (s.setCopy { c with started := false, stopped := false }).soon (.copyStart id)
    else
      let n := match s.wave? c.owner with
        | some w => if w.copyOp == some id then (bits w.cprog 0 24).toNat else c.lines
        | none => c.lines
      let c := { c with stopped := false, lines := n, got := [], elem := match c.shape with
        | some h => firstLines c.op h n
        | none => 0 }
      copyProg (s.setCopy c) c true false

/-- A reply to a record of a follow-on MMA: RETRY checks again, SKIP and EXIT drop it. -/
def chainReply (s : State) (id action : Nat) : State :=
  match s.copy? id with
  | none => s
  | some c => (s.setCopy { c with held := false, chained := action != 1 }).soon (.copyComplete id)

/-- A reply to a DEFERRED launch record: RETRY reads and checks the record again. -/
def launchReply (s : State) (wid i rec pc : Nat) : State :=
  let (id, s) := s.fresh
  let k := s.core (coreOf wid)
  let h : HeldLaunch := { wave := wid, id := 0x10000000000 + id, path := i, pc := BitVec.ofNat 64 pc,
                          ptr := BitVec.ofNat 64 rec, released := true }
  releaseRun 8 (s.setCore (coreOf wid) { k with launches := k.launches ++ [h] }) wid

/-- A reply, or TRET, acts on a parked path and on what its record stands for (R198). -/
def applyAction (s : State) (wid i action : Nat) : State :=
  match s.wave? wid with
  | none => s
  | some w =>
    match (w.path i).park with
    | none => s
    | some k =>
      match k.kind with
      | .fault => resumePath s wid i action
      | .debug => resumePath s wid i action
      | .launch rec pc =>
        let s := resumePath s wid i action
        if action == 1 then launchReply s wid i rec pc else s
      | .copy id => copyReply (resumePath s wid i action) id action (k.after == k.pc)
      | .mma id => chainReply (resumePath s wid i action) id action

end Sys2Proof.Machine
end

