-- ==== Sys2Proof/Machine/Fetch.lean ====
section
/-!
DEFINITION. Code fetch (R188, R189), the word at a path's address with its REP group (R224, R225, R238, R239, R241,
R242), which path a lane pair lets begin (R185 to R187), the stall reasons (R217, R218) and the cycle of the device
(R6, R376, R377).
-/

namespace Sys2Proof.Machine

/-! ### The word at an address -/

def Path.block (p : Path) (b : Nat) : Option (List Byte) := (p.fetch.find? (fun x => x.1 == b)).map (·.2)

/-- What stands at an address, as far as the fetch buffer tells. -/
inductive Look
  | miss
  | bad (b : Bad) (slot : Nat)
  | ok (i : Instr) (slot : Nat)

/-- The word at an address of a path (R224, R225, R241 orders 1 to 6). -/
def wordAt (p : Path) (a : Word64) : Look :=
  match p.block (blockOf a) with
  | none => .miss
  | some bs =>
    let off := a.toNat % 32
    let w : BitVec 128 := BitVec.ofNat 128 (fieldAt bs off 16)
    let slot := slotBytes w
    if bits w 0 2 == 0 then .bad ⟨true, 0, 0, false⟩ 8
    else if slot == 16 && off == 24 then .bad ⟨false, 0, 0, true⟩ 16
    else match decode (if slot == 8 then (bits w 0 64).setWidth 128 else w) with
      | .error b => .bad b slot
      | .ok i => .ok i slot

/-- An instruction that a path would begin, as the issuing path of State. -/
structure Cand where
  cur   : Cur
  instr : Instr

/-- What a path would begin next: the instructions in order (a REP word takes no cycle, R239), the control fields whose
DIST applies, whether WAIT is tested. None when the word is not in the fetch buffer. A REP that may not stand there faults with the
whole group (R239); where that group goes on in a block not fetched yet, its second word counts as 8 bytes (log 21). -/
def nextOf (w : Wave) (wid i : Nat) : Option (List Cand × Ctl × Bool) :=
  let p := w.path i
  let a := p.e.pc
  let one (pc : Word64) (slot : Nat) (j : Instr) : Cand := ⟨⟨wid, i, pc, a, slot, false⟩, j⟩
  match wordAt p a with
  | .miss => none
  | .bad b slot => some ([one a slot (.notAnInstruction b)], .neutral, false)
  | .ok (.rep n d x y) _ =>
    let misuse (slot : Nat) : Option (List Cand × Ctl × Bool) :=
      some ([one a (8 + slot) (.notAnInstruction ⟨false, 6, 0, false⟩)], .neutral, false)
    if a.toNat % 32 == 24 then misuse (match wordAt p (a + 8) with | .ok _ slot | .bad _ slot => slot | .miss => 8)
    else match wordAt p (a + 8) with
      | .miss => none
      | .bad b slot => some ([⟨⟨wid, i, a + 8, a, slot, true⟩, .notAnInstruction b⟩], .neutral, false)
      | .ok j slot =>
        if !(repOk j d x y (n.toNat + 1)) then misuse slot
        else
          let cur : Cur := ⟨wid, i, a + 8, a, slot, true⟩
          match (match p.rep with | some r => if r.pos == a then some r else none | none => none) with
          | some r => some ([⟨cur, stepped j d x y r.idx⟩], ctlOf j, r.idx == 0)
          | none => some ([one a 8 (.rep n d x y), ⟨cur, j⟩], ctlOf j, true)
  | .ok j slot => some ([one a slot j], ctlOf j, true)

/-! ### Fetching -/

/-- DIST: no earlier than that many cycles after the predecessor's last thread pair, and never in its cycle. -/
def distMet (cycle : Nat) (p : Path) (k : Ctl) : Bool :=
  match p.pred with
  | some c => decide (c.cycle + max 1 k.dist.toNat ≤ cycle)
  | none => true

/-- May a path begin something, its next instruction aside? -/
def runnable (cycle : Nat) (l : LanePair) (w : Wave) (i : Nat) : Bool :=
  let p := w.path i
  p.e.kind == .path && w.state == .running &&
    (p.e.state == .ready || p.e.state == .waiting || p.e.state == .handler) && p.poll.isNone && decide (p.yieldTo ≤ cycle) &&
    (match w.fuse with | some f => f.path != i | none => true) &&
    !l.prog.any (fun b => (p.pred.bind (·.op)) == some b.op)

/-- Request a fetch block for a path; `counted` when the path misses it, which counts (R188). -/
def requestFetch (s : State) (wid i b : Nat) (counted : Bool) : State :=
  (s.updWave wid (fun w => w.setPath i { w.path i with fetching := some (b, w.seq), slipped := counted })).later
    (.fetchBlockArrival wid i b)

/-- The block that a path stands in cannot be fetched: the fault is raised where the path would issue its instruction (R188), which no
WAIT or DIST that is not fetched can tell, after an execute breakpoint (R221), and once commit has reached it (log 14). -/
def fetchFault (s : State) (wid i n : Nat) (f : Fail) : State :=
  match s.wave? wid with
  | none => s
  | some w =>
    let p := w.path i
    if issuePaused s w.ctx || !runnable s.clk.cycle (s.lp (lpOf wid)) w i || !distMet s.clk.cycle p .neutral then s
    else if w.owesUntil (p.stopAt.getD n) then
      s.setWave wid (w.setPath i { p with stopAt := some (p.stopAt.getD n) })
    else
      let c := s.ctx? w.ctx
      let stop (kind : ParkKind) (f : FaultInfo) (s : State) : State :=
        takeFault (rollback s wid false) wid i p.e.pc p.e.pc (p.e.pc + 8) kind f
      match (if p.noMatch then none else c.bind (fun x => bkptAt x wid i p.e.pc)) with
      | some b => stop .debug { code := Code.DEBUG_STOP, sub := 1, mask := p.e.mask, extra := BitVec.ofNat 64 b }
          (if c.any (fun x => stepArmed x wid i) then disarm s w.ctx else s)
      | none => stop .fault { f with mask := p.e.mask } s

/-- A fetch block arrives (R188, R189): it is read as a load that needs X, once every operation of the path that precedes what
caused it has taken its place, and after requests of undemoted paths (R187). A failed request for another block than the path's is
discarded. -/
def fetchArrive (s : State) (wid i b : Nat) : State :=
  match s.wave? wid with
  | none => s
  | some w =>
    let p := w.path i
    match (p.fetching.filter (fun f => f.1 == b)) with
    | none => s
    | some f =>
    let n := f.2
    if owesBefore s wid i n || portBusy s wid i then s.after 1 (.fetchBlockArrival wid i b)
    else
      let cur := blockOf p.e.pc
      let done (s : State) (bs : List Byte) : State :=
        s.updWave wid (fun w =>
          let p := w.path i
          let keep := p.fetch.filter (fun x => x.1 == cur && x.1 != b)
          let new := if b == cur || b == cur + 32 then keep ++ [(b, bs)] else keep
          w.setPath i { p with fetch := new, fetching := none })
      let fail (f : Fail) : State :=
        if f.later then s.after 1 (.fetchBlockArrival wid i b)
        else
          let s := s.updWave wid (fun w => w.setPath i { w.path i with fetching := none })
          if b == cur then fetchFault s wid i n f else s
      let q := BitVec.ofNat 64 b
      match checkPtr q 32 .global with
      | some f => fail f
      | none =>
        match translate s (coreOf wid) w.ctx q pX with
        | .error f => fail f
        | .ok (x, s) =>
          match combineFirst s x.dev with
          | .wait t r => s.waitTick t r (.fetchBlockArrival wid i b)
          | .fail f => fail f
          | .ok _ s =>
            match readAt s (whoOf wid w) x with
            | .wait t r => s.waitTick t r (.fetchBlockArrival wid i b)
            | .fail f => fail f
            | .ok g s => done s (placeBytes s g.place x.dev 32)

/-! ### Eligibility (R185, R231, R232) -/

def waitMet (w : Wave) (k : Ctl) (test : Bool) : Bool := !test || k.wait &&& w.pendingFlags == 0

/-- A path that a lane pair may let begin: its order among the others, and what it would begin. -/
structure Elig where
  urgent : Option Nat
  key    : Nat
  stalls : Bool
  cands  : List Cand

/-- The blocks that a path in block b has in its fetch buffer: b and the next in sequence; a block it has left is gone (R188). -/
def Path.inSequence (p : Path) (b : Nat) : List (Nat × List Byte) :=
  if (p.block b).isSome then p.fetch.filter (fun x => x.1 == b || x.1 == b + 32) else []

/-- One path looked at in a cycle: its STATE, its count of eligible cycles, the fetches it asks for. While a checkpoint pauses the
issue of its partition (R206) it begins nothing. -/
def scanPath (s : State) (l : LanePair) (wid i : Nat) : State × Option Elig :=
  match s.wave? wid with
  | none => (s, none)
  | some w =>
    let p := w.path i
    if !runnable s.clk.cycle l w i then
      (if p.eligible == 0 then s else s.setWave wid (w.setPath i { p with eligible := 0, urgentAt := none }), none)
    else
      let b := blockOf p.e.pc
      let p := { p with fetch := p.inSequence b }
      let still (st : PState) : Entry := if p.e.state == .handler then p.e else { p.e with state := st }
      match nextOf w wid i with
      | none =>
        let coming := p.fetching.any (fun f => f.1 == b)
        let s := s.setWave wid (w.setPath i
          { p with e := still .waiting, eligible := 0, urgentAt := none, reason := 0, slipped := true })
        let k := s.lp (lpOf wid)
        let s := if coming && p.slipped then s else s.setLp (lpOf wid) { k with slip := k.slip + 1 }
        (if coming then s else requestFetch s wid i b true, none)
      | some (cs, k, test) =>
        if waitMet w k test && distMet s.clk.cycle p k then
          let n := if p.reason == 0 then p.eligible + 1 else 0
          let p' := { p with e := still .ready, eligible := n }
          let s := s.setWave wid (w.setPath i p')
          let s := if decide ((if p.demoted then 1024 else 16) ≤ n) && p.urgentAt.isNone then s.ensureSoon (.pathUrgent wid i)
            else s
          let s := if (p.block (b + 32)).isNone && p.fetching.isNone then requestFetch s wid i (b + 32) false else s
          (s, some ⟨p.urgentAt, (if p.demoted then 2 ^ 100 else 0) + w.age * 2 ^ 32 + wid * 16 + i, p.reason != 0,
            if issuePaused s w.ctx then [] else cs⟩)
        else
          (s.setWave wid (w.setPath i
            { p with e := still .waiting, eligible := 0, urgentAt := none, reason := 0 }), none)

def scanPaths (s : State) (l : LanePair) (wid : Nat) : List Nat → State × List Elig
  | [] => (s, [])
  | i :: is =>
    let (s, e) := scanPath s l wid i
    let (s, es) := scanPaths s l wid is
    (s, match e with | some e => e :: es | none => es)

def scanWaves (s : State) (l : LanePair) : List Nat → State × List Elig
  | [] => (s, [])
  | w :: ws =>
    let (s, es) := match s.wave? w with
      | some x => scanPaths s l w (List.range x.paths.length)
      | none => (s, [])
    let (s, fs) := scanWaves s l ws
    (s, es ++ fs)

/-- The order of R186. -/
def Elig.before (a b : Elig) : Bool :=
  match a.urgent, b.urgent with
  | some x, some y => decide (x < y) || (x == y && decide (a.key % 2 ^ 100 < b.key % 2 ^ 100))
  | some _, none => true
  | none, some _ => false
  | none, none => decide (a.key < b.key)

def insertElig (e : Elig) : List Elig → List Elig
  | [] => [e]
  | f :: fs => if e.before f then e :: f :: fs else f :: insertElig e fs

def sortElig : List Elig → List Elig
  | [] => []
  | e :: es => insertElig e (sortElig es)

def allCands : List Elig → List Cand
  | [] => []
  | e :: es => e.cands ++ allCands es

/-- A lane pair's turn in a cycle: the state with its paths looked at, and what it tries to begin, in order. With an
instruction in progress only an urgent path begins; on a failed die none does (log 40). -/
def laneBegin (s : State) (lpi : Nat) : State × List Cand :=
  let l := s.lp lpi
  let turned := if (wavesOf s lpi).isEmpty then l.turned else s.clk.cycle + 1
  if (s.die (lpi / 1024)).down then (s.setLp lpi { l with eligN := 0, began := none, turned := turned }, []) else
  let (s, es) := scanWaves s l ((List.range 16).map (fun i => lpi * 16 + i))
  let order := sortElig es
  let pick := if l.prog.isEmpty then order else order.filter (fun e => e.urgent.isSome)
  let k := s.lp lpi
  let n := (es.filter (fun e => !e.stalls)).length
  (s.setLp lpi { k with eligN := n, began := none, turned := turned }, allCands pick)

/-! ### Stall reasons (R218) -/

/-- Has the path a launch that waits at release for a queue entry (R179)? -/
def launchWaits (s : State) (wid i : Nat) : Bool :=
  (s.core (coreOf wid)).launches.any (fun h => h.wave == wid && h.path == i && h.full)

/-- The reason of one path: the first row of R218 that holds; `held` when a launch of it waits for a queue entry. A wait of R107, R109,
R115 to R117 that no row names has reason 12 here: that of a BWAIT is charged to the barrier, that of a WAITGE to its counter, another
as rollback replay where no other row holds; a path that waits out a YIELD is charged 3 (DESIGN CHOICE, log 52). -/
def pathReason (w : Wave) (wid i : Nat) (held : Bool) : Nat :=
  let p := w.path i
  let memory : Bool := match p.poll with
    | some q => (match q.instr with | .waitge _ _ _ _ _ => true | _ => false)
    | none => false
  let at_ : Option Instr := if p.reason == 12 then (nextOf w wid i).bind (fun y => (y.1.getLast?).map (·.instr)) else none
  let atWait : Bool := match at_ with | some (.waitge _ _ _ _ _) => true | _ => false
  let atBar : Bool := match at_ with | some (.bwait _ _ _ _ _ _) => true | _ => false
  let fusing : Bool := match w.fuse with | some f => f.path == i | none => false
  if w.state == .blocked || w.state == .spilled then 10
  else if p.parked then 11
  else if p.reason == 9 || p.reason == 8 then p.reason
  else if p.reason == 7 || w.accs.any (fun a => a.path == i && a.high) then 7
  else if memory || atWait || held || p.reason == 6 then 6
  else if p.poll.isSome || fusing || p.e.state == .atMeet || p.e.state == .atReturn || p.reason == 5 || atBar then 5
  else if p.e.state == .counting && p.reason == 2 then 2
  else match nextOf w wid i with
    | none => 4
    | some (_, k, test) =>
      let named := w.owes.filter (fun o => test && k.wait.getLsbD o.flag)
      if named.any (fun o => o.cls == 0) then 1
      else if named.any (fun o => o.cls == 1) then 2
      else if p.reason == 12 then 9
      else if p.reason != 0 && p.reason != 11 then p.reason
      else 3

/-- The oldest resident wave of a lane pair, and its lowest PATH entry. -/
def chargedPath (s : State) (lpi : Nat) : Option (Nat × Wave × Nat) :=
  let mine := s.waves.filter (fun w => lpOf w.1 == lpi)
  match mine.foldl (fun b w => match b with
    | some x => if decide (w.2.age < x.2.age) then some w else b
    | none => some w) (none : Option (Nat × Wave)) with
  | some (id, w) =>
    ((List.range w.paths.length).find? (fun i => (w.path i).e.kind == .path)).map (fun i => (id, w, i))
  | none => none

/-- The instruction in progress that began first issues its next thread pair. -/
def stepProg : List Busy → List Busy
  | [] => []
  | b :: bs => if b.left ≤ 1 then bs else { b with left := b.left - 1 } :: bs

/-- The results and the flag of an instruction come a cycle later. -/
def delayResult (s : State) (wid id : Nat) : State :=
  { s with sch := { s.sch with timers := s.sch.timers.map (fun t =>
      if t.ev == .resultWritten wid id then { t with due := t.due + 1 } else t) } }

/-- Instructions in progress wait a cycle (R186): their last thread pair, from which DIST counts, and what they write
after it come a cycle later (R16, R231, R233). -/
def delayProg (s : State) : List Busy → State
  | [] => s
  | b :: bs =>
    let s := b.names.foldl (fun s y => delayResult s y.1 y.2) s
    let later (p : Path) : Path := { p with pred := p.pred.map (fun d => if d.op == some b.op then { d with cycle := d.cycle + 1 } else d) }
    delayProg { s with waves := s.waves.map (fun w =>
      if lpOf w.1 == lpOf b.wave then (w.1, { w.2 with paths := w.2.paths.map later }) else w) } bs

/-- Does this cycle of a lane pair bring a context a sample (R216)? -/
def sampleDue (s : State) (c cycles : Nat) : Bool :=
  match s.ctx? c with
  | some x => bit x.obsCtl 1 && x.obsPer != 0 && cycles % x.obsPer == 0
  | none => false

/-- A sample of a lane pair's core is ready to be written. -/
def queueSample (s : State) (lpi : Nat) (r : Sample) : State :=
  let k := s.core (lpi / 32)
  (s.setCore (lpi / 32) { k with sampleQ := k.sampleQ ++ [r] }).ensureSoon (.sample (lpi / 32) (lpi % 32))

/-- The sample of the path that begins an instruction in this cycle; inside a window it waits for the commit of its instruction
(R216). -/
def sampleBegun (s : State) (lpi : Nat) (g : Began) : State :=
  if !sampleDue s g.ctx (s.lp lpi).cycles then s
  else
    let r : Sample := ⟨g.ctx, g.pc, g.mask, s.ctxTime g.ctx, g.wave, g.path, 0⟩
    if g.win then s.updWave g.wave (fun w => { w with samples := w.samples ++ [(g.id, r)] }) else queueSample s lpi r

/-- The sample of the path that a cycle is charged to. -/
def sampleCharged (s : State) (lpi : Nat) (y : Nat × Wave × Nat) (reason : Nat) : State :=
  if !sampleDue s y.2.1.ctx (s.lp lpi).cycles then s
  else
    let p := y.2.1.path y.2.2
    queueSample s lpi ⟨y.2.1.ctx, p.e.pc, p.e.mask, s.ctxTime y.2.1.ctx, y.1, y.2.2, reason⟩

/-- The end of a lane pair's turn. The path that issues a thread pair of an instruction already begun counts as eligible
(R217). A cycle in which none begins and none is charged has no path to sample (log 30). -/
def laneEnd (s : State) (lpi : Nat) : State :=
  let s := match (s.lp lpi).began with
    | some g => sampleBegun s lpi g
    | none => s
  let s := settleHits s
  let l := s.lp lpi
  let s := match l.began with
    | some g => delayProg s (l.prog.filter (fun b => !(b.wave == g.wave && b.id == g.id)))
    | none => s.setLp lpi { l with prog := stepProg l.prog, eligN := l.eligN + min 1 l.prog.length }
  let l := s.lp lpi
  let s := match (if l.eligN == 0 && l.began.isNone then chargedPath s lpi else none) with
    | some y =>
      let r := pathReason y.2.1 y.1 y.2.2 (launchWaits s y.1 y.2.2)
      sampleCharged (s.setLp lpi { l with reason := r }) lpi y r
    | none => s.setLp lpi { l with reason := 0 }
  { s with sch := { s.sch with cur := none, issued := false } }

/-! ### The cycle of the device -/

/-- Lane pairs that hold a wave, ascending. -/
def busyLanes (s : State) : List Nat := (s.waves.map (fun w => lpOf w.1)).eraseDups

/-- Lane pairs that held a wave at their turn in the cycle that ends, ascending. -/
def turnedLanes (s : State) : List Nat := (s.lps.filter (fun l => l.2.turned == s.clk.cycle + 1)).map (·.1)

/-- The counts of a lane pair for one cycle in which it holds a wave (R217, R218); its own cycle count, which R216 divides, is of these
cycles (DESIGN CHOICE, log 30). -/
def countLane (s : State) (lpi : Nat) : State :=
  let l := s.lp lpi
  let n := min 16 l.eligN
  s.setLp lpi { l with hist := Sp.upd 0 l.hist n (· + 1), busy := l.busy + 1, cycles := l.cycles + 1, eligN := 0, reason := 0,
                       stall := if l.eligN == 0 && l.reason != 0 then Sp.upd 0 l.stall l.reason (· + 1) else l.stall }

def countLanes (s : State) : List Nat → State
  | [] => s
  | l :: ls => countLanes (countLane s l) ls

/-- Core cycles of a tick at a throttle step (R376, R377). -/
def cyclesPerTick (n : BitVec 3) : Nat := 4 * (8 - n.toNat)

/-- A tick in units of which every cycle, at any throttle step, is a whole number: a tick lasts 21.3 ns whatever the step, and changes
of it within a tick do not alter that (R377). -/
abbrev tickPhase : Nat := 26880
def phaseStep (n : BitVec 3) : Nat := 6720 / (8 - n.toNat)

/-- The steps that every tick brings, and every so many (R63, R44, R79, R99). -/
def tickSteps (t : Nat) : List Instr :=
  [.ptsTick] ++ (if t % 4096 == 0 then [.monarchInterval] else []) ++
    (if t % 16384 == 0 then [.lasttouchSweep, .timestampSweep] else []) ++
    (if t * 8 / 375 != (t - 1) * 8 / 375 then [.bucketRefill] else [])

/-- The time goes on by one cycle; steps that are due come to the agenda. -/
def advanceTime (s : State) : State :=
  let c := s.clk
  let now := c.phase + phaseStep c.throttle
  let roll := tickPhase ≤ now
  let c := { c with cycle := c.cycle + 1, tick := if roll then c.tick + 1 else c.tick,
                    phase := if roll then now - tickPhase else now }
  let due (t : Timer) : Bool := if t.onTick then decide (t.due ≤ c.tick) else decide (t.due ≤ c.cycle)
  let s := { s with clk := c }
  let s := if roll then (tickSteps c.tick).foldl State.soon s else s
  let now := (s.sch.timers.filter due).map (·.ev)
  { s with sch := { s.sch with agenda := s.sch.agenda ++ now, timers := s.sch.timers.filter (fun t => !due t) } }

/-- LANE_PAIR_CYCLE: every lane pair counts the cycle that ends, and a new one begins. -/
def cycleOf (s : State) : State :=
  let s := advanceTime (countLanes s (turnedLanes s))
  let s := watchWaves (copyCycles (arrCycles s (arrCores s)))
  { s with sch := { s.sch with todo := busyLanes s } }

end Sys2Proof.Machine
end

