-- ==== Sys2Proof/Machine/Flags.lean ====
section
/-!
DEFINITION. Status and completion flags: the sticky bits of %fstat (R130), results that are written after issue
(R233, R247), and what RESULT_WRITTEN does.
-/

namespace Sys2Proof.Machine

/-- The status bits of one thread: poison never sets one (R141). -/
def quiet (poison : Bool) (f : Word32) : Word32 := if poison then 0 else f

/-- Registers that a later instruction is about to write while an earlier one still owes them (R234). -/
def Wave.markRaced (w : Wave) (id : Nat) : List RegW → Wave
  | [] => w
  | x :: xs => (if w.inFlight x.key then { w with raced := (x.key, id) :: w.raced } else w).markRaced id xs

/-- Results on their way: written n cycles after the last thread pair of the issuing instruction. -/
def landLater (x : Iss) (i : Instr) (n : Nat) (ws : List RegW) (stat : Word32) (s : State) : State :=
  let s := s.updWave x.cur.wave (fun w =>
    let w := w.markRaced x.id ws
    { w with pend := w.pend ++ [Pend.mk x.id ws stat] })
  s.after (lastPair x i s + n) (.resultWritten x.cur.wave x.id)

/-- RESULT_WRITTEN: the registers and status bits of an instruction are written, and it completes (R233). -/
def resultLands (s : State) (wid id : Nat) : State :=
  match s.wave? wid with
  | none => s
  | some w =>
    match w.pend.find? (fun p => p.id == id) with
    | none => s
    | some p =>
      let w := { w with pend := w.pend.filter (fun q => q.id != id) }
      let w := ((w.lands s.sch.free id p.writes).raiseStat id p.stat).clearFlag id
      (s.setWave wid w).tickFree

/-- Cycles to a result of the ordinary floating-point and conversion instructions (R16, R247). -/
abbrev fpCycles : Nat := 4

/-- Cycles to the result of a special function: at most 64 (R247). -/
def sfuCycles (s : State) : Nat := min 64 (max 1 (Config.sfuLatency s.sch.free))

/-- Cycles to the result of a cross-thread instruction: at most 8 (R263). -/
def crossCycles (s : State) : Nat := min 8 (max 1 (Config.latency s.sch.free))

end Sys2Proof.Machine
end

