-- ==== Sys2Proof/Machine/Operands.lean ====
section
/-!
DEFINITION. Operands: how each operand form is read (R228, R229, R244, R245, R246) and how a result is written, for one
thread or for the S form, and the shared bodies of the instructions that only compute.
-/

namespace Sys2Proof.Machine

/-! ### Sources -/

/-- A 32-bit source of thread t (in S form t does not matter): a register of the form's own file, a scalar named by a
kind bit, or the immediate. -/
def src32 (w : Wave) (free : Nat) (sc : Bool) (t : Nat) : Src → VWord
  | .reg n => if sc then w.readS free n.toNat else w.readV free n.toNat t
  | .sca n => w.readS free n.toNat
  | .imm v => ⟨v, false⟩

/-- A 64-bit source: a pair, or an immediate extended by sign or by zero. -/
def src64 (w : Wave) (free : Nat) (sc : Bool) (t : Nat) (sgn : Bool) : Src → Word64 × Bool
  | .reg n => if sc then w.readX free n.toNat else w.readW free n.toNat t
  | .sca n => w.readX free n.toNat
  | .imm v => (if sgn then v.signExtend 64 else v.setWidth 64, false)

/-- A scalar register as a source. -/
def srcS (w : Wave) (free : Nat) (n : BitVec 8) : VWord := w.readS free n.toNat
def srcX (w : Wave) (free : Nat) (n : BitVec 8) : Word64 × Bool := w.readX free n.toNat

/-! ### Integer types (R245) -/

def tyWidth : IType → Nat
  | .n32 | .i32 => 32
  | .n8 | .i8 => 8
  | .n16 | .i16 => 16

def tySigned : IType → Bool
  | .i32 | .i8 | .i16 => true
  | _ => false

/-- EXT: a source as an integer. -/
def tyExt (t : IType) (v : Word32) : Int :=
  if tySigned t then (v.setWidth (tyWidth t)).toInt else ((v.setWidth (tyWidth t)).toNat : Int)

/-- FIT: the exact integer result written as T states. -/
def tyFit (t : IType) (sat : Bool) (r : Int) : Word32 :=
  let r := if sat then max (iMin t) (min (iMax t) r) else r
  let b := BitVec.ofInt (tyWidth t) r
  if tySigned t then b.signExtend 32 else b.setWidth 32

/-! ### Destinations -/

/-- A 32-bit result. -/
def dst32 (sc : Bool) (d : BitVec 8) (t : Nat) (v : VWord) : List RegW :=
  if sc then [.s d.toNat v] else [.v d.toNat t v]

/-- A 64-bit result in a pair. -/
def dst64 (sc : Bool) (d : BitVec 8) (t : Nat) (v : Word64 × Bool) : List RegW :=
  if sc then wX d.toNat v.1 v.2 else wW d.toNat t v.1 v.2

/-- A truth value: a predicate, or 1 or 0 in a scalar register (R252). -/
def dstP (sc : Bool) (d : BitVec 8) (t : Nat) (v : Bool × Bool) : List RegW :=
  if sc then [.s d.toNat ⟨if v.1 then 1 else 0, v.2⟩] else [.p d.toNat t ⟨v.1, v.2⟩]

/-! ### Instructions that only compute -/

/-- The threads an instruction acts for: the active ones, or once in S form. -/
def lanesOf (sc : Bool) (act : Word64) : List Nat := if sc then [0] else threads act

/-- The register writes of every thread, in ascending %tid. -/
def allWrites (ts : List Nat) (f : Nat → List RegW) : List RegW := ts.flatMap f

/-- An instruction whose results are in place when it has issued (R247, first row). -/
def compute (i : Instr) (sc : Bool) (f : Wave → Nat → Nat → List RegW) (s : State) : Out :=
  issue i s (fun x s =>
    let ws := allWrites (lanesOf sc x.act) (f x.w s.sch.free)
    .done (s.updWave x.cur.wave (fun w => w.writes x.id ws)))

/-- A floating-point result of one thread: code, poison, status bits. -/
structure FOut where
  writes : List RegW
  stat   : Word32

/-- An instruction whose results are written some cycles after its last thread pair (R247). -/
def computeLater (i : Instr) (sc : Bool) (cycles : State → Nat) (f : Wave → Nat → Nat → FOut) (s : State) : Out :=
  issue i s (fun x s =>
    let outs := (lanesOf sc x.act).map (f x.w s.sch.free)
    let ws := outs.flatMap (·.writes)
    let st := outs.foldl (fun a o => a ||| o.stat) 0
    .later (landLater x i (cycles s) ws st s))

/-- The sources of an integer instruction of one thread, with their joint poison. -/
structure In3 where
  a : Word32
  b : Word32
  c : Word32
  deriving DecidableEq, Repr

/-- An integer instruction on up to three 32-bit sources with a 32-bit result (R246, R248). -/
def int32 (i : Instr) (o : Alu) (n : Nat) (f : In3 → Word32) (s : State) : Out :=
  compute i o.s (fun w free t =>
    let a := src32 w free o.s t o.a
    let b := if 2 ≤ n then src32 w free o.s t o.b else {}
    let c := if 3 ≤ n then src32 w free o.s t o.c else {}
    dst32 o.s o.dst t ⟨f ⟨a.val, b.val, c.val⟩, a.poison || b.poison || c.poison⟩) s

/-- A typed integer instruction of two sources (R249). -/
def intTyped (i : Instr) (o : Alu) (n : Nat) (f : Int → Int → Int) (s : State) : Out :=
  int32 i o n (fun x => tyFit o.ty o.sat (f (tyExt o.ty x.a) (tyExt o.ty x.b))) s

/-- An instruction on a wide A and a wide B with a wide result; an immediate extends as TYPE states (R249). -/
def int64 (i : Instr) (o : Alu) (f : Word64 → Word64 → Word64) (s : State) : Out :=
  compute i o.s (fun w free t =>
    let a := src64 w free o.s t false o.a
    let b := src64 w free o.s t (tySigned o.ty) o.b
    dst64 o.s o.dst t (f a.1 b.1, a.2 || b.2)) s

/-- A wide A shifted by an amount in B[7:0] (R250). -/
def shift64 (i : Instr) (o : Alu) (f : Word64 → Nat → Word64) (s : State) : Out :=
  compute i o.s (fun w free t =>
    let a := src64 w free o.s t false o.a
    let b := src32 w free o.s t o.b
    dst64 o.s o.dst t (f a.1 (b.val.toNat % 256), a.2 || b.poison)) s

/-- A floating-point or conversion instruction on up to three words with a 32-bit result (R253, R254). -/
def flt32 (i : Instr) (o : Flt) (n : Nat) (cycles : State → Nat) (f : In3 → FR) (s : State) : Out :=
  computeLater i o.s cycles (fun w free t =>
    let a := src32 w free o.s t o.a
    let b := if 2 ≤ n then src32 w free o.s t o.b else {}
    let c := if 3 ≤ n then src32 w free o.s t o.c else {}
    let p := a.poison || b.poison || c.poison
    let r := f ⟨a.val, b.val, c.val⟩
    ⟨dst32 o.s o.dst t ⟨w32 r.code, p⟩, quiet p r.flags⟩) s

/-- A predicate instruction on up to two predicates (R260). -/
def pred2 (i : Instr) (o : Prd) (two : Bool) (f : Bool → Bool → Bool) (s : State) : Out :=
  compute i false (fun w free t =>
    let a := w.readP free o.a.toNat t
    let b := if two then w.readP free o.b.toNat t else {}
    [.p o.dst.toNat t ⟨f (a.val != o.na) (b.val != o.nb), a.poison || b.poison⟩]) s

end Sys2Proof.Machine
end

