-- ==== Sys2Proof/Machine/Matrix.lean ====
section
/-!
DEFINITION. Tile and matrix instructions (R328 to R338): what each checks at issue, and what it puts on its way.
-/

namespace Sys2Proof.Machine

/-- A fault of the issuing path's threads. -/
def Iss.fails (x : Iss) (f : FaultInfo) : Act := .trap { f with mask := x.act }

/-! ### TCFG and TZERO (R329, R331) -/

/-- TCFG: checks the value, claims an unowned tile, releases it with 0. -/
def execTcfg (ctl : Ctl) (t : BitVec 8) (v : Src) (s : State) : Out :=
  issue (.tcfg ctl t v) s (fun x s =>
    let core := coreOf x.cur.wave
    let n := t.toNat
    let w := (src32 x.w s.sch.free true 0 v).val
    let own := s.tileOwner core n
    if !tcValid w then x.fails (tileFault 1 w.toNat)
    else if own.isSome && own != some x.w.ctx then x.fails (tileFault 5 n)
    else if tileBusy (s.core core) [] [n] none then .stall 2
    else
      let s := if own.isNone then s.clearTile core n else s
      let s := s.setOwner core n (if w == 0 then none else some x.w.ctx)
      let k := s.core core
      .done (s.setCore core { k with tc := Sp.put 0 k.tc n w }))

/-- TZERO. -/
def execTzero (ctl : Ctl) (t : BitVec 8) (s : State) : Out :=
  issue (.tzero ctl t) s (fun x s =>
    let core := coreOf x.cur.wave
    match notOwned s core x.w.ctx [t.toNat] with
    | some f => x.fails f
    | none =>
      if tileBusy (s.core core) [] [t.toNat] none then .stall 2 else .done (s.clearTile core t.toNat))

/-! ### TLD and TST (R330) -/

/-- The first line, ascending, that fails R38. -/
def checkLines (s : State) (core c : Nat) (want : BitVec 3) : List Word64 → Except Fail State
  | [] => .ok s
  | l :: ls =>
    match checkAccess s core c l 128 want .globalDev with
    | .error f => .error f
    | .ok (_, s) => checkLines s core c want ls

/-- The checks of R330 on the tile's format, the pointer and the stride. -/
def moveCheck (v : Word32) (t : Nat) (m : TMov) (store : Bool) (p : Word64) (stride : Nat) : Option FaultInfo :=
  let scales : Bool := match m with
    | .scales => !tcScl v
    | .mxScales => !tcScl v || tcFmt v != 5 || store
    | _ => false
  let data : Bool := match m with
    | .data | .strided _ => true
    | _ => false
  if tcFmt v == 0 || scales then some (tileFault 7 t)
  else if data && (p.toNat % 16 != 0 || stride % 16 != 0) then some (bad Code.ALIGN 0 p)
  else if data && store && decide (stride < rowBytes v) then some (tileFault 8 t)
  else none

/-- A TLD or TST: every line is checked, then each is an access of the wave. -/
def moveTile (i : Instr) (x : Iss) (s : State) (t : Nat) (a : BitVec 8) (m : TMov) (store : Bool) : Act :=
  let core := coreOf x.cur.wave
  let v := s.tcOf core t
  let p := srcX x.w s.sch.free a
  let st : VWord := match m with
    | .strided r => srcS x.w s.sch.free r
    | _ => ⟨BitVec.ofNat 32 (rowBytes v), false⟩
  match notOwned s core x.w.ctx [t] with
  | some f => x.fails f
  | none =>
    match moveCheck v t m store p.1 st.val.toNat with
    | some f => x.fails f
    | none =>
      if p.2 || st.poison then x.fails (bad Code.POISON_USE 0 p.1)
      else if tileBusy (s.core core) (if store then [t] else []) (if store then [] else [t]) none then .stall 2
      else
        let ps := tilePieces v m p.1 st.val.toNat
        match checkLines s core x.w.ctx (if store then pW else pR) (pieceLines ps) with
        | .error f => x.fails f
        | .ok s =>
          if store && ps.any (fun q => (pieceBytes s core t v m q).2) then x.fails (bad Code.POISON_USE 0 p.1)
          else
            let (id, s) := s.fresh
            let s := s.addTileOp core { id := id, ctx := x.w.ctx, reads := if store then [t] else [],
                                        writes := if store then [] else [t] }
            issueAccess i x s ((pieceLines ps).map (fun l =>
              ({ tid := 0, ptr := l, d0 := p.1.setWidth 128, d1 := st.val.setWidth 64 } : Lane))) (some id)

/-- TLD. -/
def execTld (ctl : Ctl) (t a : BitVec 8) (m : TMov) (s : State) : Out :=
  issue (.tld ctl t a m) s (fun x s => moveTile (.tld ctl t a m) x s t.toNat a m false)
/-- TST. -/
def execTst (ctl : Ctl) (t a : BitVec 8) (m : TMov) (s : State) : Out :=
  issue (.tst ctl t a m) s (fun x s => moveTile (.tst ctl t a m) x s t.toNat a m true)

/-! ### The array queue at issue (R327) -/

/-- Must an operation of a context on an accumulator wait for the queue: is it full, does a release of the accumulator stand in it, or
has a follow-on MMA on it a place before? Entries of other contexts that are stopped block nothing (R326). -/
def arrWaits (s : State) (core c acc : Nat) (ops : List TileOp) : Bool :=
  let q := (s.core core).arrayQ
  decide (8 ≤ (q.filter (fun o => o.ctx == c || ctxRuns s o.ctx)).length) || q.any (fun o => o.kind == .arel && o.acc == acc) ||
    ops.any (fun o => o.acc == some acc)

/-- Put an operation of a wave on the core's array queue, protecting its tiles. -/
def arrPut (s : State) (core c wid seq acc : Nat) (kind : ArrKind) (done total : Nat) (reads writes : List Nat)
    (byp pz : Bool) : State :=
  let (id, s) := s.fresh
  let k := s.core core
  let o : ArrOp := { id := id, ctx := c, wave := wid, seq := seq, acc := acc, kind := kind, done := done, total := total,
                     poison := pz }
  let s := s.setCore core { k with arrayQ := k.arrayQ ++ [o] }
  if reads.isEmpty && writes.isEmpty then s
  else s.addTileOp core { id := id, ctx := c, reads := reads, writes := writes, byp := byp }

/-- AZERO and AZERO.rel (R331). -/
def zeroAcc (x : Iss) (s : State) (acc : Nat) (rel : Bool) : Act :=
  let core := coreOf x.cur.wave
  let own := s.tileOwner core (16 + acc)
  if own != some x.w.ctx && (rel || own.isSome) then x.fails (tileFault 5 (16 + acc))
  else if arrWaits s core x.w.ctx acc (s.core core).tileOps then .stall 2
  else
    let s := if own.isNone then (s.setOwner core (16 + acc) (some x.w.ctx)).clearAcc core acc else s
    .later (arrPut s core x.w.ctx x.cur.wave x.id acc (if rel then .arel else .azero) 0 1 [] [] false false)

/-- AZERO. -/
def execAzero (ctl : Ctl) (acc : BitVec 8) (s : State) : Out :=
  issue (.azero ctl acc) s (fun x s => zeroAcc x s acc.toNat false)
/-- AZERO.rel. -/
def execAzeroRel (ctl : Ctl) (acc : BitVec 8) (s : State) : Out :=
  issue (.azeroRel ctl acc) s (fun x s => zeroAcc x s acc.toNat true)

/-! ### Products (R332) -/

/-- How many tiles the B group has: those that hold its columns, and tB. -/
def groupSize (v : Word32) (n : Nat) : Nat := max 1 ((n + tcRows v - 1) / tcRows v)

/-- The tiles of the B group that exist. -/
def groupOf (s : State) (core b n : Nat) : List Nat :=
  ((List.range (min 16 (groupSize (s.tcOf core b) n))).map (fun i => b + i)).filter (fun t => decide (t < 16))

/-- The class of an operand format (R332): 1 BF16, 2 FP8, 3 FP4, 4 INT8, 5 BPI. -/
def fmtClass : Nat → Nat
  | 1 => 1
  | 3 | 4 => 2
  | 5 => 3
  | 6 | 7 => 4
  | 8 => 5
  | _ => 0

/-- Is the A format, with its SCL, one of the form? -/
def aFormat (kind : Nat) (v : Word32) : Bool :=
  let c := fmtClass (tcFmt v)
  match kind with
  | 1 => (c == 1 || c == 2 || c == 3) && !tcScl v
  | 2 => (c == 2 || c == 3) && tcScl v
  | _ => c == 4

/-- Is the B format, with its SCL, one that goes with A's? -/
def bFormat (kind : Nat) (a b : Word32) : Bool :=
  match kind with
  | 1 => fmtClass (tcFmt b) == fmtClass (tcFmt a) && !tcScl b
  | 2 => fmtClass (tcFmt b) == fmtClass (tcFmt a) && tcScl b
  | 3 => fmtClass (tcFmt b) == 4
  | _ => fmtClass (tcFmt b) == 5

/-- The checks of R332 in their order. KIND 1 MMA.F, 2 MMA.X, 3 MMA.I8, 4 MMA.BP. -/
def mmaCheck (s : State) (core c kind acc a b n p : Nat) : Option FaultInfo :=
  let va := s.tcOf core a
  let vb := s.tcOf core b
  let g := groupOf s core b n
  match notOwned s core c ([16 + acc, a] ++ g) with
  | some f => some f
  | none =>
    if !(n % 16 == 0 && decide (16 ≤ n) && decide (n ≤ 512)) then some (tileFault 3 n)
    else match g.find? (fun t => s.tcOf core t != vb) with
      | some t => some (tileFault 3 t)
      | none =>
        if decide (16 < b + groupSize vb n) then some (tileFault 3 16)
        else if tcRows va != 32 || tcSteps va != tcSteps vb then some (tileFault 3 a)
        else if !aFormat kind va then some (tileFault 2 a)
        else if !bFormat kind va vb then some (tileFault 2 b)
        else if kind == 4 && tcSteps vb % 8 != 0 then some (tileFault 3 b)
        else if kind == 4 && (decide (p < 2) || decide (8 < p)) then some (tileFault 4 p)
        else none

/-- The bypass of a drain is used up (R338). -/
def takeBypass (s : State) (core a : Nat) : State :=
  let k := s.core core
  s.setCore core { k with tileOps := k.tileOps.map (fun o => if o.writes.contains a then { o with byp := false } else o) }

/-- The steps that an operation skips while %mprog of its accumulator holds STOPPED, which clears (R174, R327). -/
def takeStopped (s : State) (core acc total : Nat) : Nat × State :=
  let g : Word32 := Sp.get 0 (s.core core).mprog acc
  (if bit g 30 then min (bits g 10 10).toNat total else 0, s.setMprog core acc (g &&& ~~~(0x40000000 : Word32)))

/-- An MMA that passes its checks enters the queue; while %mprog holds STOPPED it skips the steps done (R327). -/
def putMma (s : State) (core c wid seq kind acc a b n p : Nat) (za pz : Bool) : State :=
  let total := mmaTotal kind n (tcSteps (s.tcOf core a)) p
  let (skip, s) := takeStopped s core acc total
  arrPut (takeBypass s core a) core c wid seq acc (.mma kind a b n p za) skip total (a :: groupOf s core b n) [] false pz

/-- Must an MMA wait for its tiles or for the queue? -/
def mmaWaits (s : State) (core c acc a b n : Nat) : Bool :=
  let k := s.core core
  let g := groupOf s core b n
  tileBusy k (a :: g) [] (if g.contains a then none else some a) || arrWaits s core c acc k.tileOps

/-- The issue of an MMA. -/
def issueMma (kind : Nat) (o : Mma) (x : Iss) (s : State) : Act :=
  let core := coreOf x.cur.wave
  let nv := srcS x.w s.sch.free o.n
  let pv : VWord := if kind == 4 then x.w.readS s.sch.free o.preg.toNat else ⟨0, false⟩
  let n := nv.val.toNat
  let p := pv.val.toNat
  match mmaCheck s core x.w.ctx kind o.acc.toNat o.a.toNat o.b.toNat n p with
  | some f => x.fails f
  | none =>
    if mmaWaits s core x.w.ctx o.acc.toNat o.a.toNat o.b.toNat n then .stall 2
    else .later (putMma s core x.w.ctx x.cur.wave x.id kind o.acc.toNat o.a.toNat o.b.toNat n p o.za
      (nv.poison || pv.poison))

/-- MMA.F (R333). -/
def execMmaF (o : Mma) (s : State) : Out := issue (.mmaF o) s (issueMma 1 o)
/-- MMA.X (R333). -/
def execMmaX (o : Mma) (s : State) : Out := issue (.mmaX o) s (issueMma 2 o)
/-- MMA.I8 (R333). -/
def execMmaI8 (o : Mma) (s : State) : Out := issue (.mmaI8 o) s (issueMma 3 o)
/-- MMA.BP (R334). -/
def execMmaBp (o : Mma) (s : State) : Out := issue (.mmaBp o) s (issueMma 4 o)

/-! ### TDRAIN (R336) -/

/-- The columns of a drain without NCV: as many as the row image, the scale vector and the accumulator allow. -/
def drainCols (vd vt : Word32) (scv : Bool) (c0 : Nat) : Nat :=
  let fit := rowBytes vd * 2 / fmtHalf (tcFmt vd)
  let fit := if scv then min fit (rowBytes vt / 4) else fit
  min (fit / 16 * 16) (512 - c0)

/-- The checks of R336 in their order. -/
def drainCheck (s : State) (core c : Nat) (o : Drn) (nc : Nat) : Option FaultInfo :=
  let vd := s.tcOf core o.tile.toNat
  let vt := s.tcOf core o.tv.toNat
  match notOwned s core c ([o.tile.toNat, 16 + o.acc.toNat] ++ (if o.scv then [o.tv.toNat] else [])) with
  | some f => some f
  | none =>
    if tcFmt vd == 0 || tcFmt vd == 8 then some (tileFault 2 o.tile.toNat)
    else if o.scv && tcFmt vt != 9 then some (tileFault 2 o.tv.toNat)
    else if tcRows vd != 32 || nc % 16 != 0 || decide (nc < 16) || decide (512 - 16 * o.c0.toNat < nc) ||
        decide (2 * rowBytes vd < nc * fmtHalf (tcFmt vd)) || (o.scv && decide (rowBytes vt < nc * 4)) then
      some (tileFault 6 nc)
    else none

/-- TDRAIN. -/
def execTdrain (o : Drn) (s : State) : Out :=
  issue (.tdrain o) s (fun x s =>
    let core := coreOf x.cur.wave
    let c0 := 16 * o.c0.toNat
    let nv : VWord := if o.ncv then srcS x.w s.sch.free o.sn
      else ⟨BitVec.ofNat 32 (drainCols (s.tcOf core o.tile.toNat) (s.tcOf core o.tv.toNat) o.scv c0), false⟩
    let nc := nv.val.toNat
    let reads := if o.scv then [o.tv.toNat] else []
    match drainCheck s core x.w.ctx o nc with
    | some f => x.fails f
    | none =>
      if tileBusy (s.core core) reads [o.tile.toNat] none || arrWaits s core x.w.ctx o.acc.toNat (s.core core).tileOps then .stall 2
      else
        let (skip, s) := takeStopped s core o.acc.toNat (nc / 16)
        .later (arrPut s core x.w.ctx x.cur.wave x.id o.acc.toNat
          (.drain o.tile.toNat o.tv.toNat c0 nc o.scv o.sat o.zero) skip (nc / 16) reads [o.tile.toNat] o.byp nv.poison))

end Sys2Proof.Machine
end

