-- ==== Sys2Proof/Machine/Engines.lean ====
section
/-!
DEFINITION. Periscope requests (R69, R70, R313 to R318): VQPUT, the Loupe and Luna operations, one element at a time, and
the end of a request.
-/

namespace Sys2Proof.Machine

/-! ### Fields of a request (R314 to R317) -/

def Request.fld (r : Request) (off n : Nat) : Nat := fieldAt r.bytes off n
def Request.ptr (r : Request) (off : Nat) : Word64 := BitVec.ofNat 64 (r.fld off 8)
def Request.engine (r : Request) : Nat := r.fld 0 1
def Request.eop (r : Request) : Nat := r.fld 1 1
def Request.incr (r : Request) : Nat := r.fld 4 4
def Request.cnt (r : Request) : Word64 := r.ptr 8
def Request.crec (r : Request) : Word64 := r.ptr 16
/-- Elements of the request: rows, samples or queries. -/
def Request.count (r : Request) : Nat := r.fld 48 4
/-- The tile of a GATHER or BILERP with TILE set. -/
def Request.tile (r : Request) : Option Nat :=
  if r.engine == 1 && (r.eop == 1 || r.eop == 2) && r.fld 60 4 % 2 == 1 then some (r.fld 60 4 / 2 % 16) else none

/-- Bytes that a GATHER or BILERP makes. -/
def Request.bytesOut (r : Request) : Nat :=
  if r.eop == 1 then r.count * r.fld 52 4 else r.count * r.fld 56 2 * 4

/-- The least offset of a field that is out of range; 1 for an operation the engine does not have. -/
def badField (s : State) (core : Nat) (r : Request) : Option Nat :=
  let first (l : List (Bool × Nat)) : Option Nat := (l.find? (·.1)).map (·.2)
  let tiled : Bool := r.tile.isSome
  let size : Nat := match r.tile with
    | some t => tcRows (s.tcOf core t) * tcSteps (s.tcOf core t) * 48
    | none => r.bytesOut
  if r.engine == 1 && r.eop == 1 then
    let b := r.fld 52 4
    first [(tiled && r.fld 40 8 != 0, 40), (r.count == 0 || decide (4096 < r.count) || r.bytesOut != size, 48),
      (b == 0 || b % 16 != 0 || decide (4096 < b), 52), (r.fld 56 4 == 0, 56), (decide (32 ≤ r.fld 60 4), 60)]
  else if r.engine == 1 && r.eop == 2 then
    first [(tiled && r.fld 40 8 != 0, 40), (r.count == 0 || decide (4096 < r.count) || r.bytesOut != size, 48),
      (r.fld 52 2 == 0, 52), (r.fld 54 2 == 0, 54), (r.fld 56 2 == 0 || decide (64 < r.fld 56 2), 56),
      (r.fld 58 2 != 0, 58), (decide (32 ≤ r.fld 60 4), 60)]
  else if r.engine == 2 && r.eop == 1 then
    first [(r.count == 0 || decide (65536 < r.count), 48), (r.fld 56 1 == 0 || decide (32 < r.fld 56 1), 56),
      (r.fld 57 7 != 0, 57)]
  else some 1

/-- Is the engine of a request on (R69)? -/
def engineOn (s : State) (core : Nat) (r : Request) : Bool :=
  if r.engine == 1 then (s.core core).loupeOn else (s.core core).lunaOn

/-! ### VQPUT (R313, R314) -/

/-- The step that carries a request out. -/
def engineStep (core : Nat) (r : Request) : Instr :=
  if r.engine == 1 && r.eop == 1 then .gather core r.id
  else if r.engine == 1 && r.eop == 2 then .bilerp core r.id
  else if r.engine == 2 && r.eop == 1 then .search core r.id
  else .engineRequestComplete core r.id

/-- VQPUT: the record is read, its header and CNT are checked, an address from a poisoned record faults (R142, log 55); the request
is then in the core's queue. -/
def putRequest (x : Iss) (s : State) (nw : Bool) (d a : BitVec 8) : Act :=
  let core := coreOf x.cur.wave
  let s₀ := s
  let p := srcX x.w s.sch.free a
  let status (s : State) (v : Word32) : State := s.updWave x.cur.wave (fun w => w.write x.id (wS d.toNat v))
  if p.2 then x.fails (bad Code.POISON_USE 0 p.1)
  else match checkPtr p.1 64 .globalDev with
  | some f => x.fails f
  | none =>
  match loadRecord s (whoOf x.cur.wave x.w) p.1 4 with
    | .wait t r => .waits t r 1
    | .fail f => x.fails f
    | .ok (bs, pz) s =>
      match ownStop x s₀ true false p.1 64 with
      | some b => breakStop x s₀ b
      | none =>
      let (id, s) := s.fresh
      let r : Request := { id := id, ctx := x.w.ctx, wave := x.cur.wave, bytes := bs }
      if r.engine != 1 && r.engine != 2 then x.fails (bad Code.SHAPE 4 p.1 0)
      else if r.fld 2 2 != 0 then x.fails (bad Code.SHAPE 4 p.1 2)
      else if pz then x.fails (bad Code.POISON_USE 0 r.cnt)
      else match clCheck s core x.w.ctx r.cnt 8 pRW with
        | .error f => x.fails f
        | .ok (_, s) =>
          match (match r.tile with | some t => notOwned s core x.w.ctx [t] | none => none) with
          | some f => x.fails f
          | none =>
            if decide (64 ≤ (s.core core).scope.length) then (if nw then .done (status s 1) else .stall 6)
            else if (match r.tile with | some t => tileBusy (s.core core) [] [t] none | none => false) then .stall 2
            else
              let on := engineOn s core r
              let b := badField s core r
              let r : Request := if !on then { r with status := 2, begun := true, ended := true } else match b with
                | some f => { r with status := 3, field := f }
                | none => r
              let k := s.core core
              let s := s.setCore core { k with scope := k.scope ++ [r] }
              let s := match r.tile with
                | some t => if on then s.addTileOp core { id := id, ctx := x.w.ctx, reads := [], writes := [t] } else s
                | none => s
              .done (status (s.later (if on && b.isNone then engineStep core r else .engineRequestComplete core id)) 0)

def execVqput (ctl : Ctl) (nw : Bool) (d a : BitVec 8) (s : State) : Out :=
  issueSealed (.vqput ctl nw d a) s (fun x s => putRequest x s nw d a)

/-! ### A request under way -/

def State.request? (s : State) (core id : Nat) : Option Request := (s.core core).scope.find? (fun r => r.id == id)
def State.setRequest (s : State) (core : Nat) (r : Request) : State :=
  let k := s.core core
  s.setCore core { k with scope := k.scope.map (fun x => if x.id == r.id then r else x) }

/-- May a request start: every earlier one of its queue has? -/
def mayBegin (s : State) (core id : Nat) : Bool :=
  ((s.core core).scope.takeWhile (fun r => r.id != id)).all (·.begun)

/-- The work of a request is over: its tile is no longer pending. -/
def endRequest (s : State) (core : Nat) (r : Request) : State :=
  ((s.setRequest core { r with begun := true, ended := true }).endTileOp core r.id).soon (.engineRequestComplete core r.id)

/-- An access of a request fails: STATUS FAULT. -/
def failRequest (s : State) (core : Nat) (r : Request) (f : Fail) : State :=
  endRequest s core { r with status := 1, code := f.code, subcode := f.sub, addr := f.addr }

/-- Read n bytes of one line for a request; size is what is checked. -/
def engineRead (s : State) (core : Nat) (r : Request) (p : Word64) (size n : Nat) : Res (List Byte × Bool) :=
  match checkAccess s core r.ctx p size pR .globalDev with
  | .error f => failed s f
  | .ok (none, s) => .ok ([], false) s
  | .ok (some x, s) =>
    match combineFirst s x.dev with
    | .wait a b => .wait a b
    | .fail f => .fail f
    | .ok _ s => agentRead s core r.ctx x n

/-- Write bytes of one line for a request, or of its tile, with the tags of their words: a tile keeps each, a line with a poisoned
word is not written (R140, R142). -/
def engineWrite (s : State) (core : Nat) (r : Request) (off size : Nat) (bs : List Byte) (tags : List Bool) : Res Unit :=
  match r.tile with
  | some t => .ok () (tags.zipIdx.foldl (fun s y => s.putImg core t (off + 4 * y.2) ((bs.drop (4 * y.2)).take 4) y.1) s)
  | none =>
    let p := r.ptr 40 + BitVec.ofNat 64 off
    if tags.any id then .fail (bad Code.POISON_USE 0 p)
    else match checkAccess s core r.ctx p size pW .globalDev with
      | .error f => failed s f
      | .ok (none, s) => .ok () s
      | .ok (some x, s) =>
        match combineFirst s x.dev with
        | .wait a b => .wait a b
        | .fail f => .fail f
        | .ok _ t =>
          match alongside s t (fun s => agentWrite s core r.ctx x [(x.dev, bs)]) with
          | .wait a b => .wait a b
          | .fail f => .fail f
          | .ok _ s => .ok () (wrote s x.dev bs.length)

/-- A word or pair of control data: a poisoned one faults. -/
def engineWord (s : State) (core : Nat) (r : Request) (p : Word64) (n : Nat) : Res Nat :=
  match engineRead s core r p n n with
  | .wait a b => .wait a b
  | .fail f => .fail f
  | .ok (bs, pz) s => if pz then .fail (bad Code.POISON_USE 0 p) else .ok (leNat bs) s

/-! ### Loupe GATHER (R315) -/

/-- The next operation of a GATHER: the index of a row, a piece of the row, or a piece of the result. -/
def gatherStep (s : State) (core : Nat) (r : Request) : Res Request :=
  let b := r.fld 52 4
  match r.got with
  | [] =>
    (match engineWord s core r (r.ptr 32 + BitVec.ofNat 64 (4 * r.done)) 4 with
     | .wait a b => .wait a b
     | .fail f => .fail f
     | .ok i s =>
       let out := decide (r.fld 56 4 ≤ i)
       .ok { r with got := [i], row := if out then List.replicate b 0 else [], sub := 0,
                    tags := if out then List.replicate (b / 4) false else [] } s)
  | i :: _ =>
    if r.row.length < b then
      let p := r.ptr 24 + BitVec.ofNat 64 (i * b + r.row.length)
      let n := min (b - r.row.length) (128 - p.toNat % 128)
      match engineRead s core r p 16 n with
      | .wait a b => .wait a b
      | .fail f => .fail f
      | .ok (bs, pz) s => .ok { r with row := r.row ++ bs, tags := r.tags ++ List.replicate (n / 4) pz } s
    else
      let off := r.done * b + r.sub
      let n := min (b - r.sub) (128 - (r.ptr 40 + BitVec.ofNat 64 off).toNat % 128)
      match engineWrite s core r off 16 ((r.row.drop r.sub).take n) ((r.tags.drop (r.sub / 4)).take (n / 4)) with
      | .wait a b => .wait a b
      | .fail f => .fail f
      | .ok _ s =>
        if b ≤ r.sub + n then .ok { r with done := r.done + 1, got := [], row := [], tags := [], sub := 0 } s
        else .ok { r with sub := r.sub + n } s

/-! ### Loupe BILERP (R316) -/

/-- Coordinate u on an axis of n points: the lower and the upper point and the exact fraction. -/
def gridAt (u : FVal) (n : Nat) : Nat × Nat × FVal :=
  let top : FVal := .fin false (n - 1) 0
  let lo : FVal := if fLess u (.fin false 0 0) then .fin false 0 0 else u
  let v : FVal := if fLess top lo then top else lo
  let fl : Nat := match v with
    | .fin false m e => if 0 ≤ e then m * 2 ^ e.toNat else m / 2 ^ (-e).toNat
    | _ => 0
  let x0 := min fl (n - 2)
  (x0, min (x0 + 1) (n - 1), (fAdd .rn v (.fin true x0 0)).1)

def add32 (a b : FVal) : FVal := fDecode .f32 (fAddR .f32 .rn a b).code
def fma32 (a b c : FVal) : FVal := fDecode .f32 (fFmaR .f32 .rn a b c).code

/-- p + f · (q − p), each step rounded. -/
def lerp (f p q : FVal) : FVal := fma32 f (add32 q (fNeg p)) p

/-- One channel from its four points. -/
def bilerpOf (fx fy a b d e : FVal) : Nat :=
  let top := lerp fx a b
  let bot := lerp fx d e
  (fFmaR .f32 .rn fy (add32 bot (fNeg top)) top).code

/-- The address of channel c of the grid point (x, y). -/
def gridPoint (r : Request) (x y c : Nat) : Word64 :=
  r.ptr 24 + BitVec.ofNat 64 (4 * ((y * r.fld 52 2 + x) * r.fld 56 2 + c))

/-- The next operation of a BILERP: a pair of coordinates, which address the grid, a point of a channel, or a result. -/
def bilerpStep (s : State) (core : Nat) (r : Request) : Res Request :=
  let nc := r.fld 56 2
  match r.got with
  | [] =>
    (match engineWord s core r (r.ptr 32 + BitVec.ofNat 64 (8 * r.done)) 8 with
     | .wait a b => .wait a b
     | .fail f => .fail f
     | .ok uv s => .ok { r with got := [uv], poison := false, sub := 0 } s)
  | uv :: ps =>
    let u := fDecode .f32 (uv % 0x100000000)
    let v := fDecode .f32 (uv / 0x100000000)
    let put (s : State) (code : Nat) : Res Request :=
      match engineWrite s core r (4 * (r.done * nc + r.sub)) 4 (leBytes code 4) [r.poison] with
      | .wait a b => .wait a b
      | .fail f => .fail f
      | .ok _ s =>
        if nc ≤ r.sub + 1 then .ok { r with done := r.done + 1, got := [], sub := 0 } s
        else .ok { r with got := [uv], sub := r.sub + 1, poison := false } s
    if isNan u || isNan v then put s (fNaN .f32)
    else
      let (x0, x1, fx) := gridAt u (r.fld 52 2)
      let (y0, y1, fy) := gridAt v (r.fld 54 2)
      let read (x y : Nat) : Res Request :=
        match engineRead s core r (gridPoint r x y r.sub) 4 4 with
        | .wait a b => .wait a b
        | .fail f => .fail f
        | .ok (bs, pz) s => .ok { r with got := uv :: (ps ++ [leNat bs]), poison := r.poison || pz } s
      match ps with
      | [] => read x0 y0
      | [_] => read x1 y0
      | [_, _] => read x0 y1
      | [_, _, _] => read x1 y1
      | a :: b :: d :: e :: _ =>
        put s (bilerpOf fx fy (fDecode .f32 a) (fDecode .f32 b) (fDecode .f32 d) (fDecode .f32 e))

/-! ### Luna SEARCH (R317) -/

/-- What a node says for a query: go to a node, or the result. -/
def nodeNext (bs : List Byte) (q : Nat) : Nat ⊕ Nat :=
  let ctl := fieldAt bs 60 4
  let nk := ctl % 16
  if nk == 0 || ctl / 16 % 0x8000000 != 0 then .inr 0xFFFFFFFF
  else
    let j := ((List.range nk).filter (fun k => decide (fieldAt bs (4 * k) 4 ≤ q))).length
    let link := fieldAt bs (64 + 4 * j) 4
    if ctl / 0x80000000 == 1 then .inr link else .inl link

/-- The next operation of a SEARCH: a query, a node, or a result. -/
def searchStep (s : State) (core : Nat) (r : Request) : Res Request :=
  match r.got with
  | [] =>
    (match engineWord s core r (r.ptr 32 + BitVec.ofNat 64 (4 * r.done)) 4 with
     | .wait a b => .wait a b
     | .fail f => .fail f
     | .ok q s => .ok { r with got := [q, r.fld 52 4], sub := 0, poison := false } s)
  | [q, node] =>
    if r.fld 56 1 ≤ r.sub then .ok { r with got := [q, node, 0xFFFFFFFF] } s
    else
      let p := r.ptr 24 + BitVec.ofNat 64 (128 * node)
      (match engineRead s core r p 128 128 with
       | .wait a b => .wait a b
       | .fail f => .fail f
       | .ok (bs, pz) s =>
         if pz then .fail (bad Code.POISON_USE 0 p)
         else match nodeNext bs q with
           | .inl k => .ok { r with got := [q, k], sub := r.sub + 1 } s
           | .inr v => .ok { r with got := [q, node, v] } s)
  | [_, _, v] =>
    (match engineWrite s core r (4 * r.done) 4 (leBytes v 4) [r.poison] with
     | .wait a b => .wait a b
     | .fail f => .fail f
     | .ok _ s => .ok { r with done := r.done + 1, got := [], sub := 0 } s)
  | _ => .ok { r with got := [] } s

/-! ### Running and ending a request -/

/-- One operation of a request: it starts after every earlier one of its queue, stands still while its context does not
run, and ends after its last element or at a failing access. `self` is the step itself. -/
def engineRun (s : State) (core id : Nat) (self : Instr) (op : State → Nat → Request → Res Request) : State :=
  match s.request? core id with
  | none => s
  | some r =>
    if r.ended then s
    else if !ctxRuns s r.ctx then s.ensureTicks 1 self
    else if !r.begun && !mayBegin s core id then s.after 1 self
    else if !r.begun && !engineOn s core r then endRequest s core { r with status := 2 }
    else
      let r := { r with begun := true }
      withRoom (s.setRequest core r) r.ctx self (fun s =>
        if r.count ≤ r.done then endRequest s core r
        else match op s core r with
          | .wait t r => s.waitTick t r self
          | .fail f => failRequest s core r f
          | .ok r s => (s.setRequest core r).after 1 self)

def execGather (core id : Nat) (s : State) : Out :=
  .next (settleHits (engineRun s core id (.gather core id) gatherStep))
def execBilerp (core id : Nat) (s : State) : Out :=
  .next (settleHits (engineRun s core id (.bilerp core id) bilerpStep))
def execSearch (core id : Nat) (s : State) : Out :=
  .next (settleHits (engineRun s core id (.search core id) searchStep))

/-- The completion record (R314). -/
def complRec (r : Request) : List Byte :=
  [BitVec.ofNat 8 r.status, BitVec.ofNat 8 r.code, BitVec.ofNat 8 r.subcode, BitVec.ofNat 8 r.field] ++
    leBytes r.done 4 ++ leBytes r.addr.toNat 8

/-- Write the completion record as one clockless write, where the core's own access would be served (R70); a write that would fault
is dropped. -/
def writeCrec (s : State) (core : Nat) (r : Request) : Res Unit :=
  if r.crec == 0 then .ok () s
  else match checkPtr r.crec 16 .globalDev with
    | some _ => .ok () s
    | none =>
      match translate s core r.ctx r.crec pW with
      | .error f => if f.later then .wait (s.clk.tick + 1) 0 else .ok () s
      | .ok (x, s) =>
        match combineFirst s x.dev with
        | .wait a b => .wait a b
        | .fail _ => .ok () s
        | .ok _ t =>
          match alongside s t (fun s => agentWrite s core r.ctx x [(x.dev, complRec r)]) with
          | .wait a b => .wait a b
          | .fail _ => .ok () t
          | .ok _ s => .ok () (wrote s x.dev 16)

/-- CNT advances by INCR, as an engine's atomic where the core's own would be served (R70, R119). -/
def advanceCnt (s : State) (core : Nat) (r : Request) : Res Unit :=
  match checkAccess s core r.ctx r.cnt 8 pRW .globalDev with
  | .error f => failed s f
  | .ok (none, s) => .ok () s
  | .ok (some x, s) =>
    match combineFirst s x.dev with
    | .wait a b => .wait a b
    | .fail f => .fail f
    | .ok _ t =>
      let sum (s : State) (p : Place) : List (Nat × List Byte) :=
        [(x.dev, leBytes ((leNat (placeBytes s p x.dev 8) + r.incr) % 0x10000000000000000) 8)]
      match alongside s t (fun s => agentUpdate s core r.ctx x sum) with
      | .wait a b => .wait a b
      | .fail f => .fail f
      | .ok _ s => .ok () (wrote s x.dev 8)

/-- ENGINE_REQUEST_COMPLETE (R314): the completion record, then CNT advances by INCR; a fault of CNT is reported once and
retried every 4,096 ticks (R180). A request with a bad field starts and ends here. -/
def completeRequest (s : State) (core id : Nat) : State :=
  let self : Instr := .engineRequestComplete core id
  match s.request? core id with
  | none => s
  | some r =>
    if !r.ended then
      if r.status != 3 then s
      else if !ctxRuns s r.ctx then s.ensureTicks 1 self
      else if !mayBegin s core id then s.after 1 self
      else endRequest s core (if engineOn s core r then r else { r with status := 2, field := 0 })
    else
      withRoom s r.ctx self (fun s =>
      match (if r.noted then Res.ok () s else writeCrec s core r) with
      | .wait t r => s.waitTick t r self
      | .fail _ => s
      | .ok _ s =>
        let r := { r with noted := true }
        let s := s.setRequest core r
        match advanceCnt s core r with
        | .wait t r => s.waitTick t r self
        | .fail f =>
          let s := if r.told then s else raiseNoPath (s.setRequest core { r with told := true }) r.ctx f
          s.ensureTicks 4096 self
        | .ok _ s =>
          let k := s.core core
          s.setCore core { k with scope := k.scope.filter (fun x => x.id != id) })

def execEngineRequestComplete (core id : Nat) (s : State) : Out := .next (settleHits (completeRequest s core id))

/-! ### ARRAY_OPERATION_COMPLETE (R327) -/

/-- The head of the array queue has done its last step: its result and its flag stand. -/
def execArrayOperationComplete (core : Nat) (s : State) : Out := .next (arrComplete s core)

end Sys2Proof.Machine
end

