-- ==== Sys2Proof/Machine/Contexts.lean ====
section
/-!
DEFINITION. Contexts (R30 to R41, R43, R201 to R204, R278 to R283): the tree, grants and their flattening, carve-outs,
running, stopping and killing a subtree, buckets, TLBINV, and the steps that complete these operations.
-/

namespace Sys2Proof.Machine

/-! ### The tree -/

/-- The contexts of a subtree, each after its parent. -/
def subtreeOf (s : State) (c : Nat) : List Nat :=
  (List.range 9).flatMap (fun d => (s.ctxs.filter (fun x => x.2.depth == d && inSubtree s c x.1)).map (·.1))

/-- Is d an existing proper descendant of c? -/
def descends (s : State) (c d : Nat) : Bool := c != d && (s.ctx? d).isSome && inSubtree s c d

def childrenOf (s : State) (c : Nat) : List Nat := (s.ctxs.filter (fun x => x.2.parent == some c)).map (·.1)

/-! ### Operands of a context instruction (R278) -/

def ctxFault (sub extra : Nat) : FaultInfo := { code := Code.CTX, sub := sub, extra := BitVec.ofNat 64 extra }

/-- A scalar operand with its poison, which a status computed from it carries (R140, R142). -/
def scalarArg (x : Iss) (s : State) (r : BitVec 8) : Nat × Bool :=
  let v := srcS x.w s.sch.free r
  (v.val.toNat, v.poison)

/-- A pointer operand. -/
def pointerArg (x : Iss) (s : State) (r : BitVec 8) : Except FaultInfo Word64 :=
  let p := srcX x.w s.sch.free r
  if p.2 then .error (bad Code.POISON_USE 0 p.1) else .ok p.1

/-- The target sK: a descendant, or for CTXGRANT a child. -/
def targetArg (x : Iss) (s : State) (r : BitVec 8) (child : Bool) : Except FaultInfo (Nat × Bool) :=
  let k := scalarArg x s r
  if child then (if (childrenOf s x.w.ctx).contains k.1 then .ok k else .error (ctxFault 2 k.1))
  else if descends s x.w.ctx k.1 then .ok k else .error (ctxFault 1 k.1)

/-- A counter operand, checked under R38. -/
def counterArg (x : Iss) (s : State) (r : BitVec 8) : Except FaultInfo (Word64 × State) :=
  match pointerArg x s r with
  | .error f => .error f
  | .ok p =>
    match clCheck s (coreOf x.cur.wave) x.w.ctx p 8 pRW with
    | .error f => .error f
    | .ok (_, s) => .ok (p, s)

/-- A record of n times 16 bytes that an operand names, and whether it is poisoned. -/
def recordArg (x : Iss) (s : State) (r : BitVec 8) (align n : Nat) (f : List Byte → Bool → State → Act) : Act :=
  match pointerArg x s r with
  | .error e => x.fails e
  | .ok p =>
    match checkPtr p align .globalDev with
    | some e => x.fails e
    | none =>
    match loadRecord s (whoOf x.cur.wave x.w) p n with
      | .wait t r => .waits t r 1
      | .fail e => x.fails e
      | .ok b t => match ownStop x s true false p (16 * n) with
        | some k => breakStop x s k
        | none => f b.1 b.2 t

/-- The status register of the issuing wave; `pz` when what the status is computed from is poisoned. -/
def setStatus (x : Iss) (s : State) (d : BitVec 8) (v : Nat) (pz : Bool) : State :=
  s.updWave x.cur.wave (fun w => w.write x.id (.s d.toNat ⟨BitVec.ofNat 32 v, pz⟩))

/-- A partition as a snapshot has it, in the machine as it is. -/
def inSnapshot (s : State) (root : Nat) (p : Snapshot) : State :=
  let mine (c : Nat) : Bool := inSubtree s root c
  let cores := partCores s root
  { s with
    waves := p.waves.foldl (fun m w => Sp.insert m w.1 w.2) (s.waves.filter (fun w => !mine w.2.ctx))
    ctxs := p.ctxs.foldl (fun m c => Sp.insert m c.1 c.2) (s.ctxs.filter (fun c => !mine c.1))
    cores := p.cores.foldl (fun m k => Sp.insert m k.1 k.2) (s.cores.filter (fun k => !cores.contains k.1))
    copies := s.copies.filter (fun c => !mine c.ctx) ++ p.copies
    colls := s.colls.filter (fun c => !cores.contains (c.team / 64)) ++ p.colls }

/-- The effect of a context instruction, on the machine and on the snapshot of its seal, where the issuing wave stands past the
instruction (R278). -/
def sealedEffect (x : Iss) (i : Instr) (s : State) (eff : State → State) : Act :=
  let r := rootOf s x.w.ctx
  let t := eff s
  match s.part? r, t.part? r with
  | some p, some q =>
    let u := capture (finish x i false false (eff (inSnapshot s r p.snap))) r
    .done (t.setPart r { q with snap := { u with mx := p.snap.mx, lps := p.snap.lps } })
  | _, _ => .done t

/-- A status of a context instruction, which its effect is part of: a later slice end does not undo it either (R278). -/
def answer (x : Iss) (i : Instr) (s : State) (d : BitVec 8) (n : Nat) (pz : Bool) : Act :=
  sealedEffect x i s (fun s => setStatus x s d n pz)

/-! ### Configuration records (R202) -/

def confOf (bs : List Byte) : Conf where
  units   := BitVec.ofNat 256 (fieldAt bs 0 32)
  margin  := BitVec.ofNat 256 (fieldAt bs 32 32)
  troot   := BitVec.ofNat 64 (fieldAt bs 64 8)
  tvec    := BitVec.ofNat 64 (fieldAt bs 72 8)
  hmask   := BitVec.ofNat 32 (fieldAt bs 80 4)
  localfr := fieldAt bs 84 1
  nearq   := fieldAt bs 85 1
  dieq    := fieldAt bs 86 2
  lstatic := fieldAt bs 88 4
  ckpta   := fieldAt bs 92 1
  privf   := fieldAt bs 93 1 % 2 == 1
  ring    := BitVec.ofNat 64 (fieldAt bs 96 8)
  ringn   := fieldAt bs 104 4
  trampn  := fieldAt bs 108 4
  trampt  := BitVec.ofNat 64 (fieldAt bs 112 8)
  entry   := BitVec.ofNat 64 (fieldAt bs 120 8)
  toff    := BitVec.ofNat 64 (fieldAt bs 128 8)

/-- The record with its current values. -/
def confBytes (c : Conf) : List Byte :=
  leBytes c.units.toNat 32 ++ leBytes c.margin.toNat 32 ++ leBytes c.troot.toNat 8 ++ leBytes c.tvec.toNat 8 ++
    leBytes c.hmask.toNat 4 ++ leBytes c.localfr 1 ++ leBytes c.nearq 1 ++ leBytes c.dieq 2 ++ leBytes c.lstatic 4 ++
    leBytes c.ckpta 1 ++ leBytes (if c.privf then 1 else 0) 1 ++ leBytes 0 2 ++ leBytes c.ring.toNat 8 ++
    leBytes c.ringn 4 ++ leBytes c.trampn 4 ++ leBytes c.trampt.toNat 8 ++ leBytes c.entry.toNat 8 ++
    leBytes c.toff.toNat 8 ++ leBytes 0 24

/-- Codes that a handler may take (R191). -/
def ownCode (n : Nat) : Bool := decide (1 ≤ n) && decide (n ≤ 0x1A) && routeOf n == .own
def hmaskOk (h : Word32) : Bool := (List.range 32).all (fun b => !h.getLsbD b || ownCode b)

/-- Status 5: reserved fields, ranges, the agreement of LOCALFR, LSTATIC and ENTRYREC. -/
def confRange (bs : List Byte) (c : Conf) (root : Bool) : Bool :=
  (root || c.margin == 0) && decide (fieldAt bs 93 1 < 2) && fieldAt bs 94 2 == 0 && fieldAt bs 136 24 == 0 &&
    hmaskOk c.hmask && decide (c.localfr ≤ 64) && decide (c.dieq ≤ 8192) && c.lstatic % 128 == 0 &&
    (if c.localfr == 0 then c.lstatic == 0 else decide (c.lstatic < c.localfr * 65536)) &&
    decide (1 ≤ c.ckpta) && decide (c.ckpta ≤ 5) && decide (c.trampn ≤ 16777216) && (c.localfr == 0) == (c.entry == 0)

/-- Status 6: alignments, and N of the ring. -/
def confAligned (c : Conf) : Bool :=
  c.troot.toNat % 8192 == 0 && c.tvec.toNat % 8 == 0 && c.ring.toNat % 64 == 0 && c.trampt.toNat % 16 == 0 &&
    c.entry.toNat % 64 == 0 && (List.range 13).any (fun i => c.ringn == 2 ^ (i + 4))

/-- The contexts that hold something of a core: those whose unit set has it and that are not pre-empted. -/
def residents (s : State) (core : Nat) : List Ctx :=
  (s.ctxs.filter (fun x => (x.2.conf.units.getLsbD core && x.2.state != .preempted) ||
    (s.core core).carve.any (fun y => y.1 == x.1))).map (·.2)

/-- The limits of R43 on one core. -/
def carveFits (s : State) (core localfr nearq : Nat) : Bool :=
  let rs := residents s core
  decide ((rs.map (fun x => x.conf.localfr)).foldl (· + ·) localfr ≤ 64) &&
    decide ((rs.map (fun x => x.conf.localfr + x.conf.nearq)).foldl (· + ·) (localfr + nearq) ≤ 256)

def coresIn (u : BitVec 256) : List Nat := (List.range 256).filter (fun k => u.getLsbD k)

/-- Statuses 5, 6, 1, 7, 3, 4 and 2 of CTXNEW, in that order; 0 for none. -/
def newStatus (s : State) (parent : Nat) (p : Ctx) (bs : List Byte) (c : Conf) : Nat :=
  if !confRange bs c false then 5
  else if !confAligned c then 6
  else if c.units == 0 || c.units &&& ~~~p.conf.units != 0 then 1
  else if decide (p.conf.nearq < c.nearq) || decide (p.conf.dieq < c.dieq) || (c.privf && !p.conf.privf) then 7
  else if decide (8 ≤ (lineage 8 s parent).length) then 3
  else if decide (4095 ≤ s.ctxs.length) then 4
  else if !(coresIn c.units).all (fun k => carveFits s k c.localfr c.nearq) then 2
  else 0

/-! ### Carve-outs (R43) -/

/-- Atlas frees frames of a bank from 255 downwards until enough are FREE; `false` while a part that is held or moves makes it
wait (R53, R60). -/
def freeDown (s : State) (core need : Nat) : Nat → State × Bool
  | 0 => (s, true)
  | k + 1 =>
    if need ≤ freeFrames s core then (s, true)
    else
      let fk := frameKey core k
      let f := s.frame fk
      match f.kind with
      | .replica => if heldPart s (core / 32) f.part then (s, false) else freeDown (dropReplica s fk) core need k
      | .primary => if atRest s (core / 32) f.part then freeDown (evict s (core / 32) f.part) core need k else (s, false)
      | .forward => (s, false)
      | _ => freeDown s core need k

/-- Room for carve-outs of n frames on some cores: `false` while a configuration waits for it (R43). -/
def carveRoom (s : State) (n : Nat) : List Nat → State × Bool
  | [] => (s, true)
  | k :: ks =>
    match (if n == 0 then (s, true) else freeDown s k n 256) with
    | (s, true) => carveRoom s n ks
    | (s, false) => (s, false)

/-- A carve-out of n frames for a context: FREE frames, the highest first. -/
def carveOut (s : State) (core c n : Nat) : State :=
  if n == 0 then s
  else
    let s := (freeDown s core n 256).1
    let fs := (((List.range 256).reverse).filter (fun k => (s.frame (frameKey core k)).kind == .free)).take n
    let s := fs.foldl (fun s k =>
      let fk := frameKey core k
      s.setFrame fk { kind := .locl, gen := (s.frame fk).gen, ctx := c, touch := (s.frame fk).touch }) s
    let k := s.core core
    s.setCore core { k with carve := k.carve ++ [(c, fs)] }

/-- A carve-out goes: its frames are scrubbed and FREE. -/
def dropCarve (s : State) (core c : Nat) : State :=
  match (s.core core).carve.find? (fun x => x.1 == c) with
  | none => s
  | some x =>
    let s := x.2.foldl (fun s k => freeFrame s (frameKey core k)) s
    let k := s.core core
    s.setCore core { k with carve := k.carve.filter (fun y => y.1 != c) }

/-! ### CTXNEW -/

/-- The lowest free context id. -/
def freeId (s : State) : Nat := ((List.range 4096).find? (fun i => i != 0 && (s.ctx? i).isNone)).getD 0

/-- A new context of a parent: STOPPED, with its carve-outs; the header of its ring is due (R195). -/
def makeCtx (s : State) (id : Nat) (parent : Option Nat) (c : Conf) (entry : Option LaunchRec) : State :=
  let depth := match parent with
    | some p => (lineage 8 s p).length + 1
    | none => 1
  let x : Ctx := { conf := c, parent := parent, depth := depth, entry := entry }
  ((coresIn c.units).foldl (fun s k => carveOut s k id c.localfr) (s.setCtx id x)).ensureSoon (.ringRecordWrite id)

/-- CTXNEW writes its status and the child's id, 0 for none. -/
def newIds (x : Iss) (s : State) (d : BitVec 8) (st id : Nat) (pz : Bool) : State :=
  s.updWave x.cur.wave (fun w => w.writes x.id [.s d.toNat ⟨BitVec.ofNat 32 st, pz⟩, .s (d.toNat + 1) ⟨BitVec.ofNat 32 id, pz⟩])

/-- CTXNEW (R202): the drops and evictions that its carve-outs need are waited for (R43); a poisoned record holds poisoned
addresses (R142, log 55). -/
def execCtxnew (ctl : Ctl) (d r : BitVec 8) (s : State) : Out :=
  let i : Instr := .ctxnew ctl d r
  issueSealed i s (fun x s => recordArg x s r 32 10 (fun bs pz s =>
    match s.ctx? x.w.ctx with
    | none => .done s
    | some p =>
      let c := confOf bs
      let refuse (s : State) (n : Nat) : Act := sealedEffect x i s (fun s => newIds x s d n 0 pz)
      match newStatus s x.w.ctx p bs c with
      | 0 =>
        let id := freeId s
        let go (s : State) (e : Option LaunchRec) : Act :=
          match carveRoom s c.localfr (coresIn c.units) with
          | (s, false) => .stallAt s 12
          | (s, true) => sealedEffect x i s (fun s => newIds x (makeCtx s id (some x.w.ctx) c e) d 0 id pz)
        if pz then x.fails (bad Code.POISON_USE 0 (if c.localfr == 0 then c.ring else c.entry))
        else if c.localfr == 0 then go s none
        else match loadRecord s (whoOf x.cur.wave x.w) c.entry 4 with
          | .wait t r => .waits t r 1
          | .fail _ => refuse s 8
          | .ok (es, bad) s =>
            let e := launchRecOf es
            if bad || (checkLaunch c.units e c.entry).isSome then refuse s 8 else go s (some e)
      | n => refuse s n))

/-! ### Grants (R30, R33, R34, R280) -/

/-- The parts of a parent's ranges that back [pg, pg + len), as ranges from cg on with permissions p. -/
def piecesOf (parent : List Range) (cg pg len : Nat) (p : BitVec 3) : List Range :=
  parent.filterMap (fun r =>
    let lo := max pg r.gbase
    let hi := min (pg + len) (r.gbase + r.len)
    if lo < hi then some ⟨cg + (lo - pg), hi - lo, r.dbase + (lo - r.gbase), p⟩ else none)

def insertRange (r : Range) : List Range → List Range
  | [] => [r]
  | q :: qs => if r.gbase < q.gbase then r :: q :: qs else q :: insertRange r qs

/-- A flattened set, by rising granted address. -/
def flatten (parent : List Range) (ds : List Decl) : List Range :=
  (ds.flatMap (fun d => piecesOf parent d.cg d.pg d.len d.perm)).foldl (fun l r => insertRange r l) []

/-- The flattened sets of a subtree whose root has new declared ranges. -/
def reflatten (s : State) (c : Nat) (ds : List Decl) : List (Nat × List Range) :=
  (subtreeOf s c).foldl (fun acc d =>
    match s.ctx? d with
    | none => acc
    | some x =>
      let up : List Range := match x.parent with
        | some p => ((acc.find? (fun y => y.1 == p)).map (·.2)).getD (flatOf s p)
        | none => []
      acc ++ [(d, flatten up (if d == c then ds else x.declared))]) []

/-- Does a recomputation change a set whose context has its walk hold set (R36)? -/
def heldWalk (s : State) (fs : List (Nat × List Range)) : Bool :=
  fs.any (fun y => match s.ctx? y.1 with
    | some x => x.hold && x.flat != y.2
    | none => false)

/-- New declared ranges and flattened sets; each version rises whose set changes, and that of `always`. -/
def setFlats (s : State) (c : Nat) (ds : List Decl) (always : Option Nat) (fs : List (Nat × List Range)) : State :=
  let s := s.updCtx c (fun x => { x with declared := ds })
  fs.foldl (fun s y => s.updCtx y.1 (fun x =>
    if x.flat != y.2 || always == some y.1 then { x with flat := y.2, gver := x.gver + 1 } else x)) s

abbrev page2M : Nat := 0x200000
abbrev top64 : Nat := 0x10000000000000000

/-- The status of a grant (R33), before anything is changed. -/
def grantStatus (s : State) (parent child : Nat) (d : Decl) : Nat :=
  let ps := piecesOf (flatOf s parent) d.cg d.pg d.len d.perm
  let used := (flatOf s parent).filter (fun r => decide (max d.pg r.gbase < min (d.pg + d.len) (r.gbase + r.len)))
  if d.cg % page2M != 0 || d.pg % page2M != 0 || d.len % page2M != 0 || d.len == 0 || decide (top64 < d.cg + d.len) ||
      decide (top64 < d.pg + d.len) then 5
  else if (ps.map (fun r => r.len)).foldl (· + ·) 0 != d.len then 1
  else if used.any (fun r => r.perm &&& d.perm != d.perm) then 2
  else match s.ctx? child with
    | none => 0
    | some x =>
      if x.declared.any (fun e => decide (e.cg < d.cg + d.len) && decide (d.cg < e.cg + e.len)) then 3
      else if (reflatten s child (x.declared ++ [d])).any (fun y => decide (64 < y.2.length)) then 4
      else 0

/-- CTXGRANT (R33), with the request of R280: R30's listing of the same request has LEN and the backing base the other way round
(log 56). -/
def execCtxgrant (ctl : Ctl) (d k r : BitVec 8) (s : State) : Out :=
  let i : Instr := .ctxgrant ctl d k r
  issueSealed i s (fun x s =>
    match targetArg x s k true with
    | .error f => x.fails f
    | .ok (c, pk) => recordArg x s r 32 2 (fun bs pr s =>
      let pz := pk || pr
      if decide (8 ≤ fieldAt bs 24 4) then x.fails (ctxFault 3 24)
      else if fieldAt bs 28 4 != 0 then x.fails (ctxFault 3 28)
      else
        let g : Decl := ⟨fieldAt bs 0 8, fieldAt bs 8 8, fieldAt bs 16 8, BitVec.ofNat 3 (fieldAt bs 24 4)⟩
        let ds : List Decl := (match s.ctx? c with | some y => y.declared | none => []) ++ [g]
        match grantStatus s x.w.ctx c g with
        | 0 =>
          let fs := reflatten s c ds
          if heldWalk s fs then .stall 3
          else sealedEffect x i s (fun s => setStatus x (setFlats s c ds (some c) fs) d 0 pz)
        | n => answer x i s d n pz))

/-- What is left of a declared range without [lo, lo + len). -/
def cutDecl (lo len : Nat) (d : Decl) : List Decl :=
  let hi := lo + len
  if d.cg + d.len ≤ lo || hi ≤ d.cg then [d]
  else
    (if d.cg < lo then [⟨d.cg, d.pg, lo - d.cg, d.perm⟩] else []) ++
      (if hi < d.cg + d.len then [⟨hi, d.pg + (hi - d.cg), d.cg + d.len - hi, d.perm⟩] else [])

def execCtxrevoke (ctl : Ctl) (d k r : BitVec 8) (s : State) : Out :=
  let i : Instr := .ctxrevoke ctl d k r
  issueSealed i s (fun x s =>
    match targetArg x s k false with
    | .error f => x.fails f
    | .ok (c, pk) => recordArg x s r 32 2 (fun bs pr s =>
      let pz := pk || pr
      let lo := fieldAt bs 0 8
      let len := fieldAt bs 8 8
      let p : Word64 := BitVec.ofNat 64 (fieldAt bs 16 8)
      if fieldAt bs 24 4 != 0 then x.fails (ctxFault 3 24)
      else if fieldAt bs 28 4 != 0 then x.fails (ctxFault 3 28)
      else if pr then x.fails (bad Code.POISON_USE 0 p)
      else match clCheck s (coreOf x.cur.wave) x.w.ctx p 8 pRW with
        | .error f => x.fails f
        | .ok (_, s) =>
          let ds := (match s.ctx? c with | some y => y.declared | none => []).flatMap (cutDecl lo len)
          let fs := reflatten s c ds
          if lo % page2M != 0 || len % page2M != 0 || len == 0 then answer x i s d 5 pz
          else if decide (64 < ds.length) || fs.any (fun y => decide (64 < y.2.length)) then answer x i s d 4 pz
          else if heldWalk s fs then .stall 3
          else sealedEffect x i s (fun s =>
            setStatus x ((setFlats s c ds none fs).later (.ctxrevokeComplete x.w.ctx c p)) d 0 pz)))

/-! ### TLB entries go (R40, R280) -/

/-- Every TLB of the device drops the entries that a test selects. -/
def dropTlb (s : State) (ok : TlbEntry → Bool) : State :=
  { s with cores := s.cores.map (fun k => (k.1, { k.2 with tlb := k.2.tlb.filter (fun e => !ok e) })) }

/-- Walks under way that a test selects will restart: their version no longer matches (R36). -/
def restartWalks (s : State) (ok : Nat → Nat → Bool) : State :=
  let f (i : Instr) : Instr := match i with
    | .pageWalk core c va ver n => if ok c va then .pageWalk core c va (ver + top64) n else i
    | i => i
  { s with sch := { s.sch with agenda := s.sch.agenda.map f, timers := s.sch.timers.map (fun t => { t with ev := f t.ev }),
                               waits := s.sch.waits.map (fun w => (w.1, f w.2)) } }

/-- The last step of an operation with a counter: it advances by 1 as the issuer's clockless atomic. -/
def payCounter (s : State) (issuer : Nat) (p : Word64) (self : Instr) : State :=
  match s.ctx? issuer with
  | none => s
  | some _ =>
    withRoom s issuer self (fun s =>
      match bump s (launchCore s issuer) issuer p 1 with
      | .wait t r => s.waitTick t r self
      | .fail _ => s.afterTicks 4096 self
      | .ok _ s => s)

/-- Has an access begun, and does it wait between threads, with a translation that a test selects (R194, log 18)? -/
def begunWith (s : State) (ok : Nat → Xl → Bool) : Bool :=
  s.waves.any (fun w => w.2.accs.any (fun a => a.lanes.any (fun l => l.xl.any (ok w.2.ctx))))

/-- CTXREVOKE_COMPLETE: entries of the subtree are dropped, its walks restart, its windows that hold a removed line roll
back; then, with no access under way that began with an old translation, the counter advances. -/
def revokeDone (s : State) (issuer target : Nat) (p : Word64) : State :=
  let mine (c : Nat) : Bool := inSubtree s target c
  let s := restartWalks (dropTlb s (fun e => mine e.ctx)) (fun c _ => mine c)
  let gone (c : Nat) (l : Nat) : Bool :=
    !((flatOf s c).any (fun r => decide (r.dbase ≤ l * 128) && decide (l * 128 < r.dbase + r.len)))
  let hit (w : Wave) : Bool := match w.win with
    | some n => n.reads.any (fun r => r.place.isSome && gone w.ctx r.line)
    | none => false
  let s := ((s.waves.filter (fun w => mine w.2.ctx && hit w.2)).map (·.1)).foldl (fun s w => rollback s w true) s
  if begunWith s (fun c _ => mine c) then s.afterTicks 1 (.ctxrevokeComplete issuer target p)
  else payCounter s issuer p (.ctxrevokeComplete issuer target p)

def execCtxrevokeComplete (issuer target : Nat) (cnt : BitVec 64) (s : State) : Out :=
  .next (settleHits (revokeDone s issuer target cnt))

/-- Has the open window of a wave performed a load early at a page that a test selects? -/
def earlyIn (w : Wave) (ok : Nat → Bool) : Bool :=
  let at_ (p : Word64) : Bool := spaceOf p == 0 && ok (p.toNat / page2M)
  match w.win with
  | none => false
  | some n => w.accs.any (fun a => (a.early || a.next != 0) && a.lanes.any (fun l => at_ l.ptr)) ||
      w.paths.any (fun (q : Path) => q.poll.any (fun y => decide (n.first ≤ y.id) && at_ y.addr))

/-- TLBINV_COMPLETE (R40, R41): entries within the scope are dropped, walks within it restart, windows that have loaded early within
it roll back uncounted, so that their loads use a translation walked since (log 53); then, with no access under way that began with
an old one, the counter advances. -/
def tlbinvDone (s : State) (issuer target first n : Nat) (all : Bool) (p : Word64) : State :=
  let within (c page : Nat) : Bool := c == target && (all || (decide (first ≤ page) && decide (page < first + n)))
  let s := restartWalks (dropTlb s (fun e => within e.ctx (e.vpart / 32))) (fun c va => within c (va / page2M))
  let s := rollbackAll s (fun _ w => earlyIn w (within w.ctx))
  if begunWith s (fun _ x => x.ent.any (fun e => within e.ctx (e.vpart / 32))) then
    s.afterTicks 1 (.tlbinvComplete issuer target first n all p)
  else payCounter s issuer p (.tlbinvComplete issuer target first n all p)

def execTlbinvComplete (issuer target first n : Nat) (all : Bool) (cnt : BitVec 64) (s : State) : Out :=
  .next (settleHits (tlbinvDone s issuer target first n all cnt))

/-- A TLBINV is accepted. -/
def putTlbinv (x : Iss) (s : State) (target first n : Nat) (all : Bool) (p : Word64) : Act :=
  .done (s.later (.tlbinvComplete x.w.ctx target first n all p))

def execTlbinvPage (ctl : Ctl) (a c : BitVec 8) (n : BitVec 16) (s : State) : Out :=
  issueSealed (.tlbinvPage ctl a c n) s (fun x s =>
    match counterArg x s c with
    | .error f => x.fails f
    | .ok (p, s) =>
      match pointerArg x s a with
      | .error f => x.fails f
      | .ok v =>
        if spaceOf v != 0 then x.fails (bad Code.SPACE 3 v)
        else putTlbinv x s x.w.ctx (v.toNat / page2M % 0x80000000) (n.toNat + 1) false p)

def execTlbinvCtx (ctl : Ctl) (c : BitVec 8) (s : State) : Out :=
  issueSealed (.tlbinvCtx ctl c) s (fun x s =>
    match counterArg x s c with
    | .error f => x.fails f
    | .ok (p, s) => putTlbinv x s x.w.ctx 0 0 true p)

def execTlbinvChild (ctl : Ctl) (k c : BitVec 8) (s : State) : Out :=
  issueSealed (.tlbinvChild ctl k c) s (fun x s =>
    match counterArg x s c with
    | .error f => x.fails f
    | .ok (p, s) =>
      match targetArg x s k false with
      | .error f => x.fails f
      | .ok (t, _) => putTlbinv x s t 0 0 true p)

/-! ### CTXRUN (R175, R204, R281) -/

/-- Copies of a context show or lose STOPPED. -/
def markCopies (s : State) (c : Nat) (stop : Bool) : State :=
  (s.copies.filter (fun y => y.ctx == c && y.started && !y.stopped && !y.landed)).foldl (fun s y => copyProg s y true stop) s

/-- Array operations of a context that have begun show or lose STOPPED. -/
def markArrays (s : State) (c : Nat) (stop : Bool) : State :=
  s.cores.foldl (fun s k =>
    (k.2.arrayQ.filter (fun o => o.ctx == c && o.start.isSome)).foldl (fun s o =>
      s.setMprog k.1 o.acc (progWord true stop o.done o.total)) s) s

/-- A wave's stopped paths take back the states they held. -/
def runWave (w : Wave) : Wave :=
  let w := { w with paths := w.paths.map (fun (p : Path) => match p.kept with
    | some st => if p.e.state == .stopped && p.park.isNone then { p with e := { p.e with state := st }, kept := none } else p
    | none => p) }
  (sweepJoins w w.seq (List.range 16)).settle

/-- The waves of a context, one by one. -/
def eachWave (s : State) (c : Nat) (f : State → Nat → State) : State :=
  ((s.waves.filter (fun w => w.2.ctx == c)).map (·.1)).foldl f s

/-- One STOPPED context runs; its first run enqueues its entry record. -/
def runCtx (s : State) (c : Nat) : State :=
  match s.ctx? c with
  | none => s
  | some x =>
    if x.state != .stopped then s
    else
      let s := s.setCtx c { x with state := .running, started := true }
      let s := eachWave s c (fun s w => s.updWave w runWave)
      let s := markArrays (markCopies s c false) c false
      let s := match (if x.started then none else x.entry) with
        | some r => (enqueue s c r).getD s
        | none => s
      s.ensureSoon (.dispatchPlacement c)

def execCtxrun (ctl : Ctl) (d k : BitVec 8) (s : State) : Out :=
  issueSealed (.ctxrun ctl d k) s (fun x s =>
    match targetArg x s k false with
    | .error f => x.fails f
    | .ok (c, pz) =>
      match s.ctx? c with
      | none => .done s
      | some y =>
        if !y.stops.isEmpty then .stall 6
        else if y.state != .stopped then answer x (.ctxrun ctl d k) s d 1 pz
        else sealedEffect x (.ctxrun ctl d k) s (fun s => setStatus x ((subtreeOf s c).foldl runCtx s) d 0 pz))

/-! ### CTXSTOP (R115, R118, R204, R281) -/

/-- A waiting WAITGE, BWAIT or FUSE is abandoned without its result: its path stands at it again. -/
def abandonWaits (w : Wave) : Wave :=
  let w := match w.fuse with
    | some f =>
      let p := w.path f.path
      ({ w with fuse := none }.setPath f.path { p with e := { p.e with pc := f.pc, state := p.rest }, reason := 0 }).clearFlag f.req
    | none => w
  let ids := w.paths.filterMap (fun (p : Path) => p.poll.map (·.id))
  let w := { w with paths := w.paths.map (fun (p : Path) => match p.poll with
    | some q => { p with e := { p.e with pc := q.pc, state := p.rest }, poll := none, noMatch := q.quiet, reason := 0 }
    | none => p) }
  ids.foldl Wave.clearFlag w

/-- Every path that is not parked takes STATE 101 and keeps what it held. -/
def stopPaths (w : Wave) : Wave :=
  let stop (p : Path) : Path :=
    if p.e.kind == .path && !p.parked then
      { p with e := { p.e with state := .stopped }, kept := some p.e.state, eligible := 0, urgentAt := none }
    else p
  let w : Wave := { w with paths := w.paths.map stop }
  w.settle

/-- A wave holds no pin and asks for none. -/
def dropPins (s : State) (wid : Nat) : State := unpin (withdrawPin (rollback s wid false) wid) wid

def stopWave (s : State) (wid : Nat) : State := (dropPins s wid).updWave wid (fun w => stopPaths (abandonWaits w))

def stopCtx (s : State) (c : Nat) : State :=
  match s.ctx? c with
  | none => s
  | some x =>
    if x.state != .running then s
    else markArrays (markCopies (eachWave (s.setCtx c { x with state := .stopped }) c stopWave) c true) c true

def execCtxstop (ctl : Ctl) (d k c : BitVec 8) (s : State) : Out :=
  issueSealed (.ctxstop ctl d k c) s (fun x s =>
    match targetArg x s k false with
    | .error f => x.fails f
    | .ok (t, pz) =>
      match counterArg x s c with
      | .error f => x.fails f
      | .ok (p, s) =>
        match s.ctx? t with
        | none => .done s
        | some y =>
          if y.state == .preempted then answer x (.ctxstop ctl d k c) s d 2 pz
          else sealedEffect x (.ctxstop ctl d k c) s (fun s =>
            let s := ((subtreeOf s t).foldl stopCtx s).updCtx t (fun y => { y with stops := y.stops ++ [(p, x.w.ctx)] })
            setStatus x (s.later (.ctxstopComplete t)) d (if y.state == .stopped then 1 else 0) pz))

/-- CTXSTOP_COMPLETE: once no access of the subtree is on its way, the counters of its stops advance, one by one. -/
def stopDone (s : State) (c : Nat) : State :=
  match s.ctx? c with
  | none => s
  | some x =>
    match x.stops with
    | [] => s
    | (p, i) :: rest =>
      if s.waves.any (fun w => inSubtree s c w.2.ctx && (w.2.accs.any (fun a => !a.early && a.faulted.isNone) || !w.2.pend.isEmpty)) then
        s.afterTicks 1 (.ctxstopComplete c)
      else withRoom s i (.ctxstopComplete c) (fun s => match bump s (launchCore s i) i p 1 with
        | .wait t r => s.waitTick t r (.ctxstopComplete c)
        | .fail _ => if (s.ctx? i).isSome then s.afterTicks 4096 (.ctxstopComplete c)
            else (s.updCtx c (fun x => { x with stops := rest })).soon (.ctxstopComplete c)
        | .ok _ s => (s.updCtx c (fun x => { x with stops := rest })).soon (.ctxstopComplete c))

def execCtxstopComplete (ctx : Nat) (s : State) : Out := .next (settleHits (stopDone s ctx))

/-! ### A wave is gone (R147) -/

/-- The wave whose own step this is. -/
def eventWave : Instr → Option Nat
  | .accessPerformed w _ | .pinGrant w | .pinGrantTimeout w _ | .pinTimeout w _ | .streamedAccess w _ | .waveFree w
  | .pathUrgent w _ | .yieldExpiry w _ | .fetchBlockArrival w _ _ | .growGrant w | .restore w | .fuseTimeout w _
  | .pollRecheck w _ | .resultWritten w _ => some w
  | _ => none

/-- Steps that are due for a wave go with it. -/
def dropEvents (s : State) (wid : Nat) : State :=
  let keep (i : Instr) : Bool := eventWave i != some wid
  { s with sch := { s.sch with agenda := s.sch.agenda.filter keep, timers := s.sch.timers.filter (fun t => keep t.ev),
                               waits := s.sch.waits.filter (fun w => keep w.2) } }

/-- No wave has this id. -/
abbrev noWave : Nat := 0x100000

/-- What a wave that is gone has begun goes on without it: copies, contributions to collectives, array operations. -/
def disown (s : State) (wid : Nat) : State :=
  let k := s.core (coreOf wid)
  ({ s with copies := s.copies.map (fun (c : Copy) => if c.owner == wid then { c with owner := noWave } else c),
            colls := s.colls.map (fun (c : Collective) => { c with
              froms := c.froms.map (fun (g : Given) => if g.wave == wid then { g with wave := noWave } else g) }) }).setCore
    (coreOf wid) { k with arrayQ := k.arrayQ.map (fun (o : ArrOp) => if o.wave == wid then { o with wave := noWave } else o) }

/-- Slot, units and areas of a wave are free; nothing of it is left on its core. -/
def removeWave (s : State) (wid : Nat) : State :=
  let s := dropPins s wid
  let s := match s.wave? wid with
    | some w => w.accs.foldl (fun s a => s.endTileOf (coreOf wid) a) s
    | none => s
  let s := dropEvents (dropLatch s wid) wid
  let l := s.lp (lpOf wid)
  let s := s.setLp (lpOf wid) { l with prog := l.prog.filter (fun b => b.wave != wid) }
  let k := s.core (coreOf wid)
  let s := s.setCore (coreOf wid) { k with launches := k.launches.filter (fun h => h.wave != wid), used := s.clk.tick }
  (disown s wid).dropWave wid

/-! ### CTXKILL (R180, R204, R281) -/

/-- What a context holds on a core goes: operations, tiles, teams, contributions, translations, its pts. -/
def clearWork (s : State) (c core : Nat) : State :=
  let k := s.core core
  s.setCore core { k with
    arrayQ := k.arrayQ.filter (fun o => o.ctx != c), tileOps := k.tileOps.filter (fun o => o.ctx != c),
    scope := k.scope.filter (fun r => r.ctx != c), owner := k.owner.filter (fun o => o.2 != c),
    teams := k.teams.filter (fun t => t.2.ctx != c), contrib := k.contrib.filter (fun y => y.1 != c),
    tlb := k.tlb.filter (fun e => e.ctx != c), pts := k.pts.filter (fun y => y.1 != c),
    traceQ := k.traceQ.filter (fun r => r.ctx != c), sampleQ := k.sampleQ.filter (fun r => r.ctx != c),
    lostQ := k.lostQ.filter (fun y => y.1 != c) }

/-- The same, with its carve-out. -/
def clearCore (s : State) (c core : Nat) : State := dropCarve (clearWork s c core) core c

/-- The unanswered records of a context that a test selects get VOID (R204, R210). -/
def voidRecords (s : State) (c : Nat) (ok : Outst → Bool) : State :=
  match s.ctx? c with
  | none => s
  | some x =>
    let os := x.ring.out.map (fun o => if ok o && !o.done then { o with void := true, mark := o.reply.isSome } else o)
    let hit := x.ring.out.filter (fun o => ok o && !o.done)
    let s := s.setCtx c { x with ring := { x.ring with out := os } }
    hit.foldl (fun s o =>
      let set (r : FaultRec) : FaultRec := if r.ctx == c && r.serial == o.serial then { r with flags := r.flags ||| fVOID } else r
      match o.ring with
      | none => { s with dev := { s.dev with ring := s.dev.ring.map set } }
      | some r => (s.updCtx r (fun y => { y with ring := { y.ring with held := y.ring.held.map set } })).ensureSoon
          (.ringRecordWrite r)) s

/-- One context is gone. Its unanswered records that are in memory, or go to rings that remain, are kept apart: their words get VOID,
and a reply sets their DONE. -/
def killCtx (s : State) (c : Nat) : State :=
  let s := eachWave s c removeWave
  let s := { s with copies := s.copies.filter (fun y => y.ctx != c),
                    colls := s.colls.filter (fun y => match Sp.find (s.core (y.team / 64)).teams (y.team % 64) with
                      | some t => t.ctx != c
                      | none => false) }
  let prim := (s.frames.filter (fun x => x.2.kind == .primary && x.2.ctx == c)).map (fun x => (x.1 / 8192, x.2.part))
  let s := prim.foldl (fun s x => evict s x.1 x.2) s
  let s := (s.cores.map (·.1)).foldl (fun s k => clearCore s c k) s
  let s := voidRecords s c (fun _ => true)
  match s.ctx? c with
  | none => s
  | some x =>
    let left := x.ring.out.filter (fun o => o.ring != some c || o.mark)
    { s with ctxs := Sp.erase s.ctxs c, dev := { s.dev with orphans := s.dev.orphans ++ left.map (fun o => (c, o)) } }

/-- Must the kill of a subtree wait: is a part that it holds a primary of held, or on the move (R53, R60)? -/
def killWaits (s : State) (t : Nat) : Bool :=
  s.frames.any (fun x => x.2.kind == .primary && inSubtree s t x.2.ctx && !atRest s (x.1 / 8192) x.2.part)

/-- CTXKILL of a subtree: the counters of stops under way in it advance with the kill's own. -/
def killTree (s : State) (t issuer : Nat) (p : Word64) : State :=
  let ids := subtreeOf s t
  let owed := (issuer, p) :: ids.flatMap (fun c => match s.ctx? c with
    | some x => x.stops.map (fun y => (y.2, y.1))
    | none => [])
  let s := (ids.reverse).foldl killCtx s
  owed.foldl (fun s y => s.updCtx y.1 (fun x => { x with kills := x.kills ++ [(t, y.2)] })) s

def execCtxkill (ctl : Ctl) (d k c : BitVec 8) (s : State) : Out :=
  issueSealed (.ctxkill ctl d k c) s (fun x s =>
    match targetArg x s k false with
    | .error f => x.fails f
    | .ok (t, pz) =>
      match counterArg x s c with
      | .error f => x.fails f
      | .ok (p, s) =>
        let s := (subtreeOf s t).foldl (fun s d => eachWave s d dropPins) s
        if killWaits s t then .stallAt s 12
        else sealedEffect x (.ctxkill ctl d k c) s (fun s =>
          setStatus x ((killTree s t x.w.ctx p).later (.ctxkillComplete t)) d 0 pz))

/-- CTXKILL_COMPLETE: the id is free, so the counters owed for it advance, one by one. -/
def killDone (s : State) (t : Nat) : State :=
  match s.ctxs.findSome? (fun y => (y.2.kills.find? (fun k => k.1 == t)).map (fun k => (y.1, k.2))) with
  | none => s
  | some (i, p) =>
    withRoom s i (.ctxkillComplete t) (fun s => match bump s (launchCore s i) i p 1 with
    | .wait a r => s.waitTick a r (.ctxkillComplete t)
    | .fail _ => s.afterTicks 4096 (.ctxkillComplete t)
    | .ok _ s => (s.updCtx i (fun x => { x with kills := x.kills.erase (t, p) })).soon (.ctxkillComplete t))

def execCtxkillComplete (ctx : Nat) (s : State) : Out := .next (settleHits (killDone s ctx))

/-! ### QOSSET (R99, R283) -/

def rateOf (s : State) (c : Nat) : Nat := match s.ctx? c with
  | some x => (match x.bucket with | some b => b.1 | none => 0)
  | none => 0

/-- The nearest ancestor of a context that holds a bucket. -/
def bucketAbove (s : State) (c : Nat) : Option Nat := ((lineage 8 s c).drop 1).find? (fun a => rateOf s a != 0)

/-- Statuses 2, 1 and 3. -/
def qosStatus (s : State) (c v rate depth : Nat) : Nat :=
  let sum (l : List Nat) : Nat := (l.map (rateOf s)).foldl (· + ·) 0
  let sibs := match s.ctx? c with
    | some x => (match x.parent with | some p => (childrenOf s p).filter (· != c) | none => [])
    | none => []
  if 0x1000000 ≤ v || (rate == 0) != (depth == 0) then 2
  else if (match bucketAbove s c with | some a => decide (rateOf s a < rate + sum sibs) | none => false) then 1
  else if rate < sum (childrenOf s c) then 3
  else 0

/-- The tokens of an existing bucket at every controller, clamped to the new capacity. -/
def clampTokens (x : Ctx) (old new : Nat) : List (Nat × Int) :=
  (List.range 24).foldl (fun m k => Sp.insert m k (min (Sp.get (old : Int) x.tokens k) (new : Int))) []

def setBucket (s : State) (c rate depth : Nat) : State :=
  s.updCtx c (fun x =>
    if rate == 0 then { x with bucket := none, tokens := [] }
    else match x.bucket with
      | none => { x with bucket := some (rate, depth), tokens := [] }
      | some b => { x with bucket := some (rate, depth), tokens := clampTokens x (b.1 * b.2) (rate * depth) })

def execQosset (ctl : Ctl) (d k v : BitVec 8) (s : State) : Out :=
  issueSealed (.qosset ctl d k v) s (fun x s =>
    match targetArg x s k false with
    | .error f => x.fails f
    | .ok (c, pk) =>
      let (n, pv) := scalarArg x s v
      let rate := n % 65536
      let depth := n / 65536 % 256
      match qosStatus s c n rate depth with
      | 0 => sealedEffect x (.qosset ctl d k v) s (fun s => setStatus x (setBucket s c rate depth) d 0 (pk || pv))
      | st => answer x (.qosset ctl d k v) s d st (pk || pv))

end Sys2Proof.Machine
end

