-- ==== Sys2Proof/Machine/Coherence.lean ====
section
/-!
DEFINITION. Steps of the memory system (R33 to R117): accesses performed, pins, sweeps, Monarch, Atlas, homes, holders,
walks and combines: one meaning for each. A step that must wait in physical time (R77) is due again at its tick.
-/

namespace Sys2Proof.Machine

/-- A step whose operation may wait: due again later, or without effect where its check fails. -/
def retried (s : State) (self : Instr) (r : Res Unit) : State :=
  match r with
  | .ok _ t => t
  | .wait t r => s.waitTick t r self
  | .fail _ => s

/-! ### Accesses (R65, R77, R97, R112, R288) -/

/-- ACCESS_PERFORMED (R288, R112). -/
def execAccessPerformed (wave id : Nat) (s : State) : Out := .next (performAccess s wave id)

/-- STREAMED_ACCESS (R65, R379): an access whose place is its home is performed like any other. -/
def execStreamedAccess (wave id : Nat) (s : State) : Out := .next (settleHits (performAccess s wave id))

/-- COMBINE of a line (R97), after a seal where its page asks for one (R29), with room in the log for its lines (R207). -/
def combineStep (s : State) (ctx slot line : Nat) : State :=
  let self : Instr := .combine ctx slot line
  if sealsLine s ctx slot line then
    if sealWaits s ctx then (askCheckpoint s (rootOf s ctx)).ensureTicks 1 self
    else
      let s := takeSeal s ctx
      retried s self (combineAt s ctx slot line true false true)
  else withLines s ctx (combineLogs s ctx slot line) self (fun s => retried s self (combineAt s ctx slot line))

def execCombine (ctx slot line : Nat) (s : State) : Out := .next (settleHits (combineStep s ctx slot line))

/-! ### Pins (R116 to R118) -/

/-- The wave that asks first for the grant gets it; one that cannot use it withdraws. -/
def grantPin (s : State) (wid : Nat) : State :=
  match s.pins.holder, s.pins.queue with
  | none, q :: _ =>
    if q != wid then s.ensureSoon (.pinGrant q)
    else match s.wave? wid with
      | some w =>
        let n := w.pinReq.getD 0
        let s := withdrawPin s wid
        if w.state != .running then
          (match s.pins.queue with | q :: _ => s.ensureSoon (.pinGrant q) | [] => s)
        else { s with pins := { s.pins with holder := some wid, since := s.clk.tick } }.afterTicks 4096 (.pinTimeout wid n)
      | none => { s with pins := { s.pins with queue := s.pins.queue.filter (· != wid) } }
  | _, _ => s

def execPinGrant (wave : Nat) (s : State) : Out := .next (grantPin s wave)

/-- The address after the instruction that a path would begin. -/
def slotAfter (w : Wave) (wid i : Nat) : Word64 :=
  match nextOf w wid i with
  | some (c :: _, _, _) => c.cur.pc + BitVec.ofNat 64 c.cur.slot
  | _ => (w.path i).e.pc + 8

/-- One more rollback of the window key K (R116); the 64th traps. -/
def countRollback (s : State) (wid : Nat) : State :=
  match s.wave? wid with
  | none => s
  | some w =>
    let s := s.setWave wid { w with count := w.count + 1 }
    if w.count + 1 == 64 then
      let p := w.path w.keyPath
      takeFault (withdrawPin s wid) wid w.keyPath w.keyPc p.e.pc (slotAfter w wid w.keyPath) .fault
        { code := Code.LIVELOCK, mask := p.e.mask }
    else s

/-- PIN_GRANT_TIMEOUT (R117): a pending request counts as a rollback and is made again. -/
def execPinGrantTimeout (wave req : Nat) (s : State) : Out :=
  match s.wave? wave with
  | none => .next s
  | some w =>
    if w.pinReq == some req && s.pins.queue.contains wave then
      let s := countRollback (withdrawPin s wave) wave
      match s.wave? wave with
      | some w => .next (if w.count < 64 then requestPin s wave else s)
      | none => .next s
    else .next s

/-- PIN_TIMEOUT (R118): the pinned window, if there is one yet, rolls back and the grant is released. -/
def execPinTimeout (wave _req : Nat) (s : State) : Out :=
  if s.pins.holder == some wave && decide (s.pins.since + 4096 ≤ s.clk.tick) then
    let pinned : Bool := (s.wave? wave).any (fun w => w.win.any (fun n => n.pinned))
    .next (unpin (if pinned then rollback s wave true else s) wave)
  else .next s

/-! ### Ticks and sweeps (R44, R73, R79, R99) -/

/-- Has the lease of a line in an unpinned window of a wave run out (R113)? -/
def leaseOver (s : State) (wid : Nat) (w : Wave) : Bool :=
  match w.win with
  | some n => !n.pinned && n.reads.any (fun r => r.place.isSome && decide (r.rts < ptsOf s (coreOf wid) w.ctx))
  | none => false

/-- PTS_TICK (R73, R113): pts is at least the time, which ptsOf says; leases that it passes are conflicts. -/
def tickPts (s : State) : State :=
  let s := { s with cores := s.cores.map (fun (k : Nat × Core) => (k.1, { k.2 with pts := k.2.pts.filter (fun y => decide (s.clk.tick < y.2)) })) }
  ((s.waves.filter (fun (w : Nat × Wave) => leaseOver s w.1 w.2)).map (fun (w : Nat × Wave) => w.1)).foldl (fun s w => rollback s w true) s

def execPtsTick (s : State) : Out := .next (tickPts s)

/-- LASTTOUCH_SWEEP (R44), of every frame: LASTTOUCH is never below what the sweep has set. -/
def execLasttouchSweep (s : State) : Out :=
  .next { s with clk := { s.clk with swept := s.clk.tick - 0x8000 } }

/-- TIMESTAMP_SWEEP (R79). -/
def execTimestampSweep (s : State) : Out :=
  let swept (k : Nat) : Bool := match (s.frame (k / 512)).kind with
    | .primary | .replica | .forward => true
    | _ => false
  let low := s.clk.tick - 0x4000
  .next { s with lines := s.lines.map (fun x =>
    if swept x.1 then (x.1, { x.2 with wts := max x.2.wts low, rts := max x.2.rts low }) else x) }

/-- BUCKET_REFILL (R99): RATE tokens for every bucket, up to its capacity. -/
def refill (c : Ctx) : Ctx :=
  match c.bucket with
  | some (rate, depth) => { c with tokens := c.tokens.map (fun t => (t.1, min (t.2 + rate) ((rate * depth : Nat) : Int))) }
  | none => c

def execBucketRefill (s : State) : Out := .next { s with ctxs := s.ctxs.map (fun c => (c.1, refill c.2)) }

/-! ### Monarch (R62 to R64) -/

/-- The core of a die with the largest count but the holder's, the lowest on ties, with its count. -/
def topOther (f : FrameRec) (holder : Nat) : Nat × Nat :=
  ((List.range 32).filter (· != holder)).foldl (fun b c =>
    let n := Sp.get 0 f.counts c
    if b.2 < n then (c, n) else b) (if holder == 0 then 1 else 0, 0)

/-- Has a bank room for what Monarch brings: a FREE frame, and unused near quota where the context has any on the die
(R57 rule 5, R63)? -/
def monarchRoom (s : State) (ctx core : Nat) : Bool :=
  let near := quotaNear s ctx != 0 && (coresOf (core / 32)).any (inUnits s ctx)
  bankEligible s core && decide (0 < freeFrames s core) &&
    (!near || (inUnits s ctx core && decide (nearCount s ctx core < quotaNear s ctx)))

/-- REPLICA_CREATE or MOVE for a primary (R63); the part's replicas survive a move (R64). -/
def monarchAct (s : State) (fk core : Nat) (few : Bool) : State :=
  let f := s.frame fk
  if heldPart s (fk / 8192) f.part || !monarchRoom s f.ctx core || ((s.atlas (fk / 8192) f.part).map (·.astate)) != some .placed
    then s
  else if few then
    if (replicaFrame s core f.part).isSome then s
    else
      let t := makeReplica s fk core
      if (replicaFrame t core f.part).isSome then t.setFrame fk { t.frame fk with skip := 2, cand := none } else t
  else movePrimary s fk core

/-- One primary at the end of an interval. -/
def monarchPrimary (s : State) (fk : Nat) : State :=
  let f := s.frame fk
  if f.kind != .primary then s
  else
    let holder := fk / 256 % 32
    let (c, k) := topOther f holder
    let total := (f.counts.map (·.2)).foldl (· + ·) 0
    let few := decide (16 * f.writes < total)
    let clear (s : State) (cand : Option (Nat × Bool)) (skip : Nat) : State :=
      let g := s.frame fk
      if g.kind == .primary then s.setFrame fk { g with counts := [], writes := 0, cand := cand, skip := skip } else s
    if f.skip != 0 then clear s none (f.skip - 1)
    else if k < Sp.get 0 f.counts holder + 64 then clear s none 0
    else match f.cand with
      | some (c', few') =>
        if c' == c then
          let t := monarchAct s fk (fk / 8192 * 32 + c) (few && few')
          clear t (if (t.frame fk).skip == 2 then none else some (c, few)) (t.frame fk).skip
        else clear s (some (c, few)) 0
      | none => clear s (some (c, few)) 0

/-- One replica at the end of an interval: below 16 twice in a row, it goes. -/
def monarchReplica (s : State) (fk : Nat) : State :=
  let f := s.frame fk
  if f.kind != .replica then s
  else if f.own < 16 then
    if f.lows == 0 then s.setFrame fk { f with own := 0, lows := 1 }
    else if heldPart s (fk / 8192) f.part then s.setFrame fk { f with own := 0 }
    else dropReplica s fk
  else s.setFrame fk { f with own := 0, lows := 0 }

/-- MONARCH_INTERVAL: every replica, then every primary, in order. -/
def monarchAll (s : State) : State :=
  let keys (k : FKind) : List Nat := (s.frames.filter (fun x => x.2.kind == k)).map (·.1)
  (keys .primary).foldl monarchPrimary ((keys .replica).foldl monarchReplica s)

def execMonarchInterval (s : State) : Out := .next (monarchAll s)

/-- FORWARDING_END (R64). -/
def execForwardingEnd (core frame gen : Nat) (s : State) : Out := .next (endForwarding s (frameKey core frame) gen)

/-! ### Atlas (R51 to R58) -/

/-- LOCATE (R51). -/
def execLocate (core ctx vpart : Nat) (s : State) : Out := .next (settleHits (locateEntry s core ctx vpart))

/-- FILL (R56, R57) of a part that has no entry. -/
def execFill (core ctx part : Nat) (s : State) : Out :=
  if (s.atlas (core / 32) part).isSome || quotaDie s ctx == 0 then .next s
  else match fill s core ctx part with
    | .ok _ s => .next (settleHits s)
    | .wait t r => .next (s.waitTick t r (.fill core ctx part))
    | .fail _ => .next s

/-- EVICTION (R58) of a primary, or the drop of a core's replica; Atlas defers it while the part is held (R53), and an eviction
waits for the end of a move (R60). -/
def execEviction (die part : Nat) (replica : Option Nat) (s : State) : Out :=
  if heldPart s die part || (replica.isNone && moving s die part) then .next (s.ensureTicks 1 (.eviction die part replica))
  else match replica with
    | none => .next (evict s die part)
    | some core =>
      match replicaFrame s core part with
      | some k => if k / 8192 == die then .next (dropReplica s k) else .next s
      | none => .next s

/-- The lines in the read sets of a context's waves on a core. -/
def readLines (s : State) (core ctx : Nat) : List Nat :=
  ((s.waves.filter (fun w => coreOf w.1 == core && w.2.ctx == ctx)).flatMap (fun w => match w.2.win with
    | some n => n.reads.map (·.line)
    | none => [])).eraseDups

/-- FRAME_ARRIVAL (R52): served and counted, forwarded with its target rewritten, or bounced and located afresh. -/
def frameArrives (s : State) (core ctx vpart : Nat) (write : Bool) : State :=
  match findTlb s core ctx vpart with
  | none => s
  | some e =>
    match e.target with
    | .frame a b g =>
      (match arrive s a b g with
       | some (a', b', g') =>
         let s := if a' == a && b' == b then s else setTarget s core ctx vpart (.frame a' b' g')
         countAt s (frameKey a' b') core write
       | none => locateEntry (bounce s core ctx vpart e.part (readLines s core ctx)) core ctx vpart)
    | _ => s

def execFrameArrival (core ctx vpart : Nat) (write : Bool) (s : State) : Out :=
  .next (settleHits (frameArrives s core ctx vpart write))

/-- ATLAS_HOLD_EXPIRY (R53): holds whose 64 cycles are over end. -/
def execAtlasHoldExpiry (die _part : Nat) (s : State) : Out :=
  let d := s.die die
  .next (s.setDie die { d with holds := d.holds.filter (fun h => h.till == 0 || decide (s.clk.cycle < h.till)) })

/-- WRAP_NOTICE (R54). -/
def execWrapNotice (core frame : Nat) (s : State) : Out :=
  .next (clearTargets s (frameKey core frame) (coresOf (core / 32)))

/-! ### Walks (R35, R36) -/

def versionOf (s : State) (c : Nat) : Nat := match s.ctx? c with | some x => x.gver | none => 0

/-- Does a walk of a context that has restarted 8 times or more go on? -/
def walkHolds (s : State) (ctx : Nat) : Bool :=
  s.due.any (fun i => match i with | .pageWalk _ c _ _ n => c == ctx && decide (8 ≤ n) | _ => false)

/-- PAGE_WALK: a walk that began at a grant version ends. Where that has changed it restarts, and the eighth restart sets
the walk hold; else it installs its translation, whose target it locates (R51), or nothing, and the hold that it has set clears. -/
def endWalk (s : State) (core ctx va ver restarts : Nat) : State :=
  if ver != versionOf s ctx then
    let s := if restarts + 1 == 8 then s.updCtx ctx (fun x => { x with hold := true }) else s
    s.later (.pageWalk core ctx va (versionOf s ctx) (restarts + 1))
  else
    let s := if decide (8 ≤ restarts) && !walkHolds s ctx then s.updCtx ctx (fun x => { x with hold := false }) else s
    match walk s ctx (BitVec.ofNat 64 va) 0, walked s ctx (BitVec.ofNat 64 va) with
    | .ok e, some s => locateEntry (installTlb s core e) core ctx e.vpart
    | .ok _, none => s.ensureTicks 1 (.pageWalk core ctx va ver restarts)
    | .error f, _ => if f.later then s.ensureTicks 1 (.pageWalk core ctx va ver restarts) else s

def execPageWalk (core ctx va ver restarts : Nat) (s : State) : Out := .next (settleHits (endWalk s core ctx va ver restarts))

/-! ### Homes and holders (R83 to R89) -/

/-- A die's line record of a part it has a primary of: the frame and the record. -/
def primaryLine (s : State) (die l : Nat) : Option (Nat × LineRec) :=
  (primaryOf s die (l / 512)).map (fun fk => (fk, s.line (flKey fk (l % 512))))

/-- A forwarded read (R84): the owner supplies and gives up its right to write. -/
def forwardRead (s : State) (l die : Nat) : State :=
  match dieLine s die l with
  | none => s
  | some (k, r) =>
    let d := s.dirOf l
    let bit : BitVec 8 := 1#8 <<< die
    match r.state with
    | .m | .o => (s.setLine k { r with state := .o }).setDir l { d with state := .owned, owner := die }
    | .e => (s.setLine k { r with state := .s }).setDir l { d with state := .shared, owner := 0, sharers := d.sharers ||| bit }
    | _ => s

/-- A request at the home names a die of this device, 0 to 7, or 8 more than the id of another (R89). -/
def peerOf (s : State) (who : Nat) : Option Nat :=
  if 8 ≤ who && (s.dev.present.contains (who - 8)) && who - 8 != s.dev.devId.toNat then some (who - 8) else none

/-- A device takes a shared copy of a line (R89): a die that owns it gives up its right to write (R84). -/
def shareDev (s : State) (l dev : Nat) : State :=
  let d := s.dirOf l
  if d.oremote then s
  else
    let s := if d.state == .excl || d.state == .owned then forwardRead s l d.owner else s
    let d := s.dirOf l
    s.setDir l { d with devs := d.devs ||| bitAt dev, state := if d.state == .none then .shared else d.state }

/-- A device becomes the owner of a line: combined first (R97), every copy of another gone (R83, R89). -/
def ownDev (s : State) (l dev : Nat) : Res Unit :=
  match combineFirst s (l * 128) with
  | .wait t r => .wait t r
  | .fail f => .fail f
  | .ok _ s =>
    match registerDev s (l / 512) dev with
    | .wait t r => .wait t r
    | .fail f => .fail f
    | .ok _ s =>
      match asDev s l dev (fun s => match recallAll s l with | .ok _ s => tierRoom s l | r => r) with
      | .ok _ s => .ok () (s.setDir l { state := .excl, oremote := true, odev := dev })
      | r => r

/-- A device reads a line of this one (R83, R89): it holds it in E where nobody else has it, else shared. -/
def readDev (s : State) (l dev : Nat) : Res (List Byte × Bool) :=
  match combineFirst s (l * 128) with
  | .wait t r => .wait t r
  | .fail f => .fail f
  | .ok _ s =>
    match registerDev s (l / 512) dev with
    | .wait t r => .wait t r
    | .fail f => .fail f
    | .ok _ s =>
      match tierRoom s l with
      | .wait t r => .wait t r
      | .fail f => .fail f
      | .ok _ s =>
        let alone := (s.dirOf l).state == .none
        match asDev s l dev (fun s => clRead s (l * 128) 128) with
        | .ok x s => .ok x (if alone then s.setDir l { state := .excl, oremote := true, odev := dev } else shareDev s l dev)
        | r => r

/-- Is a line homed on this device, and for another device to ask for? -/
def homedHere (s : State) (l : Nat) : Bool := deviceOf (l * 128) == s.dev.devId.toNat && installed s (l * 128)

/-- The answer to a request of another device. -/
def peerReply (s : State) (l : Nat) (bs : List Byte) : State :=
  settleHits { s with dev := { s.dev with replies := s.dev.replies ++ [some (l * 128, bs)] } }

/-- A request of another device for a line, read or owned; one that a window has moved is answered by its new home (R93). -/
def peerAsks (s : State) (l dev : Nat) (own : Bool) (self : Instr) : State :=
  let l := nowAt s (l * 128) / 128
  if !homedHere s l || ((s.dirOf l).oremote && (s.dirOf l).odev == dev) then s
  else match (if own then (match readDev s l dev with
      | .ok x t => (match alongside s t (fun t => ownDev t l dev) with | .ok _ t => .ok x t | .wait a b => .wait a b | .fail f => .fail f)
      | r => r) else readDev s l dev) with
    | .ok x s => peerReply s l x.1
    | .wait t r => s.waitTick t r self
    | .fail _ => s

/-- A request of another device, or of a die. -/
def askedBy (s : State) (line who : Nat) (own : Bool) (self : Instr) (byDie : Out) : Out :=
  match peerOf s who with
  | some dev => .next (peerAsks s line dev own self)
  | none => byDie

/-- HOME_READ: the fetch of an invalid line for reading (R46, R83), by a die or by another device (R89). -/
def execHomeRead (line die : Nat) (s : State) : Out :=
  askedBy s line die false (.homeRead line die) <|
  match primaryLine s die line with
  | none => .next s
  | some (fk, r) =>
    if r.valid then .next s
    else match homeReadOp s line die with
      | .ok u s => .next (settleHits (installLine s die fk line u))
      | .wait t r => .next (s.waitTick t r (.homeRead line die))
      | .fail _ => .next s

/-- HOME_READ_FOR_OWNERSHIP: the fetch of an invalid line for writing, by a die or by another device. -/
def execHomeReadForOwnership (line die : Nat) (s : State) : Out :=
  askedBy s line die true (.homeReadForOwnership line die) <|
  match primaryLine s die line with
  | none => .next s
  | some (fk, r) =>
    if r.valid then .next s
    else match homeRfoOp s line die with
      | .ok u s => .next (settleHits (installLine s die fk line u))
      | .wait t r => .next (s.waitTick t r (.homeReadForOwnership line die))
      | .fail _ => .next s

/-- HOME_UPGRADE: a line held in S or O becomes M; another device's upgrade is its read for ownership. -/
def execHomeUpgrade (line die : Nat) (s : State) : Out :=
  askedBy s line die true (.homeUpgrade line die) <|
  match primaryLine s die line with
  | none => .next s
  | some (fk, r) =>
    if !r.valid || !(r.state == .s || r.state == .o) then .next s
    else match homeRfoOp s line die with
      | .ok u s => .next (settleHits (s.setLine (flKey fk (line % 512)) (upgraded s (line * 128) r u.dirty)))
      | .wait t r => .next (s.waitTick t r (.homeUpgrade line die))
      | .fail _ => .next s

/-- Another device gives up a line, with the data that it had modified, if any; what it did came before now (R83, R89, R379). -/
def peerGives (s : State) (line dev : Nat) (data : List Byte) : State :=
  let l := nowAt s (line * 128) / 128
  let d := s.dirOf l
  if !homedHere s l || !devHolds d dev then s
  else
    let s := if d.oremote && data.length == 128 then wrote ((homeWrite s (l * 128) data).setHomePoison l false) (l * 128) 128 else s
    settleHits (raiseHome (dropDev s l dev) (l * 128) s.clk.tick)

/-- WRITE_BACK of a line held in M or O (R83, R88), by a die, or by another device with the line's data. -/
def execWriteBack (line : Nat) (die : Giver) (s : State) : Out :=
  match peerOf s die.who with
  | some dev => .next (peerGives s line dev die.data)
  | none =>
  match dieLine s die.who line with
  | some (_, r) => .next (if r.state == .m || r.state == .o then giveUp s die.who line else s)
  | none => .next s

/-- CLEAN_EVICTION_NOTICE (R83, R88): the home forgets a die that holds the line clean, or no more. -/
def cleanNotice (s : State) (l die rts : Nat) : State :=
  match dieLine s die l with
  | some (_, r) => if r.state == .m || r.state == .o then s else raiseHome (giveUp s die l) (l * 128) rts
  | none =>
    let d := s.dirOf l
    let sh := d.sharers &&& ~~~(1#8 <<< die)
    let owns := d.state == .excl && !d.oremote && d.owner == die
    let st : DState := if owns || d.state == .shared then (if sh == 0 && !d.rshare then .none else .shared) else d.state
    raiseHome (s.setDir l { d with sharers := sh, state := st, owner := if owns then 0 else d.owner }) (l * 128) rts

def execCleanEvictionNotice (line die rts : Nat) (s : State) : Out :=
  match peerOf s die with
  | some dev => .next (raiseHome (peerGives s line dev []) (line * 128) rts)
  | none => .next (cleanNotice s line die rts)

/-- FORWARDED_READ (R84). -/
def execForwardedRead (line die : Nat) (s : State) : Out := .next (forwardRead s line die)

/-- A die's copy goes after the wait of R77, with its dirty data written back: a conflict for its readers (R113). -/
def recallFrom (s : State) (l die : Nat) : Res Unit :=
  if diePinned s die l then .wait (s.clk.tick + 1) 0
  else if s.clk.tick ≤ dieRts s die l then .wait (dieRts s die l + 1) (gateReason 1 l)
  else .ok () (strikeDie (giveUp s die l) die l)

/-- FORWARDED_READ_FOR_OWNERSHIP (R84, R85): an owner takes I; here the home itself is the reader (R65). -/
def execForwardedReadForOwnership (line die : Nat) (s : State) : Out :=
  match dieLine s die line with
  | some (_, r) =>
    if r.state == .m || r.state == .o then
      .next (settleHits (retried s (.forwardedReadForOwnership line die) (recallFrom s line die)))
    else .next s
  | none => .next s

/-- INVALIDATION (R84) of a line held in S or E; another device's answer to one (R89). -/
def execInvalidation (line die : Nat) (s : State) : Out :=
  match peerOf s die with
  | some dev => .next (peerGives s line dev [])
  | none =>
  match dieLine s die line with
  | some (_, r) =>
    if r.state == .s || r.state == .e then
      .next (settleHits (retried s (.invalidation line die) (recallFrom s line die)))
    else .next s
  | none => .next s

/-- HOLDER_REGISTRATION (R86, R89). -/
def execHolderRegistration (part die : Nat) (s : State) : Out :=
  let r := match peerOf s die with
    | some dev => registerDev s part dev
    | none => registerHolder s part die
  .next (settleHits (retried s (.holderRegistration part die) r))

/-- Another device gives up every line of a part that it holds clean. -/
def peerDrops (s : State) (part dev : Nat) : State :=
  (List.range 512).foldl (fun s i =>
    let l := part * 512 + i
    if (s.dirOf l).devs.getLsbD dev then dropDev s l dev else s) s

/-- BACK_INVALIDATION (R86); another device's answer to one: what it held modified it writes back itself (R89). -/
def execBackInvalidation (part die : Nat) (s : State) : Out :=
  match peerOf s die with
  | some dev => .next (peerDrops s part dev)
  | none => .next (settleHits (retried s (.backInvalidation part die) (backInvalidate s die part)))

end Sys2Proof.Machine
end

