-- ==== Sys2Proof/Machine/Control.lean ====
section
/-!
DEFINITION. Control and system instructions (R264 to R273, R236 to R239, R243): one meaning for each.
-/

namespace Sys2Proof.Machine

/-! ### Shared -/

/-- The address of the instruction after the issuing one. -/
def Iss.after (x : Iss) : Word64 := x.cur.pc + BitVec.ofNat 64 x.cur.slot

/-- The cycle in which the issuing instruction issues its last thread pair (R231). -/
def Iss.last (x : Iss) (s : State) (sc : Bool) : Option Pred := some ⟨s.clk.cycle + pairDelay x sc s, some x.op⟩

/-- The issuing wave with its path's entry changed. -/
def Iss.putWave (x : Iss) (s : State) (w : Wave) : State := s.setWave x.cur.wave w

/-- The path moves to an address. -/
def goTo (x : Iss) (w : Wave) (t : Word64) : Wave :=
  w.putPath x.id x.cur.path (Path.spunTo (x.p.goesTo t) t x.cur.pc)

/-- The whole path moves, and nothing counts (R237). -/
def jumpTo (x : Iss) (w : Wave) (t : Word64) : Wave :=
  w.putPath x.id x.cur.path (x.p.goesTo t)

def deferFull (x : Iss) : FaultInfo := { code := Code.BUDGET, sub := 3, mask := x.act }

/-- Move to the one target of a group list, or split (R151, R265). -/
def goGroups (x : Iss) (s : State) (w : Wave) (gs : List Group) (kind : PKind) (ret : Word64) (sc : Bool) : Act :=
  match gs with
  | [g] => .moved (x.putWave s (goTo x w g.2))
  | _ =>
    match splitPath w x.id x.cur.path x.cur.pc gs kind ret (x.last s sc) with
    | some w => .moved (x.putWave s w)
    | none => .trap (deferFull x)

/-- The target of a BRA or CALL, or SPACE (R236). -/
def relTarget (x : Iss) (off : BitVec 32) : Except FaultInfo Word64 :=
  let t : Int := (x.cur.pc.toNat : Int) + 8 * off.toInt
  if t < 0 || (0x10000000000000 : Int) ≤ t then
    .error { code := Code.SPACE, sub := 2, mask := x.act, addr := BitVec.ofInt 64 t }
  else .ok (BitVec.ofInt 64 t)

/-- Bytes of a global address read in the order of a code fetch, with the permission `want` (R170, R189, R237): once every older
operation of the threads of path i has taken its place. -/
def readOrdered (s : State) (wid : Nat) (w : Wave) (i : Nat) (p : Word64) (n : Nat) (want : BitVec 3) : Res (List Byte × Bool) :=
  if owesBefore s wid i w.seq then .wait (s.clk.tick + 1) 0 else
  match checkAccess s (coreOf wid) w.ctx p n want .global with
  | .error f => failed s f
  | .ok (none, s) => .ok ([], false) s
  | .ok (some x, s) =>
    match combineFirst s x.dev with
    | .wait a b => .wait a b
    | .fail f => .fail f
    | .ok _ s =>
      match readAt s (whoOf wid w) x with
      | .wait a b => .wait a b
      | .fail f => .fail f
      | .ok g s => .ok (placeBytes s g.place x.dev n, g.poison) s

/-! ### Function headers (R170, R171) -/

/-- The lowest set bit of a word, from bit i on. -/
def lowestBit (h : Word64) : Nat → Nat → Nat
  | 0, i => i
  | n + 1, i => if h.getLsbD i then i else lowestBit h n (i + 1)

/-- The largest budget that the headers of some targets declare. -/
def headerBudgets (s : State) (wid : Nat) (w : Wave) (i : Nat) (mask : Word64) : List Word64 → Res Nat
  | [] => .ok 0 s
  | t :: ts =>
    match readOrdered s wid w i t 8 pX with
    | .wait a b => .wait a b
    | .fail f => .fail { f with addr := t, mask := mask }
    | .ok (bs, _) s =>
      let h : Word64 := BitVec.ofNat 64 (leNat bs)
      let ill : Word64 := h &&& ~~~0x1F00
      if ill != 0 then
        .fail { code := Code.ILLEGAL, sub := 4, mask := mask, addr := t, extra := BitVec.ofNat 64 (lowestBit ill 64 0) }
      else match headerBudgets s wid w i mask ts with
        | .ok n s => .ok (max n (8 * ((bits h 8 5).toNat + 1))) s
        | .wait a b => .wait a b
        | .fail f => .fail f

/-- Write the return address to w6 of some threads (R171). -/
def linkThreads (x : Iss) (w : Wave) (ra : Word64) (m : Word64) : Wave :=
  w.writes x.id ((threads m).flatMap (fun t => wW 6 t ra false))

/-- CALL and CALLX on the groups of their targets, ascending (R171). `link` are the threads whose w6 is written. -/
def callGroups (x : Iss) (s : State) (gs : List Group) (link : Word64) (sc : Bool) : Act :=
  match headerBudgets s x.cur.wave x.w x.cur.path x.act (gs.map (·.2)) with
  | .wait t r => .waits t r 4
  | .fail f => .trap f
  | .ok n s =>
    let go (s : State) : Act :=
      match s.wave? x.cur.wave with
      | none => .stall 12
      | some w => goGroups x s (linkThreads x w x.after link) (gs.map (fun g => (g.1, g.2 + 8))) .ret x.after sc
    if n ≤ x.w.budget then go s
    else if x.w.unperformed then .stall 12
    else match growWave s x.cur.wave n x.act with
      | .fault f => .trap f
      | .blocked s => .stallAt s 10
      | .done s => go s

/-! ### Indirect targets (R265) -/

/-- CHECK_TARGET. -/
def checkTarget (t : Word64) (poison : Bool) : Option Fail :=
  if poison then some (bad Code.POISON_USE 0 t) else checkPtr t 8 .global

/-- Insert a thread into the groups, ascending by target. -/
def addGroup (t : Nat) (a : Word64) : List Group → List Group
  | [] => [(bitAt t, a)]
  | g :: gs =>
    if g.2 == a then (g.1 ||| bitAt t, g.2) :: gs
    else if decide (a.toNat < g.2.toNat) then (bitAt t, a) :: g :: gs
    else g :: addGroup t a gs

def groupTargets : List (Nat × Word64) → List Group
  | [] => []
  | x :: xs => addGroup x.1 x.2 (groupTargets xs)

/-- Place a group of its own among groups ascending by target, after one of the same target (R265). -/
def insertGroup (n : Group) : List Group → List Group
  | [] => [n]
  | g :: gs => if decide (n.2.toNat < g.2.toNat) then n :: g :: gs else g :: insertGroup n gs

/-- The groups of an indirect branch: in S form the whole path moves to one target. -/
def indirect (x : Iss) (s : State) (sc : Bool) (a : BitVec 8) : Except FaultInfo (List Group) :=
  let free := s.sch.free
  if sc then
    let t := srcX x.w free a
    match checkTarget t.1 t.2 with
    | some f => .error { f with mask := x.act }
    | none => .ok [(x.p.e.mask, t.1)]
  else
    let ts := (threads x.act).map (fun t => (t, x.w.readW free a.toNat t))
    match firstFault (ts.filterMap (fun t => (checkTarget t.2.1 t.2.2).map (fun f => (t.1, f)))) with
    | some f => .error f
    | none => .ok (groupTargets (ts.map (fun t => (t.1, t.2.1))))

/-! ### Branches and calls (R264, R265) -/

/-- BRA (R264): unguarded or taken by every thread the path moves, else it splits with the taken threads first. -/
def execBra (ctl : Ctl) (wide : Bool) (off : BitVec 32) (s : State) : Out :=
  issue (.bra ctl wide off) s (fun x s =>
    match relTarget x off with
    | .error f => .trap f
    | .ok t =>
      let rest := x.p.e.mask &&& ~~~x.act
      goGroups x s x.w (if rest == 0 then [(x.act, t)] else [(x.act, t), (rest, x.after)]) .meet 0 false)

/-- BRX (R265). -/
def execBrx (ctl : Ctl) (sc : Bool) (a : BitVec 8) (s : State) : Out :=
  issue (.brx ctl sc a) s (fun x s =>
    match indirect x s sc a with
    | .error f => .trap f
    | .ok gs =>
      let rest : Word64 := if sc then 0 else x.p.e.mask &&& ~~~x.act
      goGroups x s x.w (if rest == 0 then gs else insertGroup (rest, x.after) gs) .meet 0 sc)

/-- CALL (R171, R264). -/
def execCall (ctl : Ctl) (wide : Bool) (off : BitVec 32) (s : State) : Out :=
  issue (.call ctl wide off) s (fun x s =>
    match relTarget x off with
    | .error f => .trap f
    | .ok t => callGroups x s [(x.act, t)] x.act false)

/-- CALLX (R171, R265). -/
def execCallx (ctl : Ctl) (sc : Bool) (a : BitVec 8) (s : State) : Out :=
  issue (.callx ctl sc a) s (fun x s =>
    match indirect x s sc a with
    | .error f => .trap f
    | .ok gs => callGroups x s gs (if sc then x.p.e.mask else x.act) sc)

/-- Groups that leave a return JOIN: each becomes a path of the enclosing join (R265). -/
def leaveJoin (x : Iss) (w : Wave) (j : Nat) (pred : Option Pred) : List Group → Wave
  | [] => w
  | g :: gs =>
    let q := w.path j
    let w := w.putPath x.id j { q with e := { q.e with mask := q.e.mask &&& ~~~g.1 } }
    match w.freeEntry with
    | some h => leaveJoin x (w.putPath x.id h (x.p.child x.cur.pc q.e.link pred g)) j pred gs
    | none => leaveJoin x w j pred gs

/-- RET (R265): the group that returns to the join of the path reaches it as a MEET at return; that of a handler path only moves. -/
def execRet (ctl : Ctl) (sc : Bool) (a : BitVec 8) (s : State) : Out :=
  issue (.ret ctl sc a) s (fun x s =>
    match indirect x s sc a with
    | .error f => .trap f
    | .ok gs =>
      let j := x.w.path x.p.e.link
      match (if x.p.serves.isNone && x.w.joins x.cur.path && j.e.kind == .ret then gs.find? (fun g => g.2 == j.e.pc) else none) with
      | none => goGroups x s x.w gs .meet 0 sc
      | some g =>
        let others := gs.filter (fun y => y.2 != j.e.pc)
        if decide (x.w.freeCount < others.length) then .trap (deferFull x)
        else
          let pred := x.last s sc
          let w := leaveJoin x x.w x.p.e.link pred others
          let p : Path := { x.p with e := { x.p.e with mask := g.1 }, pred := pred }
          let w := w.putPath x.id x.cur.path (Path.spunTo (p.goesTo j.e.pc) j.e.pc x.cur.pc)
          .moved (x.putWave s (meet 65 w x.id x.cur.path true j.e.pc j.e.pc)))

/-! ### EXIT, MEET, YIELD, NOP, REP (R154, R155, R266, R239, R243) -/

/-- EXIT (R155, R266). -/
def execExit (ctl : Ctl) (s : State) : Out :=
  issue (.exit ctl) s (fun x s =>
    let stays := (x.p.e.mask &&& ~~~x.act) != 0
    let w := if stays then x.w.putPath x.id x.cur.path { x.p with e := { x.p.e with pc := x.after } } else x.w
    .moved (x.putWave s (exitThreads w x.id x.act)))

/-- MEET (R154, R266). -/
def execMeet (ctl : Ctl) (s : State) : Out :=
  issue (.meet ctl) s (fun x s =>
    let w := x.w.setPath x.cur.path { x.p with pred := x.last s false }
    .moved (x.putWave s (meet 65 w x.id x.cur.path false x.cur.pc x.after)))

/-- YIELD n (R266): not eligible for n cycles. -/
def execYield (ctl : Ctl) (n : BitVec 8) (s : State) : Out :=
  issue (.yield ctl n) s (fun x s =>
    let till := s.clk.cycle + n.toNat + 1
    let p := x.p.spun
    let s := x.putWave s (x.w.setPath x.cur.path { p with yieldTo := if n == 0 then 0 else till })
    .done (if n == 0 then s else s.after (n.toNat + 1) (.yieldExpiry x.cur.wave x.cur.path)))

/-- NOP (R243): only its flag and its distance. -/
def execNop (ctl : Ctl) (len : Len) (s : State) : Out := issue (.nop ctl len) s (fun _ s => .done s)

/-- REP (R239): the group begins; the word takes no issue cycle. -/
def execRep (count : BitVec 6) (idst isa isb : BitVec 3) (s : State) : Out :=
  match s.sch.cur with
  | none => .fault .noIssuer
  | some c =>
    match s.wave? c.wave with
    | none => .fault .noIssuer
    | some w =>
      let p := w.path c.path
      .next ((s.setWave c.wave (w.setPath c.path { p with
        rep := some { pos := c.base, count := count.toNat, idst := idst, isa := isa, isb := isb, idx := 0 } })))

/-! ### PFC and MARK (R190, R214, R215, R267) -/

/-- One code line made valid in the frame that serves the core, by a clockless read; a line that would fault, and one
that must wait (log 23), is skipped. -/
def prefetchLine (s : State) (core c : Nat) (p : Word64) : State :=
  match checkAccess s core c p 1 pX .global with
  | .error _ => s
  | .ok (none, _) => s
  | .ok (some x, t) =>
    match combineFirst t x.dev with
    | .wait _ _ => s
    | .fail _ => s
    | .ok _ t =>
      match placeOf none 4 t core c x [] with
      | .ok (.frame fk) t =>
        let pk := if (t.frame fk).kind == .replica then (primaryOf t (fk / 8192) (partOf x.dev)).getD fk else fk
        (match fetchLine t c pk x.dev false with
         | .ok _ t =>
           if pk == fk || (lineAt t fk x.dev).valid then t
           else
             let off := x.dev % 65536 / 128 * 128
             let r := lineAt t pk x.dev
             (t.setFbytes fk off (t.fbytes pk off 128)).setLine (flKey fk (lineIx x.dev))
               { wts := r.wts, rts := r.rts, poison := r.poison, valid := true, state := .r }
         | _ => t)
      | .ok .home t => t
      | _ => s

def prefetchLines (s : State) (core c : Nat) (p : Word64) : Nat → State
  | 0 => s
  | n + 1 => prefetchLines (prefetchLine s core c p) core c (p + 128) n

/-- PFC (R190, R267). -/
def execPfc (ctl : Ctl) (a : BitVec 8) (lines : BitVec 16) (s : State) : Out :=
  issue (.pfc ctl a lines) s (fun x s =>
    let p := (srcX x.w s.sch.free a).1 &&& ~~~127
    .done (prefetchLines s (coreOf x.cur.wave) x.w.ctx p (lines.toNat + 1)))

/-- A trace record (R214). -/
def traceOf (s : State) (wid : Nat) (w : Wave) (block : BitVec 24) : TraceRec where
  ctx := w.ctx
  lo := block.setWidth 64 ||| (BitVec.ofNat 64 wid <<< 24) ||| (match w.team with
    | some t => (BitVec.ofNat 64 t <<< 41) ||| bitAt 55
    | none => 0)
  hi := s.ctxTime w.ctx

/-- MARK (R214, R215, R267). -/
def execMark (ctl : Ctl) (block : BitVec 24) (s : State) : Out :=
  issue (.mark ctl block) s (fun x s =>
    let core := coreOf x.cur.wave
    let on := match s.ctx? x.w.ctx with | some c => bit c.obsCtl 0 | none => false
    let k := s.core core
    if !on then .done s
    else
      let k := if decide (64 ≤ k.traceQ.length) then { k with lostQ := Sp.upd 0 k.lostQ x.w.ctx (· + 1) }
        else { k with traceQ := k.traceQ ++ [traceOf s x.cur.wave x.w block] }
      .done ((s.setCore core k).ensureSoon (.traceRecordWrite core)))

/-! ### Traps (R268 to R270) -/

/-- BKPT n (R269): a DEBUG_STOP record on the parent's ring; once with no effect after a RETRY. -/
def execBkpt (ctl : Ctl) (n : BitVec 8) (s : State) : Out :=
  issueSealed (.bkpt ctl n) s (fun x s =>
    if x.p.noMatch then .done s
    else .trapAt s
      { code := Code.DEBUG_STOP, sub := 2, mask := x.p.e.mask, extra := n.setWidth 64 })

/-- TRAP n (R268). -/
def execTrap (ctl : Ctl) (n : BitVec 8) (s : State) : Out :=
  issueSealed (.trap ctl n) s (fun x s =>
    .trapAt s { code := Code.TRAP, sub := n.toNat, mask := x.act })

/-- RETURN FROM A FAULT (R200, R270): a whole handler frees its entry, its parked path resumes with the action, the
record is DONE, the window count is 0. -/
def trapReturn (x : Iss) (s : State) (action : Nat) : Act :=
  match x.p.serves with
  | none => .trap { code := Code.ILLEGAL, sub := 9, mask := x.p.e.mask }
  | some (k, serial) =>
    if (x.w.path k).e.mask != x.p.e.mask then .trap { code := Code.ILLEGAL, sub := 9, mask := x.p.e.mask }
    else
      let w := { (freeEntryAt x.w x.id x.cur.path) with count := 0 }
      .moved (closeRecord (applyAction (x.putWave s w) x.cur.wave k action) x.w.ctx serial action)

/-- TRET.retry (R270). -/
def execTretRetry (ctl : Ctl) (s : State) : Out := issue (.tretRetry ctl) s (fun x s => trapReturn x s 1)
/-- TRET.skip (R270). -/
def execTretSkip (ctl : Ctl) (s : State) : Out := issue (.tretSkip ctl) s (fun x s => trapReturn x s 2)

/-! ### Special registers (R271 to R273) -/

/-- The value of a special register but %tid. -/
def specialRead (s : State) (c : Cur) (w : Wave) (sel : Nat) : Word64 :=
  let core := coreOf c.wave
  let l := s.lp (lpOf c.wave)
  let nat (n : Nat) : Word64 := BitVec.ofNat 64 n
  match sel with
  | 0x01 => nat w.width
  | 0x02 => nat c.wave
  | 0x03 => nat c.path
  | 0x04 => nat (core % 32)
  | 0x05 => nat (core / 32)
  | 0x06 => s.dev.devId.setWidth 64
  | 0x07 => nat w.ctx
  | 0x08 => nat w.index
  | 0x10 => s.ctxTime w.ctx
  | 0x11 => nat (ptsOf s core w.ctx) + (match s.ctx? w.ctx with | some x => x.conf.toff | none => 0)
  | 0x12 => nat s.clk.cycle
  | 0x13 => if (w.path c.path).serves.isSome then (w.path c.path).trec else 0
  | 0x18 => w.fstat.setWidth 64
  | 0x24 => w.cprog.setWidth 64
  | 0x5C => l.idleAt s.clk.cycle
  | 0x5D => l.slip
  | n =>
    if 0x20 ≤ n && n < 0x24 then (Sp.get 0 (s.core core).mprog (n - 0x20)).setWidth 64
    else if 0x40 ≤ n && n ≤ 0x50 then Sp.get 0 l.hist (n - 0x40)
    else if 0x51 ≤ n && n ≤ 0x5B then Sp.get 0 l.stall (n - 0x50)
    else 0

/-- SRD (R271). -/
def execSrd (ctl : Ctl) (sc w64 : Bool) (d sel : BitVec 8) (s : State) : Out :=
  issue (.srd ctl sc w64 d sel) s (fun x s =>
    let v (t : Nat) : Word64 := if sel == 0 then BitVec.ofNat 64 t else specialRead s x.cur x.w sel.toNat
    let ws := (lanesOf sc x.act).flatMap (fun t =>
      if w64 then dst64 sc d t (v t, false) else dst32 sc d t ⟨(v t).setWidth 32, false⟩)
    .done (s.updWave x.cur.wave (fun w => w.writes x.id ws)))

/-- A progress register in whose operation something still runs (R173, R273). -/
def progBusy (v : Word32) : Bool := bit v 31 && !bit v 30

/-- SWR (R273); it waits until the operation it describes runs no more, and a 0 abandons one that is stopped. -/
def execSwr (ctl : Ctl) (w64 : Bool) (sel a : BitVec 8) (s : State) : Out :=
  issue (.swr ctl w64 sel a) s (fun x s =>
    let free := s.sch.free
    let v : Word64 := if w64 then (srcX x.w free a).1 else (srcS x.w free a).val.setWidth 64
    let v32 : Word32 := v.setWidth 32
    let core := coreOf x.cur.wave
    let k := s.core core
    let lp := lpOf x.cur.wave
    let l := s.lp lp
    let n := sel.toNat
    if n == 0x18 then .done (s.updWave x.cur.wave (fun w => { w with fstat := v32 &&& 0x3F }))
    else if n == 0x24 then
      if progBusy x.w.cprog then .stall 2
      else
        let s := s.updWave x.cur.wave (fun w => { w with cprog := v32 &&& 0xC0FFFFFF })
        .done (if v32 &&& 0xC0FFFFFF == 0 then abandonCopy s x.cur.wave else s)
    else if 0x20 ≤ n && n < 0x24 then
      if progBusy (Sp.get 0 k.mprog (n - 0x20)) then .stall 2
      else
        let s := s.setCore core { k with mprog := Sp.put 0 k.mprog (n - 0x20) (v32 &&& 0xC00FFFFF) }
        .done (if v32 &&& 0xC00FFFFF == 0 then abandonArr s core x.w.ctx (n - 0x20) else s)
    else if 0x40 ≤ n && n ≤ 0x50 then .done (s.setLp lp { l with hist := Sp.put 0 l.hist (n - 0x40) v })
    else if 0x51 ≤ n && n ≤ 0x5B then .done (s.setLp lp { l with stall := Sp.put 0 l.stall (n - 0x50) v })
    else if n == 0x5C then .done (s.setLp lp (l.setIdle s.clk.cycle v))
    else if n == 0x5D then .done (s.setLp lp { l with slip := v })
    else .done s)

/-! ### Trampolines (R237, R352) -/

/-- TRAMP and TRAMPRET: the whole path moves to what entry n names. -/
def trampoline (x : Iss) (s : State) (n : Nat) (back : Bool) : Act :=
  let fail (sub : Nat) : Act :=
    .trap { code := Code.TRAMP_RANGE, sub := sub + (if back then 2 else 0), mask := x.act,
            extra := BitVec.ofNat 64 n }
  match s.ctx? x.w.ctx with
  | none => fail 1
  | some c =>
    if c.conf.trampn ≤ n then fail 1
    else
      let p := c.conf.trampt + BitVec.ofNat 64 (16 * n)
      match readOrdered s x.cur.wave x.w x.cur.path p 16 pR with
      | .wait t r => .waits t r 4
      | .fail f => .trap { f with mask := x.act }
      | .ok (bs, pz) t =>
        match ownStop x s true false p 16 with
        | some b => breakStop x s b
        | none =>
        let tgt : Word64 := BitVec.ofNat 64 (fieldAt bs 0 8)
        let rv : Word64 := BitVec.ofNat 64 (fieldAt bs 8 8)
        let ret : Word64 := rv &&& ~~~7
        if pz then .trap { code := Code.POISON_USE, mask := x.act, addr := p }
        else if bits rv 0 3 != 1 || bits tgt 52 12 != 0 || bits ret 52 12 != 0 || (!back && bits tgt 0 3 != 0) then
          fail 2
        else .moved (x.putWave t (jumpTo x x.w (if back then ret else tgt)))

/-- TRAMP n (R237). -/
def execTramp (ctl : Ctl) (n : BitVec 24) (s : State) : Out :=
  issue (.tramp ctl n) s (fun x s => trampoline x s n.toNat false)
/-- TRAMPRET n (R237). -/
def execTrampret (ctl : Ctl) (n : BitVec 24) (s : State) : Out :=
  issue (.trampret ctl n) s (fun x s => trampoline x s n.toNat true)

end Sys2Proof.Machine
end

