-- ==== Sys2Proof/Machine/Cross.lean ====
section
/-!
DEFINITION. Wave instructions: VOTE, SHFL, WRED, WSCAN and BCAST over the threads of a wave (R156, R157, R275 to R277),
SPLIT and FUSE (R158 to R161, R274), GROW and SHRINK (R166).
-/

namespace Sys2Proof.Machine

/-! ### Reading across threads -/

/-- A thread's register as another thread sees it. An active thread of the path reads it as any instruction does (R16); of an inactive
one, where an operation still pends, it is the old value or the new one with its tag (R156, R157). An access that is not performed
has no new value yet: the register holds the old one (log 5). -/
def crossRead (w : Wave) (free : Nat) (act : Word64) (r t : Nat) : VWord :=
  if has act t then w.readV free r t
  else
    match (w.pend.flatMap (fun (p : Pend) => p.writes)).find? (fun (y : RegW) => y.key == vKey r t) with
    | some (RegW.v _ _ x) => if Config.freeChoice free (vKey r t) then w.v r t else x
    | _ => w.v r t

/-- The active threads below the wave's width. -/
def takingPart (x : Iss) : List Nat := threads x.act

/-- A cross-thread instruction: its results are written at most 8 cycles after its last thread pair (R263). -/
def crossOp (i : Instr) (f : Iss → Nat → List RegW × Word32) (s : State) : Out :=
  issue i s (fun x s =>
    let r := f x s.sch.free
    .later (landLater x i (crossCycles s) r.1 r.2 s))

/-! ### VOTE (R275) -/

def voteMask (w : Wave) (free : Nat) (a : BitVec 8) (ts : List Nat) : Word64 :=
  maskOf (ts.filter (fun t => (w.readP free a.toNat t).val))

/-- VOTE. -/
def execVote (ctl : Ctl) (mode : VoteMode) (ds : Bool) (d a : BitVec 8) (s : State) : Out :=
  crossOp (.vote ctl mode ds d a) (fun x free =>
    let ts := takingPart x
    let m := voteMask x.w free a ts
    let pz := ts.any (fun t => (x.w.readP free a.toNat t).poison)
    let yes : Bool := match mode with
      | .any => m != 0
      | .all => m == x.act
      | .ballot => true
    (if mode == .ballot then (if ds then wX d.toNat m pz else ts.flatMap (fun t => wW d.toNat t m pz))
     else if ds then [.s d.toNat ⟨if yes then 1 else 0, pz⟩]
     else ts.map (fun t => .p d.toNat t ⟨yes, pz⟩), 0)) s

/-! ### SHFL and BCAST (R276) -/

/-- The source thread of SHFL. -/
def shflFrom (mode : ShflMode) (width t b : Nat) : Nat :=
  match mode with
  | .idx => b % width
  | .up => (t + width - b % width) % width
  | .down => (t + b) % width
  | .xor => (t ^^^ b) % width

/-- SHFL. -/
def execShfl (ctl : Ctl) (mode : ShflMode) (d a : BitVec 8) (b : Src) (s : State) : Out :=
  crossOp (.shfl ctl mode d a b) (fun x free =>
    ((takingPart x).map (fun t =>
      let n := src32 x.w free false t b
      let v := crossRead x.w free x.act a.toNat (shflFrom mode x.w.width t n.val.toNat)
      .v d.toNat t ⟨v.val, v.poison || n.poison⟩), 0)) s

/-- BCAST. -/
def execBcast (ctl : Ctl) (ds : Bool) (d a : BitVec 8) (b : Src) (s : State) : Out :=
  crossOp (.bcast ctl ds d a b) (fun x free =>
    let n := src32 x.w free false 0 b
    let v := crossRead x.w free x.act a.toNat (n.val.toNat % x.w.width)
    let r : VWord := ⟨v.val, v.poison || n.poison⟩
    (if ds then [.s d.toNat r] else (takingPart x).map (fun t => .v d.toNat t r), 0)) s

/-! ### WRED and WSCAN (R277) -/

/-- The identity of an operation (R156). -/
def redIdentity (op : RedOp) (sgn : Bool) : Word32 :=
  match op with
  | .add | .or | .xor => 0
  | .and => 0xFFFFFFFF
  | .min => if sgn then 0x7FFFFFFF else 0xFFFFFFFF
  | .max => if sgn then 0x80000000 else 0
  | .fadd => 0x80000000

/-- A value on its way through a reduction: word, poison, status bits. -/
structure RedVal where
  w    : VWord
  stat : Word32 := 0
  deriving DecidableEq, Repr

/-- a ⊕ b. -/
def redStep (op : RedOp) (sgn : Bool) (a b : RedVal) : RedVal :=
  let x := a.w.val
  let y := b.w.val
  let less : Bool := if sgn then decide (x.toInt ≤ y.toInt) else decide (x.toNat ≤ y.toNat)
  let r : Word32 × Word32 := match op with
    | .add => (x + y, 0)
    | .min => (if less then x else y, 0)
    | .max => (if less then y else x, 0)
    | .and => (x &&& y, 0)
    | .or => (x ||| y, 0)
    | .xor => (x ^^^ y, 0)
    | .fadd => (let f := fAddR .f32 .rn (f32 x) (f32 y); (w32 f.code, f.flags))
  let pz := a.w.poison || b.w.poison
  ⟨⟨r.1, pz⟩, a.stat ||| b.stat ||| quiet pz r.2⟩

/-- The inputs of a reduction, thread 0 first. -/
def redInputs (x : Iss) (free : Nat) (op : RedOp) (sgn : Bool) (a : BitVec 8) : List RedVal :=
  (List.range x.w.width).map (fun t =>
    if has x.act t then ⟨x.w.readV free a.toNat t, 0⟩ else ⟨⟨redIdentity op sgn, false⟩, 0⟩)

/-- One level of the tree: neighbours are combined in pairs. -/
def redLevel (op : RedOp) (sgn : Bool) : List RedVal → List RedVal
  | a :: b :: l => redStep op sgn a b :: redLevel op sgn l
  | l => l

/-- The tree of R277: level l combines the elements 2^l apart. -/
def redTree (op : RedOp) (sgn : Bool) : Nat → List RedVal → List RedVal
  | 0, l => l
  | n + 1, l => redTree op sgn n (redLevel op sgn l)

/-- WRED. -/
def execWred (ctl : Ctl) (op : RedOp) (sgn ds : Bool) (d a : BitVec 8) (s : State) : Out :=
  crossOp (.wred ctl op sgn ds d a) (fun x free =>
    let r : RedVal := ((redTree op sgn 6 (redInputs x free op sgn a)).head?).getD ⟨{}, 0⟩
    (if ds then [.s d.toNat r.w] else (takingPart x).map (fun t => .v d.toNat t r.w), r.stat)) s

/-- Running results of a scan. -/
def scanFrom (op : RedOp) (sgn : Bool) (acc : RedVal) : List RedVal → List RedVal
  | [] => []
  | b :: l =>
    let r := redStep op sgn acc b
    r :: scanFrom op sgn r l

/-- inc of R277. -/
def scanAll (op : RedOp) (sgn : Bool) : List RedVal → List RedVal
  | [] => []
  | a :: l => a :: scanFrom op sgn a l

/-- WSCAN. -/
def execWscan (ctl : Ctl) (op : RedOp) (sgn excl : Bool) (d a : BitVec 8) (s : State) : Out :=
  crossOp (.wscan ctl op sgn excl d a) (fun x free =>
    let unit : RedVal := ⟨⟨redIdentity op sgn, false⟩, 0⟩
    let inc := scanAll op sgn (redInputs x free op sgn a)
    let at_ (t : Nat) : RedVal := if excl then (if t == 0 then unit else inc.getD (t - 1) unit) else inc.getD t unit
    let ts := takingPart x
    (ts.map (fun t => .v d.toNat t (at_ t).w), (inc.getLast?.getD unit).stat)) s

/-! ### SPLIT (R158, R159) -/

/-- The part of a sparse register file for the threads of one half. -/
def halfRegs {α : Type} (m : List (Nat × α)) (half : Nat) (upper : Bool) : List (Nat × α) :=
  (m.filter (fun x => if upper then decide (half ≤ x.1 % 64) else decide (x.1 % 64 < half))).map
    (fun x => (if upper then x.1 - half else x.1, x.2))

/-- A mask for one half. -/
def halfMask (m : Word64) (half : Nat) (upper : Bool) : Word64 :=
  let low : Word64 := (1#64 <<< half) - 1
  (if upper then m >>> half else m) &&& low

/-- Is a PATH linked to an entry, directly or through joins? -/
def underJoin : Nat → List Path → Nat → Nat → Bool
  | 0, _, _, _ => false
  | n + 1, ps, k, j => if k == 31 then false else if k == j then true else underJoin n ps (ps.getD k {}).e.link j

/-- A path table for one half: an empty PATH, and a JOIN left with no PATH, is freed (R159). -/
def halfPaths (ps : List Path) (half : Nat) (upper : Bool) : List Path :=
  let ps := ps.map (fun (p : Path) =>
    let q : Path :=
      { p with e := { p.e with mask := halfMask p.e.mask half upper }, fetching := none, eligible := 0, urgentAt := none,
               poll := p.poll.map (fun (o : Poll) => { o with mask := halfMask o.mask half upper }) }
    if q.e.kind == .path && q.e.mask == 0 then {} else q)
  ps.zipIdx.map (fun (y : Path × Nat) =>
    if (y.1.e.kind == .meet || y.1.e.kind == .ret) &&
        !ps.any (fun q => q.e.kind == .path && underJoin 16 ps q.e.link y.2) then {} else y.1)

/-- The thread of a half that a thread becomes. -/
def halfThread (half : Nat) (upper : Bool) (t : Nat) : Option Nat :=
  if upper then (if half ≤ t then some (t - half) else none) else if t < half then some t else none

/-- A write on its way, for one half. -/
def RegW.half (half : Nat) (upper : Bool) : RegW → Option RegW
  | .v r t x => (halfThread half upper t).map (fun u => .v r u x)
  | .p r t x => (halfThread half upper t).map (fun u => .p r u x)
  | .s r x => some (.s r x)

/-- A register key, for one half. -/
def halfKey (half : Nat) (upper : Bool) (k : Nat) : Option Nat :=
  if 0x100000 ≤ k && decide (k < 0x200000) then some k
  else (halfThread half upper (k % 64)).map (fun u => k - k % 64 + u)

/-- One half of a wave: its threads' registers, what is on its way to them, their paths and deferral records. -/
def halfWave (w : Wave) (upper : Bool) : Wave :=
  let half := w.width / 2
  let w : Wave := { w with
    width := half, vregs := halfRegs w.vregs half upper, preds := halfRegs w.preds half upper,
    pend := w.pend.map (fun (p : Pend) => { p with writes := p.writes.filterMap (RegW.half half upper) }),
    raced := w.raced.filterMap (fun y => (halfKey half upper y.1).map (fun k => (k, y.2))),
    paths := halfPaths w.paths half upper,
    defer := (w.defer.map (fun d => { d with mask := halfMask d.mask half upper })).filter (fun d => d.mask != 0) }
  sweepJoins w w.seq (List.range 16)

/-- The runs of one half: half of the one run, or half of the runs of a fused wave (R146, R159). -/
def halfRuns (rs : List (Nat × Nat)) (upper : Bool) : List (Nat × Nat) :=
  match rs with
  | [(o, n)] => [(if upper then o + n / 2 else o, n / 2)]
  | _ => if upper then rs.drop (rs.length / 2) else rs.take (rs.length / 2)

/-- The slot pair a SPLIT takes: its own when the other slot is free, else the lowest free pair. -/
def splitPair (s : State) (wid : Nat) : Option Nat :=
  if (s.wave? (buddyOf wid)).isNone then some (wid % 16 / 2 * 2) else freePair s (lpOf wid)

/-- Rows 1 to 3 of R158, with the new wave's area. -/
def splitStatus (s : State) (wid : Nat) (w : Wave) : Nat × Option (Nat × List (Nat × Nat)) :=
  let size := areaBytes s w.ctx (unitsFor (w.width / 2) w.budget)
  if w.width == 4 then (2, none)
  else if w.paths.any (fun p => p.e.kind == .path && (p.parked || p.serves.isSome)) then (4, none)
  else match splitPair s wid, fitAreas s (coreOf wid) w.ctx size (areasOf s (coreOf wid) w.ctx) 1 with
    | some k, some a => (0, some (k, a))
    | _, _ => (3, none)

/-- Copies and contributions of a wave whose id changes (log 21). -/
def renameCopies (s : State) (old new : Nat) : State :=
  { s with copies := s.copies.map (fun (c : Copy) => if c.owner == old then { c with owner := new } else c),
           colls := s.colls.map (fun (c : Collective) => { c with
             froms := c.froms.map (fun (g : Given) => if g.wave == old then { g with wave := new } else g) }) }

/-- The steps that bring a wave's results, for the waves that have them now, with their issue numbers there; so are they named by the
instructions that still issue thread pairs. -/
def moveResults (s : State) (old : Nat) (news : Nat → List (Nat × Nat)) : State :=
  let there (i : Instr) : List Instr := match i with
    | .resultWritten w id => if w == old then (news id).map (fun y => .resultWritten y.1 y.2) else [i]
    | _ => [i]
  let l := s.lp (lpOf old)
  let s := s.setLp (lpOf old) { l with prog := l.prog.map (fun b =>
    { b with names := b.names.flatMap (fun y => if y.1 == old then news y.2 else [y]) }) }
  { s with sch := { s.sch with agenda := s.sch.agenda.flatMap there,
                               timers := s.sch.timers.flatMap (fun t => (there t.ev).map (fun e => { t with ev := e })) } }

/-- The new wave belongs to the launch of the old one, and to its team. -/
def joinSplit (s : State) (old lower upper : Nat) (w : Wave) : State :=
  let s := renameCopies (moveResults s old (fun id => [(lower, id), (upper, id)])) old lower
  let polls := (List.range 16).filter (fun i => (w.path i).poll.isSome)
  let s := polls.foldl (fun s i => (s.soon (.pollRecheck lower i)).soon (.pollRecheck upper i)) s
  let s := s.updJob w.ctx w.job (fun j => { j with alive := j.alive + 1 })
  let k := s.core (coreOf upper)
  match w.team with
  | some t => s.setCore (coreOf upper) { k with teams := k.teams.map (fun y =>
      if y.1 == t % 64 then (y.1, { y.2 with members := y.2.members.filter (· != lower) ++ [lower, upper] }) else y) }
  | none => s

/-- A wave's id in its team and in the core's queues, when its slot changes. -/
def renameMember (s : State) (old new : Nat) : State :=
  let k := s.core (coreOf old)
  s.setCore (coreOf old) { k with
    teams := k.teams.map (fun y => (y.1, { y.2 with members := y.2.members.map (fun m => if m == old then new else m) })),
    launches := k.launches.map (fun (h : HeldLaunch) => if h.wave == old then { h with wave := new } else h),
    arrayQ := k.arrayQ.map (fun (o : ArrOp) => if o.wave == old then { o with wave := new } else o),
    scope := k.scope.map (fun (r : Request) => if r.wave == old then { r with wave := new } else r) }

/-- An armed step of the splitting path fires in both waves (R222). -/
def splitStep (x : Iss) (s : State) (lower : Nat) : State :=
  if armedAt s x.cur x.w then
    let half := x.w.width / 2
    stepStop (stepStop (disarm s x.w.ctx) lower (halfMask x.p.e.mask half false) x.cur.pc (List.range 16))
      (lower + 1) (halfMask x.p.e.mask half true) x.cur.pc (List.range 16)
  else s

/-- SPLIT (R158, R159, R274). The upper wave starts without a copy program, the lower one keeps it (log 21). -/
def execSplit (ctl : Ctl) (d : BitVec 8) (s : State) : Out :=
  issue (.split ctl d) s (fun x s =>
    let wid := x.cur.wave
    match splitStatus s wid x.w with
    | (_, some (k, area)) =>
      let here := x.w.setPath x.cur.path { x.p with e := { x.p.e with pc := x.after }, pred := x.last s true }
      let base := lpOf wid * 16 + k
      let lower := { (halfWave here false) with runs := halfRuns x.w.runs false, seq := x.w.seq + 1,
                                                areas := x.w.areas.take (max 1 (x.w.areas.length / 2)) }
      let upper := { (halfWave here true) with runs := halfRuns x.w.runs true, areas := area, seq := x.w.seq + 1,
                                               also := [], cprog := 0, copyOp := none }
      let s := renameMember (dropLatch (s.dropWave wid) wid) wid base
      let s := (s.setWave base (lower.poke (wS d.toNat 0))).setWave (base + 1) (upper.poke (wS d.toNat 1))
      .moved (splitStep x (joinSplit s wid base (base + 1) lower) base)
    | (st, none) => .done (s.updWave wid (fun w => w.write x.id (wS d.toNat (BitVec.ofNat 32 st)))))

/-! ### FUSE (R160, R161) -/

/-- A FUSE ends with a status: its path goes on, and an armed step of it fires (R222). -/
def endFuse (s : State) (wid status : Nat) : State :=
  match (s.wave? wid).bind (fun w => w.fuse.map (fun f => (w.ctx, f.path))) with
  | none => s
  | some (ctx, i) =>
  let s := lateRoll s ctx wid i
  match s.wave? wid with
  | none => s
  | some w =>
    match w.fuse with
    | none => s
    | some f =>
      let p := w.path f.path
      let w := { w with fuse := none }
      let w := w.setPath f.path { p with e := { p.e with pc := f.after, state := p.rest }, reason := 0 }
      fireStepAt (s.setWave wid ((w.poke (wS f.dst (BitVec.ofNat 32 status))).clearFlag f.req)) w.ctx wid f.path p.e.mask f.pc

/-- FUSE_TIMEOUT: row 5 of R160, by time or because the buddy can no longer issue one. -/
def fuseExpire (s : State) (wid req : Nat) : State :=
  match s.wave? wid with
  | none => s
  | some w =>
    match w.fuse with
    | none => s
    | some f =>
      if f.req != req then s
      else if unfitBuddy s (buddyOf wid) then endFuse s wid 8
      else if f.deadline ≤ s.clk.tick then endFuse s wid 2
      else s

/-- The scalar registers of a check operand differ (R274); each wave's are read as any instruction reads them (R16). -/
def checksDiffer (a b : Wave) (free r : Nat) : Nat → Bool
  | 0 => false
  | n + 1 =>
    let u := a.readS free (r + n)
    let v := b.readSOf free (r + n)
    checksDiffer a b free r n || u.val != v.val || u.poison || v.poison

/-- Rows 6 to 9 of R160. -/
def fuseStatus (a b : Wave) (free sa n : Nat) : Nat :=
  let single (w : Wave) : Bool := decide ((w.paths.filter (fun p => p.e.kind != .free)).length = 1) && w.defer.isEmpty
  if !single a || !single b || checksDiffer a b free sa n then 3
  else if a.budget != b.budget then 4
  else if a.team != b.team then 7
  else 0

/-- The registers of the odd-slot wave as threads W + i. -/
def shiftRegs {α : Type} (m : List (Nat × α)) (n : Nat) : List (Nat × α) :=
  (m.filter (fun x => decide (x.1 % 64 < n))).map (fun x => (x.1 + n, x.2))

/-- Two collections in one: what the second lists, and else what the first does. -/
def mergeRegs {α : Type} (a b : List (Nat × α)) : List (Nat × α) := b.foldr (fun x m => Sp.insert m x.1 x.2) a

/-- What the odd-slot wave still has on its way to its threads, under issue numbers of the fused wave; its scalars go (R161). -/
def fusePend (o : Wave) (n base : Nat) : List Pend :=
  o.pend.map (fun (p : Pend) =>
    let ws : List RegW := p.writes.filterMap (fun (y : RegW) => match y with
      | RegW.v r t x => some (RegW.v r (t + n) x)
      | RegW.p r t x => some (RegW.p r (t + n) x)
      | RegW.s _ _ => none)
    { p with id := base + p.id, writes := ws })

/-- The first issue number of a fused wave that neither wave has used. -/
def fuseSeq (e o : Wave) : Nat := max e.seq o.seq + 1

/-- The fused wave (R161): `pe` and `po` are the paths, `next` where it goes on, `dst` the status register. It shows the even-slot
wave's %launch and %cprog (log 21). -/
def fuseWaves (e o : Wave) (pe po : Nat) (next : Word64) (dst : Nat) (pred : Option Pred) : Wave :=
  let p := e.path pe
  let q := o.path po
  let base := fuseSeq e o
  let w : Wave := { e with
    width := 2 * e.width, age := min e.age o.age, fstat := e.fstat ||| o.fstat, keyPc := 0, keyPath := 0, count := 0,
    vregs := mergeRegs (halfRegs e.vregs e.width false) (shiftRegs o.vregs e.width),
    preds := mergeRegs (halfRegs e.preds e.width false) (shiftRegs o.preds e.width),
    runs := e.runs ++ o.runs, areas := e.areas ++ o.areas, fuse := none, seq := 2 * base, owed := [],
    pend := e.pend ++ fusePend o e.width base,
    raced := e.raced ++ (o.raced.filter (fun y => !(decide (0x100000 ≤ y.1) && decide (y.1 < 0x200000)))).map
      (fun y => (y.1 + e.width, base + y.2)),
    also := e.also ++ [(o.job, o.index)] ++ o.also }
  (w.setPath pe { p with e := { p.e with mask := p.e.mask ||| (q.e.mask <<< e.width), pc := next, state := .ready },
                         pred := laterPred pred (laterPred p.pred q.pred), reason := 0 }).poke (wS dst 0)

/-- A member leaves its team's list because it is fused (R161). -/
def leaveFused (s : State) (wid : Nat) : State :=
  let k := s.core (coreOf wid)
  s.setCore (coreOf wid) { k with teams := k.teams.map (fun y =>
    (y.1, { y.2 with members := y.2.members.filter (· != wid) })) }

/-- An armed step of a path that has become path pe of the fused wave ev fires (R222). -/
def fuseStep (s : State) (ctx wid i ev pe : Nat) (pc : Word64) : State :=
  match s.ctx? ctx, s.wave? ev with
  | some c, some w =>
    if stepArmed c wid i then
      stepStop (disarm s ctx) ev (w.path pe).e.mask pc (List.range 16)
    else s
  | _, _ => s

/-- The two waves become one, with all that names the odd-slot one. -/
def joinFused (s : State) (ev od : Nat) (w : Wave) (base : Nat) : State :=
  let s := (leaveFused (dropLatch (dropLatch (s.dropWave od) od) ev) od).setWave ev w
  renameCopies (renameMember (moveResults s od (fun id => [(ev, base + id)])) od ev) od ev

/-- FUSE (R160, R161, R274). -/
def execFuse (ctl : Ctl) (d a n : BitVec 8) (s : State) : Out :=
  issue (.fuse ctl d a n) s (fun x s =>
    let wid := x.cur.wave
    let bid := buddyOf wid
    let status (k : Nat) : Act := .done (s.updWave wid (fun w => w.write x.id (wS d.toNat (BitVec.ofNat 32 k))))
    if x.w.unperformed then status 6
    else if x.w.width == 64 then status 5
    else if unfitBuddy s bid then status 8
    else match s.wave? bid with
      | none => status 8
      | some b =>
        if b.width != x.w.width || b.ctx != x.w.ctx then status 1
        else match b.fuse with
          | none =>
            let f : FuseWait := { path := x.cur.path, pc := x.cur.pc, after := x.after, dst := d.toNat, sa := a.toNat,
                                  n := n.toNat, req := x.id, deadline := s.clk.tick + 256 }
            let w := { x.w with fuse := some f }
            let w := w.setPath x.cur.path { x.p with e := { x.p.e with state := .counting } }
            .movedLater ((x.putWave s w).afterTicks 256 (.fuseTimeout wid x.id))
          | some f =>
            if f.pc != x.cur.pc then
              (let s := endFuse s bid 2
               .done (s.updWave wid (fun w => w.write x.id (wS d.toNat 2))))
            else
              match fuseStatus x.w b s.sch.free a.toNat n.toNat with
              | 0 =>
                if b.unperformed || !(b.owed.all (fun o => o.id == f.req)) then .stall 5
                else
                  let even := decide (wid % 2 = 0)
                  let w := if even then fuseWaves x.w b x.cur.path f.path x.after d.toNat (x.last s true)
                    else fuseWaves b x.w f.path x.cur.path x.after f.dst (x.last s true)
                  let ev := if even then wid else bid
                  let od := if even then bid else wid
                  let pe := if even then x.cur.path else f.path
                  let s := joinFused s ev od w (fuseSeq x.w b)
                  let s := fuseStep s x.w.ctx bid f.path ev pe x.cur.pc
                  .moved (if even then s else fuseStep s x.w.ctx wid x.cur.path ev pe x.cur.pc)
              | k =>
                let s := endFuse s bid k
                .done (s.updWave wid (fun w => w.write x.id (wS d.toNat (BitVec.ofNat 32 k)))))

/-! ### GROW and SHRINK (R166) -/

/-- GROW. -/
def execGrow (ctl : Ctl) (n : Src) (s : State) : Out :=
  issue (.grow ctl n) s (fun x s =>
    match growWave s x.cur.wave (src32 x.w s.sch.free true 0 n).val.toNat x.p.e.mask with
    | .fault f => .trap f
    | .blocked s => .stallAt s 10
    | .done s => .done s)

/-- SHRINK. -/
def execShrink (ctl : Ctl) (n : Src) (s : State) : Out :=
  issue (.shrink ctl n) s (fun x s =>
    let n := roundUp (src32 x.w s.sch.free true 0 n).val.toNat 8
    let b := max 8 (min n x.w.budget)
    if x.w.budget ≤ b then .done s
    else
      let u := unitsFor x.w.runWidth b
      .done (s.updWave x.cur.wave (fun w => { (w.dropRegs b) with budget := b, runs := w.runs.map (fun r => (r.1, u)) })))

end Sys2Proof.Machine
end

