-- ==== Sys2Proof/Machine/Memory.lean ====
section
/-!
DEFINITION. Memory instructions (R285 to R296), barrier objects and counters (R298 to R304): what each access carries
when it issues, and the polls of BWAIT and WAITGE. What an access does when it is performed is laneOp (Window.lean).
-/

namespace Sys2Proof.Machine

/-! ### Pointers and data of the threads -/

/-- The pointer of thread t with its offset: address and poison (R285, R287). -/
def ptrOf (w : Wave) (free : Nat) (sc : Bool) (r : BitVec 8) (off : BitVec 32) (t : Nat) : Word64 × Bool :=
  let p := if sc then w.readX free r.toNat else w.readW free r.toNat t
  (p.1 + off.signExtend 64, p.2)

/-- k consecutive registers from r of thread t, the lowest first, and their joint poison. -/
def regWords (w : Wave) (free : Nat) (sc : Bool) (r t : Nat) : Nat → List VWord
  | 0 => []
  | k + 1 => (if sc then w.readS free r else w.readV free r t) :: regWords w free sc (r + 1) t k

def joinWords (l : List VWord) : BitVec 128 × Bool :=
  (BitVec.ofNat 128 (leNat (l.flatMap (fun v => leBytes v.val.toNat 4))), l.any (·.poison))

/-- Registers that a transfer of a size names (R286). -/
def sizeRegs : MSize → Nat
  | .n128 => 4
  | .n64 => 2
  | _ => 1

/-- The lanes of an instruction, one for each acting thread. -/
def lanesBy (x : Iss) (sc : Bool) (f : Nat → Lane) : List Lane := (lanesOf sc x.act).map f

/-- The lane of a load. -/
def loadLane (x : Iss) (free : Nat) (o : Mem) (t : Nat) : Lane :=
  let p := ptrOf x.w free o.s o.ptr o.off t
  { tid := t, ptr := p.1, pointer := p.2 }

/-- The lane of a store of k registers. -/
def storeLane (x : Iss) (free : Nat) (o : Mem) (k t : Nat) : Lane :=
  let p := ptrOf x.w free o.s o.ptr o.off t
  let d := joinWords (regWords x.w free o.s o.dst.toNat t k)
  { tid := t, ptr := p.1, pointer := p.2, d0 := d.1, poison := d.2 }

/-! ### Loads and stores (R285 to R289) -/

/-- LD (R287). -/
def execLd (sz : MSize) (o : Mem) (s : State) : Out :=
  issue (.ld sz o) s (fun x s => issueAccess (.ld sz o) x s (lanesBy x o.s (loadLane x s.sch.free o)))
/-- LDL (R287). -/
def execLdl (sz : MSize) (o : Mem) (s : State) : Out :=
  issue (.ldl sz o) s (fun x s => issueAccess (.ldl sz o) x s (lanesBy x o.s (loadLane x s.sch.free o)))
/-- ST (R287). -/
def execSt (sz : MSize) (o : Mem) (s : State) : Out :=
  issue (.st sz o) s (fun x s => issueAccess (.st sz o) x s (lanesBy x o.s (storeLane x s.sch.free o (sizeRegs sz))))
/-- STL (R287). -/
def execStl (sz : MSize) (o : Mem) (s : State) : Out :=
  issue (.stl sz o) s (fun x s => issueAccess (.stl sz o) x s (lanesBy x o.s (storeLane x s.sch.free o (sizeRegs sz))))

/-- PRF (R289): n lines for each thread, from its line upwards. -/
def execPrf (n : BitVec 3) (o : Mem) (s : State) : Out :=
  issue (.prf n o) s (fun x s =>
    let lanes := (lanesOf o.s x.act).flatMap (fun t =>
      let p := ptrOf x.w s.sch.free o.s o.ptr o.off t
      (List.range (n.toNat + 1)).map (fun i =>
        ({ tid := t, ptr := (p.1 &&& ~~~127) + BitVec.ofNat 64 (128 * i), pointer := p.2 } : Lane)))
    issueAccess (.prf n o) x s lanes)

/-! ### Atomics (R290, R291) -/

/-- A value operand of an atomic. -/
def atomVal (x : Iss) (free : Nat) (o : Atm) (v : Src) (t : Nat) : Word64 × Bool :=
  if o.wide then src64 x.w free o.s t false v
  else (let a := src32 x.w free o.s t v; (a.val.setWidth 64, a.poison))

def atomLane (x : Iss) (free : Nat) (o : Atm) (cas : Bool) (t : Nat) : Lane :=
  let p := ptrOf x.w free o.s o.ptr 0 t
  let a := atomVal x free o o.val t
  let b := if cas then atomVal x free o o.new t else (0, false)
  { tid := t, ptr := p.1, pointer := p.2, d0 := a.1.setWidth 128, d1 := b.1, poison := a.2 || b.2 }

/-- ATOM (R291). -/
def execAtom (op : AOp) (sgn noret : Bool) (o : Atm) (s : State) : Out :=
  issue (.atom op sgn noret o) s (fun x s =>
    issueAccess (.atom op sgn noret o) x s (lanesBy x o.s (atomLane x s.sch.free o false)))
/-- CAS (R291). -/
def execCas (o : Atm) (s : State) : Out :=
  issue (.cas o) s (fun x s => issueAccess (.cas o) x s (lanesBy x o.s (atomLane x s.sch.free o true)))

/-! ### Commutative ranges, LEASE and FENCE (R292 to R296) -/

/-- CADD (R295). -/
def execCadd (op : COp) (o : Mem) (s : State) : Out :=
  issue (.cadd op o) s (fun x s => issueAccess (.cadd op o) x s (lanesBy x o.s (storeLane x s.sch.free o 1)))

/-- The status of a CRANGE (R294). -/
def rangeStatus (c : Ctx) (slot : Nat) (r : CRange) : Nat :=
  let others := c.cranges.filter (fun y => y.1 != slot)
  let meets (a n b m : Nat) : Bool := decide (a < b + m) && decide (b < a + n)
  if !globalAt r.base 128 then 1
  else if r.len == 0 then 0
  else if r.len % 128 != 0 || decide (0x100000 < r.len) then 2
  else if r.poff % 128 != 0 || decide (c.conf.lstatic < r.poff + partialBytes r) then 3
  else if others.any (fun y => meets r.base.toNat r.len y.2.base.toNat y.2.len) then 4
  else if others.any (fun y => meets r.poff (partialBytes r) y.2.poff (partialBytes y.2)) then 5
  else 0

/-- CRANGE (R294): the old range of the slot is combined, then the slot is declared anew, or left undeclared. -/
def execCrange (ctl : Ctl) (op : COp) (slot : BitVec 3) (d a : BitVec 8) (len poff : BitVec 32) (s : State) : Out :=
  issue (.crange ctl op slot d a len poff) s (fun x s =>
    let p := srcX x.w s.sch.free a
    let k := slot.toNat
    let status (s : State) (n : Nat) : Act :=
      .done (s.updWave x.cur.wave (fun w => w.write x.id (wS d.toNat (BitVec.ofNat 32 n))))
    if p.2 then .trap { code := Code.POISON_USE, mask := x.act, addr := p.1 }
    else match s.ctx? x.w.ctx with
      | none => status s 1
      | some c =>
        let r : CRange := { base := p.1, len := len.toNat, op := op, poff := poff.toNat }
        if rangeStatus c k r != 0 then status s (rangeStatus c k r)
        else
          let old := match Sp.find c.cranges k with | some o => o.len / 128 | none => 0
          let go (s : State) : Act := match combineRun s x.w.ctx k 0 old with
            | .wait t r => .waits t r 12
            | .fail f => .trap { f with mask := x.act }
            | .ok (some f) s => .trapAt s { f with mask := x.act }
            | .ok none s =>
              let put (m : List (Nat × CRange)) := if len == 0 then Sp.erase m k else Sp.insert m k r
              status (s.updCtx x.w.ctx (fun c => { c with cranges := put c.cranges })) 0
          if runSeals s x.w.ctx k old then sealedAct x s go else go s)

/-- CRFLUSH (R296). -/
def execCrflush (ctl : Ctl) (slot : BitVec 3) (s : State) : Out :=
  issue (.crflush ctl slot) s (fun x s => issueAccess (.crflush ctl slot) x s [{ tid := 0, ptr := 0 }])

/-- LEASE (R293). -/
def execLease (ctl : Ctl) (n : NArg) (s : State) : Out :=
  issue (.lease ctl n) s (fun x s =>
    let v : Nat := match n with
      | .imm n => n.toNat
      | .reg r => max 1 (min 255 (srcS x.w s.sch.free r).val.toNat)
    .done (s.updWave x.cur.wave (fun w => { w with lease := v })))

/-- FENCE (R292): performed after a seal, once every older access is. -/
def execFence (ctl : Ctl) (s : State) : Out := issueSealed (.fence ctl) s (fun _ s => .done s)

/-! ### Barrier objects and counters (R298 to R303) -/

/-- The one lane of an S-form access at xA + off. -/
def oneLane (x : Iss) (free : Nat) (a : BitVec 8) (off : BitVec 32) (d : BitVec 128) (poison : Bool) : List Lane :=
  let p := ptrOf x.w free true a off 0
  [{ tid := 0, ptr := p.1, pointer := p.2, d0 := d, poison := poison }]

/-- BINIT (R301). -/
def execBinit (ctl : Ctl) (a : BitVec 8) (off : BitVec 32) (e : EArg) (s : State) : Out :=
  issue (.binit ctl a off e) s (fun x s =>
    let v : VWord := match e with
      | .imm n => ⟨n.setWidth 32, false⟩
      | .reg r => srcS x.w s.sch.free r
    issueAccess (.binit ctl a off e) x s (oneLane x s.sch.free a off (v.val.setWidth 128) v.poison))

/-- The count of an arrival: the active threads, or a scalar register (R299). -/
def arriveCount (x : Iss) (free : Nat) (o : Arr) : VWord :=
  match o.cnt with
  | some r => srcS x.w free r
  | none => ⟨BitVec.ofNat 32 (popcount x.act), false⟩

/-- BARV (R300). -/
def execBarv (o : Arr) (s : State) : Out :=
  issue (.barv o) s (fun x s =>
    let c := arriveCount x s.sch.free o
    issueAccess (.barv o) x s (oneLane x s.sch.free o.ptr o.off (c.val.setWidth 128) c.poison))
/-- BDROP (R300). -/
def execBdrop (o : Arr) (s : State) : Out :=
  issue (.bdrop o) s (fun x s =>
    let c := arriveCount x s.sch.free o
    issueAccess (.bdrop o) x s (oneLane x s.sch.free o.ptr o.off (c.val.setWidth 128) c.poison))

/-- BTEST (R302). -/
def execBtest (ctl : Ctl) (d a : BitVec 8) (off : BitVec 32) (s : State) : Out :=
  issue (.btest ctl d a off) s (fun x s => issueAccess (.btest ctl d a off) x s (oneLane x s.sch.free a off 0 false))

/-- CNTADD (R303): it completes when it is accepted; the add takes its place as a store does. -/
def execCntadd (ctl : Ctl) (a : BitVec 8) (inc : Src) (s : State) : Out :=
  issue (.cntadd ctl a inc) s (fun x s =>
    let v := src64 x.w s.sch.free true 0 false inc
    match issueAccess (.cntadd ctl a inc) x s (oneLane x s.sch.free a 0 (v.1.setWidth 128) v.2) with
    | .later s => .done s
    | r => r)

/-! ### Polls (R302, R304) -/

/-- Does the wave's open window hold the poll's instruction? -/
def pollInside (w : Wave) (q : Poll) : Bool := match w.win with | some n => decide (n.first ≤ q.id) | none => false

/-- What a poll met: its object's bytes with their poison, a wait until a tick, a fault. -/
inductive Polled
  | got (bs : List Byte) (poison : Bool) (s : State)
  | wait (tick reason : Nat)
  | fault (f : FaultInfo)

/-- One load of a poll of instruction q.id: early inside its window, where it matches no breakpoint (R115), at its place
otherwise. -/
def pollLoad (s : State) (wid path : Nat) (q : Poll) : Polled :=
  match s.wave? wid with
  | none => .wait (s.clk.tick + 1) 0
  | some w =>
    let l : Lane := { tid := 0, ptr := q.addr }
    let a : Access := { id := q.id, path := path, pc := q.pc, base := q.pc, after := q.pc, instr := q.instr,
                        mask := q.mask, lanes := [l], quiet := q.quiet }
    let hit := accBkpt s wid w.ctx a
    if pollInside w q then
      match (if hit.isSome then none else earlyRead s wid q.id q.instr q.addr) with
      | some (.ok (some (bs, pz)) s) => .got bs pz s
      | some (.wait t r) => .wait t r
      | _ => .wait (s.clk.tick + 1) 0
    else if unreadLaunch s wid q.id then .wait (s.clk.tick + 1) 0
    else match laneRead s (whoIn wid w) l (accKind q.instr) with
      | .wait t r => .wait t r
      | .fail f => .fault { f with mask := q.mask }
      | .ok (bs, pz) s =>
        match hit with
        | some b => .fault { code := Code.DEBUG_STOP, sub := 1, mask := q.mask, extra := BitVec.ofNat 64 b }
        | none => .got bs pz s

/-- The predicate register of a poll. -/
def pollDst : Instr → Nat
  | .bwait _ d _ _ _ _ | .waitge _ d _ _ _ => d.toNat
  | _ => 0

/-- Does the object meet the condition? -/
def pollMet (q : Poll) (bs : List Byte) : Bool :=
  match q.instr with
  | .bwait _ _ _ ph _ _ => bits (BitVec.ofNat 128 (leNat bs)) 24 4 != ph
  | _ => decide (q.target.toNat ≤ leNat bs)

/-- The result in every active thread. -/
def pollWrites (q : Poll) (r pz : Bool) : List RegW :=
  (threads q.mask).map (fun t => .p (pollDst q.instr) t ⟨r, pz || q.poison⟩)

/-- The path of a poll waits on its object. -/
def pollOn (x : Iss) (s : State) (q : Poll) : State :=
  s.updWave x.cur.wave (fun w => w.putPath q.id x.cur.path { w.path x.cur.path with
    e := { (w.path x.cur.path).e with state := .counting }, poll := some q })

/-- The next load of a poll follows within so many ticks. -/
def keepPolling (x : Iss) (s : State) (q : Poll) (n : Nat) : Act :=
  .movedLater ((pollOn x s q).afterTicks n (.pollRecheck x.cur.wave x.cur.path))

/-- A BWAIT or WAITGE issues its first load: it is over, or its path waits on the object. Inside a window a load that may not be
early is unperformed until commit reaches it (R107). -/
def issuePoll (x : Iss) (s : State) (q : Poll) (pointer : Bool) : Act :=
  if pointer then .trap { code := Code.POISON_USE, mask := x.act, addr := q.addr }
  else if readsFull s (coreOf x.cur.wave) x.w q.instr [{ tid := 0, ptr := q.addr }] then .stall 12
  else if portBusy s x.cur.wave x.cur.path then .movedLater ((pollOn x s q).after 1 (.pollRecheck x.cur.wave x.cur.path))
  else match pollLoad s x.cur.wave x.cur.path q with
    | .wait t r => if pollInside x.w q then keepPolling x s q (max 1 (t - s.clk.tick)) else .waits t r 7
    | .fault f => if f.code == Code.DEBUG_STOP then breakStop x s f.extra.toNat else .trap f
    | .got bs pz s =>
      let met := pollMet q bs
      if met || decide (q.deadline ≤ s.clk.tick) then
        .done (s.updWave x.cur.wave (fun w =>
          let w := w.writes q.id (pollWrites q met pz)
          w.setPath x.cur.path (w.path x.cur.path).spun))
      else keepPolling x s q 4

/-- POLL_RECHECK of a waiting path: the next load of its poll (R302). -/
def recheckPoll (s : State) (wid i : Nat) : State :=
  match s.wave? wid with
  | none => s
  | some w =>
    let p := w.path i
    match p.poll with
    | none => s
    | some q =>
      if portBusy s wid i then s.after 1 (.pollRecheck wid i)
      else match pollLoad s wid i q with
      | .wait t r =>
        let s := s.updWave wid (fun w => w.setPath i { w.path i with reason := if ceilingWait r then 7 else 0 })
        (s.gate t r (some wid)).ensureTicks (max 1 (t - s.clk.tick)) (.pollRecheck wid i)
      | .fault f =>
        let s := if w.win.isSome then rollback s wid false else s
        takeFault (s.updWave wid (fun w => w.clearFlag q.id)) wid i q.pc q.pc (q.pc + 16)
          (if f.code == Code.DEBUG_STOP then .debug else .fault) f
      | .got bs pz s =>
        let met := pollMet q bs
        if met || decide (q.deadline ≤ s.clk.tick) then
          let s := if pollInside w q then s else lateRoll s w.ctx wid i
          let free := s.sch.free
          let s := (s.updWave wid (fun w =>
            let w := (w.lands free q.id (pollWrites q met pz)).clearFlag q.id
            let p := (w.path i).spun
            w.putPath q.id i { p with e := { p.e with state := p.rest, pc := q.pc + 16 }, poll := none, reason := 0 })).tickFree
          let s := latchLand s wid (pollWrites q met pz)
          if pollInside w q then s else fireStepAt s w.ctx wid i p.e.mask q.pc
        else (s.updWave wid (fun w => w.setPath i { w.path i with reason := 0 })).ensureTicks 4 (.pollRecheck wid i)

/-- BWAIT (R302). -/
def execBwait (ctl : Ctl) (d a : BitVec 8) (ph : BitVec 4) (off ticks : BitVec 32) (s : State) : Out :=
  issue (.bwait ctl d a ph off ticks) s (fun x s =>
    let p := ptrOf x.w s.sch.free true a off 0
    let q : Poll := { instr := .bwait ctl d a ph off ticks, id := x.id, pc := x.cur.pc, addr := p.1, mask := x.act,
                      deadline := s.clk.tick + ticks.toNat, quiet := x.p.noMatch }
    issuePoll x s q p.2)

/-- WAITGE (R304). -/
def execWaitge (ctl : Ctl) (d a : BitVec 8) (tgt : Src) (ticks : BitVec 32) (s : State) : Out :=
  issue (.waitge ctl d a tgt ticks) s (fun x s =>
    let p := ptrOf x.w s.sch.free true a 0 0
    let v := src64 x.w s.sch.free true 0 false tgt
    let q : Poll := { instr := .waitge ctl d a tgt ticks, id := x.id, pc := x.cur.pc, addr := p.1, mask := x.act,
                      target := v.1, poison := v.2, deadline := s.clk.tick + ticks.toNat, quiet := x.p.noMatch }
    issuePoll x s q p.2)

end Sys2Proof.Machine
end

