-- ==== Sys2Proof/Machine/Teams.lean ====
section
/-!
DEFINITION. Teams (R162 to R164, R297), the collectives that their members open (R309), and LAUNCH (R110, R177, R319).
-/

namespace Sys2Proof.Machine

/-! ### The team table -/

def State.team? (s : State) (t : Nat) : Option Team := Sp.find (s.core (t / 64)).teams (t % 64)

/-- Change a team; one without members and without operations in progress is freed with its arena (R164). -/
def State.updTeam (s : State) (t : Nat) (f : Team → Team) : State :=
  match s.team? t with
  | none => s
  | some x =>
    let k := s.core (t / 64)
    let y := f x
    s.setCore (t / 64) { k with teams :=
      if y.members.isEmpty && y.ops == 0 then Sp.erase k.teams (t % 64) else Sp.insert k.teams (t % 64) y }

/-! ### Collectives (R164, R309) -/

def State.coll? (s : State) (t : Nat) : Option Collective := s.colls.find? (fun c => c.team == t)
def State.setColl (s : State) (c : Collective) : State :=
  { s with colls := s.colls.filter (fun x => x.team != c.team) ++ [c] }
def State.dropColl (s : State) (t : Nat) : State := { s with colls := s.colls.filter (fun x => x.team != t) }

/-- A copy of an owner that is about to start; the latest contributor may be gone (R164). A new copy of a wave whose %cprog has
STOPPED set continues from its LINES (R174). -/
def newCopy (s : State) (op : Nat) (ptr : Word64) (g : Given) (team : Option Nat) : State :=
  let (id, s) := s.fresh
  let owner := s.wave? g.wave
  let home : Option (Nat × Nat) := match owner, team with
    | some w, _ => some (coreOf g.wave, w.ctx)
    | none, some t => (s.team? t).map (fun x => (t / 64, x.ctx))
    | none, none => none
  match home with
  | none => s
  | some (core, ctx) =>
    let n := match owner with
      | some w => if bit w.cprog 30 then (bits w.cprog 0 24).toNat else 0
      | none => 0
    let c : Copy := { id := id, op := op, core := core, ctx := ctx, owner := g.wave, path := g.path, seq := g.seq, team := team,
                      pc := g.pc, after := g.after, ptr := ptr, lines := n, quiet := g.quiet }
    let s := { s with copies := s.copies ++ [c] }
    let s := match team with | some t => s.updTeam t (fun x => { x with ops := x.ops + 1 }) | none => s
    s.soon (.copyStart id)

/-- Has every member of the list contributed? -/
def Collective.full (c : Collective) (members : List Nat) : Bool :=
  members.all (fun m => c.froms.any (fun g => g.wave == m))

/-- Is a copy of the team checked or refused at its start, so that its collective is not to start again by itself? -/
def starting (s : State) (t : Nat) : Bool := s.copies.any (fun c => c.team == some t && !c.started)

/-- The wave leaves its team (R163, R164): a collective that waited for it starts, owned by the latest contributor. -/
def leaveTeam (s : State) (wid : Nat) : State :=
  match s.wave? wid with
  | none => s
  | some w =>
    match w.team with
    | none => s
    | some t =>
      let s := s.setWave wid { w with team := none }
      match s.team? t with
      | none => s
      | some x =>
        let left := x.members.filter (· != wid)
        let s := match s.coll? t with
          | some c =>
            if c.full left && !starting s t then
              match ((c.froms.filter (fun (g : Given) => left.contains g.wave)).getLast?).or c.froms.getLast? with
              | some g => newCopy s c.op c.ptr g (some t)
              | none => s
            else s
          | none => s
        s.updTeam t (fun y => { y with members := left })

/-! ### TNEW, TJOIN, TLEAVE (R163) -/

/-- The handle of an arena: the local pointer to its base. -/
def arenaPtr (base : Nat) : Word64 := BitVec.ofNat 64 (0x2000000000000000 + base)

/-- TNEW (R163, R297). -/
def execTnew (ctl : Ctl) (d : BitVec 8) (size : Src) (s : State) : Out :=
  issue (.tnew ctl d size) s (fun x s =>
    let wid := x.cur.wave
    let core := coreOf wid
    let v := src32 x.w s.sch.free true 0 size
    let n := roundUp (max 1 v.val.toNat) 128
    let give (s : State) (p : Word64) : Act := .done (s.updWave wid (fun w => w.writes x.id (wX d.toNat p v.poison)))
    let bad (k : Nat) : Act := give s (BitVec.ofNat 64 (0xE000000000000000 + k))
    if x.w.team.isSome then bad 3
    else match (List.range 64).find? (fun i => (Sp.find (s.core core).teams i).isNone) with
      | none => bad 1
      | some i =>
        match (if decide (0x400000 < n) then none else fitArena s core x.w.ctx n) with
        | none => bad 2
        | some base =>
          let k := s.core core
          let t : Team := { ctx := x.w.ctx, base := base, size := n, members := [wid] }
          let s := s.setCore core { k with teams := Sp.insert k.teams i t }
          give (s.updWave wid (fun w => { w with team := some (core * 64 + i) })) (arenaPtr base))

/-- TJOIN (R163, R297). -/
def execTjoin (ctl : Ctl) (d a : BitVec 8) (s : State) : Out :=
  issue (.tjoin ctl d a) s (fun x s =>
    let wid := x.cur.wave
    let core := coreOf wid
    let p := srcX x.w s.sch.free a
    let status (s : State) (k : Nat) : Act :=
      .done (s.updWave wid (fun w => w.write x.id (wS d.toNat (BitVec.ofNat 32 k))))
    if p.2 then .trap { code := Code.POISON_USE, mask := x.act, addr := p.1 }
    else if x.w.team.isSome then status s 2
    else match (s.core core).teams.find? (fun t => t.2.ctx == x.w.ctx && arenaPtr t.2.base == p.1 &&
        !t.2.members.isEmpty) with
      | none => status s 1
      | some (i, _) =>
        let t := core * 64 + i
        let s := s.updTeam t (fun y => { y with members := y.members ++ [wid] })
        status (s.updWave wid (fun w => { w with team := some t })) 0)

/-- TLEAVE (R163, R297). -/
def execTleave (ctl : Ctl) (s : State) : Out :=
  issue (.tleave ctl) s (fun x s => .done (leaveTeam s x.cur.wave))

/-! ### LAUNCH (R110, R177, R179, R319) -/

/-- The breakpoint that the record of a LAUNCH matches, where it passes R38 (R221). -/
def launchStop (x : Iss) (s : State) (p : Word64) : Option Nat :=
  match clCheck s (coreOf x.cur.wave) x.w.ctx p 16 pR with
  | .error _ => none
  | .ok _ => ownStop x s true false p 64

/-- LAUNCH: inside a window it is held in the core's launch buffer; outside, its record is read, checked and queued. One that finds the
buffer full, or waits behind held launches of its wave, is charged 6 too (DESIGN CHOICE, log 52). -/
def execLaunch (ctl : Ctl) (a : BitVec 8) (s : State) : Out :=
  issue (.launch ctl a) s (fun x s =>
    let wid := x.cur.wave
    let core := coreOf wid
    let k := s.core core
    let p := srcX x.w s.sch.free a
    if p.2 then .trap { code := Code.POISON_USE, mask := x.act, addr := p.1 }
    else match launchStop x s p.1 with
    | some b => breakStop x s b
    | none =>
    if x.w.win.isSome then
      if decide (8 ≤ (k.launches.filter (fun h => h.refused.isNone)).length) then .stall 6
      else
        let h : HeldLaunch := { wave := wid, id := x.id, path := x.cur.path, pc := x.cur.pc, ptr := p.1 }
        .done (s.setCore core { k with launches := k.launches ++ [h] })
    else if k.launches.any (fun h => h.wave == wid && h.refused.isNone) then .stall 6
    else match readLaunch s (whoOf wid x.w) p.1 with
      | .wait t r => .waits t r 7
      | .fail f => .trap { f with mask := x.act }
      | .ok r s =>
        match enqueue s x.w.ctx r with
        | none => .stall 6
        | some s => .done s)

end Sys2Proof.Machine
end

