-- ==== Sys2Proof/Machine/Copies.lean ====
section
/-!
DEFINITION. The COPY family (R305 to R312): contributions, the start of a copy with the checks of its record, its stop,
its counter and its follow-on MMA.
-/

namespace Sys2Proof.Machine

/-! ### The checks of a shape record (R308) -/

def shapeFault (extra : Nat) (p : Word64) : FaultInfo :=
  { code := Code.SHAPE, sub := 1, addr := p, extra := BitVec.ofNat 64 extra }

/-- Fields of FOLLOW (R307). -/
def followKind (f : Word64) : Nat := (bits f 0 3).toNat
def followAcc (f : Word64) : Nat := (bits f 3 2).toNat
def followA (f : Word64) : Nat := (bits f 5 4).toNat
def followB (f : Word64) : Nat := (bits f 9 4).toNat
def followN (f : Word64) : Nat := 16 * ((bits f 13 5).toNat + 1)
def followP (f : Word64) : Nat := (bits f 18 3).toNat + 1
def followFlag (f : Word64) : Nat := (bits f 21 4).toNat
def followZa (f : Word64) : Bool := bit f 25

/-- Dimensions that are checked. -/
def TShape.r (h : TShape) : Nat := min h.rank 4

/-- Order 1: some extent below r is 0. -/
def TShape.empty (h : TShape) : Bool := (List.range h.r).any (fun j => h.ext.getD j 1 == 0)

/-- Extent and stride as the record holds them. -/
def TShape.rawE (h : TShape) (j : Nat) : Nat := h.ext.getD j 0
def TShape.rawS (h : TShape) (j : Nat) : Nat := if j = 0 then h.sz else h.str.getD (j - 1) 0

/-- Order 2: offsets of strides that are too short. -/
def shortStrides (op : Nat) (h : TShape) : List Nat :=
  if h.overlap && op != 1 then []
  else ((List.range h.r).filter (fun j => decide (1 ≤ j) && decide (h.rawS j < h.rawE (j - 1) * h.rawS (j - 1)))).map
    (fun j => 40 + 4 * j)

/-- Order 3: offsets of fields that are not multiples of the element size. -/
def oddFields (op : Nat) (h : TShape) : List Nat :=
  (if h.base.toNat % h.sz != 0 then [0] else []) ++ (if op != 2 && h.dense.toNat % h.sz != 0 then [8] else []) ++
    ((List.range h.r).filter (fun j => decide (1 ≤ j) && h.rawS j % h.sz != 0)).map (fun j => 40 + 4 * j)

/-- Does a reduction go with a format? -/
def ropFits (rop fmt : Nat) : Bool :=
  match rop with
  | 0 => true
  | 1 => fmt == 5 || fmt == 6 || fmt == 7 || fmt == 8
  | 2 | 3 => fmt == 5 || fmt == 7 || fmt == 8
  | 4 | 5 => fmt == 2 || fmt == 7 || fmt == 8
  | _ => false

/-- Order 5: offsets of fields with a value the record may not hold. -/
def reservedFields (op : Nat) (h : TShape) : List Nat :=
  let f := h.follow
  let flag := followFlag f
  (if op == 2 && bits h.dense 4 60 != 0 then [8] else []) ++
    (if bits h.ctl 15 17 != 0 || bits h.ctl 4 4 != 0 || decide (8 < h.fmt) || (h.overlap && op == 1) ||
      (h.rop != 0 && op == 2) || !ropFits h.rop h.fmt then [28] else []) ++
    ((List.range 4).filter (fun j => decide (h.r ≤ j) && h.rawE j != 0)).map (fun j => if j = 0 then 32 else 34 + 2 * j) ++
    (if h.pad != 0 then [42] else []) ++
    ((List.range 4).filter (fun j => decide (1 ≤ j) && decide (h.r ≤ j) && h.rawS j != 0)).map (fun j => 40 + 4 * j) ++
    (if (op != 2 && f != 0) || bits f 46 18 != 0 || bits f 26 20 != 0 || decide (4 < followKind f) ||
      (decide (12 ≤ flag) && decide (flag ≤ 14)) || (followKind f != 4 && bits f 18 3 != 0) then [56] else [])

/-- Bytes that the copy moves. -/
def TShape.bytes (h : TShape) : Nat := h.count * h.sz

/-- Orders 2 to 8 of R308. -/
def shapeCheck (s : State) (c : Copy) (h : TShape) : Option FaultInfo :=
  let bad (l : List Nat) : Option FaultInfo := (leastOf l).map (fun o => shapeFault o c.ptr)
  let t := (bits h.dense 0 4).toNat
  let v := s.tcOf c.core t
  match bad (shortStrides c.op h) with
  | some f => some f
  | none =>
    match bad (oddFields c.op h) with
    | some f => some f
    | none =>
      if h.rank == 0 || decide (4 < h.rank) then some (shapeFault 28 c.ptr)
      else match bad (reservedFields c.op h) with
        | some f => some f
        | none =>
          if decide (0x80000000 < h.bytes) then some (shapeFault 32 c.ptr)
          else if c.op != 2 then none
          else match notOwned s c.core c.ctx [t] with
            | some f => some f
            | none =>
              if h.bytes != tcRows v * tcSteps v * 48 then some (shapeFault 8 c.ptr)
              else if followKind h.follow == 0 then none
              else mmaCheck s c.core c.ctx (followKind h.follow) (followAcc h.follow) (followA h.follow)
                (followB h.follow) (followN h.follow) (followP h.follow)

/-! ### Contributions (R309) -/

/-- The owner's path goes past its copy and is held until the copy has started. -/
def holdOwner (s : State) (x : Iss) : State :=
  s.updWave x.cur.wave (fun w => w.setPath x.cur.path
    { w.path x.cur.path with e := { (w.path x.cur.path).e with pc := x.cur.pc + BitVec.ofNat 64 x.cur.slot,
                                                               state := .counting } })

/-- A copy of this path that its owner's fault has kept from starting, or that stopped and continues, or starts over once it has been
abandoned (R174, R273). -/
def resumable (s : State) (x : Iss) (op : Nat) (p : Word64) : Option Copy :=
  s.copies.find? (fun c => c.owner == x.cur.wave && c.ctx == x.w.ctx && c.pc == x.cur.pc && c.op == op && c.ptr == p &&
    ((!c.started && c.path == x.cur.path) || (c.stopped && (bit x.w.cprog 30 || c.shape.isNone))))

/-- COPY, COPYR and COPYM, after a seal: the wave contributes; the contribution that completes the set makes it the
owner, and the copy starts. -/
def contribute (x : Iss) (s : State) (op : Nat) (a : BitVec 8) : Act :=
  let wid := x.cur.wave
  let p := srcX x.w s.sch.free a
  let g : Given := { wave := wid, path := x.cur.path, seq := x.id, pc := x.cur.pc,
                     after := x.cur.pc + BitVec.ofNat 64 x.cur.slot, quiet := x.p.noMatch }
  let given (s : State) : State := noteWrite s wid x.cur.path
  if p.2 then .trap { code := Code.POISON_USE, mask := x.act, addr := p.1 }
  else match resumable s x op p.1 with
    | some c =>
      if c.started then .done (copyReply (given s) c.id 1 false)
      else .moved (holdOwner (((given s).setCopy { c with quiet := c.quiet || x.p.noMatch }).soon (.copyStart c.id)) x)
    | none =>
      match x.w.team with
      | none => .moved (holdOwner (newCopy (given s) op p.1 g none) x)
      | some t =>
        let c : Collective := (s.coll? t).getD { team := t, op := op, ptr := p.1, froms := [] }
        if c.froms.any (fun y => y.wave == wid) then .stall 5
        else if c.op != op || c.ptr != p.1 then
          .trap { code := Code.SHAPE, sub := 2, mask := x.act, addr := p.1, extra := BitVec.ofNat 64 (0xC0 + c.op) }
        else
          let c := { c with froms := c.froms ++ [g] }
          let members := match s.team? t with | some y => y.members | none => [wid]
          let s := (given s).setColl c
          if c.full members && !starting s t then .moved (holdOwner (newCopy s op p.1 g (some t)) x) else .done s

/-- COPY (R305). -/
def execCopy (ctl : Ctl) (a : BitVec 8) (s : State) : Out :=
  issueSealed (.copy ctl a) s (fun x s => contribute x s 0 a)
/-- COPYR (R305). -/
def execCopyr (ctl : Ctl) (a : BitVec 8) (s : State) : Out :=
  issueSealed (.copyr ctl a) s (fun x s => contribute x s 1 a)
/-- COPYM (R305). -/
def execCopym (ctl : Ctl) (a : BitVec 8) (s : State) : Out :=
  issueSealed (.copym ctl a) s (fun x s => contribute x s 2 a)

/-! ### COPY_START (R308, R309, R312) -/

/-- Who reads for a copy: its owner, while it lives. -/
def copyWho (s : State) (c : Copy) : Who :=
  match s.wave? c.owner with
  | some w => if w.ctx == c.ctx then whoOf c.owner w else { core := c.core, ctx := c.ctx, lease := 16 }
  | none => { core := c.core, ctx := c.ctx, lease := 16 }

/-- The record of a copy, with the check of its CNT. A poisoned record forms addresses from poison (R142, log 55). -/
def readShape (s : State) (c : Copy) : Res TShape :=
  match checkPtr c.ptr 64 .globalDev with
  | some f => .fail f
  | none =>
  match loadRecord s (copyWho s c) c.ptr 4 with
    | .wait a b => .wait a b
    | .fail f => .fail f
    | .ok (bs, pz) s =>
      let h := shapeOf bs
      if pz then .fail (bad Code.POISON_USE 0 c.ptr)
      else match clCheck s c.core c.ctx h.cnt 8 pRW with
      | .error f => failed s f
      | .ok (_, s) => .ok h s

/-- A record without a path for an owner that has exited. -/
def ownerGone (s : State) (c : Copy) (f : FaultInfo) : State :=
  raiseNoPath s c.ctx { f with flags := fDEFERRED } c.pc

/-- The start fails: the owner parks at its copy instruction, or, when it has gone past, where it stands. After a breakpoint the
copy starts once without matching one (R221). -/
def startFails (s : State) (c : Copy) (f : FaultInfo) : State :=
  let c := { c with quiet := f.code == Code.DEBUG_STOP }
  let s := s.setCopy c
  match s.wave? c.owner with
  | none => dropCopy (ownerGone s c f) c true
  | some w =>
    let p := w.path c.path
    if w.ctx == c.ctx && p.e.kind == .path && p.e.state == .counting && p.poll.isNone && p.e.pc == c.after then
      takeFault s c.owner c.path c.pc c.pc c.after (.copy c.id) { f with mask := p.e.mask }
    else match parkOwner s c (.copy c.id) f with
      | .parked s => s
      | .later => s.after 1 (.copyStart c.id)
      | .gone => dropCopy (ownerGone s c f) c true

/-- The lowest read or write breakpoint of the owner's path that the read of its record, the source or the destination in memory
matches (R221): rows of dimension 0 on the strided side, one run on the dense side; of an empty shape, only the record. -/
def copyBkpt (s : State) (c : Copy) (h : TShape) : Option Nat :=
  let owned : Bool := (s.wave? c.owner).any (fun w => w.ctx == c.ctx)
  match (if c.quiet || !owned then none else s.ctx? c.ctx) with
  | none => none
  | some x =>
    let src := decide (c.op != 1)
    let hit (rd : Bool) (a : Word64) (n : Nat) : Option Nat := bkptHit x c.owner c.path rd (!rd) a n
    let rows : List Word64 := if x.bkpts.isEmpty || h.empty then [] else
      (List.range (h.e 3)).flatMap (fun i => (List.range (h.e 2)).flatMap (fun j => (List.range (h.e 1)).map (fun k =>
        h.base + BitVec.ofNat 64 (k * h.s 1 + j * h.s 2 + i * h.s 3))))
    let hits := rows.filterMap (fun a => hit src a (h.e 0 * h.sz)) ++
      (if c.op == 2 || h.empty then [] else (hit (!src) h.dense h.bytes).toList)
    leastOf ((hit true c.ptr 64).toList ++ hits)

/-- The copy runs from here on. -/
def beginCopy (s : State) (c : Copy) (h : TShape) : State :=
  let none_ := h.empty
  let chain := c.op == 2 && followKind h.follow != 0
  let s := match c.team with | some t => s.dropColl t | none => s
  let s := releaseOwner s c
  let c := { c with started := true, shape := some h, elem := if none_ then 0 else firstLines c.op h c.lines,
                    landed := none_, chained := none_ || !chain }
  let s := s.setCopy c
  let s := if c.op == 2 && !none_ then
      s.addTileOp c.core { id := c.id, ctx := c.ctx, reads := [], writes := [(bits h.dense 0 4).toNat] } else s
  let s := s.updWave c.owner (fun w =>
    if w.ctx != c.ctx then w
    else
      let w := { w with copyOp := some c.id }
      if chain && decide (followFlag h.follow < 12) then
        { w with owed := w.owed ++ [Owe.mk (followFlag h.follow) c.seq 1] } else w)
  let s := copyProg s c true false
  if none_ then s.soon (.copyComplete c.id) else s

/-- COPY_START. -/
def startCopy (s : State) (id : Nat) : State :=
  match s.copy? id with
  | none => s
  | some c =>
    if c.started then s
    else if !ctxRuns s c.ctx then s.ensureTicks 1 (.copyStart id)
    else match readShape s c with
      | .wait t r => s.waitTick t r (.copyStart id)
      | .fail f => startFails s c f
      | .ok h s =>
        match (if h.empty then none else shapeCheck s c h) with
        | some f => startFails s c f
        | none =>
          match copyBkpt s c h with
          | some b => startFails s c { code := Code.DEBUG_STOP, sub := 1, extra := BitVec.ofNat 64 b }
          | none =>
          if c.op == 2 && !h.empty && tileBusy (s.core c.core) [] [(bits h.dense 0 4).toNat] none then
            (s.updWave c.owner (fun w => if w.ctx == c.ctx && (w.path c.path).e.state == .counting && (w.path c.path).poll.isNone
              then w.setPath c.path { w.path c.path with reason := 2 } else w)).after 1 (.copyStart id)
          else beginCopy s c h

def execCopyStart (id : Nat) (s : State) : Out := .next (settleHits (startCopy s id))

/-! ### COPY_STOP (R311) -/

/-- The record of a copy that has stopped: the owner parks with a deferred record, at once or when its path may park; without an
owner the copy is abandoned. -/
def reportStop (s : State) (c : Copy) (f : FaultInfo) : State :=
  let keep (s : State) (c : Copy) : State := copyProg (s.setCopy c) c true true
  match parkOwner s c (.copy c.id) f with
  | .parked s => keep s { c with failure := none }
  | .later => (keep s { c with failure := some (f.code, f.sub, f.addr, f.extra) }).ensureTicks 1 (.copyStop c.id)
  | .gone => dropCopy (ownerGone s c f) c true

/-- COPY_STOP: the next line fails, so the copy stops and its owner parks with a deferred record. -/
def stopCopy (s : State) (id : Nat) : State :=
  match s.copy? id with
  | none => s
  | some c =>
    match c.failure, c.shape with
    | some (code, sub, addr, extra), _ => reportStop s c { code := code, sub := sub, addr := addr, extra := extra }
    | none, none => s
    | none, some h =>
      if c.stopped || c.landed then s
      else match moveLine s c h with
        | .fail f => reportStop s { c with stopped := true } f
        | _ => s

def execCopyStop (id : Nat) (s : State) : Out := .next (settleHits (stopCopy s id))

/-! ### COPY_COMPLETE (R310, R312) -/

/-- The follow-on MMA of a landed copy, which has its place, enters the array queue once what precedes it on its source tiles and its
accumulator allows (R312). -/
def enterMma (s : State) (c : Copy) (h : TShape) (id : Nat) : State :=
  let f := h.follow
  let k := s.core c.core
  let src := followA f :: groupOf s c.core (followB f) (followN f)
  let before := k.tileOps.takeWhile (fun o => o.id != id)
  if k.tileOps.any (fun o => o.id != id && o.writes.any (fun t => src.contains t)) || arrWaits s c.core c.ctx (followAcc f) before
  then s.after 1 (.copyComplete c.id)
  else
    (putMma (s.endTileOp c.core id) c.core c.ctx c.owner c.seq (followKind f) (followAcc f) (followA f) (followB f) (followN f)
      (followP f) (followZa f) false).setCopy { c with chained := true, hazard := none }

/-- The owner's record of a follow-on MMA that fails its checks; where its path cannot park yet, the copy keeps the failure. -/
def refuseMma (s : State) (c : Copy) (e : FaultInfo) : State :=
  match parkOwner s c (.mma c.id) e with
  | .parked s => s.setCopy { c with held := true, failure := none }
  | .later => (s.setCopy { c with failure := some (e.code, e.sub, e.addr, e.extra) }).after 1 (.copyComplete c.id)
  | .gone => (ownerGone s c e).setCopy { c with chained := true, failure := none }

/-- The follow-on MMA of a landed copy (R312, R332): its checks are made, it takes its place in core issue order, as one that reads its
sources and works on its accumulator, and enters the array queue. -/
def chainMma (s : State) (c : Copy) (h : TShape) : State :=
  let f := h.follow
  if c.chained || c.held then s
  else if !ctxRuns s c.ctx then s.after 1 (.copyComplete c.id)
  else match c.failure, c.hazard with
    | some (code, sub, addr, extra), _ => refuseMma s c { code := code, sub := sub, addr := addr, extra := extra }
    | none, some id => enterMma s c h id
    | none, none =>
      match mmaCheck s c.core c.ctx (followKind f) (followAcc f) (followA f) (followB f) (followN f) (followP f) with
      | some e => refuseMma (s.updWave c.owner (fun w => if w.ctx == c.ctx then w.clearFlag c.seq else w)) c e
      | none =>
        let (id, s) := s.fresh
        let s := s.addTileOp c.core { id := id, ctx := c.ctx, writes := [], acc := some (followAcc f),
                                      reads := followA f :: groupOf s c.core (followB f) (followN f) }
        let c := { c with hazard := some id }
        enterMma (s.setCopy c) c h id

/-- CNT advances by INCR, as one clockless atomic. -/
def payCopy (s : State) (c : Copy) (h : TShape) : State :=
  if c.paid then s
  else
    let fails (f : Fail) : State :=
      let s := if c.told then s else raiseNoPath (s.setCopy { c with told := true }) c.ctx f
      s.ensureTicks 4096 (.copyComplete c.id)
    withRoom s c.ctx (.copyComplete c.id) (fun s =>
      match bump s c.core c.ctx h.cnt h.incr with
      | .wait a r => s.waitTick a r (.copyComplete c.id)
      | .fail f => fails f
      | .ok _ t => t.setCopy { c with paid := true })

/-- COPY_COMPLETE. -/
def completeCopy (s : State) (id : Nat) : State :=
  match s.copy? id with
  | none => s
  | some c =>
    match c.shape with
    | none => s
    | some h =>
      if !c.landed then s
      else
        let s := copyProg (s.endTileOp c.core id) c false false
        let s := chainMma s c h
        let s := match s.copy? id with | some c => payCopy s c h | none => s
        match s.copy? id with
        | some c => if c.paid && c.chained then dropCopy s c h.empty else s
        | none => s

def execCopyComplete (id : Nat) (s : State) : Out := .next (settleHits (completeCopy s id))

end Sys2Proof.Machine
end

