-- ==== Sys2Proof/Machine/Placement.lean ====
section
/-!
DEFINITION. The dispatcher and the placer (R181 to R184), the end of a wave (R147, R155), and the steps of launch, issue
and resources that their time makes due (R160, R166 to R169, R180, R182, R186, R188, R233, R266, R302): one meaning for each.
-/

namespace Sys2Proof.Machine

/-! ### Cores a context may use (R183, R184, R205) -/

/-- Units lent to a root, and the units it has lent. -/
def lentTo (s : State) (c : Nat) : List Nat := match s.part? c with | some p => p.lent.map (·.1) | none => []
def lentOut (s : State) (c core : Nat) : Bool := lentAway s (rootOf s c) core

/-- The candidate cores of a context for a record, ascending. -/
def placeCores (s : State) (c : Nat) (r : LaunchRec) : List Nat :=
  (List.range 256).filter (fun k =>
    ((unitsOf s c).getLsbD k || (lentTo s c).contains k) && r.dieOk (k / 32) && !lentOut s c k && !(s.core k).draining &&
      !(s.core k).leaving)

/-- Resident waves of a core. -/
def loadOf (s : State) (core : Nat) : Nat := (s.waves.filter (fun w => coreOf w.1 == core)).length

def insertLoad (s : State) (k : Nat) : List Nat → List Nat
  | [] => [k]
  | j :: js => if loadOf s k < loadOf s j then k :: j :: js else j :: insertLoad s k js

/-- Cores by load, the lowest number on ties. -/
def byLoad (s : State) (ks : List Nat) : List Nat := ks.foldl (fun l k => insertLoad s k l) []

/-! ### Affinity (R184) -/

/-- The part of AFFINITY under a context, through the TLB or a walk that leaves nothing. -/
def affinityPart (s : State) (core c : Nat) (p : Word64) : Option Nat :=
  if (checkPtr p 1 .global).isSome then none
  else match findTlb s core c (p.toNat / 65536 % 0x1000000000) with
    | some e => some e.part
    | none => match walk s c p 0 with
      | .ok e => some e.part
      | .error _ => none

/-- The candidate cores in the order in which the placer takes them. -/
def coreOrder (s : State) (c : Nat) (r : LaunchRec) : List Nat :=
  let all := byLoad s (placeCores s c r)
  let dieFirst (d : Nat) (l : List Nat) : List Nat := l.filter (fun k => k / 32 == d) ++ l.filter (fun k => k / 32 != d)
  if !r.affOn then all
  else match affinityPart s (launchCore s c) c r.affinity with
    | none => all
    | some part =>
      let dies := (List.range 8).filter r.dieOk
      match dies.findSome? (fun d => (s.atlas d part).map (fun e => e.pcore)) with
      | some core =>
        let rest := dieFirst (core / 32) (all.filter (· != core))
        if all.contains core then core :: rest else rest
      | none =>
        let h := homeDie s (part * 65536)
        if r.dieOk h then dieFirst h all else all

/-! ### Placing a group (R146, R148, R183) -/

/-- The args of a wave of a job: a grid's member's own (R182). -/
def argsOf (j : Job) (i : Nat) : Word64 := (j.members.getD (if decide (1 < j.members.length) then i else 0) j.lr).args

/-- How many waves a job has, and its placement group. -/
def Job.waves (j : Job) : Nat := if j.lr.count == 1 then j.members.length else j.lr.count

/-- A wave at kernel entry (R15). -/
def newWave (s : State) (c : Nat) (j : Job) (i : Nat) (area run : Nat × Nat) : Wave :=
  let a := argsOf j i
  let ts := List.range j.lr.width
  let w : Wave := { ctx := c, width := j.lr.width, budget := j.lr.budget, age := s.clk.tick, job := j.id, index := i,
                    tc := j.lr.tc, areas := [area], runs := [run] }
  let p : Path := { e := { kind := PKind.path, pc := j.lr.entry, mask := maskOf ts } }
  let w := { w with paths := p :: List.replicate 15 {} }
  let vs := ts.flatMap (fun t => wW 0 t a false ++ [RegW.v 2 t ⟨BitVec.ofNat 32 (i * j.lr.width + t), false⟩])
  (vs ++ wX 0 a false ++ [wS 2 (BitVec.ofNat 32 i)]).foldl Wave.poke w

/-- A lane pair that can take k waves side by side in free slots: the slot of the first. -/
def slotFor (s : State) (lp : Nat) (pair : Bool) (n : Nat) : Option Nat :=
  match (if pair then freePair s lp else freeSlot s lp), fitRuns (runsBut s lp none) n (if pair then 2 else 1) with
  | some k, some _ => some k
  | _, _ => none

/-- The lane pair with the most free units among those that can take the wave, the lowest on ties. -/
def pickLane (s : State) (core : Nat) (pair : Bool) (n : Nat) : Option Nat :=
  ((List.range 32).map (fun l => core * 32 + l)).foldl (fun b l =>
    if (slotFor s l pair n).isNone then b
    else match b with
      | some y => if freeUnits s y < freeUnits s l then some l else b
      | none => some l) none

/-- One wave in a slot of a lane pair. -/
def putWaveAt (s : State) (c : Nat) (j : Job) (lp slot i : Nat) : Option State :=
  let n := unitsFor j.lr.width j.lr.budget
  match fitRuns (runsBut s lp none) n 1, fitAreas s (lp / 32) c (areaBytes s c n) (areasOf s (lp / 32) c) 1 with
  | some (run :: _), some (area :: _) => some (s.setWave (lp * 16 + slot) (newWave s c j i area run))
  | _, _ => none

/-- The waves of a group on one core, each where the placer puts it. -/
def putGroup (s : State) (c core : Nat) (j : Job) : List Nat → Option State
  | [] => some s
  | i :: is =>
    match pickLane s core false (unitsFor j.lr.width j.lr.budget) with
    | none => none
    | some lp =>
      match freeSlot s lp with
      | none => none
      | some k => (putWaveAt s c j lp k i).bind (fun s => putGroup s c core j is)

/-- The two waves of a group in an aligned slot pair. -/
def putPair (s : State) (c core : Nat) (j : Job) (is : List Nat) : Option State :=
  match pickLane s core true (unitsFor j.lr.width j.lr.budget) with
  | none => none
  | some lp =>
    match freePair s lp with
    | none => none
    | some k => is.zipIdx.foldl (fun o x => o.bind (fun s => putWaveAt s c j lp (k + x.2) x.1)) (some s)

/-- A group on a core. -/
def placeOn (s : State) (c : Nat) (j : Job) (is : List Nat) (core : Nat) : Option State :=
  if !(s.core core).bankOn || (localSize s core c == 0) then none
  else if j.lr.teamPol == 2 then putPair s c core j is else putGroup s c core j is

/-- The first core of an order that can take a group. -/
def firstPlace (s : State) (c : Nat) (j : Job) (is : List Nat) : List Nat → Option (Nat × State)
  | [] => none
  | k :: ks =>
    match placeOn s c j is k with
    | some t => some (k, t)
    | none => firstPlace s c j is ks

/-! ### Heads of queues (R181) -/

/-- A queue's head: an open grid stands in its own place and is not yet ready. -/
def headOf (x : Ctx) (q : Nat) : Option Job :=
  x.jobs.find? (fun j => j.lr.queue == q && (j.state == .queued || j.state == .grid))

def Job.priority (j : Job) : Nat := min 7 (j.lr.prio + j.aged)

/-- A record comes to the head of its queue. -/
def noteHead (s : State) (c q : Nat) : State :=
  match (s.ctx? c).bind (fun x => headOf x q) with
  | some j =>
    if j.headAt.isSome then s
    else (s.updJob c j.id (fun j => { j with headAt := some s.clk.tick, groupAt := s.clk.tick })).afterTicks 4096 (.headAging c q)
  | none => s

def noteHeads (s : State) (c : Nat) : State := (List.range 8).foldl (fun s q => noteHead s c q) s

def insertHead (j : Job) : List Job → List Job
  | [] => [j]
  | k :: ks => if k.priority < j.priority then j :: k :: ks else k :: insertHead j ks

/-- The closed heads by effective priority, the lowest queue on ties. -/
def headsOf (x : Ctx) : List Job :=
  (((List.range 8).filterMap (headOf x)).filter (fun j => j.state == .queued)).foldl (fun l j => insertHead j l) []

/-- The next group of a job: after waves killed and launched again (R192), the next %launch. -/
def nextGroup (j : Job) : List Nat :=
  match j.redo with
  | i :: _ => j.redo.filter (fun k => k / j.lr.group == i / j.lr.group)
  | [] => (List.range (min j.lr.group (j.waves - j.next))).map (fun k => j.next + k)

/-- Has a head waited 4,096 ticks for one group, and so stops the others on its dies (R181)? -/
def Job.stopsOthers (tick : Nat) (j : Job) : Bool := j.state == .queued && decide (j.groupAt + 4096 ≤ tick)

/-- Does head h keep head j off its dies? Of two heads that have both waited so long, the one that has waited longer does
(log 54). -/
def Job.shutsOut (tick : Nat) (h j : Job) : Bool :=
  h.id != j.id && h.stopsOthers tick && (!j.stopsOthers tick || decide (h.groupAt < j.groupAt) ||
    (h.groupAt == j.groupAt && decide (h.id < j.id)))

/-- The dies that other heads keep a head off. A wave launched again is of no head (R192). -/
def shutDies (tick : Nat) (hs : List Job) (j : Job) : List Nat :=
  if j.redo.isEmpty then (hs.filter (fun h => h.shutsOut tick j)).flatMap (fun h => (List.range 8).filter h.lr.dieOk) else []

/-- The group that a context places next, with its core: relaunches first, then the heads in order. A head that has
waited 4,096 ticks keeps others off its dies. -/
def pickHead (s : State) (c : Nat) (hs : List Job) : List Job → Option (Job × List Nat × Nat × State)
  | [] => none
  | j :: js =>
    let is := nextGroup j
    match firstPlace s c j is ((coreOrder s c j.lr).filter (fun k => !(shutDies s.clk.tick hs j).contains (k / 32))) with
    | some (k, t) => some (j, is, k, t)
    | none => pickHead s c hs js

def pickPlace (s : State) (c : Nat) : Option (Job × List Nat × Nat × State) :=
  match s.ctx? c with
  | none => none
  | some x => if x.state != .running then none
    else pickHead s c (headsOf x) (x.jobs.filter (fun j => !j.redo.isEmpty) ++ headsOf x)

/-- Has another context with a group ready for the same core its turn there (R181)? -/
def rivalTurn (s : State) (c core : Nat) : Option Nat :=
  let ready := (s.ctxs.filter (fun (y : Nat × Ctx) => y.1 != c && y.2.state == .running && y.2.conf.units.getLsbD core &&
    (match pickPlace s y.1 with | some (_, _, k, _) => k == core | none => false))).map (fun (y : Nat × Ctx) => y.1)
  let turn := (s.core core).turn
  let order := (ready.filter (fun d => decide (turn < d))) ++ ready.filter (fun d => decide (d ≤ turn))
  match order with
  | [] => none
  | d :: _ =>
    let rank (n : Nat) : Nat := if turn < n then n else n + 4096
    if rank d < rank c then some d else none

/-- A group has been placed; where that frees a queue entry, a ready record of the wait list enters (R179). -/
def notePlaced (s : State) (c core : Nat) (j : Job) (is : List Nat) : State :=
  let s := s.setCore core { s.core core with turn := c }
  let s := s.updJob c j.id (fun j =>
    if j.redo.isEmpty then
      let n := j.next + is.length
      { j with next := n, alive := j.alive + is.length, groupAt := s.clk.tick, state := if decide (j.waves ≤ n) then .placed else j.state }
    else { j with redo := j.redo.filter (fun i => !is.contains i), alive := j.alive + is.length })
  (enterReady s c).ensureSoon (.dispatchPlacement c)

/-- A group that can be placed only on a unit that its owner has lent makes the owner reclaim it (R205). -/
def reclaimFor (s : State) (c : Nat) (js : List Job) : State :=
  match (List.range 256).find? (fun k => (unitsOf s c).getLsbD k && lentOut s c k && (s.core k).bankOn && !(s.core k).draining &&
    js.any (fun j => j.lr.dieOk (k / 32))) with
  | some k => s.ensureSoon (.reclaim k)
  | none => s

/-- DISPATCH_PLACEMENT: one placement group; tried again a tick later while records wait. -/
def dispatch (s : State) (c : Nat) : State :=
  let s := noteHeads s c
  match pickPlace s c with
  | some (j, is, k, t) =>
    (match rivalTurn s c k with
     | some d => (s.ensureSoon (.dispatchPlacement d)).ensureTicks 1 (.dispatchPlacement c)
     | none => notePlaced t c k j is)
  | none =>
    match s.ctx? c with
    | some x => if x.state == .running && x.jobs.any (fun j => j.state == .queued || !j.redo.isEmpty)
        then reclaimFor (s.ensureTicks 1 (.dispatchPlacement c)) c (x.jobs.filter (fun j => !j.redo.isEmpty) ++ headsOf x) else s
    | none => s

def execDispatchPlacement (ctx : Nat) (s : State) : Out := .next (dispatch s ctx)

/-- HEAD_AGING: a head has spent another 4,096 ticks at the head; those of a partition that was not on its units count too. -/
def execHeadAging (ctx queue : Nat) (s : State) : Out :=
  match (s.ctx? ctx).bind (fun x => headOf x queue) with
  | none => .next s
  | some j =>
    match j.headAt with
    | none => .next s
    | some t =>
      let n := (s.clk.tick - t) / 4096
      let s := s.ensureTicks (t + 4096 * (n + 1) - s.clk.tick) (.headAging ctx queue)
      if j.aged < n then .next ((s.updJob ctx j.id (fun j => { j with aged := n })).ensureSoon (.dispatchPlacement ctx)) else .next s

/-- GRID_CLOSE (R182): 256 cycles after its first record a grid closes. -/
def execGridClose (ctx queue : Nat) (s : State) : Out :=
  match s.ctx? ctx with
  | none => .next s
  | some x =>
    if x.jobs.any (fun j => j.state == .grid && j.lr.queue == queue && decide (j.arrived + 256 ≤ s.clk.cycle)) then
      .next ((s.setCtx ctx (closeGrid x queue)).ensureSoon (.dispatchPlacement ctx))
    else .next s

/-- One completion increment of a job is performed, or tried again later: at the tick its write waits for, or 4,096 ticks after a
fault, which is reported once (R180). Each counter has its own retry; a job that owes nothing more may go. -/
def payDue (s : State) (c id : Nat) : State :=
  let self : Instr := .waitCounterRetry c id
  let now (d : Due) : Bool := decide (d.when ≤ s.clk.tick)
  let put (s : State) (k : Nat) (d : Due) : State := s.updJob c id (fun j => { j with dues := j.dues.set k d })
  match s.job? c id with
  | none => s
  | some j =>
    match j.dues.findIdx? now with
    | none =>
      (match leastOf (j.dues.map (fun d => d.when)) with
       | none => dropJob s c id
       | some t => if s.sch.timers.any (fun x => x.onTick && x.ev == self && decide (x.due ≤ t)) then s else s.afterTicks (t - s.clk.tick) self)
    | some k =>
      let d := j.dues.getD k ⟨0, 0, 0, false⟩
      withRoom s c self (fun s => match bump s (launchCore s c) c d.cnt d.incr with
        | .wait a r => ((put s k { d with when := a }).gate a r none).ensureSoon self
        | .fail f =>
          (put (if d.told then s else raiseNoPath s c f) k { d with when := s.clk.tick + 4096, told := true }).ensureSoon self
        | .ok _ t => (t.updJob c id (fun j => { j with dues := j.dues.eraseIdx k })).ensureSoon self)

/-- WAIT_COUNTER_POLL (R180). -/
def execWaitCounterPoll (ctx id : Nat) (s : State) : Out := .next (settleHits (pollWait s ctx id))

/-- WAIT_COUNTER_RETRY (R180): a wait counter is read, or owed increments are performed. -/
def execWaitCounterRetry (ctx id : Nat) (s : State) : Out :=
  match s.job? ctx id with
  | none => .next s
  | some j => .next (settleHits (if j.state == .waiting then pollWait s ctx id else payDue s ctx id))

/-! ### A wave becomes FREE (R147, R155, R181) -/

/-- Killed for good: not to be launched again, so its record's counter does not advance (R192). -/
def lostIndex (j : Job) (i : Nat) : Bool := decide (4 ≤ Sp.get 0 j.killed i)

/-- One wave of a job is gone: its record, or its member of a grid, may be complete. -/
def endIndex (s : State) (c job i : Nat) : State :=
  let s := s.updJob c job (fun j => { j with alive := j.alive - 1 })
  match s.job? c job with
  | none => s
  | some j =>
    if decide (1 < j.members.length) then
      let more := s.waves.any (fun w => w.2.ctx == c && ((w.2.job == job && w.2.index == i) || w.2.also.contains (job, i)))
      if more || j.redo.contains i then s
      else if lostIndex j i then dropJob s c job
      else complete s c job (j.members.getD i j.lr)
    else if j.state == .placed && j.alive == 0 && j.redo.isEmpty then
      (if j.killed.any (fun k => decide (4 ≤ k.2)) then dropJob s c job else complete s c job j.lr)
    else s

/-- A wave's launches are told that it is gone. -/
def endLaunches (s : State) (c : Nat) (ls : List (Nat × Nat)) : State := ls.foldl (fun s x => endIndex s c x.1 x.2) s

/-- WAVE_FREE: team left, slot, units and areas free, records complete. -/
def freeWave (s : State) (wid : Nat) : State :=
  match s.wave? wid with
  | none => s
  | some w =>
    if !drained s wid w then s
    else
      let s := endLaunches (removeWave (leaveTeam s wid) wid) w.ctx ((w.job, w.index) :: w.also)
      (s.ctxs.map (fun (c : Nat × Ctx) => c.1)).foldl (fun s c => match s.ctx? c with
        | some x => if x.jobs.any (fun j => j.state == .queued) then s.ensureSoon (.dispatchPlacement c) else s
        | none => s) s

def execWaveFree (wave : Nat) (s : State) : Out := .next (settleHits (freeWave s wave))

/-! ### Issue (R186, R188, R233, R241, R266) -/

/-- PATH_URGENT (R186): after 16 cycles, or 1,024 of a demoted path. -/
def execPathUrgent (wave path : Nat) (s : State) : Out :=
  .next (s.updWave wave (fun w =>
    let p := w.path path
    if p.urgentAt.isNone && decide ((if p.demoted then 1024 else 16) ≤ p.eligible) then
      w.setPath path { p with urgentAt := some s.clk.cycle } else w))

/-- YIELD_EXPIRY (R266). -/
def execYieldExpiry (wave path : Nat) (s : State) : Out :=
  .next (s.updWave wave (fun w =>
    let p := w.path path
    if decide (p.yieldTo ≤ s.clk.cycle) then w.setPath path { p with yieldTo := 0 } else w))

/-- FETCH_BLOCK_ARRIVAL (R188, R189). -/
def execFetchBlockArrival (wave path addr : Nat) (s : State) : Out := .next (settleHits (fetchArrive s wave path addr))

/-- RESULT_WRITTEN (R233, R247). -/
def execResultWritten (wave id : Nat) (s : State) : Out := .next (resultLands s wave id)

/-- LANE_PAIR_CYCLE (R217, R218): the counts of the cycle that ends, and the next cycle. -/
def execLanePairCycle (s : State) : Out := .next (cycleOf s)

/-- NOT_AN_INSTRUCTION (R225, R241, R242): LEN, FETCH_CROSS or ILLEGAL of the issuing path, before its guard or budget is looked
at, but after an execute breakpoint (R221); inside a window it waits for the commit (R115; log 14). -/
def execNotAnInstruction (b : Bad) (s : State) : Out :=
  match s.sch.cur with
  | none => .fault .noIssuer
  | some c =>
    match s.wave? c.wave with
    | none => .fault .noIssuer
    | some w =>
      let p := w.path c.path
      let x : Iss := ⟨c, w, p, p.e.mask, w.seq, s.sch.free⟩
      let code := if b.len0 then Code.LEN else if b.cross then Code.FETCH_CROSS else Code.ILLEGAL
      match execHit s c w with
      | some n => breakAt x s n
      | none => raiseAt x s s { code := code, sub := b.subcode, mask := p.e.mask, extra := BitVec.ofNat 64 b.extra,
                                addr := if b.cross then c.pc else 0 }

/-! ### Resources and waits (R160, R167 to R169, R302) -/

/-- GROW_GRANT (R167, R168). -/
def execGrowGrant (wave : Nat) (s : State) : Out := .next (grantGrow s wave)

/-- SPILL (R169). -/
def execSpill (lp : Nat) (s : State) : Out :=
  match mustSpill s lp with
  | some (id, w) => .next (withLines s w.ctx (spillLines s id w) (.spill lp) (fun s => spillOne s lp))
  | none => .next s

/-- RESTORE (R168). -/
def execRestore (wave : Nat) (s : State) : Out := .next (restoreWave s wave)

/-- FUSE_TIMEOUT (R160). -/
def execFuseTimeout (wave req : Nat) (s : State) : Out := .next (fuseExpire s wave req)

/-- POLL_RECHECK (R302, R304). -/
def execPollRecheck (wave path : Nat) (s : State) : Out := .next (settleHits (recheckPoll s wave path))

end Sys2Proof.Machine
end

