-- ==== Sys2Proof/Machine/Errors.lean ====
section
/-!
DEFINITION. Uncorrectable errors: in a line of local space (R192), and in a register, a tile or an accumulator (R140, R323,
R325).
-/

namespace Sys2Proof.Machine

/-! ### Where a line of local space lies (R148, R192) -/

/-- Does an area at a base hold a line? -/
def inArea (base size off : Nat) : Bool := decide (base ≤ off) && decide (off < base + size)

/-- The team of a core whose arena holds an offset of a context. -/
def arenaAt (s : State) (core c off : Nat) : Option (Nat × Team) :=
  ((s.core core).teams.find? (fun t => t.2.ctx == c && inArea t.2.base t.2.size off)).map (fun t => (core * 64 + t.1, t.2))

/-- The wave of a core whose wave area holds an offset of a context, with that area. -/
def areaAt (s : State) (core c off : Nat) : Option (Nat × Nat × Nat) :=
  s.waves.findSome? (fun w =>
    if coreOf w.1 == core && w.2.ctx == c then
      (w.2.areas.find? (fun a => inArea a.1 a.2 off)).map (fun a => (w.1, a.1, a.2))
    else none)

/-- The lines of an area are zero and clean; a rollback of the partition brings them back. -/
def scrub (s : State) (core c base size : Nat) : State :=
  (List.range ((size + 127) / 128)).foldl (fun s i =>
    let off := base + 128 * i
    let s := localWrite s { core := core, ctx := c, lease := 16 } off (List.replicate 128 0)
    let k := localAddr s core c off / 128
    s.setLine k { s.line k with poison := false }) s

/-! ### Killing waves (R147, R192) -/

/-- The launches of a wave. -/
def launchesOf (w : Wave) : List (Nat × Nat) := (w.job, w.index) :: w.also

/-- Does a launch come from a record with IDEMPOTENT set? -/
def isIdempotent (s : State) (c : Nat) (l : Nat × Nat) : Bool := match s.job? c l.1 with
  | some j => (j.members.getD (if decide (1 < j.members.length) then l.2 else 0) j.lr).idempotent
  | none => false

/-- A killed launch: to be launched again, up to three times, or never complete. -/
def noteKilled (s : State) (c : Nat) (again : Bool) (l : Nat × Nat) : State :=
  s.updJob c l.1 (fun j =>
    let n := Sp.get 0 j.killed l.2 + 1
    if again && decide (n < 4) then { j with killed := Sp.insert j.killed l.2 n, redo := j.redo ++ [l.2] }
    else { j with killed := Sp.insert j.killed l.2 (max 4 n) })

/-- Is a launch to be launched again? -/
def willRedo (s : State) (c : Nat) (l : Nat × Nat) : Bool := match s.job? c l.1 with
  | some j => j.redo.contains l.2
  | none => false

/-- The team entry of a killed team goes with its arena, its copies and its collective. -/
def endTeam (s : State) (t : Nat) : State :=
  let s := (s.copies.filter (fun y => y.team == some t)).foldl (fun s y => dropCopy s y true) (s.dropColl t)
  let k := s.core (t / 64)
  s.setCore (t / 64) { k with teams := Sp.erase k.teams (t % 64) }

/-- The lowest of some wave ids. -/
def lowest : List Nat → Nat
  | [] => 0
  | w :: ws => ws.foldl min w

/-- Waves of a context are killed, with nothing drained; their launches start again, or a SCRATCH_UE record says that they
do not. -/
def killWaves (s : State) (c off : Nat) (team : Option Nat) (ids : List Nat) : State :=
  let ls := ids.flatMap (fun w => match s.wave? w with | some x => launchesOf x | none => [])
  let all := ls.all (isIdempotent s c)
  let s := ids.foldl removeWave s
  let s := match team with | some t => endTeam s t | none => s
  let s := ls.foldl (fun s l => noteKilled s c all l) s
  let redone := ls.all (willRedo s c)
  let s := if redone then s
    else raiseTo s c (ringFor s c .none) 0 (lowest ids)
      { code := Code.SCRATCH_UE, addr := BitVec.ofNat 64 off,
        extra := match team with | some t => BitVec.ofNat 64 t | none => 0xFFFFFFFFFFFFFFFF }
  (endLaunches s c ls).ensureSoon (.dispatchPlacement c)

/-! ### LOCAL_UE (R192) -/

/-- The line itself is poisoned. -/
def poisonLocal (s : State) (core c off : Nat) : State :=
  let k := localAddr s core c off / 128
  s.setLine k { s.line k with poison := true }

/-- The team of a wave with its members, or the wave alone. -/
def withTeam (s : State) (wid : Nat) : Option Nat × List Nat :=
  match s.wave? wid with
  | none => (none, [wid])
  | some w =>
    match w.team with
    | none => (none, [wid])
    | some t => (match Sp.find (s.core (t / 64)).teams (t % 64) with
      | some x => (some t, if x.members.contains wid then x.members else wid :: x.members)
      | none => (none, [wid]))

def localError (s : State) (core c off : Nat) : State :=
  let off := off / 128 * 128
  if localSize s core c ≤ off then s
  else if off < lstaticOf s c then poisonLocal s core c off
  else match arenaAt s core c off with
    | some (t, x) => killWaves (scrub s core c x.base x.size) c off (some t) x.members
    | none =>
      match areaAt s core c off with
      | some (w, base, size) =>
        let (team, ids) := withTeam s w
        killWaves (scrub s core c base size) c off team ids
      | none => poisonLocal s core c off

def execLocalUe (core ctx off : Nat) (s : State) : Out := .next (settleHits (localError s core ctx off))

/-! ### REGISTER_UE (R140, R323) -/

/-- The register, word, byte or element keeps its value and takes the tag. -/
def tagSite (s : State) : UeSite → State
  | .vreg w r t => s.updWave w (fun x => x.poke (.v r t ⟨(x.v r t).val, true⟩))
  | .sreg w r => s.updWave w (fun x => x.poke (.s r ⟨(x.s r).val, true⟩))
  | .pred w p t => s.updWave w (fun x => x.poke (.p p t ⟨(x.p p t).val, true⟩))
  | .tileWord c t n => s.setMx { s.mx with wpoison := Sp.put false s.mx.wpoison (wordKey c t n) true }
  | .tileScale c t n => s.setMx { s.mx with spoison := Sp.put false s.mx.spoison (sclKey c t n) true }
  | .accElem c a e => s.setAcc c a (e / 512) (e % 512) { s.accElem c a (e / 512) (e % 512) with poison := true }

def execRegisterUe (site : UeSite) (s : State) : Out := .next (tagSite s site)

end Sys2Proof.Machine
end

