-- ==== Sys2Proof/Machine/Float.lean ====
section
/-!
DEFINITION. Floating-point instructions, conversions and predicate instructions (R253 to R260): one meaning for each.
-/

namespace Sys2Proof.Machine

/-! ### Arithmetic (R254) -/

/-- FADD (R254). -/
def execFadd (o : Flt) (s : State) : Out :=
  flt32 (.fadd o) o 2 (fun _ => fpCycles) (fun x => fAddR .f32 o.rnd (f32 x.a) (f32 x.b)) s
/-- FSUB (R254). -/
def execFsub (o : Flt) (s : State) : Out :=
  flt32 (.fsub o) o 2 (fun _ => fpCycles) (fun x => fAddR .f32 o.rnd (f32 x.a) (fNeg (f32 x.b))) s
/-- FMUL (R254). -/
def execFmul (o : Flt) (s : State) : Out :=
  flt32 (.fmul o) o 2 (fun _ => fpCycles) (fun x => fMulR .f32 o.rnd (f32 x.a) (f32 x.b)) s
/-- FFMA (R254). -/
def execFfma (o : Flt) (s : State) : Out :=
  flt32 (.ffma o) o 3 (fun _ => fpCycles) (fun x => fFmaR .f32 o.rnd (f32 x.a) (f32 x.b) (f32 x.c)) s
/-- FMIN (R254). -/
def execFmin (o : Flt) (s : State) : Out :=
  flt32 (.fmin o) o 2 (fun _ => fpCycles) (fun x => fMinMax .f32 false x.a.toNat x.b.toNat) s
/-- FMAX (R254). -/
def execFmax (o : Flt) (s : State) : Out :=
  flt32 (.fmax o) o 2 (fun _ => fpCycles) (fun x => fMinMax .f32 true x.a.toNat x.b.toNat) s

/-- FCMP (R255). -/
def execFcmp (cond : FCond) (o : Flt) (s : State) : Out :=
  computeLater (.fcmp cond o) o.s (fun _ => fpCycles) (fun w free t =>
    let a := src32 w free o.s t o.a
    let b := src32 w free o.s t o.b
    let p := a.poison || b.poison
    let r := fCompare cond a.val.toNat b.val.toNat
    ⟨dstP o.s o.dst t (r.1, p), quiet p r.2⟩) s

/-- FCLASS (R255). -/
def execFclass (o : Flt) (s : State) : Out :=
  flt32 (.fclass o) o 1 (fun _ => fpCycles) (fun x => ⟨fClass x.a.toNat, 0⟩) s

/-! ### Special functions (R256) -/

/-- FRCP (R256). -/
def execFrcp (o : Flt) (s : State) : Out := flt32 (.frcp o) o 1 sfuCycles (fun x => fRcp x.a.toNat) s
/-- FRSQ (R256). -/
def execFrsq (o : Flt) (s : State) : Out := flt32 (.frsq o) o 1 sfuCycles (fun x => fRsq x.a.toNat) s
/-- FSQRT (R256). -/
def execFsqrt (o : Flt) (s : State) : Out := flt32 (.fsqrt o) o 1 sfuCycles (fun x => fSqrt x.a.toNat) s
/-- FEXP2 (R256). -/
def execFexp2 (o : Flt) (s : State) : Out := flt32 (.fexp2 o) o 1 sfuCycles (fun x => fExp2 x.a.toNat) s
/-- FLOG2 (R256). -/
def execFlog2 (o : Flt) (s : State) : Out := flt32 (.flog2 o) o 1 sfuCycles (fun x => fLog2 x.a.toNat) s
/-- FSIN (R256). -/
def execFsin (o : Flt) (s : State) : Out := flt32 (.fsin o) o 1 sfuCycles (fun x => fSinPi x.a.toNat) s
/-- FCOS (R256). -/
def execFcos (o : Flt) (s : State) : Out := flt32 (.fcos o) o 1 sfuCycles (fun x => fCosPi x.a.toNat) s
/-- FRND (R256). -/
def execFrnd (o : Flt) (s : State) : Out := flt32 (.frnd o) o 1 (fun _ => fpCycles) (fun x => fRnd o.rnd x.a.toNat) s

/-! ### Packed halves (R257) -/

/-- The two 16-bit elements of a word, each by f; their status bits are ORed. -/
def halves (f : Nat → Nat → Nat → FR) (x : In3) : FR :=
  let lo (v : Word32) : Nat := v.toNat % 65536
  let hi (v : Word32) : Nat := v.toNat / 65536
  let a := f (lo x.a) (lo x.b) (lo x.c)
  let b := f (hi x.a) (hi x.b) (hi x.c)
  ⟨b.code * 65536 + a.code, a.flags ||| b.flags⟩

/-- BADD2 (R257). -/
def execBadd2 (o : Flt) (s : State) : Out :=
  flt32 (.badd2 o) o 2 (fun _ => fpCycles)
    (halves (fun a b _ => fAddR .bf16 .rn (fDecode .bf16 a) (fDecode .bf16 b))) s
/-- BMUL2 (R257). -/
def execBmul2 (o : Flt) (s : State) : Out :=
  flt32 (.bmul2 o) o 2 (fun _ => fpCycles)
    (halves (fun a b _ => fMulR .bf16 .rn (fDecode .bf16 a) (fDecode .bf16 b))) s
/-- BFMA2 (R257). -/
def execBfma2 (o : Flt) (s : State) : Out :=
  flt32 (.bfma2 o) o 3 (fun _ => fpCycles)
    (halves (fun a b c => fFmaR .bf16 .rn (fDecode .bf16 a) (fDecode .bf16 b) (fDecode .bf16 c))) s
/-- HFMA2 (R257). -/
def execHfma2 (o : Flt) (s : State) : Out :=
  flt32 (.hfma2 o) o 3 (fun _ => fpCycles)
    (halves (fun a b c => fFmaR .f16 .rn (fDecode .f16 a) (fDecode .f16 b) (fDecode .f16 c))) s

/-! ### Conversions (R259) -/

/-- FCVT (R259). -/
def execFcvt (d sf : FFmt) (sat : Bool) (o : Flt) (s : State) : Out :=
  flt32 (.fcvt d sf sat o) o 1 (fun _ => fpCycles) (fun x => fCvt d sf o.rnd sat x.a.toNat) s

/-- Element j of width b of a word replaced. -/
def putElem (v : Word32) (b j n : Nat) : Word32 :=
  let m : Word32 := BitVec.ofNat 32 ((2 ^ b - 1) * 2 ^ (b * j))
  (v &&& ~~~m) ||| BitVec.ofNat 32 (n % 2 ^ b * 2 ^ (b * j))

/-- FCVTP (R259): vD is a source too. -/
def execFcvtp (d : FFmt) (sat : Bool) (j : BitVec 2) (o : Flt) (s : State) : Out :=
  computeLater (.fcvtp d sat j o) o.s (fun _ => fpCycles) (fun w free t =>
    let a := src32 w free o.s t o.a
    let b := src32 w free o.s t o.b
    let old := src32 w free o.s t (.reg o.dst)
    let p := a.poison || b.poison || old.poison
    let x := fCvt d .f32 o.rnd sat a.val.toNat
    let y := fCvt d .f32 o.rnd sat b.val.toNat
    let v := putElem (putElem old.val (fBits d) (2 * j.toNat) x.code) (fBits d) (2 * j.toNat + 1) y.code
    ⟨dst32 o.s o.dst t ⟨v, p⟩, quiet p (x.flags ||| y.flags)⟩) s

/-- FCVTX (R259). -/
def execFcvtx (sf : FFmt) (j : BitVec 3) (o : Flt) (s : State) : Out :=
  flt32 (.fcvtx sf j o) o 1 (fun _ => fpCycles)
    (fun x => fCvt .f32 sf .rn false (x.a.toNat / 2 ^ (fBits sf * j.toNat))) s

/-- I2F (R259). -/
def execI2f (ty : IType) (o : Flt) (s : State) : Out :=
  flt32 (.i2f ty o) o 1 (fun _ => fpCycles) (fun x => fRound .f32 o.rnd false (fOfInt (tyExt ty x.a))) s

/-- F2I (R259). -/
def execF2i (ty : IType) (o : Flt) (s : State) : Out :=
  flt32 (.f2i ty o) o 1 (fun _ => fpCycles) (fun x =>
    let r := fToI ty o.rnd (f32 x.a)
    ⟨(tyFit ty false r.1).toNat, r.2⟩) s

/-! ### Predicates (R260) -/

/-- PAND (R260). -/
def execPand (o : Prd) (s : State) : Out := pred2 (.pand o) o true (fun a b => a && b) s
/-- POR (R260). -/
def execPor (o : Prd) (s : State) : Out := pred2 (.por o) o true (fun a b => a || b) s
/-- PXOR (R260). -/
def execPxor (o : Prd) (s : State) : Out := pred2 (.pxor o) o true (fun a b => a != b) s
/-- PNOT (R260). -/
def execPnot (o : Prd) (s : State) : Out := pred2 (.pnot o) { o with na := false } false (fun a _ => !a) s
/-- PMOV (R260). -/
def execPmov (o : Prd) (s : State) : Out := pred2 (.pmov o) { o with na := false } false (fun a _ => a) s

/-- The 24 predicates of a thread as a word, and whether one is poisoned. -/
def predWord (w : Wave) (free t : Nat) : Nat → Nat × Bool
  | 0 => (0, false)
  | n + 1 =>
    let r := predWord w free t n
    let b := w.readP free n t
    (r.1 + (if b.val then 2 ^ n else 0), r.2 || b.poison)

/-- P2V (R260). -/
def execP2v (ctl : Ctl) (dst : BitVec 8) (s : State) : Out :=
  compute (.p2v ctl dst) false (fun w free t =>
    let r := predWord w free t 24
    [.v dst.toNat t ⟨BitVec.ofNat 32 r.1, r.2⟩]) s

/-- V2P (R260). -/
def execV2p (ctl : Ctl) (a : BitVec 8) (mask : BitVec 24) (s : State) : Out :=
  compute (.v2p ctl a mask) false (fun w free t =>
    let v := w.readV free a.toNat t
    ((List.range 24).filter mask.getLsbD).map (fun n => .p n t ⟨v.val.getLsbD n, v.poison⟩)) s

end Sys2Proof.Machine
end

