-- ==== Sys2Proof/Machine/Homes.lean ====
section
/-!
DEFINITION. Homes that move and homes that fail: dual-home windows (R93, R94), lost parts (R100, R101), failed dies,
devices and memory devices (R371, R372).
-/

namespace Sys2Proof.Machine

/-! ### A part under another device address -/

/-- The range of a context that maps a device extent, with the extent at its new place: up to three pieces. -/
def moveRange (old len new : Nat) (r : Range) : List Range :=
  let lo := max old r.dbase
  let hi := min (old + len) (r.dbase + r.len)
  if hi ≤ lo then [r]
  else
    (if r.dbase < lo then [{ r with len := lo - r.dbase }] else []) ++
      [⟨r.gbase + (lo - r.dbase), hi - lo, new + (lo - old), r.perm⟩] ++
      (if hi < r.dbase + r.len then [⟨r.gbase + (hi - r.dbase), r.dbase + r.len - hi, hi, r.perm⟩] else [])

/-- A flattened set once an extent has moved. -/
def movedFlat (old len new : Nat) (c : Ctx) : List Range := c.flat.flatMap (moveRange old len new)

/-- Every range that maps an extent is rewritten, and the grant version of each context concerned rises (R93, R100). -/
def rewriteExtent (s : State) (old len new : Nat) : State :=
  let hit := (s.ctxs.filter (fun (c : Nat × Ctx) => movedFlat old len new c.2 != c.2.flat)).map (fun (c : Nat × Ctx) => c.1)
  restartWalks (hit.foldl (fun s c => s.updCtx c (fun x => { x with flat := movedFlat old len new x, gver := x.gver + 1 })) s)
    (fun c _ => hit.contains c)

/-- Line numbers, REPLY addresses, translations in use that name part o name part n. -/
def renameRefs (s : State) (o n : Nat) : State :=
  let line (l : Nat) : Nat := if l / 512 == o then n * 512 + l % 512 else l
  let out (x : Outst) : Outst := { x with reply := x.reply.map (fun d => if d / 65536 == o then n * 65536 + d % 65536 else d) }
  let ent (e : TlbEntry) : TlbEntry := if e.part == o then { e with part := n } else e
  let xl (x : Xl) : Xl :=
    { x with dev := if x.dev / 65536 == o then n * 65536 + x.dev % 65536 else x.dev, ent := x.ent.map ent }
  let wave (w : Wave) : Wave :=
    { w with win := w.win.map (fun (v : Window) => { v with reads := v.reads.map (fun r => { r with line := line r.line }) }),
             accs := w.accs.map (fun a => { a with lanes := a.lanes.map (fun n => { n with xl := n.xl.map xl }) }) }
  let part (p : Partition) : Partition := { p with log := p.log.map (fun g => { g with line := line g.line }) }
  { s with waves := s.waves.map (fun (w : Nat × Wave) => (w.1, wave w.2)),
           parts := s.parts.map (fun (p : Nat × Partition) => (p.1, part p.2)),
           ctxs := s.ctxs.map (fun (c : Nat × Ctx) => (c.1, { c.2 with ring := { c.2.ring with out := c.2.ring.out.map out } })),
           dev := { s.dev with orphans := s.dev.orphans.map (fun (y : Nat × Outst) => (y.1, out y.2)) } }

/-- A die's Atlas entry takes the new address; a full set there first evicts the part (R49, R58). -/
def renameAtlas (s : State) (die o n : Nat) : State :=
  match s.atlas die o with
  | none => s
  | some e =>
    let others := (s.die die).atlas.filter (fun x => x.part != o && atlasSet x.part == atlasSet n)
    if decide (8 ≤ others.length) then evict s die o
    else
      let way := ((List.range 8).find? (fun w => !(others.map (·.way)).contains w)).getD e.way
      let d := s.die die
      s.setDie die { d with atlas := d.atlas.map (fun x => if x.part == o then { e with part := n, way := way } else x) }

/-- Directory words, poison, the lost mark of a part go with it. -/
def moveWords (s : State) (o n : Nat) : Nat → State
  | 0 => s
  | i + 1 =>
    let s := s.setDir (n * 512 + i) (s.dirOf (o * 512 + i))
    let s := s.setHomePoison (n * 512 + i) (s.homePoison (o * 512 + i))
    moveWords ((s.setDir (o * 512 + i) {}).setHomePoison (o * 512 + i) false) o n i

/-- Part o becomes part n in Atlas entries, frame records, directory words and what names its lines. -/
def renamePart (s : State) (o n : Nat) : State :=
  let s := (List.range 8).foldl (fun s d => renameAtlas s d o n) s
  let s := { s with frames := s.frames.map (fun (f : Nat × FrameRec) =>
    if f.2.part == o && f.2.kind != FKind.free && f.2.kind != FKind.locl then (f.1, { f.2 with part := n }) else f) }
  let s := { s with dies := s.dies.map (fun (d : Nat × Die) =>
    (d.1, { d.2 with holds := d.2.holds.map (fun (h : Hold) => if h.part == o then { h with part := n } else h) })) }
  let s := match Sp.find s.homes.lost o with
    | some ls =>
      let lost := Sp.insert (Sp.erase s.homes.lost o) n (ls.map (fun l => n * 512 + l % 512))
      { s with homes := { s.homes with lost := lost } }
    | none => s
  renameRefs (moveWords s o n 512) o n

/-! ### Dual-home windows (R93, R94) -/

/-- Is a 2 MiB extent free of every root's ranges? -/
def extentFree (s : State) (b : Nat) : Bool :=
  s.ctxs.all (fun c => c.2.parent.isSome || c.2.flat.all (fun r =>
    decide (r.dbase + r.len ≤ b) || decide (b + page2M ≤ r.dbase)))

/-- The home memory of an extent becomes a copy of another's. -/
def copyHome (s : State) (src dst len : Nat) : State :=
  let rest := s.mem.filter (fun c => decide (c.1 < dst) || decide (dst + len ≤ c.1))
  let cs := s.mem.filter (fun c => decide (src ≤ c.1) && decide (c.1 < src + len))
  { s with mem := cs.foldl (fun m c => Memory.write m (dst + (c.1 - src)) c.2) rest }

/-- DUAL_HOME_OPEN (R93 steps 1): the new home must be HBM with 2 MiB free. -/
def openDual (s : State) (page base : Nat) : State :=
  if kindOf base != 0 || base % page2M != 0 || base / page2M == page || !installed s base || !extentFree s base ||
      s.homes.dual.any (fun w => w.page == page || w.base / page2M == base / page2M) then s
  else
    let s := copyHome s (page * page2M) base page2M
    { s with homes := { s.homes with dual := s.homes.dual ++ [{ page := page, base := base }] } }

def execDualHomeOpen (page newBase : Nat) (s : State) : Out := .next (openDual s page newBase)

/-- The dies that hold a part register at its new home. -/
def registerAll (s : State) (part : Nat) : List Nat → Res Unit
  | [] => .ok () s
  | d :: ds =>
    match registerHolder s part d with
    | .ok _ s => registerAll s part ds
    | r => r

/-- The devices that hold a part register at its new home. -/
def registerDevs (s : State) (part : Nat) : List Nat → Res Unit
  | [] => .ok () s
  | d :: ds =>
    match registerDev s part d with
    | .ok _ s => registerDevs s part ds
    | r => r

def vecOf (s : State) (part : Nat) : List Nat :=
  match (s.die (homeDie s (part * 65536))).holders.find? (fun x => x.part == part) with
  | some x => threads x.vec
  | none => []

def devVecOf (s : State) (part : Nat) : List Nat :=
  match (s.die (homeDie s (part * 65536))).devHolders.find? (fun x => x.part == part) with
  | some x => threads x.vec
  | none => []

/-- The holder entries of parts o.., of dies and of devices, move to the home of parts n... -/
def moveHolders (s : State) (o n : Nat) : Nat → Res Unit
  | 0 => .ok () s
  | i + 1 =>
    match registerAll s (n + i) (vecOf s (o + i)) with
    | .ok _ s =>
      match registerDevs s (n + i) (devVecOf s (o + i)) with
      | .ok _ s =>
        let h := homeDie s ((o + i) * 65536)
        let d := s.die h
        moveHolders (s.setDie h { d with holders := d.holders.filter (fun x => x.part != o + i),
                                         devHolders := d.devHolders.filter (fun x => x.part != o + i) }) o n i
      | r => r
    | r => r

def renameParts (s : State) (o n : Nat) : Nat → State
  | 0 => s
  | i + 1 => renameParts (renamePart s (o + i) (n + i)) o n i

/-- The page's ranges, directory words, holder entries and frames name the new home, which knows the old one's mark, once no part of it
is held or moves (R53, R60). -/
def movePage (s : State) (w : Dual) : Res Unit :=
  let o := w.page * 32
  let n := w.base / 65536
  if (List.range 8).any (fun d => (List.range 32).any (fun i => !atRest s d (o + i))) then .wait (s.clk.tick + 1) 0
  else match moveHolders s o n 32 with
  | .ok _ s =>
    let m := homeMarkOf s (w.page * page2M)
    .ok () (raiseHome (renameParts (rewriteExtent s (w.page * page2M) page2M w.base) o n 32) w.base m)
  | r => r

/-- SWITCH (R93 steps 2 to 4): where a context would exceed 64 ranges the window ends without it. -/
def switchPage (s : State) (page : Nat) : State :=
  match s.homes.dual.find? (fun w => w.page == page && !w.switched) with
  | none => s
  | some w =>
    let others := s.homes.dual.filter (fun x => x.page != page)
    if s.ctxs.any (fun c => decide (64 < (movedFlat (page * page2M) page2M w.base c.2).length)) then
      { s with homes := { s.homes with dual := others } }
    else match movePage s w with
      | .wait t r => s.waitTick t r (.switch page)
      | .fail _ => s
      | .ok _ s =>
        { s with homes := { s.homes with dual := others ++ [{ w with switched := true, redirect := true }] } }.later
          (.purgeComplete page)

def execSwitch (page : Nat) (s : State) : Out := .next (settleHits (switchPage s page))

/-- PURGE_COMPLETE (R93): no old translation is left, and the old home stops redirecting. -/
def purgePage (s : State) (page : Nat) : State :=
  if s.homes.dual.any (fun w => w.page == page && w.switched) then
    let s := dropTlb s (fun e => e.part / 32 == page)
    { s with homes := { s.homes with dual := s.homes.dual.filter (fun w => w.page != page || !w.switched) } }
  else s

def execPurgeComplete (page : Nat) (s : State) : Out := .next (purgePage s page)

/-! ### Lost parts (R100, R101) -/

/-- The granted address at which a context maps a device address. -/
def mappedAt (x : Ctx) (d : Nat) : Option Nat :=
  (x.flat.find? (fun r => decide (r.dbase ≤ d) && decide (d < r.dbase + r.len))).map (fun r => r.gbase + (d - r.dbase))

/-- A part is marked lost, and every context whose ranges cover it gets a HOMELOST record. -/
def losePart (s : State) (part : Nat) (ls : List Nat) : State :=
  if ls.isEmpty then s
  else
    let s := { s with homes := { s.homes with lost := Sp.insert s.homes.lost part ls } }
    (s.ctxs.map (fun (c : Nat × Ctx) => c.1)).foldl (fun s c => match s.ctx? c with
      | none => s
      | some x =>
        match mappedAt x (part * 65536) with
        | some g => raiseNoPath s c { code := Code.HOMELOST, addr := BitVec.ofNat 64 g, extra := BitVec.ofNat 64 ls.length }
        | none => s) s

/-- The tick at which copies that some parts have on the surviving dies may go, where that is not now: their leases must be over,
no line of them pinned (R77), and none of them held or on the move (R53, R60). -/
def removalDue (s : State) (gone : Nat → Bool) : Option Nat :=
  let fs := (s.frames.filter (fun (f : Nat × FrameRec) => (f.2.kind == FKind.primary || f.2.kind == FKind.replica) &&
    gone (f.2.part * 65536) && !(s.die (f.1 / 8192)).down)).map (fun (f : Nat × FrameRec) => f.1)
  let t := fs.foldl (fun m k => max m (maxRts s k)) 0
  if !fs.isEmpty && decide (s.clk.tick ≤ t) then some (t + 1)
  else if s.lines.any (fun (x : Nat × LineRec) => x.2.pinned && fs.contains (x.1 / 512)) ||
      fs.any (fun k => !atRest s (k / 8192) (s.frame k).part) then some (s.clk.tick + 1)
  else none

/-- A die's primary of a part goes, and nothing of it is written back. -/
def discardPart (s : State) (die part : Nat) : State :=
  match primaryOf s die part with
  | none => s
  | some fk =>
    let clean (s : State) (l : Nat) : State :=
      let k := flKey fk (l % 512)
      let s := s.setLine k { s.line k with valid := false, state := .i, dirty := false }
      strikeDie s die l
    evict ((validLines s fk part).foldl clean s) die part

def discardParts (s : State) (part : Nat) : State := (List.range 8).foldl (fun s d => discardPart s d part) s

/-- The lines of a part. -/
def linesOf (part : Nat) : List Nat := (List.range 512).map (fun i => part * 512 + i)

/-- The dies that survive. -/
def survivors (s : State) : List Nat := (List.range 8).filter (fun d => !(s.die d).down)

/-- A line that a survivor holds in M or O: its bytes and poison. -/
def heldModified (s : State) (l : Nat) : Option (List Byte × Bool) :=
  (survivors s).findSome? (fun d => match dieLine s d l with
    | some (k, r) => if r.state == .m || r.state == .o then some (s.fbytes (k / 512) (l % 512 * 128) 128, r.poison) else none
    | none => none)

/-- One part of a failed home at its spare home, at the time of the step: the lines that survivors report are written there, the
others are lost (R100 steps 2 and 3), unless the spare home has them (`kept`). -/
def recoverPart (s : State) (o n : Nat) (kept : Bool) : State :=
  let found := (linesOf o).filterMap (fun l => (heldModified s l).map (fun x => (l, x)))
  let bad := (linesOf o).filter (fun l => s.homePoison l)
  let s := discardParts s o
  let s := (linesOf o).foldl (fun s l => (s.setDir l {}).setHomePoison l false) s
  let s := renameRefs s o n
  let s := if kept then bad.foldl (fun s l => s.setHomePoison (n * 512 + l % 512) true) s else s
  let s := found.foldl (fun s y =>
    (homeWrite s (n * 65536 + y.1 % 512 * 128) y.2.1).setHomePoison (n * 512 + y.1 % 512) y.2.2) s
  let s := raiseHome s (n * 65536) (max s.clk.tick (homeMarkOf s (o * 65536)))
  if kept then s
  else losePart s n (((linesOf o).filter (fun l => !found.any (fun y => y.1 == l))).map (fun l => n * 512 + l % 512))

def recoverParts (s : State) (o n : Nat) (kept : Nat → Bool) : Nat → State
  | 0 => s
  | i + 1 => recoverParts (recoverPart s (o + i) (n + i) (kept (o + i))) o n kept i

/-- What the roots' ranges take of a die's HBM, as offsets. -/
def hbmTaken (s : State) (die : Nat) : List (Nat × Nat) :=
  s.ctxs.flatMap (fun c => if c.2.parent.isSome then [] else
    (c.2.flat.filter (fun r => kindOf r.dbase == 0 && deviceOf r.dbase == s.dev.devId.toNat &&
      r.dbase / 0x200000000000 % 8 == die)).map (fun r => (r.dbase % 0x200000000000, r.len)))

abbrev hbmSize : Nat := 0x2000000000

/-- The least offset at which a length of a die's HBM is free. -/
def hbmFit (s : State) (die len : Nat) : Option Nat :=
  let iv := hbmTaken s die
  leastOf ((0 :: iv.map (fun x => x.1 + x.2)).filter (fun c => decide (c + len ≤ hbmSize) && clearOf iv c len))

/-- The spare home for an extent: on the surviving die with the most unallocated HBM (R100 step 3). -/
def spareHome (s : State) (len : Nat) : Option Nat :=
  let free (d : Nat) : Nat := hbmSize - ((hbmTaken s d).map (fun x => x.2)).foldl (· + ·) 0
  let best := ((survivors s).filter (fun d => s.dev.dieUp.getLsbD d && (hbmFit s d len).isSome)).foldl (fun b d => match b with
    | some y => if free y < free d then some d else b
    | none => some d) none
  best.bind (fun d => (hbmFit s d len).map (fun o => s.dev.devId.toNat * 0x4000000000000 + d * 0x200000000000 + o))

/-- The extents of the roots' ranges that a test selects. -/
def rootExtents (s : State) (gone : Nat → Bool) : List (Nat × Nat) :=
  (s.ctxs.flatMap (fun c => if c.2.parent.isSome then [] else
    (c.2.flat.filter (fun r => gone r.dbase)).map (fun r => (r.dbase, r.len)))).eraseDups

/-- The surviving die whose homes have given data with timestamps that the time has not passed (R379), with the tick at which it has. -/
def markDue (s : State) : Option (Nat × Nat) :=
  ((survivors s).find? (fun d => decide (s.clk.tick ≤ (s.die d).homeMark))).map (fun d => (d, (s.die d).homeMark + 1))

/-- One extent with failed homes: rewritten to a spare home and recovered there, or lost where there is no room. The parts whose
home stands go to the spare home with it, whole (log 40). -/
def recoverExtent (s : State) (old len : Nat) (stands : Nat → Bool) : State :=
  let s := dropTlb s (fun e => decide (old ≤ e.part * 65536) && decide (e.part * 65536 < old + len))
  match spareHome s len with
  | some new =>
    let s := ((List.range (len / 65536)).filter (fun i => stands (old / 65536 + i))).foldl (fun s i =>
      copyHome s (old + i * 65536) (new + i * 65536) 65536) s
    recoverParts (rewriteExtent s old len new) (old / 65536) (new / 65536) stands (len / 65536)
  | none => ((List.range (len / 65536)).filter (fun i => !stands (old / 65536 + i))).foldl (fun s i =>
      recoverPart s (old / 65536 + i) (old / 65536 + i) false) s

/-- A page of a failed home with an open window: the new home, which has every acknowledged write, is its spare home (R94). -/
def recoverDual (s : State) (w : Dual) : State :=
  let s := { s with homes := { s.homes with dual := s.homes.dual.filter (fun x => x.page != w.page) } }
  let s := dropTlb s (fun e => e.part / 32 == w.page)
  recoverParts (rewriteExtent s (w.page * page2M) page2M w.base) (w.page * 32) (w.base / 65536) (fun _ => true) 32

/-- Windows whose new home is gone end without a switch; then every page that a test selects and that has an open window is recovered
there (R94). -/
def recoverDuals (s : State) (gone hit : Nat → Bool) : State :=
  let s := { s with homes := { s.homes with dual := s.homes.dual.filter (fun w => w.switched || !gone w.base) } }
  (s.homes.dual.filter (fun w => hit (w.page * page2M) && !w.switched)).foldl recoverDual s

/-- R100 for every page and extent whose home is gone: those with an open window first. -/
def recoverHomes (s : State) (gone : Nat → Bool) : State :=
  let s := recoverDuals s gone gone
  (rootExtents s gone).foldl (fun s x => recoverExtent s x.1 x.2 (fun _ => false)) s

/-- The second tier once a die has failed: every extent, of which that die homes an eighth (R81, R100). -/
def recoverTier2 (s : State) (die : Nat) : State :=
  (rootExtents s (fun d => kindOf d == 1 && deviceOf d == s.dev.devId.toNat)).foldl (fun s x =>
    recoverExtent s x.1 x.2 (fun p => p % 8 != die)) s

/-- Parts whose memory is gone are lost where they stand (R372), and their copies go once that is allowed (R77). -/
def loseParts (s : State) (ps : List Nat) (self : Instr) : State :=
  let s := (ps.filter (fun p => (Sp.find s.homes.lost p).isNone)).foldl (fun s p => losePart s p (linesOf p)) s
  match removalDue s (fun d => ps.contains (partOf d)) with
  | some t => s.waitTick t 0 self
  | none => ps.foldl (fun s p => (linesOf p).foldl (fun s l => s.setDir l {}) (discardParts s p)) s

/-- What a failed die held of other homes goes with it: the homes forget it, its modified lines are poisoned there
(log 40). -/
def forgetDie (s : State) (die : Nat) : State :=
  let prim := ((s.die die).atlas).map (fun e => (frameKey e.pcore e.pframe, e.part))
  prim.foldl (fun s x =>
    let dirty := (validLines s x.1 x.2).filter (fun l => match dieLine s die l with
      | some (_, r) => r.state == .m || r.state == .o
      | none => false)
    dirty.foldl (fun s l => s.setHomePoison l true) (evict s die x.2)) s

/-- Is the home of a device address on a die of this device? -/
def homedOn (s : State) (die a : Nat) : Bool := kindOf a == 0 && deviceOf a == s.dev.devId.toNat && a / 0x200000000000 % 8 == die

/-- HOME_FAILURE_RECOVERY (R100): a die fails, and accesses to its homes wait; then, once no lease on them stands (R77), its homes
are recovered. -/
def failDie (s : State) (die : Nat) : State :=
  let d := s.die die
  if !d.down then (s.setDie die { d with down := true }).later (.homeFailureRecovery die)
  else if !s.dev.dieUp.getLsbD die then s
  else match removalDue s (fun a => homedOn s die a || (kindOf a == 1 && deviceOf a == s.dev.devId.toNat)) with
    | some t => s.waitTick t 0 (.homeFailureRecovery die)
    | none =>
    match markDue s with
    | some (d, t) => s.waitTick t (gateReason 0 d) (.homeFailureRecovery die)
    | none =>
      let tier (a : Nat) : Bool := kindOf a == 1 && deviceOf a == s.dev.devId.toNat
      let s := recoverDuals (forgetDie s die) (homedOn s die) (fun a => homedOn s die a || tier a)
      let s := recoverTier2 (recoverHomes s (homedOn s die)) die
      { s with dev := { s.dev with dieUp := s.dev.dieUp &&& ~~~(1#8 <<< die) } }

def execHomeFailureRecovery (die : Nat) (s : State) : Out := .next (settleHits (failDie s die))

/-- HOMELOST_CLEAR (R101): lost lines then read with POISON set, and a value the manual does not give (log 5). -/
def clearLost (s : State) (part : Nat) : State :=
  match Sp.find s.homes.lost part with
  | none => s
  | some ls =>
    let free := s.sch.free
    let s := { s with homes := { s.homes with lost := Sp.erase s.homes.lost part } }
    (ls.foldl (fun s l => (homeWrite s (l * 128) ((List.range 128).map (fun i => Config.freeByte free (l * 128 + i)))).setHomePoison
      l true) s).tickFree

def execHomelostClear (part : Nat) (s : State) : Out := .next (clearLost s part)

/-- DEVICE_UNREACHABLE (R371): a peer device is treated as failed. -/
def loseDevice (s : State) (dev : Nat) : State :=
  if !s.dev.present.contains dev then s
  else if !s.dev.failing.contains dev then
    { s with dev := { s.dev with failing := dev :: s.dev.failing } }.later (.deviceUnreachable dev)
  else match removalDue s (fun a => deviceOf a == dev) with
    | some t => s.waitTick t 0 (.deviceUnreachable dev)
    | none =>
    match markDue s with
    | some (d, t) => s.waitTick t (gateReason 0 d) (.deviceUnreachable dev)
    | none =>
      let s := recoverHomes (endDevHolds s dev) (fun a => deviceOf a == dev)
      { s with dev := { s.dev with present := s.dev.present.filter (· != dev), failing := s.dev.failing.filter (· != dev) } }

def execDeviceUnreachable (dev : Nat) (s : State) : Out := .next (settleHits (loseDevice s dev))

/-- MEMORY_DEVICE_LOSS (R372): the parts of a second-tier extent that a die's port serves. -/
def execMemoryDeviceLoss (die base len : Nat) (s : State) : Out :=
  .next (settleHits (loseParts s (((List.range (len / 65536)).map (fun i => base / 65536 + i)).filter (fun p =>
    kindOf (p * 65536) == 1 && p % 8 == die)) (.memoryDeviceLoss die base len)))

/-- POISON_RESPONSE (R372): the line is poisoned at its home (R140). -/
def execPoisonResponse (line : Nat) (s : State) : Out := .next (s.setHomePoison line true)

end Sys2Proof.Machine
end

