-- ==== Sys2Proof/Machine/HostLink.lean ====
section
/-!
DEFINITION. The host link and the peer links: host requests and snoops (R90 to R92, R121), loss and return of the host
link (R367, R369), BAR0 (R368), attestation (R375), flit retries (R370).
-/

namespace Sys2Proof.Machine

/-! ### Host requests to device memory (R90, R91, R121, R367) -/

/-- A request that the device does not support gets an unsupported-request response, is counted, and changes nothing else. -/
def unsupported (s : State) : State :=
  { s with dev := { s.dev with hostCnt := s.dev.hostCnt + 1, replies := s.dev.replies ++ [none] } }

def execHostUnsupportedRequest (s : State) : Out := if s.dev.hostUp then .next (unsupported s) else .next s

/-- Does a request of n bytes at a device address stay within one line and one HDM window? -/
def inWindow (s : State) (addr n : Nat) : Bool :=
  n != 0 && lineOf addr == lineOf (addr + n - 1) && deviceOf addr == s.dev.devId.toNat &&
    s.dev.hdm.any (fun w => decide (w.1 ≤ addr) && decide (addr + n ≤ w.1 + w.2))

/-- A host read of memory that no core's partial still changes. -/
def hostRead (s : State) (addr n : Nat) : Res (List Byte × Bool) :=
  match combineFirst s addr with
  | .wait t r => .wait t r
  | .fail f => .fail f
  | .ok _ s =>
    match registerDev s (partOf addr) s.dev.hostId with
    | .wait t r => .wait t r
    | .fail f => .fail f
    | .ok _ s =>
      match tierRoom s (lineOf addr) with
      | .wait t r => .wait t r
      | .fail f => .fail f
      | .ok _ s =>
        match asDev s (lineOf addr) s.dev.hostId (fun s => clRead s addr n) with
        | .ok x s => .ok x (shareDev s (lineOf addr) s.dev.hostId)
        | r => r

/-- A host write, and what it wakes. -/
def hostWrite (s : State) (addr : Nat) (bs : List Byte) : Res Unit :=
  match combineFirst s addr with
  | .wait t r => .wait t r
  | .fail f => .fail f
  | .ok _ t =>
    match alongside s t (fun s => asDev s (lineOf addr) s.dev.hostId (fun s => clWrite s addr bs)) with
    | .ok _ s => .ok () (wrote s addr bs.length)
    | r => r

/-- What a request of the host asks for: its first address and length. -/
def hostAsk : Instr → Option (Nat × Nat)
  | .memrd addr size => some (addr, size)
  | .memwr addr data => some (addr, data.length)
  | .meminv line => some (line * 128, 128)
  | _ => none

/-- An answer to the host. -/
def hostReply (s : State) (addr : Nat) (bs : List Byte) : State :=
  { s with dev := { s.dev with replies := s.dev.replies ++ [some (addr, bs)] } }

/-- A request of the host performed, at the new home of a page that has moved (R93); the answer of a MEMRD is kept for it. The host
shares what it reads, and MEMINV makes it the owner (R91). -/
def hostPerform (s : State) : Instr → Res Unit
  | .memrd addr size => match hostRead s (nowAt s addr) size with
    | .ok (bs, _) s => .ok () (hostReply s addr bs)
    | .wait t r => .wait t r
    | .fail f => .fail f
  | .memwr addr data => hostWrite s (nowAt s addr) data
  | .meminv line => ownDev s (nowAt s (line * 128) / 128) s.dev.hostId
  | _ => .ok () s

/-- Do two requests ask for the same line? -/
def oneLine (i j : Instr) : Bool := (hostAsk i).map (fun x => lineOf x.1) == (hostAsk j).map (fun x => lineOf x.1)

/-- A waiting request of the host is tried, unless an earlier one of its line waits (R121); once it is performed the next one of
that line is due. -/
def hostTry (s : State) (id : Nat) : State :=
  match s.dev.hostQ.find? (fun q => q.1 == id) with
  | none => s
  | some q =>
    if (s.dev.hostQ.takeWhile (fun (x : Nat × Instr) => x.1 != id)).any (fun x => oneLine x.2 q.2) then s
    else
      let rest := s.dev.hostQ.filter (fun x => x.1 != id)
      let gone (s : State) : State :=
        let s := { s with dev := { s.dev with hostQ := rest } }
        match rest.find? (fun x => oneLine x.2 q.2) with
        | some n => s.soon (.clocklessWaitDone n.1)
        | none => s
      match hostPerform s q.2 with
      | .ok _ s => settleHits (gone s)
      | .fail _ => gone s
      | .wait t r =>
        let s := s.gate t r none
        { s with sch := { s.sch with timers := s.sch.timers ++ [⟨true, t, .clocklessWaitDone id⟩] } }

/-- A request of the host arrives: without the link it is lost, outside the windows not supported. -/
def hostArrives (s : State) (i : Instr) : State :=
  match hostAsk i with
  | none => s
  | some (addr, n) =>
    if !s.dev.hostUp then s
    else if !inWindow s addr n then unsupported s
    else
      let (id, s) := s.fresh
      hostTry { s with dev := { s.dev with hostQ := s.dev.hostQ ++ [(id, i)] } } id

/-- MEMRD, MEMWR, MEMINV (R90, R91). -/
def execMemrd (addr size : Nat) (s : State) : Out := .next (hostArrives s (.memrd addr size))
def execMemwr (addr : Nat) (data : List Byte) (s : State) : Out := .next (hostArrives s (.memwr addr data))
def execMeminv (line : Nat) (s : State) : Out := .next (hostArrives s (.meminv line))

/-- CLOCKLESS_WAIT_DONE (R77): what waited is due. -/
def waitDone (s : State) (id : Nat) : State :=
  match s.sch.waits.find? (fun w => w.1 == id) with
  | none => hostTry s id
  | some w =>
    { s with sch := { s.sch with waits := s.sch.waits.filter (fun x => x.1 != id), agenda := w.2 :: s.sch.agenda } }

def execClocklessWaitDone (id : Nat) (s : State) : Out := .next (waitDone s id)

/-- BISNP_RESPONSE: the host holds the line no more; what it did there came before now (R91, R379). -/
def execBisnpResponse (line : Nat) (s : State) : Out :=
  let l := nowAt s (line * 128) / 128
  if devHolds (s.dirOf l) s.dev.hostId then .next (raiseHome (dropDev s l s.dev.hostId) (l * 128) s.clk.tick) else .next s

/-! ### Host snoops of host memory (R92) -/

def hostLine (s : State) (l : Nat) : Bool := kindOf (l * 128) == 1 && deviceOf (l * 128) == s.dev.hostId

/-- The answer to a snoop. -/
def snoopReply (s : State) (l : Nat) (bs : List Byte) : State :=
  settleHits (hostReply s (l * 128) bs)

/-- The data of a snooped line, combined first (R97). -/
def snoopRead (s : State) (l : Nat) : Res (List Byte × Bool) :=
  match combineFirst s (l * 128) with
  | .wait t r => .wait t r
  | .fail f => .fail f
  | .ok _ s => clRead s (l * 128) 128

/-- SNPCUR: the current data; nothing changes hands. -/
def execSnpcur (line : Nat) (s : State) : Out :=
  if !s.dev.hostUp || !hostLine s line then .next s
  else match snoopRead s line with
    | .wait t r => .next (s.waitTick t r (.snpcur line))
    | .fail _ => .next s
    | .ok (bs, _) s => .next (snoopReply s line bs)

/-- An owner's line is written back, at its context's charge (R99), and kept in S. -/
def cleanOwner (s : State) (l : Nat) : State :=
  let d := s.dirOf l
  if !(d.state == .excl || d.state == .owned) || d.oremote then s
  else match dieLine s d.owner l with
    | none => s
    | some (k, r) =>
      let s := (homeWrite (forceCharge s (s.frame (k / 512)).ctx (l * 128)) (l * 128)
        (s.fbytes (k / 512) (l % 512 * 128) 128)).setHomePoison l r.poison
      (s.setLine k { r with state := .s, dirty := false }).setDir l
        { d with state := .shared, owner := 0, sharers := d.sharers ||| (1#8 <<< d.owner) }

/-- SNPDATA: the current data; the device keeps at most S. -/
def execSnpdata (line : Nat) (s : State) : Out :=
  if !s.dev.hostUp || !hostLine s line then .next s
  else match snoopRead s line with
    | .wait t r => .next (s.waitTick t r (.snpdata line))
    | .fail _ => .next s
    | .ok (bs, _) s => .next (snoopReply (cleanOwner s line) line bs)

/-- SNPINV: every copy of the device goes, its data written back. -/
def execSnpinv (line : Nat) (s : State) : Out :=
  if !s.dev.hostUp || !hostLine s line then .next s
  else match (match combineFirst s (line * 128) with | .ok _ s => recallAll s line | r => r) with
    | .wait t r => .next (s.waitTick t r (.snpinv line))
    | .fail _ => .next s
    | .ok _ s => .next (snoopReply s line (Memory.readN s.mem (line * 128) 128))

/-! ### The link itself (R369) -/

def hostStep : Instr → Bool
  | .memrd _ _ | .memwr _ _ | .meminv _ | .snpdata _ | .snpinv _ | .snpcur _ | .hostUnsupportedRequest | .bar0Write _ _
  | .bisnpResponse _ => true
  | _ => false

/-- Host requests still in flight are discarded. -/
def dropHostSteps (s : State) : State :=
  { s with dev := { s.dev with hostQ := [] },
           sch := { s.sch with agenda := s.sch.agenda.filter (fun i => !hostStep i),
                               timers := s.sch.timers.filter (fun t => !hostStep t.ev),
                               waits := s.sch.waits.filter (fun w => !hostStep w.2) } }

/-- The primaries of host parts are dropped; a part with dirty lines is lost (R101). -/
def dropHostParts (s : State) : State :=
  let parts := ((s.frames.filter (fun (f : Nat × FrameRec) => f.2.kind == FKind.primary &&
    hostLine s (f.2.part * 512))).map (fun (f : Nat × FrameRec) => f.2.part)).eraseDups
  parts.foldl (fun s p =>
    let dirty := (linesOf p).filter (fun l => (heldModified s l).isSome)
    let s := (linesOf p).foldl (fun s l => s.setDir l {}) (discardParts s p)
    losePart s p dirty) s

/-- HOST_LINK_RESET (R369): requests in flight are dropped, and the host holds no line of the device any more. -/
def resetHost (s : State) : State :=
  let s := dropHostParts (endDevHolds (dropHostSteps s) s.dev.hostId)
  { s with dev := { s.dev with hostUp := false, hostOn := false } }

def execHostLinkReset (s : State) : Out := .next (settleHits (resetHost s))

/-- HOST_LINK_TRAINED: the link is up, and the management cluster enables the host as a device again. -/
def execHostLinkTrained (s : State) : Out := .next { s with dev := { s.dev with hostUp := true, hostOn := true } }

/-! ### BAR0 and attestation (R368, R375) -/

/-- DEVSTAT (R368). -/
def devstat (s : State) : Word64 :=
  BitVec.ofNat 64 (s.dev.dieUp.toNat * 2 ^ 40 + s.dev.devId.toNat * 2 ^ 34 + s.clk.throttle.toNat * 2 ^ 4 + s.dev.state)

/-- The 8 bytes at an offset of BAR0, a multiple of 8: DEVSTAT, HOSTCNT, the rest of the first 4 KiB zero, then the mailbox. -/
def bar0Read (s : State) (off : Nat) : Word64 :=
  if off == 0 then devstat s
  else if off == 8 then s.dev.hostCnt
  else if off < 0x1000 then 0
  else Sp.get 0 s.dev.mailbox off

/-- BAR0_WRITE: the register page ignores writes; the mailbox above it is the management firmware's. -/
def execBar0Write (off : Nat) (v : BitVec 64) (s : State) : Out :=
  if !s.dev.hostUp || off < 0x1000 || 0x2000000 ≤ off then .next s
  else .next { s with dev := { s.dev with mailbox := Sp.insert s.dev.mailbox off v } }

/-- MTOWER: the digest over the eight towers' microcode digests, zero for an unpowered tower. -/
def towerDigest (s : State) : List Byte :=
  sha256 ((List.range 8).flatMap (fun d => leBytes (if s.dev.dieUp.getLsbD d then (s.dev.tower.getD d 0).toNat else 0) 32))

/-- MENGINE: the digest over the eight engine-layer programs' digests. -/
def engineDigest (s : State) : List Byte := sha256 ((List.range 8).flatMap (fun d => leBytes (s.dev.engine.getD d 0).toNat 32))

/-- Bytes 0 to 143 of a report. -/
def reportBody (s : State) (nonce : BitVec 256) : List Byte :=
  leBytes nonce.toNat 32 ++ leBytes s.dev.fw.toNat 32 ++ towerDigest s ++ engineDigest s ++
    leBytes s.dev.svn 8 ++ leBytes s.dev.devId.toNat 1 ++ leBytes s.dev.dieUp.toNat 1 ++ leBytes s.parts.length 2 ++
    leBytes 0 4

/-- Is a service update under way (R211)? -/
def serviceUpdate (s : State) : Bool := s.due.any (fun i => match i with | .unitDrain _ => true | _ => false)

/-- ATTESTATION_REQUEST, answered once no service update is under way; the signature over the body's digest is open (log 7). -/
def execAttestationRequest (nonce : BitVec 256) (s : State) : Out :=
  if !s.dev.power then .next s
  else if serviceUpdate s then .next (s.ensureTicks 1 (.attestationRequest nonce))
  else
    let body := reportBody s nonce
    let rep := body ++ leBytes (Config.signature (leNat (sha256 body))).toNat 64
    .next { s with dev := { s.dev with reports := s.dev.reports ++ [rep] } }

/-! ### Peer ports (R370, R371) -/

/-- The port that carries traffic for a line to a device: the ports of its route take the lines in turn (R371). -/
def portOf (s : State) (dev line : Nat) : Option Nat :=
  match s.dev.routes.find? (fun (r : Nat × List Nat) => r.1 == dev) with
  | some r => r.2[line % r.2.length]?
  | none => none

/-- A port leaves service: its traffic moves to the other ports of its routes; a device without any is unreachable. -/
def downPort (s : State) (port : Nat) : State :=
  let routes := s.dev.routes.map (fun (r : Nat × List Nat) => (r.1, r.2.filter (· != port)))
  let cut := (s.dev.routes.filter (fun (r : Nat × List Nat) => r.2.contains port && r.2.all (· == port))).map
    (fun (r : Nat × List Nat) => r.1)
  let s := { s with dev := { s.dev with routes := routes, ports := Sp.put {} s.dev.ports port { down := true } } }
  cut.foldl (fun s d => s.soon (.deviceUnreachable d)) s

/-- FLIT_CRC_RETRY: a flit is retried, up to eight times, or the port's service ends (R370); another flit is one that follows its
delivery. -/
def execFlitCrcRetry (port : BadFlit) (s : State) : Out :=
  let p := Sp.get {} s.dev.ports port.port
  let n := if p.flit == port.flit then p.retries else 0
  if 16 ≤ port.port || p.down then .next s
  else if n < 8 then
    .next { s with dev := { s.dev with ports := Sp.put {} s.dev.ports port.port { p with flit := port.flit, retries := n + 1 } } }
  else .next (downPort s port.port)

end Sys2Proof.Machine
end

