-- ==== Sys2Proof/Machine/Integer.lean ====
section
/-!
DEFINITION. Integer and address instructions (R248 to R252): the values and one meaning for each instruction.
-/

namespace Sys2Proof.Machine

/-! ### Values (R249, R250) -/

/-- Shifts of one word by n, natural. -/
def shlVal (a : Word32) (n : Nat) : Word32 := if n < 32 then a <<< n else 0
def shrVal (a : Word32) (n : Nat) : Word32 := if n < 32 then a >>> n else 0
def sarVal (a : Word32) (n : Nat) : Word32 := if n < 32 then a.sshiftRight n else if a.msb then 0xFFFFFFFF else 0
def shlwVal (a : Word64) (n : Nat) : Word64 := if n < 64 then a <<< n else 0
def shrwVal (arith : Bool) (a : Word64) (n : Nat) : Word64 :=
  if n < 64 then (if arith then a.sshiftRight n else a >>> n)
  else if arith && a.msb then 0xFFFFFFFFFFFFFFFF else 0

/-- Position and length of a control word K. -/
def fieldPos (k : Word32) : Nat := (bits k 0 5).toNat
def fieldLen (k : Word32) : Nat := min (bits k 8 6).toNat (32 - fieldPos k)

def bfxVal (sgn : Bool) (a k : Word32) : Word32 :=
  let n := fieldLen k
  let v := a.toNat / 2 ^ fieldPos k % 2 ^ n
  if n = 0 then 0
  else if sgn && decide (2 ^ (n - 1) ≤ v) then BitVec.ofInt 32 ((v : Int) - 2 ^ n) else BitVec.ofNat 32 v

def bfiVal (a b k : Word32) : Word32 :=
  let m : Word32 := BitVec.ofNat 32 ((2 ^ fieldLen k - 1) * 2 ^ fieldPos k)
  (a &&& ~~~m) ||| ((b <<< fieldPos k) &&& m)

/-- Ones among the low n bits; zeros above, and below, the first one. -/
def popVal (a : Word32) : Nat → Nat
  | 0 => 0
  | n + 1 => popVal a n + (if a.getLsbD n then 1 else 0)
def clzVal (a : Word32) : Nat → Nat
  | 0 => 0
  | n + 1 => if a.getLsbD n then 0 else clzVal a n + 1
def ctzFrom (a : Word32) : Nat → Nat → Nat
  | 0, i => i
  | n + 1, i => if a.getLsbD i then i else ctzFrom a n (i + 1)

def brevVal (a : Word32) : Nat → Nat
  | 0 => 0
  | n + 1 => brevVal a n + (if a.getLsbD n then 2 ^ (31 - n) else 0)

/-- Byte j of PERMB. -/
def permByte (a b c : Word32) (j : Nat) : BitVec 8 :=
  let s : BitVec 4 := bits c (4 * j) 4
  if bit s 3 then 0 else bits (b ++ a : Word64) (8 * (s.toNat % 8)) 8

def permVal (a b c : Word32) : Word32 := permByte a b c 3 ++ permByte a b c 2 ++ permByte a b c 1 ++ permByte a b c 0

/-- The comparison of R252. -/
def icmpVal (c : ICond) (a b : Int) : Bool :=
  match c with
  | .eq => decide (a = b)
  | .ne => decide (a ≠ b)
  | .lt => decide (a < b)
  | .le => decide (a ≤ b)
  | .gt => decide (b < a)
  | .ge => decide (b ≤ a)

/-! ### Arithmetic (R249) -/

/-- IADD (R249). -/
def execIadd (o : Alu) (s : State) : Out := intTyped (.iadd o) o 2 (fun a b => a + b) s
/-- ISUB (R249). -/
def execIsub (o : Alu) (s : State) : Out := intTyped (.isub o) o 2 (fun a b => a - b) s
/-- IMUL (R249). -/
def execImul (o : Alu) (s : State) : Out := intTyped (.imul o) o 2 (fun a b => a * b) s
/-- IMULH (R249): the upper word of the exact product. -/
def execImulh (o : Alu) (s : State) : Out :=
  int32 (.imulh o) o 2 (fun x => BitVec.ofInt 32 (tyExt o.ty x.a * tyExt o.ty x.b / 0x100000000)) s
/-- IMAD (R249). -/
def execImad (o : Alu) (s : State) : Out := int32 (.imad o) o 3 (fun x => x.a * x.b + x.c) s
/-- IMADW (R249). -/
def execImadw (o : Alu) (s : State) : Out :=
  compute (.imadw o) o.s (fun w free t =>
    let a := src32 w free o.s t o.a
    let b := src32 w free o.s t o.b
    let c := src64 w free o.s t false o.c
    dst64 o.s o.dst t (BitVec.ofInt 64 (tyExt o.ty a.val * tyExt o.ty b.val) + c.1, a.poison || b.poison || c.2)) s
/-- IADDW (R249). -/
def execIaddw (o : Alu) (s : State) : Out := int64 (.iaddw o) o (fun a b => a + b) s
/-- ISUBW (R249). -/
def execIsubw (o : Alu) (s : State) : Out := int64 (.isubw o) o (fun a b => a - b) s
/-- INEG (R249). -/
def execIneg (o : Alu) (s : State) : Out := intTyped (.ineg o) o 1 (fun a _ => -a) s
/-- IABS (R249). -/
def execIabs (o : Alu) (s : State) : Out := intTyped (.iabs o) o 1 (fun a _ => (a.natAbs : Int)) s
/-- IMIN (R249). -/
def execImin (o : Alu) (s : State) : Out :=
  int32 (.imin o) o 2 (fun x => tyFit o.ty false (min (tyExt o.ty x.a) (tyExt o.ty x.b))) s
/-- IMAX (R249). -/
def execImax (o : Alu) (s : State) : Out :=
  int32 (.imax o) o 2 (fun x => tyFit o.ty false (max (tyExt o.ty x.a) (tyExt o.ty x.b))) s

/-! ### Bitwise, shifts, fields (R250) -/

/-- AND (R250). -/
def execBand (o : Alu) (s : State) : Out := int32 (.band o) o 2 (fun x => x.a &&& x.b) s
/-- OR (R250). -/
def execBor (o : Alu) (s : State) : Out := int32 (.bor o) o 2 (fun x => x.a ||| x.b) s
/-- XOR (R250). -/
def execBxor (o : Alu) (s : State) : Out := int32 (.bxor o) o 2 (fun x => x.a ^^^ x.b) s
/-- ANDN (R250). -/
def execBandn (o : Alu) (s : State) : Out := int32 (.bandn o) o 2 (fun x => x.a &&& ~~~x.b) s
/-- NOT (R250). -/
def execBnot (o : Alu) (s : State) : Out := int32 (.bnot o) o 1 (fun x => ~~~x.a) s
/-- SHL (R250). -/
def execShl (o : Alu) (s : State) : Out := int32 (.shl o) o 2 (fun x => shlVal x.a (x.b.toNat % 256)) s
/-- SHR (R250). -/
def execShr (o : Alu) (s : State) : Out := int32 (.shr o) o 2 (fun x => shrVal x.a (x.b.toNat % 256)) s
/-- SAR (R250). -/
def execSar (o : Alu) (s : State) : Out := int32 (.sar o) o 2 (fun x => sarVal x.a (x.b.toNat % 256)) s
/-- SHLW (R250). -/
def execShlw (o : Alu) (s : State) : Out := shift64 (.shlw o) o shlwVal s
/-- SHRW (R250). -/
def execShrw (arith : Bool) (o : Alu) (s : State) : Out := shift64 (.shrw arith o) o (shrwVal arith) s
/-- BFX (R250). -/
def execBfx (o : Alu) (s : State) : Out := int32 (.bfx o) o 2 (fun x => bfxVal (tySigned o.ty) x.a x.b) s
/-- BFI (R250). -/
def execBfi (o : Alu) (s : State) : Out := int32 (.bfi o) o 3 (fun x => bfiVal x.a x.b x.c) s
/-- POPC (R250). -/
def execPopc (o : Alu) (s : State) : Out := int32 (.popc o) o 1 (fun x => BitVec.ofNat 32 (popVal x.a 32)) s
/-- CLZ (R250). -/
def execClz (o : Alu) (s : State) : Out := int32 (.clz o) o 1 (fun x => BitVec.ofNat 32 (clzVal x.a 32)) s
/-- CTZ (R250). -/
def execCtz (o : Alu) (s : State) : Out := int32 (.ctz o) o 1 (fun x => BitVec.ofNat 32 (ctzFrom x.a 32 0)) s
/-- BREV (R250). -/
def execBrev (o : Alu) (s : State) : Out := int32 (.brev o) o 1 (fun x => BitVec.ofNat 32 (brevVal x.a 32)) s
/-- PERMB (R250). -/
def execPermb (o : Alu) (s : State) : Out := int32 (.permb o) o 3 (fun x => permVal x.a x.b x.c) s

/-! ### Comparison, moves, LEA (R251, R252) -/

/-- ICMP (R252). -/
def execIcmp (cond : ICond) (o : Alu) (s : State) : Out :=
  compute (.icmp cond o) o.s (fun w free t =>
    let a := src32 w free o.s t o.a
    let b := src32 w free o.s t o.b
    dstP o.s o.dst t (icmpVal cond (tyExt o.ty a.val) (tyExt o.ty b.val), a.poison || b.poison)) s

/-- What selects in SEL: the predicate that SC names, or in S form a scalar register that is not 0. -/
def selector (w : Wave) (free : Nat) (sc : Bool) (t : Nat) : Src → PBit
  | .reg n => if sc then (let v := w.readS free n.toNat; ⟨v.val != 0, v.poison⟩) else w.readP free n.toNat t
  | .sca n => w.readP free n.toNat t
  | .imm _ => {}

/-- SEL (R251). With W64 the two words take the pair's joint tag (DESIGN CHOICE, log 27). -/
def execSel (w64 : Bool) (o : Alu) (s : State) : Out :=
  compute (.sel w64 o) o.s (fun w free t =>
    let c := selector w free o.s t o.c
    if w64 then
      let a := src64 w free o.s t false o.a
      let b := src64 w free o.s t false o.b
      let r := if c.val then a else b
      dst64 o.s o.dst t (r.1, r.2 || c.poison)
    else
      let r := if c.val then src32 w free o.s t o.a else src32 w free o.s t o.b
      dst32 o.s o.dst t ⟨r.val, r.poison || c.poison⟩) s

/-- MOV (R251). With W64 the two words take the pair's joint tag, as every result of a pair does (DESIGN CHOICE, log 27). -/
def execMov (w64 : Bool) (o : Alu) (s : State) : Out :=
  compute (.mov w64 o) o.s (fun w free t =>
    if w64 then dst64 o.s o.dst t (src64 w free o.s t false o.a)
    else dst32 o.s o.dst t (src32 w free o.s t o.a)) s

/-- MOVI (R251). -/
def execMovi (ctl : Ctl) (sc : Bool) (dst : BitVec 8) (v : MoviVal) (s : State) : Out :=
  compute (.movi ctl sc dst v) sc (fun _ _ t =>
    match v with
    | .word x => dst32 sc dst t ⟨x, false⟩
    | .sext x => dst64 sc dst t (x.signExtend 64, false)
    | .zext x => dst64 sc dst t (x.setWidth 64, false)
    | .pair lo hi => dst64 sc dst t (hi ++ lo, false)) s

/-- LEA (R251). -/
def execLea (sh : BitVec 2) (o : Alu) (s : State) : Out :=
  compute (.lea sh o) o.s (fun w free t =>
    let a := src64 w free o.s t false o.a
    let b := src32 w free o.s t o.b
    dst64 o.s o.dst t (a.1 + (BitVec.ofInt 64 (tyExt o.ty b.val) <<< sh.toNat), a.2 || b.poison)) s

end Sys2Proof.Machine
end

