-- ==== Sys2Proof/Machine/Peek.lean ====
section
/-!
DEFINITION. CTXPEEK and CTXPOKE (R282): the items of a context as bytes, and what a context's parent may write of them
(R25, R80, R150, R212, R213, R220, R222).
-/

namespace Sys2Proof.Machine

/-! ### The buffer -/

/-- A run of bytes cut at lines. -/
def runsOf (p : Word64) (n : Nat) : List Piece := cutLines (n / 128 + 2) ⟨p, 0, n⟩

/-- Read a buffer of the issuing context: its bytes, and whether a line of it is poisoned. -/
def bufReadFrom (s₀ s : State) (w : Who) : List Piece → Res (List Byte × Bool)
  | [] => .ok ([], false) s
  | q :: qs =>
    match checkAccess s w.core w.ctx q.va 1 pR .globalDev with
    | .error f => failed s f
    | .ok (none, s) => bufReadFrom s₀ s w qs
    | .ok (some x, s) =>
      match combineNext s₀ s x.dev with
      | .wait a b => .wait a b
      | .fail f => .fail f
      | .ok _ s =>
        match readAt s w x with
        | .wait a b => .wait a b
        | .fail f => .fail f
        | .ok g s =>
          let bs := placeBytes s g.place x.dev q.len
          match bufReadFrom s₀ s w qs with
          | .ok cs s => .ok (bs ++ cs.1, g.poison || cs.2) s
          | r => r

def bufRead (s : State) (w : Who) (qs : List Piece) : Res (List Byte × Bool) :=
  bufReadFrom s s w qs

/-- Write a buffer of the issuing context; an irrevocable operation's own write is not logged (R208). -/
def bufWriteFrom (s₀ s : State) (w : Who) (bs : List Byte) : List Piece → Res Unit
  | [] => .ok () s
  | q :: qs =>
    match checkAccess s w.core w.ctx q.va 1 pW .globalDev with
    | .error f => failed s f
    | .ok (none, s) => bufWriteFrom s₀ s w bs qs
    | .ok (some x, s) =>
      match combineNext s₀ s x.dev with
      | .wait a b => .wait a b
      | .fail f => .fail f
      | .ok _ s =>
        match writeAt s w x with
        | .wait a b => .wait a b
        | .fail f => .fail f
        | .ok g s => bufWriteFrom s₀ (wrote (putBytes s w g.place x.dev ((bs.drop q.off).take q.len) false) x.dev q.len) w bs qs

def bufWrite (s : State) (w : Who) (bs : List Byte) (qs : List Piece) : Res Unit :=
  bufWriteFrom s s w bs qs

/-! ### Items (R282) -/

def itemKeyed (item : Nat) : Bool := item == 0x22 || item == 0x23 || item == 0x30 || item == 0x31
def itemPoke (item : Nat) : Bool :=
  [0x02, 0x03, 0x04, 0x05, 0x06, 0x07, 0x11, 0x12, 0x13, 0x14, 0x15, 0x30, 0x31].contains item

/-- Do the data of the item that CTXPOKE writes hold addresses, which a poisoned buffer would poison (R142, log 55)? -/
def itemAddress (item : Nat) : Bool := [0x02, 0x03, 0x05, 0x06, 0x15].contains item

def itemStopped (item : Nat) : Bool := decide (0x10 ≤ item) && decide (item ≤ 0x15)

/-- Is the index inside the item's range; false for an unassigned item? -/
def indexOk (item index : Nat) : Bool :=
  match item with
  | 0x01 | 0x02 | 0x03 | 0x04 | 0x05 | 0x07 | 0x22 | 0x23 => index == 0
  | 0x06 => decide (index < 8)
  | 0x08 | 0x09 => decide (index < 64)
  | 0x10 | 0x11 | 0x12 | 0x13 | 0x14 | 0x15 | 0x17 => decide (index < 131072)
  | 0x16 => decide (index < 256)
  | 0x20 | 0x21 => decide (index < 65536)
  | 0x30 | 0x31 => decide (1 ≤ index) && decide (index ≤ 4096)
  | _ => false

/-- Statuses 2 and 1. -/
def itemStatus (s : State) (t item index : Nat) (poke : Bool) : Nat :=
  if !indexOk item index || (poke && !itemPoke item) then 2
  else if itemStopped item && (match s.ctx? t with | some x => x.state != .stopped | none => true) then 1
  else 0

/-- Does a part lie inside the flattened ranges of a context (R223)? -/
def partGranted (s : State) (t part : Nat) : Bool :=
  (flatOf s t).any (fun r => decide (r.dbase ≤ part * 65536) && decide (part * 65536 < r.dbase + r.len))

def rangeBytes (g len d : Nat) (p : BitVec 3) : List Byte :=
  leBytes g 8 ++ leBytes len 8 ++ leBytes d 8 ++ leBytes p.toNat 4 ++ leBytes 0 4

def obsBytes (x : Ctx) : List Byte :=
  leBytes x.obsT.toNat 8 ++ leBytes x.obsS.toNat 8 ++ leBytes x.obsPer 4 ++ leBytes x.obsTlog 1 ++ leBytes x.obsSlog 1 ++
    leBytes x.obsCtl.toNat 1 ++ leBytes 0 9

def trapBytes (c : Conf) : List Byte := leBytes c.tvec.toNat 8 ++ leBytes c.hmask.toNat 4 ++ leBytes 0 4

def pathsBytes (w : Wave) : List Byte :=
  (List.range 16).flatMap (fun i => leBytes (entryBits (w.path i).e) 16) ++
    (List.range 16).flatMap (fun i => leBytes (match (w.path i).rep with | some r => r.idx | none => 0) 1)

def wstateCode : WState → Nat
  | .running => 1
  | .blocked => 2
  | .parked => 3
  | .spilled => 4

/-- The WAVE item. -/
def waveBytes (wid : Nat) (w : Wave) : List Byte :=
  leBytes wid 4 ++ leBytes (Nat.log2 w.width) 1 ++ leBytes (w.budget / 8 - 1) 1 ++ leBytes (wstateCode w.state) 1 ++
    leBytes w.lease 1 ++ leBytes w.fstat.toNat 4 ++ leBytes w.pendingFlags.toNat 2 ++
    leBytes (match w.team with | some t => 0x8000 + t | none => 0) 2 ++ leBytes w.age 8 ++ leBytes w.index 4 ++
    leBytes (w.count % 128) 4 ++ leBytes ((bits w.keyPc 3 49).toNat * 2 ^ 15 + w.keyPath) 8 ++
    leBytes (match w.areas with | a :: _ => a.1 | [] => 0) 4 ++ leBytes 0 20

/-- The VREGS item: register r of thread t at (r * W + t) * 4. -/
def vregBytes (w : Wave) : List Byte :=
  (List.range w.budget).flatMap (fun r => (List.range w.width).flatMap (fun t => leBytes (w.v r t).val.toNat 4))

/-- A mask over the threads of a wave. -/
def threadMask (w : Wave) (f : Nat → Bool) : Nat := (maskOf ((List.range w.width).filter f)).toNat

def sregBytes (w : Wave) : List Byte :=
  (List.range 64).flatMap (fun r => leBytes (w.s r).val.toNat 4) ++
    leBytes (maskOf ((List.range 64).filter (fun r => (w.s r).poison))).toNat 8 ++ leBytes 0 8

def predBytes (w : Wave) : List Byte :=
  (List.range 24).flatMap (fun p => leBytes (threadMask w (fun t => (w.p p t).val)) 8) ++
    (List.range 24).flatMap (fun p => leBytes (threadMask w (fun t => (w.p p t).poison)) 8)

def histBytes (s : State) (lp : Nat) : List Byte :=
  let l := s.lp lp
  (List.range 17).flatMap (fun n => leBytes (Sp.get 0 l.hist n).toNat 8) ++
    (List.range 11).flatMap (fun n => leBytes (Sp.get 0 l.stall (n + 1)).toNat 8) ++
    leBytes (l.idleAt s.clk.cycle).toNat 8 ++ leBytes l.slip.toNat 8

def fKindCode : FKind → Nat
  | .free => 0
  | .locl => 1
  | .primary => 2
  | .replica => 3
  | .forward => 4
  | .dropping => 5

/-- The 128 bits of a frame's record (R44). -/
def frameBits (s : State) (f : FrameRec) : Nat :=
  f.part % 2 ^ 40 * 2 ^ 88 + s.lastTouch f % 65536 * 2 ^ 72 + f.ctx % 65536 * 2 ^ 48 + f.fcore % 32 * 2 ^ 35 +
    f.fframe % 256 * 2 ^ 27 + f.fgen % 256 * 2 ^ 19 + f.gen * 2 ^ 8 + fKindCode f.kind

def lStateCode : LState → Nat
  | .i => 0
  | .s => 1
  | .e => 2
  | .o => 3
  | .m => 4
  | .r => 5

/-- The 64 bits of a line record (R45), its timestamps in the context time of the frame's context. -/
def lineBits (toff : Word64) (r : LineRec) : Nat :=
  (r.wts + toff.toNat) % 65536 * 2 ^ 48 + (r.rts + toff.toNat) % 65536 * 2 ^ 32 + (if r.poison then 2 ^ 7 else 0) +
    (if r.dirty then 2 ^ 6 else 0) + (if r.valid then 2 ^ 5 else 0) + lStateCode r.state

def toffOf (s : State) (c : Nat) : Word64 := match s.ctx? c with | some x => x.conf.toff | none => 0

/-- The 128 bits of an Atlas entry (R48). -/
def atlasBits (e : AtlasEntry) : Nat :=
  e.part % 2 ^ 40 * 2 ^ 88 + e.pcore % 32 * 2 ^ 83 + e.pframe % 256 * 2 ^ 75 + e.pgen % 256 * 2 ^ 67 +
    (match e.astate with | .placed => 1 | .moving => 2 | .dropping => 3) * 2 ^ 64 + e.replicas.toNat * 2 ^ 32

/-- The 32 bits of a directory word (R82). -/
def dirBits (d : DirWord) : Nat :=
  (match d.state with | .none => 0 | .shared => 1 | .excl => 2 | .owned => 3) * 2 ^ 30 + d.owner % 8 * 2 ^ 27 +
    (if d.oremote then 2 ^ 26 else 0) + d.odev % 64 * 2 ^ 20 + (if d.rshare then 2 ^ 19 else 0) + d.sharers.toNat

/-- The die whose Atlas an ATLAS item means: that of an HBM key's DIE field, else the issuing core's (R282). -/
def atlasDie (core dev : Nat) : Nat := if kindOf dev == 0 then dev / 0x200000000000 % 8 else core / 32

/-- The data of an item but MEM and LOCAL, with its poison, or a status. -/
def peekItem (s : State) (core t item index key : Nat) : Except Nat (List Byte × Bool) :=
  match s.ctx? t with
  | none => .error 3
  | some x =>
    let wave (f : Wave → List Byte × Bool) : Except Nat (List Byte × Bool) := match s.wave? index with
      | some w => if w.ctx == t then .ok (f w) else .error 3
      | none => .error 3
    let plain (bs : List Byte) : Except Nat (List Byte × Bool) := .ok (bs, false)
    let framed (f : FrameRec → List Byte) : Except Nat (List Byte × Bool) :=
      let r := s.frame index
      if !(inSubtree s t r.ctx && (s.ctx? r.ctx).isSome) then .error 4
      else if r.kind != .locl && !partGranted s t r.part then .error 4
      else plain (f r)
    match item with
    | 0x01 => plain (confBytes x.conf)
    | 0x02 => plain (leBytes x.conf.troot.toNat 8)
    | 0x03 => plain (trapBytes x.conf)
    | 0x04 => plain (leBytes x.conf.toff.toNat 8)
    | 0x05 => plain (obsBytes x)
    | 0x06 => plain (leBytes (Sp.get 0 x.bkpts index).toNat 16)
    | 0x07 => plain (leBytes x.step.toNat 8)
    | 0x08 => match x.flat[index]? with
      | some r => plain (rangeBytes r.gbase r.len r.dbase r.perm)
      | none => .error 3
    | 0x09 => match x.declared[index]? with
      | some d => plain (rangeBytes d.cg d.len d.pg d.perm)
      | none => .error 3
    | 0x10 => wave (fun w => (waveBytes index w, false))
    | 0x11 => wave (fun w => (vregBytes w, w.vregs.any (fun r => r.2.poison)))
    | 0x12 => wave (fun w => ((List.range w.budget).flatMap (fun r => leBytes (threadMask w (fun t => (w.v r t).poison)) 8), false))
    | 0x13 => wave (fun w => (sregBytes w, w.sregs.any (fun r => r.2.poison)))
    | 0x14 => wave (fun w => (predBytes w, w.preds.any (fun r => r.2.poison)))
    | 0x15 => wave (fun w => (pathsBytes w, false))
    | 0x16 => plain (leBytes (s.ctxTime t).toNat 8 ++ leBytes x.conf.toff.toNat 8 ++
        leBytes (BitVec.ofNat 64 (ptsOf s index t) + x.conf.toff).toNat 8)
    | 0x17 => wave (fun _ => (histBytes s (lpOf index), false))
    | 0x20 => framed (fun r => leBytes (frameBits s r) 16)
    | 0x21 => framed (fun r => (List.range 512).flatMap (fun i => leBytes (lineBits (toffOf s r.ctx) (s.line (flKey index i))) 8))
    | 0x22 =>
      if !partGranted s t (partOf key) then .error 4
      else match s.atlas (atlasDie core key) (partOf key) with
        | some e => plain (leBytes (atlasBits e) 16)
        | none => .error 3
    | 0x23 =>
      if !partGranted s t (partOf key) then .error 4
      else if deviceOf key != s.dev.devId.toNat then .error 3
      else plain (leBytes (dirBits (s.dirOf (lineOf key))) 8)
    | _ => .error 2

/-! ### MEM and LOCAL -/

/-- Every run of a MEM item passes the checks of R38 for its target. -/
def memCheck (s : State) (core t : Nat) (want : BitVec 3) : List Piece → Except Fail State
  | [] => .ok s
  | q :: qs =>
    match checkAccess s core t q.va 1 want .global with
    | .error f => .error f
    | .ok (_, s) => memCheck s core t want qs

def memReadFrom (s₀ s : State) (core t : Nat) : List Piece → Res (List Byte × Bool)
  | [] => .ok ([], false) s
  | q :: qs =>
    match checkAccess s core t q.va 1 pR .global with
    | .error f => failed s f
    | .ok (none, s) => memReadFrom s₀ s core t qs
    | .ok (some x, s) =>
      match combineNext s₀ s x.dev with
      | .wait a b => .wait a b
      | .fail f => .fail f
      | .ok _ s =>
        match agentRead s core t x q.len with
        | .wait a b => .wait a b
        | .fail f => .fail f
        | .ok (bs, pz) s =>
          match memReadFrom s₀ s core t qs with
          | .ok (cs, pw) s => .ok (bs ++ cs, pz || pw) s
          | r => r

def memRead (s : State) (core t : Nat) (qs : List Piece) : Res (List Byte × Bool) :=
  memReadFrom s s core t qs

def memWriteFrom (s₀ s : State) (core t : Nat) (bs : List Byte) : List Piece → Res Unit
  | [] => .ok () s
  | q :: qs =>
    match checkAccess s core t q.va 1 pW .global with
    | .error f => failed s f
    | .ok (none, s) => memWriteFrom s₀ s core t bs qs
    | .ok (some x, s) =>
      match combineNext s₀ s x.dev with
      | .wait a b => .wait a b
      | .fail f => .fail f
      | .ok _ s =>
        match alongside s₀ s (fun s => agentWrite s core t x [(x.dev, (bs.drop q.off).take q.len)] false) with
        | .wait a b => .wait a b
        | .fail f => .fail f
        | .ok _ s => memWriteFrom s₀ (wrote s x.dev q.len) core t bs qs

def memWrite (s : State) (core t : Nat) (bs : List Byte) (qs : List Piece) : Res Unit :=
  memWriteFrom s s core t bs qs

/-- The check of a LOCAL item of n bytes. -/
def localFault (s : State) (core t off n : Nat) : Option Fail :=
  if localSize s core t < off + n then some (bad Code.LOCAL_RANGE 0 0)
  else if !(s.core core).bankOn then some (bad Code.LOCAL_OFF 0 0)
  else none

/-- The poison of the lines of a local range. -/
def localPoisons (s : State) (core t off n : Nat) : Bool :=
  (List.range ((off + n + 127) / 128 - off / 128)).any (fun i => localPoison s core t ((off / 128 + i) * 128))

/-- Local bytes, which need not lie in one frame. -/
def localRun (s : State) (core t off n : Nat) : List Byte :=
  (cutLines (n / 128 + 2) ⟨BitVec.ofNat 64 off, 0, n⟩).flatMap (fun q => localRead s core t q.va.toNat q.len)

/-- Every frame of a local range is touched (R44). -/
def touchRun (s : State) (core t off n : Nat) : State :=
  (cutLines (n / 128 + 2) ⟨BitVec.ofNat 64 off, 0, n⟩).foldl (fun s q => touchLocal s core t q.va.toNat) s

def localPut (s : State) (core t off : Nat) (bs : List Byte) : State :=
  (cutLines (bs.length / 128 + 2) ⟨BitVec.ofNat 64 off, 0, bs.length⟩).foldl (fun s q =>
    wrote (localWrite s { core := core, ctx := t, lease := 0 } q.va.toNat ((bs.drop q.off).take q.len) false)
      (0x8000000000000000 + localAddr s core t q.va.toNat) q.len) (touchRun s core t off bs.length)

/-! ### CTXPEEK -/

/-- Bytes of the buffer, unless a breakpoint of the path matches them (R221). -/
def readBuffer (x : Iss) (s : State) (p : Word64) (n : Nat) (f : List Byte → Bool → State → Act) : Act :=
  match bufRead s (whoOf x.cur.wave x.w) (runsOf p n) with
  | .wait t r => .waits t r 1
  | .fail e => x.fails e
  | .ok bs t => match ownStop x s true false p n with
    | some k => breakStop x s k
    | none => f bs.1 bs.2 t

/-- The copied data stand in the buffer from an offset on; then the status, with the tag `pz`. -/
def peekAnswer (x : Iss) (i : Instr) (s : State) (d : BitVec 8) (pz : Bool) (p : Word64) (bs : List Byte) (st : Nat) : Act :=
  match bufWrite s (whoOf x.cur.wave x.w) bs (runsOf p bs.length) with
  | .wait t r => .waits t r 1
  | .fail f => x.fails f
  | .ok _ t => match ownStop x s false true p bs.length with
    | some k => breakStop x s k
    | none => sealedEffect x i t (fun t => noteWrite (setStatus x t d st pz) x.cur.wave x.cur.path)

/-- Status 7, with CODE and SUBCODE in the buffer. -/
def peekFault (x : Iss) (i : Instr) (s : State) (d : BitVec 8) (pz : Bool) (p : Word64) (f : Fail) : Act :=
  peekAnswer x i s d pz (p + 8) (leBytes f.code 1 ++ leBytes f.sub 1) 7

/-- The key of an item: 8 bytes at offset 0 of the buffer. Every key is an address or holds one, so a poisoned one faults
(R142, log 55). -/
def itemKey (x : Iss) (s : State) (p : Word64) (item : Nat) (f : Nat → State → Act) : Act :=
  if !itemKeyed item then f 0 s
  else readBuffer x s p 8 (fun bs pz s => if pz then x.fails (bad Code.POISON_USE 0 p) else f (leNat bs) s)

/-- Where the data of an item stand in the buffer. -/
def dataAt (p : Word64) (item : Nat) : Word64 := if itemKeyed item then p + 16 else p

def ctxPeek (i : Instr) (x : Iss) (s : State) (d k b : BitVec 8) (item index : Nat) : Act :=
  let core := coreOf x.cur.wave
  match targetArg x s k false with
  | .error f => x.fails f
  | .ok (t, pk) =>
    match pointerArg x s b with
    | .error f => x.fails f
    | .ok p =>
      match checkPtr p 16 .globalDev with
      | some f => x.fails f
      | none =>
        match itemStatus s t item index false with
        | 0 => itemKey x s p item (fun key s =>
          if item == 0x30 then
            let qs := runsOf (BitVec.ofNat 64 key) index
            match memCheck s core t pR qs with
            | .error f => peekFault x i s d pk p f
            | .ok s =>
              match memRead s core t qs with
              | .wait t r => .waits t r 1
              | .fail f => peekFault x i s d pk p f
              | .ok (bs, pz) s => peekAnswer x i s d pk (p + 16) bs (if pz then 6 else 0)
          else if item == 0x31 then
            let g := key / 0x100000000
            let off := key % 0x100000000
            if 256 ≤ g then answer x i s d 3 pk
            else match localFault s g t off index with
              | some f => peekFault x i s d pk p f
              | none => peekAnswer x i (touchRun s g t off index) d pk (p + 16) (localRun s g t off index) (if localPoisons s g t off index then 6 else 0)
          else match peekItem s core t item index key with
            | .error n => answer x i s d n pk
            | .ok (bs, pz) => peekAnswer x i s d pk (dataAt p item) bs (if pz then 6 else 0))
        | n => answer x i s d n pk

def execCtxpeek (ctl : Ctl) (d k b item : BitVec 8) (index : BitVec 24) (s : State) : Out :=
  issueSealed (.ctxpeek ctl d k b item index) s (fun x s =>
    ctxPeek (.ctxpeek ctl d k b item index) x s d k b item.toNat index.toNat)

/-! ### CTXPOKE -/

/-- Does R212 accept an observation configuration? -/
def obsOk (bs : List Byte) : Bool :=
  let ptr (p : Word64) : Bool := spaceOf p == 0 && mustZero p && p.toNat % 4096 == 0
  let within (lo hi n : Nat) : Bool := decide (lo ≤ n) && decide (n ≤ hi)
  ptr (BitVec.ofNat 64 (fieldAt bs 0 8)) && ptr (BitVec.ofNat 64 (fieldAt bs 8 8)) && within 1024 16777216 (fieldAt bs 16 4) &&
    within 8 24 (fieldAt bs 20 1) && within 8 24 (fieldAt bs 21 1) && decide (fieldAt bs 22 1 < 4) && fieldAt bs 23 9 == 0

/-- Does R220 accept a breakpoint? -/
def bkptOk (b : BitVec 128) : Bool :=
  bits b 9 31 == 0 && bits b 3 2 == 0 && decide ((bits b 5 4).toNat ≤ 12) && (!bit b 40 || bit b 46) &&
    decide ((bits b 41 5).toNat ≤ 15) &&
    (bkptAddr b).toNat % (if bkptKind b == 0 then 8 else 2 ^ (bits b 5 4).toNat) == 0

/-- May TOFF be written (R80): no running wave, no primary or replica of the context on any die? -/
def toffFree (s : State) (c : Nat) : Bool :=
  !s.waves.any (fun w => w.2.ctx == c && w.2.state == .running) &&
    !s.frames.any (fun f => f.2.ctx == c && (f.2.kind == .primary || f.2.kind == .replica))

/-- The context in whose space the buffers of an observation configuration lie: the one that configured, or the root itself, which
the management cluster configures (R212). -/
def obsOwner (s : State) (c : Nat) : Nat := match s.ctx? c with
  | some x => x.obsBy.getD c
  | none => c

/-- A clockless write of the observation unit through its configuring context, which is charged for it (R99, R212, R213). -/
def obsWrite (s : State) (c core : Nat) (p : Word64) (bs : List Byte) : Res Unit :=
  match translate s core (obsOwner s c) p pW with
  | .error f => failed s f
  | .ok (x, s) =>
    let s := match x.ent with | some e => locateEntry s core (obsOwner s c) e.vpart | none => s
    match combineFirst s x.dev with
    | .wait a b => .wait a b
    | .fail f => .fail f
    | .ok _ t =>
      match charge t (obsOwner s c) x.dev with
      | none => .wait (s.clk.tick + 1) 0
      | some t =>
        match alongside s t (fun s => clWrite s x.dev bs) with
        | .wait a b => .wait a b
        | .fail f => .fail f
        | .ok _ s => .ok () (wrote s x.dev bs.length)

/-- A write of the unit would fault: the buffer's bit clears, and a record goes to the configuring context's own ring. -/
def obsFault (s : State) (c : Nat) (trace : Bool) (f : Fail) : State :=
  let s := s.updCtx c (fun x => { x with obsCtl := x.obsCtl &&& (if trace then 2 else 1) })
  let o := obsOwner s c
  raiseTo s o (ringFor s o .own) 0 0 f

/-- TAIL, LOST and N of a buffer as an accepted configuration leaves them. -/
def obsHeader (s : State) (c core : Nat) (trace : Bool) (p : Word64) (log : Nat) : Res Unit :=
  match obsWrite s c core p (leBytes 0 16 ++ leBytes (2 ^ log) 4) with
  | .wait a b => .wait a b
  | .fail f => .ok () (obsFault s c trace f)
  | .ok _ s => .ok () s

/-- An accepted observation configuration, with the context that set it; none for the management cluster. -/
def setObs (s : State) (c : Nat) (setter : Option Nat) (bs : List Byte) : State :=
  s.updCtx c (fun x => { x with
    obsBy := setter, obsT := BitVec.ofNat 64 (fieldAt bs 0 8), obsS := BitVec.ofNat 64 (fieldAt bs 8 8), obsPer := fieldAt bs 16 4,
    obsTlog := fieldAt bs 20 1, obsSlog := fieldAt bs 21 1, obsCtl := BitVec.ofNat 2 (fieldAt bs 22 1) })

/-- The words of v registers as a VREGS item gives them; their tags clear. -/
def pokeVregs (w : Wave) (bs : List Byte) : Wave :=
  (List.range w.budget).foldl (fun w r => (List.range w.width).foldl (fun w t =>
    w.poke (.v r t ⟨BitVec.ofNat 32 (fieldAt bs ((r * w.width + t) * 4) 4), false⟩)) w) w

def pokeVpoison (w : Wave) (bs : List Byte) : Wave :=
  (List.range w.budget).foldl (fun w r => (List.range w.width).foldl (fun w t =>
    w.poke (.v r t { w.v r t with poison := (fieldAt bs (8 * r) 8).testBit t })) w) w

def pokeSregs (w : Wave) (bs : List Byte) : Wave :=
  (List.range 64).foldl (fun w r =>
    w.poke (.s r ⟨BitVec.ofNat 32 (fieldAt bs (4 * r) 4), (fieldAt bs 256 8).testBit r⟩)) w

def pokePreds (w : Wave) (bs : List Byte) : Wave :=
  (List.range 24).foldl (fun w p => (List.range w.width).foldl (fun w t =>
    w.poke (.p p t ⟨(fieldAt bs (8 * p) 8).testBit t, (fieldAt bs (192 + 8 * p) 8).testBit t⟩)) w) w

/-- A PATHS item changes nothing but the PC of PATH entries with STATE 101; none otherwise. -/
def pokePaths (w : Wave) (bs : List Byte) : Option Wave :=
  let new (i : Nat) : Entry :=
    let e := (w.path i).e
    if e.kind == .path && e.state == .stopped then
      { e with pc := BitVec.ofNat 64 (fieldAt bs (16 * i) 16 / 2 ^ 15 % 2 ^ 49 * 8) } else e
  let w' : Wave := (List.range 16).foldl (fun v i => v.setPath i { w.path i with e := new i }) w
  if pathsBytes w' == bs then some w' else none

/-- The bytes of an item that CTXPOKE reads. -/
def pokeSize (s : State) (t item index : Nat) : Nat :=
  let w := (s.wave? index).getD { ctx := t, width := 0, budget := 0 }
  match item with
  | 0x02 | 0x04 | 0x07 => 8
  | 0x03 | 0x06 => 16
  | 0x05 => 32
  | 0x11 => w.width * w.budget * 4
  | 0x12 => w.budget * 8
  | 0x13 | 0x15 => 272
  | 0x14 => 384
  | _ => index

/-- CTXPOKE of an item but OBS, MEM and LOCAL: the change, or a status. -/
def pokeItem (s : State) (t item index : Nat) (bs : List Byte) : Except Nat (State → State) :=
  let conf (ok : Bool) (f : Conf → Conf) : Except Nat (State → State) :=
    if ok then .ok (fun s => s.updCtx t (fun x => { x with conf := f x.conf })) else .error 5
  let wave (ok : Bool) (f : Wave → Option Wave) : Except Nat (State → State) := match s.wave? index with
    | some w =>
      if w.ctx != t then .error 3
      else match (if ok then f w else none) with
        | some v => .ok (fun s => s.setWave index v)
        | none => .error 5
    | none => .error 3
  let v := leNat bs
  match item with
  | 0x02 => conf (v % 8192 == 0) (fun c => { c with troot := BitVec.ofNat 64 v })
  | 0x03 =>
    let h : Word32 := BitVec.ofNat 32 (fieldAt bs 8 4)
    conf (fieldAt bs 0 8 % 8 == 0 && hmaskOk h && fieldAt bs 12 4 == 0)
      (fun c => { c with tvec := BitVec.ofNat 64 (fieldAt bs 0 8), hmask := h })
  | 0x04 => conf (toffFree s t) (fun c => { c with toff := BitVec.ofNat 64 v })
  | 0x06 =>
    let b : BitVec 128 := BitVec.ofNat 128 v
    if bkptOk b then .ok (fun s => s.updCtx t (fun x => { x with bkpts := Sp.put 0 x.bkpts index b })) else .error 5
  | 0x07 =>
    let w : Word32 := BitVec.ofNat 32 v
    if v < 0x100000000 && bits w 22 9 == 0 then .ok (fun s => s.updCtx t (fun x => { x with step := w })) else .error 5
  | 0x11 => wave true (fun w => some (pokeVregs w bs))
  | 0x12 => wave true (fun w => some (pokeVpoison w bs))
  | 0x13 => wave (fieldAt bs 264 8 == 0) (fun w => some (pokeSregs w bs))
  | 0x14 => wave true (fun w => some (pokePreds w bs))
  | 0x15 => wave true (fun w => pokePaths w bs)
  | _ => .error 2

def ctxPoke (i : Instr) (x : Iss) (s : State) (d k b : BitVec 8) (item index : Nat) : Act :=
  let core := coreOf x.cur.wave
  let s₀ := s
  match targetArg x s k false with
  | .error f => x.fails f
  | .ok (t, pk) =>
    match pointerArg x s b with
    | .error f => x.fails f
    | .ok p =>
      match checkPtr p 16 .globalDev with
      | some f => x.fails f
      | none =>
        match itemStatus s t item index true with
        | 0 => itemKey x s p item (fun key s =>
          let n := pokeSize s t item index
          if n == 0 then answer x i s d 3 pk
          else readBuffer x s (dataAt p item) n (fun bs pb s =>
            let pz := pk || pb
            if pb && itemAddress item then x.fails (bad Code.POISON_USE 0 (dataAt p item))
            else if item == 0x30 then
              let qs := runsOf (BitVec.ofNat 64 key) index
              match memCheck s core t pW qs with
              | .error f => peekFault x i s d pz p f
              | .ok s =>
                match alongside s₀ s (fun s => memWrite s core t bs qs) with
                | .wait t r => .waits t r 1
                | .fail f => peekFault x i s d pz p f
                | .ok _ s => answer x i s d 0 pz
            else if item == 0x31 then
              let g := key / 0x100000000
              let off := key % 0x100000000
              if 256 ≤ g then answer x i s d 3 pz
              else match localFault s g t off index with
                | some f => peekFault x i s d pz p f
                | none => answer x i (localPut s g t off bs) d 0 pz
            else if item == 0x05 then
              if !obsOk bs then answer x i s d 5 pz
              else
                let u := setObs s t (some x.w.ctx) bs
                match alongside s₀ u (fun s =>
                    obsHeader s t core true (BitVec.ofNat 64 (fieldAt bs 0 8)) (fieldAt bs 20 1)) with
                | .wait t r => .waits t r 1
                | .fail f => x.fails f
                | .ok _ u =>
                  match alongside s₀ u (fun s =>
                      obsHeader s t core false (BitVec.ofNat 64 (fieldAt bs 8 8)) (fieldAt bs 21 1)) with
                  | .wait t r => .waits t r 1
                  | .fail f => x.fails f
                  | .ok _ u =>
                    let on := match u.ctx? t with | some y => y.obsCtl | none => 0
                    sealedEffect x i u (fun s => setStatus x ((setObs s t (some x.w.ctx) bs).updCtx t (fun y =>
                      { y with obsCtl := on })) d 0 pz)
            else match pokeItem s t item index bs with
              | .error e => answer x i s d e pz
              | .ok f => sealedEffect x i s (fun s => setStatus x (f s) d 0 pz)))
        | n => answer x i s d n pk

def execCtxpoke (ctl : Ctl) (d k b item : BitVec 8) (index : BitVec 24) (s : State) : Out :=
  issueSealed (.ctxpoke ctl d k b item index) s (fun x s =>
    ctxPoke (.ctxpoke ctl d k b item index) x s d k b item.toNat index.toNat)

end Sys2Proof.Machine
end

