-- ==== Sys2Proof/Machine/Observe.lean ====
section
/-!
DEFINITION. The observation unit (R213 to R216): trace records and samples written to the buffers of their context.
-/

namespace Sys2Proof.Machine

/-- A counter of a buffer's header advances by n; answers its old value. -/
def obsAdd (s : State) (c core : Nat) (p : Word64) (n : Nat) : Res Nat :=
  match translate s core (obsOwner s c) p pRW with
  | .error f => failed s f
  | .ok (x, s) =>
    match combineFirst s x.dev with
    | .wait a b => .wait a b
    | .fail f => .fail f
    | .ok _ t =>
      match charge t (obsOwner s c) x.dev with
      | none => .wait (s.clk.tick + 1) 0
      | some t =>
        match alongside s t (fun s => clUpdate s x.dev 8 false (fun bs => leBytes ((leNat bs + n) % 0x10000000000000000) 8)) with
        | .wait a b => .wait a b
        | .fail f => .fail f
        | .ok (bs, _) s => .ok (leNat bs) (wrote s x.dev 8)

/-- A record of a buffer, at the place that TAIL gives, then TAIL. -/
def obsRecord (s : State) (c core : Nat) (buf : Word64) (log size : Nat) (bs : List Byte) : Res Unit :=
  match obsAdd s c core buf 1 with
  | .wait a b => .wait a b
  | .fail f => .fail f
  | .ok tail t =>
    alongside s t (fun s => obsWrite s c core (buf + BitVec.ofNat 64 (64 + size * (tail % 2 ^ log))) bs)

/-- What a context lost is added to LOST of its trace buffer. -/
def flushLost (s : State) (core c : Nat) (x : Ctx) : Res Unit :=
  let n := Sp.get 0 (s.core core).lostQ c
  if n == 0 then .ok () s
  else match obsAdd s c core (x.obsT + 8) n with
    | .ok _ s =>
      let k := s.core core
      .ok () (s.setCore core { k with lostQ := Sp.erase k.lostQ c })
    | .wait a b => .wait a b
    | .fail f => .fail f

def popTrace (s : State) (core : Nat) : State :=
  let k := s.core core
  s.setCore core { k with traceQ := k.traceQ.drop 1 }

/-- TRACE_RECORD_WRITE: the oldest queued record, and what was lost before it; a write that would fault clears TRON. -/
def writeTrace (s : State) (core : Nat) : State :=
  let again (s : State) : State :=
    if (s.core core).traceQ.isEmpty && (s.core core).lostQ.isEmpty then s else s.ensureSoon (.traceRecordWrite core)
  let next : Option (Nat × List Byte) := match (s.core core).traceQ with
    | r :: _ => some (r.ctx, leBytes r.lo.toNat 8 ++ leBytes r.hi.toNat 8)
    | [] => ((s.core core).lostQ.head?).map (fun y => (y.1, []))
  match next with
  | none => s
  | some (c, bs) =>
    let skip (s : State) : State :=
      let k := s.core core
      let s := s.setCore core { k with lostQ := Sp.erase k.lostQ c }
      again (if bs.isEmpty then s else popTrace s core)
    match s.ctx? c with
    | none => skip s
    | some x =>
      if !bit x.obsCtl 0 then skip s
      else
        let r : Res Unit := match flushLost s core c x with
          | .ok _ t => if bs.isEmpty then .ok () t
            else alongside s t (fun s => obsRecord s c core x.obsT x.obsTlog 16 bs)
          | r => r
        match r with
        | .wait t r => s.waitTick t r (.traceRecordWrite core)
        | .fail f => again (obsFault s c true f)
        | .ok _ s => again (if bs.isEmpty then s else popTrace s core)

def execTraceRecordWrite (core : Nat) (s : State) : Out := .next (settleHits (writeTrace s core))

/-- The 32 bytes of a sample. -/
def sampleBytes (r : Sample) : List Byte :=
  leBytes r.pc.toNat 8 ++ leBytes r.mask.toNat 8 ++ leBytes r.tick.toNat 8 ++ leBytes r.wave 4 ++ leBytes r.path 1 ++
    leBytes r.reason 1 ++ leBytes 0 2

/-- Samples that may be written go to their buffers, in order. -/
def writeSamples (s : State) (core lp : Nat) : Nat → State
  | 0 => s
  | n + 1 =>
    match (s.core core).sampleQ with
    | [] => s
    | r :: rest =>
      let pop (s : State) : State := s.setCore core { s.core core with sampleQ := rest }
      match s.ctx? r.ctx with
      | none => writeSamples (pop s) core lp n
      | some x =>
        if !bit x.obsCtl 1 then writeSamples (pop s) core lp n
        else match obsRecord s r.ctx core x.obsS x.obsSlog 32 (sampleBytes r) with
          | .wait t r => s.waitTick t r (.sample core lp)
          | .fail f => writeSamples (obsFault (pop s) r.ctx false f) core lp n
          | .ok _ s => writeSamples (pop s) core lp n

/-- SAMPLE (R216): the samples that a core's lane pairs have taken (laneEnd) go to the buffers of their contexts. -/
def execSample (core lp : Nat) (s : State) : Out :=
  .next (settleHits (writeSamples s core lp ((s.core core).sampleQ.length)))

end Sys2Proof.Machine
end

