-- ==== Sys2Proof/Machine/Rings.lean ====
section
/-!
DEFINITION. The ring unit (R193 to R198): held records written to their ring, replies acted on. Its writes are clockless,
through the ring's own context, and never logged.
-/

namespace Sys2Proof.Machine

/-! ### Fault records (R193) -/

/-- The 64 bytes of a record. -/
def recordBytes (r : FaultRec) : List Byte :=
  leBytes r.code 1 ++ leBytes r.sub 1 ++ leBytes r.flags.toNat 2 ++ leBytes r.serial 4 ++ leBytes r.mask.toNat 8 ++
    leBytes r.pc.toNat 8 ++ leBytes r.addr.toNat 8 ++ leBytes r.wave 4 ++ leBytes r.path 1 ++ leBytes 0 1 ++ leBytes r.ctx 2 ++
    leBytes r.extra.toNat 8 ++ leBytes r.tick.toNat 8 ++ leBytes 0 8

/-! ### Words of a ring -/

/-- An unanswered record, where its context has it or, once that is gone, the device. -/
def State.outst? (s : State) (c serial : Nat) : Option Outst :=
  match (s.ctx? c).bind (fun x => x.ring.out.find? (fun o => o.serial == serial)) with
  | some o => some o
  | none => (s.dev.orphans.find? (fun y => y.1 == c && y.2.serial == serial)).map (·.2)

def State.updOutst (s : State) (c serial : Nat) (f : Outst → Outst) : State :=
  let g (o : Outst) : Outst := if o.serial == serial then f o else o
  let s := s.updCtx c (fun x => { x with ring := { x.ring with out := x.ring.out.map g } })
  { s with dev := { s.dev with orphans := s.dev.orphans.map (fun (y : Nat × Outst) => if y.1 == c then (c, g y.2) else y) } }

def State.dropOutst (s : State) (c serial : Nat) : State :=
  let s := s.updCtx c (fun x => { x with ring := { x.ring with out := x.ring.out.filter (fun o => o.serial != serial) } })
  { s with dev := { s.dev with orphans := s.dev.orphans.filter (fun y => !(y.1 == c && y.2.serial == serial)) } }

def ringOf (s : State) (c : Nat) : Ring := match s.ctx? c with | some x => x.ring | none => {}
def State.updRing (s : State) (c : Nat) (f : Ring → Ring) : State := s.updCtx c (fun x => { x with ring := f x.ring })

/-- The device address of an offset of a ring, checked for R and W. -/
def ringWord (s : State) (c off size : Nat) : Except Fail (Nat × State) :=
  match s.ctx? c with
  | none => .error (bad Code.CTX 0 0)
  | some x => clCheck s (launchCore s c) c (x.conf.ring + BitVec.ofNat 64 off) size pRW

/-- A clockless change of a word at a device address, after a combine of its line (R97) and with a token of a context (R99). -/
def ringChange (s : State) (c d n : Nat) (f : List Byte → List Byte) : Res (List Byte) :=
  match combineFirst s d with
  | .wait a b => .wait a b
  | .fail e => .fail e
  | .ok _ t =>
    match onCredit t c d (fun t => match charge t c d with
      | none => Res.wait (s.clk.tick + 1) 0
      | some t => alongside s t (fun s => clUpdate s d n false f)) with
    | .wait a b => .wait a b
    | .fail e => .fail e
    | .ok (bs, _) s => .ok bs (wrote s d n)

/-- May the ring unit begin a write for a context: have its buckets a token at the controller of its header (R99)? What it then
writes is one operation, and is charged whole (log 37). -/
def ringToken (s : State) (c : Nat) : Bool :=
  match s.ctx? c with
  | none => true
  | some x =>
    match clCheck s (launchCore s c) c x.conf.ring 64 pRW with
    | .ok (d, _) => (charge s c d).isSome
    | .error _ => true

/-- The same at an offset of a ring. -/
def ringUpdate (s : State) (c off n : Nat) (f : List Byte → List Byte) : Res (List Byte) :=
  match ringWord s c off n with
  | .error e => failed s e
  | .ok (d, s) => ringChange s c d n f

/-- A counter of the header advances. -/
def ringAdd (s : State) (c off n : Nat) : Res Unit :=
  match ringUpdate s c off 8 (fun bs => leBytes ((leNat bs + n) % 0x10000000000000000) 8) with
  | .ok _ s => .ok () s
  | .wait a b => .wait a b
  | .fail e => .fail e

/-- A counter of the header is read. -/
def ringRead (s : State) (c off : Nat) : Res Nat :=
  match ringWord s c off 8 with
  | .error e => failed s e
  | .ok (d, s) =>
    match combineFirst s d with
    | .wait a b => .wait a b
    | .fail e => .fail e
    | .ok _ s =>
      match clRead s d 8 with
      | .ok (bs, _) s => .ok (leNat bs) s
      | .wait a b => .wait a b
      | .fail e => .fail e

/-! ### Writing what a ring is owed (R195 to R197) -/

/-- N of the header, which is written at creation: as soon as the context's translation of it passes (log 31). -/
def writeHeader (s : State) (c : Nat) : Res Unit :=
  match s.ctx? c with
  | none => .ok () s
  | some x =>
    if x.ring.made then .ok () s
    else match ringUpdate s c 24 4 (fun _ => leBytes x.conf.ringn 4) with
      | .ok _ s => .ok () (s.updRing c (fun r => { r with made := true }))
      | .wait a b => .wait a b
      | .fail e => .fail e

/-- A record of this ring whose VOID flag its word in memory lacks. -/
def dueVoid (s : State) (c : Nat) : Option (Nat × Outst) :=
  (s.ctxs.flatMap (fun y => y.2.ring.out.map (fun o => (y.1, o))) ++ s.dev.orphans).find? (fun y =>
    y.2.ring == some c && y.2.mark && y.2.reply.isSome)

/-- VOID flags, one after another. -/
def markVoids (s₀ s : State) (c : Nat) : Nat → Res Unit
  | 0 => .ok () s
  | n + 1 =>
    match dueVoid s c with
    | none => .ok () s
    | some (f, o) =>
      match alongside s₀ s (fun s => ringChange s c (o.reply.getD 54 - 54) 2 (fun bs => leBytes (leNat bs ||| 32) 2)) with
      | .ok _ s => markVoids s₀ (s.updOutst f o.serial (fun o => { o with mark := false })) c n
      | .wait a b => .wait a b
      | .fail e => .fail e

def writeVoids (s : State) (c n : Nat) : Res Unit := markVoids s s c n

/-- Dropped records are counted. -/
def writeLost (s : State) (c : Nat) : Res Unit :=
  let n := (ringOf s c).lost
  if n == 0 then .ok () s
  else match ringAdd s c 32 n with
    | .ok _ s => .ok () (s.updRing c (fun r => { r with lost := r.lost - n }))
    | r => r

/-- A record is written: the access that raised it counts as performed, and its wave's window may commit (R115). -/
def recordWritten (s : State) (c serial : Nat) : State :=
  s.waves.foldl (fun s w =>
    if w.2.ctx != c then s
    else match w.2.accs.find? (fun a => a.faulted == some serial) with
      | some a => commit (w.2.accs.length + 1) (s.updWave w.1 (fun v => v.dropAccess a.id)) w.1
      | none => s) s

/-- The oldest held record is written, then TAIL; it is then outstanding with its REPLY word. -/
def putRecord (s : State) (c : Nat) (r : FaultRec) : Res Unit :=
  let n := match s.ctx? c with | some x => x.conf.ringn | none => 16
  match ringWord s c (64 + 64 * (r.index % n)) 64 with
  | .error e => failed s e
  | .ok (d, s) =>
    match ringChange s c d 64 (fun _ => recordBytes r) with
    | .wait a b => .wait a b
    | .fail e => .fail e
    | .ok _ t =>
      match alongside s t (fun s => ringAdd s c 0 1) with
      | .ok _ s =>
        let s := s.updRing c (fun y => { y with held := y.held.drop 1 })
        let s := s.updOutst r.ctx r.serial (fun o => { o with reply := some (d + 56) })
        let s := recordWritten s r.ctx r.serial
        .ok () (match s.outst? r.ctx r.serial with
          | some o => if o.done then s.soon (.ringReply r.ctx r.serial o.action) else s
          | none => s)
      | x => x

/-- Held records that find the ring full are counted once each in OVERFLOW. -/
def countWaits (s : State) (c : Nat) : Res Unit :=
  let n := ((ringOf s c).held.filter (fun r => !r.waited)).length
  if n == 0 then .ok () s
  else match ringAdd s c 16 n with
    | .ok _ s => .ok () (s.updRing c (fun y => { y with held := y.held.map (fun r => { r with waited := true }) }))
    | r => r

/-- Held records in order while HEAD leaves room; `true` when some wait for it. -/
def writeHeld (s : State) (c : Nat) : Nat → Res Bool
  | 0 => .ok false s
  | k + 1 =>
    match (ringOf s c).held with
    | [] => .ok false s
    | r :: _ =>
      match ringRead s c 0 with
      | .wait a b => .wait a b
      | .fail e => .fail e
      | .ok tail u =>
        match alongside s u (fun s => ringRead s c 8) with
        | .wait a b => .wait a b
        | .fail e => .fail e
        | .ok head t =>
          let n := match s.ctx? c with | some x => x.conf.ringn | none => 16
          if n ≤ (tail + 0x10000000000000000 - head) % 0x10000000000000000 then
            match alongside s t (fun s => countWaits s c) with
            | .ok _ s => .ok true s
            | .wait a b => .wait a b
            | .fail e => .fail e
          else match alongside s t (fun s => putRecord s c r) with
            | .ok _ s => writeHeld s c k
            | .wait a b => .wait a b
            | .fail e => .fail e

/-- A write that would fault: at most one record is on the parent's ring; the write is tried again in 4,096 ticks (R197). -/
def reportRing (s : State) (c : Nat) (f : Fail) : State :=
  let x := ringOf s c
  let s := if x.report.isSome then s
    else
      let e := match x.held with | r :: _ => r.serial | [] => 0
      let t := raiseTo s c (ringFor s c .parent) fREFLECTED 0 { f with mask := 0, extra := BitVec.ofNat 64 e }
      t.updRing c (fun y => { y with report := some y.serial })
  s.ensureTicks 4096 (.ringWriteRetry c)

/-- Everything that a ring is owed. A header that cannot be written yet is no fault while the ring has no record. -/
def serveRing (s : State) (c : Nat) : State :=
  let later (s : State) (t r : Nat) : State := s.waitTick t r (.ringRecordWrite c)
  if !ringToken s c then s.ensureTicks 1 (.ringRecordWrite c) else
  match writeHeader s c with
  | .wait t r => later s t r
  | .fail f => if (ringOf s c).held.isEmpty && (ringOf s c).lost == 0 then s.ensureTicks 4096 (.ringWriteRetry c) else reportRing s c f
  | .ok _ s =>
    match writeVoids s c 4096 with
    | .wait t r => later s t r
    | .fail f => reportRing s c f
    | .ok _ s =>
      match writeLost s c with
      | .wait t r => later s t r
      | .fail f => reportRing s c f
      | .ok _ s =>
        match writeHeld s c 1 with
        | .wait t r => later s t r
        | .fail f => reportRing s c f
        | .ok true s => s.ensureTicks 16 (.ringRecordWrite c)
        | .ok false s => if (ringOf s c).held.isEmpty then s else s.ensureSoon (.ringRecordWrite c)

/-- What a ring whose context is gone is still owed: the VOID flags of its records (R204). -/
def serveGone (s : State) (c : Nat) : State :=
  match writeVoids s c 4096 with
  | .ok _ s => s
  | .wait t r => s.waitTick t r (.ringRecordWrite c)
  | .fail _ => s

/-- RING_RECORD_WRITE (R195, R196): one held record; nothing while a failed write of one waits for its retry. -/
def execRingRecordWrite (ctx : Nat) (s : State) : Out :=
  if (s.ctx? ctx).isNone then .next (settleHits (serveGone s ctx))
  else if (ringOf s ctx).report.isSome && s.sch.timers.any (fun t => t.ev == .ringWriteRetry ctx) then .next s
  else .next (settleHits (serveRing s ctx))

/-- RING_WRITE_RETRY (R197). -/
def execRingWriteRetry (ctx : Nat) (s : State) : Out :=
  if (s.ctx? ctx).isNone then .next s else .next (settleHits (serveRing s ctx))

/-! ### Replies (R198, R210) -/

/-- What a reply does for the path of a record, unless a handler has it or it is VOID; a pre-empted partition's path acts
on it when its slice starts. -/
def replyPath (s : State) (c : Nat) (o : Outst) (action : Nat) : State :=
  match o.path, s.wave? o.wave with
  | some i, some w =>
    (match (w.path i).park with
     | some k => if !o.taken && !o.void && k.ctx == c && k.serial == o.serial then applyAction s o.wave i action else s
     | none => s)
  | _, _ => s

/-- A record whose path is parked in its partition's snapshot: a slice start may still need its ACTION (R210). -/
def awaited (s : State) (c : Nat) (o : Outst) : Bool :=
  o.path.isSome && !o.void && !o.taken && (match s.part? (rootOf s c) with
    | some p => p.snap.ctxs.any (fun y => y.1 == c && y.2.ring.out.any (fun q => q.serial == o.serial && !q.closed))
    | none => false)

/-- The record says DONE: it is kept while a snapshot may need it. -/
def closeOutst (s : State) (c : Nat) (o : Outst) : State :=
  if awaited s c o then s.updOutst c o.serial (fun q => { q with closed := true }) else s.dropOutst c o.serial

/-- DONE and the ACTION are written; the record is answered. -/
def writeDone (s : State) (c : Nat) (o : Outst) (action : Nat) : State :=
  match o.reply with
  | none => if o.ring.isNone then closeOutst s c o else s
  | some d =>
    match ringChange s (o.ring.getD c) d 8 (fun _ => leBytes (0x8000000000000000 + action) 8) with
    | .wait t r => s.waitTick t r (.ringReply c o.serial action)
    | .fail _ => s
    | .ok _ s => closeOutst s c o

/-- RING_REPLY: the first reply acts, and sets DONE; one to the report of a failed ring write retries it at once. -/
def replyTo (s : State) (c serial action : Nat) : State :=
  match s.outst? c serial with
  | none => s
  | some o =>
    if o.closed then s
    else if o.done then writeDone s c o o.action
    else
      let s := s.updOutst c serial (fun o => { o with done := true, action := action })
      let s := lateLaunches (replyPath s c o action) o.wave
      let s := if (ringOf s c).report == some serial then
          { (s.updRing c (fun r => { r with report := none })) with
            sch := { s.sch with timers := s.sch.timers.filter (fun t => t.ev != Instr.ringWriteRetry c) } }.ensureSoon
              (.ringWriteRetry c)
        else s
      match s.outst? c serial with
      | some o => writeDone s c o action
      | none => s

def execRingReply (ctx serial action : Nat) (s : State) : Out :=
  if 1 ≤ action && action ≤ 3 then .next (settleHits (replyTo s ctx serial action)) else .next s

end Sys2Proof.Machine
end

