-- ==== Sys2Proof/Machine/Slices.lean ====
section
/-!
DEFINITION. Partitions (R205 to R211): checkpoints, the end and the start of a slice, lent units and their reclaim, drained
units, and the root contexts that the management cluster configures (R175, R202).
-/

namespace Sys2Proof.Machine

/-! ### Checkpoints (R206) -/

/-- Is a step due within a tick? -/
def dueSoon (s : State) (i : Instr) : Bool := s.sch.timers.any (fun t => t.ev == i && t.onTick && decide (t.due ≤ s.clk.tick + 1))

/-- CHECKPOINT: one partition's cut, once the accesses on their way are performed, and the next a period later. -/
def periodic (s : State) (root : Nat) : State :=
  match s.part? root, s.ctx? root with
  | some p, some x =>
    if p.ended || x.state == .preempted then s.setPart root { p with pausing := false }
    else if partQuiet s root then (checkpointOf s root).ensureTicks p.period (.checkpoint root)
    else
      let s := pausePart s root
      if dueSoon s (.checkpoint root) then s else s.afterTicks 1 (.checkpoint root)
  | _, _ => s

def execCheckpoint (root : Nat) (s : State) : Out := .next (settleHits (periodic s root))

/-- Is a partition pre-empted? -/
def asleep (s : State) (root : Nat) : Bool := match s.ctx? root with
  | some x => x.state == .preempted
  | none => true

/-! ### Rolling a partition back (R209 steps 1 and 2) -/

/-- Steps that belong to a partition's work: its operations, launches, engines, copies, checkpoints. -/
def partStep (s : State) (root : Nat) : Instr → Bool
  | .checkpoint r => r == root
  | .gather c _ | .bilerp c _ | .search c _ | .engineRequestComplete c _ | .arrayOperationComplete c =>
    (partCores s root).contains c
  | .copyStart id | .copyStop id | .copyComplete id => s.copies.any (fun c => c.id == id && inSubtree s root c.ctx)
  | .tlbinvComplete c _ _ _ _ _ | .ctxrevokeComplete c _ _ | .ctxstopComplete c | .waitCounterPoll c _
  | .waitCounterRetry c _ | .gridClose c _ | .headAging c _ | .dispatchPlacement c => inSubtree s root c
  | _ => false

/-- Steps that a test selects are no longer due. -/
def dropSteps (s : State) (ok : Instr → Bool) : State :=
  { s with sch := { s.sch with agenda := s.sch.agenda.filter (fun i => !ok i),
                               timers := s.sch.timers.filter (fun t => !ok t.ev),
                               waits := s.sch.waits.filter (fun w => !ok w.2) } }

/-- Is a record of a context in a snapshot? -/
def Snapshot.knows (p : Snapshot) (c serial : Nat) : Bool :=
  p.ctxs.any (fun y => y.1 == c && y.2.ring.out.any (fun o => o.serial == serial))

/-- Issue stops, windows, operations and queues of a partition are discarded; records raised since the checkpoint get VOID
(R210). -/
def haltPart (s : State) (root : Nat) (p : Partition) : State :=
  let cs := subtreeOf s root
  let cores := partCores s root
  let s := dropSteps s (partStep s root)
  let s := cs.foldl (fun s c => voidRecords s c (fun o => !p.snap.knows c o.serial)) s
  let s := cs.foldl (fun s c => eachWave s c removeWave) s
  let s := { s with copies := s.copies.filter (fun y => !cs.contains y.ctx),
                    colls := s.colls.filter (fun y => !cores.contains (y.team / 64)) }
  let s := cs.foldl (fun s c => cores.foldl (fun s k => clearWork s c k) s) s
  let s := cs.foldl (fun s c => s.updCtx c (fun x => { x with jobs := [], state := .preempted })) s
  match s.part? root with
  | some p => s.setPart root { p with ended := true, pausing := false }
  | none => s

/-- Local lines stand above all device lines. -/
abbrev localBase : Nat := 0x100000000000000

/-- One line of the log is put back: local memory in its frame, device memory as a clockless write of a whole line (R77);
a replay is no reply (R198). -/
def replayLine (s : State) (g : LogLine) : Res Unit :=
  if localBase ≤ g.line then
    let k := g.line - localBase
    let s := { s with fmem := Memory.writeN s.fmem (k * 128) g.data }
    .ok () (s.setLine k { s.line k with poison := g.poison })
  else match clUpdate s (g.line * 128) 128 true (fun _ => g.data) with
    | .ok _ s => .ok () (s.setHomePoison g.line g.poison)
    | .wait a b => .wait a b
    | .fail f => .fail f

/-- How far a log can be replayed at once; `some t` when it goes on at tick t. -/
def replayNow : Nat → State → Nat → State × Option (Nat × Nat)
  | 0, s, _ => (s, none)
  | n + 1, s, root =>
    match s.part? root with
    | none => (s, none)
    | some p =>
      match p.log with
      | [] => (s, none)
      | g :: gs =>
        match replayLine s g with
        | .wait t r => (s, some (t, r))
        | .fail _ => replayNow n (s.setPart root { p with log := gs }) root
        | .ok _ s => match s.part? root with
          | some p => replayNow n (s.setPart root { p with log := gs }) root
          | none => (s, none)

/-- A partition is halted, once its accesses on their way are performed, and replayed (R209 steps 1 and 2): `false` while it waits,
`self` being due again then. -/
def rollPart (s : State) (root : Nat) (self : Instr) : State × Bool :=
  match s.part? root with
  | none => (s, true)
  | some p =>
    if !p.ended && !partQuiet s root then ((pausePart s root).ensureTicks 1 self, false)
    else
    let s := if p.ended then s else haltPart s root p
    match replayNow (p.log.length + 1) s root with
    | (s, some (t, r)) => (s.waitTick t r self, false)
    | (s, none) => (s, true)

/-! ### Contents of carve-outs -/

/-- The key of a local offset in a snapshot. -/
def localKey (core c off : Nat) : Nat := (core * 4096 + c) * 0x400000 + off

/-- The frames of a core's carve-outs for some contexts: frame key, context, position. -/
def carvedFrames (s : State) (cores cs : List Nat) : List (Nat × Nat × Nat) :=
  cores.flatMap (fun k => ((s.core k).carve.filter (fun y => cs.contains y.1)).flatMap (fun y =>
    y.2.zipIdx.map (fun f => (frameKey k f.1, k * 4096 + y.1, f.2))))

/-- Bytes and poisoned lines of carve-outs. -/
def localsOf (s : State) (cores cs : List Nat) : List Host.Cell × List Nat :=
  let fs := carvedFrames s cores cs
  (fs.foldl (fun m f => (s.fmem.filter (fun x => x.1 / 65536 == f.1)).foldl (fun m x =>
      Memory.write m (f.2.1 * 0x400000 + f.2.2 * 65536 + x.1 % 65536) x.2) m) [],
   fs.flatMap (fun f => (s.lines.filter (fun l => l.1 / 512 == f.1 && l.2.poison)).map (fun l =>
      f.2.1 * 0x400000 + f.2.2 * 65536 + l.1 % 512 * 128)))

/-- The contents of carve-outs come back at the same offsets. -/
def putLocals (s : State) (cells : List Host.Cell) (bad : List Nat) : State :=
  let at_ (s : State) (k : Nat) : Nat := localAddr s (k / 0x400000 / 4096) (k / 0x400000 % 4096) (k % 0x400000)
  let s := cells.foldl (fun s x => { s with fmem := Memory.write s.fmem (at_ s x.1) x.2 }) s
  bad.foldl (fun s k => s.setLine (at_ s k / 128) { s.line (at_ s k / 128) with poison := true }) s

/-- The carve-outs of a partition that are not there on a core: contexts with their frames. -/
def carvesDue (s : State) (root k : Nat) : List (Nat × Nat) :=
  if !bankEligible s k then []
  else ((subtreeOf s root).filter (fun c => ((unitsOf s c).getLsbD k || c == root) && !(s.core k).carve.any (fun y => y.1 == c))).map
    (fun c => (c, match s.ctx? c with | some x => x.conf.localfr | none => 0))

/-- Carve-outs of a partition that are not there are taken. -/
def carveAll (s : State) (root : Nat) : State :=
  (partCores s root).foldl (fun s k => (carvesDue s root k).foldl (fun s x => carveOut s k x.1 x.2) s) s

/-- Room for them: `false` while a part that is held or moves makes them wait (R43). -/
def carvesRoom (s : State) (root : Nat) : State × Bool :=
  (partCores s root).foldl (fun (a : State × Bool) k =>
    if a.2 then carveRoom a.1 ((carvesDue a.1 root k).foldl (fun n x => n + x.2) 0) [k] else a) (s, true)

/-- A core as no partition uses it: what belongs to the hardware stays, with the records on their way to memory (R215). -/
def idleCore (k : Core) : Core :=
  { bankOn := k.bankOn, loupeOn := k.loupeOn, lunaOn := k.lunaOn, draining := k.draining, leaving := k.leaving, spare := k.spare,
    tlb := k.tlb,
    carve := k.carve, turn := k.turn, used := k.used, traceQ := k.traceQ, sampleQ := k.sampleQ, lostQ := k.lostQ }

/-! ### The end of a slice (R209 step 3) -/

/-- The lane pairs of some cores. -/
def lanesAt (cores : List Nat) : List Nat := cores.flatMap (fun k => (List.range 32).map (fun i => k * 32 + i))

/-- Counters as they are kept for a partition (R219), with what %idle reads. -/
def keptCounters (l : LanePair) (cycle : Nat) : LanePair :=
  { hist := l.hist, stall := l.stall, idle := l.idleAt cycle, slip := l.slip }

/-- The counters of some cores' lane pairs. -/
def countersOf (s : State) (cores : List Nat) : List (Nat × LanePair) :=
  (lanesAt cores).map (fun l => (l, keptCounters (s.lp l) s.clk.cycle))

/-- Counters that were kept come back; those of the cores' other lane pairs are zero. -/
def setCounters (s : State) (cores : List Nat) (ls : List (Nat × LanePair)) : State :=
  (lanesAt cores).foldl (fun s l =>
    let k := Sp.get {} ls l
    s.setLp l (({ hist := k.hist, stall := k.stall, slip := k.slip } : LanePair).setIdle s.clk.cycle k.idle)) s

/-- Tiles and accumulators of some cores are unowned and clear. -/
def clearMatrix (s : State) (cores : List Nat) : State := { s with mx := s.mx.of (fun k => !cores.contains k) }

/-- The contexts of some ids hold no frame but their carve-outs. -/
def evictAll (s : State) (cs : List Nat) : State :=
  ((s.frames.filter (fun (x : Nat × FrameRec) => x.2.kind == FKind.primary && cs.contains x.2.ctx)).map
    (fun (x : Nat × FrameRec) => (x.1 / 8192, x.2.part))).foldl (fun s x => evict s x.1 x.2) s

/-- TLB entries go, primaries and replicas are evicted, carve-outs are saved and freed, and so are the units. -/
def freePart (s : State) (root : Nat) : State :=
  let cs := subtreeOf s root
  let cores := partCores s root
  let s := evictAll (dropTlb s (fun e => cs.contains e.ctx)) cs
  let (cells, bad) := localsOf s cores cs
  let counts := countersOf s cores
  let s := cs.foldl (fun s c => cores.foldl (fun s k => dropCarve s k c) s) s
  let s := cores.foldl (fun s k => s.setCore k (idleCore (s.core k))) (clearMatrix s cores)
  let s := setCounters s cores []
  match s.part? root with
  | some p => s.setPart root { p with ended := false, snap := { p.snap with locals := cells, lpoison := bad, lps := counts } }
  | none => s

/-- SLICE_END. -/
def endSlice (s : State) (root : Nat) (self : Instr) : State :=
  match s.part? root, s.ctx? root with
  | some p, some x =>
    if x.state == .preempted && !p.ended then s
    else match rollPart s root self with
      | (s, false) => s
      | (s, true) => if ctxsAtRest s (subtreeOf s root) then freePart s root else s.ensureTicks 1 self
  | _, _ => s

def execSliceEnd (root : Nat) (s : State) : Out := .next (settleHits (endSlice s root (.sliceEnd root)))

/-! ### The start of a slice (R209, R210) -/

/-- Items of a sorted list replace those that a test does not keep. -/
def mergeKeys {α : Type} (keep : Nat → Bool) (cur new : List (Nat × α)) : List (Nat × α) :=
  new.foldl (fun m x => Sp.insert m x.1 x.2) (cur.filter (fun x => keep x.1))

/-- A wave goes on from a checkpoint: waits are issued again, nothing is fetched, and what waited for a seal asks for one again. An
access whose record has been written meanwhile counts as performed (R115). -/
def wakeWave (unwritten : Nat → Bool) (w : Wave) : Wave :=
  let w := abandonWaits w
  let w : Wave := { w with paths := w.paths.map (fun (p : Path) =>
    { p with fetch := [], fetching := none, urgentAt := none, eligible := 0, yieldTo := 0, pred := none, wants := false,
             sealed := false }) }
  let w : Wave := { w with accs := (w.accs.filter (fun a => a.faulted.all unwritten)).map (fun a =>
    { a with paused := false, sealed := false }) }
  { w with pinReq := none, samples := [] }

/-- Is the record of a context with a serial held for a ring, not yet written? -/
def recordHeld (s : State) (c serial : Nat) : Bool :=
  s.ctxs.any (fun x => x.2.ring.held.any (fun r => r.ctx == c && r.serial == serial))

/-- What a wave still waits for is due. -/
def waveSteps (id : Nat) (w : Wave) : List Instr :=
  (w.accs.map (fun a => Instr.accessPerformed id a.id)) ++ w.pend.map (fun p => Instr.resultWritten id p.id)

/-- A core of a snapshot, in the core as it now is. -/
def wakeCore (now snap : Core) : Core :=
  { (idleCore now) with pts := snap.pts, mprog := snap.mprog, tc := snap.tc, owner := snap.owner, imode := snap.imode,
                        arrayQ := snap.arrayQ, tileOps := snap.tileOps, scope := snap.scope, launches := snap.launches,
                        teams := snap.teams, contrib := snap.contrib }

/-- What a core's work makes due. -/
def coreSteps (k : Nat) (x : Core) : List Instr :=
  x.launches.map (fun h => Instr.accessPerformed h.wave h.id) ++
    x.scope.map (fun r => if r.ended || r.status == 3 then Instr.engineRequestComplete k r.id else engineStep k r)

/-- A context of a snapshot, with the ring, ranges and tokens as they now are. A record's path is where the snapshot has it. -/
def wakeCtx (now snap : Ctx) : Ctx :=
  let out := now.ring.out.map (fun o => match snap.ring.out.find? (fun q => q.serial == o.serial) with
    | some q => { o with taken := q.taken, wave := q.wave }
    | none => o)
  { snap with ring := { now.ring with out := out }, declared := now.declared, flat := now.flat, gver := now.gver,
              conf := now.conf, hold := now.hold, tokens := now.tokens, bucket := now.bucket }

/-- What a context's queues and operations make due. -/
def ctxSteps (c : Nat) (x : Ctx) : List Instr :=
  Instr.dispatchPlacement c :: (List.range 8).map (fun q => Instr.headAging c q) ++ (x.jobs.filterMap (fun j => if j.state == .waiting then some (Instr.waitCounterPoll c j.id)
    else if j.dues.isEmpty then none else some (Instr.waitCounterRetry c j.id))) ++
    (if x.stops.isEmpty then [] else [Instr.ctxstopComplete c]) ++ x.kills.map (fun k => Instr.ctxkillComplete k.1)

/-- Context time is not below the largest timestamp of the checkpoint (R80): TOFF rises, and the context's timestamps stand
where they stood (log 8). -/
def raiseTime (s : State) (c : Nat) : State :=
  let top := s.cores.foldl (fun m k => max m (Sp.get 0 k.2.pts c)) 0
  if top ≤ s.clk.tick then s
  else
    let d := top - s.clk.tick
    let s := (evictAll s [c]).updCtx c (fun x => { x with conf := { x.conf with toff := x.conf.toff + BitVec.ofNat 64 d } })
    (s.cores.map (fun k => k.1)).foldl (fun s k => s.setCore k { s.core k with
      pts := (s.core k).pts.map (fun y => if y.1 == c then (c, y.2 - d) else y) }) s

/-- Paths whose record is DONE act on its ACTION; the record is kept until the next checkpoint. -/
def actDone (s : State) (c : Nat) : State :=
  match s.ctx? c with
  | none => s
  | some x =>
    (x.ring.out.filter (fun o => o.done)).foldl (fun s o => replyPath s c o o.action) s

/-- A partition goes on from its snapshot. -/
def wakePart (s : State) (root : Nat) (p : Snapshot) : State :=
  let cs := p.ctxs.map (fun x => x.1)
  let cores := partCores s root
  let s := p.ctxs.foldl (fun s x => s.updCtx x.1 (fun y => wakeCtx y x.2)) s
  let s := p.cores.foldl (fun s k => if cores.contains k.1 then s.setCore k.1 (wakeCore (s.core k.1) k.2) else s) s
  let s := { s with mx := {
    image := mergeKeys (fun k => !cores.contains (k / 524288)) s.mx.image p.mx.image,
    scales := mergeKeys (fun k => !cores.contains (k / 65536)) s.mx.scales p.mx.scales,
    wpoison := mergeKeys (fun k => !cores.contains (k / 131072)) s.mx.wpoison p.mx.wpoison,
    spoison := mergeKeys (fun k => !cores.contains (k / 65536)) s.mx.spoison p.mx.spoison,
    accs := mergeKeys (fun k => !cores.contains (k / 65536)) s.mx.accs p.mx.accs } }
  let s := p.waves.foldl (fun s w => s.setWave w.1 (wakeWave (recordHeld s w.2.ctx) w.2)) s
  let s := { s with copies := s.copies ++ p.copies, colls := s.colls ++ p.colls }
  let s := cs.foldl raiseTime s
  let s := ((s.waves.filter (fun w => cs.contains w.2.ctx)).flatMap (fun w => waveSteps w.1 w.2) ++ p.cores.flatMap (fun k => coreSteps k.1 k.2) ++
    (p.ctxs.flatMap (fun x => ctxSteps x.1 x.2)) ++ p.ops ++
    p.copies.filterMap (fun c => if c.failure.isSome then some (Instr.copyStop c.id)
      else if c.landed then some (Instr.copyComplete c.id)
      else if c.started then none else some (Instr.copyStart c.id))).foldl State.ensureSoon s
  let s := cs.foldl actDone s
  match s.part? root with
  | some q => (s.setPart root { q with snap := { p with locals := [], lpoison := [], lps := [] }, log := [], ended := false,
                                          pausing := false }).ensureTicks q.period (.checkpoint root)
  | none => s

/-- The cores of a snapshot's waves. -/
def Snapshot.waveCores (p : Snapshot) : List Nat := (p.waves.map (fun w => coreOf w.1)).eraseDups

/-! ### Rollback and move (R205 steps 1 and 2, R67) -/

/-- The flags that array operations of a core owe its waves are owed no more: what it owned there is released (R324). -/
def dropArrayFlags (ops : List ArrOp) (id : Nat) (w : Wave) : Wave :=
  (ops.filter (fun a => a.wave == id)).foldl (fun w a => w.clearFlag a.seq) w

/-- Where a wave of another core can stand on core n, with its runs there: at its own lane pair and slot if it can, else at the
lowest that can take it. -/
def seatOn (s : State) (n id : Nat) (w : Wave) : Option (Nat × List (Nat × Nat)) :=
  let runsAt (lp : Nat) : Option (List (Nat × Nat)) :=
    let iv := runsBut s lp none
    if w.state == .spilled || w.runs.all (fun r => clearOf iv r.1 r.2) then some w.runs
    else fitRuns iv (match w.runs with | r :: _ => r.2 | [] => 0) w.runs.length
  ((n * 512 + id % 512) :: (List.range 512).map (fun k => n * 512 + k)).findSome? (fun k =>
    if (s.wave? k).isSome then none else (runsAt (lpOf k)).map (fun r => (k, r)))

/-- Seats for some waves, one after another: their old and new ids, and the machine's waves with them. -/
def seatAll (n : Nat) : List (Nat × Wave) → State → List (Nat × Nat) → Option (List (Nat × Nat) × State)
  | [], s, ids => some (ids, s)
  | (id, w) :: ws, s, ids =>
    match seatOn s n id w with
    | some (k, r) => seatAll n ws (s.setWave k { w with runs := r }) (ids ++ [(id, k)])
    | none => none

/-- The contexts of a snapshot that have something on a core. -/
def Snapshot.ctxsOn (p : Snapshot) (o : Nat) : List Nat :=
  let k := Sp.get {} p.cores o
  (((p.waves.filter (fun w => coreOf w.1 == o)).map (fun w => w.2.ctx)) ++ k.contrib.map (fun y => y.1) ++
    k.scope.map (fun r => r.ctx) ++ k.teams.map (fun t => t.2.ctx) ++ (p.copies.filter (fun c => c.core == o)).map (fun c => c.ctx)).eraseDups

/-- What moves of a context from a core: all of it, or some waves with their teams, of whose local space only some areas move. -/
structure Part where
  waves : Option (List Nat) := none
  areas : List (Nat × Nat) := []
  deriving DecidableEq, Repr

namespace Part

def has (g : Part) (w : Nat) : Bool := match g.waves with | none => true | some ws => ws.contains w
def covers (g : Part) (off : Nat) : Bool := g.waves.isNone || g.areas.any (fun a => decide (a.1 ≤ off) && decide (off < a.1 + a.2))

end Part

/-- Free indexes of a team table for the teams of a context on another core that move. -/
def teamSeats (old new : Core) (c : Nat) (g : Part) : Option (List (Nat × Nat)) :=
  let mine := (old.teams.filter (fun t => t.2.ctx == c && (g.waves.isNone || t.2.members.any g.has))).map (fun t => t.1)
  let free := (List.range 64).filter (fun i => (Sp.find new.teams i).isNone)
  if mine.length ≤ free.length then some (mine.zip free) else none

/-- A snapshot in which a part of what a context has on core o is on core n; none where there is no room. The wave ids change (R205),
tiles and accumulators are released (R324). -/
def Snapshot.moveCtx (s : State) (p : Snapshot) (o n c : Nat) (g : Part) : Option Snapshot :=
  let old := Sp.get {} p.cores o
  let new := Sp.get {} p.cores n
  let here (w : Nat × Wave) : Bool := coreOf w.1 == o && w.2.ctx == c && g.has w.1
  match seatAll n (p.waves.filter here) { s with waves := p.waves.filter (fun w => !here w) } [], teamSeats old new c g with
  | some (ids, t), some ts =>
    let wave (id : Nat) : Nat := Sp.get id ids id
    let team (k : Nat) : Nat := if k / 64 == o then (match Sp.find ts (k % 64) with | some j => n * 64 + j | none => k) else k
    let mine (k : Nat) : Bool := k / 0x400000 == o * 4096 + c && g.covers (k % 0x400000)
    let key (k : Nat) : Nat := if mine k then localKey n c (k % 0x400000) else k
    let stay (k : Nat) : Bool := !(k / 0x400000 == n * 4096 + c && g.covers (k % 0x400000))
    let req (r : Request) : Bool := r.ctx == c && g.has r.wave
    let joined : Core := { new with
      launches := new.launches ++ (old.launches.filter (fun h => ids.any (fun y => y.1 == h.wave))).map (fun h =>
        { h with wave := wave h.wave })
      scope := new.scope ++ (old.scope.filter req).map (fun r => { r with wave := wave r.wave })
      teams := ts.foldl (fun m y => match Sp.find old.teams y.1 with
        | some x => Sp.insert m y.2 { x with members := x.members.map wave }
        | none => m) new.teams
      contrib := new.contrib ++ old.contrib.filter (fun y => y.1 == c)
      pts := Sp.put 0 new.pts c (max (Sp.get 0 new.pts c) (Sp.get 0 old.pts c)) }
    let left : Core := { old with
      launches := old.launches.filter (fun h => !ids.any (fun y => y.1 == h.wave))
      scope := old.scope.filter (fun r => !req r), teams := old.teams.filter (fun x => !ts.any (fun y => y.1 == x.1))
      contrib := old.contrib.filter (fun y => y.1 != c) }
    some { p with
      waves := ids.foldl (fun m y => match Sp.find m y.2 with
        | some w => Sp.insert m y.2 (dropArrayFlags old.arrayQ y.1 { w with team := w.team.map team })
        | none => m) t.waves
      cores := Sp.insert (Sp.insert p.cores o left) n joined
      ctxs := p.ctxs.map (fun x => if x.1 != c then x else (x.1, { x.2 with ring := { x.2.ring with
        out := x.2.ring.out.map (fun q => { q with wave := wave q.wave }) } }))
      copies := p.copies.map (fun y => if y.core != o || y.ctx != c || !g.has y.owner then y
        else { y with core := n, owner := wave y.owner, team := y.team.map team, hazard := none })
      colls := p.colls.map (fun y => if y.team / 64 == o && (Sp.find ts (y.team % 64)).isSome
        then { y with team := team y.team, froms := y.froms.map (fun f => { f with wave := wave f.wave }) } else y)
      locals := (p.locals.filter (fun x => stay x.1)).foldl (fun m x =>
        let m := Memory.write m (key x.1) x.2
        if g.waves.isNone || !mine x.1 then m else Memory.write m x.1 x.2) []
      lpoison := (p.lpoison.filter stay).flatMap (fun k => if g.waves.isNone || !mine k then [key k] else [k, key k]) }
  | _, _ => none

/-- A snapshot that has nothing on a core. -/
def Snapshot.without (p : Snapshot) (o : Nat) : Snapshot :=
  { p with cores := Sp.erase p.cores o, mx := p.mx.of (fun k => k != o), lps := p.lps.filter (fun l => l.1 / 32 != o),
           locals := p.locals.filter (fun x => x.1 / 0x400000 / 4096 != o),
           lpoison := p.lpoison.filter (fun k => k / 0x400000 / 4096 != o) }

/-- What moves of a context, and the core to which it goes. -/
structure Move where
  ctx  : Nat
  core : Nat
  part : Part
  deriving DecidableEq, Repr

/-- The cores of a partition, but o, on which waves of a context may stand: in its unit set or lent to its root, the bank on. -/
def moveCores (s : State) (root o c : Nat) : List Nat :=
  let lent := lentTo s root
  (partCores s root).filter (fun k => k != o && bankEligible s k && ((unitsOf s c).getLsbD k || (c == root && lent.contains k)))

/-- The lowest core that can take all that a context has on core o: one with nothing of the context on it. -/
def moveWhole (s : State) (root o c : Nat) (p : Snapshot) : Option (Snapshot × Move) :=
  (moveCores s root o c).findSome? (fun k =>
    if (p.ctxsOn k).contains c then none else (p.moveCtx s o k c {}).map (fun q => (q, ⟨c, k, {}⟩)))

/-- The areas of local space that some waves of a core have with the teams that they are members of. -/
def areasWith (p : Snapshot) (o : Nat) (ws : List Nat) : List (Nat × Nat) :=
  (p.waves.filter (fun w => ws.contains w.1)).flatMap (fun w => w.2.areas) ++
    ((Sp.get {} p.cores o).teams.filter (fun t => t.2.members.any ws.contains)).map (fun t => (t.2.base, t.2.size))

/-- The areas that a context has on a core. -/
def areasOn (p : Snapshot) (c k : Nat) : List (Nat × Nat) :=
  areasWith p k ((p.waves.filter (fun w => coreOf w.1 == k && w.2.ctx == c)).map (fun w => w.1))

/-- The waves of a context on a core that move together: a team's members, or one wave; where it has none, what else it has there. -/
def moveGroups (p : Snapshot) (o c : Nat) : List (List Nat) :=
  let ws := (p.waves.filter (fun w => coreOf w.1 == o && w.2.ctx == c)).map (fun w => (w.1, w.2.team))
  if ws.isEmpty then [[]]
  else (ws.map (fun w => match w.2 with
    | none => [w.1]
    | some t => (ws.filter (fun v => v.2 == some t)).map (fun v => v.1))).eraseDups

/-- Groups of waves of a context move one by one, each to the lowest core that can take it: one with nothing of the context, which the
static part of local space goes to with the first of them; or one where its areas are free and that a group before it has taken, or
where the context has no static part (log 41). -/
def moveEach (s : State) (root o c : Nat) : List (List Nat) → Snapshot → List Nat → Option (Snapshot × List Move)
  | [], p, _ => some (p, [])
  | ws :: gs, p, taken =>
    let static := match s.ctx? c with | some x => x.conf.lstatic | none => 0
    let mine := areasWith p o ws
    match (moveCores s root o c).findSome? (fun k =>
      let new := !(p.ctxsOn k).contains c
      let g : Part := ⟨some (ws ++ if taken.isEmpty then [noWave] else []), if new && static != 0 then (0, static) :: mine else mine⟩
      if (new || taken.contains k || static == 0) && mine.all (fun a => clearOf (areasOn p c k) a.1 a.2)
      then (p.moveCtx s o k c g).map (fun q => (q, k, g)) else none) with
    | none => none
    | some (q, k, g) => (moveEach s root o c gs q (k :: taken)).map (fun r => (r.1, ⟨c, k, g⟩ :: r.2))

/-- What a context has on core o moves: whole where one core can take it (log 41), else in groups; not where it has contributed to a
range there. -/
def moveTarget (s : State) (root o c : Nat) (p : Snapshot) : Option (Snapshot × List Move) :=
  match moveWhole s root o c p with
  | some (q, m) => some (q, [m])
  | none =>
    if (Sp.get {} p.cores o).contrib.any (fun y => y.1 == c) then none else moveEach s root o c (moveGroups p o c) p []

/-- The contexts that a snapshot has on a core move one by one: the snapshot then, and where each went. -/
def moveCtxs (s : State) (root o : Nat) : List Nat → Snapshot → Option (Snapshot × List Move)
  | [], p => some (p.without o, [])
  | c :: cs, p =>
    match moveTarget s root o c p with
    | none => none
    | some (q, ms) => (moveCtxs s root o cs q).map (fun r => (r.1, ms ++ r.2))

/-- What is left of a core's snapshot once the core is gone: moved, or, when nothing can take it, none. -/
def movedSnap (s : State) (root o : Nat) (p : Snapshot) : Option (Snapshot × List Move) :=
  moveCtxs s root o (p.ctxsOn o) p

/-- The local space that moves takes its contents from core o at the same offsets. -/
def moveLocals (s : State) (o : Nat) (to_ : List Move) : State :=
  to_.foldl (fun s m =>
    let (cells, bad) := localsOf s [o] [m.ctx]
    let off (k : Nat) : Nat := k % 0x400000
    let here (k : Nat) : Bool := m.part.covers (off k)
    let key (k : Nat) : Nat := localKey m.core m.ctx (off k)
    let frames := carvedFrames s [m.core] [m.ctx]
    let gone (a : Nat) : Bool := frames.any (fun f => f.1 == a / 65536 && m.part.covers (f.2.2 * 65536 + a % 65536))
    let s := { s with fmem := s.fmem.filter (fun y => !gone y.1),
                      lines := s.lines.filter (fun l => !gone (l.1 * 128)) }
    putLocals s ((cells.filter (fun y => here y.1)).map (fun y => (key y.1, y.2))) ((bad.filter here).map key)) s

/-- Every frame of a bank that a test does not keep is evicted and zeroed, once the bank is at rest; translations of some contexts
there go (R205 step 3). -/
def emptyBank (s : State) (core : Nat) (keep gone : Nat → Bool) : State :=
  let s := (List.range 256).foldl (fun s k =>
    let fk := frameKey core k
    let f := s.frame fk
    match f.kind with
    | .replica => dropReplica s fk
    | .primary => evict s (core / 32) f.part
    | .forward => endForwarding s fk f.gen
    | _ => s) s
  let s := (((s.core core).carve.map (fun y => y.1)).filter (fun c => !keep c)).foldl (fun s c => dropCarve s core c) s
  s.setCore core { s.core core with tlb := (s.core core).tlb.filter (fun e => !gone e.ctx) }

/-- A partition that has been rolled back goes on without a core. -/
def goOnWithout (s : State) (root core : Nat) (fin : State → State) : State :=
  match s.part? root with
  | none => fin s
  | some p =>
    match movedSnap s root core p.snap with
    | none => fin (freePart s root)
    | some (q, to_) =>
      let s := moveLocals s core to_
      carveAll (wakePart (fin (s.setPart root { p with snap := q })) root q) root

/-- A partition leaves a core: rolled back, its waves moved, or pre-empted (R205 steps 1 and 2); `fin` is what follows, once
nothing in the bank is held or moves. A partition that is pre-empted already only moves what its snapshot has there. -/
def leaveCore (s : State) (root core : Nat) (self : Instr) (fin : State → State) : State :=
  let s := s.setCore core { s.core core with leaving := true }
  let fin (s : State) : State := fin (s.setCore core { s.core core with leaving := false })
  match s.part? root, s.ctx? root with
  | some p, some x =>
    if x.state == .preempted && !p.ended then
      if !bankAtRest s core then s.ensureTicks 1 self else fin (match movedSnap s root core p.snap with
        | some (q, _) => s.setPart root { p with snap := q }
        | none => s)
    else match rollPart s root self with
      | (s, false) => s
      | (s, true) =>
        if bankAtRest s core && ctxsAtRest s (subtreeOf s root) then goOnWithout s root core fin else s.ensureTicks 1 self
  | _, _ => if bankAtRest s core then fin s else s.ensureTicks 1 self

/-! ### SLICE_START -/

/-- The management cluster runs a root for the first time (R175). -/
def firstRun (s : State) (root : Nat) : State := periodic ((subtreeOf s root).foldl runCtx s) root

/-- A snapshot with its waves on cores that can hold them: a unit that has gone meanwhile is left first. -/
def settleSnap (s : State) (root : Nat) : List Nat → Snapshot → Option Snapshot
  | [], p => some p
  | k :: ks, p =>
    if (partCores s root).contains k && bankEligible s k then settleSnap s root ks p
    else match movedSnap s root k p with
      | some (q, _) => settleSnap s root ks q
      | none => none

/-- SLICE_START: each wave at its core, lane pair and slot, carve-outs at their offsets; nothing happens where a unit is
missing that nothing can stand for. -/
def startSlice (s : State) (root : Nat) : State :=
  match s.part? root, s.ctx? root with
  | some p, some x =>
    if x.state == .stopped && !x.started then firstRun s root
    else if x.state != .preempted || p.ended then s
    else match settleSnap s root (p.snap.cores.map (fun k => k.1)) p.snap, carvesRoom s root with
      | none, _ => s
      | some _, (s, false) => s.ensureTicks 1 (.sliceStart root)
      | some q, (s, true) =>
        let cores := partCores s root
        let s := setCounters (putLocals (carveAll s root) q.locals q.lpoison) cores
          (q.lps.filter (fun l => cores.contains (l.1 / 32)))
        wakePart s root q
  | _, _ => s

def execSliceStart (root : Nat) (s : State) : Out := .next (settleHits (startSlice s root))

/-! ### Lent units (R205) -/

/-- The partition that holds a core: that to which it is lent, else its owner. -/
def holderOf (s : State) (core : Nat) : Option Nat :=
  ((s.parts.find? (fun p => p.2.lent.any (fun l => l.1 == core))).map (fun p => p.1)).or
    ((s.parts.find? (fun p => (unitsOf s p.1).getLsbD core)).map (fun p => p.1))

/-- May a core of a partition's margin be lent to another? -/
def canLend (s : State) (core owner borrower : Nat) : Bool :=
  match s.ctx? owner, s.part? owner, s.ctx? borrower, s.part? borrower with
  | some x, some p, some y, some _ =>
    owner != borrower && x.conf.margin.getLsbD core && p.borrow.contains borrower && !lentAway s owner core &&
      !s.waves.any (fun w => coreOf w.1 == core) && decide ((s.core core).used + 4096 ≤ s.clk.tick) &&
      !(x.state == .preempted && p.snap.waveCores.contains core) && y.state != .preempted &&
      (s.core core).bankOn && !(s.core core).draining && carveFits s core y.conf.localfr y.conf.nearq
  | _, _, _, _ => false

/-- LEND_UNIT: what the owner has on the unit but its carve-outs goes, once nothing there is held or moves and the owner's accesses
on their way are performed; its counters are kept, the borrower's root context may place waves there. -/
def lend (s : State) (core borrower : Nat) : State :=
  match s.parts.find? (fun p => (unitsOf s p.1).getLsbD core) with
  | none => s
  | some (owner, _) =>
    let busy := !bankAtRest s core || (!asleep s owner && !partQuiet s owner)
    let s := s.setCore core { s.core core with leaving := false }
    if !canLend s core owner borrower then s
    else if busy then
      ((if asleep s owner then s else askCheckpoint s owner).setCore core { s.core core with leaving := true }).ensureTicks 1
        (.lendUnit core borrower)
    else
      let s := if asleep s owner then s else checkpointOf s owner
      let cs := subtreeOf s owner
      let counts := if asleep s owner then (match s.part? owner with
        | some p => p.snap.lps.filter (fun l => l.1 / 32 == core)
        | none => []) else countersOf s [core]
      let s := emptyBank s core cs.contains cs.contains
      let s := (clearMatrix s [core]).setCore core (idleCore (s.core core))
      let s := setCounters s [core] []
      let s := match s.part? owner with
        | some p => s.setPart owner { p with saved := p.saved ++ counts, snap := p.snap.without core }
        | none => s
      let s := match s.part? borrower with
        | some q => s.setPart borrower { q with lent := q.lent ++ [(core, owner)] }
        | none => s
      let n := match s.ctx? borrower with | some y => y.conf.localfr | none => 0
      (carveOut s core borrower n).ensureSoon (.dispatchPlacement borrower)

def execLendUnit (core borrower : Nat) (s : State) : Out := .next (settleHits (lend s core borrower))

/-- The unit returns to its owner, with the owner's counters (R205 steps 3 and 4, R219). -/
def returnUnit (s : State) (core borrower owner : Nat) : State :=
  let mine := subtreeOf s owner
  let theirs := subtreeOf s borrower
  let s := emptyBank s core (fun _ => false) (fun c => mine.contains c || theirs.contains c)
  let s := (clearMatrix s [core]).setCore core (idleCore (s.core core))
  let s := match s.part? borrower with
    | some q => s.setPart borrower { q with lent := q.lent.filter (fun l => l.1 != core) }
    | none => s
  match s.part? owner with
  | none => s
  | some p =>
    let here := p.saved.filter (fun l => l.1 / 32 == core)
    let p := { p with saved := p.saved.filter (fun l => l.1 / 32 != core) }
    if asleep s owner then
      (setCounters s [core] []).setPart owner { p with snap := { p.snap with lps := p.snap.lps ++ here } }
    else (carveAll ((setCounters s [core] here).setPart owner p) owner).ensureSoon (.dispatchPlacement owner)

/-- RECLAIM. -/
def reclaimUnit (s : State) (core : Nat) : State :=
  match s.parts.find? (fun p => p.2.lent.any (fun l => l.1 == core)) with
  | none => s
  | some (b, p) =>
    let owner := ((p.lent.find? (fun l => l.1 == core)).map (fun l => l.2)).getD 0
    leaveCore s b core (.reclaim core) (fun s => returnUnit s core b owner)

def execReclaim (core : Nat) (s : State) : Out := .next (settleHits (reclaimUnit s core))

/-! ### Drained units (R211) -/

/-- Spares of a die that have taken a number. -/
def sparesUsed (s : State) (die : Nat) : Nat := (coresOf die).foldl (fun n k => n + (s.core k).spare) 0

/-- A drained core is empty; a spare takes its number where one is left, be the core a spare itself. -/
def coreDrained (s : State) (core : Nat) (spare : Bool) : State :=
  let s := emptyBank s core (fun _ => false) (fun _ => true)
  let s := (clearMatrix s [core]).setCore core { (idleCore (s.core core)) with draining := true, tlb := [] }
  if spare && decide (sparesUsed s (core / 32) < 2) then
    let s := s.setCore core { s.core core with draining := false, spare := (s.core core).spare + 1, bankOn := true, loupeOn := true, lunaOn := true }
    match holderOf s core with
    | some r => if asleep s r then s
        else (carveAll s r).ensureSoon (.dispatchPlacement r)
    | none => s
  else s

/-- A core drains: waves are never placed on it, and those there are moved (R205 steps 1 to 3). -/
def drainCore (s : State) (core : Nat) (self : Instr) (spare : Bool) : State :=
  let s := s.setCore core { s.core core with draining := true }
  match holderOf s core with
  | none => if bankAtRest s core then coreDrained s core spare else s.ensureTicks 1 self
  | some r => leaveCore s r core self (fun s => coreDrained s core spare)

/-- Does a core hold nothing of a partition any more? -/
def coreClear (s : State) (core : Nat) : Bool :=
  (s.core core).draining && !s.waves.any (fun w => coreOf w.1 == core) && s.parts.all (fun p => !p.2.ended) &&
    (s.core core).carve.isEmpty

/-- Is some page homed on a die's tower: in its HBM, or on its second-tier port? -/
def dieMapped (s : State) (die : Nat) : Bool :=
  s.ctxs.any (fun c => c.2.parent.isNone && c.2.flat.any (fun r => deviceOf r.dbase == s.dev.devId.toNat &&
    (if kindOf r.dbase == 0 then r.dbase / 0x200000000000 % 8 == die
     else (List.range (min 8 (r.len / 65536))).any (fun i => (r.dbase / 65536 + i) % 8 == die))))

/-- A tower drains once no page is homed on it: its cores one after another, then it is out of service. -/
def drainTower (s : State) (die : Nat) : State :=
  if 8 ≤ die || dieMapped s die then s
  else match (coresOf die).find? (fun k => !coreClear s k) with
    | some k => (drainCore s k (.unitDrain (.tower die)) false).ensureTicks 1 (.unitDrain (.tower die))
    | none => { s with dev := { s.dev with dieUp := s.dev.dieUp &&& ~~~(1#8 <<< die) } }

/-! ### Banks and engine units (R67, R68) -/

/-- A bank goes off: nothing of it is left. -/
def bankGone (s : State) (core : Nat) : State :=
  let s := emptyBank s core (fun _ => false) (fun _ => false)
  s.setCore core { s.core core with bankOn := false, leaving := false }

/-- BANK_POWER_OFF of a bank: its waves are moved first; refused where no core can take them. No fill chooses the bank meanwhile
(R60, R67). -/
def bankOff (s : State) (core : Nat) (self : Instr) : State :=
  let off (s : State) : State :=
    if bankAtRest s core then bankGone s core else (s.setCore core { s.core core with leaving := true }).ensureTicks 1 self
  if 256 ≤ core || !(s.core core).bankOn then s
  else match holderOf s core with
    | none => off s
    | some r =>
      match s.part? r with
      | none => off s
      | some p =>
        let here := p.ended || s.waves.any (fun w => coreOf w.1 == core) || !(p.snap.ctxsOn core).isEmpty
        if !here then off s
        else if !p.ended && (movedSnap s r core p.snap).isNone then
          if (s.core core).leaving then (s.setCore core { s.core core with leaving := false }).setPart r { p with pausing := false }
          else s
        else leaveCore s r core self (fun s => bankGone s core)

/-- A unit without its bank, or a whole tower, is not what R67 powers off. -/
def unitOff (s : State) (u : Unit4) (self : Instr) : State :=
  match u with
  | .bank c => bankOff s c self
  | .loupe c => if c < 256 then s.setCore c { s.core c with loupeOn := false } else s
  | .luna c => if c < 256 then s.setCore c { s.core c with lunaOn := false } else s
  | .core _ | .tower _ => s

def execBankPowerOff (u : Unit4) (s : State) : Out := .next (settleHits (unitOff s u (.bankPowerOff u)))

/-- A bank comes on: a wrap notice for all its frames, every frame FREE at generation 0 (R68), and carve-outs again. -/
def bankUp (s : State) (core : Nat) : State :=
  if 256 ≤ core || (s.core core).bankOn then s
  else
    let s := (List.range 256).foldl (fun s k => clearTargets s (frameKey core k) (coresOf (core / 32))) s
    let s := { s with frames := s.frames.filter (fun f => f.1 / 256 != core), lines := s.lines.filter (fun l => l.1 / 131072 != core),
                      fmem := s.fmem.filter (fun x => x.1 / 16777216 != core) }
    let s := s.setCore core { s.core core with bankOn := true, carve := [] }
    (s.parts.filter (fun p => !asleep s p.1)).foldl
      (fun s p => (carveAll s p.1).ensureSoon (.dispatchPlacement p.1)) s

def unitOn (s : State) (u : Unit4) : State :=
  match u with
  | .bank c => bankUp s c
  | .loupe c => if c < 256 then s.setCore c { s.core c with loupeOn := true } else s
  | .luna c => if c < 256 then s.setCore c { s.core c with lunaOn := true } else s
  | .core _ | .tower _ => s

def execBankPowerOn (u : Unit4) (s : State) : Out := .next (settleHits (unitOn s u))

/-- UNIT_DRAIN. -/
def drainUnit (s : State) (u : Unit4) : State :=
  match u with
  | .core c => if 256 ≤ c || ((s.core c).draining && coreClear s c) then s else drainCore s c (.unitDrain u) true
  | .tower d => drainTower s d
  | .bank _ | .loupe _ | .luna _ => unitOff s u (.unitDrain u)

def execUnitDrain (u : Unit4) (s : State) : Out := .next (settleHits (drainUnit s u))

/-! ### Root contexts (R30, R175, R202, R205, R206) -/

/-- The second-tier or host memory installed at a device; the parts of this device's second tier are interleaved over its eight dies,
and one out of service homes none (R81, R372, R374). -/
def tierBytes (s : State) (dv : Nat) : Nat :=
  if dv == s.dev.devId.toNat then (if s.dev.dieUp == 0xFF then s.dev.tier2 else 0)
  else if dv == s.dev.hostId then s.dev.hostMem
  else Sp.get 0 s.dev.peerMem dv

/-- The home of a root's range: HBM within one die in service, or second-tier memory installed (R30, R374). -/
def homeOk (s : State) (r : Range) : Bool :=
  let own := deviceOf r.dbase == s.dev.devId.toNat
  if kindOf r.dbase == 0 then
    decide (r.dbase % 0x200000000000 + r.len ≤ 0x2000000000) && (!own || installed s r.dbase)
  else kindOf r.dbase == 1 &&
    decide (r.dbase % 0x1000000000000 + r.len ≤ min 0x100000000000 (tierBytes s (deviceOf r.dbase)))

/-- Ranges of a root (R30): whole 2 MiB pages that do not overlap in granted space, at most 64. -/
def rangesOk (s : State) (rs : List Range) : Bool :=
  decide (rs.length ≤ 64) && rs.all (fun r => r.gbase % page2M == 0 && r.len % page2M == 0 && r.dbase % page2M == 0 &&
    r.len != 0 && decide (r.gbase + r.len ≤ top64) && decide (r.dbase < 0x100000000000000) && homeOk s r) &&
    rs.zipIdx.all (fun x => rs.zipIdx.all (fun y => x.2 == y.2 || decide (x.1.gbase + x.1.len ≤ y.1.gbase) ||
      decide (y.1.gbase + y.1.len ≤ x.1.gbase)))

/-- The least bytes of a partition's Chrysalis area (R206). -/
def areaLeast (c : Conf) : Nat := (coresIn c.units).length * (0x300000 + c.localfr * 0x10000) + 0x100000

/-- What the manual asks of a partition. -/
def rootOk (s : State) (g : RootCfg) (c : Conf) : Bool :=
  decide (0 < g.id) && decide (g.id < 4096) && (s.ctx? g.id).isNone && decide (s.ctxs.length < 4095) &&
    decide (s.parts.length < 40) && g.conf.length == 160 && c.units != 0 && c.margin &&& ~~~c.units == 0 &&
    s.parts.all (fun p => unitsOf s p.1 &&& c.units == 0) && confRange g.conf c true && confAligned c &&
    (coresIn c.units).all (fun k => s.dev.dieUp.getLsbD (k / 32) && carveFits s k c.localfr c.nearq) && rangesOk s g.ranges &&
    decide (30000 ≤ g.period * 64) && decide (g.period * 64 ≤ 1500000) && decide (0x100000 ≤ g.logMax * 144) &&
    decide (g.logMax * 144 ≤ 0x10000000) && kindOf g.area.1 == 0 && decide (areaLeast c ≤ g.area.2) &&
    homeOk s ⟨0, g.area.2, g.area.1, 0⟩ && g.entry % 64 == 0

/-- A root's entry record, at its device address. -/
def rootEntry (s : State) (g : RootCfg) (c : Conf) : Option LaunchRec :=
  let r := launchRecOf (curBytes s g.entry 64)
  if (checkLaunch c.units r c.entry).isSome then none else some r

/-- The observation configuration of a root as its partition's snapshot has it too, so that no slice end undoes it. -/
def keepObs (s : State) (root : Nat) : State :=
  match s.part? root, s.ctx? root with
  | some p, some x =>
    let put (y : Ctx) : Ctx := { y with obsBy := x.obsBy, obsT := x.obsT, obsS := x.obsS, obsPer := x.obsPer, obsTlog := x.obsTlog,
                                        obsSlog := x.obsSlog, obsCtl := x.obsCtl }
    s.setPart root { p with snap := { p.snap with ctxs := p.snap.ctxs.map (fun y => if y.1 == root then (y.1, put y.2) else y) } }
  | _, _ => s

/-- The management cluster sets the observation configuration of a root (R212): its buffers lie in the root's own space. One that R212
refuses leaves the old one. -/
def rootObs (s : State) (g : RootCfg) : State :=
  if g.obs.length != 32 || !obsOk g.obs then s
  else
    let core := ((coresIn (unitsOf s g.id)).head?).getD 0
    let u := setObs s g.id none g.obs
    let self : Instr := .rootConfiguration { g with conf := [], ranges := [] }
    match obsHeader u g.id core true (BitVec.ofNat 64 (fieldAt g.obs 0 8)) (fieldAt g.obs 20 1) with
    | .wait t r => s.waitTick t r self
    | .fail _ => keepObs u g.id
    | .ok _ u =>
      match alongside s u (fun u => obsHeader u g.id core false (BitVec.ofNat 64 (fieldAt g.obs 8 8)) (fieldAt g.obs 21 1)) with
      | .wait t r => s.waitTick t r self
      | .fail _ => keepObs u g.id
      | .ok _ u => keepObs u g.id

/-- ROOT_CONFIGURATION: a STOPPED root context with its partition, once there is room for its carve-outs (R43); refused, with no
effect, where the manual's limits are not met. Of a root that stands it sets the observation configuration. -/
def configureRoot (s : State) (g : RootCfg) : State :=
  let c := confOf g.conf
  let e := rootEntry s g c
  if (s.part? g.id).isSome then rootObs s g
  else if !rootOk s g c || (c.localfr != 0 && e.isNone) then s
  else match carveRoom s c.localfr (coresIn c.units) with
  | (s, false) => s.ensureTicks 1 (.rootConfiguration g)
  | (s, true) =>
    let s := makeCtx s g.id none c (if c.localfr == 0 then none else e)
    let s := s.updCtx g.id (fun x => { x with flat := g.ranges.foldl (fun l r => insertRange r l) [],
                                               declared := g.ranges.map (fun r => ⟨r.gbase, r.dbase, r.len, r.perm⟩) })
    let p : Partition := { period := g.period, logMax := g.logMax, borrow := g.borrow, area := g.area }
    let s := rootObs { s with parts := Sp.insert s.parts g.id p } g
    s.setPart g.id { p with snap := capture s g.id }

def execRootConfiguration (cfg : RootCfg) (s : State) : Out := .next (configureRoot s cfg)

end Sys2Proof.Machine
end

