-- ==== Sys2Proof/Machine/Power.lean ====
section
/-!
DEFINITION. Boot, the clock, and the end of power (R373, R374, R376 to R378).
-/

namespace Sys2Proof.Machine

/-! ### Boot (R373, R374) -/

/-- The security version of the first image that passes both checks. -/
def firstImage (min : Nat) : List (Bool × Nat) → Option Nat
  | [] => none
  | x :: xs => if x.1 && decide (min ≤ x.2) then some x.2 else firstImage min xs

/-- The second tier installed: a population that differs between the eight ports is refused (R81), and so is one above the 2 TiB that
a port serves (R372). -/
def tierOf (ports : List Nat) : Nat :=
  match ports with
  | [] => 0
  | p :: ps => if decide (ports.length = 8) && ps.all (· == p) && decide (p ≤ 0x20000000000) then 8 * p else 0

/-- Failed cores of the towers that pass are replaced by the tower's two spares, the lowest first; one that none is left for takes no
wave (R211, R373). -/
def placeSpares (s : State) (towers : BitVec 8) (failed : List Nat) : State :=
  (List.range 8).foldl (fun s d =>
    if !towers.getLsbD d then s
    else
      let out := (coresOf d).filter failed.contains
      let s := (out.take 2).foldl (fun s k => s.setCore k { s.core k with spare := 1 }) s
      (out.drop 2).foldl (fun s k => s.setCore k { s.core k with draining := true }) s) s

/-- Is the route table one of R371: each device once, never this one, with one to four ports of the sixteen? -/
def routesOk (r : Routes) : Bool :=
  decide ((r.entries.map (·.1)).eraseDups.length = r.entries.length) &&
    r.entries.all (fun e => decide (e.1 < 64) && e.1 != r.own.toNat && decide (1 ≤ e.2.length) && decide (e.2.length ≤ 4) &&
      decide (e.2.eraseDups.length = e.2.length) && e.2.all (fun p => decide (p < 16)))

/-- Are the HDM windows those of R367: at most two, 2 MiB-aligned, at most 1 TiB together? -/
def hdmOk (ws : List (Nat × Nat)) : Bool :=
  decide (ws.length ≤ 2) && ws.all (fun w => w.1 % page2M == 0 && w.2 % page2M == 0) &&
    decide ((ws.map (·.2)).foldl (· + ·) 0 ≤ 0x10000000000)

/-- MODULE_POWER_ON: the steps of R373; one that fails stops the boot in STATE 4. The fused minimum rises only where a verified image
asks it to. -/
def boot (s : State) (b : BootIn) : State :=
  if s.dev.power then s
  else
    let d : Device := { s.dev with power := true, state := 1 }
    match firstImage s.dev.minSvn (b.slots.take 4) with
    | none => { s with dev := { d with state := 4 } }
    | some v =>
      let d := { d with minSvn := max s.dev.minSvn b.raiseTo, svn := v, fw := b.fw }
      if !b.restOk then { s with dev := { d with state := 4 } }
      else
        let d := { d with dieUp := b.towers, tower := b.tower, engine := b.engine }
        let s := placeSpares s b.towers b.badCores
        if !b.linksOk || !routesOk b.routes || !hdmOk b.hdm then { s with dev := { d with state := 4 } }
        else
          { s with dev := { d with
              state := if b.towers == 0xFF then 2 else 3, devId := b.routes.own, routes := b.routes.entries,
              hdm := b.hdm, hostUp := b.hostLink, hostOn := b.hostLink,
              present := b.present.filter (fun p => b.routes.entries.any (fun e => e.1 == p)), tier2 := tierOf b.tier2,
              peerMem := b.peerMem, hostMem := b.hostMem } }

def execModulePowerOn (b : BootIn) (s : State) : Out := .next (boot s b)

/-! ### The clock (R376) -/

/-- THROTTLE_STEP: the step in force, which DEVSTAT.THR shows. -/
def execThrottleStep (n : BitVec 3) (s : State) : Out := .next { s with clk := { s.clk with throttle := n } }

/-! ### The end of power (R378) -/

/-- Is a device address in this device's HBM? -/
def ownHbm (s : State) (a : Nat) : Bool := kindOf a == 0 && deviceOf a == s.dev.devId.toNat

/-- The module is wholly off: only what is fused, and memory outside the towers, is left (log 42). -/
def powerOff (s : State) : State :=
  { State.reset with
    mem := s.mem.filter (fun c => !ownHbm s c.1),
    homes := { poison := s.homes.poison.filter (fun p => !ownHbm s (p.1 * 128)) },
    dev := { minSvn := s.dev.minSvn },
    sch := { free := s.sch.free, nextId := s.sch.nextId } }

/-- THERMAL_POWER_OFF: at 110 °C, with nothing saved. -/
def execThermalPowerOff (s : State) : Out := .next (powerOff s)

/-- MODULE_POWER_LOSS. -/
def execModulePowerLoss (s : State) : Out := .next (powerOff s)

/-- The first partition that has not ended its slice. -/
def awake (s : State) : Option Nat := (s.parts.find? (fun p => p.2.ended || !asleep s p.1)).map (fun p => p.1)

/-- Every partition's slice ends, as far as that goes now. -/
def endSlices (s : State) (self : Instr) : Nat → State × Bool
  | 0 => (s, (awake s).isNone)
  | n + 1 =>
    match awake s with
    | none => (s, true)
    | some r =>
      let t := endSlice s r self
      if asleep t r && (match t.part? r with | some p => !p.ended | none => true) then endSlices t self n else (t, false)

/-- Pages that the peers map, each with its new home at a peer, move there through dual-home windows, whose switch ends them (R93);
a page whose window cannot open stays and is lost. What is still to be done, where a step must wait. -/
def preservePages : List (Nat × Nat) → State → State × Option (Nat × Nat × List (Nat × Nat))
  | [], s => (s, none)
  | x :: xs, s =>
    let s := if deviceOf x.2 == s.dev.devId.toNat || s.homes.dual.any (fun w => w.page == x.1) then s else openDual s x.1 x.2
    match s.homes.dual.find? (fun w => w.page == x.1 && !w.switched && deviceOf w.base != s.dev.devId.toNat) with
    | none => preservePages xs s
    | some w =>
      match movePage s w with
      | .wait t r => (s, some (t, r, x :: xs))
      | .fail _ => preservePages xs s
      | .ok _ s => preservePages xs { s with homes := { s.homes with dual := s.homes.dual.filter (fun y => y.page != x.1) } }

/-- ORDERLY_POWER_OFF: slices end, every modified line is written back, the pages to be preserved move to peer homes, the towers go
down. -/
def orderlyOff (s : State) (pages : List (Nat × Nat)) : State :=
  match endSlices s (.orderlyPowerOff pages) (s.parts.length + 1) with
  | (s, false) => s
  | (s, true) =>
    match preservePages pages (evictAll s (List.range 4096)) with
    | (s, none) => powerOff s
    | (s, some (t, r, rest)) => s.waitTick t r (.orderlyPowerOff rest)

def execOrderlyPowerOff (preserve : List (Nat × Nat)) (s : State) : Out := .next (orderlyOff s preserve)

end Sys2Proof.Machine
end

