-- ==== Sys2Proof/Machine/Dispatch.lean ====
section
/-!
DEFINITION. exec: one arm for each constructor of Instr, each a direct call of its meaning.
-/

namespace Sys2Proof.Machine

/-- The step of one instruction or event. -/
def exec (i : Instr) (s : State) : Host.Outcome State Fault Refusal :=
  match i with
  | .iadd o => Sys2Proof.Machine.execIadd o s
  | .isub o => Sys2Proof.Machine.execIsub o s
  | .imul o => Sys2Proof.Machine.execImul o s
  | .imulh o => Sys2Proof.Machine.execImulh o s
  | .imad o => Sys2Proof.Machine.execImad o s
  | .imadw o => Sys2Proof.Machine.execImadw o s
  | .iaddw o => Sys2Proof.Machine.execIaddw o s
  | .isubw o => Sys2Proof.Machine.execIsubw o s
  | .ineg o => Sys2Proof.Machine.execIneg o s
  | .iabs o => Sys2Proof.Machine.execIabs o s
  | .imin o => Sys2Proof.Machine.execImin o s
  | .imax o => Sys2Proof.Machine.execImax o s
  | .band o => Sys2Proof.Machine.execBand o s
  | .bor o => Sys2Proof.Machine.execBor o s
  | .bxor o => Sys2Proof.Machine.execBxor o s
  | .bandn o => Sys2Proof.Machine.execBandn o s
  | .bnot o => Sys2Proof.Machine.execBnot o s
  | .shl o => Sys2Proof.Machine.execShl o s
  | .shr o => Sys2Proof.Machine.execShr o s
  | .sar o => Sys2Proof.Machine.execSar o s
  | .shlw o => Sys2Proof.Machine.execShlw o s
  | .shrw arith o => Sys2Proof.Machine.execShrw arith o s
  | .bfx o => Sys2Proof.Machine.execBfx o s
  | .bfi o => Sys2Proof.Machine.execBfi o s
  | .popc o => Sys2Proof.Machine.execPopc o s
  | .clz o => Sys2Proof.Machine.execClz o s
  | .ctz o => Sys2Proof.Machine.execCtz o s
  | .brev o => Sys2Proof.Machine.execBrev o s
  | .permb o => Sys2Proof.Machine.execPermb o s
  | .icmp cond o => Sys2Proof.Machine.execIcmp cond o s
  | .sel w64 o => Sys2Proof.Machine.execSel w64 o s
  | .mov w64 o => Sys2Proof.Machine.execMov w64 o s
  | .movi ctl sc dst v => Sys2Proof.Machine.execMovi ctl sc dst v s
  | .lea sh o => Sys2Proof.Machine.execLea sh o s
  | .fadd o => Sys2Proof.Machine.execFadd o s
  | .fsub o => Sys2Proof.Machine.execFsub o s
  | .fmul o => Sys2Proof.Machine.execFmul o s
  | .ffma o => Sys2Proof.Machine.execFfma o s
  | .fmin o => Sys2Proof.Machine.execFmin o s
  | .fmax o => Sys2Proof.Machine.execFmax o s
  | .fcmp cond o => Sys2Proof.Machine.execFcmp cond o s
  | .fclass o => Sys2Proof.Machine.execFclass o s
  | .frcp o => Sys2Proof.Machine.execFrcp o s
  | .frsq o => Sys2Proof.Machine.execFrsq o s
  | .fsqrt o => Sys2Proof.Machine.execFsqrt o s
  | .fexp2 o => Sys2Proof.Machine.execFexp2 o s
  | .flog2 o => Sys2Proof.Machine.execFlog2 o s
  | .fsin o => Sys2Proof.Machine.execFsin o s
  | .fcos o => Sys2Proof.Machine.execFcos o s
  | .frnd o => Sys2Proof.Machine.execFrnd o s
  | .badd2 o => Sys2Proof.Machine.execBadd2 o s
  | .bmul2 o => Sys2Proof.Machine.execBmul2 o s
  | .bfma2 o => Sys2Proof.Machine.execBfma2 o s
  | .hfma2 o => Sys2Proof.Machine.execHfma2 o s
  | .fcvt d sf sat o => Sys2Proof.Machine.execFcvt d sf sat o s
  | .fcvtp d sat j o => Sys2Proof.Machine.execFcvtp d sat j o s
  | .fcvtx sf j o => Sys2Proof.Machine.execFcvtx sf j o s
  | .i2f ty o => Sys2Proof.Machine.execI2f ty o s
  | .f2i ty o => Sys2Proof.Machine.execF2i ty o s
  | .pand o => Sys2Proof.Machine.execPand o s
  | .por o => Sys2Proof.Machine.execPor o s
  | .pxor o => Sys2Proof.Machine.execPxor o s
  | .pnot o => Sys2Proof.Machine.execPnot o s
  | .pmov o => Sys2Proof.Machine.execPmov o s
  | .p2v ctl dst => Sys2Proof.Machine.execP2v ctl dst s
  | .v2p ctl a mask => Sys2Proof.Machine.execV2p ctl a mask s
  | .split ctl d => Sys2Proof.Machine.execSplit ctl d s
  | .fuse ctl d a n => Sys2Proof.Machine.execFuse ctl d a n s
  | .vote ctl mode ds d a => Sys2Proof.Machine.execVote ctl mode ds d a s
  | .shfl ctl mode d a b => Sys2Proof.Machine.execShfl ctl mode d a b s
  | .wred ctl op sgn ds d a => Sys2Proof.Machine.execWred ctl op sgn ds d a s
  | .wscan ctl op sgn excl d a => Sys2Proof.Machine.execWscan ctl op sgn excl d a s
  | .bcast ctl ds d a b => Sys2Proof.Machine.execBcast ctl ds d a b s
  | .grow ctl n => Sys2Proof.Machine.execGrow ctl n s
  | .shrink ctl n => Sys2Proof.Machine.execShrink ctl n s
  | .bra ctl wide off => Sys2Proof.Machine.execBra ctl wide off s
  | .brx ctl sc a => Sys2Proof.Machine.execBrx ctl sc a s
  | .call ctl wide off => Sys2Proof.Machine.execCall ctl wide off s
  | .callx ctl sc a => Sys2Proof.Machine.execCallx ctl sc a s
  | .ret ctl sc a => Sys2Proof.Machine.execRet ctl sc a s
  | .exit ctl => Sys2Proof.Machine.execExit ctl s
  | .meet ctl => Sys2Proof.Machine.execMeet ctl s
  | .yield ctl n => Sys2Proof.Machine.execYield ctl n s
  | .nop ctl len => Sys2Proof.Machine.execNop ctl len s
  | .rep count idst isa isb => Sys2Proof.Machine.execRep count idst isa isb s
  | .pfc ctl a lines => Sys2Proof.Machine.execPfc ctl a lines s
  | .mark ctl block => Sys2Proof.Machine.execMark ctl block s
  | .bkpt ctl n => Sys2Proof.Machine.execBkpt ctl n s
  | .trap ctl n => Sys2Proof.Machine.execTrap ctl n s
  | .tretRetry ctl => Sys2Proof.Machine.execTretRetry ctl s
  | .tretSkip ctl => Sys2Proof.Machine.execTretSkip ctl s
  | .srd ctl sc w64 d sel => Sys2Proof.Machine.execSrd ctl sc w64 d sel s
  | .swr ctl w64 sel a => Sys2Proof.Machine.execSwr ctl w64 sel a s
  | .ld sz o => Sys2Proof.Machine.execLd sz o s
  | .st sz o => Sys2Proof.Machine.execSt sz o s
  | .ldl sz o => Sys2Proof.Machine.execLdl sz o s
  | .stl sz o => Sys2Proof.Machine.execStl sz o s
  | .atom op sgn noret o => Sys2Proof.Machine.execAtom op sgn noret o s
  | .cas o => Sys2Proof.Machine.execCas o s
  | .prf n o => Sys2Proof.Machine.execPrf n o s
  | .crange ctl op slot d a len poff => Sys2Proof.Machine.execCrange ctl op slot d a len poff s
  | .cadd op o => Sys2Proof.Machine.execCadd op o s
  | .crflush ctl slot => Sys2Proof.Machine.execCrflush ctl slot s
  | .lease ctl n => Sys2Proof.Machine.execLease ctl n s
  | .fence ctl => Sys2Proof.Machine.execFence ctl s
  | .tnew ctl d size => Sys2Proof.Machine.execTnew ctl d size s
  | .tjoin ctl d a => Sys2Proof.Machine.execTjoin ctl d a s
  | .tleave ctl => Sys2Proof.Machine.execTleave ctl s
  | .binit ctl a off e => Sys2Proof.Machine.execBinit ctl a off e s
  | .barv o => Sys2Proof.Machine.execBarv o s
  | .bdrop o => Sys2Proof.Machine.execBdrop o s
  | .bwait ctl d a ph off ticks => Sys2Proof.Machine.execBwait ctl d a ph off ticks s
  | .btest ctl d a off => Sys2Proof.Machine.execBtest ctl d a off s
  | .copy ctl a => Sys2Proof.Machine.execCopy ctl a s
  | .copyr ctl a => Sys2Proof.Machine.execCopyr ctl a s
  | .copym ctl a => Sys2Proof.Machine.execCopym ctl a s
  | .cntadd ctl a inc => Sys2Proof.Machine.execCntadd ctl a inc s
  | .waitge ctl d a tgt ticks => Sys2Proof.Machine.execWaitge ctl d a tgt ticks s
  | .vqput ctl nw d a => Sys2Proof.Machine.execVqput ctl nw d a s
  | .launch ctl a => Sys2Proof.Machine.execLaunch ctl a s
  | .tcfg ctl t v => Sys2Proof.Machine.execTcfg ctl t v s
  | .tld ctl t a m => Sys2Proof.Machine.execTld ctl t a m s
  | .tst ctl t a m => Sys2Proof.Machine.execTst ctl t a m s
  | .tzero ctl t => Sys2Proof.Machine.execTzero ctl t s
  | .azero ctl acc => Sys2Proof.Machine.execAzero ctl acc s
  | .azeroRel ctl acc => Sys2Proof.Machine.execAzeroRel ctl acc s
  | .mmaF o => Sys2Proof.Machine.execMmaF o s
  | .mmaX o => Sys2Proof.Machine.execMmaX o s
  | .mmaI8 o => Sys2Proof.Machine.execMmaI8 o s
  | .mmaBp o => Sys2Proof.Machine.execMmaBp o s
  | .tdrain o => Sys2Proof.Machine.execTdrain o s
  | .ctxnew ctl d r => Sys2Proof.Machine.execCtxnew ctl d r s
  | .ctxgrant ctl d k r => Sys2Proof.Machine.execCtxgrant ctl d k r s
  | .ctxrevoke ctl d k r => Sys2Proof.Machine.execCtxrevoke ctl d k r s
  | .ctxrun ctl d k => Sys2Proof.Machine.execCtxrun ctl d k s
  | .ctxstop ctl d k c => Sys2Proof.Machine.execCtxstop ctl d k c s
  | .ctxpeek ctl d k b item index => Sys2Proof.Machine.execCtxpeek ctl d k b item index s
  | .ctxpoke ctl d k b item index => Sys2Proof.Machine.execCtxpoke ctl d k b item index s
  | .ctxkill ctl d k c => Sys2Proof.Machine.execCtxkill ctl d k c s
  | .tlbinvPage ctl a c n => Sys2Proof.Machine.execTlbinvPage ctl a c n s
  | .tlbinvCtx ctl c => Sys2Proof.Machine.execTlbinvCtx ctl c s
  | .tlbinvChild ctl k c => Sys2Proof.Machine.execTlbinvChild ctl k c s
  | .qosset ctl d k v => Sys2Proof.Machine.execQosset ctl d k v s
  | .tramp ctl n => Sys2Proof.Machine.execTramp ctl n s
  | .trampret ctl n => Sys2Proof.Machine.execTrampret ctl n s
  | .accessPerformed wave id => Sys2Proof.Machine.execAccessPerformed wave id s
  | .pinGrant wave => Sys2Proof.Machine.execPinGrant wave s
  | .pinGrantTimeout wave req => Sys2Proof.Machine.execPinGrantTimeout wave req s
  | .pinTimeout wave req => Sys2Proof.Machine.execPinTimeout wave req s
  | .ptsTick => Sys2Proof.Machine.execPtsTick s
  | .lasttouchSweep => Sys2Proof.Machine.execLasttouchSweep s
  | .timestampSweep => Sys2Proof.Machine.execTimestampSweep s
  | .monarchInterval => Sys2Proof.Machine.execMonarchInterval s
  | .forwardingEnd core frame gen => Sys2Proof.Machine.execForwardingEnd core frame gen s
  | .locate core ctx vpart => Sys2Proof.Machine.execLocate core ctx vpart s
  | .fill core ctx part => Sys2Proof.Machine.execFill core ctx part s
  | .eviction die part replica => Sys2Proof.Machine.execEviction die part replica s
  | .frameArrival core ctx vpart write => Sys2Proof.Machine.execFrameArrival core ctx vpart write s
  | .atlasHoldExpiry die part => Sys2Proof.Machine.execAtlasHoldExpiry die part s
  | .wrapNotice core frame => Sys2Proof.Machine.execWrapNotice core frame s
  | .pageWalk core ctx va ver restarts => Sys2Proof.Machine.execPageWalk core ctx va ver restarts s
  | .tlbinvComplete issuer target first n all cnt => Sys2Proof.Machine.execTlbinvComplete issuer target first n all cnt s
  | .homeRead line die => Sys2Proof.Machine.execHomeRead line die s
  | .homeReadForOwnership line die => Sys2Proof.Machine.execHomeReadForOwnership line die s
  | .homeUpgrade line die => Sys2Proof.Machine.execHomeUpgrade line die s
  | .writeBack line die => Sys2Proof.Machine.execWriteBack line die s
  | .cleanEvictionNotice line die rts => Sys2Proof.Machine.execCleanEvictionNotice line die rts s
  | .forwardedRead line die => Sys2Proof.Machine.execForwardedRead line die s
  | .forwardedReadForOwnership line die => Sys2Proof.Machine.execForwardedReadForOwnership line die s
  | .invalidation line die => Sys2Proof.Machine.execInvalidation line die s
  | .holderRegistration part die => Sys2Proof.Machine.execHolderRegistration part die s
  | .backInvalidation part die => Sys2Proof.Machine.execBackInvalidation part die s
  | .streamedAccess wave id => Sys2Proof.Machine.execStreamedAccess wave id s
  | .clocklessWaitDone id => Sys2Proof.Machine.execClocklessWaitDone id s
  | .combine ctx slot line => Sys2Proof.Machine.execCombine ctx slot line s
  | .memrd addr size => Sys2Proof.Machine.execMemrd addr size s
  | .memwr addr data => Sys2Proof.Machine.execMemwr addr data s
  | .meminv line => Sys2Proof.Machine.execMeminv line s
  | .snpdata line => Sys2Proof.Machine.execSnpdata line s
  | .snpinv line => Sys2Proof.Machine.execSnpinv line s
  | .snpcur line => Sys2Proof.Machine.execSnpcur line s
  | .hostUnsupportedRequest => Sys2Proof.Machine.execHostUnsupportedRequest s
  | .copyStart id => Sys2Proof.Machine.execCopyStart id s
  | .copyStop id => Sys2Proof.Machine.execCopyStop id s
  | .copyComplete id => Sys2Proof.Machine.execCopyComplete id s
  | .arrayOperationComplete core => Sys2Proof.Machine.execArrayOperationComplete core s
  | .gather core id => Sys2Proof.Machine.execGather core id s
  | .bilerp core id => Sys2Proof.Machine.execBilerp core id s
  | .search core id => Sys2Proof.Machine.execSearch core id s
  | .engineRequestComplete core id => Sys2Proof.Machine.execEngineRequestComplete core id s
  | .waitCounterPoll ctx id => Sys2Proof.Machine.execWaitCounterPoll ctx id s
  | .waitCounterRetry ctx id => Sys2Proof.Machine.execWaitCounterRetry ctx id s
  | .dispatchPlacement ctx => Sys2Proof.Machine.execDispatchPlacement ctx s
  | .headAging ctx queue => Sys2Proof.Machine.execHeadAging ctx queue s
  | .gridClose ctx queue => Sys2Proof.Machine.execGridClose ctx queue s
  | .waveFree wave => Sys2Proof.Machine.execWaveFree wave s
  | .pathUrgent wave path => Sys2Proof.Machine.execPathUrgent wave path s
  | .yieldExpiry wave path => Sys2Proof.Machine.execYieldExpiry wave path s
  | .fetchBlockArrival wave path addr => Sys2Proof.Machine.execFetchBlockArrival wave path addr s
  | .growGrant wave => Sys2Proof.Machine.execGrowGrant wave s
  | .spill lp => Sys2Proof.Machine.execSpill lp s
  | .restore wave => Sys2Proof.Machine.execRestore wave s
  | .fuseTimeout wave req => Sys2Proof.Machine.execFuseTimeout wave req s
  | .pollRecheck wave path => Sys2Proof.Machine.execPollRecheck wave path s
  | .ringRecordWrite ctx => Sys2Proof.Machine.execRingRecordWrite ctx s
  | .ringReply ctx serial action => Sys2Proof.Machine.execRingReply ctx serial action s
  | .ringWriteRetry ctx => Sys2Proof.Machine.execRingWriteRetry ctx s
  | .localUe core ctx off => Sys2Proof.Machine.execLocalUe core ctx off s
  | .registerUe site => Sys2Proof.Machine.execRegisterUe site s
  | .checkpoint root => Sys2Proof.Machine.execCheckpoint root s
  | .sliceEnd root => Sys2Proof.Machine.execSliceEnd root s
  | .sliceStart root => Sys2Proof.Machine.execSliceStart root s
  | .lendUnit core borrower => Sys2Proof.Machine.execLendUnit core borrower s
  | .reclaim core => Sys2Proof.Machine.execReclaim core s
  | .rootConfiguration cfg => Sys2Proof.Machine.execRootConfiguration cfg s
  | .bankPowerOff u => Sys2Proof.Machine.execBankPowerOff u s
  | .bankPowerOn u => Sys2Proof.Machine.execBankPowerOn u s
  | .unitDrain u => Sys2Proof.Machine.execUnitDrain u s
  | .homeFailureRecovery die => Sys2Proof.Machine.execHomeFailureRecovery die s
  | .homelostClear part => Sys2Proof.Machine.execHomelostClear part s
  | .dualHomeOpen page newBase => Sys2Proof.Machine.execDualHomeOpen page newBase s
  | .switch page => Sys2Proof.Machine.execSwitch page s
  | .bucketRefill => Sys2Proof.Machine.execBucketRefill s
  | .sample core lp => Sys2Proof.Machine.execSample core lp s
  | .ctxstopComplete ctx => Sys2Proof.Machine.execCtxstopComplete ctx s
  | .ctxkillComplete ctx => Sys2Proof.Machine.execCtxkillComplete ctx s
  | .ctxrevokeComplete issuer target cnt => Sys2Proof.Machine.execCtxrevokeComplete issuer target cnt s
  | .hostLinkReset => Sys2Proof.Machine.execHostLinkReset s
  | .bar0Write off v => Sys2Proof.Machine.execBar0Write off v s
  | .attestationRequest nonce => Sys2Proof.Machine.execAttestationRequest nonce s
  | .flitCrcRetry port => Sys2Proof.Machine.execFlitCrcRetry port s
  | .deviceUnreachable dev => Sys2Proof.Machine.execDeviceUnreachable dev s
  | .memoryDeviceLoss die base len => Sys2Proof.Machine.execMemoryDeviceLoss die base len s
  | .poisonResponse line => Sys2Proof.Machine.execPoisonResponse line s
  | .modulePowerOn b => Sys2Proof.Machine.execModulePowerOn b s
  | .throttleStep n => Sys2Proof.Machine.execThrottleStep n s
  | .thermalPowerOff => Sys2Proof.Machine.execThermalPowerOff s
  | .orderlyPowerOff preserve => Sys2Proof.Machine.execOrderlyPowerOff preserve s
  | .notAnInstruction b => Sys2Proof.Machine.execNotAnInstruction b s
  | .resultWritten wave id => Sys2Proof.Machine.execResultWritten wave id s
  | .traceRecordWrite core => Sys2Proof.Machine.execTraceRecordWrite core s
  | .lanePairCycle => Sys2Proof.Machine.execLanePairCycle s
  | .purgeComplete page => Sys2Proof.Machine.execPurgeComplete page s
  | .bisnpResponse line => Sys2Proof.Machine.execBisnpResponse line s
  | .hostLinkTrained => Sys2Proof.Machine.execHostLinkTrained s
  | .modulePowerLoss => Sys2Proof.Machine.execModulePowerLoss s

end Sys2Proof.Machine
end

