-- ==== Sys2Proof/Machine/Step.lean ====
section
/-!
DEFINITION. step: one step that is due now, else the turn of one lane pair, else the next cycle of the device. And
withFetchWord, which places an instruction where the next step fetches.
-/

namespace Sys2Proof.Machine

/-- The lane pair tries what may begin, in order, until one instruction has begun (R186). -/
def runLane (lp : Nat) : List Cand → State → Host.Outcome State Fault Refusal
  | [], s => .next (laneEnd s lp)
  | c :: cs, s =>
    match exec c.instr { s with sch := { s.sch with cur := some c.cur, issued := false } } with
    | .next t => if t.sch.issued then .next (laneEnd t lp) else runLane lp cs t
    | .fault f => .fault f
    | .refused r => .refused r

/-- One step of the machine. -/
def step (s : State) : Host.Outcome State Fault Refusal :=
  match s.sch.agenda with
  | e :: es => exec e { s with sch := { s.sch with agenda := es } }
  | [] =>
    match s.sch.todo with
    | l :: ls =>
      let t := laneBegin { s with sch := { s.sch with todo := ls } } l
      runLane l t.2 t.1
    | [] => exec .lanePairCycle s

/-- The context, wave and lane pair that withFetchWord sets up: context 1, wave 0. -/
def testCtx : Ctx := { conf := { units := 1, localfr := 1, ckpta := 1 }, state := .running, started := true }

/-- A wave with one path at address 32, whose fetch buffer holds the given block and the next. -/
def testWave (bs : List Byte) : Wave :=
  { ctx := 1, width := 4, budget := 256,
    paths := { e := { kind := .path, pc := 32, mask := 15 }, fetch := [(32, bs), (64, List.replicate 32 0)] } ::
      List.replicate 15 {} }

/-- s with the instruction of bits w, numbered as the opcode table numbers them, where the next step fetches: wave 0 of
context 1 stands at it (log 20). -/
def State.withFetchWord (s : State) (_nbits w : Nat) : State :=
  { s with waves := Sp.insert (s.waves.filter (fun x => lpOf x.1 != 0)) 0 (testWave (leBytes w 32)),
           ctxs := Sp.insert s.ctxs 1 testCtx,
           sch := { s.sch with agenda := [], todo := [0] } }

end Sys2Proof.Machine
end

