-- ==== Sys2Proof/Safety.lean ====
section
/-!
DEFINITION. The terms claims use: steps that answer a next state, what an invariant is, when an instruction may begin,
what reads as before.
-/

namespace Sys2Proof

open Machine

/-- The step from s answers a next state. -/
def Steps (s t : State) : Prop := step s = .next t

/-- n steps from s, each answering a next state. -/
def Runs (s : State) : Nat → State → Prop
  | 0, t => s = t
  | n + 1, t => ∃ u, Steps s u ∧ Runs u n t

/-- Every step keeps a property. -/
def Kept (inv : State → Prop) : Prop := ∀ s t, inv s → Steps s t → inv t

namespace Claim

/-! ### When an instruction begins (R106, R116, R145, R166, R220, R230, R242) -/

/-- The threads that i acts for when the path of c issues it: the path's threads that its guard selects (R145, R230). -/
def actMask (i : Instr) (s : State) (c : Cur) (w : Wave) : Word64 :=
  guardMask w s.sch.free (ctlOf i) (w.path c.path).e.mask

/-- The issuing wave, with the speculation window that opens when an older access of it is unperformed (R106), pinned where it has to
be (R116). -/
def opened (s : State) (c : Cur) (w : Wave) : Wave := w.openWindow w.seq c (needsPin w c && s.pins.holder == some c.wave)

/-- What i works with. -/
def issOf (i : Instr) (s : State) (c : Cur) (w : Wave) : Iss := ⟨c, opened s c w, w.path c.path, actMask i s c w, w.seq, s.sch.free⟩

/-- The state in which i does its own part. -/
def begun (s : State) (c : Cur) (w : Wave) : State := s.setWave c.wave (opened s c w)

/-- The address of the instruction after the one that issues. -/
def nextPc (c : Cur) : Word64 := c.pc + BitVec.ofNat 64 c.slot

/-- Nothing holds instruction i back at the path of c in wave w: no execute breakpoint is met, the budget covers its
registers, no guard bit is poisoned, some thread is active; with an older access unperformed it is not one that waits,
and the pin grant, the checkpoint area and the flags are as it needs them. -/
structure Begins (i : Instr) (s : State) (c : Cur) (w : Wave) : Prop where
  cur    : s.sch.cur = some c
  wave   : s.wave? c.wave = some w
  live   : (w.path c.path).e.kind = .path
  bkpt   : execHit s c w = none
  budget : leastBudget i c w ≤ w.budget
  guard  : guardPoison w s.sch.free (ctlOf i) (w.path c.path).e.mask = 0
  active : actMask i s c w ≠ 0
  window : w.unperformed = true → armedAt s c w = false ∧ waitsForWave i = false ∧ w.careful = 0
  flags  : waitsForFlags i = true → w.pendingFlags = 0
  pin    : needsPin w c = true → s.pins.holder = some c.wave
  room   : roomFor s (w.openWindow w.seq c false) (undoRoom i w c.path (popcount (actMask i s c w))) = true

/-- The state in which an instruction acts that a seal precedes (R109, R208): one was taken while it waited, or it takes one. -/
def underSeal (s : State) (c : Cur) (w : Wave) : State :=
  if (w.path c.path).sealed then begun s c w else takeSeal (begun s c w) w.ctx

/-- Instruction i begins, and need not wait for a seal: one was taken for it, or no access of its partition is on its way. -/
structure BeginsSealed (i : Instr) (s : State) (c : Cur) (w : Wave) : Prop where
  begins : Begins i s c w
  quiet  : (w.path c.path).sealed = false → sealWaits (begun s c w) w.ctx = false

/-! ### Reading registers -/

/-- A vector register of a thread, a scalar register, a predicate of a thread. -/
def vAt (s : State) (wid r t : Nat) : VWord :=
  match s.wave? wid with
  | some w => w.v r t
  | none => {}
def sAt (s : State) (wid r : Nat) : VWord :=
  match s.wave? wid with
  | some w => w.s r
  | none => {}
def pAt (s : State) (wid r t : Nat) : PBit :=
  match s.wave? wid with
  | some w => w.p r t
  | none => {}

/-- A path-table entry of a wave. -/
def pathAt (s : State) (wid i : Nat) : Path :=
  match s.wave? wid with
  | some w => w.path i
  | none => {}

/-- A register holds what a register write says. -/
def Holds (s : State) (wid : Nat) : RegW → Prop
  | .v r t x => vAt s wid r t = x
  | .s r x => sAt s wid r = x
  | .p r t x => pAt s wid r t = x

/-- Every register write of a list has been made. -/
def HoldsAll (s : State) (wid : Nat) (ws : List RegW) : Prop := ∀ x ∈ ws, Holds s wid x

/-- The results of instruction id are on their way to its registers, and RESULT_WRITTEN is due within n cycles of its last
thread pair, which issues `last` cycles from now (R233, R247). -/
def OnItsWay (s t : State) (wid id last n : Nat) (ws : List RegW) (stat : Word32) : Prop :=
  (∃ x, t.wave? wid = some x ∧ Pend.mk id ws stat ∈ x.pend) ∧
  ∃ k, k ≤ n ∧ Timer.mk false (s.clk.cycle + (last + k)) (.resultWritten wid id) ∈ t.sch.timers

/-- An access of a wave is issued: it waits to be performed (R107, R108). -/
def Queued (t : State) (wid : Nat) (a : Access) : Prop := ∃ x, t.wave? wid = some x ∧ a ∈ x.accs

/-! ### What reads as before -/

/-- Every register of every wave reads as before but those that `dst` names. -/
structure RegsKept (s t : State) (dv : Nat → Nat → Nat → Prop) (ds : Nat → Nat → Prop) (dp : Nat → Nat → Nat → Prop) :
    Prop where
  vector : ∀ w r x, x < 64 → ¬ dv w r x → vAt t w r x = vAt s w r x
  scalar : ∀ w r, ¬ ds w r → sAt t w r = sAt s w r
  pred   : ∀ w r x, x < 64 → ¬ dp w r x → pAt t w r x = pAt s w r x

/-- Every byte of memory at home and of the frames reads as before, and its poison; the line records, but for the pins that a wave
which stops running gives up, and the tiles, scales and accumulators too. -/
structure MemKept (s t : State) : Prop where
  mem    : ∀ a, Memory.read t.mem a = Memory.read s.mem a
  fmem   : ∀ a, Memory.read t.fmem a = Memory.read s.fmem a
  homes  : t.homes = s.homes
  lines  : ∀ l, { t.line l with pinned := false } = { s.line l with pinned := false }
  matrix : t.mx = s.mx

/-- The special registers of a wave: %fstat (with what a window holds of it), the lease, the width, the team, %cprog, the
launch it belongs to. -/
def specials (s : State) (w : Nat) : Option (Word32 × List (Nat × Word32) × Nat × Nat × Option Nat × Word32 × Nat × Nat) :=
  (s.wave? w).map (fun x => (x.fstat, x.held, x.lease, x.width, x.team, x.cprog, x.job, x.index))

/-- The configuration a context runs with: its record, parent, declared ranges, version, debug resources. -/
def ctxConf (s : State) (c : Nat) : Option (Conf × Option Nat × CState × List Decl × Nat × List (Nat × BitVec 128)) :=
  (s.ctx? c).map (fun x => (x.conf, x.parent, x.state, x.declared, x.gver, x.bkpts))

/-- Special registers, configurations, cores, dies (but for the parts held for a wave) and frames are as before. -/
structure SysKept (s t : State) : Prop where
  wave   : ∀ w, specials t w = specials s w
  ctx    : ∀ c, ctxConf t c = ctxConf s c
  cores  : t.cores = s.cores
  dies   : ∀ d, { t.die d with holds := [] } = { s.die d with holds := [] }
  frames : t.frames = s.frames
  hist   : ∀ l, (t.lp l).hist = (s.lp l).hist ∧ (t.lp l).stall = (s.lp l).stall ∧ (t.lp l).idle = (s.lp l).idle ∧
    (t.lp l).slip = (s.lp l).slip

end Claim

end Sys2Proof
end

