-- ==== Sys2Proof/Certificates/Slice0/Obligations.lean ====
section
/-!
DEFINITION. The statements about the model, for the provers: def Obligations.<Name> : Prop each.
-/

namespace Sys2Proof.Claim

open Sys2Proof Machine

/-! ### Shapes of statements -/

/-- i completes, and each thread it acts for (once in S form) finds its register writes made. -/
def Writes (i : Instr) (sc : Bool) (f : State → Wave → Nat → List RegW) : Prop :=
  ∀ s c w, Begins i s c w → ∃ t, exec i s = .next t ∧
    ∀ x ∈ lanesOf sc (actMask i s c w), HoldsAll t c.wave (f s w x)

/-- i completes, and its results and status bits are on their way, n cycles after its last thread pair at most. -/
def Sends (i : Instr) (n : Nat) (f : State → Wave → Word64 → List RegW × Word32) : Prop :=
  ∀ s c w, Begins i s c w → ∃ t, exec i s = .next t ∧
    OnItsWay s t c.wave w.seq (lastPair (issOf i s c w) i s) n (f s w (actMask i s c w)).1 (f s w (actMask i s c w)).2

/-- A 32-bit result of n sources: the value by f, the poison of any source (R141, R246). -/
def word (o : Alu) (n : Nat) (f : Word32 → Word32 → Word32 → Word32) (s : State) (w : Wave) (x : Nat) : List RegW :=
  let a := src32 w s.sch.free o.s x o.a
  let b := if 2 ≤ n then src32 w s.sch.free o.s x o.b else {}
  let c := if 3 ≤ n then src32 w s.sch.free o.s x o.c else {}
  dst32 o.s o.dst x ⟨f a.val b.val c.val, a.poison || b.poison || c.poison⟩

/-- A 64-bit result of a wide A and a wide B; an immediate B extends as TYPE states (R249). -/
def wide (o : Alu) (f : Word64 → Word64 → Word64) (s : State) (w : Wave) (x : Nat) : List RegW :=
  let a := src64 w s.sch.free o.s x false o.a
  let b := src64 w s.sch.free o.s x (tySigned o.ty) o.b
  dst64 o.s o.dst x (f a.1 b.1, a.2 || b.2)

/-- A 64-bit result of a wide A and a word B. -/
def wideBy (o : Alu) (f : Word64 → Word32 → Word64) (s : State) (w : Wave) (x : Nat) : List RegW :=
  let a := src64 w s.sch.free o.s x false o.a
  let b := src32 w s.sch.free o.s x o.b
  dst64 o.s o.dst x (f a.1 b.val, a.2 || b.poison)

/-- The results of a floating-point instruction of n sources: each thread's word, and the OR of the status bits of the
threads whose sources are not poisoned (R130, R141). -/
def floats (o : Flt) (n : Nat) (f : Word32 → Word32 → Word32 → FR) (s : State) (w : Wave) (act : Word64) :
    List RegW × Word32 :=
  let one (x : Nat) : List RegW × Word32 :=
    let a := src32 w s.sch.free o.s x o.a
    let b := if 2 ≤ n then src32 w s.sch.free o.s x o.b else {}
    let c := if 3 ≤ n then src32 w s.sch.free o.s x o.c else {}
    let p := a.poison || b.poison || c.poison
    let r := f a.val b.val c.val
    (dst32 o.s o.dst x ⟨BitVec.ofNat 32 r.code, p⟩, if p then 0 else r.flags)
  let all := (lanesOf o.s act).map one
  (all.flatMap (·.1), all.foldl (fun m y => m ||| y.2) 0)

/-- A predicate result of two predicates. -/
def preds (o : Prd) (f : Bool → Bool → Bool) (s : State) (w : Wave) (x : Nat) : List RegW :=
  let a := w.readP s.sch.free o.a.toNat x
  let b := w.readP s.sch.free o.b.toNat x
  [.p o.dst.toNat x ⟨f (a.val != o.na) (b.val != o.nb), a.poison || b.poison⟩]

/-! ### Rounding (R127, R128) -/

/-- a * 2 ^ x is at most b * 2 ^ y. -/
def AtMost (a : Nat) (x : Int) (b : Nat) (y : Int) : Prop := a * 2 ^ (x - min x y).toNat ≤ b * 2 ^ (y - min x y).toNat

/-- A mode takes a magnitude toward zero. -/
def Cuts (r : Rnd) (neg : Bool) : Prop := r = .rz ∨ (r = .ru ∧ neg = true) ∨ (r = .rd ∧ neg = false)

/-- k is the magnitude m * 2 ^ e rounded to an integer by a mode. -/
def RoundsToInt (r : Rnd) (neg : Bool) (m : Nat) (e : Int) (k : Nat) : Prop :=
  let d := 2 ^ (-e).toNat
  (0 ≤ e → k = m * 2 ^ e.toNat) ∧
  (e < 0 → (Cuts r neg → k = m / d) ∧ (r ≠ .rn → ¬Cuts r neg → k = (m + d - 1) / d) ∧
    (r = .rn → 2 * k * d ≤ 2 * m + d ∧ 2 * m ≤ 2 * k * d + d ∧ (2 * k * d = 2 * m + d ∨ 2 * m = 2 * k * d + d → k % 2 = 0)))

/-- Of the finite values of f with sign neg, code c is the nearest to V, the tie going to the even one; le and ge tell the
numbers at most V and at least V. -/
def Nearest (f : FFmt) (neg : Bool) (le ge : Nat → Int → Prop) (c : Nat) : Prop :=
  ∃ m e, fDecode f c = .fin neg m e ∧ ∀ y n x, fDecode f y = .fin neg n x →
    let k := min e x
    let mid := m * 2 ^ (e - k).toNat + n * 2 ^ (x - k).toNat
    (¬AtMost n x m e → ge mid (k - 1) ∧ (le mid (k - 1) → c % 2 = 0)) ∧
    (¬AtMost m e n x → le mid (k - 1) ∧ (ge mid (k - 1) → c % 2 = 0))

/-- Code c is the largest of them that is at most V. -/
def Below (f : FFmt) (neg : Bool) (le : Nat → Int → Prop) (c : Nat) : Prop :=
  ∃ m e, fDecode f c = .fin neg m e ∧ le m e ∧ ∀ y n x, fDecode f y = .fin neg n x → le n x → AtMost n x m e

/-- Code c is the smallest of them that is at least V. -/
def Above (f : FFmt) (neg : Bool) (ge : Nat → Int → Prop) (c : Nat) : Prop :=
  ∃ m e, fDecode f c = .fin neg m e ∧ ge m e ∧ ∀ y n x, fDecode f y = .fin neg n x → ge n x → AtMost m e n x

/-- V, rounded by a mode to the precision of f with unbounded exponent, exceeds the largest finite value of f (R127). -/
def Exceeds (f : FFmt) (r : Rnd) (neg : Bool) (le ge : Nat → Int → Prop) : Prop :=
  ∀ m e, fDecode f (fMax f) = .fin false m e →
    (r = .rn → le (2 * m + 1) (e - 1) ∧ (m % 2 = 1 ∨ ¬ge (2 * m + 1) (e - 1))) ∧
    (Cuts r neg → le (m + 1) e) ∧ (r ≠ .rn → ¬Cuts r neg → ¬ge m e)

/-- V so rounded is below the least normal value of f (R128). -/
def Tiny (f : FFmt) (r : Rnd) (neg : Bool) (le ge : Nat → Int → Prop) : Prop :=
  let b := fMbits f
  let least : Int := 1 - fBias f
  (r = .rn → ¬le (2 ^ (b + 2) - 1) (least - b - 2)) ∧ (Cuts r neg → ¬le 1 least) ∧
  (r ≠ .rn → ¬Cuts r neg → ge (2 ^ (b + 1) - 1) (least - b - 1))

/-- r is the value V of sign neg, rounded once into f: its code and its status bits (R127, R128, R130, R132). -/
def Rounded (f : FFmt) (rnd : Rnd) (neg : Bool) (le ge : Nat → Int → Prop) (r : FR) : Prop :=
  (Exceeds f rnd neg le ge → r.flags = fOVERFLOW ||| fINEXACT ∧
    (Cuts rnd neg ∨ f = .e2m1 → r.code = fSign f neg + fMax f) ∧
    (¬Cuts rnd neg → f ≠ .e2m1 → r.code = if fHasInf f then fSign f neg + fInf f else fNaN f)) ∧
  (¬Exceeds f rnd neg le ge →
    (rnd = .rn → Nearest f neg le ge r.code) ∧ (Cuts rnd neg → Below f neg le r.code) ∧
    (rnd ≠ .rn → ¬Cuts rnd neg → Above f neg ge r.code) ∧
    ∃ m e, fDecode f r.code = .fin neg m e ∧ (le m e → ge m e → r.flags = 0) ∧
      (¬(le m e ∧ ge m e) → (Tiny f rnd neg le ge → r.flags = fINEXACT ||| fUNDERFLOW) ∧
        (¬Tiny f rnd neg le ge → r.flags = fINEXACT)))

/-- r is m * 2 ^ e of sign neg rounded once into f. -/
def RoundsTo (f : FFmt) (rnd : Rnd) (neg : Bool) (m : Nat) (e : Int) (r : FR) : Prop :=
  Rounded f rnd neg (fun a x => AtMost a x m e) (fun a x => AtMost m e a x) r

/-! ### Accesses, records, answers -/

/-- There is room for an access: the store queue has room for its store, the read set for its lines, no line of it waits for a
TST, and where step control is armed no thread faults and no breakpoint is met (R107, R108, R222, R330). -/
def AccessRoom (s : State) (c : Cur) (w : Wave) (a : Access) : Prop :=
  let x := opened s c w
  (queuedStore a.instr = true → queuedStores x < 32) ∧ readsFull s (coreOf c.wave) x a.instr a.lanes = false ∧
  meetsTst s (coreOf c.wave) x a.lanes = false ∧
  (armedAt s c x = true → lanesFault s (coreOf c.wave) x.ctx a.instr a.lanes = none ∧ accBkpt s c.wave x.ctx a = none)

/-- The access that instruction i issues with some lanes. -/
def accessOf (i : Instr) (s : State) (c : Cur) (w : Wave) (lanes : List Lane) (tile : Option Nat) : Access where
  id     := w.seq
  path   := c.path
  pc     := c.pc
  base   := c.base
  after  := nextPc c
  rep    := (w.path c.path).rep
  instr  := i
  mask   := actMask i s c w
  lanes  := lanes
  quiet  := (w.path c.path).noMatch
  tile   := tile

/-- i completes its issue, and an access with the lanes of f waits to be performed. -/
def Issues (i : Instr) (f : Wave → Nat → Word64 → List Lane) : Prop :=
  ∀ s c w, Begins i s c w →
    let a := accessOf i s c w (f w s.sch.free (actMask i s c w)) none
    AccessRoom (begun s c w) c w a → ∃ t n, exec i s = .next t ∧ Queued t c.wave a ∧ Timer.mk false n (.accessPerformed c.wave w.seq) ∈ t.sch.timers

/-- A pointer register with its offset: address and poison (R285). -/
def addr (w : Wave) (free : Nat) (sc : Bool) (r : BitVec 8) (off : BitVec 32) (t : Nat) : Word64 × Bool :=
  let p := if sc then w.readX free r.toNat else w.readW free r.toNat t
  (p.1 + off.signExtend 64, p.2)

/-- The scalar register xR names a record of n times 16 bytes, aligned, which meets no breakpoint, reads as bs with poison pz and
leaves v. -/
def Record (i : Instr) (s : State) (c : Cur) (w : Wave) (r : BitVec 8) (align n : Nat) (bs : List Byte) (pz : Bool)
    (v : State) : Prop :=
  ∃ p, pointerArg (issOf i s c w) (underSeal s c w) r = .ok p ∧ p.toNat % align = 0 ∧
    loadRecord (underSeal s c w) (whoOf c.wave (opened s c w)) p n = .ok (bs, pz) v ∧
    ownStop (issOf i s c w) (underSeal s c w) true false p (16 * n) = none

/-- i completes with status n in sD, whose poison is pz, the configurations of the contexts being those of u. -/
def Answers (i : Instr) (s : State) (c : Cur) (d : BitVec 8) (n : Nat) (pz : Bool) (u : State) : Prop :=
  (u.wave? c.wave).isSome → ∃ t, exec i s = .next t ∧ sAt t c.wave d.toNat = ⟨BitVec.ofNat 32 n, pz⟩ ∧
    ∀ j, ctxConf t j = ctxConf u j

/-- e completes from s, and P holds of where it leads. -/
def Goes (e : Instr) (s : State) (P : State → Prop) : Prop := ∃ t, exec e s = .next t ∧ P t

/-- The step e leads to u, where u leaves no conflict to act on (R113). -/
def Leads (e : Instr) (s u : State) : Prop := u.sch.hits = [] → exec e s = .next u

/-! ### Splits and joins (R151 to R154) -/

/-- Between the waves w and v path i is split into groups: the first stays on it; where two entries or more are free, as many others as
fit are paths under a new join of that kind, and the rest are deferred, the last group deepest. -/
def SplitInto (w v : Wave) (i : Nat) (gs : List Group) (kind : PKind) (ret : Word64) : Prop :=
  let p := w.path i
  let n := if gs.length ≤ w.freeCount then gs.length - 1 else w.freeCount - 1
  (∀ g, gs[0]? = some g → (v.path i).e.kind = .path ∧ (v.path i).e.mask = g.1 ∧ (v.path i).e.pc = g.2) ∧
  (n = 0 → (v.path i).e.link = p.e.link) ∧
  (n ≠ 0 → ∃ j, w.freeEntry = some j ∧ (v.path i).e.link = j ∧ (v.path j).e.kind = kind ∧ (v.path j).e.mask = p.e.mask ∧
    (v.path j).e.link = p.e.link ∧ (v.path j).e.pc = ret ∧
    ∀ m, 1 ≤ m → m ≤ n → ∀ g, gs[m]? = some g → ∃ h, (w.path h).e.kind = .free ∧ h ≠ j ∧ (v.path h).e.kind = .path ∧
      (v.path h).e.mask = g.1 ∧ (v.path h).e.pc = g.2 ∧ (v.path h).e.link = j) ∧
  v.defer = w.defer ++ ((gs.drop (n + 1)).reverse.map fun g => ⟨g.1, g.2, i, false, kind == .ret⟩)

/-- The deferral stack has room for what such a split defers. -/
def SplitFits (w : Wave) (gs : List Group) : Prop :=
  2 ≤ gs.length ∧ w.defer.length + (gs.length - 1 - (if gs.length ≤ w.freeCount then gs.length - 1 else w.freeCount - 1)) ≤ 64

/-- The deferral records and the mask of a path that meets, once each of its sides that has run is taken back. -/
def popDone : Nat → List Defer → Nat → Bool → Word64 → List Defer × Word64
  | 0, ds, _, _, m => (ds, m)
  | n + 1, ds, i, ret, m =>
    match newestDefer ds i ret with
    | some (k, r) => if r.phase then popDone n (ds.eraseIdx k) i ret (m ||| r.mask) else (ds, m)
    | none => (ds, m)

/-! ### Faults and frames -/

/-- A record that says what r says is held for a ring, none being the management cluster's (R191). -/
def OnRing (t : State) (ring : Option Nat) (r : FaultRec) : Prop :=
  match ring.bind t.ctx? with
  | none => r ∈ t.dev.ring
  | some y => ∃ k, { r with index := k } ∈ y.ring.held

/-- Between s and t, path i of wave w has taken fault f of the instruction at pc (R193, R194, R199, R200): it is parked at
`base` with STATE 101 for DEBUG_STOP and 100 otherwise; its record, with the next serial of its context x, is held for the
ring of its route; and where R199 lets a handler run and an entry is free, a handler path stands at TVEC with the mask and
LINK of the parked path, %trec naming the record. -/
def Faulted (s t : State) (wid i : Nat) (w : Wave) (x : Ctx) (pc base next : Word64) (kind : ParkKind) (f : FaultInfo) :
    Prop :=
  let p := w.path i
  let n := nextSerial x.ring.serial
  let ring := ringFor s w.ctx (faultRoute p f.code)
  let wants := wantsHandler x p f.code
  (pathAt t wid i).e = { p.e with state := if f.code = Code.DEBUG_STOP then .stopped else .trapped, pc := base } ∧
  (pathAt t wid i).park = some ⟨w.ctx, n, kind, base, next⟩ ∧
  (∃ r : FaultRec, OnRing t ring r ∧ r.code = f.code ∧ r.sub = f.sub ∧ r.serial = n ∧ r.mask = f.mask ∧ r.pc = pc ∧
    r.addr = f.addr ∧ r.extra = f.extra ∧ r.wave = wid ∧ r.path = i ∧ r.ctx = w.ctx ∧
    r.flags = faultFlags p f (wants && w.freeEntry.isNone)) ∧
  ∀ h, wants = true → w.freeEntry = some h →
    (pathAt t wid h).e = { kind := .path, state := .handler, link := p.e.link, pc := x.conf.tvec, mask := p.e.mask } ∧
    (pathAt t wid h).serves = some (i, n) ∧
    (pathAt t wid h).trec = x.conf.ring + 64 + 64 * BitVec.ofNat 64 (nextIndex s ring % x.conf.ringn)

/-- Between t and u the bytes at device address dev, at home or in a frame that holds its part, have become bs, and every other byte at
home and in frames is as before. -/
def PlaceWritten (t u : State) (p : Place) (dev : Nat) (bs : List Byte) : Prop :=
  match p with
  | .frame fk =>
    let at_ := fAddr fk (dev % 65536)
    placeBytes u p dev bs.length = bs ∧ u.mem = t.mem ∧
      ∀ b, b < at_ ∨ at_ + bs.length ≤ b → Memory.read u.fmem b = Memory.read t.fmem b
  | .home => t.homes.dual = [] →
    placeBytes u p dev bs.length = bs ∧ u.fmem = t.fmem ∧
      ∀ b, b < dev ∨ dev + bs.length ≤ b → Memory.read u.mem b = Memory.read t.mem b

/-- The path of c issues in wave w of context x, neither parked nor waiting to merge; a path table has 16 entries (R150). -/
structure Issuing (s : State) (c : Cur) (w : Wave) (x : Ctx) : Prop where
  cur  : s.sch.cur = some c
  wave : s.wave? c.wave = some w
  ctx  : s.ctx? w.ctx = some x
  path : (w.path c.path).e.kind = .path
  size : c.path < w.paths.length
  runs : (w.path c.path).e.state = .ready ∨ (w.path c.path).e.state = .waiting ∨ (w.path c.path).e.state = .handler
  kept : (w.path c.path).kept = none
  table : w.paths.length ≤ 16

/-- Nothing stops instruction i at the path of c, and no thread is active for it (R115, R116, R145, R222). -/
structure Idles (i : Instr) (s : State) (c : Cur) (w : Wave) : Prop where
  bkpt   : execHit s c w = none
  budget : leastBudget i c w ≤ w.budget
  guard  : guardPoison w s.sch.free (ctlOf i) (w.path c.path).e.mask = 0
  idle   : actMask i s c w = 0
  armed  : armedAt s c w = false
  window : w.unperformed = true → w.careful = 0
  pin    : needsPin w c = true → s.pins.holder = some c.wave
  room   : roomFor s (w.openWindow w.seq c false) (undoRoom i w c.path 0) = true

/-- However i answers at issue, no register, no byte of memory and no special register or configuration changes but the
registers that are named: dv the vector registers, ds the scalar ones, dp the predicates of the issuing wave. Where a stop of the
path is due inside a window of its wave, that window is rolled back first (R115), and nothing else changes. -/
def Frame (i : Instr) (dv : Word64 → Nat → Nat → Prop) (ds : Nat → Prop) (dp : Word64 → Nat → Nat → Prop) : Prop :=
  ∀ s c w t, s.sch.cur = some c → s.wave? c.wave = some w → exec i s = .next t →
    let a := actMask i s c w
    ∃ z, (z = s ∨ (w.unperformed = true ∧ w.owesUntil ((w.path c.path).stopAt.getD w.seq) = false ∧
        z = rollback s c.wave false)) ∧
      RegsKept z t (fun v r x => v = c.wave ∧ dv a r x) (fun v r => v = c.wave ∧ ds r)
        (fun v r x => v = c.wave ∧ dp a r x) ∧
      MemKept z t ∧ SysKept z t

/-- A register r of a destination of a class at number d. -/
def inDst (k : RegClass) (d r : Nat) : Prop := r = d ∨ (k = .w ∧ r = d + 1)

end Sys2Proof.Claim

open Sys2Proof Machine Claim

/-! ### Decoding and encoding -/

/-- For every well-formed instruction, with every operand its encoding admits, there is a word that encodes it, and
decoding that word gives the instruction. -/
def Obligations.RoundTrip : Prop :=
  ∀ i : Instr, i.wf = true → ∃ w, encode i = some w ∧ decode w = .ok i

/-- If a word of 128 bits decodes to an instruction, the instruction is well formed and its encoding is that word, of
which a 64-bit instruction takes the low half: no two words mean the same, and no reserved encoding decodes. -/
def Obligations.DecodeSound : Prop :=
  ∀ w i, decode w = .ok i → i.wf = true ∧
    encode i = some (if bits w 0 2 == 1 then (bits w 0 64).setWidth 128 else w)

/-- Words written out from the encodings of the spec decode to the instructions they stand for: IADD, ICMP and FFMA,
a guarded BRA, RET, LD, BARV, WAITGE, COPYM, TCFG, CTXRUN and TRAMP. -/
def Obligations.SampleWords : Prop :=
  decode 0x0242829F1E000001 = .ok (.iadd ⟨.neutral, false, .r, 10, .reg 10, .reg 9, .none, .n32, false⟩) ∧
  decode 0x000000100402005F1E000076 = .ok (.icmp .lt ⟨.neutral, false, .i, 1, .reg 8, .imm 16, .none, .n32, false⟩) ∧
  decode 0x00000001150000000503859F1E03810E =
    .ok (.ffma ⟨⟨0, 28, 15, 0, 31, false⟩, false, .c, 22, .reg 14, .reg 20, .reg 21, .rn⟩) ∧
  decode 0x03FFFE231E000201 = .ok (.bra ⟨0, 0, 15, 0, 3, true⟩ false 0xFFFFFFF8) ∧
  decode 0x0001801F1E000211 = .ok (.ret .neutral false 6) ∧
  decode 0x0102831F00000281 = .ok (.ld .n32 ⟨⟨0, 0, 0, 0, 31, false⟩, false, false, 12, 10, 0⟩) ∧
  decode 0x000000800001801F9E0002D2 = .ok (.barv ⟨.neutral, true, 6, 128, none⟩) ∧
  decode 0x000007D0000000024003001F9E008313 = .ok (.waitge ⟨0, 4, 15, 0, 31, false⟩ 0 12 (.imm 2) 2000) ∧
  decode 0x0002001F9E002309 = .ok (.copym ⟨0, 1, 15, 0, 31, false⟩ 8) ∧
  decode 0x000001F30000001F9E000342 = .ok (.tcfg .neutral 0 (.imm 0x1F3)) ∧
  decode 0x0002411F9E00038D = .ok (.ctxrun .neutral 4 9) ∧
  decode 0x0000015F1E0003C1 = .ok (.tramp .neutral 5)


/-! ### Integer and address instructions (R245 to R252) -/

/-- IADD, ISUB, IMUL, INEG, IABS, IMIN, IMAX, IMULH, IMAD, IMADW, IADDW and ISUBW complete in every form, and every
thread they act for holds the result of R249 in its destination: the exact result of the sources read under TYPE,
fitted to TYPE with SAT, with the joint poison of the sources. None sets a %fstat bit. The rule's own example: 120 +
16 gives 0xFFFF_FF88 as .i8, 0x0000_007F as .i8.sat, and 0x0000_0088 as .n8 and as .i32. (R249) -/
def Obligations.IntegerArithmetic : Prop :=
  ∀ o : Alu,
    Writes (.iadd o) o.s (word o 2 fun a b _ => tyFit o.ty o.sat (tyExt o.ty a + tyExt o.ty b)) ∧
    Writes (.isub o) o.s (word o 2 fun a b _ => tyFit o.ty o.sat (tyExt o.ty a - tyExt o.ty b)) ∧
    Writes (.imul o) o.s (word o 2 fun a b _ => tyFit o.ty o.sat (tyExt o.ty a * tyExt o.ty b)) ∧
    Writes (.ineg o) o.s (word o 1 fun a _ _ => tyFit o.ty o.sat (-tyExt o.ty a)) ∧
    Writes (.iabs o) o.s (word o 1 fun a _ _ => tyFit o.ty o.sat ((tyExt o.ty a).natAbs : Int)) ∧
    Writes (.imin o) o.s (word o 2 fun a b _ => tyFit o.ty false (min (tyExt o.ty a) (tyExt o.ty b))) ∧
    Writes (.imax o) o.s (word o 2 fun a b _ => tyFit o.ty false (max (tyExt o.ty a) (tyExt o.ty b))) ∧
    Writes (.imulh o) o.s (word o 2 fun a b _ => BitVec.ofInt 32 (tyExt o.ty a * tyExt o.ty b / 2 ^ 32)) ∧
    Writes (.imad o) o.s (word o 3 fun a b c => a * b + c) ∧
    Writes (.imadw o) o.s (fun s w x =>
      let a := src32 w s.sch.free o.s x o.a
      let b := src32 w s.sch.free o.s x o.b
      let c := src64 w s.sch.free o.s x false o.c
      dst64 o.s o.dst x (BitVec.ofInt 64 (tyExt o.ty a.val * tyExt o.ty b.val) + c.1, a.poison || b.poison || c.2)) ∧
    Writes (.iaddw o) o.s (wide o fun a b => a + b) ∧
    Writes (.isubw o) o.s (wide o fun a b => a - b) ∧
    (∀ w free sc x (v : Word32), src64 w free sc x false (.imm v) = (v.setWidth 64, false) ∧
      src64 w free sc x true (.imm v) = (v.signExtend 64, false)) ∧
    (∀ i ∈ [Instr.iadd o, .isub o, .imul o, .ineg o, .iabs o, .imin o, .imax o, .imulh o, .imad o, .imadw o, .iaddw o,
      .isubw o], ∀ s c w t, s.sch.cur = some c → s.wave? c.wave = some w → exec i s = .next t →
      (t.wave? c.wave).map (fun x => (x.fstat, x.held)) = some (w.fstat, w.held)) ∧
    tyFit .i8 false (tyExt .i8 0x78 + tyExt .i8 0x10) = 0xFFFFFF88 ∧
    tyFit .i8 true (tyExt .i8 0x78 + tyExt .i8 0x10) = 0x7F ∧
    tyFit .n8 false (tyExt .n8 0x78 + tyExt .n8 0x10) = 0x88 ∧
    tyFit .i32 false (tyExt .i32 0x78 + tyExt .i32 0x10) = 0x88

/-- For every TYPE: EXT of a word is the integer of its low w bits, natural or signed; FIT of an integer without SAT
is congruent to it modulo 2^w and reads back under TYPE as itself when it is in the range of TYPE; with SAT it reads
back as the integer clamped to that range; and the bits of a fitted word above w are its sign for a signed TYPE and
zero for a natural one. -/
def Obligations.IntegerTypes : Prop :=
  ∀ (ty : IType) (v : Word32) (r : Int),
    (tyExt ty v - v.toNat) % 2 ^ tyWidth ty = 0 ∧ iMin ty ≤ tyExt ty v ∧ tyExt ty v ≤ iMax ty ∧
    (tyExt ty (tyFit ty false r) - r) % 2 ^ tyWidth ty = 0 ∧
    (iMin ty ≤ r → r ≤ iMax ty → tyExt ty (tyFit ty false r) = r) ∧
    tyExt ty (tyFit ty true r) = max (iMin ty) (min (iMax ty) r) ∧
    ∀ i, tyWidth ty ≤ i → i < 32 →
      (tyFit ty false r).getLsbD i = (tySigned ty && (tyFit ty false r).getLsbD (tyWidth ty - 1))

/-- AND, OR, XOR, ANDN, NOT, SHL, SHR, SAR, SHLW, SHRW, BFX, BFI, POPC, CLZ, CTZ, BREV and PERMB complete in every
form, and every thread they act for holds their value in its destination, with the joint poison of the sources; the
shift amount is B[7:0]. -/
def Obligations.BitwiseAndShifts : Prop :=
  ∀ o : Alu,
    Writes (.band o) o.s (word o 2 fun a b _ => a &&& b) ∧
    Writes (.bor o) o.s (word o 2 fun a b _ => a ||| b) ∧
    Writes (.bxor o) o.s (word o 2 fun a b _ => a ^^^ b) ∧
    Writes (.bandn o) o.s (word o 2 fun a b _ => a &&& ~~~b) ∧
    Writes (.bnot o) o.s (word o 1 fun a _ _ => ~~~a) ∧
    Writes (.shl o) o.s (word o 2 fun a b _ => shlVal a (b.toNat % 256)) ∧
    Writes (.shr o) o.s (word o 2 fun a b _ => shrVal a (b.toNat % 256)) ∧
    Writes (.sar o) o.s (word o 2 fun a b _ => sarVal a (b.toNat % 256)) ∧
    Writes (.shlw o) o.s (wideBy o fun a b => shlwVal a (b.toNat % 256)) ∧
    (∀ arith, Writes (.shrw arith o) o.s (wideBy o fun a b => shrwVal arith a (b.toNat % 256))) ∧
    Writes (.bfx o) o.s (word o 2 fun a b _ => bfxVal (tySigned o.ty) a b) ∧
    Writes (.bfi o) o.s (word o 3 fun a b c => bfiVal a b c) ∧
    Writes (.popc o) o.s (word o 1 fun a _ _ => BitVec.ofNat 32 (popVal a 32)) ∧
    Writes (.clz o) o.s (word o 1 fun a _ _ => BitVec.ofNat 32 (clzVal a 32)) ∧
    Writes (.ctz o) o.s (word o 1 fun a _ _ => BitVec.ofNat 32 (ctzFrom a 32 0)) ∧
    Writes (.brev o) o.s (word o 1 fun a _ _ => BitVec.ofNat 32 (brevVal a 32)) ∧
    Writes (.permb o) o.s (word o 3 fun a b c => permVal a b c)

/-- For all words and amounts, bit i of each value is: SHL and SHLW the bit n lower and zero below n; SHR and SHRW
the bit n higher and zero, or for SAR and SHRW.arith the sign, where there is none; BFX the bit pos higher within the
field, above it zero or the sign of the field; BFI the bit of B within the field and of A outside; BREV the bit 31 -
i. POPC counts the ones; A has no one among its CLZ highest and its CTZ lowest bits and a one next to them unless A
is 0; byte j of PERMB is 0 or the byte of B:A that the nibble selects. -/
def Obligations.BitValues : Prop :=
  ∀ (a b k : Word32) (p : Word64) (n i : Nat) (sgn : Bool),
    (i < 32 → (shlVal a n).getLsbD i = (decide (n ≤ i) && a.getLsbD (i - n)) ∧
      (shrVal a n).getLsbD i = a.getLsbD (i + n) ∧
      (sarVal a n).getLsbD i = (if i + n < 32 then a.getLsbD (i + n) else a.msb) ∧
      (bfxVal sgn a k).getLsbD i = (if i < fieldLen k then a.getLsbD (fieldPos k + i)
        else sgn && decide (fieldLen k ≠ 0) && a.getLsbD (fieldPos k + fieldLen k - 1)) ∧
      (bfiVal a b k).getLsbD i =
        (if fieldPos k ≤ i ∧ i < fieldPos k + fieldLen k then b.getLsbD (i - fieldPos k) else a.getLsbD i) ∧
      (BitVec.ofNat 32 (brevVal a 32)).getLsbD i = a.getLsbD (31 - i)) ∧
    (i < 64 → (shlwVal p n).getLsbD i = (decide (n ≤ i) && p.getLsbD (i - n)) ∧
      (shrwVal false p n).getLsbD i = p.getLsbD (i + n) ∧
      (shrwVal true p n).getLsbD i = (if i + n < 64 then p.getLsbD (i + n) else p.msb)) ∧
    fieldPos k = k.toNat % 32 ∧ fieldLen k = min (k.toNat / 256 % 64) (32 - k.toNat % 32) ∧
    popVal a 32 = (List.range 32).countP a.getLsbD ∧
    (∀ j, 32 - clzVal a 32 ≤ j → a.getLsbD j = false) ∧ (a ≠ 0 → a.getLsbD (31 - clzVal a 32) = true) ∧
    (∀ j, j < ctzFrom a 32 0 → a.getLsbD j = false) ∧ (a ≠ 0 → a.getLsbD (ctzFrom a 32 0) = true) ∧
    (a = 0 → clzVal a 32 = 32 ∧ ctzFrom a 32 0 = 32) ∧
    (∀ j, j < 4 → (permVal a b k).extractLsb' (8 * j) 8 =
      if k.getLsbD (4 * j + 3) then 0 else (b ++ a).extractLsb' (8 * (k.toNat / 2 ^ (4 * j) % 8)) 8)

/-- ICMP, SEL, MOV, MOVI and LEA complete in every form: ICMP writes the comparison of the sources read under TYPE;
SEL passes the source that the predicate, or in S form a scalar register that is not 0, selects, with its poison and
that of the selector; MOV copies a word or a pair with its poison; MOVI writes its immediate, never poisoned; LEA
writes wA plus the offset shifted by sh. -/
def Obligations.MovesAndCompares : Prop :=
  ∀ (o : Alu) (cond : ICond) (ctl : Ctl) (sc : Bool) (d : BitVec 8) (v : MoviVal) (sh : BitVec 2),
    Writes (.icmp cond o) o.s (fun s w x =>
      let a := src32 w s.sch.free o.s x o.a
      let b := src32 w s.sch.free o.s x o.b
      let i := tyExt o.ty a.val
      let j := tyExt o.ty b.val
      dstP o.s o.dst x ((match cond with
        | .eq => decide (i = j) | .ne => decide (i ≠ j) | .lt => decide (i < j)
        | .le => decide (i ≤ j) | .gt => decide (i > j) | .ge => decide (i ≥ j)), a.poison || b.poison)) ∧
    Writes (.sel false o) o.s (fun s w x =>
      let c := selector w s.sch.free o.s x o.c
      let r := if c.val then src32 w s.sch.free o.s x o.a else src32 w s.sch.free o.s x o.b
      dst32 o.s o.dst x ⟨r.val, r.poison || c.poison⟩) ∧
    Writes (.sel true o) o.s (fun s w x =>
      let c := selector w s.sch.free o.s x o.c
      let r := if c.val then src64 w s.sch.free o.s x false o.a else src64 w s.sch.free o.s x false o.b
      dst64 o.s o.dst x (r.1, r.2 || c.poison)) ∧
    Writes (.mov false o) o.s (fun s w x => dst32 o.s o.dst x (src32 w s.sch.free o.s x o.a)) ∧
    Writes (.mov true o) o.s (fun s w x => dst64 o.s o.dst x (src64 w s.sch.free o.s x false o.a)) ∧
    Writes (.movi ctl sc d v) sc (fun _ _ x => match v with
      | .word n => dst32 sc d x ⟨n, false⟩
      | .sext n => dst64 sc d x (BitVec.ofInt 64 n.toInt, false)
      | .zext n => dst64 sc d x (BitVec.ofNat 64 n.toNat, false)
      | .pair lo hi => dst64 sc d x (BitVec.ofNat 64 (hi.toNat * 2 ^ 32 + lo.toNat), false)) ∧
    Writes (.lea sh o) o.s (fun s w x =>
      let a := src64 w s.sch.free o.s x false o.a
      let b := src32 w s.sch.free o.s x o.b
      dst64 o.s o.dst x (a.1 + (BitVec.ofInt 64 (tyExt o.ty b.val) <<< sh.toNat), a.2 || b.poison))


/-! ### Floating-point instructions and conversions (R253 to R259) -/

/-- FADD, FSUB, FMUL, FFMA, FMIN, FMAX, FCMP, FCLASS, FRND, BADD2, BMUL2, BFMA2 and HFMA2 complete in every form:
their results, one rounding of the exact value each, and the OR of the status bits of the threads without poison are
on their way and written 4 cycles after the last thread pair; the packed instructions work on each half alone. -/
def Obligations.FloatResults : Prop :=
  ∀ (o : Flt) (cond : FCond),
    Sends (.fadd o) 4 (floats o 2 fun a b _ => fAddR .f32 o.rnd (f32 a) (f32 b)) ∧
    Sends (.fsub o) 4 (floats o 2 fun a b _ => fAddR .f32 o.rnd (f32 a) (fNeg (f32 b))) ∧
    Sends (.fmul o) 4 (floats o 2 fun a b _ => fMulR .f32 o.rnd (f32 a) (f32 b)) ∧
    Sends (.ffma o) 4 (floats o 3 fun a b c => fFmaR .f32 o.rnd (f32 a) (f32 b) (f32 c)) ∧
    Sends (.fmin o) 4 (floats o 2 fun a b _ => fMinMax .f32 false a.toNat b.toNat) ∧
    Sends (.fmax o) 4 (floats o 2 fun a b _ => fMinMax .f32 true a.toNat b.toNat) ∧
    Sends (.fclass o) 4 (floats o 1 fun a _ _ => ⟨fClass a.toNat, 0⟩) ∧
    Sends (.frnd o) 4 (floats o 1 fun a _ _ => fRnd o.rnd a.toNat) ∧
    Sends (.badd2 o) 4 (floats o 2 fun a b _ =>
      halves (fun x y _ => fAddR .bf16 .rn (fDecode .bf16 x) (fDecode .bf16 y)) ⟨a, b, 0⟩) ∧
    Sends (.bmul2 o) 4 (floats o 2 fun a b _ =>
      halves (fun x y _ => fMulR .bf16 .rn (fDecode .bf16 x) (fDecode .bf16 y)) ⟨a, b, 0⟩) ∧
    Sends (.bfma2 o) 4 (floats o 3 fun a b c =>
      halves (fun x y z => fFmaR .bf16 .rn (fDecode .bf16 x) (fDecode .bf16 y) (fDecode .bf16 z)) ⟨a, b, c⟩) ∧
    Sends (.hfma2 o) 4 (floats o 3 fun a b c =>
      halves (fun x y z => fFmaR .f16 .rn (fDecode .f16 x) (fDecode .f16 y) (fDecode .f16 z)) ⟨a, b, c⟩) ∧
    Sends (.fcmp cond o) 4 (fun s w act =>
      let one (x : Nat) : List RegW × Word32 :=
        let a := src32 w s.sch.free o.s x o.a
        let b := src32 w s.sch.free o.s x o.b
        let p := a.poison || b.poison
        let r := fCompare cond a.val.toNat b.val.toNat
        (dstP o.s o.dst x (r.1, p), if p then 0 else r.2)
      let all := (lanesOf o.s act).map one
      (all.flatMap (·.1), all.foldl (fun m y => m ||| y.2) 0))

/-- FRCP, FRSQ, FSQRT, FEXP2, FLOG2, FSIN and FCOS complete in every form, with their results and status bits on
their way and written at most 64 cycles after the last thread pair. FRCP, FRSQ and FSQRT of a positive finite value,
and FRCP of a negative one, are the exact value rounded once to nearest even, with its status bits; so are FEXP2 of
an integral A and FLOG2 of a power of two; FSIN and FCOS of an integral A are 0 with the sign of A and 1 or -1, of a
half-integral A 1 or -1 and +0. NaN, infinities, zeros and negative operands give what the table of R256 says. No
clause gives the other values of FEXP2, FLOG2, FSIN and FCOS. -/
def Obligations.SpecialFunctions : Prop :=
  (∀ o : Flt,
    Sends (.frcp o) 64 (floats o 1 fun a _ _ => fRcp a.toNat) ∧
    Sends (.frsq o) 64 (floats o 1 fun a _ _ => fRsq a.toNat) ∧
    Sends (.fsqrt o) 64 (floats o 1 fun a _ _ => fSqrt a.toNat) ∧
    Sends (.fexp2 o) 64 (floats o 1 fun a _ _ => fExp2 a.toNat) ∧
    Sends (.flog2 o) 64 (floats o 1 fun a _ _ => fLog2 a.toNat) ∧
    Sends (.fsin o) 64 (floats o 1 fun a _ _ => fSinPi a.toNat) ∧
    Sends (.fcos o) 64 (floats o 1 fun a _ _ => fCosPi a.toNat)) ∧
  (∀ (x : Nat) (sig : Bool), fDecode .f32 x = .nan sig →
    ∀ g ∈ [fRcp, fRsq, fSqrt, fExp2, fLog2, fSinPi, fCosPi], g x = ⟨0x7FC00000, if sig then fINVALID else 0⟩) ∧
  (∀ (x : Nat) (neg : Bool), fDecode .f32 x = .inf neg →
    fRcp x = ⟨if neg then 0x80000000 else 0, 0⟩ ∧ fExp2 x = ⟨if neg then 0 else 0x7F800000, 0⟩ ∧
    fSinPi x = ⟨0x7FC00000, fINVALID⟩ ∧ fCosPi x = ⟨0x7FC00000, fINVALID⟩ ∧
    (neg = false → fRsq x = ⟨0, 0⟩ ∧ fSqrt x = ⟨0x7F800000, 0⟩ ∧ fLog2 x = ⟨0x7F800000, 0⟩) ∧
    (neg = true → ∀ g ∈ [fRsq, fSqrt, fLog2], g x = ⟨0x7FC00000, fINVALID⟩)) ∧
  (∀ (x : Nat) (neg : Bool) (e : Int), x < 2 ^ 32 → fDecode .f32 x = .fin neg 0 e →
    fRcp x = ⟨if neg then 0xFF800000 else 0x7F800000, fDIVZERO⟩ ∧ fRsq x = ⟨if neg then 0xFF800000 else 0x7F800000, fDIVZERO⟩ ∧
    fSqrt x = ⟨if neg then 0x80000000 else 0, 0⟩ ∧ fExp2 x = ⟨0x3F800000, 0⟩ ∧ fLog2 x = ⟨0xFF800000, fDIVZERO⟩) ∧
  (∀ (x m : Nat) (neg : Bool) (e : Int), fDecode .f32 x = .fin neg m e → m ≠ 0 →
    Rounded .f32 .rn neg (fun a y => AtMost (a * m) (y + e) 1 0) (fun a y => AtMost 1 0 (a * m) (y + e)) (fRcp x) ∧
    (neg = true → ∀ g ∈ [fRsq, fSqrt, fLog2], g x = ⟨0x7FC00000, fINVALID⟩) ∧
    (neg = false →
      Rounded .f32 .rn false (fun a y => AtMost (a * a * m) (2 * y + e) 1 0) (fun a y => AtMost 1 0 (a * a * m) (2 * y + e))
        (fRsq x) ∧
      Rounded .f32 .rn false (fun a y => AtMost (a * a) (2 * y) m e) (fun a y => AtMost m e (a * a) (2 * y)) (fSqrt x) ∧
      ∀ j : Nat, m = 2 ^ j → RoundsTo .f32 .rn (decide ((j : Int) + e < 0)) ((j : Int) + e).natAbs 0 (fLog2 x))) ∧
  ∀ (x m k : Nat) (neg : Bool) (e : Int), fDecode .f32 x = .fin neg m e →
    (m * 2 ^ e.toNat = k * 2 ^ (-e).toNat →
      RoundsTo .f32 .rn false 1 (if neg then -(k : Int) else k) (fExp2 x) ∧
      fSinPi x = ⟨if neg then 0x80000000 else 0, 0⟩ ∧ fCosPi x = ⟨if k % 2 = 1 then 0xBF800000 else 0x3F800000, 0⟩) ∧
    (2 * m * 2 ^ e.toNat = (2 * k + 1) * 2 ^ (-e).toNat →
      fSinPi x = ⟨if neg = decide (k % 2 = 1) then 0x3F800000 else 0xBF800000, 0⟩ ∧ fCosPi x = ⟨0, 0⟩)

/-- FCVT, FCVTP, FCVTX, I2F and F2I complete in every form, with their results and status bits on their way and
written 4 cycles after the last thread pair; FCVTP replaces elements 2j and 2j + 1 of vD and keeps the others, and
takes the poison of vD too. A conversion of a NaN, an infinity or an overflow, with and without .sat, gives what the
table of R132 says, and any other its one rounding; one to an integer the rounded value, saturated, with INVALID
where that or a NaN changes it and INEXACT where rounding did; FRND the rounded value with the sign of A. -/
def Obligations.Conversions : Prop :=
  (∀ (o : Flt) (d sf : FFmt) (sat : Bool) (j : BitVec 2) (k : BitVec 3) (ty : IType),
    Sends (.fcvt d sf sat o) 4 (floats o 1 fun a _ _ => fCvt d sf o.rnd sat a.toNat) ∧
    Sends (.fcvtx sf k o) 4 (floats o 1 fun a _ _ => fCvt .f32 sf .rn false (a.toNat / 2 ^ (fBits sf * k.toNat))) ∧
    Sends (.i2f ty o) 4 (floats o 1 fun a _ _ => fRound .f32 o.rnd false (fOfInt (tyExt ty a))) ∧
    Sends (.f2i ty o) 4 (floats o 1 fun a _ _ =>
      let r := fToI ty o.rnd (f32 a)
      ⟨(tyFit ty false r.1).toNat, r.2⟩) ∧
    Sends (.fcvtp d sat j o) 4 (fun s w act =>
      let one (x : Nat) : List RegW × Word32 :=
        let a := src32 w s.sch.free o.s x o.a
        let b := src32 w s.sch.free o.s x o.b
        let old := src32 w s.sch.free o.s x (.reg o.dst)
        let p := a.poison || b.poison || old.poison
        let y := fCvt d .f32 o.rnd sat a.val.toNat
        let z := fCvt d .f32 o.rnd sat b.val.toNat
        let v := putElem (putElem old.val (fBits d) (2 * j.toNat) y.code) (fBits d) (2 * j.toNat + 1) z.code
        (dst32 o.s o.dst x ⟨v, p⟩, if p then 0 else y.flags ||| z.flags)
      let all := (lanesOf o.s act).map one
      (all.flatMap (·.1), all.foldl (fun m y => m ||| y.2) 0))) ∧
  (∀ (d sf : FFmt) (r : Rnd) (sat : Bool) (x : Nat), x < 2 ^ fBits sf →
    let y := fCvt d sf r sat x
    (∀ sig, fDecode sf x = .nan sig → y = ⟨fNaN d, if sig = true ∨ d = .e2m1 then fINVALID else 0⟩) ∧
    (∀ neg, fDecode sf x = .inf neg → y =
      if sat = true ∨ d = .e2m1 then ⟨fSign d neg + fMax d, fINVALID⟩
      else if d = .e4m3 then ⟨0x7F, fINVALID⟩ else ⟨fSign d neg + fInf d, 0⟩) ∧
    ∀ neg m e, fDecode sf x = .fin neg m e →
      (sat = false → RoundsTo d r neg m e y) ∧
      (sat = true → Exceeds d r neg (fun a z => AtMost a z m e) (fun a z => AtMost m e a z) →
        y = ⟨fSign d neg + fMax d, fOVERFLOW ||| fINEXACT⟩) ∧
      (sat = true → ¬Exceeds d r neg (fun a z => AtMost a z m e) (fun a z => AtMost m e a z) → RoundsTo d r neg m e y)) ∧
  (∀ (r : Rnd) (v : Int), RoundsTo .f32 r (decide (v < 0)) v.natAbs 0 (fRound .f32 r false (fOfInt v))) ∧
  (∀ (ty : IType) (r : Rnd) (sig neg : Bool), fToI ty r (.nan sig) = (0, fINVALID) ∧
    fToI ty r (.inf neg) = (if neg then iMin ty else iMax ty, fINVALID)) ∧
  (∀ (ty : IType) (r : Rnd) (neg : Bool) (m : Nat) (e : Int), ∃ k, RoundsToInt r neg m e k ∧
    let v : Int := if neg then -(k : Int) else k
    (v < iMin ty → fToI ty r (.fin neg m e) = (iMin ty, fINVALID)) ∧
    (iMax ty < v → fToI ty r (.fin neg m e) = (iMax ty, fINVALID)) ∧
    (iMin ty ≤ v → v ≤ iMax ty → fToI ty r (.fin neg m e) =
      (v, if k * 2 ^ (-e).toNat = m * 2 ^ e.toNat then 0 else fINEXACT))) ∧
  ∀ (r : Rnd) (x m : Nat) (neg : Bool) (e : Int), fDecode .f32 x = .fin neg m e →
    ∃ k n y, RoundsToInt r neg m e k ∧ fDecode .f32 (fRnd r x).code = .fin neg n y ∧
      AtMost n y k 0 ∧ AtMost k 0 n y ∧ (fRnd r x).flags = 0

/-- In every format and rounding mode: a sum, a product and a fused product of finite values are the exact value
rounded once, with OVERFLOW, UNDERFLOW and INEXACT as that rounding raises them; a NaN operand gives the canonical
NaN of the format in each; so do the difference of two infinities and zero times an infinity, in a fused product too
whatever is added, with INVALID; a sum of two zeros of equal sign has that sign, and every other exact zero sum is -0
under .rd and +0 under the other modes; a product that is no NaN has the exclusive OR of the signs as its sign; FMIN
takes -0 and FMAX +0 of the two zeros. -/
def Obligations.FloatRules : Prop :=
  ∀ (f : FFmt) (r : Rnd) (a b c : FVal) (na nb nc : Bool) (m n k : Nat) (e e' e₂ : Int),
    (isNan a = true ∨ isNan b = true → (fAddR f r a b).code = fNaN f ∧ (fMulR f r a b).code = fNaN f) ∧
    (isNan a = true ∨ isNan b = true ∨ isNan c = true → (fFmaR f r a b c).code = fNaN f) ∧
    (fAddR f r (.inf na) (.inf (!na))).code = fNaN f ∧ (fAddR f r (.inf na) (.inf (!na))).flags &&& fINVALID = fINVALID ∧
    (fMulR f r (.inf na) (.fin nb 0 e)).code = fNaN f ∧ (fMulR f r (.fin nb 0 e) (.inf na)).code = fNaN f ∧
    (fMulR f r (.inf na) (.fin nb 0 e)).flags &&& fINVALID = fINVALID ∧
    (fMulR f r (.fin nb 0 e) (.inf na)).flags &&& fINVALID = fINVALID ∧
    (fFmaR f r (.inf na) (.fin nb 0 e) c).code = fNaN f ∧ (fFmaR f r (.inf na) (.fin nb 0 e) c).flags &&& fINVALID = fINVALID ∧
    (fFmaR f r (.fin nb 0 e) (.inf na) c).code = fNaN f ∧ (fFmaR f r (.fin nb 0 e) (.inf na) c).flags &&& fINVALID = fINVALID ∧
    (fAddR f r (.fin na 0 e) (.fin na 0 e')) = ⟨fSign f na, 0⟩ ∧
    (fAddR f r (.fin na m e) (.fin (!na) m e)) = ⟨fSign f (r == .rd), 0⟩ ∧
    (fMulR f r (.fin na 0 e) (.fin nb m e')) = ⟨fSign f (na != nb), 0⟩ ∧
    RoundsTo f r (na != nb) (m * n) (e + e') (fMulR f r (.fin na m e) (.fin nb n e')) ∧
    (let q := min e e'
     let t : Int := (if na then -1 else 1) * (m * 2 ^ (e - q).toNat : Nat) + (if nb then -1 else 1) * (n * 2 ^ (e' - q).toNat : Nat)
     t ≠ 0 → RoundsTo f r (decide (t < 0)) t.natAbs q (fAddR f r (.fin na m e) (.fin nb n e'))) ∧
    (let q := min (e + e') e₂
     let t : Int := (if na = nb then 1 else -1) * (m * n * 2 ^ (e + e' - q).toNat : Nat) +
       (if nc then -1 else 1) * (k * 2 ^ (e₂ - q).toNat : Nat)
     t ≠ 0 → RoundsTo f r (decide (t < 0)) t.natAbs q (fFmaR f r (.fin na m e) (.fin nb n e') (.fin nc k e₂))) ∧
    (fHasInf f = true → (m ≠ 0 → (fMulR f r (.inf na) (.fin nb m e)) = ⟨fSign f (na != nb) + fInf f, 0⟩ ∧
        (fMulR f r (.fin na m e) (.inf nb)) = ⟨fSign f (na != nb) + fInf f, 0⟩) ∧
      (fMulR f r (.inf na) (.inf nb)) = ⟨fSign f (na != nb) + fInf f, 0⟩ ∧
      (fMulR f r (.fin na m e) (.fin nb n e')).code / 2 ^ (fBits f - 1) = if na = nb then 0 else 1) ∧
    (fMinMax .f32 false 0x80000000 0).code = 0x80000000 ∧ (fMinMax .f32 false 0 0x80000000).code = 0x80000000 ∧
    (fMinMax .f32 true 0x80000000 0).code = 0 ∧ (fMinMax .f32 true 0 0x80000000).code = 0


/-! ### Predicate and wave instructions (R156, R260, R275 to R277) -/

/-- PAND, POR, PXOR, PNOT and PMOV write their function of the predicates, P2V the 24 predicates as a word, and V2P
the predicates its mask names, for each active thread, with the poison of what they read. -/
def Obligations.PredicateResults : Prop :=
  ∀ (o : Prd) (ctl : Ctl) (d a : BitVec 8) (mask : BitVec 24),
    Writes (.pand o) false (preds o fun p q => p && q) ∧
    Writes (.por o) false (preds o fun p q => p || q) ∧
    Writes (.pxor o) false (preds o fun p q => p ^^ q) ∧
    Writes (.pnot o) false (fun s w x =>
      [.p o.dst.toNat x ⟨!(w.readP s.sch.free o.a.toNat x).val, (w.readP s.sch.free o.a.toNat x).poison⟩]) ∧
    Writes (.pmov o) false (fun s w x => [.p o.dst.toNat x (w.readP s.sch.free o.a.toNat x)]) ∧
    (∀ s c w, Begins (.p2v ctl d) s c w → ∃ t, exec (.p2v ctl d) s = .next t ∧
      ∀ x ∈ threads (actMask (.p2v ctl d) s c w),
        (∀ n, n < 32 → (vAt t c.wave d.toNat x).val.getLsbD n =
          (decide (n < 24) && (w.readP s.sch.free n x).val)) ∧
        (vAt t c.wave d.toNat x).poison = (List.range 24).any (fun n => (w.readP s.sch.free n x).poison)) ∧
    Writes (.v2p ctl a mask) false (fun s w x =>
      ((List.range 24).filter mask.getLsbD).map (fun n => .p n x
        ⟨(w.readV s.sch.free a.toNat x).val.getLsbD n, (w.readV s.sch.free a.toNat x).poison⟩))

/-- VOTE, SHFL and BCAST complete in every form, with their results on their way and written at most 8 cycles after
the last thread pair: .any and .all give whether some or every active thread has the predicate set, .ballot the mask
of those that have; SHFL gives each active thread the A of the thread that its mode and B name, BCAST the A of thread
B mod W; the poison of what is read goes with it. -/
def Obligations.CrossThread : Prop :=
  ∀ (ctl : Ctl) (ds : Bool) (d a : BitVec 8) (b : Src) (sm : ShflMode),
    (∀ yes : List Bool → Bool, ∀ mode, (mode = .any ∧ (yes = fun l => l.any id)) ∨ (mode = .all ∧ (yes = fun l => l.all id)) →
      Sends (.vote ctl mode ds d a) 8 (fun s w act =>
        let ps := (threads act).map (w.readP s.sch.free a.toNat)
        let r := yes (ps.map (·.val))
        let pz := ps.any (·.poison)
        (if ds then [.s d.toNat ⟨if r then 1 else 0, pz⟩] else (threads act).map (fun x => .p d.toNat x ⟨r, pz⟩), 0))) ∧
    Sends (.vote ctl .ballot ds d a) 8 (fun s w act =>
      let m := maskOf ((threads act).filter (fun x => (w.readP s.sch.free a.toNat x).val))
      let pz := (threads act).any (fun x => (w.readP s.sch.free a.toNat x).poison)
      (if ds then wX d.toNat m pz else (threads act).flatMap (fun x => wW d.toNat x m pz), 0)) ∧
    (∀ s c w, Begins (.shfl ctl sm d a b) s c w → ∃ t, exec (.shfl ctl sm d a b) s = .next t ∧
      OnItsWay s t c.wave w.seq (lastPair (issOf (.shfl ctl sm d a b) s c w) (.shfl ctl sm d a b) s) 8
        ((threads (actMask (.shfl ctl sm d a b) s c w)).map (fun x =>
          let n := src32 w s.sch.free false x b
          let k : Nat := match sm with
            | .idx => n.val.toNat % w.width
            | .up => (x + w.width - n.val.toNat % w.width) % w.width
            | .down => (x + n.val.toNat) % w.width
            | .xor => (x ^^^ n.val.toNat) % w.width
          let v := crossRead w s.sch.free (actMask (.shfl ctl sm d a b) s c w) a.toNat k
          .v d.toNat x ⟨v.val, v.poison || n.poison⟩)) 0) ∧
    (∀ s c w, Begins (.bcast ctl ds d a b) s c w → ∃ t, exec (.bcast ctl ds d a b) s = .next t ∧
      OnItsWay s t c.wave w.seq (lastPair (issOf (.bcast ctl ds d a b) s c w) (.bcast ctl ds d a b) s) 8
        (let n := src32 w s.sch.free false 0 b
         let v := crossRead w s.sch.free (actMask (.bcast ctl ds d a b) s c w) a.toNat (n.val.toNat % w.width)
         if ds then [.s d.toNat ⟨v.val, v.poison || n.poison⟩]
         else (threads (actMask (.bcast ctl ds d a b) s c w)).map
          (fun x => .v d.toNat x ⟨v.val, v.poison || n.poison⟩)) 0)

/-- WRED and WSCAN complete in every form, with their results on their way and written at most 8 cycles after the
last thread pair: WRED the value of the binary tree over all W inputs, inactive threads giving the identity, and the
status bits of all its steps; WSCAN to each active thread t the running result up to t, or up to t - 1 when
exclusive, thread 0 getting the identity. -/
def Obligations.Reductions : Prop :=
  ∀ (ctl : Ctl) (op : RedOp) (sgn flag : Bool) (d a : BitVec 8),
    Sends (.wred ctl op sgn flag d a) 8 (fun s w act =>
      let ins := (List.range w.width).map (fun x =>
        if has act x then RedVal.mk (w.readV s.sch.free a.toNat x) 0 else ⟨⟨redIdentity op sgn, false⟩, 0⟩)
      let r := ((redTree op sgn 6 ins).head?).getD ⟨{}, 0⟩
      (if flag then [.s d.toNat r.w] else (threads act).map (fun x => .v d.toNat x r.w), r.stat)) ∧
    Sends (.wscan ctl op sgn flag d a) 8 (fun s w act =>
      let zero : RedVal := ⟨⟨redIdentity op sgn, false⟩, 0⟩
      let ins := (List.range w.width).map (fun x => if has act x then RedVal.mk (w.readV s.sch.free a.toNat x) 0 else zero)
      let run := scanAll op sgn ins
      ((threads act).map (fun x => .v d.toNat x
        (if flag then if x = 0 then zero else run.getD (x - 1) zero else run.getD x zero).w), (run.getLast?.getD zero).stat))

/-- For every operation but FADD, the reduction tree over 1 to 64 inputs without status bits gives one value: the
inputs combined in thread order from the identity. Inactive threads, which give the identity, so leave no trace;
element t of the running results is the inputs up to t combined in order. -/
def Obligations.ReductionTrees : Prop :=
  ∀ (op : RedOp) (sgn : Bool) (l : List RedVal) (t : Nat),
    let zero : RedVal := ⟨⟨redIdentity op sgn, false⟩, 0⟩
    op ≠ .fadd → (∀ x ∈ l, x.stat = 0) →
    (l ≠ [] → l.length ≤ 64 → redTree op sgn 6 l = [l.foldl (redStep op sgn) zero]) ∧
    l.foldl (redStep op sgn) zero = (l.filter (fun x => decide (x ≠ zero))).foldl (redStep op sgn) zero ∧
    (t < l.length → (scanAll op sgn l)[t]? = some ((l.take (t + 1)).foldl (redStep op sgn) zero))

/-- SPLIT completes: with no slot pair or area it writes the first status of R158 that holds and leaves every other
register; otherwise two waves of half the width stand in the pair, the lower with 0 and the upper with 1 in the
status register, all other scalars, %fstat, the lease length and the launch copied, thread x of each with the
registers and predicates of thread x and of thread x + W/2. -/
def Obligations.SplitDivides : Prop :=
  ∀ (ctl : Ctl) (d : BitVec 8) (s : State) (c : Cur) (w : Wave), Begins (.split ctl d) s c w →
    (∀ st, splitStatus (begun s c w) c.wave (opened s c w) = (st, none) → ∃ t, exec (.split ctl d) s = .next t ∧
      sAt t c.wave d.toNat = ⟨BitVec.ofNat 32 st, false⟩ ∧
      (w.width = 4 → st = 2) ∧
      (w.width ≠ 4 → (w.paths.any fun p => p.e.kind == .path && (p.parked || p.serves.isSome)) = true → st = 4) ∧
      (w.width ≠ 4 → (w.paths.any fun p => p.e.kind == .path && (p.parked || p.serves.isSome)) = false → st = 3) ∧
      RegsKept s t (fun _ _ _ => False) (fun v r => v = c.wave ∧ r = d.toNat) (fun _ _ _ => False)) ∧
    ∀ st k area, splitStatus (begun s c w) c.wave (opened s c w) = (st, some (k, area)) → w.width ≤ 64 →
      ∃ t lo hi, exec (.split ctl d) s = .next t ∧
        t.wave? (lpOf c.wave * 16 + k) = some lo ∧ t.wave? (lpOf c.wave * 16 + k + 1) = some hi ∧
        lo.width = w.width / 2 ∧ hi.width = w.width / 2 ∧ lo.s d.toNat = ⟨0, false⟩ ∧ hi.s d.toNat = ⟨1, false⟩ ∧
        (∀ r, r ≠ d.toNat → lo.s r = w.s r ∧ hi.s r = w.s r) ∧
        (∀ r x, x < w.width / 2 → lo.v r x = w.v r x ∧ hi.v r x = w.v r (x + w.width / 2) ∧
          lo.p r x = w.p r x ∧ hi.p r x = w.p r (x + w.width / 2)) ∧
        lo.fstat = w.fstat ∧ hi.fstat = w.fstat ∧ lo.lease = w.lease ∧ hi.lease = w.lease ∧ lo.age = w.age ∧
        hi.age = w.age ∧ lo.index = w.index ∧ hi.index = w.index ∧ hi.team = w.team ∧ lo.team = w.team

/-- FUSE completes: with status 6, 5, 8 or 1 in the first order of R160 that holds; it waits 256 ticks when the buddy
has issued none; when the buddy waits at another address both get status 2; when rows 6 to 8 give k both get k; else
the even slot holds one wave of twice the width, its status register 0, thread x of the odd wave being thread W + x,
%fstat the OR of both, the window count 0. -/
def Obligations.FuseJoins : Prop :=
  ∀ (ctl : Ctl) (d a n : BitVec 8) (s : State) (c : Cur) (w : Wave), Begins (.fuse ctl d a n) s c w →
    let bid := buddyOf c.wave
    let u := begun s c w
    let Status (k : Word32) : Prop := ∃ t, exec (.fuse ctl d a n) s = .next t ∧ sAt t c.wave d.toNat = ⟨k, false⟩
    (w.unperformed = true → Status 6) ∧
    (w.unperformed = false → w.width = 64 → Status 5) ∧
    (w.unperformed = false → w.width ≠ 64 → unfitBuddy u bid = true → Status 8) ∧
    ∀ b, w.unperformed = false → w.width ≠ 64 → unfitBuddy u bid = false → s.wave? bid = some b →
      ((b.width ≠ w.width ∨ b.ctx ≠ w.ctx) → Status 1) ∧
      (b.width = w.width → b.ctx = w.ctx →
        (b.fuse = none → ∃ t f, exec (.fuse ctl d a n) s = .next t ∧ (t.wave? c.wave).map (·.fuse) = some (some f) ∧
          f.path = c.path ∧ f.dst = d.toNat ∧
          Timer.mk true (s.clk.tick + 256) (.fuseTimeout c.wave w.seq) ∈ t.sch.timers) ∧
        ∀ f, b.fuse = some f →
          (f.pc ≠ c.pc → Status 2 ∧ ∃ t, exec (.fuse ctl d a n) s = .next t ∧ sAt t bid f.dst = ⟨2, false⟩) ∧
          (∀ k, f.pc = c.pc → fuseStatus (opened s c w) b s.sch.free a.toNat n.toNat = k → k ≠ 0 →
            Status (BitVec.ofNat 32 k) ∧
            ∃ t, exec (.fuse ctl d a n) s = .next t ∧ sAt t bid f.dst = ⟨BitVec.ofNat 32 k, false⟩) ∧
          (f.pc = c.pc → fuseStatus (opened s c w) b s.sch.free a.toNat n.toNat = 0 → w.width ≤ 32 → b.unperformed = false →
            (∀ o ∈ b.owed, o.id = f.req) →
            let ev := if c.wave % 2 = 0 then c.wave else bid
            let od := if c.wave % 2 = 0 then bid else c.wave
            ∃ t x, exec (.fuse ctl d a n) s = .next t ∧ t.wave? ev = some x ∧ (od ≠ ev → t.wave? od = none) ∧
              x.width = 2 * w.width ∧ x.fstat = w.fstat ||| b.fstat ∧ x.count = 0 ∧
              x.s (if c.wave % 2 = 0 then d.toNat else f.dst) = ⟨0, false⟩ ∧
              ∀ r y, y < w.width → x.v r y = vAt s ev r y ∧ x.v r (y + w.width) = vAt s od r y ∧
                x.p r y = pAt s ev r y ∧ x.p r (y + w.width) = pAt s od r y))

/-- GROW to a budget the wave has leaves it; a GROW that the free units and the area allow completes with the budget
rounded up to a multiple of 8, the registers it had kept and every new one reading 0; SHRINK completes with the
budget max(8, min(n, b)), the registers below it kept and every other reading 0. -/
def Obligations.BudgetsChange : Prop :=
  ∀ (ctl : Ctl) (n : Src) (s : State) (c : Cur) (w : Wave),
    let size := roundUp (src32 w s.sch.free true 0 n).val.toNat 8
    let Cut (t : State) (b : Nat) : Prop := (t.wave? c.wave).map (·.budget) = some b ∧
      ∀ r x, x < 64 → vAt t c.wave r x = if r < min b w.budget then vAt s c.wave r x else {}
    (Begins (.grow ctl n) s c w → size ≤ 256 → w.width * size * 4 ≤ 65536 →
      (size ≤ w.budget → ∃ t, exec (.grow ctl n) s = .next t ∧ (t.wave? c.wave).map (·.budget) = some w.budget ∧
        RegsKept s t (fun _ _ _ => False) (fun _ _ => False) (fun _ _ _ => False)) ∧
      ∀ u, w.budget < size → growWave (begun s c w) c.wave (src32 w s.sch.free true 0 n).val.toNat (w.path c.path).e.mask
        = .done u → ∃ t, exec (.grow ctl n) s = .next t ∧ Cut t size) ∧
    (Begins (.shrink ctl n) s c w → ∃ t, exec (.shrink ctl n) s = .next t ∧
      (max 8 (min size w.budget) < w.budget → Cut t (max 8 (min size w.budget))) ∧
      (w.budget ≤ max 8 (min size w.budget) → (t.wave? c.wave).map (·.budget) = some w.budget ∧
        RegsKept s t (fun _ _ _ => False) (fun _ _ => False) (fun _ _ _ => False)))


/-! ### Control instructions (R150 to R155, R171, R236 to R239, R264 to R273) -/

/-- A BRA that every thread takes, a BRX or a RET whose threads have one target, complete with the path at that
target and its threads unchanged. A BRA that only some threads take completes with the path at the target for those:
the others stand after it on a new path that waits with it at a new meet join, or, with fewer than two entries free,
in a deferral record on top of the stack. A BRX or a RET whose threads have several targets splits the path into one
group for each, ascending, the threads that the guard of a BRX leaves out being one more, and its threads meet again
as those of a BRA do. -/
def Obligations.Branches : Prop :=
  ∀ (ctl : Ctl) (wide sc : Bool) (off : BitVec 32) (a : BitVec 8) (s : State) (c : Cur) (w : Wave),
    let p := w.path c.path
    let to_ : Int := (c.pc.toNat : Int) + 8 * off.toInt
    (Begins (.bra ctl wide off) s c w → 0 ≤ to_ → to_ < 2 ^ 52 →
      let act := actMask (.bra ctl wide off) s c w
      (act = p.e.mask → ∃ t, exec (.bra ctl wide off) s = .next t ∧
        (pathAt t c.wave c.path).e.pc = BitVec.ofInt 64 to_ ∧ (pathAt t c.wave c.path).e.mask = p.e.mask) ∧
      (act ≠ p.e.mask → 2 ≤ w.freeCount → ∃ t j h, exec (.bra ctl wide off) s = .next t ∧ w.freeEntry = some j ∧
        (pathAt t c.wave j).e.kind = .meet ∧ (pathAt t c.wave j).e.mask = p.e.mask ∧
        (pathAt t c.wave j).e.link = p.e.link ∧
        (pathAt t c.wave c.path).e.mask = act ∧ (pathAt t c.wave c.path).e.pc = BitVec.ofInt 64 to_ ∧
        (pathAt t c.wave c.path).e.link = j ∧
        (w.path h).e.kind = .free ∧ (pathAt t c.wave h).e.kind = .path ∧
        (pathAt t c.wave h).e.mask = p.e.mask &&& ~~~act ∧ (pathAt t c.wave h).e.pc = nextPc c ∧
        (pathAt t c.wave h).e.link = j) ∧
      (act ≠ p.e.mask → w.freeCount < 2 → w.defer.length < 64 → ∃ t, exec (.bra ctl wide off) s = .next t ∧
        (pathAt t c.wave c.path).e.mask = act ∧ (pathAt t c.wave c.path).e.pc = BitVec.ofInt 64 to_ ∧
        (t.wave? c.wave).map (·.defer) = some (w.defer ++ [⟨p.e.mask &&& ~~~act, nextPc c, c.path, false, false⟩]))) ∧
    (∀ target, Begins (.brx ctl sc a) s c w → actMask (.brx ctl sc a) s c w = p.e.mask →
      indirect (issOf (.brx ctl sc a) s c w) (begun s c w) sc a = .ok [(p.e.mask, target)] →
      ∃ t, exec (.brx ctl sc a) s = .next t ∧ (pathAt t c.wave c.path).e.pc = target ∧
        (pathAt t c.wave c.path).e.mask = p.e.mask) ∧
    (∀ target, Begins (.ret ctl sc a) s c w →
      indirect (issOf (.ret ctl sc a) s c w) (begun s c w) sc a = .ok [(p.e.mask, target)] →
      (p.serves.isNone && w.joins c.path && (w.path p.e.link).e.kind == .ret && (w.path p.e.link).e.pc == target) = false →
      ∃ t, exec (.ret ctl sc a) s = .next t ∧ (pathAt t c.wave c.path).e.pc = target ∧
        (pathAt t c.wave c.path).e.mask = p.e.mask) ∧
    (∀ gs, Begins (.brx ctl sc a) s c w → c.path < w.paths.length →
      indirect (issOf (.brx ctl sc a) s c w) (begun s c w) sc a = .ok gs →
      let rest : Word64 := if sc then 0 else p.e.mask &&& ~~~actMask (.brx ctl sc a) s c w
      let before (g : Group) : Bool := decide (g.2.toNat ≤ (nextPc c).toNat)
      let all : List Group := if rest = 0 then gs else gs.takeWhile before ++ (rest, nextPc c) :: gs.dropWhile before
      SplitFits w all → ∃ t v, exec (.brx ctl sc a) s = .next t ∧ t.wave? c.wave = some v ∧ SplitInto w v c.path all .meet 0) ∧
    (∀ gs, Begins (.ret ctl sc a) s c w → c.path < w.paths.length →
      indirect (issOf (.ret ctl sc a) s c w) (begun s c w) sc a = .ok gs →
      (p.serves.isNone && w.joins c.path && (w.path p.e.link).e.kind == .ret &&
        gs.any (fun g => g.2 == (w.path p.e.link).e.pc)) = false →
      SplitFits w gs → ∃ t v, exec (.ret ctl sc a) s = .next t ∧ t.wave? c.wave = some v ∧ SplitInto w v c.path gs .meet 0)

/-- Where no target of an active thread fails its check, the groups of an indirect branch have strictly rising
targets, and every active thread, and no other, is in the one group of its own target; in S form the whole path is
one group. -/
def Obligations.IndirectTargets : Prop :=
  ∀ (x : Iss) (s : State) (sc : Bool) (a : BitVec 8) (gs : List Group), indirect x s sc a = .ok gs →
    gs.Pairwise (fun g h => g.2.toNat < h.2.toNat) ∧
    (sc = true → gs = [(x.p.e.mask, (srcX x.w s.sch.free a).1)]) ∧
    (sc = false → ∀ g ∈ gs, ∀ n, n < 64 →
      (has g.1 n = true ↔ has x.act n = true ∧ (x.w.readW s.sch.free a.toNat n).1 = g.2)) ∧
    (sc = false → ∀ n, n < 64 → has x.act n = true → ∃ g ∈ gs, has g.1 n = true)

/-- A CALL or a CALLX with one target for the whole path, whose header declares a budget the wave has, completes with
the address after it in w6 of each linked thread and the path at the instruction behind the header; a CALLX with
several targets splits the path into one group behind each header, under a return join that names the address after
it. TRAMP n and TRAMPRET n of a valid entry complete with the path at its target, or at its return address. -/
def Obligations.Calls : Prop :=
  ∀ (ctl : Ctl) (wide sc back : Bool) (off : BitVec 32) (a : BitVec 8) (n : BitVec 24) (s : State) (c : Cur) (w : Wave),
    let p := w.path c.path
    let Enters (i : Instr) (target : Word64) (link : Word64) : Prop :=
      ∀ k u v, headerBudgets (begun s c w) c.wave (opened s c w) c.path (actMask i s c w) [target] = .ok k u →
        k ≤ w.budget → u.wave? c.wave = some v → c.path < v.paths.length →
        ∃ t, exec i s = .next t ∧ (pathAt t c.wave c.path).e.pc = target + 8 ∧
          (pathAt t c.wave c.path).e.mask = p.e.mask ∧
          ∀ x ∈ threads link, HoldsAll t c.wave (wW 6 x (nextPc c) false)
    (∀ target, Begins (.call ctl wide off) s c w →
      relTarget (issOf (.call ctl wide off) s c w) off = .ok target →
      Enters (.call ctl wide off) target (actMask (.call ctl wide off) s c w)) ∧
    (∀ target, Begins (.callx ctl sc a) s c w →
      indirect (issOf (.callx ctl sc a) s c w) (begun s c w) sc a = .ok [(p.e.mask, target)] →
      Enters (.callx ctl sc a) target (if sc then p.e.mask else actMask (.callx ctl sc a) s c w)) ∧
    (∀ gs k u v, let i : Instr := .callx ctl sc a
      Begins i s c w → indirect (issOf i s c w) (begun s c w) sc a = .ok gs →
      headerBudgets (begun s c w) c.wave (opened s c w) c.path (actMask i s c w) (gs.map (·.2)) = .ok k u →
      k ≤ w.budget → u.wave? c.wave = some v → c.path < v.paths.length → SplitFits v gs →
      ∃ t y, exec i s = .next t ∧ t.wave? c.wave = some y ∧
        SplitInto v y c.path (gs.map fun g => (g.1, g.2 + 8)) .ret (nextPc c) ∧
        ∀ x ∈ threads (if sc then p.e.mask else actMask i s c w), HoldsAll t c.wave (wW 6 x (nextPc c) false)) ∧
    (∀ x bs u, let i : Instr := if back then .trampret ctl n else .tramp ctl n
      Begins i s c w → s.ctx? w.ctx = some x → n.toNat < x.conf.trampn →
      readOrdered (begun s c w) c.wave (opened s c w) c.path (x.conf.trampt + BitVec.ofNat 64 (16 * n.toNat)) 16 pR
        = .ok (bs, false) u →
      ownStop (issOf i s c w) (begun s c w) true false (x.conf.trampt + BitVec.ofNat 64 (16 * n.toNat)) 16 = none →
      let target : Word64 := BitVec.ofNat 64 (fieldAt bs 0 8)
      let ret : Word64 := BitVec.ofNat 64 (fieldAt bs 8 8)
      bits ret 0 3 = 1 → bits target 52 12 = 0 → bits ret 52 12 = 0 → (back = false → bits target 0 3 = 0) →
      ∃ t, exec i s = .next t ∧
        (pathAt t c.wave c.path).e.pc = (if back then ret &&& ~~~7 else target) ∧
        (pathAt t c.wave c.path).e.mask = p.e.mask)

/-- MEET, and RET by every thread of a path that is no handler to the address of the return join, complete. Each
deferred side of the path that has run is taken back into it, and its record is gone. A side that has not run runs
next: the path takes its record, which keeps the threads that have met and their address. With no such side and no
join, MEET moves on. With a join, the path waits there while another path linked to it is still on its way, and when
all have come the lowest entry goes on with the threads of all, the join is free. Where other threads of a RET name
other addresses, those leave the return join as paths of the join around it. -/
def Obligations.Joins : Prop :=
  ∀ (ctl : Ctl) (sc ret : Bool) (a : BitVec 8) (s : State) (c : Cur) (w : Wave),
    let i : Instr := if ret then .ret ctl sc a else .meet ctl
    let p := w.path c.path
    let q := w.path p.e.link
    let on := if ret then q.e.pc else nextPc c
    let met := popDone 65 w.defer c.path ret p.e.mask
    let ds := met.1
    Begins i s c w → armedAt s c w = false → c.path < 16 → w.defer.length ≤ 64 →
    ((ret = true → p.serves = none ∧ w.joins c.path = true ∧ q.e.kind = .ret ∧
        indirect (issOf i s c w) (begun s c w) sc a = .ok [(p.e.mask, q.e.pc)]) →
      (ret = false → w.joins c.path = false → newestDefer ds c.path false = none →
        ∃ t x, exec i s = .next t ∧ t.wave? c.wave = some x ∧ (x.path c.path).e = { p.e with pc := nextPc c, mask := met.2 } ∧
          x.defer = ds) ∧
      (∀ k r, newestDefer ds c.path ret = some (k, r) → r.phase = false →
        ∃ t x, exec i s = .next t ∧ t.wave? c.wave = some x ∧ (x.path c.path).e.mask = r.mask ∧
          (x.path c.path).e.pc = r.pc ∧
          x.defer = ds.set k { r with mask := met.2, pc := if ret then q.e.pc else c.pc, phase := true }) ∧
      (newestDefer ds c.path ret = none → w.joins c.path = true → (q.e.kind = .meet ∨ q.e.kind = .ret) →
        ((∃ j, j < 16 ∧ j ≠ c.path ∧ (w.path j).e.kind ≠ .free ∧ (w.path j).e.link = p.e.link ∧
            ¬((w.path j).e.kind = .path ∧ ((w.path j).e.state = .atMeet ∨ (w.path j).e.state = .atReturn))) →
          ∃ t x, exec i s = .next t ∧ t.wave? c.wave = some x ∧ x.defer = ds ∧ (x.path c.path).e =
            { p.e with pc := on, mask := met.2, state := if ret then .atReturn else .atMeet }) ∧
        ((∀ j, j < 16 → j ≠ c.path → (w.path j).e.kind ≠ .free → (w.path j).e.link = p.e.link →
            (w.path j).e.kind = .path ∧ ((w.path j).e.state = .atMeet ∨ (w.path j).e.state = .atReturn)) →
          ∃ t m, exec i s = .next t ∧ (linked w p.e.link).head? = some m ∧
            (pathAt t c.wave m).e.kind = .path ∧ (pathAt t c.wave m).e.link = q.e.link ∧
            (∀ x, x < 64 → has (pathAt t c.wave m).e.mask x =
              (has met.2 x || (linked w p.e.link).any (fun j => has (w.path j).e.mask x))) ∧
            (q.e.kind = .ret → (pathAt t c.wave m).e.pc = q.e.pc) ∧
            (pathAt t c.wave p.e.link).e.kind = .free ∧
            ∀ j ∈ linked w p.e.link, j ≠ m → (pathAt t c.wave j).e.kind = .free))) ∧
    (∀ gs, ret = true → p.serves = none → w.joins c.path = true → q.e.kind = .ret →
      indirect (issOf i s c w) (begun s c w) sc a = .ok gs → (∃ g ∈ gs, g.2 = q.e.pc) →
      gs.length ≤ w.freeCount + 1 →
      ∃ t, exec i s = .next t ∧ ∀ g ∈ gs, g.2 ≠ q.e.pc → ∃ h, (w.path h).e.kind = .free ∧ (pathAt t c.wave h).e =
        { kind := .path, state := .ready, link := q.e.link, pc := g.2, mask := g.1 })

/-- EXIT completes; after it no entry of the path table and no deferral record holds a thread that it ended, and
every other thread that a path or a deferral record held is still held by one. -/
def Obligations.ExitLeaves : Prop :=
  ∀ (ctl : Ctl) (s : State) (c : Cur) (w : Wave), Begins (.exit ctl) s c w →
    let act := actMask (.exit ctl) s c w
    let Held (x : Wave) (n : Nat) : Prop := (∃ i, i < 16 ∧ (x.path i).e.kind = .path ∧ has (x.path i).e.mask n = true) ∨
      ∃ r ∈ x.defer, has r.mask n = true
    ∃ t x, exec (.exit ctl) s = .next t ∧ t.wave? c.wave = some x ∧
      (∀ i, i < 16 → (x.path i).e.kind ≠ .free → (x.path i).e.mask &&& act = 0) ∧ (∀ r ∈ x.defer, r.mask &&& act = 0) ∧
      ∀ n, n < 64 → has act n = false → (Held x n ↔ Held w n)

/-- NOP, YIELD, PFC and MARK complete and the path goes on after them, every register unchanged by NOP, YIELD and
MARK; NOP leaves memory and the system as it is; YIELD n keeps its path off for n cycles; MARK appends one trace
record when the trace is on and its queue has room, and counts one lost when it has none; REP makes the group of its
operands the current one and changes nothing else. -/
def Obligations.PlainPathInstructions : Prop :=
  ∀ (ctl : Ctl) (len : Len) (n : BitVec 8) (a : BitVec 8) (lines : BitVec 16) (block : BitVec 24) (s : State) (c : Cur)
    (w : Wave),
    let Goes (i : Instr) (P : State → Prop) : Prop := Begins i s c w → c.rep = false → ∃ t, exec i s = .next t ∧
      (pathAt t c.wave c.path).e.pc = nextPc c ∧ (pathAt t c.wave c.path).e.mask = (w.path c.path).e.mask ∧
      RegsKept s t (fun _ _ _ => False) (fun _ _ => False) (fun _ _ _ => False) ∧ P t
    Goes (.nop ctl len) (fun t => MemKept s t ∧ SysKept s t) ∧
    Goes (.yield ctl n) (fun t => MemKept s t ∧ SysKept s t ∧ (n ≠ 0 →
      (pathAt t c.wave c.path).yieldTo = s.clk.cycle + n.toNat + 1 ∧
      Timer.mk false (s.clk.cycle + (n.toNat + 1)) (.yieldExpiry c.wave c.path) ∈ t.sch.timers)) ∧
    (Begins (.pfc ctl a lines) s c w → c.rep = false → ∃ t, exec (.pfc ctl a lines) s = .next t ∧
      (w.win = none → (pathAt t c.wave c.path).e.pc = nextPc c)) ∧
    Goes (.mark ctl block) (fun t => MemKept s t ∧ ∀ x, s.ctx? w.ctx = some x →
      let k := s.core (coreOf c.wave)
      let k' := t.core (coreOf c.wave)
      (bit x.obsCtl 0 = false → k' = k) ∧
      (bit x.obsCtl 0 = true → k.traceQ.length < 64 → k'.traceQ = k.traceQ ++ [traceOf s c.wave w block]) ∧
      (bit x.obsCtl 0 = true → 64 ≤ k.traceQ.length → k'.traceQ = k.traceQ ∧
        Sp.get 0 k'.lostQ w.ctx = Sp.get 0 k.lostQ w.ctx + 1)) ∧
    ∀ (count : BitVec 6) (x y z : BitVec 3), s.sch.cur = some c → s.wave? c.wave = some w →
      exec (.rep count x y z) s = .next (s.setWave c.wave (w.setPath c.path { w.path c.path with
        rep := some { pos := c.base, count := count.toNat, idst := x, isa := y, isb := z, idx := 0 } }))

/-- SRD completes in both forms and widths; every register it writes holds the special register that its selector
names. -/
def Obligations.SpecialReads : Prop :=
  ∀ (ctl : Ctl) (sc w64 : Bool) (d sel : BitVec 8) (v : Nat → Word64) (s : State) (c : Cur) (w : Wave),
    let core := coreOf c.wave
    let l := s.lp (lpOf c.wave)
    let nat (n : Nat) : Word64 := BitVec.ofNat 64 n
    (sel.toNat, v) ∈ [(0x00, nat), (0x01, fun _ => nat w.width), (0x02, fun _ => nat c.wave), (0x03, fun _ => nat c.path),
      (0x04, fun _ => nat (core % 32)), (0x05, fun _ => nat (core / 32)), (0x06, fun _ => s.dev.devId.setWidth 64),
      (0x07, fun _ => nat w.ctx), (0x08, fun _ => nat w.index), (0x10, fun _ => s.ctxTime w.ctx),
      (0x11, fun _ => nat (ptsOf s core w.ctx) + (match s.ctx? w.ctx with | some x => x.conf.toff | none => 0)),
      (0x12, fun _ => nat s.clk.cycle),
      (0x13, fun _ => if (w.path c.path).serves.isSome then (w.path c.path).trec else 0),
      (0x18, fun _ => w.fstat.setWidth 64), (0x24, fun _ => w.cprog.setWidth 64),
      (0x5C, fun _ => nat (s.clk.cycle - l.busy) + l.idle), (0x5D, fun _ => l.slip)] ++
      (List.range 4).map (fun k => (0x20 + k, fun _ => (Sp.get 0 (s.core core).mprog k).setWidth 64)) ++
      (List.range 17).map (fun k => (0x40 + k, fun _ => Sp.get 0 l.hist k)) ++
      (List.range 11).map (fun k => (0x51 + k, fun _ => Sp.get 0 l.stall (k + 1))) →
    Begins (.srd ctl sc w64 d sel) s c w → ∃ t, exec (.srd ctl sc w64 d sel) s = .next t ∧
      ∀ x ∈ lanesOf sc (actMask (.srd ctl sc w64 d sel) s c w), HoldsAll t c.wave
        (if w64 then dst64 sc d x (v x, false) else dst32 sc d x ⟨(v x).setWidth 32, false⟩)

/-- SWR completes for every writable special register, waiting only for the operation that a progress register
describes; the register then reads as what was written, %fstat in bits [5:0], %mprogk in [31:30] and [19:0], %cprog
in [31:30] and [23:0], the counters in full. -/
def Obligations.SpecialWrites : Prop :=
  ∀ (ctl : Ctl) (w64 : Bool) (sel a : BitVec 8) (m : Word64) (s : State) (c : Cur) (w : Wave),
    (sel.toNat, w64, m) ∈ [(0x18, false, 0x3F), (0x24, false, 0xC0FFFFFF)] ++
      (List.range 4).map (fun k => (0x20 + k, false, 0xC00FFFFF)) ++
      (List.range 30).map (fun k => (0x40 + k, true, 0xFFFFFFFFFFFFFFFF)) →
    (sel = 0x24 → progBusy w.cprog = false) →
    (0x20 ≤ sel.toNat → sel.toNat < 0x24 → progBusy (Sp.get 0 (s.core (coreOf c.wave)).mprog (sel.toNat - 0x20)) = false) →
    Begins (.swr ctl w64 sel a) s c w → ∃ t x, exec (.swr ctl w64 sel a) s = .next t ∧ t.wave? c.wave = some x ∧
      specialRead t c x sel.toNat = m &&& (if w64 then (srcX w s.sch.free a).1
        else (srcS w s.sch.free a).val.setWidth 64)


/-! ### Memory and synchronisation instructions (R107, R108, R285 to R304) -/

/-- LD, ST, LDL, STL, PRF, ATOM, CAS, CADD, CRFLUSH, BINIT, BARV, BDROP, BTEST and CNTADD complete their issue in
every form; their access then waits to be performed, with one lane for each thread they act for: its address is the
pointer of the thread plus the offset, its data and poison those of the registers named. -/
def Obligations.AccessesIssue : Prop :=
  ∀ (z : MSize) (o : Mem) (k : BitVec 3) (op : AOp) (cop : COp) (sgn nr : Bool) (m : Atm) (ctl : Ctl) (a d : BitVec 8)
    (off : BitVec 32) (e : EArg) (r : Arr) (inc : Src),
    let load (w : Wave) (free : Nat) (act : Word64) : List Lane := (lanesOf o.s act).map fun x =>
      { tid := x, ptr := (addr w free o.s o.ptr o.off x).1, pointer := (addr w free o.s o.ptr o.off x).2 }
    let store (n : Nat) (w : Wave) (free : Nat) (act : Word64) : List Lane := (lanesOf o.s act).map fun x =>
      let v := joinWords (regWords w free o.s o.dst.toNat x n)
      { tid := x, ptr := (addr w free o.s o.ptr o.off x).1, pointer := (addr w free o.s o.ptr o.off x).2, d0 := v.1,
        poison := v.2 }
    let value (w : Wave) (free x : Nat) (v : Src) : Word64 × Bool := if m.wide then src64 w free m.s x false v
      else ((src32 w free m.s x v).val.setWidth 64, (src32 w free m.s x v).poison)
    let one (b : BitVec 8) (n : BitVec 32) (v : Wave → Nat → Word64 → VWord) (w : Wave) (free : Nat) (act : Word64) :
        List Lane := [{ tid := 0, ptr := (addr w free true b n 0).1, pointer := (addr w free true b n 0).2,
                        d0 := (v w free act).val.setWidth 128, poison := (v w free act).poison }]
    let count (w : Wave) (free : Nat) (act : Word64) : VWord := match r.cnt with
      | some n => srcS w free n
      | none => ⟨BitVec.ofNat 32 (popcount act), false⟩
    Issues (.ld z o) load ∧ Issues (.ldl z o) load ∧
    Issues (.st z o) (store (match z with | .n128 => 4 | .n64 => 2 | _ => 1)) ∧
    Issues (.stl z o) (store (match z with | .n128 => 4 | .n64 => 2 | _ => 1)) ∧
    Issues (.cadd cop o) (store 1) ∧
    Issues (.prf k o) (fun w free act => (lanesOf o.s act).flatMap fun x => (List.range (k.toNat + 1)).map fun i =>
      { tid := x, ptr := ((addr w free o.s o.ptr o.off x).1 &&& ~~~127) + BitVec.ofNat 64 (128 * i),
        pointer := (addr w free o.s o.ptr o.off x).2 }) ∧
    Issues (.atom op sgn nr m) (fun w free act => (lanesOf m.s act).map fun x =>
      { tid := x, ptr := (addr w free m.s m.ptr 0 x).1, pointer := (addr w free m.s m.ptr 0 x).2,
        d0 := (value w free x m.val).1.setWidth 128, poison := (value w free x m.val).2 }) ∧
    Issues (.cas m) (fun w free act => (lanesOf m.s act).map fun x =>
      { tid := x, ptr := (addr w free m.s m.ptr 0 x).1, pointer := (addr w free m.s m.ptr 0 x).2,
        d0 := (value w free x m.val).1.setWidth 128, d1 := (value w free x m.new).1,
        poison := (value w free x m.val).2 || (value w free x m.new).2 }) ∧
    Issues (.crflush ctl k) (fun _ _ _ => [{ tid := 0, ptr := 0 }]) ∧
    Issues (.binit ctl a off e) (one a off fun w free _ => match e with
      | .imm n => ⟨n.setWidth 32, false⟩
      | .reg n => srcS w free n) ∧
    Issues (.barv r) (one r.ptr r.off count) ∧ Issues (.bdrop r) (one r.ptr r.off count) ∧
    Issues (.btest ctl d a off) (one a off fun _ _ _ => {}) ∧
    Issues (.cntadd ctl a inc) (fun w free _ =>
      let p := addr w free true a 0 0
      let v := src64 w free true 0 false inc
      [{ tid := 0, ptr := p.1, pointer := p.2, d0 := v.1.setWidth 128, poison := v.2 }])

/-- LEASE completes with its immediate, or its register clamped to 1 to 255, as the lease of the wave; FENCE once a
seal has been taken, with the undo log of its partition empty when it takes the seal itself. CRANGE completes with
the first status that holds and nothing declared; else, once the partials of what the slot declared are combined (at
once where it declared nothing, under a seal where one of those lines asks for it), with status 0 and the slot
declared as given, undeclared for LEN 0. The statuses, in order: 1 a base that is no global pointer aligned to 128,
which is how the model settles R20 and R294 (log 56); then for a LEN other than 0: 2 a LEN that is not a multiple of
128 or exceeds 1 MiB; 3 a POFF that is not a multiple of 128 or a partial area above LSTATIC; 4 an overlap with the
range of another slot; 5 an overlap with its partial area; and 0 otherwise, and always for LEN 0 with a good base. -/
def Obligations.LeasesFencesRanges : Prop :=
  (∀ (ctl : Ctl) (n : NArg) (op : COp) (slot : BitVec 3) (d a : BitVec 8) (len poff : BitVec 32) (s : State) (c : Cur)
    (w : Wave),
    (Begins (.lease ctl n) s c w → ∃ t, exec (.lease ctl n) s = .next t ∧ (t.wave? c.wave).map (·.lease) = some
      (match n with | .imm v => v.toNat | .reg r => max 1 (min 255 (srcS w s.sch.free r).val.toNat))) ∧
    (BeginsSealed (.fence ctl) s c w → ∃ t, exec (.fence ctl) s = .next t ∧ ((w.path c.path).sealed = false →
      ∀ p, (begun s c w).part? (rootOf (begun s c w) w.ctx) = some p →
        (t.part? (rootOf (begun s c w) w.ctx)).map (·.log) = some [])) ∧
    ∀ x p, let i : Instr := .crange ctl op slot d a len poff
      Begins i s c w → s.ctx? w.ctx = some x → srcX w s.sch.free a = (p, false) →
      let r : CRange := { base := p, len := len.toNat, op := op, poff := poff.toNat }
      let k := slot.toNat
      let Declares : Prop := ∃ t z, exec i s = .next t ∧ sAt t c.wave d.toNat = ⟨0, false⟩ ∧ t.ctx? w.ctx = some z ∧
        Sp.find z.cranges k = (if len = 0 then none else some r)
      (rangeStatus x k r ≠ 0 → ∃ t, exec i s = .next t ∧ sAt t c.wave d.toNat = ⟨BitVec.ofNat 32 (rangeStatus x k r), false⟩ ∧
        (t.ctx? w.ctx).map (·.cranges) = some x.cranges) ∧
      (rangeStatus x k r = 0 → Sp.find x.cranges k = none → Declares) ∧
      ∀ old u v y, rangeStatus x k r = 0 → Sp.find x.cranges k = some old →
        let seals := runSeals (begun s c w) w.ctx k (old.len / 128)
        (seals = true → BeginsSealed i s c w) →
        combineRun (if seals then underSeal s c w else begun s c w) w.ctx k 0 (old.len / 128) = .ok none u →
        u.wave? c.wave = some v → u.ctx? w.ctx = some y → Declares) ∧
  ∀ (x : Ctx) (k : Nat) (r : CRange),
    let others := x.cranges.filter (fun y => y.1 != k)
    let b1 : Prop := spaceOf r.base ≠ 0 ∨ mustZero r.base = false ∨ r.base.toNat % 128 ≠ 0
    let b2 : Prop := r.len % 128 ≠ 0 ∨ 0x100000 < r.len
    let b3 : Prop := r.poff % 128 ≠ 0 ∨ x.conf.lstatic < r.poff + partialBytes r
    let b4 : Prop := ∃ y ∈ others, r.base.toNat < y.2.base.toNat + y.2.len ∧ y.2.base.toNat < r.base.toNat + r.len
    let b5 : Prop := ∃ y ∈ others, r.poff < y.2.poff + partialBytes y.2 ∧ y.2.poff < r.poff + partialBytes r
    (b1 → rangeStatus x k r = 1) ∧ (¬b1 → r.len = 0 → rangeStatus x k r = 0) ∧
    (r.len ≠ 0 → (¬b1 → b2 → rangeStatus x k r = 2) ∧ (¬b1 → ¬b2 → b3 → rangeStatus x k r = 3) ∧
      (¬b1 → ¬b2 → ¬b3 → b4 → rangeStatus x k r = 4) ∧ (¬b1 → ¬b2 → ¬b3 → ¬b4 → b5 → rangeStatus x k r = 5) ∧
      (¬b1 → ¬b2 → ¬b3 → ¬b4 → ¬b5 → rangeStatus x k r = 0))

/-- ARRIVE, for n arrivals at an object: BAR_MISUSE 2 for a nonzero reserved bit or EXPECT 0, BAR_MISUSE 3 for a
count of 0 or above 4,095, BAR_OVERRUN with OVERRUN set and nothing else changed for more arrivals than are expected;
fewer add to ARRIVED, those of BDROP to DROP too, and leave the rest; the last ones take DROP off EXPECT, clear DROP
and ARRIVED, advance PHASE and COMPLETIONS and set LASTWAVE. An object whose DROP exceeds its ARRIVED is one that no
arrivals give. -/
def Obligations.BarrierArrivals : Prop :=
  ∀ (o : BitVec 128) (n wid free : Nat) (drop : Bool) (p : Word64),
    let expect := (bits o 0 12).toNat
    let arrived := (bits o 12 12).toNat
    let dropped := (bits o 28 12).toNat + (if drop then n else 0)
    let misuse : Prop := bits o 96 32 ≠ 0 ∨ bits o 41 7 ≠ 0 ∨ expect = 0
    let fair : Prop := ¬misuse ∧ n ≠ 0 ∧ n ≤ 4095 ∧ (bits o 28 12).toNat ≤ arrived
    (misuse → arriveAt o n drop wid p free = (none, some (barFault Code.BAR_MISUSE 2 p))) ∧
    (¬misuse → n = 0 ∨ 4095 < n → arriveAt o n drop wid p free = (none, some (barFault Code.BAR_MISUSE 3 p))) ∧
    (fair → expect < arrived + n → ∃ q, arriveAt o n drop wid p free = (some q, some (barFault Code.BAR_OVERRUN 0 p)) ∧
      bit q 40 = true ∧ bits q 0 40 = bits o 0 40 ∧ bits q 41 87 = bits o 41 87) ∧
    (fair → arrived + n < expect → ∃ q, arriveAt o n drop wid p free = (some q, none) ∧ bits q 0 12 = bits o 0 12 ∧
      (bits q 12 12).toNat = arrived + n ∧ bits q 24 4 = bits o 24 4 ∧ (bits q 28 12).toNat = dropped ∧
      bits q 40 88 = bits o 40 88) ∧
    (fair → arrived + n = expect → ∃ q, arriveAt o n drop wid p free = (some q, none) ∧
      (bits q 0 12).toNat + dropped = expect ∧ bits q 12 12 = 0 ∧ bits q 24 4 = bits o 24 4 + 1 ∧ bits q 28 12 = 0 ∧
      bit q 40 = bit o 40 ∧ bits q 41 7 = 0 ∧ bits q 48 16 = BitVec.ofNat 16 wid ∧
      bits q 64 32 = bits o 64 32 + 1 ∧ bits q 96 32 = 0)

/-- BWAIT and WAITGE whose first load reads their object complete: where the phase differs, or the counter has
reached the target, with the predicate true in every active thread; where the bound of ticks is 0, with it false;
otherwise the path counts and polls again in 4 ticks. -/
def Obligations.PollsEnd : Prop :=
  ∀ (ctl : Ctl) (d a : BitVec 8) (ph : BitVec 4) (off ticks : BitVec 32) (tgt : Src) (bar : Bool) (s : State) (c : Cur)
    (w : Wave) (bs : List Byte) (pz : Bool) (u : State) (v : Wave),
    let i : Instr := if bar then .bwait ctl d a ph off ticks else .waitge ctl d a tgt ticks
    let p := if bar then addr w s.sch.free true a off 0 else addr w s.sch.free true a 0 0
    let g : Word64 × Bool := if bar then (0, false) else src64 w s.sch.free true 0 false tgt
    let q : Poll := { instr := i, id := w.seq, pc := c.pc, addr := p.1, mask := actMask i s c w, target := g.1,
                      poison := g.2, deadline := s.clk.tick + ticks.toNat, quiet := (w.path c.path).noMatch }
    let met : Bool := if bar then bits (BitVec.ofNat 128 (leNat bs)) 24 4 != ph else decide (g.1.toNat ≤ leNat bs)
    Begins i s c w → p.2 = false → pollLoad (begun s c w) c.wave c.path q = .got bs pz u → u.wave? c.wave = some v →
    (met = true ∨ s.clk.tick + ticks.toNat ≤ u.clk.tick → ∃ t, exec i s = .next t ∧
      ∀ x ∈ threads (actMask i s c w), pAt t c.wave d.toNat x = ⟨met, pz || g.2⟩) ∧
    (met = false → u.clk.tick < s.clk.tick + ticks.toNat → c.path < v.paths.length →
      ∃ t, exec i s = .next t ∧ (pathAt t c.wave c.path).poll = some q ∧
        Timer.mk true (u.clk.tick + 4) (.pollRecheck c.wave c.path) ∈ t.sch.timers)

/-- TNEW completes with the local pointer of the arena it takes at the lowest free team number, the wave then being
its member, or with 0xE000000000000000 plus 3, 1 or 2 in that order of their conditions. TJOIN completes with status
2 or 1, or with 0 and the wave a member of the team of that arena. TLEAVE completes with the wave in no team and out
of its members. -/
def Obligations.TeamsForm : Prop :=
  ∀ (ctl : Ctl) (d a : BitVec 8) (size : Src) (s : State) (c : Cur) (w : Wave),
    let core := coreOf c.wave
    let v := src32 w s.sch.free true 0 size
    let n := roundUp (max 1 v.val.toNat) 128
    let free := (List.range 64).find? (fun i => (Sp.find (s.core core).teams i).isNone)
    let Gives (p : Word64) (P : State → Prop) : Prop := ∃ t, exec (.tnew ctl d size) s = .next t ∧
      HoldsAll t c.wave (wX d.toNat p v.poison) ∧ P t
    (Begins (.tnew ctl d size) s c w →
      (w.team ≠ none → Gives 0xE000000000000003 fun _ => True) ∧
      (w.team = none → free = none → Gives 0xE000000000000001 fun _ => True) ∧
      (∀ i, w.team = none → free = some i →
        (0x400000 < n ∨ fitArena (begun s c w) core w.ctx n = none → Gives 0xE000000000000002 fun _ => True) ∧
        (∀ base, n ≤ 0x400000 → fitArena (begun s c w) core w.ctx n = some base →
          Gives (BitVec.ofNat 64 (0x2000000000000000 + base)) fun t =>
            (t.wave? c.wave).map (·.team) = some (some (core * 64 + i)) ∧
            Sp.find (t.core core).teams i = some { ctx := w.ctx, base := base, size := n, members := [c.wave] }))) ∧
    (Begins (.tjoin ctl d a) s c w → ∀ p, srcX w s.sch.free a = (p, false) →
      let found := (s.core core).teams.find? (fun t => t.2.ctx == w.ctx && arenaPtr t.2.base == p && !t.2.members.isEmpty)
      let Says (k : Word32) (P : State → Prop) : Prop := ∃ t, exec (.tjoin ctl d a) s = .next t ∧
        sAt t c.wave d.toNat = ⟨k, false⟩ ∧ P t
      (w.team ≠ none → Says 2 fun _ => True) ∧ (w.team = none → found = none → Says 1 fun _ => True) ∧
      ∀ y, w.team = none → found = some y → Says 0 fun t =>
        (t.wave? c.wave).map (·.team) = some (some (core * 64 + y.1))) ∧
    (Begins (.tleave ctl) s c w → ∃ t, exec (.tleave ctl) s = .next t ∧ (t.wave? c.wave).map (·.team) = some none ∧
      ∀ m, w.team = some m → ∀ y, t.team? m = some y → c.wave ∉ y.members)

/-- LAUNCH whose record meets no breakpoint completes: inside a speculation window it waits in the launch buffer of
the core, which holds 8; outside, a record that passes its checks enters the jobs of the context as enqueue states. -/
def Obligations.LaunchesQueue : Prop :=
  ∀ (ctl : Ctl) (a : BitVec 8) (s : State) (c : Cur) (w : Wave) (p : Word64), Begins (.launch ctl a) s c w →
    srcX w s.sch.free a = (p, false) → launchStop (issOf (.launch ctl a) s c w) (begun s c w) p = none →
    let k := s.core (coreOf c.wave)
    ((opened s c w).win.isSome → (k.launches.filter fun h => h.refused.isNone).length < 8 → ∃ t, exec (.launch ctl a) s = .next t ∧
      (t.core (coreOf c.wave)).launches = k.launches ++
        [{ wave := c.wave, id := w.seq, path := c.path, pc := c.pc, ptr := p }]) ∧
    ∀ r u v, (opened s c w).win = none → (k.launches.any fun h => h.wave == c.wave && h.refused.isNone) = false →
      readLaunch (begun s c w) (whoOf c.wave (opened s c w)) p = .ok r u → enqueue u w.ctx r = some v →
      ∃ t, exec (.launch ctl a) s = .next t ∧ (t.ctx? w.ctx).map (·.jobs) = (v.ctx? w.ctx).map (·.jobs)

/-- A record with a wait counter joins the waiting jobs unless 1,024 wait; without one it is refused when its queue
holds 512, joins an open grid that takes it when it is an aggregate of one, and else becomes a new queued job, or an
open grid, at the tail. A record of no waves that reaches its queue completes at once: no job of it is left where it
names no completion counter, and else a job without waves that owes the counter its INCR, the increment being due. -/
def Obligations.QueuesTake : Prop :=
  ∀ (s : State) (c : Nat) (r : LaunchRec) (x : Ctx), s.ctx? c = some x →
    (r.waitOn = true → 1024 ≤ (x.jobs.filter fun j => j.state == .waiting).length → enqueue s c r = none) ∧
    (r.waitOn = true → (x.jobs.filter fun j => j.state == .waiting).length < 1024 → ∃ t y, enqueue s c r = some t ∧
      t.ctx? c = some y ∧ y.jobs = x.jobs ++ [{ id := s.sch.nextId, lr := r, members := [r], state := .waiting }] ∧
      .waitCounterPoll c s.sch.nextId ∈ t.sch.agenda) ∧
    (r.waitOn = false → 512 ≤ queueLength x r.queue → enqueue s c r = none) ∧
    (r.waitOn = false → queueLength x r.queue < 512 → r.count = 0 → ∃ t y, enqueue s c r = some t ∧ t.ctx? c = some y ∧
      (r.doneOn = false → (∀ j ∈ x.jobs, j.id < s.sch.nextId) → y.jobs = x.jobs) ∧
      (r.doneOn = true → .waitCounterRetry c s.sch.nextId ∈ t.sch.agenda ∧ ∃ j ∈ y.jobs, j.id = s.sch.nextId ∧
        j.state = .placed ∧ j.alive = 0 ∧ j.dues = [{ cnt := r.doneCnt, incr := r.incr }])) ∧
    (r.waitOn = false → queueLength x r.queue < 512 → r.count ≠ 0 →
      ((r.aggregate && r.count == 1) = false → ∃ t y, enqueue s c r = some t ∧ t.ctx? c = some y ∧
        y.jobs = x.jobs ++ [{ id := s.sch.nextId, lr := r, members := [r], state := .queued, arrived := s.clk.cycle }] ∧
        .dispatchPlacement c ∈ t.sch.agenda) ∧
      ((r.aggregate && r.count == 1) = true → x.jobs.find? (fun j => joins s.clk.cycle j r) = none →
        ∃ t y j, enqueue s c r = some t ∧ t.ctx? c = some y ∧ j ∈ y.jobs ∧ j.state = .grid ∧ j.members = [r] ∧
          Timer.mk false (s.clk.cycle + 256) (.gridClose c r.queue) ∈ t.sch.timers) ∧
      (∀ g, (r.aggregate && r.count == 1) = true → x.jobs.find? (fun j => joins s.clk.cycle j r) = some g →
        ∃ t y j, enqueue s c r = some t ∧ t.ctx? c = some y ∧ j ∈ y.jobs ∧ j.id = g.id ∧ j.members = g.members ++ [r]))


/-! ### Copies, engines, tiles and the matrix array (R305 to R338) -/

/-- A COPY, COPYR or COPYM of a wave in no team completes with a copy of its operation, record and wave on its way to
start; in a team the contribution of the last member does so, and that of another is kept in the collective. -/
def Obligations.CopiesStart : Prop :=
  ∀ (ctl : Ctl) (a : BitVec 8) (op : Nat) (i : Instr) (s : State) (c : Cur) (w : Wave) (p : Word64),
    (op, i) ∈ [(0, Instr.copy ctl a), (1, .copyr ctl a), (2, .copym ctl a)] → BeginsSealed i s c w →
    let b := underSeal s c w
    srcX w s.sch.free a = (p, false) → resumable b (issOf i s c w) op p = none →
    let u := noteWrite b c.wave c.path
    let Starts (team : Option Nat) : Prop := ∃ t y, exec i s = .next t ∧ y ∈ t.copies ∧ y.op = op ∧ y.ptr = p ∧
      y.owner = c.wave ∧ y.team = team ∧ y.started = false ∧ .copyStart y.id ∈ t.sch.agenda
    ∀ v, u.wave? c.wave = some v →
      (w.team = none → Starts none) ∧
      ∀ m, w.team = some m →
        let old : Collective := (b.coll? m).getD { team := m, op := op, ptr := p, froms := [] }
        let new : Collective := { old with froms := old.froms ++ [⟨c.wave, c.path, w.seq, c.pc, nextPc c, (w.path c.path).noMatch⟩] }
        let members := match b.team? m with | some y => y.members | none => [c.wave]
        (old.froms.any fun y => y.wave == c.wave) = false → old.op = op → old.ptr = p →
        ((new.full members && !starting (u.setColl new) m) = true → Starts (some m)) ∧
        ((new.full members && !starting (u.setColl new) m) = false → ∃ t, exec i s = .next t ∧ new ∈ t.colls)

/-- A VQPUT whose record is not poisoned and passes its checks completes: with room, status 0 and the request with
its bytes in the queue; with 64 requests there and NW set, status 1. -/
def Obligations.RequestsQueue : Prop :=
  ∀ (ctl : Ctl) (nw : Bool) (d a : BitVec 8) (s : State) (c : Cur) (w : Wave) (bs : List Byte) (u v : State),
    let core := coreOf c.wave
    let r : Request := { id := u.sch.nextId, ctx := w.ctx, wave := c.wave, bytes := bs }
    BeginsSealed (.vqput ctl nw d a) s c w → Record (.vqput ctl nw d a) s c w a 64 4 bs false u → (v.wave? c.wave).isSome →
    r.engine = 1 ∨ r.engine = 2 → r.fld 2 2 = 0 →
    ∀ dev, clCheck (u.fresh).2 core w.ctx r.cnt 8 pRW = .ok (dev, v) →
    (match r.tile with | some t => notOwned v core w.ctx [t] | none => none) = none →
    (nw = true → 64 ≤ (v.core core).scope.length →
      ∃ t, exec (.vqput ctl nw d a) s = .next t ∧ sAt t c.wave d.toNat = ⟨1, false⟩) ∧
    ((v.core core).scope.length < 64 → (match r.tile with | some t => tileBusy (v.core core) [] [t] none | none => false) = false →
      ∃ t q, exec (.vqput ctl nw d a) s = .next t ∧ sAt t c.wave d.toNat = ⟨0, false⟩ ∧ q ∈ (t.core core).scope ∧
        q.bytes = bs ∧ q.ctx = w.ctx ∧ q.wave = c.wave ∧ q.id = u.sch.nextId)

/-- TCFG of a valid value on a tile that is unowned or its own, with no operation pending, completes with the value
in the control register and the context as owner, none for 0; a tile it claims reads 0 with scales 0x7F and no
poison. TZERO does the same to the contents of a tile of its own. No other tile changes. -/
def Obligations.TilesConfigure : Prop :=
  ∀ (ctl : Ctl) (t : BitVec 8) (v : Src) (s : State) (c : Cur) (w : Wave),
    let core := coreOf c.wave
    let n := t.toNat
    let x := (src32 w s.sch.free true 0 v).val
    let Clear (u : State) : Prop := (∀ off, off < 32768 → u.imgByte core n off = 0) ∧
      (∀ off, off < 8192 → u.wordPoison core n off = false) ∧
      ∀ off, off < 4096 → u.sclByte core n off = 0x7F ∧ u.sclPoison core n off = false
    let Rest (u : State) : Prop := ∀ m, m ≠ n → u.tcOf core m = s.tcOf core m ∧ u.tileOwner core m = s.tileOwner core m ∧
      (m < 16 → n < 16 → ∀ off, off < 32768 → u.imgByte core m off = s.imgByte core m off)
    tileBusy (s.core core) [] [n] none = false →
    (Begins (.tcfg ctl t v) s c w → tcValid x = true → s.tileOwner core n = none ∨ s.tileOwner core n = some w.ctx →
      ∃ u, exec (.tcfg ctl t v) s = .next u ∧ u.tcOf core n = x ∧
        u.tileOwner core n = (if x = 0 then none else some w.ctx) ∧ Rest u ∧
        (s.tileOwner core n = none → Clear u)) ∧
    (Begins (.tzero ctl t) s c w → s.tileOwner core n = some w.ctx →
      ∃ u, exec (.tzero ctl t) s = .next u ∧ Clear u ∧ Rest u ∧ u.tcOf core n = s.tcOf core n ∧
        u.tileOwner core n = some w.ctx)

/-- A TLD or TST that passes its checks completes its issue: an access of the wave with one lane for each line,
ascending, waits to be performed, and the tile is pending. -/
def Obligations.TilesMove : Prop :=
  ∀ (ctl : Ctl) (t a : BitVec 8) (m : TMov) (store : Bool) (s : State) (c : Cur) (w : Wave) (p : Word64) (u : State),
    let i : Instr := if store then .tst ctl t a m else .tld ctl t a m
    let core := coreOf c.wave
    let v := s.tcOf core t.toNat
    let st : VWord := match m with | .strided r => srcS w s.sch.free r | _ => ⟨BitVec.ofNat 32 (48 * tcSteps v), false⟩
    let ls := pieceLines (tilePieces v m p st.val.toNat)
    let lanes : List Lane := ls.map fun l => { tid := 0, ptr := l, d0 := p.setWidth 128, d1 := st.val.setWidth 64 }
    let o : TileOp := { id := u.sch.nextId, ctx := w.ctx, reads := if store then [t.toNat] else [],
                        writes := if store then [] else [t.toNat] }
    Begins i s c w → srcX w s.sch.free a = (p, false) → st.poison = false → s.tileOwner core t.toNat = some w.ctx →
    moveCheck v t.toNat m store p st.val.toNat = none →
    tileBusy (s.core core) (if store then [t.toNat] else []) (if store then [] else [t.toNat]) none = false →
    checkLines (begun s c w) core w.ctx (if store then pW else pR) ls = .ok u → (u.wave? c.wave).isSome →
    (store = true → ∀ q ∈ tilePieces v m p st.val.toNat, (pieceBytes u core t.toNat v m q).2 = false) →
    AccessRoom ((u.fresh).2.addTileOp core o) c (opened s c w) (accessOf i s c w lanes (some u.sch.nextId)) →
    ∃ x n, exec i s = .next x ∧ Queued x c.wave (accessOf i s c w lanes (some u.sch.nextId)) ∧
      o ∈ (x.core core).tileOps ∧ Timer.mk false n (.accessPerformed c.wave w.seq) ∈ x.sch.timers

/-- MMA.F, MMA.X, MMA.I8, MMA.BP, TDRAIN, AZERO and AZERO.rel that pass their checks and need not wait complete their
issue with one operation more at the tail of the array queue, with their accumulator, operands, context and wave, and
the joint poison of their scalar operands, which is the model's reading (log 27), as is that AZERO.rel enters at the
tail (log 28). A cycle takes one step of the entry that the array works on. A step of a product adds, to each element
of its columns, started anew under ZA, the exact sum of its products modulo 2^32, or each float product into the even
or the odd chain in ascending k; every other element stays. A step of a drain writes to the tile, for each of its 16
columns, the element summed, scaled and converted as R336 says, under the block scale of R337 for a scaled tile; the
last step clears the rest of each row; ZERO resets the elements it drains, and every other element stays. The tags
are joined as R141 says. -/
def Obligations.ArrayTakes : Prop :=
  (∀ (kind : Nat) (i : Instr) (o : Mma) (r : Drn) (ctl : Ctl) (acc : BitVec 8) (s : State) (c : Cur) (w : Wave),
    let core := coreOf c.wave
    let n := (srcS w s.sch.free o.n).val.toNat
    let p := if kind = 4 then (w.readS s.sch.free o.preg.toNat).val.toNat else 0
    let nc := if r.ncv then (srcS w s.sch.free r.sn).val.toNat
      else drainCols (s.tcOf core r.tile.toNat) (s.tcOf core r.tv.toNat) r.scv (16 * r.c0.toNat)
    let Takes (i : Instr) (acc : Nat) (k : ArrKind) (total : Nat) (pz : Bool) : Prop := ∃ t x, exec i s = .next t ∧
      (t.core core).arrayQ = (s.core core).arrayQ ++ [x] ∧ x.kind = k ∧ x.acc = acc ∧ x.ctx = w.ctx ∧ x.wave = c.wave ∧
      x.seq = w.seq ∧ x.total = total ∧ x.poison = pz
    ((kind, i) ∈ [(1, Instr.mmaF o), (2, .mmaX o), (3, .mmaI8 o), (4, .mmaBp o)] → Begins i s c w →
      mmaCheck s core w.ctx kind o.acc.toNat o.a.toNat o.b.toNat n p = none →
      mmaWaits s core w.ctx o.acc.toNat o.a.toNat o.b.toNat n = false →
      Takes i o.acc.toNat (.mma kind o.a.toNat o.b.toNat n p o.za)
        (mmaTotal kind n (tcSteps (s.tcOf core o.a.toNat)) p)
        ((srcS w s.sch.free o.n).poison || decide (kind = 4) && (w.readS s.sch.free o.preg.toNat).poison)) ∧
    (Begins (.tdrain r) s c w → drainCheck s core w.ctx r nc = none →
      tileBusy (s.core core) (if r.scv then [r.tv.toNat] else []) [r.tile.toNat] none = false →
      arrWaits s core w.ctx r.acc.toNat (s.core core).tileOps = false →
      Takes (.tdrain r) r.acc.toNat (.drain r.tile.toNat r.tv.toNat (16 * r.c0.toNat) nc r.scv r.sat r.zero) (nc / 16)
        (r.ncv && (srcS w s.sch.free r.sn).poison)) ∧
    (∀ rel, let j : Instr := if rel then .azeroRel ctl acc else .azero ctl acc
      Begins j s c w → s.tileOwner core (16 + acc.toNat) = some w.ctx ∨ (rel = false ∧ s.tileOwner core (16 + acc.toNat) = none) →
      arrWaits s core w.ctx acc.toNat (s.core core).tileOps = false → Takes j acc.toNat (if rel then .arel else .azero) 1 false)) ∧
  (∀ (s : State) (core k : Nat) (o : ArrOp), s.copies = [] → arrCores s = [core] → arrHead s core = some o →
    o.start = some k → k ≤ s.clk.cycle → o.done < o.total →
    Goes .lanePairCycle s fun t => t.mx = (arrStep s core o).mx) ∧
  (∀ (s : State) (core acc kind a b n p i : Nat) (za pz : Bool) (wraps : List (Nat × Int)), acc < 4 → 1 ≤ kind → kind ≤ 4 →
    n ≤ 512 → i < mmaTotal kind n (tcSteps (s.tcOf core a)) p →
    let t := (mmaStep s core acc kind a b n p za pz i wraps).1
    let round := if kind = 4 then tcSteps (s.tcOf core a) * p else tcSteps (s.tcOf core a)
    let chunk := if kind = 4 then i % round / p else i % round
    let plane := if kind = 4 then i % p else 0
    let width := if kind = 4 then 128 else 16
    let size := if kind = 4 then 48 else fmtStep (tcFmt (s.tcOf core a))
    let anew : Bool := za && decide (chunk = 0) && decide (plane = 0)
    let ks := (List.range size).map (fun k => chunk * size + k)
    t.imodeOf core acc = decide (3 ≤ kind) ∧ t.mx.image = s.mx.image ∧ t.mx.scales = s.mx.scales ∧
    ∀ m x, m < 32 → x < 512 →
      let old := s.accElem core acc m x
      let new := t.accElem core acc m x
      let tb := b + x / tcRows (s.tcOf core b)
      let r := x % tcRows (s.tcOf core b)
      let A (k : Nat) := s.elemInt core a (s.tcOf core a) m k
      let B (k : Nat) := s.elemInt core tb (s.tcOf core tb) r k
      let Q (k : Nat) := planeBit s core b x k plane
      let F (k : Nat) := if kind = 2 then s.scaledVal core a (s.tcOf core a) m k else s.elemVal core a (s.tcOf core a) m k
      let G (k : Nat) := if kind = 2 then s.scaledVal core tb (s.tcOf core tb) r k else s.elemVal core tb (s.tcOf core tb) r k
      let chain (odd : Nat) (e : Word32) : Word32 := (ks.filter fun k => k % 2 = odd).foldl
        (fun e k => w32 (fAddR .f32 .rn (f32 e) (capProduct (fMul (F k).1 (G k).1).1)).code) e
      let from_ : Int := if anew then 0 else old.e.toInt
      (x / width ≠ i / round ∨ n ≤ x → new = old) ∧
      (x / width = i / round → x < n →
        (kind = 3 → new.o = 0 ∧ new.e = BitVec.ofInt 32 (from_ + (ks.map fun k => (A k).1 * (B k).1).sum) ∧
          new.poison = ((!anew && old.poison) || pz || ks.any fun k => (A k).2 || (B k).2)) ∧
        (kind = 4 → new.o = 0 ∧ new.e = BitVec.ofInt 32 (from_ + (ks.map fun k =>
            (if (Q k).1 then (if plane = 0 then -128 else 2 ^ (7 - plane)) * (A k).1 else 0) +
            (if plane = 0 ∧ p ≠ 8 then 2 ^ (7 - p) * (A k).1 else 0)).sum) ∧
          new.poison = ((!anew && old.poison) || pz || ks.any fun k => (A k).2 || (Q k).2)) ∧
        (kind ≤ 2 → new.e = chain 0 (if anew then 0 else old.e) ∧ new.o = chain 1 (if anew then 0x80000000 else old.o) ∧
          new.poison = ((!anew && old.poison) || pz || ks.any fun k => (F k).2 || (G k).2)))) ∧
  ∀ (s : State) (core acc tile tv c0 nc i : Nat) (scv sat zero pz : Bool),
    let v := s.tcOf core tile
    let f := tcFmt v
    let t := drainStep s core acc tile tv c0 nc scv sat zero pz i
    acc < 4 → tcValid v = true → tcRows v = 32 → f ≠ 0 → f ≠ 8 → 16 * (i + 1) ≤ nc → nc % 16 = 0 → c0 + nc ≤ 512 →
    nc * fmtHalf f ≤ 2 * rowBytes v → (scv = true → tv ≠ tile ∧ nc * 4 ≤ rowBytes (s.tcOf core tv)) →
    let E (m n : Nat) := s.accElem core acc m (c0 + n)
    let sum (m n : Nat) : Nat := if s.imodeOf core acc
      then (roundFin .f32 .rn false (decide ((E m n).e.toInt < 0)) (E m n).e.toInt.natAbs 0).code
      else (addRne (E m n).e (E m n).o).toNat
    let val (m n : Nat) : Nat := if scv
      then (fMulR .f32 .rn (fDecode .f32 (sum m n)) (fDecode .f32 (leNat (s.imgBytes core tv (4 * n) 4)))).code else sum m n
    let bad (m n : Nat) : Bool := (E m n).poison || (scv && s.wordPoison core tv n) || pz
    (∀ m n, m < 32 → n / 16 = i →
      (∀ ty, fmtInt f = some ty → t.elemCode core tile v m n = (BitVec.ofInt 32 (if s.imodeOf core acc && !scv
        then max (iMin ty) (min (iMax ty) (E m n).e.toInt) else (fToI ty .rn (fDecode .f32 (val m n))).1)).toNat %
          2 ^ (4 * fmtHalf f)) ∧
      (f = 9 → t.elemCode core tile v m n = val m n) ∧
      (∀ g, f ≠ 9 → fmtFloat f = some g →
        let scale := (t.sclByte core tile (scaleAt v m n)).toNat
        let d : Int := if tcScl v then (scale : Int) - 127 else 0
        let fits (e : Nat) : Prop := ∀ k neg x y, k / 16 = i → fDecode .f32 (val m k) = .fin neg x y →
          AtMost x y (fMaxM g) (fMaxE g + (e : Int) - 127)
        t.elemCode core tile v m n = (fRound g .rn (sat && scaledFmt f) (scaleBy (-d) (fDecode .f32 (val m n)))).code ∧
        (tcScl v = true → scale ≤ 254 ∧ (scale = 254 ∨ fits scale) ∧ ∀ e, e < scale → ¬fits e)) ∧
      (bad m n = true → t.elemPoison core tile v m n = true) ∧
      ((∀ k, k / 16 = i → bad m k = false) → t.elemPoison core tile v m n = false)) ∧
    (16 * (i + 1) = nc → ∀ m off, m < 32 → nc * fmtHalf f / 2 ≤ off → off < rowBytes v →
      t.imgByte core tile (rowBytes v * m + off) = 0) ∧
    ∀ m x, m < 32 → x < 512 → t.accElem core acc m x =
      if zero = true ∧ c0 + 16 * i ≤ x ∧ x < c0 + 16 * (i + 1) then (if s.imodeOf core acc then { e := 0, o := 0 } else {})
      else s.accElem core acc m x


/-! ### Context instructions (R30 to R41, R99, R200 to R204, R278 to R283) -/

/-- CTXNEW completes with the status its record earns and id 0, 8 for an entry record that is poisoned or fails its
checks, or, once its carve-outs have room, with 0, the lowest free id, and that child STOPPED with the configuration
of its record and its entry record; CTXGRANT with the status of the grant, or with 0 and the declared and flattened
ranges recomputed; CTXREVOKE with 5 or 4, or with 0, the range cut out, and its completion on its way. A status has
the poison of the operands and the record it is computed from. That the id is the lowest free one, that a bad entry
record earns 8, and the order of the statuses are the model's choices (log 26); the grant record has the layout of
R280 (log 56); the poison of a status is the model's reading (log 55). -/
def Obligations.ContextsGrow : Prop :=
  ∀ (ctl : Ctl) (d k r : BitVec 8) (s : State) (c : Cur) (w : Wave) (bs : List Byte) (pz pk : Bool) (v : State),
    (∀ x, BeginsSealed (.ctxnew ctl d r) s c w → Record (.ctxnew ctl d r) s c w r 32 10 bs pz v → v.ctx? w.ctx = some x →
      let f := confOf bs
      let st := newStatus v w.ctx x bs f
      let Reads (es : List Byte) (bad : Bool) (z : State) : Prop :=
        f.localfr ≠ 0 ∧ pz = false ∧ loadRecord v (whoOf c.wave (opened s c w)) f.entry 4 = .ok (es, bad) z
      (st ≠ 0 → Answers (.ctxnew ctl d r) s c d st pz v) ∧
      (∀ es bad z, st = 0 → Reads es bad z → bad = true ∨ (checkLaunch f.units (launchRecOf es) f.entry).isSome = true →
        Answers (.ctxnew ctl d r) s c d 8 pz z) ∧
      ∀ e z y, st = 0 → (f.localfr = 0 ∧ pz = false ∧ e = none ∧ z = v) ∨ (∃ es, Reads es false z ∧ e = some (launchRecOf es) ∧
          checkLaunch f.units (launchRecOf es) f.entry = none) → carveRoom z f.localfr (coresIn f.units) = (y, true) →
        ((makeCtx y (freeId v) (some w.ctx) f e).wave? c.wave).isSome → ∃ t, exec (.ctxnew ctl d r) s = .next t ∧
          HoldsAll t c.wave [.s d.toNat ⟨0, false⟩, .s (d.toNat + 1) ⟨BitVec.ofNat 32 (freeId v), false⟩] ∧
          (t.ctx? (freeId v)).map (fun y => (y.conf, y.parent, y.state, y.entry)) = some (f, some w.ctx, .stopped, e)) ∧
    (∀ t, BeginsSealed (.ctxgrant ctl d k r) s c w → Record (.ctxgrant ctl d k r) s c w r 32 2 bs pz v →
      targetArg (issOf (.ctxgrant ctl d k r) s c w) (underSeal s c w) k true = .ok (t, pk) → fieldAt bs 24 4 < 8 →
      fieldAt bs 28 4 = 0 →
      let g : Decl := ⟨fieldAt bs 0 8, fieldAt bs 8 8, fieldAt bs 16 8, BitVec.ofNat 3 (fieldAt bs 24 4)⟩
      let ds : List Decl := (match v.ctx? t with | some y => y.declared | none => []) ++ [g]
      let st := grantStatus v w.ctx t g
      (st ≠ 0 → Answers (.ctxgrant ctl d k r) s c d st (pk || pz) v) ∧
      (st = 0 → heldWalk v (reflatten v t ds) = false →
        Answers (.ctxgrant ctl d k r) s c d 0 (pk || pz) (setFlats v t ds (some t) (reflatten v t ds)))) ∧
    (∀ t dev u, BeginsSealed (.ctxrevoke ctl d k r) s c w → Record (.ctxrevoke ctl d k r) s c w r 32 2 bs false v →
      targetArg (issOf (.ctxrevoke ctl d k r) s c w) (underSeal s c w) k false = .ok (t, pk) →
      fieldAt bs 24 4 = 0 → fieldAt bs 28 4 = 0 →
      let p : Word64 := BitVec.ofNat 64 (fieldAt bs 16 8)
      let lo := fieldAt bs 0 8
      let len := fieldAt bs 8 8
      clCheck v (coreOf c.wave) w.ctx p 8 pRW = .ok (dev, u) →
      let ds := (match u.ctx? t with | some y => y.declared | none => []).flatMap (cutDecl lo len)
      let fs := reflatten u t ds
      let odd : Prop := lo % page2M ≠ 0 ∨ len % page2M ≠ 0 ∨ len = 0
      let many : Prop := 64 < ds.length ∨ ∃ y ∈ fs, 64 < y.2.length
      (odd → Answers (.ctxrevoke ctl d k r) s c d 5 pk u) ∧ (¬odd → many → Answers (.ctxrevoke ctl d k r) s c d 4 pk u) ∧
      (¬odd → ¬many → heldWalk u fs = false → Answers (.ctxrevoke ctl d k r) s c d 0 pk (setFlats u t ds none fs) ∧
        ((u.wave? c.wave).isSome → ∃ x n, exec (.ctxrevoke ctl d k r) s = .next x ∧
          Timer.mk false n (.ctxrevokeComplete w.ctx t p) ∈ x.sch.timers)))

/-- The pieces of a declared range over a parent set cover address a of the range exactly when the parent set covers
the address it is declared over, at the device address the parent gives it and with the permission of the
declaration; what CTXREVOKE leaves of a declared range covers exactly its addresses outside the span, each over the
same parent address. -/
def Obligations.GrantsFlatten : Prop :=
  ∀ (parent : List Range) (d : Decl) (lo len a : Nat),
    (∀ dev, (∃ r ∈ piecesOf parent d.cg d.pg d.len d.perm, r.gbase ≤ a ∧ a < r.gbase + r.len ∧ dev = r.dbase + (a - r.gbase)) ↔
      d.cg ≤ a ∧ a < d.cg + d.len ∧ ∃ q ∈ parent, q.gbase ≤ d.pg + (a - d.cg) ∧ d.pg + (a - d.cg) < q.gbase + q.len ∧
        dev = q.dbase + (d.pg + (a - d.cg) - q.gbase)) ∧
    (∀ r ∈ piecesOf parent d.cg d.pg d.len d.perm, r.perm = d.perm) ∧
    ∀ b, (∃ e ∈ cutDecl lo len d, e.cg ≤ a ∧ a < e.cg + e.len ∧ b = e.pg + (a - e.cg)) ↔
      d.cg ≤ a ∧ a < d.cg + d.len ∧ ¬(lo ≤ a ∧ a < lo + len) ∧ b = d.pg + (a - d.cg)

/-- CTXRUN of a descendant completes with 1 when it is not STOPPED, else with 0 and the contexts of its subtree run;
CTXSTOP with 2 when it is PREEMPTED, else with 1 when it was STOPPED and 0 otherwise, its counter owed; CTXKILL, once
its frames may be evicted, with 0 and what killing its subtree leaves, its completion on its way; QOSSET with its
status, or with 0 and the bucket set. A status has the poison of the operands it is computed from (the model's
reading, log 55); that CTXRUN waits for an owed CTXSTOP, that CTXKILL waits for frames and what QOSSET checks first
are the model's choices (log 26). -/
def Obligations.ContextsRun : Prop :=
  ∀ (ctl : Ctl) (d k r : BitVec 8) (s : State) (c : Cur) (w : Wave) (t : Nat) (pk : Bool),
    let b := underSeal s c w
    (∀ y, let i : Instr := .ctxrun ctl d k
      BeginsSealed i s c w → targetArg (issOf i s c w) b k false = .ok (t, pk) → b.ctx? t = some y → y.stops = [] →
      (y.state ≠ .stopped → Answers i s c d 1 pk b) ∧
      (y.state = .stopped → Answers i s c d 0 pk ((subtreeOf b t).foldl runCtx b))) ∧
    (∀ p v y, let i : Instr := .ctxstop ctl d k r
      BeginsSealed i s c w → targetArg (issOf i s c w) b k false = .ok (t, pk) →
      counterArg (issOf i s c w) b r = .ok (p, v) → v.ctx? t = some y →
      let u := (subtreeOf v t).foldl stopCtx v
      (y.state = .preempted → Answers i s c d 2 pk v) ∧
      (y.state ≠ .preempted → Answers i s c d (if y.state = .stopped then 1 else 0) pk u ∧
        ((u.wave? c.wave).isSome → ∃ x n, exec i s = .next x ∧ Timer.mk false n (.ctxstopComplete t) ∈ x.sch.timers ∧
          ∀ z, x.ctx? t = some z → (p, w.ctx) ∈ z.stops))) ∧
    (∀ p v, let i : Instr := .ctxkill ctl d k r
      BeginsSealed i s c w → targetArg (issOf i s c w) b k false = .ok (t, pk) →
      counterArg (issOf i s c w) b r = .ok (p, v) →
      let u := (subtreeOf v t).foldl (fun s d => eachWave s d dropPins) v
      killWaits u t = false →
      Answers i s c d 0 pk (killTree u t w.ctx p) ∧
      (((killTree u t w.ctx p).wave? c.wave).isSome →
        ∃ x n, exec i s = .next x ∧ Timer.mk false n (.ctxkillComplete t) ∈ x.sch.timers)) ∧
    (∀ n pv, let i : Instr := .qosset ctl d k r
      BeginsSealed i s c w → targetArg (issOf i s c w) b k false = .ok (t, pk) → scalarArg (issOf i s c w) b r = (n, pv) →
      let st := qosStatus b t n (n % 65536) (n / 65536 % 256)
      let u := setBucket b t (n % 65536) (n / 65536 % 256)
      (st ≠ 0 → Answers i s c d st (pk || pv) b) ∧
      (st = 0 → Answers i s c d 0 (pk || pv) u ∧ ((u.wave? c.wave).isSome → ∃ x, exec i s = .next x ∧
        ∀ z, x.ctx? t = some z → z.bucket = if n % 65536 = 0 then none else some (n % 65536, n / 65536 % 256))))

/-- TLBINV.page, .ctx and .child complete with their completion due for the context, pages and counter they name; at
the completion no TLB of the device holds an entry of that scope, and every other entry stays. -/
def Obligations.TranslationsDrop : Prop :=
  ∀ (ctl : Ctl) (a k r : BitVec 8) (n : BitVec 16) (s : State) (c : Cur) (w : Wave) (p : Word64) (v : State) (pk : Bool),
    let Due (i : Instr) (target first pages : Nat) (all : Bool) : Prop := ∃ t m, exec i s = .next t ∧
      Timer.mk false m (.tlbinvComplete w.ctx target first pages all p) ∈ t.sch.timers
    (∀ va, let i : Instr := .tlbinvPage ctl a r n
      BeginsSealed i s c w → counterArg (issOf i s c w) (underSeal s c w) r = .ok (p, v) → pointerArg (issOf i s c w) v a = .ok va →
      spaceOf va = 0 → Due i w.ctx (va.toNat / 0x200000 % 0x80000000) (n.toNat + 1) false) ∧
    (let i : Instr := .tlbinvCtx ctl r;
      BeginsSealed i s c w → counterArg (issOf i s c w) (underSeal s c w) r = .ok (p, v) → Due i w.ctx 0 0 true) ∧
    (∀ t, let i : Instr := .tlbinvChild ctl k r
      BeginsSealed i s c w → counterArg (issOf i s c w) (underSeal s c w) r = .ok (p, v) → targetArg (issOf i s c w) v k false = .ok (t, pk) →
      Due i t 0 0 true) ∧
    ∀ (target first pages : Nat) (all : Bool) (core : Nat) (e : TlbEntry),
      let gone : Prop := e.ctx = target ∧ (all = true ∨ (first ≤ e.vpart / 32 ∧ e.vpart / 32 < first + pages))
      let ok (e : TlbEntry) : Bool := e.ctx == target && (all || (decide (first ≤ e.vpart / 32) && decide (e.vpart / 32 < first + pages)))
      s.cores.Pairwise (fun x y => x.1 < y.1) →
      (e ∈ ((dropTlb s ok).core core).tlb ↔ e ∈ (s.core core).tlb ∧ ¬gone)

/-- CTXPEEK completes with the status of an item it may not read; with the bytes of an item of the target in the
buffer and status 0, or 6 where they are poisoned; and so for memory and local space under their key. CTXPOKE
completes with the status of an item it may not write or of bytes that the item refuses, or with 0 and the item set.
A status has the poison of the operands and bytes it is computed from (the model's reading, log 55); the order of the
statuses (log 36) and that a poke of item 0x05 writes both buffer headers (log 30) are the model's choices. -/
def Obligations.PeeksAndPokes : Prop :=
  ∀ (ctl : Ctl) (d k r item : BitVec 8) (index : BitVec 24) (s : State) (c : Cur) (w : Wave) (t : Nat) (pk : Bool)
    (p : Word64),
    let b := underSeal s c w
    let n := item.toNat
    let core := coreOf c.wave
    let who := whoOf c.wave (opened s c w)
    let Ready (i : Instr) : Prop := BeginsSealed i s c w ∧ targetArg (issOf i s c w) b k false = .ok (t, pk) ∧
      pointerArg (issOf i s c w) b r = .ok p ∧ checkPtr p 16 .globalDev = none
    let Keyed (i : Instr) (key : Nat) (v : State) : Prop := (itemKeyed n = false ∧ key = 0 ∧ v = b) ∨
      (itemKeyed n = true ∧ ownStop (issOf i s c w) b true false p 8 = none ∧
        ∃ bs, bufRead b who (runsOf p 8) = .ok (bs, false) v ∧ key = leNat bs)
    (let i : Instr := .ctxpeek ctl d k r item index;
      Ready i →
      (itemStatus b t n index.toNat false ≠ 0 → Answers i s c d (itemStatus b t n index.toNat false) pk b) ∧
      (∀ key v e, itemStatus b t n index.toNat false = 0 → Keyed i key v → n ≠ 0x30 → n ≠ 0x31 →
        peekItem v core t n index.toNat key = .error e → Answers i s c d e pk v) ∧
      ∀ key v bs pz at_ u u', itemStatus b t n index.toNat false = 0 → Keyed i key v →
        ((n ≠ 0x30 ∧ n ≠ 0x31 ∧ peekItem v core t n index.toNat key = .ok (bs, pz) ∧ at_ = dataAt p n ∧ u' = v) ∨
         (n = 0x30 ∧ at_ = p + 16 ∧ ∃ x, memCheck v core t pR (runsOf (BitVec.ofNat 64 key) index.toNat) = .ok x ∧
            memRead x core t (runsOf (BitVec.ofNat 64 key) index.toNat) = .ok (bs, pz) u') ∨
         (n = 0x31 ∧ at_ = p + 16 ∧ u' = touchRun v (key / 0x100000000) t (key % 0x100000000) index.toNat ∧ key / 0x100000000 < 256 ∧
            localFault v (key / 0x100000000) t (key % 0x100000000) index.toNat = none ∧
            bs = localRun v (key / 0x100000000) t (key % 0x100000000) index.toNat ∧
            pz = localPoisons v (key / 0x100000000) t (key % 0x100000000) index.toNat)) →
        bufWrite u' who bs (runsOf at_ bs.length) = .ok () u → ownStop (issOf i s c w) u' false true at_ bs.length = none →
        Answers i s c d (if pz then 6 else 0) pk u) ∧
    (let i : Instr := .ctxpoke ctl d k r item index;
      Ready i →
      (itemStatus b t n index.toNat true ≠ 0 → Answers i s c d (itemStatus b t n index.toNat true) pk b) ∧
      ∀ key v bs pb u, itemStatus b t n index.toNat true = 0 → Keyed i key v →
        let size := pokeSize v t n index.toNat
        let pz := pk || pb
        let on (y : State) : BitVec 2 := match y.ctx? t with | some q => q.obsCtl | none => 0
        (size = 0 → Answers i s c d 3 pk v) ∧
        (size ≠ 0 → bufRead v who (runsOf (dataAt p n) size) = .ok (bs, pb) u →
          ownStop (issOf i s c w) v true false (dataAt p n) size = none → (pb && itemAddress n) = false →
          (∀ e, n ≠ 0x30 → n ≠ 0x31 → n ≠ 0x05 → pokeItem u t n index.toNat bs = .error e → Answers i s c d e pz u) ∧
          (∀ f, n ≠ 0x30 → n ≠ 0x31 → n ≠ 0x05 → pokeItem u t n index.toNat bs = .ok f → Answers i s c d 0 pz (f u)) ∧
          (n = 0x05 → obsOk bs = false → Answers i s c d 5 pz u) ∧
          (∀ x y, n = 0x05 → obsOk bs = true →
            alongside b (setObs u t (some w.ctx) bs) (fun s =>
              obsHeader s t core true (BitVec.ofNat 64 (fieldAt bs 0 8)) (fieldAt bs 20 1)) = .ok () x →
            alongside b x (fun s =>
              obsHeader s t core false (BitVec.ofNat 64 (fieldAt bs 8 8)) (fieldAt bs 21 1)) = .ok () y →
            Answers i s c d 0 pz ((setObs y t (some w.ctx) bs).updCtx t (fun q => { q with obsCtl := on y }))) ∧
          (∀ x y, n = 0x30 → memCheck u core t pW (runsOf (BitVec.ofNat 64 key) index.toNat) = .ok x →
            alongside b x (fun s => memWrite s core t bs (runsOf (BitVec.ofNat 64 key) index.toNat)) = .ok () y →
            Answers i s c d 0 pz y) ∧
          (n = 0x31 → 256 ≤ key / 0x100000000 → Answers i s c d 3 pz u) ∧
          (n = 0x31 → key / 0x100000000 < 256 →
            localFault u (key / 0x100000000) t (key % 0x100000000) index.toNat = none →
            Answers i s c d 0 pz (localPut u (key / 0x100000000) t (key % 0x100000000) bs))))


/-! ### Steps that no instruction issues (R6, and the rules of each) -/

/-- ACCESS_PERFORMED and STREAMED_ACCESS of the oldest access end it; RESULT_WRITTEN writes the registers and status
bits on their way; WAVE_FREE frees a drained wave; PATH_URGENT, YIELD_EXPIRY, FETCH_BLOCK_ARRIVAL, GROW_GRANT, SPILL,
RESTORE, FUSE_TIMEOUT and POLL_RECHECK do what is due for a path or wave; LANE_PAIR_CYCLE brings the next cycle;
CLOCKLESS_WAIT_DONE makes due what waited. -/
def Obligations.WaveSteps : Prop :=
  ∀ (s : State) (wid i id n : Nat) (w : Wave), s.wave? wid = some w →
    let p := w.path i
    (∀ a u v, w.accs.find? (fun b => b.id == id) = some a → a.early = false → a.faulted = none →
      portBusy s wid a.path = false → unreadLaunch s wid id = false → (w.accs.find? (fun b => !b.early)).map (·.id) = some id → performOldest s wid a = (u, true) → u.wave? wid = some v →
      v.win = none → Leads (.accessPerformed wid id) s u ∧ Leads (.streamedAccess wid id) s u ∧ ∀ b ∈ v.accs, b.id ≠ id) ∧
    (∀ q, w.pend.find? (fun p => p.id == id) = some q → w.raced = [] → w.win = none →
      Goes (.resultWritten wid id) s fun t => (t.wave? wid).map (·.fstat) = some (w.fstat ||| q.stat) ∧
        (q.writes.Pairwise (fun x y => x.key ≠ y.key) →
          (∀ r y, (∃ z, RegW.v r y z ∈ q.writes) ∨ (∃ z, RegW.p r y z ∈ q.writes) → y < 64) → HoldsAll t wid q.writes) ∧
        ∀ x, t.wave? wid = some x → (∀ y ∈ x.pend, y.id ≠ id) ∧ ∀ y ∈ x.owed, y.id ≠ id) ∧
    (drained s wid w = true → Goes (.waveFree wid) s fun t => t.wave? wid = none) ∧
    (p.urgentAt = none → (if p.demoted then 1024 else 16) ≤ p.eligible →
      Goes (.pathUrgent wid i) s fun t => (pathAt t wid i).urgentAt = some s.clk.cycle) ∧
    (p.yieldTo ≤ s.clk.cycle → Goes (.yieldExpiry wid i) s fun t => (pathAt t wid i).yieldTo = 0) ∧
    (∀ q x u v g y, p.fetching = some (n, q) → owesBefore s wid i q = false → portBusy s wid i = false → checkPtr (BitVec.ofNat 64 n) 32 .global = none →
      translate s (coreOf wid) w.ctx (BitVec.ofNat 64 n) pX = .ok (x, u) → combineFirst u x.dev = .ok () v →
      ∀ z, readAt v (whoOf wid w) x = .ok g z → z.sch.hits = [] → z.wave? wid = some y → i < y.paths.length →
      n = blockOf p.e.pc ∨ n = blockOf p.e.pc + 32 → Goes (.fetchBlockArrival wid i n) s fun t =>
        (pathAt t wid i).fetching = none ∧ (n, placeBytes z g.place x.dev 32) ∈ (pathAt t wid i).fetch) ∧
    (w.state = .blocked → (blockedOf s (lpOf wid)).all (fun x => x.1 == wid || !olderWave x (wid, w)) = true →
      growNeed w w.target ≤ freeUnits s (lpOf wid) → Goes (.growGrant wid) s fun t =>
        let live := w.paths.filter fun q => q.e.kind == .path
        (t.wave? wid).map (fun x => (x.budget, x.state)) =
          some (w.target, if !live.isEmpty && live.all Path.parked then .parked else .running)) ∧
    (mustSpill s (lpOf wid) = some (wid, w) → logShort s w.ctx (spillLines s wid w) = false → Goes (.spill (lpOf wid)) s fun t =>
      t.wave? wid = some { w with state := .spilled, left := w.state }) ∧
    (w.state = .spilled → blockedOf s (lpOf wid) = [] → w.left = .parked →
      unitsFor w.runWidth w.target * w.runs.length ≤ freeUnits s (lpOf wid) → Goes (.restore wid) s fun t =>
        (t.wave? wid).map (·.state) = some .parked) ∧
    (∀ f v, w.fuse = some f → f.req = n → (unfitBuddy s (buddyOf wid) = true ∨ f.deadline ≤ s.clk.tick) →
      (lateRoll s w.ctx wid f.path).wave? wid = some v → v.fuse = some f →
      Goes (.fuseTimeout wid n) s fun t => (t.wave? wid).map (·.fuse) = some none ∧
        sAt t wid f.dst = ⟨if unfitBuddy s (buddyOf wid) then 8 else 2, false⟩) ∧
    (∀ q bs pz u v, p.poll = some q → portBusy s wid i = false → pollLoad s wid i q = .got bs pz u →
      let z := if pollInside w q then u else lateRoll u w.ctx wid i
      z.wave? wid = some v → v.raced = [] → z.sch.hits = [] → pollMet q bs = true ∨ q.deadline ≤ u.clk.tick → Goes (.pollRecheck wid i) s fun t =>
        ∀ x ∈ threads q.mask, pAt t wid (pollDst q.instr) x = ⟨pollMet q bs, pz || q.poison⟩) ∧
    (s.copies = [] → (∀ k ∈ s.cores, k.2.arrayQ = []) → Goes .lanePairCycle s fun t => t.clk.cycle = s.clk.cycle + 1) ∧
    (∀ e, s.sch.waits.find? (fun x => x.1 == id) = some (id, e) → Goes (.clocklessWaitDone id) s fun t =>
      t.sch.agenda = e :: s.sch.agenda ∧ ∀ x ∈ t.sch.waits, x.1 ≠ id)

/-- PIN_GRANT gives the grant to the wave that asks first, PIN_GRANT_TIMEOUT counts a rollback and asks again,
PIN_TIMEOUT ends the grant. The sweeps raise stale times, BUCKET_REFILL fills buckets. MONARCH_INTERVAL goes over the
replicas and the primaries; LOCATE, FILL, EVICTION, FRAME_ARRIVAL, FORWARDING_END, ATLAS_HOLD_EXPIRY and WRAP_NOTICE
act on frames and targets; PAGE_WALK installs its translation or restarts; the home and holder steps of a die do,
each as one step, what the operations of the model for R83 to R89 do (homeReadOp, homeRfoOp, recallFrom, giveUp,
evict, dropReplica, backInvalidate); COMBINE combines its line, under a seal where its page needs one. That each of
these is one step of the machine is the model's choice (log 9). -/
def Obligations.PinAndCoherenceSteps : Prop :=
  ∀ (s u v : State) (wid core ctx part die line n m gen : Nat) (wr : Bool),
    (∀ w q, s.wave? wid = some w → w.state = .running → s.pins.holder = none → s.pins.queue = wid :: q →
      Goes (.pinGrant wid) s fun t => t.pins.holder = some wid) ∧
    (∀ w, s.wave? wid = some w → w.pinReq = some n → wid ∈ s.pins.queue → w.count + 1 < 64 →
      Goes (.pinGrantTimeout wid n) s fun t => (t.wave? wid).map (·.count) = some (w.count + 1) ∧ wid ∈ t.pins.queue) ∧
    (s.pins.holder = some wid → s.pins.since + 4096 ≤ s.clk.tick →
      Goes (.pinTimeout wid n) s fun t => t.pins.holder = none) ∧
    (Goes .ptsTick s fun t => ∀ k ∈ t.cores, ∀ y ∈ k.2.pts, s.clk.tick < y.2) ∧
    (Goes .lasttouchSweep s fun t => ∀ f, s.clk.tick - 0x8000 ≤ t.lastTouch f) ∧
    (Goes .timestampSweep s fun t => ∀ l ∈ t.lines, (s.frame (l.1 / 512)).kind = .primary ∨
        (s.frame (l.1 / 512)).kind = .replica ∨ (s.frame (l.1 / 512)).kind = .forward →
      s.clk.tick - 0x4000 ≤ l.2.wts ∧ s.clk.tick - 0x4000 ≤ l.2.rts) ∧
    (∀ x rate depth, s.ctx? ctx = some x → x.bucket = some (rate, depth) → Goes .bucketRefill s fun t =>
      (t.ctx? ctx).map (·.tokens) = some (x.tokens.map fun (y : Nat × Int) => (y.1, min (y.2 + (rate : Int)) ((rate * depth : Nat) : Int)))) ∧
    (Goes .monarchInterval s fun t =>
      let keys (k : FKind) : List Nat := (s.frames.filter (fun x => x.2.kind == k)).map (·.1)
      t = (keys .primary).foldl monarchPrimary ((keys .replica).foldl monarchReplica s)) ∧
    ((s.frame (frameKey core n)).kind = .forward → (s.frame (frameKey core n)).gen = gen →
      Goes (.forwardingEnd core n gen) s fun t => (t.frame (frameKey core n)).kind = .free) ∧
    (∀ e tg, findTlb s core ctx n = some e → e.target = .none → locate s core ctx e.part e.streamed = .ok tg u →
      Leads (.locate core ctx n) s (setTarget u core ctx n tg)) ∧
    (s.atlas (core / 32) part = none → quotaDie s ctx ≠ 0 → ∀ fk, fill s core ctx part = .ok fk u →
      Leads (.fill core ctx part) s u) ∧
    (heldPart s die part = false → moving s die part = false →
      Goes (.eviction die part none) s fun t => t = evict s die part) ∧
    (∀ k, heldPart s die part = false → replicaFrame s core part = some k → k / 8192 = die →
      Goes (.eviction die part (some core)) s fun t => t = dropReplica s k) ∧
    (∀ e a b g, findTlb s core ctx n = some e → e.target = .frame a b g → arrive s a b g = some (a, b, g) →
      Leads (.frameArrival core ctx n wr) s (countAt s (frameKey a b) core wr)) ∧
    (Goes (.atlasHoldExpiry die part) s fun t => ∀ h ∈ (t.die die).holds, h.till = 0 ∨ s.clk.cycle < h.till) ∧
    (∀ k, k < 32 → Goes (.wrapNotice core n) s fun t => ∀ e ∈ (t.core (core / 32 * 32 + k)).tlb, ∀ a b g,
      e.target = .frame a b g → frameKey a b ≠ frameKey core n) ∧
    (versionOf s ctx ≠ m → ∃ d, Goes (.pageWalk core ctx n m gen) s fun t =>
      Timer.mk false d (.pageWalk core ctx n (versionOf s ctx) (gen + 1)) ∈ t.sch.timers) ∧
    (let z := if 8 ≤ gen ∧ walkHolds s ctx = false then s.updCtx ctx fun x => { x with hold := false } else s
      ∀ e y tg, walk z ctx (BitVec.ofNat 64 n) 0 = .ok e → walked z ctx (BitVec.ofNat 64 n) = some y → e.target = .none →
        locate (installTlb y core e) core ctx e.part e.streamed = .ok tg u →
        Leads (.pageWalk core ctx n (versionOf s ctx) gen) s (setTarget u core ctx e.vpart tg)) ∧
    (∀ fk r b, die < 8 → primaryLine s die line = some (fk, r) → r.valid = false →
      (homeReadOp s line die = .ok b u → Leads (.homeRead line die) s (installLine u die fk line b)) ∧
      (homeRfoOp s line die = .ok b u → Leads (.homeReadForOwnership line die) s (installLine u die fk line b))) ∧
    (∀ fk r b, die < 8 → primaryLine s die line = some (fk, r) → r.valid = true → r.state = .s ∨ r.state = .o →
      homeRfoOp s line die = .ok b u →
      Leads (.homeUpgrade line die) s (u.setLine (flKey fk (line % 512)) (upgraded u (line * 128) r b.dirty))) ∧
    (∀ k r bs, die < 8 → dieLine s die line = some (k, r) → r.state = .m ∨ r.state = .o →
      (Goes (.writeBack line ⟨die, bs⟩) s fun t => t = giveUp s die line) ∧
      (Goes (.forwardedRead line die) s fun t => (t.line k).state = .o ∧ (t.dirOf line).state = .owned ∧
        (t.dirOf line).owner = die) ∧
      (recallFrom s line die = .ok () u → Leads (.forwardedReadForOwnership line die) s u)) ∧
    (∀ k r, die < 8 → dieLine s die line = some (k, r) → r.state = .s ∨ r.state = .e →
      (Goes (.cleanEvictionNotice line die n) s fun t => t = raiseHome (giveUp s die line) (line * 128) n) ∧
      (recallFrom s line die = .ok () u → Leads (.invalidation line die) s u)) ∧
    (die < 8 → registerHolder s part die = .ok () u → Leads (.holderRegistration part die) s u) ∧
    (die < 8 → backInvalidate s die part = .ok () u → Leads (.backInvalidation part die) s u) ∧
    (sealsLine s ctx n line = false → logShort s ctx (combineLogs s ctx n line) = false → combineAt s ctx n line = .ok () v →
      Leads (.combine ctx n line) s v) ∧
    (sealsLine s ctx n line = true → sealWaits s ctx = false →
      combineAt (takeSeal s ctx) ctx n line true false true = .ok () v → Leads (.combine ctx n line) s v)

/-- WAIT_COUNTER_POLL enters a record whose counter has come to its target in its queue, WAIT_COUNTER_RETRY performs
an owed increment; DISPATCH_PLACEMENT places the waves of a group on one core, in free slots, with their first
registers, and no other wave changes; HEAD_AGING and GRID_CLOSE act on heads and grids; COPY_START and COPY_STOP
begin and stop a copy, COPY_COMPLETE of a copy that has landed advances its counter by INCR, if that is not done, and
ends it; the engine steps perform one operation and end at the last; ARRAY_OPERATION_COMPLETE takes the head from the
queue; the ring steps write records and replies; SAMPLE and TRACE_RECORD_WRITE write what is due. A counter that
advances holds the sum modulo 2^64. The order in which contexts take turns on a core (log 4) and in which the wait
list enters its queue (log 37) is the model's. -/
def Obligations.WorkSteps : Prop :=
  ∀ (s u v : State) (ctx id core n : Nat),
    (∀ j d t₁ t₂ b z, s.job? ctx id = some j → j.state = .waiting → j.ready = false →
      clCheck s (launchCore s ctx) ctx j.lr.waitCnt 8 pR = .ok (d, t₁) → combineFirst t₁ d = .ok () t₂ →
      clRead t₂ d 8 = .ok (b, z) u → j.lr.waitTgt.toNat ≤ leNat b →
      let w := u.updJob ctx id fun j => { j with ready := true }
      Leads (.waitCounterPoll ctx id) s (enterReady w ctx) ∧
        ∀ y k, w.ctx? ctx = some y → y.jobs.filter (fun j => j.state == .waiting && j.ready) = [k] →
          enterReady w ctx = if queueLength y k.lr.queue < 512 then
            enterQueue (w.setCtx ctx { y with jobs := y.jobs.filter (fun j => j.id != k.id) }) ctx k.lr else w) ∧
    (∀ j, s.job? ctx id = some j → j.state ≠ .waiting →
      (j.dues = [] → Leads (.waitCounterRetry ctx id) s (dropJob s ctx id)) ∧
      ∀ d, j.dues = [d] → d.when ≤ s.clk.tick → (logFull s ctx && sealWaits s ctx) = false →
        bump (logRoom s ctx) (launchCore (logRoom s ctx) ctx) ctx d.cnt d.incr = .ok () u →
        Leads (.waitCounterRetry ctx id) s
          ((u.updJob ctx id fun j => { j with dues := j.dues.eraseIdx 0 }).ensureSoon (.waitCounterRetry ctx id))) ∧
    (∀ j is k, pickPlace (noteHeads s ctx) ctx = some (j, is, k, u) → rivalTurn (noteHeads s ctx) ctx k = none →
      j.lr.width ≤ 64 → (j.lr.teamPol = 2 → is.length ≤ 2) → Goes (.dispatchPlacement ctx) s fun t =>
        (t.core k).turn = ctx ∧ j.lr.dieOk (k / 32) = true ∧ (∀ wid w, s.wave? wid = some w → t.wave? wid = some w) ∧
        ∀ i ∈ is, ∃ wid v, coreOf wid = k ∧ s.wave? wid = none ∧ t.wave? wid = some v ∧ v.ctx = ctx ∧ v.job = j.id ∧
          v.index = i ∧ v.width = j.lr.width ∧ v.budget = j.lr.budget ∧ v.state = .running ∧ v.owed = [] ∧
          (v.path 0).e = { kind := .path, pc := j.lr.entry, mask := maskOf (List.range j.lr.width) } ∧
          HoldsAll t wid (wX 0 (argsOf j i) false ++ [wS 2 (BitVec.ofNat 32 i)]) ∧
          (∀ x, x < j.lr.width → HoldsAll t wid (wW 0 x (argsOf j i) false ++
            [.v 2 x ⟨BitVec.ofNat 32 (i * j.lr.width + x), false⟩])) ∧
          ∀ r x, 3 ≤ r → vAt t wid r x = ⟨0, false⟩ ∧ sAt t wid r = ⟨0, false⟩ ∧ pAt t wid (r - 3) x = ⟨false, false⟩) ∧
    (∀ x j h, s.ctx? ctx = some x → headOf x n = some j → j.headAt = some h → h + 4096 * (j.aged + 1) ≤ s.clk.tick →
      Goes (.headAging ctx n) s fun t => ∃ y k, t.ctx? ctx = some y ∧ k ∈ y.jobs ∧ k.id = j.id ∧
        k.aged = (s.clk.tick - h) / 4096) ∧
    (∀ x j, s.ctx? ctx = some x → j ∈ x.jobs → j.state = .grid → j.lr.queue = n → j.arrived + 256 ≤ s.clk.cycle →
      Goes (.gridClose ctx n) s fun t => ∃ y, t.ctx? ctx = some y ∧ ∀ k ∈ y.jobs, k.state = .grid → k.lr.queue ≠ n) ∧
    (∀ c h, s.copy? id = some c → c.started = false → ctxRuns s c.ctx = true → readShape s c = .ok h u →
      (h.empty = true ∨ shapeCheck u c h = none) → copyBkpt u c h = none →
      (c.op == 2 && !h.empty && tileBusy (u.core c.core) [] [(bits h.dense 0 4).toNat] none) = false →
      Leads (.copyStart id) s (beginCopy u c h)) ∧
    (∀ c h f, s.copy? id = some c → c.shape = some h → c.failure = none → c.stopped = false → c.landed = false →
      moveLine s c h = .fail f → parkOwner s { c with stopped := true } (.copy id) f = .parked u → Goes (.copyStop id) s fun t => ∀ y ∈ t.copies, y.id = id → y.stopped = true) ∧
    (∀ c h, s.copy? id = some c → c.shape = some h → c.landed = true → c.chained = true →
      (c.paid = true → Goes (.copyComplete id) s fun t => ∀ y ∈ t.copies, y.id ≠ id) ∧
      let z := copyProg (s.endTileOp c.core id) c false false
      let d := { c with paid := true }
      c.paid = false → (logFull z c.ctx && sealWaits z c.ctx) = false →
        bump (logRoom z c.ctx) c.core c.ctx h.cnt h.incr = .ok () u → u.copy? id = some c →
        Leads (.copyComplete id) s (dropCopy (u.setCopy d) d h.empty) ∧
          ∀ y ∈ (dropCopy (u.setCopy d) d h.empty).copies, y.id ≠ id) ∧
    (∀ p m x y t, checkPtr p 8 .globalDev = none → translate s core ctx p pRW = .ok (x, y) →
      combineFirst y x.dev = .ok () t → t.dirOf (lineOf x.dev) = {} → t.homes.dual = [] → bump s core ctx p m = .ok () u →
      Memory.readN u.mem x.dev 8 = leBytes ((leNat (Memory.readN t.mem x.dev 8) + m) % 0x10000000000000000) 8) ∧
    (∀ r, s.request? core id = some r → r.ended = false → ctxRuns s r.ctx = true → r.begun = true →
      (logFull (s.setRequest core { r with begun := true }) r.ctx &&
        sealWaits (s.setRequest core { r with begun := true }) r.ctx) = false → ∀ e op, (e, op) ∈ [(Instr.gather core id, gatherStep), (.bilerp core id, bilerpStep), (.search core id, searchStep)] →
      (r.count ≤ r.done → Goes e s fun t => (∀ q ∈ (t.core core).scope, q.id = id → q.ended = true) ∧
        .engineRequestComplete core id ∈ t.sch.agenda) ∧
      (∀ q, r.done < r.count → op (logRoom (s.setRequest core { r with begun := true }) r.ctx) core { r with begun := true }
        = .ok q u → Leads e s ((u.setRequest core q).after 1 e))) ∧
    (∀ r, s.request? core id = some r → r.ended = true → r.noted = false →
      (logFull s r.ctx && sealWaits s r.ctx) = false → writeCrec (logRoom s r.ctx) core r = .ok () u →
      advanceCnt (u.setRequest core { r with noted := true }) core { r with noted := true } = .ok () v →
      Goes (.engineRequestComplete core id) s fun t => ∀ q ∈ (t.core core).scope, q.id ≠ id) ∧
    (∀ o, arrHead s core = some o → o.total ≤ o.done →
      Goes (.arrayOperationComplete core) s fun t => ∀ x ∈ (t.core core).arrayQ, x.id ≠ o.id) ∧
    (∀ x w z, s.ctx? ctx = some x → ringToken s ctx = true →
      writeHeader s ctx = .ok () u → writeVoids u ctx 4096 = .ok () v → writeLost v ctx = .ok () w →
      writeHeld w ctx 1 = .ok false z → (ringOf z ctx).held = [] →
      ((ringOf s ctx).report = none ∨ s.sch.timers.all (fun t => t.ev != .ringWriteRetry ctx) = true →
        Leads (.ringRecordWrite ctx) s z) ∧ Leads (.ringWriteRetry ctx) s z) ∧
    (∀ o p, s.outst? ctx id = some o → o.closed = false → o.done = false → o.path = none → 1 ≤ n → n ≤ 3 →
      (ringOf s ctx).report ≠ some id → (∀ h ∈ (s.core (coreOf o.wave)).launches, h.refused = none) →
      let z := s.updOutst ctx id fun o => { o with done := true, action := n }
      z.outst? ctx id = some p → p.done = true ∧ p.action = n ∧
        (∀ d a, p.reply = some d → ringChange z (p.ring.getD ctx) d 8 (fun _ => leBytes (0x8000000000000000 + n) 8) = .ok a u →
          Leads (.ringReply ctx id n) s (closeOutst u ctx p)) ∧
        (p.reply = none → p.ring = none → Leads (.ringReply ctx id n) s (closeOutst z ctx p))) ∧
    (∀ x r rest, (s.core core).traceQ = r :: rest → s.ctx? r.ctx = some x → bit x.obsCtl 0 = true →
      flushLost s core r.ctx x = .ok () u →
      alongside s u (fun s => obsRecord s r.ctx core x.obsT x.obsTlog 16 (leBytes r.lo.toNat 8 ++ leBytes r.hi.toNat 8))
        = .ok () v →
      Goes (.traceRecordWrite core) s fun t => (t.core core).traceQ = (v.core core).traceQ.drop 1) ∧
    (∀ x r, (s.core core).sampleQ = [r] → s.ctx? r.ctx = some x → bit x.obsCtl 1 = true →
      obsRecord s r.ctx core x.obsS x.obsSlog 32 (sampleBytes r) = .ok () u →
      Leads (.sample core n) s (u.setCore core { u.core core with sampleQ := [] }))

/-- HOME_FAILURE_RECOVERY marks a die as down and, once its leases and the home marks have passed, clears its bit in
DIEUP; HOMELOST_CLEAR ends a loss; DUAL_HOME_OPEN opens the dual-home window of a page, SWITCH switches it, and after
PURGE_COMPLETE none of that page is switched; DEVICE_UNREACHABLE and MEMORY_DEVICE_LOSS lose what they name;
POISON_RESPONSE poisons a line. While the link is up, MEMRD, MEMWR, MEMINV and the snoops answer the host, each at
the present home of its line, and an unsupported request is answered and counted; BISNP_RESPONSE ends the host's
hold; HOST_LINK_RESET and HOST_LINK_TRAINED take the link down and up; BAR0_WRITE keeps the mailbox, and BAR0 reads
as R368 states; ATTESTATION_REQUEST gives a report; FLIT_CRC_RETRY counts the retries of one flit or ends a port. The
hold of MEMINV, the host enabled at training, the list of replies (log 34), the queue of host requests (log 45) and
when a recovery goes on (log 40) are the model's. -/
def Obligations.HomeAndHostSteps : Prop :=
  ∀ (s u : State) (die part line page base n : Nat) (nonce : BitVec 256) (val : BitVec 64) (bs : List Byte) (pz : Bool),
    ((s.die die).down = false → Goes (.homeFailureRecovery die) s fun t => s.sch.hits = [] → (t.die die).down = true) ∧
    ((s.die die).down = true → s.dev.dieUp.getLsbD die = true → die < 8 →
      removalDue s (fun a => homedOn s die a || (kindOf a == 1 && deviceOf a == s.dev.devId.toNat)) = none → markDue s = none →
      Goes (.homeFailureRecovery die) s fun t => t.dev.dieUp.getLsbD die = false) ∧
    (∀ ls, Sp.find s.homes.lost part = some ls → Goes (.homelostClear part) s fun t => Sp.find t.homes.lost part = none) ∧
    (kindOf base = 0 → base % 0x200000 = 0 → base / 0x200000 ≠ page → installed s base = true → extentFree s base = true →
      (s.homes.dual.any fun w => w.page == page || w.base / 0x200000 == base / 0x200000) = false →
      Goes (.dualHomeOpen page base) s fun t => t.homes.dual = s.homes.dual ++ [{ page := page, base := base }]) ∧
    (∀ w, s.homes.dual.find? (fun w => w.page == page && !w.switched) = some w →
      (s.ctxs.any fun c => decide (64 < (movedFlat (page * 0x200000) 0x200000 w.base c.2).length)) = false →
      movePage s w = .ok () u → Goes (.switch page) s fun t =>
        { w with switched := true, redirect := true } ∈ t.homes.dual) ∧
    (Goes (.purgeComplete page) s fun t => ∀ w ∈ t.homes.dual, w.page = page → w.switched = false) ∧
    (n ∈ s.dev.present →
      (n ∉ s.dev.failing → Goes (.deviceUnreachable n) s fun t => n ∈ t.dev.failing ∧ n ∈ t.dev.present) ∧
      (n ∈ s.dev.failing → removalDue s (fun a => deviceOf a == n) = none → markDue s = none →
        Goes (.deviceUnreachable n) s fun t => n ∉ t.dev.present)) ∧
    (Goes (.memoryDeviceLoss die base n) s fun t => ∀ i, i < n / 65536 → kindOf ((base / 65536 + i) * 65536) = 1 →
      (base / 65536 + i) % 8 = die → (Sp.find t.homes.lost (base / 65536 + i)).isSome) ∧
    (Goes (.poisonResponse line) s fun t => t.homePoison line = true ∧ t.mem = s.mem) ∧
    (let z (i : Instr) : State := { (s.fresh).2 with dev := { (s.fresh).2.dev with hostQ := [((s.fresh).1, i)] } }
      let done (w : State) : State := { w with dev := { w.dev with hostQ := [] } };
      s.dev.hostUp = true → s.dev.hostQ = [] →
      (inWindow s base n = true → hostRead (z (.memrd base n)) (nowAt s base) n = .ok (bs, pz) u →
        Goes (.memrd base n) s fun t => t.dev.replies = u.dev.replies ++ [some (base, bs)]) ∧
      (inWindow s base bs.length = true → hostWrite (z (.memwr base bs)) (nowAt s base) bs = .ok () u →
        Leads (.memwr base bs) s (done u)) ∧
      (inWindow s (line * 128) 128 = true → ownDev (z (.meminv line)) (nowAt s (line * 128) / 128) s.dev.hostId = .ok () u →
        Leads (.meminv line) s (done u) ∧ (u.dirOf (nowAt s (line * 128) / 128)).oremote = true ∧
          (u.dirOf (nowAt s (line * 128) / 128)).odev = s.dev.hostId)) ∧
    (∀ i, i = .memrd base n ∨ i = .memwr base bs ∨ i = .meminv line → s.dev.hostUp = true →
      (∀ a, hostAsk i = some a → inWindow s a.1 a.2 = true) →
      (s.dev.hostQ.any fun x => x.1 != s.sch.nextId && oneLine x.2 i) = true → (s.dev.hostQ.all fun x => x.1 != s.sch.nextId) = true →
      Goes i s fun t => t.dev.hostQ = s.dev.hostQ ++ [(s.sch.nextId, i)] ∧ t.mem = s.mem ∧ t.homes = s.homes ∧
        t.dev.replies = s.dev.replies) ∧
    (s.dev.hostUp = true → inWindow s base n = false →
      Goes (.memrd base n) s fun t => t.dev.hostCnt = s.dev.hostCnt + 1 ∧ t.dev.replies = s.dev.replies ++ [none]) ∧
    (Goes (.bisnpResponse line) s fun t => devHolds (t.dirOf (nowAt s (line * 128) / 128)) s.dev.hostId = false) ∧
    (∀ v, s.dev.hostUp = true → hostLine s line = true → combineFirst s (line * 128) = .ok () v → clRead v (line * 128) 128 = .ok (bs, pz) u →
      (Goes (.snpcur line) s fun t => t.dev.replies = u.dev.replies ++ [some (line * 128, bs)]) ∧
      (Goes (.snpdata line) s fun t => t.dev.replies = u.dev.replies ++ [some (line * 128, bs)])) ∧
    (∀ v, s.dev.hostUp = true → hostLine s line = true → combineFirst s (line * 128) = .ok () v → recallAll v line = .ok () u →
      Goes (.snpinv line) s fun t => t.dev.replies = u.dev.replies ++ [some (line * 128, Memory.readN u.mem (line * 128) 128)]) ∧
    (s.dev.hostUp = true → Goes .hostUnsupportedRequest s fun t => t.dev.hostCnt = s.dev.hostCnt + 1 ∧
      t.dev.replies = s.dev.replies ++ [none] ∧ t.mem = s.mem ∧ t.homes = s.homes) ∧
    (Goes .hostLinkReset s fun t => t.dev.hostUp = false ∧ t.dev.hostOn = false) ∧
    (Goes .hostLinkTrained s fun t => t.dev.hostUp = true ∧ t.dev.hostOn = true) ∧
    (s.dev.hostUp = true → 0x1000 ≤ n → n < 0x2000000 → Goes (.bar0Write n val) s fun t => bar0Read t n = val) ∧
    (s.dev.state < 16 → let v := bar0Read s 0
      bits v 0 4 = BitVec.ofNat 4 s.dev.state ∧ bits v 4 4 = s.clk.throttle.setWidth 4 ∧ bits v 8 26 = 0 ∧
      bits v 34 6 = s.dev.devId ∧ bits v 40 8 = s.dev.dieUp ∧ bits v 48 16 = 0) ∧
    bar0Read s 8 = s.dev.hostCnt ∧ (n < 0x1000 → n ≠ 0 → n ≠ 8 → bar0Read s n = 0) ∧
    (n < 0x1000 → Goes (.bar0Write n val) s fun t => t = s) ∧
    (s.dev.power = true → serviceUpdate s = false → Goes (.attestationRequest nonce) s fun t => ∃ r sig, t.dev.reports = s.dev.reports ++ [r] ∧
      r = leBytes nonce.toNat 32 ++ leBytes s.dev.fw.toNat 32 ++
        sha256 ((List.range 8).flatMap fun d => leBytes (if s.dev.dieUp.getLsbD d then (s.dev.tower.getD d 0).toNat else 0) 32) ++
        sha256 ((List.range 8).flatMap fun d => leBytes (s.dev.engine.getD d 0).toNat 32) ++ leBytes s.dev.svn 8 ++ leBytes s.dev.devId.toNat 1 ++ leBytes s.dev.dieUp.toNat 1 ++
        leBytes s.parts.length 2 ++ leBytes 0 4 ++ sig ∧ sig.length = 64) ∧
    (n < 16 → (Sp.get {} s.dev.ports n).down = false →
      let p := Sp.get {} s.dev.ports n
      let tries := if p.flit = line then p.retries else 0
      (tries < 8 → Goes (.flitCrcRetry ⟨n, line⟩) s fun t =>
        (Sp.get {} t.dev.ports n).retries = tries + 1 ∧ (Sp.get {} t.dev.ports n).flit = line) ∧
      (8 ≤ tries → Goes (.flitCrcRetry ⟨n, line⟩) s fun t =>
        (Sp.get {} t.dev.ports n).down = true ∧ ∀ r ∈ t.dev.routes, n ∉ r.2))

/-- CHECKPOINT of a partition that is quiet empties the undo log and comes again, and else lets the partition pause;
SLICE_END, SLICE_START, LEND_UNIT, RECLAIM, UNIT_DRAIN, BANK_POWER_OFF and BANK_POWER_ON do what they name;
ROOT_CONFIGURATION makes a STOPPED root with its partition; the completion of CTXSTOP, CTXKILL, CTXREVOKE and TLBINV
advances the counter that is owed; MODULE_POWER_ON boots, the ends of power leave only what is fused and the memory
outside the towers; THROTTLE_STEP sets the clock; LOCAL_UE and REGISTER_UE poison what they name. The pause before a
checkpoint and the first run by SLICE_START (log 32), when a unit is lent, left and drained and a bank goes off (log
33), and that power-off sets the clocks to 0 and keeps what it keeps (log 42) are the model's. -/
def Obligations.PartitionAndPowerSteps : Prop :=
  ∀ (s u v : State) (root core ctx off n k m : Nat) (b : BootIn) (thr : BitVec 3) (cfg : RootCfg) (all : Bool)
    (keep : List (Nat × Nat)) (p : Word64),
    (∀ q x, s.part? root = some q → s.ctx? root = some x → q.ended = false → x.state ≠ .preempted →
      Goes (.checkpoint root) s fun t =>
        if partQuiet s root then (t.part? root).map (·.log) = some [] ∧ ∃ y ∈ t.sch.timers, y.ev = .checkpoint root
        else (t.part? root).map (fun p => (p.log, p.pausing)) = some (q.log, true)) ∧
    (∀ q x, s.part? root = some q → s.ctx? root = some x → x.state ≠ .preempted →
      rollPart s root (.sliceEnd root) = (u, true) → ctxsAtRest u (subtreeOf u root) = true → Leads (.sliceEnd root) s (freePart u root)) ∧
    (∀ q x, s.part? root = some q → s.ctx? root = some x →
      (x.state = .stopped → x.started = false → Leads (.sliceStart root) s (firstRun s root)) ∧
      (∀ z, x.state = .preempted → q.ended = false → settleSnap s root (q.snap.cores.map fun k => k.1) q.snap = some z →
        carvesRoom s root = (u, true) →
        Leads (.sliceStart root) s (wakePart (setCounters (putLocals (carveAll u root) z.locals z.lpoison) (partCores u root)
          (z.lps.filter fun l => (partCores u root).contains (l.1 / 32))) root z))) ∧
    (∀ o q b, s.parts.find? (fun p => (unitsOf s p.1).getLsbD core) = some (o, q) → s.part? root = some b →
      canLend (s.setCore core { s.core core with leaving := false }) core o root = true → bankAtRest s core = true →
      asleep s o = true ∨ partQuiet s o = true →
      Goes (.lendUnit core root) s fun t => (t.part? root).map (·.lent) = some (b.lent ++ [(core, o)])) ∧
    (∀ b q, s.parts.find? (fun p => p.2.lent.any fun l => l.1 == core) = some (b, q) →
      let o := ((q.lent.find? (fun l => l.1 == core)).map (fun l => l.2)).getD 0
      Leads (.reclaim core) s (leaveCore s b core (.reclaim core) fun s => returnUnit s core b o)) ∧
    (let z := s.setCore core { s.core core with draining := true };
      holderOf z core = none → core < 256 → ((s.core core).draining && coreClear s core) = false → bankAtRest z core = true →
      Leads (.unitDrain (.core core)) s (coreDrained z core true)) ∧
    (core < 256 → (s.core core).bankOn = true → holderOf s core = none → bankAtRest s core = true →
      Goes (.bankPowerOff (.bank core)) s fun t => (t.core core).bankOn = false) ∧
    (core < 256 → (Goes (.bankPowerOff (.loupe core)) s fun t => (t.core core).loupeOn = false) ∧
      (Goes (.bankPowerOn (.luna core)) s fun t => (t.core core).lunaOn = true) ∧
      (Goes (.unitDrain (.luna core)) s fun t => (t.core core).lunaOn = false)) ∧
    (core < 256 → (s.core core).bankOn = false → s.parts = [] → Goes (.bankPowerOn (.bank core)) s fun t =>
      (t.core core).bankOn = true ∧ ∀ f ∈ t.frames, f.1 / 256 ≠ core) ∧
    (let c := confOf cfg.conf
      ∀ e, rootOk s cfg c = true → s.part? cfg.id = none → (c.localfr = 0 ∧ e = none) ∨
        (c.localfr ≠ 0 ∧ rootEntry s cfg c = e ∧ e.isSome) → carveRoom s c.localfr (coresIn c.units) = (u, true) →
      Goes (.rootConfiguration cfg) s fun t => (t.ctx? cfg.id).map (fun x => (x.state, x.conf, x.parent, x.entry)) =
        some (.stopped, c, none, e) ∧ (t.part? cfg.id).map (fun p => (p.period, p.logMax, p.area)) =
        some (cfg.period, cfg.logMax, cfg.area)) ∧
    (∀ x q i rest, s.ctx? ctx = some x → x.stops = (q, i) :: rest →
      (s.waves.any fun w => inSubtree s ctx w.2.ctx && (w.2.accs.any (fun a => !a.early && a.faulted.isNone) ||
        !w.2.pend.isEmpty)) = false → (logFull s i && sealWaits s i) = false →
      bump (logRoom s i) (launchCore (logRoom s i) i) i q 1 = .ok () u →
      Leads (.ctxstopComplete ctx) s ((u.updCtx ctx fun x => { x with stops := rest }).soon (.ctxstopComplete ctx))) ∧
    (∀ i q, s.ctxs.findSome? (fun y => (y.2.kills.find? (fun k => k.1 == ctx)).map (fun k => (y.1, k.2))) = some (i, q) →
      (logFull s i && sealWaits s i) = false → bump (logRoom s i) (launchCore (logRoom s i) i) i q 1 = .ok () u →
      Leads (.ctxkillComplete ctx) s ((u.updCtx i fun x => { x with kills := x.kills.erase (ctx, q) }).soon
        (.ctxkillComplete ctx))) ∧
    (∀ x, (∀ w ∈ s.waves, w.2.win = none) → s.ctx? ctx = some x →
      (let w := restartWalks (dropTlb s fun e => inSubtree s root e.ctx) fun c _ => inSubtree s root c
       begunWith s (fun c _ => inSubtree s root c) = false → (logFull w ctx && sealWaits w ctx) = false →
       bump (logRoom w ctx) (launchCore (logRoom w ctx) ctx) ctx p 1 = .ok () v → Leads (.ctxrevokeComplete ctx root p) s v) ∧
      (let within (c page : Nat) : Bool := c == root && (all || (decide (k ≤ page) && decide (page < k + m)))
       let w := restartWalks (dropTlb s fun e => within e.ctx (e.vpart / 32)) fun c va => within c (va / 0x200000)
       begunWith s (fun _ x => x.ent.any fun e => within e.ctx (e.vpart / 32)) = false →
       (logFull w ctx && sealWaits w ctx) = false →
       bump (logRoom w ctx) (launchCore (logRoom w ctx) ctx) ctx p 1 = .ok () v → Leads (.tlbinvComplete ctx root k m all p) s v)) ∧
    (s.dev.power = false → Goes (.modulePowerOn b) s fun t => t.dev.power = true ∧
      (firstImage s.dev.minSvn (b.slots.take 4) = none → t.dev.state = 4 ∧ t.dev.minSvn = s.dev.minSvn) ∧
      (∀ i, firstImage s.dev.minSvn (b.slots.take 4) = some i → t.dev.svn = i ∧ t.dev.minSvn = max s.dev.minSvn b.raiseTo ∧
        let ok := b.restOk && b.linksOk && routesOk b.routes && hdmOk b.hdm
        t.dev.state = (if ok then (if b.towers = 0xFF then 2 else 3) else 4) ∧
        (ok = true → t.dev.dieUp = b.towers ∧ t.dev.devId = b.routes.own ∧ t.dev.routes = b.routes.entries ∧
          t.dev.hdm = b.hdm ∧ t.dev.hostUp = b.hostLink))) ∧
    (Goes (.throttleStep thr) s fun t => t.clk.throttle = thr ∧ t.clk.cycle = s.clk.cycle) ∧
    (∀ e, e = .thermalPowerOff ∨ e = .modulePowerLoss → Goes e s fun t => t.waves = [] ∧ t.ctxs = [] ∧ t.parts = [] ∧
      t.fmem = [] ∧ t.clk.cycle = 0 ∧ t.dev.power = false ∧ t.dev.minSvn = s.dev.minSvn ∧
      ∀ a, kindOf a ≠ 0 ∨ deviceOf a ≠ s.dev.devId.toNat → Memory.read t.mem a = Memory.read s.mem a) ∧
    (endSlices s (.orderlyPowerOff keep) (s.parts.length + 1) = (u, true) →
      preservePages keep (evictAll u (List.range 4096)) = (v, none) →
      Goes (.orderlyPowerOff keep) s fun t => t = powerOff v) ∧
    (off / 128 * 128 < localSize s core ctx → off / 128 * 128 < lstaticOf s ctx → s.sch.hits = [] →
      Goes (.localUe core ctx off) s fun t => (t.line (localAddr s core ctx (off / 128 * 128) / 128)).poison = true) ∧
    (∀ w, s.wave? n = some w → Goes (.registerUe (.vreg n k m)) s fun t => vAt t n k m = ⟨(w.v k m).val, true⟩) ∧
    (∀ w, s.wave? n = some w → Goes (.registerUe (.sreg n k)) s fun t => sAt t n k = ⟨(w.s k).val, true⟩) ∧
    (∀ w, s.wave? n = some w → Goes (.registerUe (.pred n k m)) s fun t => pAt t n k m = ⟨(w.p k m).val, true⟩) ∧
    (Goes (.registerUe (.tileWord core k m)) s fun t => t.wordPoison core k m = true) ∧
    (Goes (.registerUe (.tileScale core k m)) s fun t => t.sclPoison core k m = true) ∧
    (Goes (.registerUe (.accElem core k m)) s fun t => (t.accElem core k (m / 512) (m % 512)).poison = true)


/-! ### Traps, breakpoints, faults at issue (R145, R165, R193 to R200, R221, R230, R242) -/

/-- TRAP n completes by raising the fault TRAP with subcode n on the active threads of its path: the record holds
them as MASK and the address of the TRAP as PC, and is delivered as R199 states; TRAP without an active thread has no
effect; TRET.skip, the handler's answer, resumes after the TRAP, and TRET.retry at it; and the word of TRAP 5 decodes
to it. (R268) -/
def Obligations.TrapTaken : Prop :=
  decode 0x0000015F1E000235 = .ok (.trap .neutral 5) ∧
  ∀ (ctl : Ctl) (n : BitVec 8) (s : State) (c : Cur) (w : Wave) (x : Ctx), Issuing s c w x →
    (∀ v y, BeginsSealed (.trap ctl n) s c w → w.win = none → (underSeal s c w).wave? c.wave = some v →
      (underSeal s c w).ctx? w.ctx = some y → v.ctx = w.ctx → (v.path c.path).e = (w.path c.path).e → (v.path c.path).kept = none →
      v.paths.length = w.paths.length → ∃ t, exec (.trap ctl n) s = .next t ∧
      Faulted (underSeal s c w) t c.wave c.path v y c.pc c.base (nextPc c) .fault
        { code := Code.TRAP, sub := n.toNat, mask := actMask (.trap ctl n) s c w } ∧
      (c.base = c.pc → c.slot = 8 →
        (pathAt (applyAction t c.wave c.path 1) c.wave c.path).e.pc = c.pc ∧
        (pathAt (applyAction t c.wave c.path 1) c.wave c.path).park = none ∧
        (pathAt (applyAction t c.wave c.path 2) c.wave c.path).e.pc = nextPc c ∧
        (pathAt (applyAction t c.wave c.path 2) c.wave c.path).park = none)) ∧
    (Idles (.trap ctl n) s c w → c.rep = false →
      ∃ t, exec (.trap ctl n) s = .next t ∧ (pathAt t c.wave c.path).park = (w.path c.path).park ∧
        (pathAt t c.wave c.path).e = { (w.path c.path).e with pc := nextPc c } ∧
        t.dev.ring = s.dev.ring ∧ ∀ d, (t.ctx? d).map (·.ring) = (s.ctx? d).map (·.ring))

/-- BKPT n completes by writing a DEBUG_STOP record to the ring of the parent context, the management cluster for a
root context, with subcode 2, EXTRA n and the threads of the path as MASK; the path parks with STATE 101. A RETRY
reply resumes it at the BKPT, which then has no effect once; a SKIP reply resumes it after the BKPT. (R269) -/
def Obligations.BreakpointTaken : Prop :=
  ∀ (ctl : Ctl) (n : BitVec 8) (s : State) (c : Cur) (w : Wave) (x : Ctx), Issuing s c w x →
    BeginsSealed (.bkpt ctl n) s c w → w.win = none → c.base = c.pc → c.slot = 8 → c.rep = false →
    let p := w.path c.path
    let u := underSeal s c w
    ∀ v y, u.wave? c.wave = some v → u.ctx? w.ctx = some y → v.ctx = w.ctx → (v.path c.path).e = (w.path c.path).e → (v.path c.path).kept = none →
      v.paths.length = w.paths.length →
    (p.noMatch = false → ∃ t, exec (.bkpt ctl n) s = .next t ∧
      Faulted u t c.wave c.path v y c.pc c.pc (nextPc c) .debug
        { code := Code.DEBUG_STOP, sub := 2, mask := p.e.mask, extra := n.setWidth 64 } ∧
      (pathAt t c.wave c.path).e.state = .stopped ∧
      ringFor u w.ctx (faultRoute (v.path c.path) Code.DEBUG_STOP) = y.parent ∧ y.parent = x.parent ∧
      (pathAt (applyAction t c.wave c.path 1) c.wave c.path).e.pc = c.pc ∧
      (pathAt (applyAction t c.wave c.path 1) c.wave c.path).noMatch = true ∧
      (pathAt (applyAction t c.wave c.path 1) c.wave c.path).park = none ∧
      (pathAt (applyAction t c.wave c.path 2) c.wave c.path).e.pc = nextPc c ∧
      (pathAt (applyAction t c.wave c.path 2) c.wave c.path).park = none) ∧
    (p.noMatch = true → armedAt s c w = false → ∃ t, exec (.bkpt ctl n) s = .next t ∧
      (pathAt t c.wave c.path).e = { p.e with pc := nextPc c } ∧ (pathAt t c.wave c.path).noMatch = false ∧
      (pathAt t c.wave c.path).park = (v.path c.path).park ∧ RegsKept u t (fun _ _ _ => False) (fun _ _ => False) (fun _ _ _ => False) ∧
      MemKept u t ∧ SysKept u t)

/-- TRET.retry and TRET.skip complete in a handler path whose mask is the whole mask of the parked path it serves:
the handler path's entry is free, the parked path is ready again at its own address or after its instruction, its
record is DONE with the action, and the window count of the wave is 0. Anywhere else they fault ILLEGAL with subcode
9. -/
def Obligations.TrapReturns : Prop :=
  ∀ (skip : Bool) (ctl : Ctl) (s : State) (c : Cur) (w : Wave) (x : Ctx), Issuing s c w x →
    let i : Instr := if skip then .tretSkip ctl else .tretRetry ctl
    let action := if skip then 2 else 1
    Begins i s c w → armedAt s c w = false →
    (∀ k serial z, (w.path c.path).serves = some (k, serial) → (w.path k).e.mask = (w.path c.path).e.mask → k ≠ c.path →
      k < w.paths.length → (w.path k).kept = none → (w.path k).park = some z → z.kind = .fault ∨ z.kind = .debug → x.state = .running →
      ∃ t, exec i s = .next t ∧ pathAt t c.wave c.path = {} ∧
        (pathAt t c.wave k).e = { (w.path k).e with
          state := if (w.path k).serves.isSome then .handler else .ready,
          pc := if skip = true ∧ z.after ≠ z.pc then z.after else (w.path k).e.pc } ∧
        (pathAt t c.wave k).park = none ∧ (t.wave? c.wave).map (·.count) = some 0 ∧
        ∃ y, t.ctx? w.ctx = some y ∧ ∀ o ∈ y.ring.out, o.serial = serial → o.done = true ∧ o.action = action) ∧
    (((w.path c.path).serves = none ∨ ∃ k serial, (w.path c.path).serves = some (k, serial) ∧
        (w.path k).e.mask ≠ (w.path c.path).e.mask) → w.unperformed = false → ∃ t, exec i s = .next t ∧
      Faulted s t c.wave c.path w x c.pc c.base (nextPc c) .fault
        { code := Code.ILLEGAL, sub := 9, mask := (w.path c.path).e.mask })

/-- Taking a fault parks its path at its instruction with STATE 100, or 101 for DEBUG_STOP; the record with the next
serial of the context is held for the ring of its route (the context's own, or the parent's for GRANT, PRIV,
DEBUG_STOP and faults inside a handler); where TVEC is set and HMASK names the code, a free entry becomes a handler
path at TVEC with the mask of the parked path; no register and no byte of memory changes. -/
def Obligations.TakingAFault : Prop :=
  ∀ (s : State) (wid i : Nat) (w : Wave) (x : Ctx) (pc base next : Word64) (kind : ParkKind) (f : FaultInfo),
    s.wave? wid = some w → s.ctx? w.ctx = some x → (w.path i).e.kind = .path → i < w.paths.length →
    w.paths.length ≤ 16 →
    let t := takeFault s wid i pc base next kind f
    Faulted s t wid i w x pc base next kind f ∧
    RegsKept s t (fun _ _ _ => False) (fun _ _ => False) (fun _ _ _ => False) ∧ MemKept s t ∧ SysKept s t ∧
    (t.ctx? w.ctx).map (·.ring.serial) = some (nextSerial x.ring.serial)

/-- For every instruction but REP: an execute breakpoint stops it (DEBUG_STOP, subcode 1), in place of a step that is
armed; else a v register at or above the budget faults BUDGET with subcode 2; else a poisoned guard predicate faults
POISON_USE; while an access older than the place where the path came to a stop is unperformed, the stop waits (log
14), and a window of younger accesses is rolled back first; else, with no active thread, the instruction completes
without effect. A word that is not an instruction faults LEN, FETCH_CROSS or ILLEGAL unless an execute breakpoint
stops it first. -/
def Obligations.FaultsAtIssue : Prop :=
  ∀ (i : Instr) (b : Bad) (s : State) (c : Cur) (w : Wave) (x : Ctx), Issuing s c w x →
    let p := w.path c.path
    let Stops (e : Instr) (kind : ParkKind) (f : FaultInfo) : Prop :=
      let z : State := if kind = .debug ∧ armedAt s c w = true then disarm s w.ctx else s
      let waits : Bool := w.owesUntil ((w.path c.path).stopAt.getD w.seq)
      (waits = true → exec e s = .next (stallStop s c w.seq)) ∧
      (waits = false → w.unperformed = false → ∃ t, exec e s = .next t ∧
        Faulted z t c.wave c.path w x c.pc c.base (nextPc c) kind f) ∧
      ∀ v y, waits = false → w.unperformed = true → (rollback z c.wave false).wave? c.wave = some v →
        (rollback z c.wave false).ctx? v.ctx = some y → (v.path c.path).e.kind = .path → c.path < v.paths.length →
        v.paths.length ≤ 16 → ∃ t, exec e s = .next t ∧
          Faulted (rollback z c.wave false) t c.wave c.path v y c.pc c.base (nextPc c) kind f
    let stop (n : Nat) : FaultInfo :=
      { code := Code.DEBUG_STOP, sub := 1, mask := p.e.mask, extra := BitVec.ofNat 64 n }
    (i.wf = true → (∀ n d y z, i ≠ .rep n d y z) →
      (∀ n, execHit s c w = some n → Stops i .debug (stop n)) ∧
      (execHit s c w = none → w.budget < leastBudget i c w →
        Stops i .fault { code := Code.BUDGET, sub := 2, mask := p.e.mask }) ∧
      (execHit s c w = none → leastBudget i c w ≤ w.budget → guardPoison w s.sch.free (ctlOf i) p.e.mask ≠ 0 →
        Stops i .fault { code := Code.POISON_USE, mask := guardPoison w s.sch.free (ctlOf i) p.e.mask }) ∧
      (Idles i s c w → ∃ t, exec i s = .next t ∧
          RegsKept s t (fun _ _ _ => False) (fun _ _ => False) (fun _ _ _ => False) ∧ MemKept s t ∧ SysKept s t ∧
          (c.rep = false → (pathAt t c.wave c.path).e = { p.e with pc := nextPc c }))) ∧
    (∀ n, execHit s c w = some n → Stops (.notAnInstruction b) .debug (stop n)) ∧
    (execHit s c w = none → Stops (.notAnInstruction b) .fault
      { code := if b.len0 then Code.LEN else if b.cross then Code.FETCH_CROSS else Code.ILLEGAL, sub := b.subcode,
        mask := p.e.mask, extra := BitVec.ofNat 64 b.extra, addr := if b.cross then c.pc else 0 })


/-! ### Frames (R246) -/

/-- However they answer (a window that a stop rolls back first apart), the integer, address, predicate and move
instructions and SRD change no register but their destination, in the threads they act for; the floating-point,
conversion and cross-thread instructions, whose results arrive later, and NOP, YIELD, MEET, BRA, BRX, RET and EXIT
change none at issue. None changes a byte of memory, a line record, a directory word, a tile, %fstat, the lease, the
width, the team, %cprog, a lane pair counter or a configuration. -/
def Obligations.ComputeFrames : Prop :=
  ∀ (ctl : Ctl) (o : Prd) (i : Instr) (a d sel sh : BitVec 8) (sc w64 ds wide f1 f2 : Bool) (v : MoviVal) (m : BitVec 24)
    (off : BitVec 32) (len : Len) (vm : VoteMode) (sm : ShflMode) (op : RedOp) (b : Src),
    let no : Word64 → Nat → Nat → Prop := fun _ _ _ => False
    let none_ : Instr → Prop := fun e => Frame e no (fun _ => False) no
    let one (sc : Bool) (k : RegClass) (d : BitVec 8) (e : Instr) : Prop := Frame e
      (fun act r x => sc = false ∧ (k = .v ∨ k = .w) ∧ inDst k d.toNat r ∧ has act x = true)
      (fun r => sc = true ∧ inDst k d.toNat r)
      (fun act r x => sc = false ∧ k = .p ∧ r = d.toNat ∧ has act x = true)
    (∀ h y, aluShape i = some (h, y) → one y.s h.d y.dst i) ∧
    (∀ h y, fltShape i = some (h, y) → none_ i) ∧
    one sc (match v with | .word _ => .v | _ => .w) d (.movi ctl sc d v) ∧
    one sc (if w64 then .w else .v) d (.srd ctl sc w64 d sel) ∧
    one false .p o.dst (.pand o) ∧ one false .p o.dst (.por o) ∧ one false .p o.dst (.pxor o) ∧
    one false .p o.dst (.pnot o) ∧ one false .p o.dst (.pmov o) ∧ one false .v d (.p2v ctl d) ∧
    Frame (.v2p ctl a m) no (fun _ => False) (fun act r x => r < 24 ∧ m.getLsbD r = true ∧ has act x = true) ∧
    none_ (.vote ctl vm ds d a) ∧ none_ (.shfl ctl sm d a b) ∧ none_ (.wred ctl op f1 ds d a) ∧
    none_ (.wscan ctl op f1 f2 d a) ∧ none_ (.bcast ctl ds d a b) ∧
    none_ (.nop ctl len) ∧ none_ (.yield ctl sh) ∧ none_ (.meet ctl) ∧ none_ (.bra ctl wide off) ∧
    none_ (.brx ctl sc a) ∧ none_ (.ret ctl sc a) ∧ none_ (.exit ctl)

/-- The memory instructions change no register and no byte of memory when they issue. When one thread's part of an
STL through a local pointer that passes its checks is performed, the bytes at the frame address of the pointer are
those of its data and every other byte of frames and of memory reads as before; that of an LDL delivers the bytes
there and changes no byte. When one thread's part of an LD, ST, ATOM, CAS or CADD through another pointer is
performed, once its line has been brought to where it is accessed (at home or in a frame), LD delivers the bytes at
the device address; ST leaves its data there, ATOM its result, CAS its new value where the old one is the compared
one, and CADD outside the ranges of its slots the combined value, with every other byte of memory and of frames as
before; ATOM and CAS deliver the old bytes, and a CAS whose comparison fails changes no byte. CADD to a range changes
the partial of its element and no other byte. -/
def Obligations.AccessBytes : Prop :=
  (∀ (z : MSize) (o : Mem) (m : Atm) (k : BitVec 3) (op : AOp) (cop : COp) (f1 f2 : Bool) (ctl : Ctl) (a d : BitVec 8)
      (off : BitVec 32) (e : EArg) (r : Arr) (inc : Src),
    let no : Word64 → Nat → Nat → Prop := fun _ _ _ => False
    let none_ : Instr → Prop := fun i => Frame i no (fun _ => False) no
    none_ (.ld z o) ∧ none_ (.st z o) ∧ none_ (.ldl z o) ∧ none_ (.stl z o) ∧ none_ (.cadd cop o) ∧ none_ (.prf k o) ∧
    none_ (.atom op f1 f2 m) ∧ none_ (.cas m) ∧ none_ (.binit ctl a off e) ∧ none_ (.barv r) ∧ none_ (.bdrop r) ∧
    none_ (.btest ctl d a off) ∧ none_ (.cntadd ctl a inc)) ∧
  (∀ (s s₁ s₂ : State) (w : Who) (wid : Nat) (a : Access) (l : Lane) (x : Xl),
    let k := accKind a.instr
    let size := k.size
    let v := l.d0.toNat % 2 ^ (8 * size)
    let Does (u : State) (ws : List RegW) : Prop := ∃ y, laneOp s w wid a l = .ok y u ∧ y.fault = none ∧ y.writes = ws
    let Loads (wide : Bool) (o : Atm) (pz : Bool) (old : List Byte) : List RegW :=
      wordWrites o.s o.dst.toNat l.tid pz (loadWords (if wide then .n64 else .n32) old)
    laneCheck s w.core w.ctx l size k.want k.spaces = .ok (some x, s₁) →
    combineFirst s₁ x.dev l.xl.isNone true = .ok () s₂ →
    (∀ z o g t, a.instr = .ld z o → readAt s₂ w x = .ok g t →
      Does t (wordWrites o.s o.dst.toNat l.tid g.poison (loadWords z (placeBytes t g.place x.dev size)))) ∧
    (∀ g t, writeAt s₂ w x = .ok g t →
      let old := placeBytes t g.place x.dev size
      (∀ z o, a.instr = .st z o → ∃ u, Does u [] ∧ PlaceWritten t u g.place x.dev (leBytes l.d0.toNat size)) ∧
      (∀ op sgn nr o, a.instr = .atom op sgn nr o → ∃ u,
        Does u (if nr then [] else Loads o.wide o g.poison old) ∧
        PlaceWritten t u g.place x.dev (leBytes (atomNew op sgn (8 * size) (leNat old) v).1 size)) ∧
      (∀ o, a.instr = .cas o → leNat (curBytes s₂ x.dev size) = v → ∃ u, Does u (Loads o.wide o g.poison old) ∧
        PlaceWritten t u g.place x.dev (if leNat old = v then leBytes (l.d1.toNat % 2 ^ (8 * size)) size else old)) ∧
      (∀ o m, a.instr = .cadd o m → caddSlot s w.ctx o l.ptr = none → ∃ u, Does u [] ∧
        PlaceWritten t u g.place x.dev (leBytes (caddDirect o (BitVec.ofNat 32 (leNat old)) (l.d0.setWidth 32)) size))) ∧
    (∀ o g t, a.instr = .cas o → leNat (curBytes s₂ x.dev size) ≠ v → casReadAt s₂ w x = .ok g t → ∃ u,
      Does u (Loads o.wide o g.poison (placeBytes t g.place x.dev size)) ∧ u.mem = t.mem ∧ u.fmem = t.fmem) ∧
    ∀ o m slot r, a.instr = .cadd o m → caddSlot s w.ctx o l.ptr = some (slot, r) →
      ((List.range 8).any (fun d => diePinned s₁ d (lineOf x.dev)) && !w.own) = false →
      let e := match x.ent with | some e => locateEntry s₁ w.core w.ctx e.vpart | none => s₁
      let t := registerCore e w.core w.ctx slot r
      let n := (l.ptr.toNat - r.base.toNat) / copElem o
      let at_ := localAddr t w.core w.ctx (r.poff + 4 * n)
      ∃ u, Does u [] ∧ u.mem = t.mem ∧
        partialAt u w.core w.ctx r n = copApply o (partialAt t w.core w.ctx r n) (caddValue o (l.d0.setWidth 32)) ∧
        ∀ b, b < at_ ∨ at_ + 4 ≤ b → Memory.read u.fmem b = Memory.read t.fmem b) ∧
  ∀ (s : State) (w : Who) (wid : Nat) (a : Access) (l : Lane) (z : MSize) (o : Mem), spaceOf l.ptr = 1 → l.xl = none →
    laneFault s w.core w.ctx a.instr l = none →
    let n := Machine.sizeOf z
    let off := l.ptr.toNat % 0x400000
    let at_ := localAddr s w.core w.ctx off
    (a.instr = .stl z o → localPinned s (localLine s w.core w.ctx off) w.wave = false →
      ∃ y t, laneOp s w wid a l = .ok y t ∧ y.writes = [] ∧
      (foreignAt s w.core w.ctx off w.wave = false → Memory.readN t.fmem at_ n = leBytes l.d0.toNat n) ∧
      (∀ b, b < at_ ∨ at_ + n ≤ b → Memory.read t.fmem b = Memory.read s.fmem b) ∧
      (∀ b, Memory.read t.mem b = Memory.read s.mem b)) ∧
    (a.instr = .ldl z o → ∃ y t, laneOp s w wid a l = .ok y t ∧
      y.writes = wordWrites o.s o.dst.toNat l.tid (localPoison s w.core w.ctx off)
        (loadWords z (localRead s w.core w.ctx off n)) ∧ t.fmem = s.fmem ∧ t.mem = s.mem)

/-- RESULT_WRITTEN changes no register but those that the results on their way name, in the wave they belong to, and
no byte of memory, line record, tile, configuration or lane pair counter; of other waves no special register changes. -/
def Obligations.ResultFrame : Prop :=
  ∀ (s t : State) (wid id : Nat) (w : Wave), s.wave? wid = some w →
    (∀ q ∈ w.pend, ∀ r x, (∃ y, RegW.v r x y ∈ q.writes) ∨ (∃ y, RegW.p r x y ∈ q.writes) → x < 64) →
    exec (.resultWritten wid id) s = .next t →
    RegsKept s t (fun v r x => v = wid ∧ ∃ q ∈ w.pend, q.id = id ∧ ∃ y, RegW.v r x y ∈ q.writes)
      (fun v r => v = wid ∧ ∃ q ∈ w.pend, q.id = id ∧ ∃ y, RegW.s r y ∈ q.writes)
      (fun v r x => v = wid ∧ ∃ q ∈ w.pend, q.id = id ∧ ∃ y, RegW.p r x y ∈ q.writes) ∧
    MemKept s t ∧ (∀ v, v ≠ wid → specials t v = specials s v) ∧ (∀ c, ctxConf t c = ctxConf s c) ∧
    t.cores = s.cores ∧ t.dies = s.dies ∧ t.frames = s.frames ∧ t.lps = s.lps


/-! ### The machine (R6, R185 to R187) -/

/-- When a lane pair has its turn and one path of its one wave may begin, a step is exec of the instruction that the
bytes at the path's address decode to, on the state in which the path has been looked at (its STATE ready, no
register, memory byte or configuration changed), followed by the end of the turn. A step that is due is exec of it;
with neither due, a step is the next cycle of the device. That order of a step's choices is the model's (log 1). -/
def Obligations.StepRunsDecoded : Prop :=
  (∀ (s : State) (e : Instr) (es : List Instr), s.sch.agenda = e :: es →
    step s = exec e { s with sch := { s.sch with agenda := es } }) ∧
  (∀ s : State, s.sch.agenda = [] → s.sch.todo = [] → step s = exec .lanePairCycle s) ∧
  ∀ (s : State) (l : Nat) (ls : List Nat) (wid i slot : Nat) (w : Wave) (bs : List Byte) (j : Instr),
    s.sch.agenda = [] → s.sch.todo = l :: ls → lpOf wid = l → s.wave? wid = some w → (s.die (l / 1024)).down = false →
    issuePaused s w.ctx = false →
    (∀ v, lpOf v = l → v ≠ wid → s.wave? v = none) → (s.lp l).prog = [] → i < w.paths.length →
    (∀ k, k ≠ i → runnable s.clk.cycle (s.lp l) w k = false) → runnable s.clk.cycle (s.lp l) w i = true →
    let p := w.path i
    let word : BitVec 128 := BitVec.ofNat 128 (fieldAt bs (p.e.pc.toNat % 32) 16)
    p.block (blockOf p.e.pc) = some bs → bits word 0 2 ≠ 0 → slot = slotBytes word →
    ¬ (slot = 16 ∧ p.e.pc.toNat % 32 = 24) →
    decode (if slot = 8 then (bits word 0 64).setWidth 128 else word) = .ok j → (∀ n x y z, j ≠ .rep n x y z) →
    waitMet w (ctlOf j) true = true → distMet s.clk.cycle p (ctlOf j) = true →
    let u := (laneBegin { s with sch := { s.sch with todo := ls } } l).1
    let c : Cur := ⟨wid, i, p.e.pc, p.e.pc, slot, false⟩
    RegsKept s u (fun _ _ _ => False) (fun _ _ => False) (fun _ _ _ => False) ∧ MemKept s u ∧ SysKept s u ∧
    (pathAt u wid i).e = { p.e with state := if p.e.state = .handler then .handler else .ready } ∧
    step s = match exec j { u with sch := { u.sch with cur := some c, issued := false } } with
      | .next t => .next (laneEnd t l)
      | .fault f => .fault f
      | .refused r => .refused r

/-- After reset: no wave, no context, no partition and no operation exists; every frame is FREE at generation 0;
every directory word is NONE; eviction marks and home marks are 0; %cycle counts from 0; no tile or accumulator is
owned; and memory at home and in frames has its canonical form. That no team and no step is there either is the
model's choice of reset (logs 2, 20). -/
def Obligations.ResetState : Prop :=
  let s := State.reset
  s.waves = [] ∧ s.ctxs = [] ∧ s.parts = [] ∧ s.copies = [] ∧ s.clk.cycle = 0 ∧ s.sch.agenda = [] ∧
  (∀ k, (s.frame k).kind = .free ∧ (s.frame k).gen = 0) ∧ (∀ l, (s.dirOf l).state = .none) ∧
  (∀ d, (s.die d).evMark = 0 ∧ (s.die d).homeMark = 0 ∧ (s.die d).atlas = []) ∧
  (∀ k, (s.core k).owner = [] ∧ (s.core k).teams = []) ∧ Memory.wf s.mem ∧ Memory.wf s.fmem

/-- For every state whose memory at home and in frames is in canonical form (addresses strictly rising, no entry
equal to what an unlisted address reads as), the memory of the state after a step is in that form too. -/
def Obligations.MemoryStaysCanonical : Prop :=
  Kept fun s => Memory.wf s.mem ∧ Memory.wf s.fmem
end

