-- ==== Sys2Proof/Laws/Sparse.lean ====
section
/-!
SUPPORT. Sparse collections and memory: reading after setting, and the canonical form.
-/

namespace Sys2Proof.Machine

variable {α : Type}

@[simp] theorem Sp.find_insert (m : List (Nat × α)) (k : Nat) (v : α) : Sp.find (Sp.insert m k v) k = some v := by
  induction m with
  | nil => simp [Sp.insert, Sp.find]
  | cons a m ih =>
    simp only [Sp.insert]
    split
    · simp [Sp.find]
    · split
      · simp [Sp.find]
      · simp [Sp.find, *]

theorem Sp.find_insert_ne (m : List (Nat × α)) {k j : Nat} (v : α) (h : j ≠ k) :
    Sp.find (Sp.insert m k v) j = Sp.find m j := by
  induction m with
  | nil => simp [Sp.insert, Sp.find, h.symm]
  | cons a m ih =>
    simp only [Sp.insert]
    split
    · simp [Sp.find, h.symm]
    · split
      · next e => simp [Sp.find, e, h.symm]
      · simp [Sp.find, ih]

@[simp] theorem Sp.insert_insert (m : List (Nat × α)) (k : Nat) (v x : α) :
    Sp.insert (Sp.insert m k v) k x = Sp.insert m k x := by
  induction m with
  | nil => simp [Sp.insert]
  | cons a m ih =>
    simp only [Sp.insert]
    split
    · simp [Sp.insert]
    · split
      · simp [Sp.insert]
      · simp [Sp.insert, *]

@[simp] theorem Sp.find_erase (m : List (Nat × α)) (k : Nat) : Sp.find (Sp.erase m k) k = none := by
  induction m with
  | nil => rfl
  | cons a m ih =>
    simp only [Sp.erase]
    split
    · exact ih
    · simp [Sp.find, *]

theorem Sp.find_erase_ne (m : List (Nat × α)) {k j : Nat} (h : j ≠ k) : Sp.find (Sp.erase m k) j = Sp.find m j := by
  induction m with
  | nil => rfl
  | cons a m ih =>
    simp only [Sp.erase]
    split
    · next e => simp [Sp.find, ih, e, h.symm]
    · simp [Sp.find, ih]

@[simp] theorem Sp.get_put [DecidableEq α] (d : α) (m : List (Nat × α)) (k : Nat) (v : α) :
    Sp.get d (Sp.put d m k v) k = v := by
  unfold Sp.get Sp.put
  split <;> simp [*]

theorem Sp.get_put_ne [DecidableEq α] (d : α) (m : List (Nat × α)) {k j : Nat} (v : α) (h : j ≠ k) :
    Sp.get d (Sp.put d m k v) j = Sp.get d m j := by
  unfold Sp.get Sp.put
  split
  · rw [Sp.find_erase_ne m h]
  · rw [Sp.find_insert_ne m v h]

theorem Sp.mem_erase {m : List (Nat × α)} {k : Nat} {c : Nat × α} (h : c ∈ Sp.erase m k) : c ∈ m := by
  induction m with
  | nil => simp [Sp.erase] at h
  | cons a m ih =>
    simp only [Sp.erase] at h
    split at h
    · exact List.mem_cons_of_mem _ (ih h)
    · rcases List.mem_cons.1 h with rfl | h
      · exact List.mem_cons_self
      · exact List.mem_cons_of_mem _ (ih h)

theorem Sp.mem_insert {m : List (Nat × α)} {k : Nat} {v : α} {c : Nat × α} (h : c ∈ Sp.insert m k v) :
    c = (k, v) ∨ c ∈ m := by
  induction m with
  | nil => simpa [Sp.insert] using h
  | cons a m ih =>
    simp only [Sp.insert] at h
    split at h
    · simpa using h
    · split at h
      · rcases List.mem_cons.1 h with h | h
        · exact .inl h
        · exact .inr (List.mem_cons_of_mem _ h)
      · rcases List.mem_cons.1 h with rfl | h
        · exact .inr List.mem_cons_self
        · exact (ih h).imp id (List.mem_cons_of_mem _)

theorem Sp.sorted_erase {m : List (Nat × α)} (k : Nat) (h : Sp.Sorted m) : Sp.Sorted (Sp.erase m k) := by
  induction m with
  | nil => simp [Sp.erase, Sp.Sorted]
  | cons a m ih =>
    obtain ⟨h1, h2⟩ := List.pairwise_cons.1 h
    simp only [Sp.erase]
    split
    · exact ih h2
    · exact List.pairwise_cons.2 ⟨fun c hc => h1 c (Sp.mem_erase hc), ih h2⟩

theorem Sp.sorted_insert {m : List (Nat × α)} (k : Nat) (v : α) (h : Sp.Sorted m) : Sp.Sorted (Sp.insert m k v) := by
  induction m with
  | nil => simp [Sp.insert, Sp.Sorted]
  | cons a m ih =>
    obtain ⟨h1, h2⟩ := List.pairwise_cons.1 h
    simp only [Sp.insert]
    split
    · next lt =>
      refine List.pairwise_cons.2 ⟨fun c hc => ?_, h⟩
      rcases List.mem_cons.1 hc with rfl | hc
      · exact lt
      · exact Nat.lt_trans lt (h1 c hc)
    · split
      · next e => exact List.pairwise_cons.2 ⟨fun c hc => e ▸ h1 c hc, h2⟩
      · next nlt ne =>
        refine List.pairwise_cons.2 ⟨fun c hc => ?_, ih h2⟩
        rcases Sp.mem_insert hc with rfl | hc
        · exact Nat.lt_of_le_of_ne (Nat.le_of_not_lt nlt) ne
        · exact h1 c hc

/-- Setting what a key reads as keeps the canonical form. -/
theorem Sp.canon_put [DecidableEq α] {d : α} {m : List (Nat × α)} (k : Nat) (v : α) (h : Sp.Canon d m) :
    Sp.Canon d (Sp.put d m k v) := by
  unfold Sp.put
  split
  · exact ⟨Sp.sorted_erase k h.1, fun c hc => h.2 c (Sp.mem_erase hc)⟩
  · next ne =>
    refine ⟨Sp.sorted_insert k v h.1, fun c hc => ?_⟩
    rcases Sp.mem_insert hc with rfl | hc
    · exact ne
    · exact h.2 c hc

/-! ### Memory -/

/-- A value that a change keeps of each entry is kept of what a key reads as. -/
theorem Sp.get_map_rel {α : Type} {R : α → α → Prop} (d : α) (f : α → α) (hr : ∀ x, R (f x) x) (hd : R d d)
    (m : List (Nat × α)) (k : Nat) : R (Sp.get d (m.map fun x => (x.1, f x.2)) k) (Sp.get d m k) := by
  induction m with
  | nil => exact hd
  | cons x m ih =>
    by_cases h : x.1 = k
    · simpa [Sp.get, Sp.find, h] using hr x.2
    · simpa [Sp.get, Sp.find, h] using ih

@[simp] theorem Memory.read_write (m : List Host.Cell) (a : Nat) (b : Byte) :
    Memory.read (Memory.write m a b) a = b := Sp.get_put ..

theorem Memory.read_write_ne (m : List Host.Cell) {a x : Nat} (b : Byte) (h : x ≠ a) :
    Memory.read (Memory.write m a b) x = Memory.read m x := Sp.get_put_ne _ _ _ h

/-- A write keeps the canonical form. -/
theorem Memory.wf_write {m : List Host.Cell} (a : Nat) (b : Byte) (h : Memory.wf m) :
    Memory.wf (Memory.write m a b) := Sp.canon_put a b h

theorem Memory.wf_writeN {m : List Host.Cell} (bs : List Byte) (a : Nat) (h : Memory.wf m) :
    Memory.wf (Memory.writeN m a bs) := by
  induction bs generalizing m a with
  | nil => exact h
  | cons b bs ih => exact ih (a + 1) (Memory.wf_write a b h)

/-- A byte outside the bytes written reads as before. -/
theorem Memory.read_writeN_out (m : List Host.Cell) (bs : List Byte) (a x : Nat) (h : x < a ∨ a + bs.length ≤ x) :
    Memory.read (Memory.writeN m a bs) x = Memory.read m x := by
  induction bs generalizing m a with
  | nil => rfl
  | cons b bs ih =>
    simp only [List.length_cons] at h
    rw [Memory.writeN, ih _ (a + 1) (by omega), Memory.read_write_ne _ _ (by omega)]

/-- A byte written reads as written. -/
theorem Memory.read_writeN_in (m : List Host.Cell) (bs : List Byte) (a i : Nat) (h : i < bs.length) :
    Memory.read (Memory.writeN m a bs) (a + i) = bs[i] := by
  induction bs generalizing m a i with
  | nil => simp at h
  | cons b bs ih =>
    cases i with
    | zero => rw [Memory.writeN, Memory.read_writeN_out _ _ _ _ (by omega)]; simp
    | succ n =>
      have e : a + (n + 1) = a + 1 + n := by omega
      rw [Memory.writeN, e, ih _ _ _ (by simpa using h)]
      rfl

end Sys2Proof.Machine
end

