-- ==== Sys2Proof/Laws/State.lean ====
section
/-!
SUPPORT. What each update of State leaves in each field, and reading a part after setting it.
-/

namespace Sys2Proof.Machine

@[simp] theorem State.setWave_clk (s : State) (w : Nat) (x : Wave) : (s.setWave w x).clk = s.clk := rfl
@[simp] theorem State.setWave_dev (s : State) (w : Nat) (x : Wave) : (s.setWave w x).dev = s.dev := rfl
@[simp] theorem State.setWave_mem (s : State) (w : Nat) (x : Wave) : (s.setWave w x).mem = s.mem := rfl
@[simp] theorem State.setWave_fmem (s : State) (w : Nat) (x : Wave) : (s.setWave w x).fmem = s.fmem := rfl
@[simp] theorem State.setWave_homes (s : State) (w : Nat) (x : Wave) : (s.setWave w x).homes = s.homes := rfl
@[simp] theorem State.setWave_dies (s : State) (w : Nat) (x : Wave) : (s.setWave w x).dies = s.dies := rfl
@[simp] theorem State.setWave_frames (s : State) (w : Nat) (x : Wave) : (s.setWave w x).frames = s.frames := rfl
@[simp] theorem State.setWave_lines (s : State) (w : Nat) (x : Wave) : (s.setWave w x).lines = s.lines := rfl
@[simp] theorem State.setWave_cores (s : State) (w : Nat) (x : Wave) : (s.setWave w x).cores = s.cores := rfl
@[simp] theorem State.setWave_lps (s : State) (w : Nat) (x : Wave) : (s.setWave w x).lps = s.lps := rfl
@[simp] theorem State.setWave_mx (s : State) (w : Nat) (x : Wave) : (s.setWave w x).mx = s.mx := rfl
@[simp] theorem State.setWave_waves (s : State) (w : Nat) (x : Wave) : (s.setWave w x).waves = Sp.insert s.waves w x := rfl
@[simp] theorem State.setWave_ctxs (s : State) (w : Nat) (x : Wave) : (s.setWave w x).ctxs = s.ctxs := rfl
@[simp] theorem State.setWave_parts (s : State) (w : Nat) (x : Wave) : (s.setWave w x).parts = s.parts := rfl
@[simp] theorem State.setWave_copies (s : State) (w : Nat) (x : Wave) : (s.setWave w x).copies = s.copies := rfl
@[simp] theorem State.setWave_colls (s : State) (w : Nat) (x : Wave) : (s.setWave w x).colls = s.colls := rfl
@[simp] theorem State.setWave_pins (s : State) (w : Nat) (x : Wave) : (s.setWave w x).pins = s.pins := rfl
@[simp] theorem State.setWave_sch (s : State) (w : Nat) (x : Wave) : (s.setWave w x).sch = s.sch := rfl

@[simp] theorem State.dropWave_clk (s : State) (w : Nat) : (s.dropWave w).clk = s.clk := rfl
@[simp] theorem State.dropWave_dev (s : State) (w : Nat) : (s.dropWave w).dev = s.dev := rfl
@[simp] theorem State.dropWave_mem (s : State) (w : Nat) : (s.dropWave w).mem = s.mem := rfl
@[simp] theorem State.dropWave_fmem (s : State) (w : Nat) : (s.dropWave w).fmem = s.fmem := rfl
@[simp] theorem State.dropWave_homes (s : State) (w : Nat) : (s.dropWave w).homes = s.homes := rfl
@[simp] theorem State.dropWave_dies (s : State) (w : Nat) : (s.dropWave w).dies = s.dies := rfl
@[simp] theorem State.dropWave_frames (s : State) (w : Nat) : (s.dropWave w).frames = s.frames := rfl
@[simp] theorem State.dropWave_lines (s : State) (w : Nat) : (s.dropWave w).lines = s.lines := rfl
@[simp] theorem State.dropWave_cores (s : State) (w : Nat) : (s.dropWave w).cores = s.cores := rfl
@[simp] theorem State.dropWave_lps (s : State) (w : Nat) : (s.dropWave w).lps = s.lps := rfl
@[simp] theorem State.dropWave_mx (s : State) (w : Nat) : (s.dropWave w).mx = s.mx := rfl
@[simp] theorem State.dropWave_waves (s : State) (w : Nat) : (s.dropWave w).waves = Sp.erase s.waves w := rfl
@[simp] theorem State.dropWave_ctxs (s : State) (w : Nat) : (s.dropWave w).ctxs = s.ctxs := rfl
@[simp] theorem State.dropWave_parts (s : State) (w : Nat) : (s.dropWave w).parts = s.parts := rfl
@[simp] theorem State.dropWave_copies (s : State) (w : Nat) : (s.dropWave w).copies = s.copies := rfl
@[simp] theorem State.dropWave_colls (s : State) (w : Nat) : (s.dropWave w).colls = s.colls := rfl
@[simp] theorem State.dropWave_pins (s : State) (w : Nat) : (s.dropWave w).pins = s.pins := rfl
@[simp] theorem State.dropWave_sch (s : State) (w : Nat) : (s.dropWave w).sch = s.sch := rfl

@[simp] theorem State.setCtx_clk (s : State) (c : Nat) (x : Ctx) : (s.setCtx c x).clk = s.clk := rfl
@[simp] theorem State.setCtx_dev (s : State) (c : Nat) (x : Ctx) : (s.setCtx c x).dev = s.dev := rfl
@[simp] theorem State.setCtx_mem (s : State) (c : Nat) (x : Ctx) : (s.setCtx c x).mem = s.mem := rfl
@[simp] theorem State.setCtx_fmem (s : State) (c : Nat) (x : Ctx) : (s.setCtx c x).fmem = s.fmem := rfl
@[simp] theorem State.setCtx_homes (s : State) (c : Nat) (x : Ctx) : (s.setCtx c x).homes = s.homes := rfl
@[simp] theorem State.setCtx_dies (s : State) (c : Nat) (x : Ctx) : (s.setCtx c x).dies = s.dies := rfl
@[simp] theorem State.setCtx_frames (s : State) (c : Nat) (x : Ctx) : (s.setCtx c x).frames = s.frames := rfl
@[simp] theorem State.setCtx_lines (s : State) (c : Nat) (x : Ctx) : (s.setCtx c x).lines = s.lines := rfl
@[simp] theorem State.setCtx_cores (s : State) (c : Nat) (x : Ctx) : (s.setCtx c x).cores = s.cores := rfl
@[simp] theorem State.setCtx_lps (s : State) (c : Nat) (x : Ctx) : (s.setCtx c x).lps = s.lps := rfl
@[simp] theorem State.setCtx_mx (s : State) (c : Nat) (x : Ctx) : (s.setCtx c x).mx = s.mx := rfl
@[simp] theorem State.setCtx_waves (s : State) (c : Nat) (x : Ctx) : (s.setCtx c x).waves = s.waves := rfl
@[simp] theorem State.setCtx_ctxs (s : State) (c : Nat) (x : Ctx) : (s.setCtx c x).ctxs = Sp.insert s.ctxs c x := rfl
@[simp] theorem State.setCtx_parts (s : State) (c : Nat) (x : Ctx) : (s.setCtx c x).parts = s.parts := rfl
@[simp] theorem State.setCtx_copies (s : State) (c : Nat) (x : Ctx) : (s.setCtx c x).copies = s.copies := rfl
@[simp] theorem State.setCtx_colls (s : State) (c : Nat) (x : Ctx) : (s.setCtx c x).colls = s.colls := rfl
@[simp] theorem State.setCtx_pins (s : State) (c : Nat) (x : Ctx) : (s.setCtx c x).pins = s.pins := rfl
@[simp] theorem State.setCtx_sch (s : State) (c : Nat) (x : Ctx) : (s.setCtx c x).sch = s.sch := rfl

@[simp] theorem State.setCore_clk (s : State) (c : Nat) (x : Core) : (s.setCore c x).clk = s.clk := rfl
@[simp] theorem State.setCore_dev (s : State) (c : Nat) (x : Core) : (s.setCore c x).dev = s.dev := rfl
@[simp] theorem State.setCore_mem (s : State) (c : Nat) (x : Core) : (s.setCore c x).mem = s.mem := rfl
@[simp] theorem State.setCore_fmem (s : State) (c : Nat) (x : Core) : (s.setCore c x).fmem = s.fmem := rfl
@[simp] theorem State.setCore_homes (s : State) (c : Nat) (x : Core) : (s.setCore c x).homes = s.homes := rfl
@[simp] theorem State.setCore_dies (s : State) (c : Nat) (x : Core) : (s.setCore c x).dies = s.dies := rfl
@[simp] theorem State.setCore_frames (s : State) (c : Nat) (x : Core) : (s.setCore c x).frames = s.frames := rfl
@[simp] theorem State.setCore_lines (s : State) (c : Nat) (x : Core) : (s.setCore c x).lines = s.lines := rfl
@[simp] theorem State.setCore_cores (s : State) (c : Nat) (x : Core) : (s.setCore c x).cores = Sp.put {} s.cores c x := rfl
@[simp] theorem State.setCore_lps (s : State) (c : Nat) (x : Core) : (s.setCore c x).lps = s.lps := rfl
@[simp] theorem State.setCore_mx (s : State) (c : Nat) (x : Core) : (s.setCore c x).mx = s.mx := rfl
@[simp] theorem State.setCore_waves (s : State) (c : Nat) (x : Core) : (s.setCore c x).waves = s.waves := rfl
@[simp] theorem State.setCore_ctxs (s : State) (c : Nat) (x : Core) : (s.setCore c x).ctxs = s.ctxs := rfl
@[simp] theorem State.setCore_parts (s : State) (c : Nat) (x : Core) : (s.setCore c x).parts = s.parts := rfl
@[simp] theorem State.setCore_copies (s : State) (c : Nat) (x : Core) : (s.setCore c x).copies = s.copies := rfl
@[simp] theorem State.setCore_colls (s : State) (c : Nat) (x : Core) : (s.setCore c x).colls = s.colls := rfl
@[simp] theorem State.setCore_pins (s : State) (c : Nat) (x : Core) : (s.setCore c x).pins = s.pins := rfl
@[simp] theorem State.setCore_sch (s : State) (c : Nat) (x : Core) : (s.setCore c x).sch = s.sch := rfl

@[simp] theorem State.setDie_clk (s : State) (d : Nat) (x : Die) : (s.setDie d x).clk = s.clk := rfl
@[simp] theorem State.setDie_dev (s : State) (d : Nat) (x : Die) : (s.setDie d x).dev = s.dev := rfl
@[simp] theorem State.setDie_mem (s : State) (d : Nat) (x : Die) : (s.setDie d x).mem = s.mem := rfl
@[simp] theorem State.setDie_fmem (s : State) (d : Nat) (x : Die) : (s.setDie d x).fmem = s.fmem := rfl
@[simp] theorem State.setDie_homes (s : State) (d : Nat) (x : Die) : (s.setDie d x).homes = s.homes := rfl
@[simp] theorem State.setDie_dies (s : State) (d : Nat) (x : Die) : (s.setDie d x).dies = Sp.put {} s.dies d x := rfl
@[simp] theorem State.setDie_frames (s : State) (d : Nat) (x : Die) : (s.setDie d x).frames = s.frames := rfl
@[simp] theorem State.setDie_lines (s : State) (d : Nat) (x : Die) : (s.setDie d x).lines = s.lines := rfl
@[simp] theorem State.setDie_cores (s : State) (d : Nat) (x : Die) : (s.setDie d x).cores = s.cores := rfl
@[simp] theorem State.setDie_lps (s : State) (d : Nat) (x : Die) : (s.setDie d x).lps = s.lps := rfl
@[simp] theorem State.setDie_mx (s : State) (d : Nat) (x : Die) : (s.setDie d x).mx = s.mx := rfl
@[simp] theorem State.setDie_waves (s : State) (d : Nat) (x : Die) : (s.setDie d x).waves = s.waves := rfl
@[simp] theorem State.setDie_ctxs (s : State) (d : Nat) (x : Die) : (s.setDie d x).ctxs = s.ctxs := rfl
@[simp] theorem State.setDie_parts (s : State) (d : Nat) (x : Die) : (s.setDie d x).parts = s.parts := rfl
@[simp] theorem State.setDie_copies (s : State) (d : Nat) (x : Die) : (s.setDie d x).copies = s.copies := rfl
@[simp] theorem State.setDie_colls (s : State) (d : Nat) (x : Die) : (s.setDie d x).colls = s.colls := rfl
@[simp] theorem State.setDie_pins (s : State) (d : Nat) (x : Die) : (s.setDie d x).pins = s.pins := rfl
@[simp] theorem State.setDie_sch (s : State) (d : Nat) (x : Die) : (s.setDie d x).sch = s.sch := rfl

@[simp] theorem State.setLp_clk (s : State) (l : Nat) (x : LanePair) : (s.setLp l x).clk = s.clk := rfl
@[simp] theorem State.setLp_dev (s : State) (l : Nat) (x : LanePair) : (s.setLp l x).dev = s.dev := rfl
@[simp] theorem State.setLp_mem (s : State) (l : Nat) (x : LanePair) : (s.setLp l x).mem = s.mem := rfl
@[simp] theorem State.setLp_fmem (s : State) (l : Nat) (x : LanePair) : (s.setLp l x).fmem = s.fmem := rfl
@[simp] theorem State.setLp_homes (s : State) (l : Nat) (x : LanePair) : (s.setLp l x).homes = s.homes := rfl
@[simp] theorem State.setLp_dies (s : State) (l : Nat) (x : LanePair) : (s.setLp l x).dies = s.dies := rfl
@[simp] theorem State.setLp_frames (s : State) (l : Nat) (x : LanePair) : (s.setLp l x).frames = s.frames := rfl
@[simp] theorem State.setLp_lines (s : State) (l : Nat) (x : LanePair) : (s.setLp l x).lines = s.lines := rfl
@[simp] theorem State.setLp_cores (s : State) (l : Nat) (x : LanePair) : (s.setLp l x).cores = s.cores := rfl
@[simp] theorem State.setLp_lps (s : State) (l : Nat) (x : LanePair) : (s.setLp l x).lps = Sp.put {} s.lps l x := rfl
@[simp] theorem State.setLp_mx (s : State) (l : Nat) (x : LanePair) : (s.setLp l x).mx = s.mx := rfl
@[simp] theorem State.setLp_waves (s : State) (l : Nat) (x : LanePair) : (s.setLp l x).waves = s.waves := rfl
@[simp] theorem State.setLp_ctxs (s : State) (l : Nat) (x : LanePair) : (s.setLp l x).ctxs = s.ctxs := rfl
@[simp] theorem State.setLp_parts (s : State) (l : Nat) (x : LanePair) : (s.setLp l x).parts = s.parts := rfl
@[simp] theorem State.setLp_copies (s : State) (l : Nat) (x : LanePair) : (s.setLp l x).copies = s.copies := rfl
@[simp] theorem State.setLp_colls (s : State) (l : Nat) (x : LanePair) : (s.setLp l x).colls = s.colls := rfl
@[simp] theorem State.setLp_pins (s : State) (l : Nat) (x : LanePair) : (s.setLp l x).pins = s.pins := rfl
@[simp] theorem State.setLp_sch (s : State) (l : Nat) (x : LanePair) : (s.setLp l x).sch = s.sch := rfl

@[simp] theorem State.setFrame_clk (s : State) (f : Nat) (x : FrameRec) : (s.setFrame f x).clk = s.clk := rfl
@[simp] theorem State.setFrame_dev (s : State) (f : Nat) (x : FrameRec) : (s.setFrame f x).dev = s.dev := rfl
@[simp] theorem State.setFrame_mem (s : State) (f : Nat) (x : FrameRec) : (s.setFrame f x).mem = s.mem := rfl
@[simp] theorem State.setFrame_fmem (s : State) (f : Nat) (x : FrameRec) : (s.setFrame f x).fmem = s.fmem := rfl
@[simp] theorem State.setFrame_homes (s : State) (f : Nat) (x : FrameRec) : (s.setFrame f x).homes = s.homes := rfl
@[simp] theorem State.setFrame_dies (s : State) (f : Nat) (x : FrameRec) : (s.setFrame f x).dies = s.dies := rfl
@[simp] theorem State.setFrame_frames (s : State) (f : Nat) (x : FrameRec) : (s.setFrame f x).frames = Sp.put {} s.frames f x := rfl
@[simp] theorem State.setFrame_lines (s : State) (f : Nat) (x : FrameRec) : (s.setFrame f x).lines = s.lines := rfl
@[simp] theorem State.setFrame_cores (s : State) (f : Nat) (x : FrameRec) : (s.setFrame f x).cores = s.cores := rfl
@[simp] theorem State.setFrame_lps (s : State) (f : Nat) (x : FrameRec) : (s.setFrame f x).lps = s.lps := rfl
@[simp] theorem State.setFrame_mx (s : State) (f : Nat) (x : FrameRec) : (s.setFrame f x).mx = s.mx := rfl
@[simp] theorem State.setFrame_waves (s : State) (f : Nat) (x : FrameRec) : (s.setFrame f x).waves = s.waves := rfl
@[simp] theorem State.setFrame_ctxs (s : State) (f : Nat) (x : FrameRec) : (s.setFrame f x).ctxs = s.ctxs := rfl
@[simp] theorem State.setFrame_parts (s : State) (f : Nat) (x : FrameRec) : (s.setFrame f x).parts = s.parts := rfl
@[simp] theorem State.setFrame_copies (s : State) (f : Nat) (x : FrameRec) : (s.setFrame f x).copies = s.copies := rfl
@[simp] theorem State.setFrame_colls (s : State) (f : Nat) (x : FrameRec) : (s.setFrame f x).colls = s.colls := rfl
@[simp] theorem State.setFrame_pins (s : State) (f : Nat) (x : FrameRec) : (s.setFrame f x).pins = s.pins := rfl
@[simp] theorem State.setFrame_sch (s : State) (f : Nat) (x : FrameRec) : (s.setFrame f x).sch = s.sch := rfl

@[simp] theorem State.setLine_clk (s : State) (l : Nat) (x : LineRec) : (s.setLine l x).clk = s.clk := rfl
@[simp] theorem State.setLine_dev (s : State) (l : Nat) (x : LineRec) : (s.setLine l x).dev = s.dev := rfl
@[simp] theorem State.setLine_mem (s : State) (l : Nat) (x : LineRec) : (s.setLine l x).mem = s.mem := rfl
@[simp] theorem State.setLine_fmem (s : State) (l : Nat) (x : LineRec) : (s.setLine l x).fmem = s.fmem := rfl
@[simp] theorem State.setLine_homes (s : State) (l : Nat) (x : LineRec) : (s.setLine l x).homes = s.homes := rfl
@[simp] theorem State.setLine_dies (s : State) (l : Nat) (x : LineRec) : (s.setLine l x).dies = s.dies := rfl
@[simp] theorem State.setLine_frames (s : State) (l : Nat) (x : LineRec) : (s.setLine l x).frames = s.frames := rfl
@[simp] theorem State.setLine_lines (s : State) (l : Nat) (x : LineRec) : (s.setLine l x).lines = Sp.put {} s.lines l x := rfl
@[simp] theorem State.setLine_cores (s : State) (l : Nat) (x : LineRec) : (s.setLine l x).cores = s.cores := rfl
@[simp] theorem State.setLine_lps (s : State) (l : Nat) (x : LineRec) : (s.setLine l x).lps = s.lps := rfl
@[simp] theorem State.setLine_mx (s : State) (l : Nat) (x : LineRec) : (s.setLine l x).mx = s.mx := rfl
@[simp] theorem State.setLine_waves (s : State) (l : Nat) (x : LineRec) : (s.setLine l x).waves = s.waves := rfl
@[simp] theorem State.setLine_ctxs (s : State) (l : Nat) (x : LineRec) : (s.setLine l x).ctxs = s.ctxs := rfl
@[simp] theorem State.setLine_parts (s : State) (l : Nat) (x : LineRec) : (s.setLine l x).parts = s.parts := rfl
@[simp] theorem State.setLine_copies (s : State) (l : Nat) (x : LineRec) : (s.setLine l x).copies = s.copies := rfl
@[simp] theorem State.setLine_colls (s : State) (l : Nat) (x : LineRec) : (s.setLine l x).colls = s.colls := rfl
@[simp] theorem State.setLine_pins (s : State) (l : Nat) (x : LineRec) : (s.setLine l x).pins = s.pins := rfl
@[simp] theorem State.setLine_sch (s : State) (l : Nat) (x : LineRec) : (s.setLine l x).sch = s.sch := rfl

@[simp] theorem State.setPart_clk (s : State) (r : Nat) (x : Partition) : (s.setPart r x).clk = s.clk := rfl
@[simp] theorem State.setPart_dev (s : State) (r : Nat) (x : Partition) : (s.setPart r x).dev = s.dev := rfl
@[simp] theorem State.setPart_mem (s : State) (r : Nat) (x : Partition) : (s.setPart r x).mem = s.mem := rfl
@[simp] theorem State.setPart_fmem (s : State) (r : Nat) (x : Partition) : (s.setPart r x).fmem = s.fmem := rfl
@[simp] theorem State.setPart_homes (s : State) (r : Nat) (x : Partition) : (s.setPart r x).homes = s.homes := rfl
@[simp] theorem State.setPart_dies (s : State) (r : Nat) (x : Partition) : (s.setPart r x).dies = s.dies := rfl
@[simp] theorem State.setPart_frames (s : State) (r : Nat) (x : Partition) : (s.setPart r x).frames = s.frames := rfl
@[simp] theorem State.setPart_lines (s : State) (r : Nat) (x : Partition) : (s.setPart r x).lines = s.lines := rfl
@[simp] theorem State.setPart_cores (s : State) (r : Nat) (x : Partition) : (s.setPart r x).cores = s.cores := rfl
@[simp] theorem State.setPart_lps (s : State) (r : Nat) (x : Partition) : (s.setPart r x).lps = s.lps := rfl
@[simp] theorem State.setPart_mx (s : State) (r : Nat) (x : Partition) : (s.setPart r x).mx = s.mx := rfl
@[simp] theorem State.setPart_waves (s : State) (r : Nat) (x : Partition) : (s.setPart r x).waves = s.waves := rfl
@[simp] theorem State.setPart_ctxs (s : State) (r : Nat) (x : Partition) : (s.setPart r x).ctxs = s.ctxs := rfl
@[simp] theorem State.setPart_parts (s : State) (r : Nat) (x : Partition) : (s.setPart r x).parts = Sp.insert s.parts r x := rfl
@[simp] theorem State.setPart_copies (s : State) (r : Nat) (x : Partition) : (s.setPart r x).copies = s.copies := rfl
@[simp] theorem State.setPart_colls (s : State) (r : Nat) (x : Partition) : (s.setPart r x).colls = s.colls := rfl
@[simp] theorem State.setPart_pins (s : State) (r : Nat) (x : Partition) : (s.setPart r x).pins = s.pins := rfl
@[simp] theorem State.setPart_sch (s : State) (r : Nat) (x : Partition) : (s.setPart r x).sch = s.sch := rfl

@[simp] theorem State.soon_clk (s : State) (i : Instr) : (s.soon i).clk = s.clk := rfl
@[simp] theorem State.soon_dev (s : State) (i : Instr) : (s.soon i).dev = s.dev := rfl
@[simp] theorem State.soon_mem (s : State) (i : Instr) : (s.soon i).mem = s.mem := rfl
@[simp] theorem State.soon_fmem (s : State) (i : Instr) : (s.soon i).fmem = s.fmem := rfl
@[simp] theorem State.soon_homes (s : State) (i : Instr) : (s.soon i).homes = s.homes := rfl
@[simp] theorem State.soon_dies (s : State) (i : Instr) : (s.soon i).dies = s.dies := rfl
@[simp] theorem State.soon_frames (s : State) (i : Instr) : (s.soon i).frames = s.frames := rfl
@[simp] theorem State.soon_lines (s : State) (i : Instr) : (s.soon i).lines = s.lines := rfl
@[simp] theorem State.soon_cores (s : State) (i : Instr) : (s.soon i).cores = s.cores := rfl
@[simp] theorem State.soon_lps (s : State) (i : Instr) : (s.soon i).lps = s.lps := rfl
@[simp] theorem State.soon_mx (s : State) (i : Instr) : (s.soon i).mx = s.mx := rfl
@[simp] theorem State.soon_waves (s : State) (i : Instr) : (s.soon i).waves = s.waves := rfl
@[simp] theorem State.soon_ctxs (s : State) (i : Instr) : (s.soon i).ctxs = s.ctxs := rfl
@[simp] theorem State.soon_parts (s : State) (i : Instr) : (s.soon i).parts = s.parts := rfl
@[simp] theorem State.soon_copies (s : State) (i : Instr) : (s.soon i).copies = s.copies := rfl
@[simp] theorem State.soon_colls (s : State) (i : Instr) : (s.soon i).colls = s.colls := rfl
@[simp] theorem State.soon_pins (s : State) (i : Instr) : (s.soon i).pins = s.pins := rfl

@[simp] theorem State.after_clk (s : State) (n : Nat) (i : Instr) : (s.after n i).clk = s.clk := rfl
@[simp] theorem State.after_dev (s : State) (n : Nat) (i : Instr) : (s.after n i).dev = s.dev := rfl
@[simp] theorem State.after_mem (s : State) (n : Nat) (i : Instr) : (s.after n i).mem = s.mem := rfl
@[simp] theorem State.after_fmem (s : State) (n : Nat) (i : Instr) : (s.after n i).fmem = s.fmem := rfl
@[simp] theorem State.after_homes (s : State) (n : Nat) (i : Instr) : (s.after n i).homes = s.homes := rfl
@[simp] theorem State.after_dies (s : State) (n : Nat) (i : Instr) : (s.after n i).dies = s.dies := rfl
@[simp] theorem State.after_frames (s : State) (n : Nat) (i : Instr) : (s.after n i).frames = s.frames := rfl
@[simp] theorem State.after_lines (s : State) (n : Nat) (i : Instr) : (s.after n i).lines = s.lines := rfl
@[simp] theorem State.after_cores (s : State) (n : Nat) (i : Instr) : (s.after n i).cores = s.cores := rfl
@[simp] theorem State.after_lps (s : State) (n : Nat) (i : Instr) : (s.after n i).lps = s.lps := rfl
@[simp] theorem State.after_mx (s : State) (n : Nat) (i : Instr) : (s.after n i).mx = s.mx := rfl
@[simp] theorem State.after_waves (s : State) (n : Nat) (i : Instr) : (s.after n i).waves = s.waves := rfl
@[simp] theorem State.after_ctxs (s : State) (n : Nat) (i : Instr) : (s.after n i).ctxs = s.ctxs := rfl
@[simp] theorem State.after_parts (s : State) (n : Nat) (i : Instr) : (s.after n i).parts = s.parts := rfl
@[simp] theorem State.after_copies (s : State) (n : Nat) (i : Instr) : (s.after n i).copies = s.copies := rfl
@[simp] theorem State.after_colls (s : State) (n : Nat) (i : Instr) : (s.after n i).colls = s.colls := rfl
@[simp] theorem State.after_pins (s : State) (n : Nat) (i : Instr) : (s.after n i).pins = s.pins := rfl

@[simp] theorem State.afterTicks_clk (s : State) (n : Nat) (i : Instr) : (s.afterTicks n i).clk = s.clk := rfl
@[simp] theorem State.afterTicks_dev (s : State) (n : Nat) (i : Instr) : (s.afterTicks n i).dev = s.dev := rfl
@[simp] theorem State.afterTicks_mem (s : State) (n : Nat) (i : Instr) : (s.afterTicks n i).mem = s.mem := rfl
@[simp] theorem State.afterTicks_fmem (s : State) (n : Nat) (i : Instr) : (s.afterTicks n i).fmem = s.fmem := rfl
@[simp] theorem State.afterTicks_homes (s : State) (n : Nat) (i : Instr) : (s.afterTicks n i).homes = s.homes := rfl
@[simp] theorem State.afterTicks_dies (s : State) (n : Nat) (i : Instr) : (s.afterTicks n i).dies = s.dies := rfl
@[simp] theorem State.afterTicks_frames (s : State) (n : Nat) (i : Instr) : (s.afterTicks n i).frames = s.frames := rfl
@[simp] theorem State.afterTicks_lines (s : State) (n : Nat) (i : Instr) : (s.afterTicks n i).lines = s.lines := rfl
@[simp] theorem State.afterTicks_cores (s : State) (n : Nat) (i : Instr) : (s.afterTicks n i).cores = s.cores := rfl
@[simp] theorem State.afterTicks_lps (s : State) (n : Nat) (i : Instr) : (s.afterTicks n i).lps = s.lps := rfl
@[simp] theorem State.afterTicks_mx (s : State) (n : Nat) (i : Instr) : (s.afterTicks n i).mx = s.mx := rfl
@[simp] theorem State.afterTicks_waves (s : State) (n : Nat) (i : Instr) : (s.afterTicks n i).waves = s.waves := rfl
@[simp] theorem State.afterTicks_ctxs (s : State) (n : Nat) (i : Instr) : (s.afterTicks n i).ctxs = s.ctxs := rfl
@[simp] theorem State.afterTicks_parts (s : State) (n : Nat) (i : Instr) : (s.afterTicks n i).parts = s.parts := rfl
@[simp] theorem State.afterTicks_copies (s : State) (n : Nat) (i : Instr) : (s.afterTicks n i).copies = s.copies := rfl
@[simp] theorem State.afterTicks_colls (s : State) (n : Nat) (i : Instr) : (s.afterTicks n i).colls = s.colls := rfl
@[simp] theorem State.afterTicks_pins (s : State) (n : Nat) (i : Instr) : (s.afterTicks n i).pins = s.pins := rfl

@[simp] theorem State.tickFree_clk (s : State) : (s.tickFree).clk = s.clk := rfl
@[simp] theorem State.tickFree_dev (s : State) : (s.tickFree).dev = s.dev := rfl
@[simp] theorem State.tickFree_mem (s : State) : (s.tickFree).mem = s.mem := rfl
@[simp] theorem State.tickFree_fmem (s : State) : (s.tickFree).fmem = s.fmem := rfl
@[simp] theorem State.tickFree_homes (s : State) : (s.tickFree).homes = s.homes := rfl
@[simp] theorem State.tickFree_dies (s : State) : (s.tickFree).dies = s.dies := rfl
@[simp] theorem State.tickFree_frames (s : State) : (s.tickFree).frames = s.frames := rfl
@[simp] theorem State.tickFree_lines (s : State) : (s.tickFree).lines = s.lines := rfl
@[simp] theorem State.tickFree_cores (s : State) : (s.tickFree).cores = s.cores := rfl
@[simp] theorem State.tickFree_lps (s : State) : (s.tickFree).lps = s.lps := rfl
@[simp] theorem State.tickFree_mx (s : State) : (s.tickFree).mx = s.mx := rfl
@[simp] theorem State.tickFree_waves (s : State) : (s.tickFree).waves = s.waves := rfl
@[simp] theorem State.tickFree_ctxs (s : State) : (s.tickFree).ctxs = s.ctxs := rfl
@[simp] theorem State.tickFree_parts (s : State) : (s.tickFree).parts = s.parts := rfl
@[simp] theorem State.tickFree_copies (s : State) : (s.tickFree).copies = s.copies := rfl
@[simp] theorem State.tickFree_colls (s : State) : (s.tickFree).colls = s.colls := rfl
@[simp] theorem State.tickFree_pins (s : State) : (s.tickFree).pins = s.pins := rfl

@[simp] theorem State.later_clk (s : State) (i : Instr) : (s.later i).clk = s.clk := rfl
@[simp] theorem State.later_dev (s : State) (i : Instr) : (s.later i).dev = s.dev := rfl
@[simp] theorem State.later_mem (s : State) (i : Instr) : (s.later i).mem = s.mem := rfl
@[simp] theorem State.later_fmem (s : State) (i : Instr) : (s.later i).fmem = s.fmem := rfl
@[simp] theorem State.later_homes (s : State) (i : Instr) : (s.later i).homes = s.homes := rfl
@[simp] theorem State.later_dies (s : State) (i : Instr) : (s.later i).dies = s.dies := rfl
@[simp] theorem State.later_frames (s : State) (i : Instr) : (s.later i).frames = s.frames := rfl
@[simp] theorem State.later_lines (s : State) (i : Instr) : (s.later i).lines = s.lines := rfl
@[simp] theorem State.later_cores (s : State) (i : Instr) : (s.later i).cores = s.cores := rfl
@[simp] theorem State.later_lps (s : State) (i : Instr) : (s.later i).lps = s.lps := rfl
@[simp] theorem State.later_mx (s : State) (i : Instr) : (s.later i).mx = s.mx := rfl
@[simp] theorem State.later_waves (s : State) (i : Instr) : (s.later i).waves = s.waves := rfl
@[simp] theorem State.later_ctxs (s : State) (i : Instr) : (s.later i).ctxs = s.ctxs := rfl
@[simp] theorem State.later_parts (s : State) (i : Instr) : (s.later i).parts = s.parts := rfl
@[simp] theorem State.later_copies (s : State) (i : Instr) : (s.later i).copies = s.copies := rfl
@[simp] theorem State.later_colls (s : State) (i : Instr) : (s.later i).colls = s.colls := rfl
@[simp] theorem State.later_pins (s : State) (i : Instr) : (s.later i).pins = s.pins := rfl

/-! ### Reading after setting -/

@[simp] theorem State.wave?_setWave (s : State) (w : Nat) (x : Wave) : (s.setWave w x).wave? w = some x := by
  simp [State.wave?]
theorem State.wave?_setWave_ne (s : State) {w v : Nat} (x : Wave) (h : v ≠ w) : (s.setWave w x).wave? v = s.wave? v := by
  simp [State.wave?, Sp.find_insert_ne _ _ h]
@[simp] theorem State.wave?_dropWave (s : State) (w : Nat) : (s.dropWave w).wave? w = none := by
  simp [State.wave?]
@[simp] theorem State.ctx?_setCtx (s : State) (c : Nat) (x : Ctx) : (s.setCtx c x).ctx? c = some x := by
  simp [State.ctx?]
theorem State.ctx?_setCtx_ne (s : State) {c d : Nat} (x : Ctx) (h : d ≠ c) : (s.setCtx c x).ctx? d = s.ctx? d := by
  simp [State.ctx?, Sp.find_insert_ne _ _ h]
@[simp] theorem State.core_setCore (s : State) (c : Nat) (x : Core) : (s.setCore c x).core c = x := by
  simp [State.core]
@[simp] theorem State.die_setDie (s : State) (d : Nat) (x : Die) : (s.setDie d x).die d = x := by simp [State.die]
@[simp] theorem State.lp_setLp (s : State) (l : Nat) (x : LanePair) : (s.setLp l x).lp l = x := by simp [State.lp]
@[simp] theorem State.frame_setFrame (s : State) (f : Nat) (x : FrameRec) : (s.setFrame f x).frame f = x := by
  simp [State.frame]
@[simp] theorem State.line_setLine (s : State) (l : Nat) (x : LineRec) : (s.setLine l x).line l = x := by
  simp [State.line]
theorem State.line_setLine_ne (s : State) {l k : Nat} (x : LineRec) (h : k ≠ l) : (s.setLine l x).line k = s.line k := by
  simp [State.line, Sp.get_put_ne _ _ _ h]

/-- updWave of a wave that is there sets it. -/
theorem State.updWave_some {s : State} {w : Nat} {x : Wave} (f : Wave → Wave) (h : s.wave? w = some x) :
    s.updWave w f = s.setWave w (f x) := by
  simp [State.updWave, h]

@[simp] theorem State.updWave_clk (s : State) (w : Nat) (f : Wave → Wave) : (s.updWave w f).clk = s.clk := by
  unfold State.updWave; split <;> rfl
@[simp] theorem State.updWave_dev (s : State) (w : Nat) (f : Wave → Wave) : (s.updWave w f).dev = s.dev := by
  unfold State.updWave; split <;> rfl
@[simp] theorem State.updWave_mem (s : State) (w : Nat) (f : Wave → Wave) : (s.updWave w f).mem = s.mem := by
  unfold State.updWave; split <;> rfl
@[simp] theorem State.updWave_fmem (s : State) (w : Nat) (f : Wave → Wave) : (s.updWave w f).fmem = s.fmem := by
  unfold State.updWave; split <;> rfl
@[simp] theorem State.updWave_homes (s : State) (w : Nat) (f : Wave → Wave) : (s.updWave w f).homes = s.homes := by
  unfold State.updWave; split <;> rfl
@[simp] theorem State.updWave_dies (s : State) (w : Nat) (f : Wave → Wave) : (s.updWave w f).dies = s.dies := by
  unfold State.updWave; split <;> rfl
@[simp] theorem State.updWave_frames (s : State) (w : Nat) (f : Wave → Wave) : (s.updWave w f).frames = s.frames := by
  unfold State.updWave; split <;> rfl
@[simp] theorem State.updWave_lines (s : State) (w : Nat) (f : Wave → Wave) : (s.updWave w f).lines = s.lines := by
  unfold State.updWave; split <;> rfl
@[simp] theorem State.updWave_cores (s : State) (w : Nat) (f : Wave → Wave) : (s.updWave w f).cores = s.cores := by
  unfold State.updWave; split <;> rfl
@[simp] theorem State.updWave_lps (s : State) (w : Nat) (f : Wave → Wave) : (s.updWave w f).lps = s.lps := by
  unfold State.updWave; split <;> rfl
@[simp] theorem State.updWave_mx (s : State) (w : Nat) (f : Wave → Wave) : (s.updWave w f).mx = s.mx := by
  unfold State.updWave; split <;> rfl
@[simp] theorem State.updWave_ctxs (s : State) (w : Nat) (f : Wave → Wave) : (s.updWave w f).ctxs = s.ctxs := by
  unfold State.updWave; split <;> rfl
@[simp] theorem State.updWave_parts (s : State) (w : Nat) (f : Wave → Wave) : (s.updWave w f).parts = s.parts := by
  unfold State.updWave; split <;> rfl
@[simp] theorem State.updWave_copies (s : State) (w : Nat) (f : Wave → Wave) : (s.updWave w f).copies = s.copies := by
  unfold State.updWave; split <;> rfl
@[simp] theorem State.updWave_colls (s : State) (w : Nat) (f : Wave → Wave) : (s.updWave w f).colls = s.colls := by
  unfold State.updWave; split <;> rfl
@[simp] theorem State.updWave_pins (s : State) (w : Nat) (f : Wave → Wave) : (s.updWave w f).pins = s.pins := by
  unfold State.updWave; split <;> rfl
@[simp] theorem State.updWave_sch (s : State) (w : Nat) (f : Wave → Wave) : (s.updWave w f).sch = s.sch := by
  unfold State.updWave; split <;> rfl

@[simp] theorem State.updCtx_clk (s : State) (w : Nat) (f : Ctx → Ctx) : (s.updCtx w f).clk = s.clk := by
  unfold State.updCtx; split <;> rfl
@[simp] theorem State.updCtx_dev (s : State) (w : Nat) (f : Ctx → Ctx) : (s.updCtx w f).dev = s.dev := by
  unfold State.updCtx; split <;> rfl
@[simp] theorem State.updCtx_mem (s : State) (w : Nat) (f : Ctx → Ctx) : (s.updCtx w f).mem = s.mem := by
  unfold State.updCtx; split <;> rfl
@[simp] theorem State.updCtx_fmem (s : State) (w : Nat) (f : Ctx → Ctx) : (s.updCtx w f).fmem = s.fmem := by
  unfold State.updCtx; split <;> rfl
@[simp] theorem State.updCtx_homes (s : State) (w : Nat) (f : Ctx → Ctx) : (s.updCtx w f).homes = s.homes := by
  unfold State.updCtx; split <;> rfl
@[simp] theorem State.updCtx_dies (s : State) (w : Nat) (f : Ctx → Ctx) : (s.updCtx w f).dies = s.dies := by
  unfold State.updCtx; split <;> rfl
@[simp] theorem State.updCtx_frames (s : State) (w : Nat) (f : Ctx → Ctx) : (s.updCtx w f).frames = s.frames := by
  unfold State.updCtx; split <;> rfl
@[simp] theorem State.updCtx_lines (s : State) (w : Nat) (f : Ctx → Ctx) : (s.updCtx w f).lines = s.lines := by
  unfold State.updCtx; split <;> rfl
@[simp] theorem State.updCtx_cores (s : State) (w : Nat) (f : Ctx → Ctx) : (s.updCtx w f).cores = s.cores := by
  unfold State.updCtx; split <;> rfl
@[simp] theorem State.updCtx_lps (s : State) (w : Nat) (f : Ctx → Ctx) : (s.updCtx w f).lps = s.lps := by
  unfold State.updCtx; split <;> rfl
@[simp] theorem State.updCtx_mx (s : State) (w : Nat) (f : Ctx → Ctx) : (s.updCtx w f).mx = s.mx := by
  unfold State.updCtx; split <;> rfl
@[simp] theorem State.updCtx_waves (s : State) (w : Nat) (f : Ctx → Ctx) : (s.updCtx w f).waves = s.waves := by
  unfold State.updCtx; split <;> rfl
@[simp] theorem State.updCtx_parts (s : State) (w : Nat) (f : Ctx → Ctx) : (s.updCtx w f).parts = s.parts := by
  unfold State.updCtx; split <;> rfl
@[simp] theorem State.updCtx_copies (s : State) (w : Nat) (f : Ctx → Ctx) : (s.updCtx w f).copies = s.copies := by
  unfold State.updCtx; split <;> rfl
@[simp] theorem State.updCtx_colls (s : State) (w : Nat) (f : Ctx → Ctx) : (s.updCtx w f).colls = s.colls := by
  unfold State.updCtx; split <;> rfl
@[simp] theorem State.updCtx_pins (s : State) (w : Nat) (f : Ctx → Ctx) : (s.updCtx w f).pins = s.pins := by
  unfold State.updCtx; split <;> rfl
@[simp] theorem State.updCtx_sch (s : State) (w : Nat) (f : Ctx → Ctx) : (s.updCtx w f).sch = s.sch := by
  unfold State.updCtx; split <;> rfl

end Sys2Proof.Machine
end

