-- ==== Sys2Proof/Laws/Issue.lean ====
section
/-!
SUPPORT. What the shared operations of issue can do: the end of issue, a stall, a fault, an armed step. Each leaves
registers, memory and configuration, and adds to what is under way; `Later` says so once.
-/

namespace Sys2Proof.Machine

open Claim

/-- A wave with the same registers and state, with results and accesses on their way kept. -/
structure WaveLater (a b : Wave) : Prop where
  ctx    : b.ctx = a.ctx
  width  : b.width = a.width
  budget : b.budget = a.budget
  job    : b.job = a.job
  index  : b.index = a.index
  vregs  : b.vregs = a.vregs
  sregs  : b.sregs = a.sregs
  preds  : b.preds = a.preds
  fstat  : b.fstat = a.fstat
  held   : b.held = a.held
  lease  : b.lease = a.lease
  team   : b.team = a.team
  cprog  : b.cprog = a.cprog
  copyOp : b.copyOp = a.copyOp
  areas  : b.areas = a.areas
  runs   : b.runs = a.runs
  growTo : b.growTo = a.growTo
  fuse   : b.fuse = a.fuse
  accs   : b.accs = a.accs
  pend   : ∀ p ∈ a.pend, p ∈ b.pend

theorem WaveLater.refl (a : Wave) : WaveLater a a := by
  constructor <;> first | rfl | exact fun _ h => h

theorem WaveLater.trans {a b c : Wave} (h : WaveLater a b) (k : WaveLater b c) : WaveLater a c where
  ctx := k.ctx.trans h.ctx
  width := k.width.trans h.width
  budget := k.budget.trans h.budget
  job := k.job.trans h.job
  index := k.index.trans h.index
  vregs := k.vregs.trans h.vregs
  sregs := k.sregs.trans h.sregs
  preds := k.preds.trans h.preds
  fstat := k.fstat.trans h.fstat
  held := k.held.trans h.held
  lease := k.lease.trans h.lease
  team := k.team.trans h.team
  cprog := k.cprog.trans h.cprog
  copyOp := k.copyOp.trans h.copyOp
  areas := k.areas.trans h.areas
  runs := k.runs.trans h.runs
  growTo := k.growTo.trans h.growTo
  fuse := k.fuse.trans h.fuse
  accs := k.accs.trans h.accs
  pend p hp := k.pend p (h.pend p hp)

/-- The same for two optional waves. -/
def OptLater : Option Wave → Option Wave → Prop
  | none, none => True
  | some a, some b => WaveLater a b
  | _, _ => False

theorem OptLater.refl (a : Option Wave) : OptLater a a := by
  cases a
  · trivial
  · exact WaveLater.refl _

theorem OptLater.trans {a b c : Option Wave} (h : OptLater a b) (k : OptLater b c) : OptLater a c := by
  cases a <;> cases b <;> cases c <;> simp only [OptLater] at *
  exact h.trans k

/-- A state in which no register, memory byte or configuration has changed. -/
structure Later (s t : State) : Prop where
  waves  : ∀ v, OptLater (s.wave? v) (t.wave? v)
  mem    : t.mem = s.mem
  fmem   : t.fmem = s.fmem
  homes  : t.homes = s.homes
  dies   : ∀ d, { t.die d with holds := [] } = { s.die d with holds := [] }
  frames : t.frames = s.frames
  lines  : ∀ l, { t.line l with pinned := false } = { s.line l with pinned := false }
  cores  : t.cores = s.cores
  mx     : t.mx = s.mx
  copies : t.copies = s.copies
  colls  : t.colls = s.colls
  parts  : t.parts = s.parts
  clk    : t.clk = s.clk
  conf   : ∀ c, ctxConf t c = ctxConf s c
  hist   : ∀ l, (t.lp l).hist = (s.lp l).hist ∧ (t.lp l).stall = (s.lp l).stall ∧ (t.lp l).idle = (s.lp l).idle ∧
    (t.lp l).slip = (s.lp l).slip
  timers : ∀ x ∈ s.sch.timers, x ∈ t.sch.timers

theorem Later.refl (s : State) : Later s s :=
  { waves := fun _ => OptLater.refl _, mem := rfl, fmem := rfl, homes := rfl, dies := fun _ => rfl, frames := rfl, lines := fun _ => rfl,
    cores := rfl, mx := rfl, copies := rfl, colls := rfl, parts := rfl, clk := rfl, conf := fun _ => rfl,
    hist := fun _ => ⟨rfl, rfl, rfl, rfl⟩, timers := fun _ h => h }

theorem Later.trans {s t u : State} (h : Later s t) (k : Later t u) : Later s u where
  waves v := (h.waves v).trans (k.waves v)
  mem := k.mem.trans h.mem
  fmem := k.fmem.trans h.fmem
  homes := k.homes.trans h.homes
  dies d := (k.dies d).trans (h.dies d)
  frames := k.frames.trans h.frames
  lines l := (k.lines l).trans (h.lines l)
  cores := k.cores.trans h.cores
  mx := k.mx.trans h.mx
  copies := k.copies.trans h.copies
  colls := k.colls.trans h.colls
  parts := k.parts.trans h.parts
  clk := k.clk.trans h.clk
  conf c := (k.conf c).trans (h.conf c)
  hist l := ⟨(k.hist l).1.trans (h.hist l).1, (k.hist l).2.1.trans (h.hist l).2.1,
    (k.hist l).2.2.1.trans (h.hist l).2.2.1, (k.hist l).2.2.2.trans (h.hist l).2.2.2⟩
  timers x hx := k.timers x (h.timers x hx)

/-- A change of scheduling that keeps the timers. -/
theorem Later.sch {s : State} {x : Sched} (h : ∀ y ∈ s.sch.timers, y ∈ x.timers) : Later s { s with sch := x } :=
  { Later.refl s with waves := fun v => OptLater.refl (s.wave? v), conf := fun _ => rfl, timers := h,
                      hist := fun _ => ⟨rfl, rfl, rfl, rfl⟩ }

theorem Later.soon (s : State) (i : Instr) : Later s (s.soon i) := Later.sch (fun _ h => h)
theorem Later.after (s : State) (n : Nat) (i : Instr) : Later s (s.after n i) :=
  Later.sch (fun _ h => List.mem_append_left _ h)
theorem Later.ensureSoon (s : State) (i : Instr) : Later s (s.ensureSoon i) := by
  unfold State.ensureSoon
  split
  · exact Later.refl s
  · exact Later.soon s i
theorem Later.tickFree (s : State) : Later s s.tickFree := Later.sch (fun _ h => h)
theorem Later.afterTicks (s : State) (n : Nat) (i : Instr) : Later s (s.afterTicks n i) :=
  Later.sch (fun _ h => List.mem_append_left _ h)
theorem Later.later (s : State) (i : Instr) : Later s (s.later i) := (Later.after s _ i).trans (Later.tickFree _)

/-- Setting a wave to a later one. -/
theorem Later.setWave {s : State} {w : Nat} {a b : Wave} (h : s.wave? w = some a) (k : WaveLater a b) :
    Later s (s.setWave w b) :=
  { Later.refl s with
    waves := fun v => by
      by_cases e : v = w
      · subst e; rw [h]; simpa [OptLater] using k
      · rw [State.wave?_setWave_ne _ _ e]; exact OptLater.refl _
    conf := fun _ => rfl, timers := fun _ h => h, hist := fun _ => ⟨rfl, rfl, rfl, rfl⟩ }

theorem Later.updWave {s : State} {w : Nat} {f : Wave → Wave} (k : ∀ a, s.wave? w = some a → WaveLater a (f a)) :
    Later s (s.updWave w f) := by
  unfold State.updWave
  split
  · next a h => exact Later.setWave h (k a h)
  · exact Later.refl s

/-- Setting a lane pair that keeps the counters. -/
theorem Later.setLp {s : State} {l : Nat} {x : LanePair} (h : x.hist = (s.lp l).hist ∧ x.stall = (s.lp l).stall ∧
    x.idle = (s.lp l).idle ∧ x.slip = (s.lp l).slip) : Later s (s.setLp l x) :=
  { Later.refl s with
    waves := fun v => OptLater.refl (s.wave? v), conf := fun _ => rfl, timers := fun _ h => h,
    hist := fun k => by
      by_cases e : k = l
      · subst e; simpa using h
      · have : (s.setLp l x).lp k = s.lp k := by simp [State.lp, State.setLp, Sp.get_put_ne _ _ _ e]
        simp [this] }

/-- Setting a context that keeps its configuration. -/
theorem Later.setCtx {s : State} {c : Nat} {a b : Ctx} (h : s.ctx? c = some a) (k1 : b.conf = a.conf)
    (k2 : b.parent = a.parent) (k3 : b.state = a.state) (k4 : b.declared = a.declared) (k5 : b.gver = a.gver)
    (k6 : b.bkpts = a.bkpts) : Later s (s.setCtx c b) :=
  { Later.refl s with
    waves := fun v => OptLater.refl (s.wave? v), timers := fun _ h => h, hist := fun _ => ⟨rfl, rfl, rfl, rfl⟩
    conf := fun d => by
      unfold ctxConf
      by_cases e : d = c
      · subst e; simp [h, k1, k2, k3, k4, k5, k6]
      · rw [State.ctx?_setCtx_ne _ _ e] }

theorem Later.setWaveCtx {s : State} {w : Nat} {x y : Wave} {c : Nat} {a b : Ctx} (h : s.wave? w = some x)
    (k : WaveLater x y) (hc : s.ctx? c = some a) (k1 : b.conf = a.conf) (k2 : b.parent = a.parent)
    (k3 : b.state = a.state) (k4 : b.declared = a.declared) (k5 : b.gver = a.gver) (k6 : b.bkpts = a.bkpts) :
    Later s ((s.setWave w y).setCtx c b) :=
  (Later.setWave h k).trans (Later.setCtx (a := a) hc k1 k2 k3 k4 k5 k6)

theorem WaveLater.setPath (a : Wave) (i : Nat) (p : Path) : WaveLater a (a.setPath i p) := by
  constructor <;> first | rfl | exact fun _ h => h

theorem WaveLater.putPath (a : Wave) (id i : Nat) (p : Path) : WaveLater a (a.putPath id i p) := by
  unfold Wave.putPath
  have h := WaveLater.setPath a i p
  simp only
  split
  · split
    · exact h.trans (by constructor <;> first | rfl | exact fun _ h => h)
    · exact h
  · exact h

theorem WaveLater.settle (a : Wave) : WaveLater a a.settle := by
  unfold Wave.settle
  simp only
  split
  · constructor <;> first | rfl | exact fun _ h => h
  · split
    · constructor <;> first | rfl | exact fun _ h => h
    · split
      · constructor <;> first | rfl | exact fun _ h => h
      · exact WaveLater.refl a

theorem WaveLater.noteFlag (a : Wave) (id f : Nat) : WaveLater a (a.noteFlag id f) := by
  unfold Wave.noteFlag
  split
  · split
    · constructor <;> first | rfl | exact fun _ h => h
    · exact WaveLater.refl a
  · exact WaveLater.refl a

theorem WaveLater.noteIns (a : Wave) (id : Nat) (c : Cur) (r : Nat) (o : List Defer) : WaveLater a (a.noteIns id c r o) := by
  unfold Wave.noteIns
  split
  · split
    · constructor <;> first | rfl | exact fun _ h => h
    · exact WaveLater.refl a
  · exact WaveLater.refl a

theorem WaveLater.openWindow (a : Wave) (id : Nat) (c : Cur) (b : Bool) : WaveLater a (a.openWindow id c b) := by
  unfold Wave.openWindow
  split
  · exact WaveLater.refl a
  · split
    · constructor <;> first | rfl | exact fun _ h => h
    · exact WaveLater.refl a

theorem dropLatch_later (s : State) (w : Nat) : Later s (dropLatch s w) := Later.setLp ⟨rfl, rfl, rfl, rfl⟩

theorem ringPut_later (s : State) (ring : Option Nat) (r : FaultRec) : Later s (ringPut s ring r) := by
  unfold ringPut
  have dev (x : Device) : Later s { s with dev := x } :=
    { Later.refl s with waves := fun v => OptLater.refl (s.wave? v), conf := fun _ => rfl, timers := fun _ h => h,
                        hist := fun _ => ⟨rfl, rfl, rfl, rfl⟩ }
  split
  · exact dev _
  · split
    · exact dev _
    · next x h =>
      split
      · refine Later.trans ?_ (Later.soon _ _)
        exact Later.setCtx h rfl rfl rfl rfl rfl rfl
      · refine Later.trans ?_ (Later.soon _ _)
        exact Later.setCtx h rfl rfl rfl rfl rfl rfl

/-- Giving a line up changes no more than its pin mark. -/
theorem Later.unmark (s : State) (k : Nat) : Later s (s.setLine k { s.line k with pinned := false }) :=
  { Later.refl s with
    waves := fun v => OptLater.refl (s.wave? v), conf := fun _ => rfl, timers := fun _ h => h,
    hist := fun _ => ⟨rfl, rfl, rfl, rfl⟩
    lines := fun l => by
      by_cases e : l = k
      · subst e; simp [State.line, State.setLine]
      · simp [State.line, State.setLine, Sp.get_put_ne _ _ _ e] }

theorem unmarkLines_later (s : State) : Later s (unmarkLines s) := by
  have lines : ∀ (l : List (Nat × LineRec)) (t : State),
      Later t (l.foldl (fun s x => s.setLine x.1 { s.line x.1 with pinned := false }) t) := by
    intro l
    induction l with
    | nil => exact fun t => Later.refl t
    | cons x l ih => exact fun t => (Later.unmark t x.1).trans (ih _)
  exact lines _ s

/-- The end of a pin grant changes the marks of lines, the parts held and what is scheduled. -/
theorem unpin_later (s : State) (w : Nat) : Later s (unpin s w) := by
  unfold unpin
  have pins (t : State) (p : Pins) : Later t { t with
      dies := t.dies.map (fun (d : Nat × Die) => (d.1, { d.2 with holds := d.2.holds.filter (fun (h : Hold) => h.till != 0) })),
      pins := p } :=
    { Later.refl t with
      waves := fun v => OptLater.refl (t.wave? v), conf := fun _ => rfl, timers := fun _ h => h,
      hist := fun _ => ⟨rfl, rfl, rfl, rfl⟩
      dies := fun d => Sp.get_map_rel (R := fun (a b : Die) => ({ a with holds := [] } : Die) = { b with holds := [] }) {}
        (fun (x : Die) => { x with holds := x.holds.filter (fun (h : Hold) => h.till != 0) }) (fun _ => rfl) rfl t.dies d }
  split
  · exact Later.refl s
  · refine (unmarkLines_later s).trans ?_
    generalize unmarkLines s = t
    simp only
    split
    · exact pins t _
    · refine (pins t { t.pins with holder := none }).trans ?_
      exact Later.ensureSoon _ _

/-- Withdrawing a request for the pin grant changes no wave's registers. -/
theorem withdrawPin_later (s : State) (w : Nat) : Later s (withdrawPin s w) := by
  unfold withdrawPin
  have h : Later s { s with pins := { s.pins with queue := s.pins.queue.filter (· != w) } } :=
    { Later.refl s with waves := fun v => OptLater.refl (s.wave? v), conf := fun _ => rfl, timers := fun _ h => h,
                        hist := fun _ => ⟨rfl, rfl, rfl, rfl⟩ }
  refine h.trans (Later.updWave (fun a _ => ?_))
  constructor <;> first | rfl | exact fun _ h => h

/-- TAKING A FAULT changes paths, rings and what is scheduled, nothing else. -/
theorem takeFault_later (s : State) (w i : Nat) (pc base next : Word64) (k : ParkKind) (f : FaultInfo) :
    Later s (takeFault s w i pc base next k f) := by
  unfold takeFault
  split
  · exact Later.refl s
  · next x hx =>
    split
    · exact Later.refl s
    · next c hc =>
      simp only
      refine Later.trans ?_ (ringPut_later _ _ _)
      refine Later.trans ?_ (dropLatch_later _ _)
      have pin (t : State) (y : Wave) :
          Later t (if (y.settle.state == WState.running) = true then t else withdrawPin (unpin t w) w) := by
        split
        · exact Later.refl t
        · exact (unpin_later t w).trans (withdrawPin_later _ w)
      refine Later.trans ?_ (pin _ _)
      refine Later.setWaveCtx hx ?_ hc rfl rfl rfl rfl rfl rfl
      refine WaveLater.trans ?_ (WaveLater.settle _)
      split
      · exact (WaveLater.setPath _ _ _).trans (WaveLater.setPath _ _ _)
      · exact WaveLater.setPath _ _ _

theorem latchStep_counts (l : LanePair) (wid : Nat) (w : Wave) (act : Word64) (i : Instr) (b : Bool) :
    (latchStep l wid w act i b).hist = l.hist ∧ (latchStep l wid w act i b).stall = l.stall ∧
    (latchStep l wid w act i b).idle = l.idle ∧ (latchStep l wid w act i b).slip = l.slip := by
  unfold latchStep
  simp only
  split <;> exact ⟨rfl, rfl, rfl, rfl⟩

theorem endPath_later (x : Iss) (i : Instr) (m : Bool) (n : Nat) (w : Wave) : WaveLater w (endPath x i m n w) := by
  unfold endPath
  simp only
  generalize (if m = true then w.path x.cur.path else _) = p
  split
  · exact WaveLater.refl w
  · split
    · exact WaveLater.setPath _ _ _
    · exact WaveLater.putPath _ _ _ _

theorem endOwe_later (x : Iss) (i : Instr) (l : Bool) (w : Wave) : WaveLater w (endOwe x i l w) := by
  unfold endOwe
  simp only
  generalize h : (if owesFlag x i l = true then _ else w) = y
  have k : WaveLater w y := by
    subst h
    split
    · refine (WaveLater.noteFlag w x.id (ctlOf i).setf.toNat).trans ?_
      constructor <;> first | rfl | exact fun _ h => h
    · exact WaveLater.refl w
  refine (k.trans (WaveLater.noteIns y x.id x.cur (undoRoom i x.w x.cur.path (popcount x.act)) x.w.defer)).trans ?_
  constructor <;> first | rfl | exact fun _ h => h

theorem endLane_counts (x : Iss) (i : Instr) (b : Bool) (l : LanePair) :
    (endLane x i b l).hist = l.hist ∧ (endLane x i b l).stall = l.stall ∧ (endLane x i b l).idle = l.idle ∧
    (endLane x i b l).slip = l.slip := by
  unfold endLane
  simp only
  split <;> exact latchStep_counts _ _ _ _ _ _

/-- THE END OF ISSUE keeps every register and adds what is owed. -/
theorem finish_later (x : Iss) (i : Instr) (moved later : Bool) (s : State) : Later s (finish x i moved later s) := by
  unfold finish
  simp only
  refine Later.trans ?_ (Later.sch (fun _ h => h))
  refine Later.trans ?_ (Later.setLp (endLane_counts _ _ _ _))
  split
  · exact Later.refl s
  · next w h =>
    have k := (endPath_later x i moved (s.clk.cycle + lastPair x i s) w).trans (endOwe_later x i later _)
    split
    · refine Later.trans (Later.setWave h (k.trans ?_)) (Later.after _ _ _)
      constructor <;> first | rfl | exact fun _ h => List.mem_append_left _ h
    · exact Later.setWave h k

theorem stallPath_later (s : State) (c : Cur) (r : Nat) : Later s (stallPath s c r) := by
  unfold stallPath
  simp only
  refine Later.trans ?_ (Later.sch (fun _ h => h))
  refine Later.trans (Later.updWave (fun a _ => WaveLater.setPath _ _ _)) (Later.setLp ⟨rfl, rfl, rfl, rfl⟩)

theorem faultNow_later (x : Iss) (f : FaultInfo) (s : State) : Later s (faultNow x f s) := by
  unfold faultNow
  exact (takeFault_later _ _ _ _ _ _ _ _).trans (Later.sch (fun _ h => h))

theorem stepStop_later (w : Nat) (m : Word64) (pc : Word64) (is : List Nat) (s : State) :
    Later s (stepStop s w m pc is) := by
  induction is generalizing s with
  | nil => exact Later.refl s
  | cons i is ih =>
    unfold stepStop
    simp only
    refine Later.trans ?_ (ih _)
    split
    · split
      · exact takeFault_later _ _ _ _ _ _ _ _
      · exact Later.refl s
    · exact Later.refl s

theorem fireStepAt_later (s : State) (c w i : Nat) (m pc : Word64) : Later s (fireStepAt s c w i m pc) := by
  unfold fireStepAt
  split
  · next c h =>
    split
    · refine Later.trans ?_ (stepStop_later _ _ _ _ _)
      exact Later.setCtx h rfl rfl rfl rfl rfl rfl
    · exact Later.refl s
  · exact Later.refl s

theorem fireStep_later (x : Iss) (s : State) : Later s (fireStep x s) := by
  unfold fireStep
  split
  · exact Later.refl s
  · exact fireStepAt_later _ _ _ _ _ _

end Sys2Proof.Machine
end

