-- ==== Sys2Proof/Laws/Compute.lean ====
section
/-!
SUPPORT. Issue seen from outside: what an instruction that begins comes to, register writes and what they leave, and the
instructions that only compute.
-/

namespace Sys2Proof.Machine

open Claim

/-! ### Issue -/

/-- What issue makes of what an instruction comes to. -/
def actOut (i : Instr) (s : State) (c : Cur) (w : Wave) (x : Iss) : Act → Out
  | .stall r => .next (stallPath s c r)
  | .stallAt t r => .next (stallPath t c r)
  | .waits t g r => .next (stallPath (s.gate t g (some c.wave)) c (if ceilingWait g then 7 else r))
  | .trap f => raiseAt { x with w := w } s s f
  | .trapAt t f => .next (faultNow x f t)
  | .faulted t => .next { t with sch := { t.sch with issued := true, free := t.sch.free + 1 } }
  | .done t => .next (fireStep x (finish x i false false t))
  | .later t => .next (fireStep x (finish x i false true t))
  | .moved t => .next (fireStep x (finish x i true false t))
  | .movedLater t => .next (fireStep x (finish x i true true t))

/-- An instruction that begins does its own part. -/
theorem issue_acts {i : Instr} {s : State} {c : Cur} {w : Wave} (h : Begins i s c w) (act : Iss → State → Act) :
    issue i s act = actOut i s c w (issOf i s c w) (act (issOf i s c w) (s.setWave c.wave (opened s c w))) := by
  have h1 : ¬ w.budget < leastBudget i c w := by have := h.budget; omega
  have h2 : (guardPoison w s.sch.free (ctlOf i) (w.path c.path).e.mask != 0) = false := by simp [h.guard]
  have h3 : (guardMask w s.sch.free (ctlOf i) (w.path c.path).e.mask == 0) = false := by
    simpa [actMask] using h.active
  have h4 : (w.unperformed && (armedAt s c w ||
      (guardMask w s.sch.free (ctlOf i) (w.path c.path).e.mask != 0 && waitsForWave i) || decide (0 < w.careful))) = false := by
    cases hu : w.unperformed
    · rfl
    · obtain ⟨a, b, d⟩ := h.window hu; simp [a, b, d]
  have h5 : (guardMask w s.sch.free (ctlOf i) (w.path c.path).e.mask != 0 && waitsForFlags i && w.pendingFlags != 0) =
      false := by
    cases hf : waitsForFlags i
    · simp
    · simp [h.flags hf]
  have h6 : (needsPin w c && s.pins.holder != some c.wave) = false := by
    cases hp : needsPin w c
    · rfl
    · simp [h.pin hp]
  have h7 := h.room
  unfold actMask at h7
  unfold issue
  simp only [h.cur, h.wave, h.bkpt]
  rw [if_neg h1, if_neg (by rw [h2]; decide), if_neg (by rw [h4]; decide), if_neg (by rw [h5]; decide),
    if_neg (by rw [h6]; decide), if_neg (by rw [h7]; decide), if_neg (by rw [h3]; decide)]
  simp only [issOf, opened, actMask]
  split <;> simp_all [actOut]

theorem opened_ctx (s : State) (c : Cur) (w : Wave) : (opened s c w).ctx = w.ctx := by
  unfold opened Wave.openWindow
  split
  · rfl
  · split <;> rfl

/-- An instruction that a seal precedes does its own part under that seal. -/
theorem issueSealed_acts {i : Instr} {s : State} {c : Cur} {w : Wave} (h : BeginsSealed i s c w) (act : Iss → State → Act) :
    issueSealed i s act = actOut i s c w (issOf i s c w) (act (issOf i s c w) (underSeal s c w)) := by
  unfold issueSealed
  rw [issue_acts h.begins]
  congr 1
  simp only [sealedAct, underSeal, issOf, opened_ctx]
  split
  · rfl
  · next hs => rw [if_neg (by rw [show s.setWave c.wave (opened s c w) = begun s c w from rfl, h.quiet (by simpa using hs)]; decide)]; rfl

/-! ### Register writes -/

/-- The file and key that a register write names. -/
def RegW.place : RegW → Nat × Nat
  | .v r t _ => (0, vKey r t)
  | .s r _ => (1, r)
  | .p r t _ => (2, vKey r t)

/-- The register a write names holds what it says. -/
def RegW.held (w : Wave) : RegW → Prop
  | .v r t x => w.v r t = x
  | .s r x => w.s r = x
  | .p r t x => w.p r t = x

theorem set_regs (w : Wave) (id : Nat) (x : RegW) : (w.set id x).vregs = (w.poke x).vregs ∧
    (w.set id x).sregs = (w.poke x).sregs ∧ (w.set id x).preds = (w.poke x).preds := by
  unfold Wave.set
  simp only
  split
  · split <;> exact ⟨rfl, rfl, rfl⟩
  · exact ⟨rfl, rfl, rfl⟩

theorem held_congr {a b : Wave} (h : a.vregs = b.vregs ∧ a.sregs = b.sregs ∧ a.preds = b.preds) (x : RegW) :
    x.held a ↔ x.held b := by
  cases x <;> simp only [RegW.held, Wave.v, Wave.s, Wave.p, h.1, h.2.1, h.2.2]

theorem write_regs (w : Wave) (id : Nat) (x : RegW) : (w.write id x).vregs = (w.poke x).vregs ∧
    (w.write id x).sregs = (w.poke x).sregs ∧ (w.write id x).preds = (w.poke x).preds := by
  unfold Wave.write
  simp only
  split
  · refine (?_ : _ ∧ _ ∧ _)
    have h := set_regs { w with raced := (x.key, id) :: w.raced } id x
    cases x <;> exact h
  · exact set_regs w id x

theorem poke_held (w : Wave) (x : RegW) : x.held (w.poke x) := by
  cases x <;> simp [RegW.held, Wave.poke, Wave.v, Wave.s, Wave.p]

theorem poke_other (w : Wave) {x y : RegW} (h : y.place ≠ x.place) : y.held (w.poke x) ↔ y.held w := by
  cases x <;> cases y <;>
    simp only [RegW.held, Wave.poke, Wave.v, Wave.s, Wave.p, RegW.place, ne_eq, Prod.mk.injEq, true_and] at * <;>
    rw [Sp.get_put_ne _ _ _ h]

/-- Register writes to places of their own all hold. -/
theorem writes_held (id : Nat) (ws : List RegW) (w : Wave) (h : ws.Pairwise (fun a b => a.place ≠ b.place)) :
    (∀ x ∈ ws, x.held (w.writes id ws)) ∧
    ∀ y : RegW, (∀ x ∈ ws, y.place ≠ x.place) → (y.held (w.writes id ws) ↔ y.held w) := by
  induction ws generalizing w with
  | nil => exact ⟨by simp, fun _ _ => Iff.rfl⟩
  | cons a ws ih =>
    obtain ⟨h1, h2⟩ := List.pairwise_cons.1 h
    obtain ⟨i1, i2⟩ := ih (w.write id a) h2
    refine ⟨fun x hx => ?_, fun y hy => ?_⟩
    · rcases List.mem_cons.1 hx with rfl | hx
      · exact (i2 x (fun z hz => h1 z hz)).2 ((held_congr (write_regs w id x) x).2 (poke_held w x))
      · exact i1 x hx
    · have hy' := fun x hx => hy x (List.mem_cons_of_mem _ hx)
      exact (i2 y hy').trans ((held_congr (write_regs w id a) y).trans
        (poke_other w (hy a List.mem_cons_self)))

/-- A register that no write of a list names keeps its value. -/
theorem writes_other (id : Nat) (ws : List RegW) (w : Wave) (y : RegW) (h : ∀ x ∈ ws, y.place ≠ x.place) :
    y.held (w.writes id ws) ↔ y.held w := by
  induction ws generalizing w with
  | nil => exact Iff.rfl
  | cons a ws ih =>
    exact (ih (w.write id a) (fun x hx => h x (List.mem_cons_of_mem _ hx))).trans
      ((held_congr (write_regs w id a) y).trans (poke_other w (h a List.mem_cons_self)))

/-- Two waves that differ in registers, races and undo records only. -/
structure WaveRest (a b : Wave) : Prop where
  ctx : b.ctx = a.ctx
  width : b.width = a.width
  budget : b.budget = a.budget
  job : b.job = a.job
  index : b.index = a.index
  fstat : b.fstat = a.fstat
  held : b.held = a.held
  lease : b.lease = a.lease
  team : b.team = a.team
  cprog : b.cprog = a.cprog
  copyOp : b.copyOp = a.copyOp
  areas : b.areas = a.areas
  runs : b.runs = a.runs
  growTo : b.growTo = a.growTo
  fuse : b.fuse = a.fuse
  accs : b.accs = a.accs
  pend : b.pend = a.pend
  paths : b.paths = a.paths

theorem WaveRest.trans {a b c : Wave} (h : WaveRest a b) (k : WaveRest b c) : WaveRest a c where
  ctx := k.ctx.trans h.ctx
  width := k.width.trans h.width
  budget := k.budget.trans h.budget
  job := k.job.trans h.job
  index := k.index.trans h.index
  fstat := k.fstat.trans h.fstat
  held := k.held.trans h.held
  lease := k.lease.trans h.lease
  team := k.team.trans h.team
  cprog := k.cprog.trans h.cprog
  copyOp := k.copyOp.trans h.copyOp
  areas := k.areas.trans h.areas
  runs := k.runs.trans h.runs
  growTo := k.growTo.trans h.growTo
  fuse := k.fuse.trans h.fuse
  accs := k.accs.trans h.accs
  pend := k.pend.trans h.pend
  paths := k.paths.trans h.paths

theorem poke_rest (w : Wave) (x : RegW) : WaveRest w (w.poke x) := by
  cases x <;> constructor <;> rfl

theorem set_rest (w : Wave) (id : Nat) (x : RegW) : WaveRest w (w.set id x) := by
  unfold Wave.set
  simp only
  refine (poke_rest w x).trans ?_
  split
  · split <;> constructor <;> rfl
  · constructor <;> rfl

theorem write_rest (w : Wave) (id : Nat) (x : RegW) : WaveRest w (w.write id x) := by
  unfold Wave.write
  simp only
  refine WaveRest.trans ?_ (set_rest _ _ _)
  split <;> constructor <;> rfl

/-- Register writes change registers, races and undo records only. -/
theorem writes_rest (id : Nat) (ws : List RegW) (w : Wave) : WaveRest w (w.writes id ws) := by
  induction ws generalizing w with
  | nil => constructor <;> rfl
  | cons a ws ih => exact (write_rest w id a).trans (ih _)

/-! ### Threads -/

theorem mem_threadsBelow {m : Word64} {n t : Nat} : t ∈ threadsBelow m n ↔ t < n ∧ has m t = true := by
  induction n with
  | zero => simp [threadsBelow]
  | succ n ih =>
    unfold threadsBelow
    rw [List.mem_append, ih]
    constructor
    · rintro (⟨a, b⟩ | h)
      · exact ⟨by omega, b⟩
      · split at h
        · next hb => simp at h; subst h; exact ⟨by omega, hb⟩
        · simp at h
    · rintro ⟨a, b⟩
      by_cases e : t = n
      · subst e; right; simp [b]
      · left; exact ⟨by omega, b⟩

theorem mem_threads {m : Word64} {t : Nat} : t ∈ threads m ↔ t < 64 ∧ has m t = true := mem_threadsBelow

theorem threadsBelow_lt (m : Word64) (n : Nat) : (threadsBelow m n).Pairwise (· < ·) := by
  induction n with
  | zero => simp [threadsBelow]
  | succ n ih =>
    unfold threadsBelow
    rw [List.pairwise_append]
    refine ⟨ih, ?_, fun a ha b hb => ?_⟩
    · split <;> simp
    · split at hb
      · simp at hb; subst hb; exact (mem_threadsBelow.1 ha).1
      · simp at hb

theorem vKey_inj {r r' t t' : Nat} (h : t < 64) (h' : t' < 64) : vKey r t = vKey r' t' ↔ r = r' ∧ t = t' := by
  unfold vKey; omega

/-! ### Instructions that only compute -/

/-- An instruction whose results are in place when it has issued completes with its register writes made. -/
theorem compute_next {i : Instr} {s : State} {c : Cur} {w : Wave} (h : Begins i s c w) (sc : Bool)
    (f : Wave → Nat → Nat → List RegW) : ∃ t, compute i sc f s = .next t ∧
      Later (s.setWave c.wave ((opened s c w).writes w.seq
        (allWrites (lanesOf sc (actMask i s c w)) (f (opened s c w) s.sch.free)))) t := by
  refine ⟨_, issue_acts h _, ?_⟩
  refine Later.trans ?_ ((finish_later _ _ _ _ _).trans (fireStep_later _ _))
  have e (g : Wave → Wave) : (s.setWave c.wave (opened s c w)).updWave c.wave g = s.setWave c.wave (g (opened s c w)) := by
    rw [State.updWave_some g (State.wave?_setWave s c.wave (opened s c w))]
    simp [State.setWave]
  exact (e _).symm ▸ Later.refl _

/-- An instruction whose results land later completes with them on their way. -/
theorem computeLater_next {i : Instr} {s : State} {c : Cur} {w : Wave} (h : Begins i s c w) (sc : Bool)
    (n : State → Nat) (f : Wave → Nat → Nat → FOut) : ∃ t, computeLater i sc n f s = .next t ∧
      Later (landLater (issOf i s c w) i (n (s.setWave c.wave (opened s c w)))
        (((lanesOf sc (actMask i s c w)).map (f (opened s c w) s.sch.free)).flatMap (·.writes))
        (((lanesOf sc (actMask i s c w)).map (f (opened s c w) s.sch.free)).foldl (fun a o => a ||| o.stat) 0)
        (s.setWave c.wave (opened s c w))) t :=
  ⟨_, issue_acts h _, (finish_later _ _ _ _ _).trans (fireStep_later _ _)⟩

/-- The results of landLater are on their way. -/
theorem landLater_onItsWay {i : Instr} {s t : State} {c : Cur} {w : Wave} (n : Nat) (ws : List RegW) (stat : Word32)
    (h : Later (landLater (issOf i s c w) i n ws stat (s.setWave c.wave (opened s c w))) t) :
    OnItsWay s t c.wave w.seq (lastPair (issOf i s c w) i s) n ws stat := by
  have e : landLater (issOf i s c w) i n ws stat (s.setWave c.wave (opened s c w)) =
      ((s.setWave c.wave (opened s c w)).setWave c.wave { ((opened s c w).markRaced w.seq ws) with
        pend := ((opened s c w).markRaced w.seq ws).pend ++ [Pend.mk w.seq ws stat] }).after
          (lastPair (issOf i s c w) i s + n) (.resultWritten c.wave w.seq) := by
    unfold landLater
    rw [show (issOf i s c w).cur.wave = c.wave from rfl, State.updWave_some _ (State.wave?_setWave s c.wave _)]
    rfl
  rw [e] at h
  constructor
  · have k := h.waves c.wave
    simp only [State.wave?, State.after_waves] at k
    rw [show Sp.find (State.setWave _ c.wave _).waves c.wave = some _ from Sp.find_insert _ _ _] at k
    cases hx : t.wave? c.wave with
    | none => rw [show Sp.find t.waves c.wave = none from hx] at k; exact k.elim
    | some x =>
      rw [show Sp.find t.waves c.wave = some x from hx] at k
      exact ⟨x, rfl, k.pend _ (List.mem_append_right _ List.mem_cons_self)⟩
  · exact ⟨n, Nat.le_refl _, h.timers _ (List.mem_append_right _ List.mem_cons_self)⟩

/-! ### Whatever an instruction comes to -/

theorem ite_next {p : Prop} [Decidable p] {a b : Out} (ha : ∃ t, a = .next t) (hb : ∃ t, b = .next t) :
    ∃ t, (if p then a else b) = .next t := by
  split
  · exact ha
  · exact hb

theorem raiseAt_next (x : Iss) (s t : State) (f : FaultInfo) : ∃ u, raiseAt x s t f = .next u :=
  ite_next ⟨_, rfl⟩ (ite_next ⟨_, rfl⟩ ⟨_, rfl⟩)

/-- Issue answers a next state whenever a path issues. -/
theorem issue_next {s : State} {c : Cur} {w : Wave} (hc : s.sch.cur = some c) (hw : s.wave? c.wave = some w) (i : Instr)
    (act : Iss → State → Act) : ∃ t, issue i s act = .next t := by
  unfold issue
  simp only [hc, hw]
  split
  · exact raiseAt_next _ _ _ _
  · refine ite_next (raiseAt_next _ _ _ _) (ite_next (raiseAt_next _ _ _ _) (ite_next ⟨_, rfl⟩ (ite_next ⟨_, rfl⟩
      (ite_next ⟨_, rfl⟩ (ite_next ⟨_, rfl⟩ (ite_next ⟨_, rfl⟩ ?_))))))
    generalize act _ _ = b
    cases b <;> first | exact ⟨_, rfl⟩ | exact raiseAt_next _ _ _ _

theorem requestPin_later (s : State) (w : Nat) : Later s (requestPin s w) := by
  unfold requestPin
  split
  · exact Later.refl s
  · simp only [State.fresh]
    refine Later.trans ?_ (Later.afterTicks _ _ _)
    refine Later.trans ?_ (Later.soon _ _)
    refine Later.trans ?_ (Later.updWave (fun a _ => ?_))
    · exact { Later.refl s with waves := fun v => OptLater.refl (s.wave? v), conf := fun _ => rfl, timers := fun _ h => h,
                                hist := fun _ => ⟨rfl, rfl, rfl, rfl⟩ }
    · constructor <;> first | rfl | exact fun _ h => h

theorem gate_later (s : State) (t r : Nat) (w : Option Nat) : Later s (s.gate t r w) := by
  unfold State.gate
  split
  · exact Later.refl s
  · split
    · exact Later.ensureSoon s _
    · exact Later.sch (fun _ h => h)

/-- The states an instruction may come to at issue. -/
def Act.state? : Act → Option State
  | .done t | .later t | .moved t | .movedLater t | .stallAt t _ | .trapAt t _ | .faulted t => some t
  | .stall _ | .waits _ _ _ | .trap _ => none

theorem disarm_later (s : State) (c : Nat) : Later s (disarm s c) := by
  unfold disarm State.updCtx
  split
  · next x h => exact Later.setCtx (a := x) (b := { x with step := x.step &&& 0x7FFFFFFF }) h rfl rfl rfl rfl rfl rfl
  · exact Later.refl s

theorem stallStop_later (s : State) (c : Cur) (id : Nat) : Later s (stallStop s c id) := by
  unfold stallStop
  refine Later.trans (Later.updWave (fun a _ => ?_)) (stallPath_later _ _ _)
  exact (WaveLater.setPath _ _ _).trans (WaveLater.openWindow _ _ _ _)

/-- What a stop comes to at issue is later than the state it starts from, or than that state with the window rolled back. -/
theorem raiseAt_rel {R : State → State → Prop} (hl : ∀ a b, Later a b → R a b) (ht : ∀ a b c, R a b → R b c → R a c)
    (hr : ∀ a w, R a (rollback a w false)) {x : Iss} {s t u : State} {f : FaultInfo} (k : Later s t)
    (h : raiseAt x s t f = .next u) : R s u := by
  unfold raiseAt at h
  split at h
  · cases h; exact hl _ _ (stallPath_later _ _ _)
  · split at h
    · cases h; exact hl _ _ (stallStop_later _ _ _)
    · split at h
      · cases h; exact ht _ _ _ (hl _ _ k) (ht _ _ _ (hr _ _) (hl _ _ (faultNow_later _ _ _)))
      · cases h; exact hl _ _ (k.trans (faultNow_later _ _ _))

theorem breakAt_rel {R : State → State → Prop} (hl : ∀ a b, Later a b → R a b) (ht : ∀ a b c, R a b → R b c → R a c)
    (hr : ∀ a w, R a (rollback a w false)) {x : Iss} {s u : State} {b : Nat} (h : breakAt x s b = .next u) : R s u := by
  unfold breakAt at h
  refine raiseAt_rel hl ht hr ?_ h
  split
  · exact disarm_later _ _
  · exact Later.refl s

/-- A relation that holds of what the shared operations do, and of an instruction's own part, holds of its issue. -/
theorem issue_rel {R : State → State → Prop} (hl : ∀ a b, Later a b → R a b)
    (ht : ∀ a b c, R a b → R b c → R a c) (hr : ∀ a w, R a (rollback a w false)) {i : Instr} {s u : State} {act : Iss → State → Act}
    (ha : ∀ x a t, s.sch.cur = some x.cur → a.wave? x.cur.wave = some x.w →
      Later s a → (act x a).state? = some t → R a t)
    (h : issue i s act = .next u) : R s u := by
  unfold issue at h
  split at h
  · cases h
  · next c hc =>
    split at h
    · cases h
    · next w hw =>
      simp only at h
      have st : ∀ r, R s (stallPath s c r) := fun r => hl _ _ (stallPath_later s c r)
      have hop : Later s (s.setWave c.wave (w.openWindow w.seq c (needsPin w c && s.pins.holder == some c.wave))) :=
        Later.setWave hw (WaveLater.openWindow _ _ _ _)
      have fin : ∀ x (m l : Bool) t,
          R (s.setWave c.wave (w.openWindow w.seq c (needsPin w c && s.pins.holder == some c.wave))) t →
          R s (fireStep x (finish x i m l t)) := fun x m l t k =>
        ht _ _ _ (hl _ _ hop) (ht _ _ _ k (hl _ _ ((finish_later x i m l t).trans (fireStep_later x _))))
      have rs : ∀ {x f u}, raiseAt x s s f = .next u → R s u := fun h => raiseAt_rel hl ht hr (Later.refl s) h
      repeat' split at h
      all_goals (first
        | exact rs h
        | exact breakAt_rel hl ht hr h
        | (cases h; first | exact st _
                          | exact hl _ _ (hop.trans ((finish_later _ _ _ _ _).trans (fireStep_later _ _)))
                          | exact hl _ _ ((requestPin_later s c.wave).trans (stallPath_later _ _ _))
                          | exact hl _ _ ((gate_later s _ _ _).trans (stallPath_later _ _ _)))
        | skip)
      all_goals
        next he =>
          have ha' := ha _ _ _ hc (State.wave?_setWave _ _ _) hop (by rw [he]; rfl)
          cases h
          first
          | exact fin _ _ _ _ ha'
          | exact ht _ _ _ (hl _ _ hop) (ht _ _ _ ha' (hl _ _ (stallPath_later _ _ _)))
          | exact ht _ _ _ (hl _ _ hop) (ht _ _ _ ha' (hl _ _ (faultNow_later _ _ _)))
          | exact ht _ _ _ (hl _ _ hop) (ht _ _ _ ha' (hl _ _ (Later.sch (fun _ h => h))))

end Sys2Proof.Machine
end

