-- ==== Sys2Proof/Laws/Decode.lean ====
section
/-!
SUPPORT. The fields of a word: taking them from a slot and putting them into one.
-/

namespace Sys2Proof

theorem extract_append_lo {m n : Nat} (x : BitVec m) (y : BitVec n) (lo w : Nat) (h : lo + w ≤ n) :
    (x ++ y).extractLsb' lo w = y.extractLsb' lo w := by
  ext i hi
  simp only [BitVec.getElem_extractLsb', BitVec.getLsbD_append]
  rw [if_pos (by omega)]

theorem extract_append_hi {m n : Nat} (x : BitVec m) (y : BitVec n) (lo w : Nat) (h : n ≤ lo) :
    (x ++ y).extractLsb' lo w = x.extractLsb' (lo - n) w := by
  ext i hi
  simp only [BitVec.getElem_extractLsb', BitVec.getLsbD_append]
  rw [if_neg (by omega), show lo + i - n = lo - n + i by omega]

theorem extract_all {n : Nat} (x : BitVec n) : x.extractLsb' 0 n = x := by
  ext i hi
  simp

theorem getLsbD_append_hi {m n : Nat} (x : BitVec m) (y : BitVec n) (i : Nat) (h : n ≤ i) :
    (x ++ y).getLsbD i = x.getLsbD (i - n) := by
  simp only [BitVec.getLsbD_append]
  rw [if_neg (by omega)]

theorem getLsbD_append_lo {m n : Nat} (x : BitVec m) (y : BitVec n) (i : Nat) (h : i < n) :
    (x ++ y).getLsbD i = y.getLsbD i := by
  simp only [BitVec.getLsbD_append]
  rw [if_pos (by omega)]

theorem bit_b1 (b : Bool) : (b1 b).getLsbD 0 = b := by cases b <;> rfl

theorem word_len (f : Fields) : bits f.word 0 2 = f.len :=
  (extract_append_lo _ _ 0 2 (by decide)).trans
    (extract_all _)

theorem word_op (f : Fields) : bits f.word 2 8 = f.op :=
  (extract_append_hi _ _ 2 8 (by decide)).trans
    ((extract_append_lo _ _ 0 8 (by decide)).trans
    (extract_all _))

theorem word_dist (f : Fields) : bits f.word 10 3 = f.dist :=
  (extract_append_hi _ _ 10 3 (by decide)).trans
    ((extract_append_hi _ _ 8 3 (by decide)).trans
    ((extract_append_lo _ _ 0 3 (by decide)).trans
    (extract_all _)))

theorem word_wait (f : Fields) : bits f.word 13 12 = f.wait :=
  (extract_append_hi _ _ 13 12 (by decide)).trans
    ((extract_append_hi _ _ 11 12 (by decide)).trans
    ((extract_append_hi _ _ 3 12 (by decide)).trans
    ((extract_append_lo _ _ 0 12 (by decide)).trans
    (extract_all _))))

theorem word_setf (f : Fields) : bits f.word 25 4 = f.setf :=
  (extract_append_hi _ _ 25 4 (by decide)).trans
    ((extract_append_hi _ _ 23 4 (by decide)).trans
    ((extract_append_hi _ _ 15 4 (by decide)).trans
    ((extract_append_hi _ _ 12 4 (by decide)).trans
    ((extract_append_lo _ _ 0 4 (by decide)).trans
    (extract_all _)))))

theorem word_hold (f : Fields) : bits f.word 29 2 = f.hold :=
  (extract_append_hi _ _ 29 2 (by decide)).trans
    ((extract_append_hi _ _ 27 2 (by decide)).trans
    ((extract_append_hi _ _ 19 2 (by decide)).trans
    ((extract_append_hi _ _ 16 2 (by decide)).trans
    ((extract_append_hi _ _ 4 2 (by decide)).trans
    ((extract_append_lo _ _ 0 2 (by decide)).trans
    (extract_all _))))))

theorem word_s (f : Fields) : bit f.word 31 = f.s :=
  (getLsbD_append_hi _ _ 31 (by decide)).trans
    ((getLsbD_append_hi _ _ 29 (by decide)).trans
    ((getLsbD_append_hi _ _ 21 (by decide)).trans
    ((getLsbD_append_hi _ _ 18 (by decide)).trans
    ((getLsbD_append_hi _ _ 6 (by decide)).trans
    ((getLsbD_append_hi _ _ 2 (by decide)).trans
    ((getLsbD_append_lo _ _ 0 (by decide)).trans
    (bit_b1 _)))))))

theorem word_guard (f : Fields) : bits f.word 32 5 = f.guard :=
  (extract_append_hi _ _ 32 5 (by decide)).trans
    ((extract_append_hi _ _ 30 5 (by decide)).trans
    ((extract_append_hi _ _ 22 5 (by decide)).trans
    ((extract_append_hi _ _ 19 5 (by decide)).trans
    ((extract_append_hi _ _ 7 5 (by decide)).trans
    ((extract_append_hi _ _ 3 5 (by decide)).trans
    ((extract_append_hi _ _ 1 5 (by decide)).trans
    ((extract_append_lo _ _ 0 5 (by decide)).trans
    (extract_all _))))))))

theorem word_gneg (f : Fields) : bit f.word 37 = f.gneg :=
  (getLsbD_append_hi _ _ 37 (by decide)).trans
    ((getLsbD_append_hi _ _ 35 (by decide)).trans
    ((getLsbD_append_hi _ _ 27 (by decide)).trans
    ((getLsbD_append_hi _ _ 24 (by decide)).trans
    ((getLsbD_append_hi _ _ 12 (by decide)).trans
    ((getLsbD_append_hi _ _ 8 (by decide)).trans
    ((getLsbD_append_hi _ _ 6 (by decide)).trans
    ((getLsbD_append_hi _ _ 5 (by decide)).trans
    ((getLsbD_append_lo _ _ 0 (by decide)).trans
    (bit_b1 _)))))))))

theorem word_dst (f : Fields) : bits f.word 38 8 = f.dst :=
  (extract_append_hi _ _ 38 8 (by decide)).trans
    ((extract_append_hi _ _ 36 8 (by decide)).trans
    ((extract_append_hi _ _ 28 8 (by decide)).trans
    ((extract_append_hi _ _ 25 8 (by decide)).trans
    ((extract_append_hi _ _ 13 8 (by decide)).trans
    ((extract_append_hi _ _ 9 8 (by decide)).trans
    ((extract_append_hi _ _ 7 8 (by decide)).trans
    ((extract_append_hi _ _ 6 8 (by decide)).trans
    ((extract_append_hi _ _ 1 8 (by decide)).trans
    ((extract_append_lo _ _ 0 8 (by decide)).trans
    (extract_all _))))))))))

theorem word_sa (f : Fields) : bits f.word 46 8 = f.sa :=
  (extract_append_hi _ _ 46 8 (by decide)).trans
    ((extract_append_hi _ _ 44 8 (by decide)).trans
    ((extract_append_hi _ _ 36 8 (by decide)).trans
    ((extract_append_hi _ _ 33 8 (by decide)).trans
    ((extract_append_hi _ _ 21 8 (by decide)).trans
    ((extract_append_hi _ _ 17 8 (by decide)).trans
    ((extract_append_hi _ _ 15 8 (by decide)).trans
    ((extract_append_hi _ _ 14 8 (by decide)).trans
    ((extract_append_hi _ _ 9 8 (by decide)).trans
    ((extract_append_hi _ _ 8 8 (by decide)).trans
    ((extract_append_lo _ _ 0 8 (by decide)).trans
    (extract_all _)))))))))))

theorem word_sb (f : Fields) : bits f.word 54 8 = f.sb :=
  (extract_append_hi _ _ 54 8 (by decide)).trans
    ((extract_append_hi _ _ 52 8 (by decide)).trans
    ((extract_append_hi _ _ 44 8 (by decide)).trans
    ((extract_append_hi _ _ 41 8 (by decide)).trans
    ((extract_append_hi _ _ 29 8 (by decide)).trans
    ((extract_append_hi _ _ 25 8 (by decide)).trans
    ((extract_append_hi _ _ 23 8 (by decide)).trans
    ((extract_append_hi _ _ 22 8 (by decide)).trans
    ((extract_append_hi _ _ 17 8 (by decide)).trans
    ((extract_append_hi _ _ 16 8 (by decide)).trans
    ((extract_append_hi _ _ 8 8 (by decide)).trans
    ((extract_append_lo _ _ 0 8 (by decide)).trans
    (extract_all _))))))))))))

theorem word_mod (f : Fields) : bits f.word 62 2 = f.mod :=
  (extract_append_hi _ _ 62 2 (by decide)).trans
    ((extract_append_hi _ _ 60 2 (by decide)).trans
    ((extract_append_hi _ _ 52 2 (by decide)).trans
    ((extract_append_hi _ _ 49 2 (by decide)).trans
    ((extract_append_hi _ _ 37 2 (by decide)).trans
    ((extract_append_hi _ _ 33 2 (by decide)).trans
    ((extract_append_hi _ _ 31 2 (by decide)).trans
    ((extract_append_hi _ _ 30 2 (by decide)).trans
    ((extract_append_hi _ _ 25 2 (by decide)).trans
    ((extract_append_hi _ _ 24 2 (by decide)).trans
    ((extract_append_hi _ _ 16 2 (by decide)).trans
    ((extract_append_hi _ _ 8 2 (by decide)).trans
    ((extract_append_lo _ _ 0 2 (by decide)).trans
    (extract_all _)))))))))))))

theorem word_ext (f : Fields) : bits f.word 64 32 = f.ext :=
  (extract_append_hi _ _ 64 32 (by decide)).trans
    ((extract_append_hi _ _ 62 32 (by decide)).trans
    ((extract_append_hi _ _ 54 32 (by decide)).trans
    ((extract_append_hi _ _ 51 32 (by decide)).trans
    ((extract_append_hi _ _ 39 32 (by decide)).trans
    ((extract_append_hi _ _ 35 32 (by decide)).trans
    ((extract_append_hi _ _ 33 32 (by decide)).trans
    ((extract_append_hi _ _ 32 32 (by decide)).trans
    ((extract_append_hi _ _ 27 32 (by decide)).trans
    ((extract_append_hi _ _ 26 32 (by decide)).trans
    ((extract_append_hi _ _ 18 32 (by decide)).trans
    ((extract_append_hi _ _ 10 32 (by decide)).trans
    ((extract_append_hi _ _ 2 32 (by decide)).trans
    ((extract_append_lo _ _ 0 32 (by decide)).trans
    (extract_all _))))))))))))))

theorem word_ext2 (f : Fields) : bits f.word 96 32 = f.ext2 :=
  (extract_append_hi _ _ 96 32 (by decide)).trans
    ((extract_append_hi _ _ 94 32 (by decide)).trans
    ((extract_append_hi _ _ 86 32 (by decide)).trans
    ((extract_append_hi _ _ 83 32 (by decide)).trans
    ((extract_append_hi _ _ 71 32 (by decide)).trans
    ((extract_append_hi _ _ 67 32 (by decide)).trans
    ((extract_append_hi _ _ 65 32 (by decide)).trans
    ((extract_append_hi _ _ 64 32 (by decide)).trans
    ((extract_append_hi _ _ 59 32 (by decide)).trans
    ((extract_append_hi _ _ 58 32 (by decide)).trans
    ((extract_append_hi _ _ 50 32 (by decide)).trans
    ((extract_append_hi _ _ 42 32 (by decide)).trans
    ((extract_append_hi _ _ 34 32 (by decide)).trans
    ((extract_append_hi _ _ 32 32 (by decide)).trans
    (extract_all _))))))))))))))

/-- The fields of a word are the fields it was made of, without an extension in 64 bits. -/
theorem Fields.ofWord_word (f : Fields) : Fields.ofWord f.word =
    { f with ext := if f.len == 1 then 0 else f.ext, ext2 := if f.len == 1 then 0 else f.ext2 } := by
  unfold Fields.ofWord
  rw [word_len, word_op, word_dist, word_wait, word_setf, word_hold, word_s, word_guard, word_gneg, word_dst, word_sa,
    word_sb, word_mod, word_ext, word_ext2]

/-- Decoding an encoding decodes the fields. -/
theorem decode_word (f : Fields) (h : f.len = 1#2 → f.ext = 0 ∧ f.ext2 = 0) : decode f.word = ofFields f := by
  unfold decode
  rw [Fields.ofWord_word]
  congr 1
  by_cases e : f.len = 1#2
  · obtain ⟨a, b⟩ := h e
    cases f; simp_all
  · have : (f.len == 1) = false := by simpa using e
    cases f; simp_all

end Sys2Proof
end

