-- ==== Sys2Proof/Laws/Seals.lean ====
section
/-!
SUPPORT. What the operations that wait for a checkpoint, meet a breakpoint, move a path or hold back a fetch can do, said once
for each (R148, R157, R188, R189, R207, R208, R221, R222).
-/

namespace Sys2Proof.Machine

/-- A log with room leaves the machine as it is (R207). -/
@[simp] theorem logRoom_free {s : State} {c : Nat} (h : logFull s c = false) : logRoom s c = s := by
  simp [logRoom, h]

/-- A step that appends to the log waits for a checkpoint, asked for, or does what it does with room (R207). -/
theorem withRoom_cases (s : State) (c : Nat) (self : Instr) (f : State → State) :
    (logFull s c = true ∧ sealWaits s c = true ∧
      withRoom s c self f = (askCheckpoint s (rootOf s c)).ensureTicks 1 self) ∨
    withRoom s c self f = f (logRoom s c) := by
  unfold withRoom
  split
  · next h => exact .inl ⟨(Bool.and_eq_true _ _ ▸ h).1, (Bool.and_eq_true _ _ ▸ h).2, rfl⟩
  · exact .inr rfl

theorem withRoom_free {s : State} {c : Nat} (self : Instr) (f : State → State) (h : logFull s c = false) :
    withRoom s c self f = f s := by
  simp [withRoom, h]

/-- A checkpoint asked for once more changes nothing (R206). -/
theorem askCheckpoint_pausing {s : State} {root : Nat} (h : (s.part? root).any (fun p => p.pausing) = true) :
    askCheckpoint s root = s := by
  simp [askCheckpoint, h]

/-- Outside a partition no checkpoint is asked for. -/
theorem askCheckpoint_none {s : State} {root : Nat} (h : s.part? root = none) : askCheckpoint s root = s := by
  simp [askCheckpoint, h]

/-- An instruction that meets a breakpoint traps with the breakpoint's record; the context's step fires only with it (R222). -/
theorem breakStop_cases (x : Iss) (s : State) (b : Nat) :
    breakStop x s b = .trap (bkptFault x b) ∨ breakStop x s b = .trapAt (disarm s x.w.ctx) (bkptFault x b) := by
  unfold breakStop
  split
  · exact .inr rfl
  · exact .inl rfl

/-- A path that goes to an address changes its PC alone in its entry (R150, R188). -/
@[simp] theorem Path.goesTo_e (p : Path) (t : Word64) : (p.goesTo t).e = { p.e with pc := t } := by
  unfold Path.goesTo
  split <;> rfl

/-- It keeps its fetch buffer when the target lies in it, else it has none (R188). -/
theorem Path.goesTo_fetch (p : Path) (t : Word64) :
    (p.goesTo t).fetch = if p.fetch.any (fun x => x.1 == blockOf t) then p.fetch else [] := by
  unfold Path.goesTo
  split <;> rfl

/-- Only an older access of its threads, or an older launch of its own, holds a fetch back (R189). -/
theorem owesBefore_older {s : State} {wid i n : Nat} (h : owesBefore s wid i n = true) : ∃ w, s.wave? wid = some w ∧
    ((∃ a ∈ w.accs, a.id < n ∧ a.faulted = none ∧ a.mask &&& (w.path i).e.mask ≠ 0) ∨
      ∃ l ∈ (s.core (coreOf wid)).launches, l.wave = wid ∧ l.path = i ∧ l.id < n ∧ l.lrec = none) := by
  unfold owesBefore at h
  split at h
  · cases h
  · next w hw =>
    refine ⟨w, hw, ?_⟩
    simp only [Bool.or_eq_true, List.any_eq_true, Bool.and_eq_true, decide_eq_true_eq, bne_iff_ne, beq_iff_eq,
      Option.isNone_iff_eq_none] at h
    rcases h with ⟨a, ha, ⟨⟨hid, hf⟩, hm⟩⟩ | ⟨l, hl, ⟨⟨⟨⟨hw, hp⟩, hid⟩, hr⟩, _⟩⟩
    · exact .inl ⟨a, ha, hid, hf, hm⟩
    · exact .inr ⟨l, hl, hw, hp, hid, hr⟩

/-- A thread of the path reads its own register as any instruction does (R157). -/
@[simp] theorem crossRead_active {w : Wave} {free : Nat} {act : Word64} {r t : Nat} (h : has act t = true) :
    crossRead w free act r t = w.readV free r t := by
  simp [crossRead, h]

/-- What a store leaves has the length of what it stores (R148). -/
@[simp] theorem storedLocal_length (s : State) (w : Who) (off : Nat) (bs : List Byte) (stl : Bool) :
    (storedLocal s w off bs stl).length = bs.length := by
  unfold storedLocal
  split <;> simp

/-- Where no other wave owns the place, it is the bytes stored (R148). -/
theorem storedLocal_own {s : State} {w : Who} {off : Nat} (bs : List Byte) (stl : Bool)
    (h : foreignAt s w.core w.ctx off w.wave = false) : storedLocal s w off bs stl = bs := by
  simp [storedLocal, h]

end Sys2Proof.Machine
end

