-- ==== Sys2Proof/Tests/Slice0.lean ====
section
/-!
SUPPORT. Tests of the model: ill-formed terms refused, words of the spec decoded, worked examples of the spec computed, and
for the statements a state and operands that meet their hypotheses.
-/

namespace Sys2Proof.Tests

open Sys2Proof Machine Claim

set_option maxRecDepth 100000
set_option Elab.async false

/-! ### Ill-formed terms (R226 to R299, R328) -/

/-- Control fields with a reserved guard (R230), flag (R232) or latch (R235). -/
def badGuard : Ctl := { Ctl.neutral with guard := 24 }
def badFlag : Ctl := { Ctl.neutral with setf := 12 }
def badHold : Ctl := { Ctl.neutral with hold := 3 }

/-- Operands in form R: v1 from v2 and v3. -/
def alu : Alu := ⟨.neutral, false, .r, 4, .reg 6, .reg 8, .none, .n32, false⟩
def flt : Flt := ⟨.neutral, false, .r, 4, .reg 6, .reg 8, .none, .rn⟩
def prd : Prd := ⟨.neutral, 1, 2, 3, false, false⟩
def mem : Mem := ⟨.neutral, false, false, 4, 6, 0⟩
def atm : Atm := { ctl := .neutral, s := false, wide := false, dst := 4, ptr := 6, val := .reg 8, new := .none }

theorem wf_control : (Instr.iadd { alu with ctl := badGuard }).wf = false ∧ (Instr.iadd { alu with ctl := badFlag }).wf = false ∧
    (Instr.iadd { alu with ctl := badHold }).wf = false ∧ (Instr.split badGuard 3).wf = false ∧
    (Instr.split { Ctl.neutral with guard := 3 } 3).wf = false ∧ (Instr.tlbinvCtx badHold 2).wf = false := by decide
theorem wf_forms : (Instr.imad alu).wf = false ∧ (Instr.ineg { alu with form := .i }).wf = false ∧
    (Instr.ffma flt).wf = false ∧ (Instr.fcmp .lt flt).wf = false ∧ (Instr.fcvtp .e4m3 false 0 flt).wf = false := by decide
theorem wf_sources : (Instr.iadd { alu with b := .imm 1 }).wf = false ∧ (Instr.iadd { alu with a := .sca 1 }).wf = false ∧
    (Instr.bnot alu).wf = false ∧ (Instr.shfl .neutral .idx 1 2 (.sca 3)).wf = false ∧
    (Instr.bcast .neutral false 1 2 (.reg 3)).wf = false := by decide
theorem wf_pairs : (Instr.iaddw { alu with dst := 5 }).wf = false ∧ (Instr.movi .neutral false 5 (.sext 1)).wf = false ∧
    (Instr.ld .n64 { mem with dst := 5 }).wf = false ∧ (Instr.ld .n128 { mem with dst := 6 }).wf = false ∧
    (Instr.ld .n32 { mem with ptr := 7 }).wf = false ∧ (Instr.copy .neutral 5).wf = false := by decide
theorem wf_files : (Instr.split .neutral 64).wf = false ∧ (Instr.pand { prd with dst := 24 }).wf = false ∧
    (Instr.tzero .neutral 16).wf = false ∧ (Instr.azero .neutral 8).wf = false := by decide
theorem wf_types : (Instr.iadd { alu with ty := .i8 }).wf = false ∧ (Instr.imax { alu with sat := true }).wf = false ∧
    (Instr.fmin { flt with rnd := .rz }).wf = false ∧ (Instr.fcvt .bf16 .f32 true { flt with b := .none }).wf = false := by decide
theorem wf_elements : (Instr.fcvtp .e4m3 false 2 { flt with form := .c }).wf = false ∧
    (Instr.fcvtx .f32 0 { flt with b := .none }).wf = false ∧ (Instr.fcvtx .bf16 2 { flt with b := .none }).wf = false := by decide
theorem wf_offsets : (Instr.bra .neutral false 0x00080000).wf = false ∧ (Instr.ld .n32 { mem with off := 4 }).wf = false ∧
    (Instr.barv { ctl := .neutral, wide := false, ptr := 2, off := 128, cnt := none }).wf = false := by decide
theorem wf_special : (Instr.srd .neutral false false 4 9).wf = false ∧ (Instr.srd .neutral true false 4 0).wf = false ∧
    (Instr.srd .neutral false true 4 1).wf = false ∧ (Instr.swr .neutral false 1 4).wf = false := by decide
theorem wf_operations : (Instr.wred .neutral .add true false 4 6).wf = false ∧ (Instr.atom .add true false atm).wf = false ∧
    (Instr.atom .fadd false false { atm with wide := true }).wf = false ∧ (Instr.lease .neutral (.imm 0)).wf = false ∧
    (Instr.fuse .neutral 3 0 65).wf = false ∧ (Instr.tst .neutral 1 2 .mxScales).wf = false ∧
    (Instr.prf 0 mem).wf = false := by decide
theorem wf_events : (Instr.ptsTick).wf = false ∧ (Instr.lanePairCycle).wf = false := by decide

/-! ### Words of the spec -/

theorem word_iadd : decode 0x0242829F1E000001 =
    .ok (.iadd ⟨.neutral, false, .r, 10, .reg 10, .reg 9, .none, .n32, false⟩) := rfl
theorem word_icmp : decode 0x000000100402005F1E000076 =
    .ok (.icmp .lt ⟨.neutral, false, .i, 1, .reg 8, .imm 16, .none, .n32, false⟩) := rfl
theorem word_ffma : decode 0x00000001150000000503859F1E03810E =
    .ok (.ffma ⟨⟨0, 28, 15, 0, 31, false⟩, false, .c, 22, .reg 14, .reg 20, .reg 21, .rn⟩) := rfl
theorem word_bra : decode 0x03FFFE231E000201 = .ok (.bra ⟨0, 0, 15, 0, 3, true⟩ false 0xFFFFFFF8) := rfl
theorem word_rep : (decodeTableWord 64 0x000090DF1E000225).isSome = true := by decide +kernel
theorem word_nop : decode 0x0000001F1E000221 = .ok (.nop .neutral .l64) := rfl
theorem word_srd : decode 0x0000021F1E00023D = .ok (.srd .neutral false false 8 0) := rfl
theorem word_ld : decode 0x0102831F00000281 = .ok (.ld .n32 ⟨⟨0, 0, 0, 0, 31, false⟩, false, false, 12, 10, 0⟩) := rfl
theorem word_copym : decode 0x0002001F9E002309 = .ok (.copym ⟨0, 1, 15, 0, 31, false⟩ 8) := rfl
theorem word_tcfg : decode 0x000001F30000001F9E000342 = .ok (.tcfg .neutral 0 (.imm 0x1F3)) := rfl
theorem word_ctxrun : decode 0x0002411F9E00038D = .ok (.ctxrun .neutral 4 9) := rfl
theorem word_tret : decode 0x4000001F1E000239 = .ok (.tretSkip .neutral) := rfl
/-- An undefined opcode, a reserved guard and a LEN of 00 are refused by name (R240, R241). -/
theorem word_refused : decodeTableWord 64 0x0000001F1E0003FD = none ∧ decodeTableWord 64 0x000000181E000221 = none ∧
    decodeTableWord 64 0x0000001F1E000220 = none := by decide +kernel
theorem word_encoded : encode (.nop .neutral .l64) = some 0x0000001F1E000221 ∧
    encode (.ret .neutral false 6) = some 0x0001801F1E000211 := by decide +kernel

/-! ### Worked examples of the spec -/

/-- 300, 460 and 470 to E4M3, and 500 under .rz (R132). -/
theorem example_e4m3 : (fCvt .e4m3 .f32 .rn false 0x43960000).code = 0x79 ∧ (fCvt .e4m3 .f32 .ru false 0x43960000).code = 0x7A ∧
    (fCvt .e4m3 .f32 .rn false 0x43E60000).code = 0x7E ∧ (fCvt .e4m3 .f32 .ru false 0x43E60000).code = 0x7F ∧
    (fCvt .e4m3 .f32 .rn false 0x43EB0000).code = 0x7F ∧ (fCvt .e4m3 .f32 .rn true 0x43EB0000).code = 0x7E ∧
    (fCvt .e4m3 .f32 .rz false 0x43FA0000) = ⟨0x7E, fOVERFLOW ||| fINEXACT⟩ := by decide +kernel
/-- E8M0 codes (R124) and E2M1 codes (R123). -/
theorem example_e2m1 : (fCvt .e2m1 .f32 .rn false 0x40C00000).code = 7 ∧ (fCvt .f32 .e2m1 .rn false 0xD).code = 0xC0400000 := by
  decide +kernel

/-! ### Small states -/

/-- Wave 0 of context 1 with one path at address 32. -/
def wave : Wave := testWave []
def cur : Cur := ⟨0, 0, 32, 32, 8, false⟩
def mk (w : Wave) (x : Ctx := testCtx) : State :=
  { State.reset with waves := [(0, w)], ctxs := [(1, x)], sch := { cur := some cur } }
def st : State := mk wave

/-- Begins, as a test. -/
def may (i : Instr) (s : State) (c : Cur) (w : Wave) : Bool :=
  decide (s.sch.cur = some c) && decide (s.wave? c.wave = some w) && decide ((w.path c.path).e.kind = .path) &&
  decide (execHit s c w = none) && decide (leastBudget i c w ≤ w.budget) &&
  decide (guardPoison w s.sch.free (ctlOf i) (w.path c.path).e.mask = 0) && decide (actMask i s c w ≠ 0) &&
  (!w.unperformed || (!armedAt s c w && !waitsForWave i && decide (w.careful = 0))) &&
  (!waitsForFlags i || decide (w.pendingFlags = 0)) && (!needsPin w c || decide (s.pins.holder = some c.wave)) &&
  roomFor s (w.openWindow w.seq c false) (undoRoom i w c.path (popcount (actMask i s c w)))

theorem begins_of {i s c w} (h : may i s c w = true) : Begins i s c w := by
  simp only [may, Bool.and_eq_true, decide_eq_true_eq, Bool.or_eq_true, Bool.not_eq_true'] at h
  obtain ⟨⟨⟨⟨⟨⟨⟨⟨⟨⟨h1, h2⟩, h3⟩, h4⟩, h5⟩, h6⟩, h7⟩, h8⟩, h9⟩, h10⟩, h11⟩ := h
  refine ⟨h1, h2, h3, h4, h5, h6, h7, fun u => ?_, fun u => ?_, fun u => ?_, h11⟩
  · rw [u] at h8; simpa [and_assoc] using h8
  · rw [u] at h9; simpa using h9
  · rw [u] at h10; simpa using h10

/-- Without a partition no seal is waited for. -/
theorem quiet_parts {s c w} (h : s.parts = []) : sealWaits (begun s c w) w.ctx = false := by
  have e : (begun s c w).parts = [] := h
  simp [sealWaits, State.part?, e, Sp.find]
theorem seals_of {i s c w} (h : may i s c w = true) (p : s.parts = []) : BeginsSealed i s c w :=
  ⟨begins_of h, fun _ => quiet_parts p⟩

/-- Does an outcome go on? -/
def goes : Host.Outcome State Fault Refusal → Bool
  | .next _ => true
  | _ => false

/-- A step from reset runs the instruction placed at its fetch: LEASE 5, and IADD of two registers that read 0. -/
theorem step_lease : (match step (State.reset.withFetchWord 64 0x0140001F9E0002A9) with
    | .next t => (t.wave? 0).map (·.lease) == some 5
    | _ => false) = true := by decide +kernel

/-! ### States that meet the hypotheses of the statements: instructions that begin -/

/-- Every instruction whose statement asks for no more than that it begins. -/
theorem begins_plain : (∀ f ∈ [Instr.iadd, .isub, .imul, .ineg, .iabs, .imin, .imax, .imulh, .imad, .imadw, .iaddw, .isubw,
      .band, .bor, .bxor, .bandn, .bnot, .shl, .shr, .sar, .shlw, .shrw true, .bfx, .bfi, .popc, .clz, .ctz, .brev, .permb,
      .icmp .lt, .sel false, .sel true, .mov false, .mov true, .lea 2], may (f alu) st cur wave = true) ∧
    (∀ f ∈ [Instr.fadd, .fsub, .fmul, .ffma, .fmin, .fmax, .fclass, .frnd, .badd2, .bmul2, .bfma2, .hfma2, .fcmp .lt, .frcp,
      .frsq, .fsqrt, .fexp2, .flog2, .fsin, .fcos, .fcvt .e4m3 .f32 true, .fcvtx .e4m3 3, .i2f .i32, .f2i .n8,
      .fcvtp .e4m3 true 1], may (f flt) st cur wave = true) ∧
    (∀ f ∈ [Instr.pand, .por, .pxor, .pnot, .pmov], may (f prd) st cur wave = true) := by decide +kernel
theorem begins_more : ∀ i ∈ [Instr.p2v .neutral 4, .v2p .neutral 4 7, .movi .neutral false 4 (.pair 1 2),
      .vote .neutral .any false 1 2, .vote .neutral .all true 4 2, .vote .neutral .ballot false 4 2,
      .shfl .neutral .up 4 6 (.imm 1), .bcast .neutral true 4 6 (.imm 3), .wred .neutral .add false true 4 6,
      .wscan .neutral .max true true 4 6, .shrink .neutral (.imm 16), .nop .neutral .l64, .yield .neutral 3,
      .pfc .neutral 4 2, .mark .neutral 9, .exit .neutral, .meet .neutral, .srd .neutral true true 4 0x12,
      .swr .neutral false 0x18 4, .swr .neutral true 0x40 4, .swr .neutral false 0x21 4, .swr .neutral false 0x24 4,
      .lease .neutral (.imm 5), .fence .neutral, .tleave .neutral, .bkpt .neutral 1, .trap .neutral 5] ++
    [Instr.ld .n32 mem, .ldl .n32 mem, .st .n32 mem, .stl .n64 mem, .cadd .add mem, .prf 3 mem, .atom .add false false atm,
      .cas atm, .crflush .neutral 2, .binit .neutral 4 0 (.imm 4), .barv ⟨.neutral, false, 4, 0, none⟩,
      .bdrop ⟨.neutral, false, 4, 0, none⟩, .btest .neutral 4 6 0, .cntadd .neutral 4 (.imm 1)],
    may i st cur wave = true := by decide +kernel
/-! ### Memory that is reached -/

/-- Did it succeed? -/
def okRes {α : Type} : Res α → Bool
  | .ok _ _ => true
  | _ => false
def okExc {ε α : Type} : Except ε α → Bool
  | .ok _ => true
  | .error _ => false

/-- A wave with a pair of scalar registers set. -/
def reg (w : Wave) (r : Nat) (p : Word64) : Wave := (wX r p false).foldl (fun w x => w.poke x) w

/-- Context 1 with all of a page, at tick 5: an address of it as a device pointer, with the bytes given at 0x1000. -/
def page : Ctx := { testCtx with flat := [{ gbase := 0, dbase := 0, len := 0x200000, perm := 7 }], conf := { testCtx.conf with privf := true, trampt := 0x4000000000001000, trampn := 4 } }
def child : Ctx := { testCtx with parent := some 1, state := .stopped }
def devPtr (a : Nat) : Word64 := BitVec.ofNat 64 (0x4000000000000000 + a)
def atHome (w : Wave) (x : Ctx) (bs : List Byte) : State :=
  { mk w x with ctxs := [(1, x), (2, child)], mem := Memory.writeN [] 0x1000 bs, clk := { tick := 5, cycle := 160 }, dev := { dieUp := 0xFF } }
/-- The wave with x4 at 0x1000, x8 at 0x1200, s10 the context 2. -/
def wave1 : Wave := (reg (reg wave 4 (devPtr 0x1000)) 8 (devPtr 0x1200)).poke (wS 10 2)
/-- The wave of a state with other paths, accesses or a wider one; a carve-out of two frames on core 0. -/
def carved (s : State) : State := { s with cores := [(0, { carve := [(1, [0, 1])] })] }
def wide : Wave := { wave with width := 8, budget := 32, runs := [(0, 4)], areas := [(0, 4096)] }
def parkedPath : Path := parkPath (wave.path 0) Code.TRAP 32 ⟨1, 1, .fault, 32, 40⟩
def stuck : Access := { id := 0, path := 0, pc := 24, base := 24, after := 32, instr := .ld .n32 mem, mask := 15,
                        lanes := [{ tid := 0, ptr := devPtr 0x1000 }] }
def busy : Wave := { wave with accs := [stuck], seq := 1 }
/-- A state with a second wave in slot 1. -/
def two (a b : Wave) : State := { mk a with waves := [(0, a), (1, b)] }
def waiting (pc : Word64) : FuseWait := { path := 0, dst := 5, sa := 0, n := 0, pc := pc, after := pc + 8, req := 0, deadline := 9 }

theorem meets_room (a : Access) : AccessRoom (begun st cur wave) cur wave a := by
  have h : armedAt (begun st cur wave) cur (opened (begun st cur wave) cur wave) = false := by decide +kernel
  refine ⟨fun _ => Nat.zero_lt_succ _, ?_, rfl, fun x => ?_⟩
  · cases h : a.instr <;> rfl
  · rw [h] at x; cases x

theorem meets_split : may (.split .neutral 3) (mk wide) cur wide = true ∧
    splitStatus (begun st cur wave) 0 (opened st cur wave) = (2, none) ∧
    splitStatus (begun (mk (wide.setPath 0 parkedPath)) cur (wide.setPath 0 parkedPath)) 0 (wide.setPath 0 parkedPath) = (4, none) ∧
    splitStatus (begun (mk wide) cur wide) 0 wide = (3, none) ∧
    (splitStatus (begun (carved (mk wide)) cur wide) 0 wide).2.isSome = true := by decide +kernel
theorem meets_fuse : may (.fuse .neutral 3 0 0) (mk busy) cur busy = true ∧ busy.unperformed = true ∧
    may (.fuse .neutral 3 0 0) (mk { wave with width := 64 }) cur { wave with width := 64 } = true ∧
    unfitBuddy (begun st cur wave) 1 = true ∧ may (.fuse .neutral 3 0 0) (two wave wave) cur wave = true ∧
    unfitBuddy (begun (two wave wave) cur wave) 1 = false ∧ wave.fuse = none ∧
    unfitBuddy (begun (two wave wide) cur wave) 1 = false ∧ wide.width ≠ wave.width ∧
    (∀ f ∈ [waiting 40, waiting 32], may (.fuse .neutral 3 0 0) (two wave { wave with fuse := some f }) cur wave = true ∧
      unfitBuddy (begun (two wave { wave with fuse := some f }) cur wave) 1 = false) ∧
    fuseStatus wave wave 0 0 0 = 0 ∧ fuseStatus wave { wave with budget := 128 } 0 0 0 = 4 := by decide +kernel
theorem meets_budgets : may (.grow .neutral (.imm 64)) st cur wave = true ∧
    may (.grow .neutral (.imm 64)) (carved (mk wide)) cur wide = true ∧ may (.shrink .neutral (.imm 8)) st cur wave = true ∧
    (match growWave (begun (carved (mk wide)) cur wide) 0 64 0xF with
     | .done _ => true
     | _ => false) = true := by decide +kernel

/-- A guard predicate p3 set in thread 0 alone. -/
def split3 : Wave := wave.poke (.p 3 0 ⟨true, false⟩)
def onlyP3 : Ctl := { Ctl.neutral with guard := 3 }
def crowded : Wave := { split3 with paths := split3.paths.take 1 ++ List.replicate 15 { e := { kind := .path, mask := 0 } } }
/-- A path at a join that another entry is linked to. -/
def joined (j : PKind) (st : PState) : Wave :=
  { wave with paths := [{ e := { kind := .path, pc := 32, mask := 3, link := 2 } },
    { e := { kind := .path, pc := 96, mask := 12, link := 2, state := st } },
    { e := { kind := j, pc := 64, mask := 15 } }] ++ List.replicate 13 {} }
theorem meets_branches : may (.bra .neutral false 1) st cur wave = true ∧ may (.bra onlyP3 false 1) (mk split3) cur split3 = true ∧
    actMask (.bra onlyP3 false 1) (mk split3) cur split3 = 1 ∧ 2 ≤ split3.freeCount ∧
    may (.bra onlyP3 false 1) (mk crowded) cur crowded = true ∧ crowded.freeCount < 2 ∧
    (∀ i ∈ [Instr.brx .neutral true 4, .ret .neutral true 4], may i (mk (reg wave 4 96)) cur (reg wave 4 96) = true ∧
      okExc (indirect (issOf i (mk (reg wave 4 96)) cur (reg wave 4 96)) (mk (reg wave 4 96)) true 4) = true) ∧
    okExc (indirect (issOf (.brx .neutral false 4) st cur wave) st false 4) = true := by decide +kernel
theorem meets_joins : may (.meet .neutral) (mk (joined .meet .ready)) cur (joined .meet .ready) = true ∧
    wave.joins 0 = false ∧ newestDefer wave.defer 0 false = none ∧ (joined .meet .ready).joins 0 = true ∧
    (joined .meet .atMeet).joins 0 = true ∧
    newestDefer [⟨12, 96, 0, false, false⟩] 0 false = some (0, ⟨12, 96, 0, false, false⟩) ∧
    newestDefer [⟨12, 96, 0, false, true⟩] 0 true = some (0, ⟨12, 96, 0, false, true⟩) ∧
    armedAt st cur wave = false ∧ (reg (joined .ret .atReturn) 4 64).joins 0 = true ∧
    may (.ret .neutral true 4) (mk (reg (joined .ret .atReturn) 4 64)) cur (reg (joined .ret .atReturn) 4 64) = true ∧
    (match indirect (issOf (.ret .neutral true 4) (mk (reg (joined .ret .atReturn) 4 64)) cur (reg (joined .ret .atReturn) 4 64))
        (mk (reg (joined .ret .atReturn) 4 64)) true 4 with
     | .ok gs => gs == [(3, 64)]
     | .error _ => false) = true := by decide +kernel
theorem meets_special : progBusy 0 = false ∧ progBusy (Sp.get 0 (st.core 0).mprog 1) = false := by decide +kernel
/-- A translation of the lowest part for context 1 on core 0, and a state in which the lowest part is readable code. -/
def entry0 : TlbEntry :=
  { ctx := 1, vpart := 0, part := 0, r := true, w := true, x := true, tc := 0, irrev := false, shared := false, perm := 7,
    streamed := true, target := .home, l1 := true }
def code (w : Wave) (bs : List Byte) : State :=
  { atHome w page bs with cores := [(0, { tlb := [entry0], carve := [(1, [0, 1])] })] }

theorem meets_calls : may (.call .neutral false 508) (code wave1 []) cur wave1 = true ∧
    okRes (headerBudgets (begun (code wave1 []) cur wave1) 0 wave1 0 15 [0x1000]) = true ∧
    okExc (relTarget (issOf (.call .neutral false 508) (code wave1 []) cur wave1) 508) = true ∧
    may (.callx .neutral true 4) (code (reg wave 4 0x1000) []) cur (reg wave 4 0x1000) = true ∧
    okExc (indirect (issOf (.callx .neutral true 4) (code wave []) cur (reg wave 4 0x1000)) (code wave []) true 4) = true := by
  decide +kernel
/-- The table of trampolines at 0x1000: entry 0 goes to 0x2000 and returns to 0x3000. -/
def tramps : State := code wave1 (leBytes (0x2000 + (0x3001 <<< 64)) 16)
def trampPage : Ctx := { page with conf := { page.conf with trampt := 0x1000 } }
theorem meets_tramps : (∀ i ∈ [Instr.tramp .neutral 0, .trampret .neutral 0], may i tramps cur wave1 = true) ∧
    0 < trampPage.conf.trampn ∧
    (match readOrdered (begun { tramps with ctxs := [(1, trampPage)] } cur wave1) 0 wave1 0 0x1000 16 pR with
     | .ok (bs, pz) _ => bs == leBytes (0x2000 + (0x3001 <<< 64)) 16 && !pz
     | _ => false) = true := by decide +kernel

/-- A range of 128 bytes at address 0x1000 with its partial area at 128. -/
def range : CRange := { base := 0x1000, len := 128, op := .add, poff := 128 }
def ranged : Ctx := { page with conf := { page.conf with lstatic := 0x10000 } }
theorem meets_ranges : may (.crange .neutral .add 2 3 4 128 128) (atHome (reg wave 4 0x1000) ranged []) cur (reg wave 4 0x1000) = true ∧
    srcX (reg wave 4 0x1000) 0 4 = (0x1000, false) ∧ rangeStatus ranged 2 range = 0 ∧
    okRes (combineRun (begun (atHome (reg wave 4 0x1000) ranged []) cur (reg wave 4 0x1000)) 1 2 0 0) = true ∧
    rangeStatus ranged 2 { range with base := devPtr 0 } = 1 ∧ rangeStatus ranged 2 { range with base := 0x1008 } = 1 ∧
    rangeStatus ranged 2 { range with len := 0x100080 } = 2 ∧ rangeStatus ranged 2 { range with poff := 0x10000 } = 3 ∧
    rangeStatus { ranged with cranges := [(1, { range with poff := 0x4000 })] } 2 range = 4 ∧
    rangeStatus { ranged with cranges := [(1, { range with base := 0x8000 })] } 2 range = 5 := by decide +kernel

/-- The worked example of R300: an arrival of 4 of 8, a drop of 4 that completes the phase, another phase, an overrun; and the
misuses of an object that is retired, of one with a reserved bit, of a count of 0 and of one above 4,095. -/
theorem test_barrier_example :
    let l (w : Nat) (n : Nat) (drop : Bool) (o : BitVec 128) : BitVec 128 := (arriveAt o n drop w 64 0).1.getD 0
    let f (n : Nat) (o : BitVec 128) : Option (Nat × Nat) := (arriveAt o n false 0xA250 64 0).2.map (fun x => (x.code, x.sub))
    l 0xA250 4 false 8 = 0x4008 ∧ l 0xA251 4 true 0x4008 = 0x1A251000001000004 ∧
    l 0xA250 4 false 0x1A251000001000004 = 0x2A250000002000004 ∧
    l 0xA250 5 false 0x2A250000002000004 = 0x2A250010002000004 ∧
    f 5 0x2A250000002000004 = some (Code.BAR_OVERRUN, 0) ∧ f 4 8 = none ∧ f 4 0 = some (Code.BAR_MISUSE, 2) ∧
    f 4 0x20000000008 = some (Code.BAR_MISUSE, 2) ∧ f 0 8 = some (Code.BAR_MISUSE, 3) ∧
    f 4096 8 = some (Code.BAR_MISUSE, 3) ∧
    l 0xA250 1 false 0x2A250010002000004 = 0x2A250010002001004 := by decide +kernel

/-- A WAITGE and a BWAIT on 0x1000, which holds 5 and phase 3. -/
def waitge (n : Nat) : Instr := .waitge .neutral 1 4 (.imm (BitVec.ofNat 32 n)) 100
def bwait (ph : BitVec 4) : Instr := .bwait .neutral 1 4 ph 0 0
def counter : State := atHome wave1 page (leBytes (5 + (3 <<< 24)) 16)
def poll (i : Instr) : Poll := { instr := i, id := 0, pc := 32, addr := devPtr 0x1000, mask := 15, deadline := 105 }
theorem meets_polls : (∀ i ∈ [waitge 4, waitge 0x7FFFFFFF, bwait 3, bwait 2], may i counter cur wave1 = true ∧
      (match pollLoad (begun counter cur wave1) 0 0 (poll i) with
       | .got bs _ u => leNat bs % 0x100000000 == 5 + (3 <<< 24) && (u.wave? 0).isSome && decide (u.clk.tick < 105)
       | _ => false) = true) ∧
    (addr wave1 0 true 4 0 0).2 = false ∧ armedAt counter cur wave1 = false := by decide +kernel

/-- The arenas of a core with room, and a team in them. -/
def teamed : State := { carved (mk wave1) with cores := [(0, { carve := [(1, [0, 1])], teams := [(0, { ctx := 1, base := 0, size := 128, members := [1] })] })] }
theorem meets_teams : (∀ i ∈ [Instr.tnew .neutral 4 (.imm 256), .tnew .neutral 4 (.imm 0x400001), .tjoin .neutral 3 6],
      may i (carved (mk wave)) cur wave = true) ∧
    (fitArena (begun (carved (mk wave)) cur wave) 0 1 256).isSome = true ∧ fitArena (begun st cur wave) 0 1 256 = none ∧
    may (.tnew .neutral 4 (.imm 1)) (mk { wave with team := some 3 }) cur { wave with team := some 3 } = true ∧
    ((List.range 64).find? fun i => (Sp.find ((List.range 64).map fun i => (i, ({ ctx := 1, base := 0, size := 0, members := [] } : Team))) i).isNone)
      = none ∧
    ((teamed.core 0).teams.find? fun t => t.2.ctx == 1 && arenaPtr t.2.base == 0x2000000000000000 && !t.2.members.isEmpty).isSome
      = true := by decide +kernel

/-- A launch record of one wave that enters at 0x1000. -/
def launch : List Byte := leBytes (0x1000 + (1 <<< 384) + (0xFF0000 <<< 448)) 64
def job (st : JobState) (n : Nat) : Job := { id := n, lr := launchRecOf launch, members := [launchRecOf launch], state := st }
def grid : LaunchRec := { launchRecOf launch with ctl := (launchRecOf launch).ctl ||| bitAt 49 }
theorem meets_launches : may (.launch .neutral 4) (atHome wave1 page launch) cur wave1 = true ∧
    okRes (readLaunch (begun (atHome wave1 page launch) cur wave1) (whoOf 0 wave1) (devPtr 0x1000)) = true ∧
    (enqueue (atHome wave1 page launch) 1 (launchRecOf launch)).isSome = true ∧
    may (.launch .neutral 4) (mk { busy with sregs := wave1.sregs }) cur { busy with sregs := wave1.sregs } = true ∧
    (opened (mk busy) cur busy).win.isSome = true := by decide +kernel
theorem meets_queues : (launchRecOf launch).waitOn = false ∧ (launchRecOf launch).count ≠ 0 ∧
    ({ launchRecOf launch with ctl := bitAt 46 } : LaunchRec).waitOn = true ∧ (grid.aggregate && grid.count == 1) = true ∧
    1024 ≤ ((List.replicate 1024 (job .waiting 1)).filter fun j => j.state == .waiting).length ∧
    512 ≤ queueLength { page with jobs := List.replicate 512 (job .queued 1) } 0 ∧ queueLength page 0 < 512 ∧
    page.jobs.find? (fun j => joins 0 j grid) = none ∧
    ([{ job .grid 1 with lr := grid, members := [grid] }].find? (fun j => joins 0 j grid)).isSome = true := by decide +kernel
/-- A request: GATHER of Loupe with its counter at 0x1200. -/
def request : List Byte := leBytes (0x101 + ((devPtr 0x1200).toNat <<< 64)) 64
def reqState : State := atHome wave1 page request
def team1 : Wave := { wave1 with team := some 0 }
def teamState : State := { atHome team1 page [] with cores := [(0, { teams := [(0, { ctx := 1, base := 0, size := 128, members := [0] })] })] }
def team2 : State := { atHome team1 page [] with cores := [(0, { teams := [(0, { ctx := 1, base := 0, size := 128, members := [0, 1] })] })] }
def give : Collective := { team := 0, op := 0, ptr := devPtr 0x1000, froms := [⟨0, 0, 0, 32, 40, false⟩] }
theorem meets_copies : (∀ i ∈ [Instr.copy .neutral 4, .copyr .neutral 4, .copym .neutral 4], may i (atHome wave1 page []) cur wave1 = true ∧
      may i teamState cur team1 = true) ∧ srcX wave1 0 4 = (devPtr 0x1000, false) ∧
    resumable (begun (atHome wave1 page []) cur wave1) (issOf (.copy .neutral 4) (atHome wave1 page []) cur wave1) 0 (devPtr 0x1000) = none ∧
    ((noteWrite (takeSeal (begun teamState cur team1) 1) 0 0).wave? 0).isSome = true ∧
    give.full [0] = true ∧ give.full [0, 1] = false ∧ starting (teamState.setColl give) 0 = false ∧
    (match teamState.team? 0, team2.team? 0 with
     | some a, some b => a.members == [0] && b.members == [0, 1]
     | _, _ => false) = true := by decide +kernel
/-- The record at 0x1000 that x4 names. -/
def recordOf (i : Instr) (bs : List Byte) (n : Nat) : Option State :=
  let s := atHome wave1 page bs
  let u := underSeal s cur wave1
  match pointerArg (issOf i s cur wave1) u 4 with
  | .ok p => (match loadRecord u (whoOf 0 (opened s cur wave1)) p n with
    | .ok (b, false) v => if b = bs ∧ ownStop (issOf i s cur wave1) u true false p (16 * n) = none then some v else none
    | _ => none)
  | .error _ => none
theorem meets_requests : may (.vqput .neutral true 3 4) reqState cur wave1 = true ∧
    (match recordOf (.vqput .neutral true 3 4) request 4 with
     | some u => (match clCheck (u.fresh).2 0 1 (devPtr 0x1200) 8 pRW with
       | .ok (_, v) => (v.wave? 0).isSome && ((takeSeal v 1).wave? 0).isSome && decide ((v.core 0).scope.length < 64)
       | .error _ => false)
     | none => false) = true ∧ fieldAt request 2 2 = 0 ∧ fieldAt request 0 1 = 1 ∧
    64 ≤ (List.replicate 64 ({ id := 0, ctx := 1, wave := 0, bytes := request } : Request)).length := by decide +kernel

/-- Tiles 0 (A, BF16), 1 (B, BF16), 2 (INT8), 3 (BPI, 8 steps), 4 (INT8, 8 steps), 5 (FP8 with scales), 6 (INT32 results)
and accumulator 0 of context 1. -/
def bf : Word32 := 0x1F1
def tiled (w : Wave) : State := { mk w with cores := [(0, { tc := [(0, bf), (1, bf), (2, 0x1F6), (3, 0x1F8 + 7 * 0x2000), (4, 0x1F6 + 7 * 0x2000), (5, 0x401F3), (6, 0x1F1)], owner := (List.range 7).map (fun t => (t, 1)) ++ [(16, 1)] })] }
/-- s20 = 16 columns, s21 = 4 planes, x4 the address 0x1000. -/
def cols : Wave := ((reg wave 4 0x1000).poke (wS 20 16)).poke (wS 21 4)
def mma (a b : BitVec 8) : Mma := ⟨.neutral, 0, a, b, 20, false, 21⟩
def drain : Drn := ⟨.neutral, 6, 0, 0, 20, false, true, false, false, false, 0⟩
theorem meets_tiles : (∀ i ∈ [Instr.tcfg .neutral 7 (.imm bf), .tcfg .neutral 0 (.imm 0), .tzero .neutral 0], may i (tiled wave) cur wave = true) ∧
    tcValid bf = true ∧ tcValid 0 = true ∧ (tiled wave).tileOwner 0 7 = none ∧ (tiled wave).tileOwner 0 0 = some 1 ∧
    tileBusy ((tiled wave).core 0) [] [7] none = false := by decide +kernel
theorem meets_tilemoves : (∀ st : Bool, may (if st then .tst .neutral 0 4 .data else .tld .neutral 0 4 .data) (tiled cols) cur cols = true ∧
      moveCheck bf 0 .data st 0x1000 48 = none) ∧ srcX cols 0 4 = (0x1000, false) := by decide +kernel
theorem meets_tilelines : (let s : State := { code cols [] with cores := [(0, { tlb := [entry0], tc := [(0, bf)], owner := [(0, 1)] })] }
    may (.tld .neutral 0 4 .data) s cur cols && may (.tst .neutral 0 4 .data) s cur cols &&
      okExc (checkLines (begun s cur cols) 0 1 pR (pieceLines (tilePieces bf .data 0x1000 48))) &&
      okExc (checkLines (begun s cur cols) 0 1 pW (pieceLines (tilePieces bf .data 0x1000 48)))) = true := by decide +kernel
theorem meets_array : (∀ y ∈ [(1, Instr.mmaF (mma 0 1), mma 0 1, 0), (2, .mmaX (mma 5 5), mma 5 5, 0), (3, .mmaI8 (mma 2 2), mma 2 2, 0),
      (4, .mmaBp (mma 4 3), mma 4 3, 4)], may y.2.1 (tiled cols) cur cols = true ∧
      mmaCheck (tiled cols) 0 1 y.1 0 y.2.2.1.a.toNat y.2.2.1.b.toNat 16 y.2.2.2 = none ∧
      mmaWaits (tiled cols) 0 1 0 y.2.2.1.a.toNat y.2.2.1.b.toNat 16 = false) ∧
    may (.tdrain drain) (tiled cols) cur cols = true ∧ drainCheck (tiled cols) 0 1 drain 16 = none ∧
    arrWaits (tiled cols) 0 1 0 ((tiled cols).core 0).tileOps = false ∧ may (.azero .neutral 1) (tiled cols) cur cols = true ∧
    may (.azeroRel .neutral 0) (tiled cols) cur cols = true ∧ (tiled cols).tileOwner 0 17 = none ∧
    (tiled cols).tileOwner 0 16 = some 1 := by decide +kernel
/-- The record of a child with units of core 0 and a ring of 16. -/
def childRec : List Byte :=
  leBytes (1 + (1 <<< 736) + (0x2000 <<< 768) + (16 <<< 832)) 160
/-- A grant of two pages at 0x200000 from 0 with R and W; a revocation of a page with its counter at 0x1200. -/
def grantRec : List Byte := leBytes (0x200000 + (0 <<< 64) + (0x200000 <<< 128) + (3 <<< 192)) 32
def revokeRec (lo : Nat) : List Byte := leBytes (lo + (0x200000 <<< 64) + ((devPtr 0x1200).toNat <<< 128)) 32
def wave2 : Wave := wave1.poke (wS 11 0x10001)
/-- A state with the bytes given at 0x1000, and context 2 in a state of its own. -/
def ctxs (st : CState) (bs : List Byte) : State :=
  { atHome wave2 page bs with ctxs := [(1, page), (2, { child with state := st })] }

theorem meets_ctxnew : may (.ctxnew .neutral 6 4) (atHome wave1 page childRec) cur wave1 = true ∧
    (match recordOf (.ctxnew .neutral 6 4) childRec 10 with
     | some v => (v.ctx? 1).isSome && newStatus v 1 page childRec (confOf childRec) == 0 && (confOf childRec).localfr == 0 &&
         ((makeCtx (takeSeal v 1) (freeId v) (some 1) (confOf childRec) none).wave? 0).isSome &&
         newStatus v 1 page (leBytes 0 160) (confOf (leBytes 0 160)) != 0
     | none => false) = true := by decide +kernel
theorem meets_ctxgrant : may (.ctxgrant .neutral 3 10 4) (atHome wave1 page grantRec) cur wave1 = true ∧
    (match recordOf (.ctxgrant .neutral 3 10 4) grantRec 2 with
     | some v => grantStatus v 1 2 ⟨0x200000, 0, 0x200000, 3⟩ == 0 && grantStatus v 1 2 ⟨0x1000, 0, 0x200000, 3⟩ == 5 &&
         !heldWalk v (reflatten v 2 [⟨0x200000, 0, 0x200000, 3⟩])
     | none => false) = true ∧
    (match targetArg (issOf (.ctxgrant .neutral 3 10 4) (atHome wave1 page []) cur wave1) (begun (atHome wave1 page []) cur wave1) 10 true with
     | .ok t => t == (2, false)
     | .error _ => false) = true ∧ fieldAt grantRec 24 4 < 8 ∧ fieldAt grantRec 28 4 = 0 := by decide +kernel
theorem meets_ctxrevoke : may (.ctxrevoke .neutral 3 10 4) (atHome wave1 page (revokeRec 0)) cur wave1 = true ∧
    (∀ lo ∈ [0, 0x1000], (match recordOf (.ctxrevoke .neutral 3 10 4) (revokeRec lo) 2 with
     | some v => okExc (clCheck v 0 1 (devPtr 0x1200) 8 pRW) && !heldWalk v (reflatten v 2 [])
     | none => false) = true) ∧ fieldAt (revokeRec 0) 24 4 = 0 ∧ fieldAt (revokeRec 0) 28 4 = 0 ∧ 0x1000 % page2M ≠ 0 ∧
    64 < (List.replicate 65 (⟨0, 0, 0x200000, 3⟩ : Decl)).length := by decide +kernel
theorem meets_ctxrun : (∀ st ∈ [CState.stopped, .running, .preempted], ∀ i ∈ [Instr.ctxrun .neutral 3 10, .ctxstop .neutral 3 10 8,
      .ctxkill .neutral 3 10 8, .qosset .neutral 3 10 11], may i (ctxs st []) cur wave2 = true ∧
      okExc (targetArg (issOf i (ctxs st []) cur wave2) (underSeal (ctxs st []) cur wave2) 10 false) = true ∧
      okExc (counterArg (issOf i (ctxs st []) cur wave2) (underSeal (ctxs st []) cur wave2) 8) = true ∧
      scalarArg (issOf i (ctxs st []) cur wave2) (underSeal (ctxs st []) cur wave2) 11 = (0x10001, false)) ∧
    child.stops = [] ∧ qosStatus (ctxs .stopped []) 2 0x10001 1 1 = 0 ∧ qosStatus (ctxs .stopped []) 2 1 1 0 = 2 ∧
    ((killTree (takeSeal (ctxs .stopped []) 1) 2 1 (devPtr 0x1200)).wave? 0).isSome = true ∧
    ((setBucket (takeSeal (ctxs .stopped []) 1) 2 1 1).wave? 0).isSome = true := by decide +kernel
theorem meets_tlbinv : (∀ i ∈ [Instr.tlbinvPage .neutral 12 8 3, .tlbinvCtx .neutral 8, .tlbinvChild .neutral 10 8],
      may i (ctxs .stopped []) cur wave2 = true) ∧
    okExc (pointerArg (issOf (.tlbinvPage .neutral 12 8 3) (ctxs .stopped []) cur wave2) (ctxs .stopped []) 12) = true ∧
    spaceOf (0 : Word64) = 0 ∧ ((code wave []).cores.Pairwise fun x y => x.1 < y.1) := by decide +kernel

/-- Items that a debugger reads and writes: 0x03 TRAP, 0x05 OBS, 0x30 MEM, 0x31 LOCAL. -/
def peekable : State := { ctxs .stopped (leBytes 0 64) with cores := [(0, { carve := [(1, [0]), (2, [1])], tlb := [{ entry0 with ctx := 2 }] })] }
theorem meets_peeks : (∀ i ∈ [Instr.ctxpeek .neutral 3 10 4 3 0, .ctxpoke .neutral 3 10 4 3 0], may i peekable cur wave2 = true ∧
      okExc (pointerArg (issOf i peekable cur wave2) (begun peekable cur wave2) 4) = true) ∧
    checkPtr (devPtr 0x1000) 16 .globalDev = none ∧ itemStatus peekable 2 3 1 false = 2 ∧ itemStatus peekable 2 3 0 false = 0 ∧
    itemStatus peekable 2 8 0 true = 2 ∧ itemKeyed 3 = false ∧ itemKeyed 0x30 = true ∧
    okRes (bufRead (begun peekable cur wave2) (whoOf 0 wave2) (runsOf (devPtr 0x1000) 8)) = true ∧
    okExc (peekItem peekable 0 2 3 0 0) = true ∧
    okRes (bufWrite (takeSeal peekable 1) (whoOf 0 wave2) (leBytes 0 16) (runsOf (devPtr 0x1000) 16)) = true ∧
    okExc (memCheck peekable 0 2 pR (runsOf 0x40 16)) = true ∧ okRes (memRead peekable 0 2 (runsOf 0x40 16)) = true ∧
    localFault peekable 0 2 0x40 16 = none ∧ pokeSize peekable 2 3 0 ≠ 0 ∧ okExc (pokeItem peekable 2 3 0 (leBytes 0 16)) = true ∧
    okExc (pokeItem peekable 2 3 0 (leBytes 1 16)) = false ∧ obsOk (leBytes 1 32) = false ∧
    obsOk (leBytes ((1024 <<< 128) + (0x0808 <<< 160)) 32) = true ∧
    okExc (memCheck peekable 0 2 pW (runsOf 0x40 16)) = true ∧
    okRes (memWrite (takeSeal peekable 1) 0 2 (leBytes 7 16) (runsOf 0x40 16)) = true ∧
    (match obsHeader (setObs (takeSeal peekable 1) 2 (some 1) (leBytes ((1024 <<< 128) + (0x0808 <<< 160)) 32)) 2 0 true 0 8 with
     | .ok _ x => okRes (alongside (takeSeal peekable 1) x fun s => obsHeader s 2 0 false 0 8)
     | _ => false) = true := by decide +kernel

/-- The wave 0 of a state after a step. -/
def after (e : Instr) (s : State) : Option Wave :=
  match exec e s with
  | .next t => t.wave? 0
  | _ => none
def localLoad : Access := { stuck with instr := .ldl .n32 mem, lanes := [{ tid := 0, ptr := 0x2000000000000040 }] }
def loading : State := carved (mk { wave with accs := [localLoad], seq := 1 })
def arriving : Wave := { wave with pend := [⟨3, [.v 4 1 ⟨7, false⟩, .s 5 ⟨8, false⟩], 1⟩] }
theorem meets_performed : (match loading.wave? 0 with
    | some w => (match performOldest loading 0 localLoad with
      | (u, b) => b && (w.accs.find? fun b => b.id == 0) == some localLoad && !localLoad.early &&
          (w.accs.find? fun b => !b.early).map (·.id) == some 0 && (u.wave? 0).map (·.win.isNone) == some true && u.sch.hits.isEmpty)
    | none => false) = true ∧ (after (.accessPerformed 0 0) loading).map (·.accs.isEmpty) = some true := by decide +kernel
theorem meets_result : arriving.raced = [] ∧ arriving.win = none ∧ (after (.resultWritten 0 3) (mk arriving)).map (fun w =>
    (w.v 4 1, w.s 5, w.fstat, w.pend.isEmpty)) = some (⟨7, false⟩, ⟨8, false⟩, 1, true) := by decide +kernel

/-- Wave 0 with path 0 as given. -/
def pathed (f : Path → Path) : Wave := wave.setPath 0 (f (wave.path 0))
def fetching : Wave := pathed fun p => { p with e := { p.e with pc := 0x1000 }, fetch := [], fetching := some (0x1000, 0) }
def late : State := { mk wave with clk := { tick := 4096, cycle := 131072 } }
theorem meets_ends : drained st 0 ({ wave with paths := [] } : Wave) = true ∧ (wave.path 0).urgentAt = none ∧
    16 ≤ (({ wave with paths := [{ eligible := 16 }] } : Wave).path 0).eligible ∧ (wave.path 0).yieldTo ≤ st.clk.cycle ∧
    after (.waveFree 0) (mk { wave with paths := [] }) = none ∧
    (after (.pathUrgent 0 0) (mk (pathed fun p => { p with eligible := 16 }))).map (fun w => (w.path 0).urgentAt) = some (some 0) := by
  decide +kernel
theorem meets_fetch : checkPtr (BitVec.ofNat 64 0x1000) 32 .global = none ∧ blockOf (0x1000 : Word64) = 0x1000 ∧
    (match translate (code fetching []) 0 1 0x1000 pX with
     | .ok (x, u) => (match combineFirst u x.dev with
       | .ok () v => (match readAt v (whoOf 0 fetching) x with
         | .ok _ z => z.sch.hits.isEmpty && (z.wave? 0).isSome
         | _ => false)
       | _ => false)
     | .error _ => false) = true ∧
    (after (.fetchBlockArrival 0 0 0x1000) (code fetching (leBytes 0x123 32))).map (fun w => (w.path 0).block 0x1000)
      = some (some (leBytes 0x123 32)) := by decide +kernel

/-- A BLOCKED wave that grows to 64 registers, two that must spill, one that is SPILLED. -/
def blocked : Wave := { wide with state := .blocked, growTo := some 64 }
def full (w : Wave) : Wave := { w with runs := [(0, 256)] }
def spills : State := two { full blocked with age := 1 } { full blocked with age := 0, runs := [(256, 256)] }
def spilled : Wave := { wide with state := .spilled, left := .parked }
theorem meets_grow : blocked.target = 64 ∧ growNeed blocked 64 ≤ freeUnits (carved (mk blocked)) 0 ∧
    (blockedOf (carved (mk blocked)) 0).all (fun x => x.1 == 0 || !olderWave x (0, blocked)) = true ∧
    (after (.growGrant 0) (carved (mk blocked))).map (fun w => (w.budget, w.state)) = some (64, .running) := by decide +kernel
theorem meets_spill : mustSpill spills 0 = some (0, { full blocked with age := 1 }) ∧
    (after (.spill 0) spills).map (·.state) = some .spilled ∧ blockedOf (carved (mk spilled)) 0 = [] ∧
    unitsFor spilled.runWidth spilled.target * spilled.runs.length ≤ freeUnits (carved (mk spilled)) 0 ∧
    (after (.restore 0) (carved (mk spilled))).map (·.state) = some .parked := by decide +kernel
theorem meets_timeout : unfitBuddy { st with ctxs := [] } (buddyOf 0) = true ∧ (waiting 32).deadline ≤ late.clk.tick ∧
    (∀ s ∈ [mk { wave with fuse := some (waiting 32) }, { late with waves := [(0, { wave with fuse := some (waiting 32) }), (1, wave)] }],
      ((after (.fuseTimeout 0 0) s).map fun w => w.fuse.isNone) = some true) ∧
    unfitBuddy { late with waves := [(0, wave), (1, wave)] } 1 = false := by decide +kernel
theorem meets_recheck : (let w := wave1.setPath 0 { wave1.path 0 with poll := some (poll (bwait 2)) }
    let s := atHome w page (leBytes (5 + (3 <<< 24)) 16)
    match pollLoad s 0 0 (poll (bwait 2)) with
    | .got bs _ u => pollMet (poll (bwait 2)) bs && u.sch.hits.isEmpty && (u.wave? 0).map (·.raced.isEmpty) == some true &&
        (after (.pollRecheck 0 0) s).map (fun w => (w.p 1 0).val) == some true
    | _ => false) = true ∧ (∀ k ∈ st.cores, k.2.arrayQ = []) ∧ st.copies = [] ∧
    [(3, Instr.ptsTick)].find? (fun x : Nat × Instr => x.1 == 3) = some (3, .ptsTick) := by decide +kernel

/-! ### Steps of coherence -/

/-- Core 0 with a primary of part 1 in frame 3 of generation 2, its line 512 in a state of its own. -/
def primary (st : LState) (valid : Bool) : State :=
  { atHome wave1 page [] with
    frames := [(3, { kind := .primary, gen := 2, ctx := 1, part := 1, touch := 1 })]
    lines := [(3 * 512, { state := st, valid := valid, wts := 1, rts := 2 })]
    dies := [(0, { atlas := [{ part := 1, pcore := 0, pframe := 3, pgen := 2 }] })]
    homes := { dir := [(512, { state := if st == .s then .shared else .excl, sharers := if st == .s then 1 else 0 })] }
    cores := [(0, { tlb := [{ entry0 with vpart := 1, part := 1, streamed := false, target := .frame 0 3 2 }] })] }
def fresh : State := { atHome wave1 { page with conf := { page.conf with dieq := 4 } } [] with
  cores := [(0, { tlb := [{ entry0 with vpart := 1, part := 1, streamed := false, target := .none }] })] }
theorem meets_pins : (let s := { st with pins := { holder := none, queue := [0] } }
    wave.state = .running ∧ s.pins.holder = none ∧ goes (exec (.pinGrant 0) s) = true) ∧
    (let w := { wave with pinReq := some 7 }
     (after (.pinGrantTimeout 0 7) { mk w with pins := { queue := [0] } }).map (·.count) = some 1) ∧
    ({ holder := some 0, since := 0 } : Pins).since + 4096 ≤ late.clk.tick ∧
    ({ page with bucket := some (2, 3) } : Ctx).bucket = some (2, 3) := by decide +kernel
theorem meets_frames : ((carved st).frame (frameKey 0 5)).kind = .free ∧
    (({ st with frames := [(5, { kind := .forward, gen := 1 })] } : State).frame (frameKey 0 5)).kind = .forward ∧
    (findTlb fresh 0 1 1).isSome = true ∧ fresh.atlas 0 1 = none ∧ quotaDie fresh 1 ≠ 0 ∧
    okRes (locate fresh 0 1 1 false) = true ∧ okRes (fill fresh 0 1 1) = true ∧ heldPart (primary .e true) 0 1 = false ∧
    replicaFrame { primary .e true with frames := [(4, { kind := .replica, part := 1 })] } 0 1 = some 4 ∧
    arrive (primary .e true) 0 3 2 = some (0, 3, 2) := by decide +kernel
/-- Page tables at 0x2000, 0x4000 and 0x8000 that map the lowest page. -/
def mapped (x : Ctx) : State :=
  { mk wave1 { x with conf := { x.conf with troot := 0x2000 } } with
    mem := Memory.writeN (Memory.writeN (Memory.writeN [] 0x2000 (leBytes 0x4001 8)) 0x4000 (leBytes 0x8001 8)) 0x8000
      (leBytes (0xF + (1 <<< 64)) 16)
    dev := { dieUp := 0xFF }
    clk := { tick := 5, cycle := 160 } }
theorem meets_walks : versionOf st 1 ≠ 5 ∧
    okExc (walk ((mapped page).updCtx 1 fun x => { x with hold := false }) 1 0 0) = true := by decide +kernel
/-- A range of two lines with a contributor: both are combined at once, the sum standing at home (R97). -/
theorem step_combine : (let s : State := { mapped { ranged with cranges := [(2, { range with len := 256 })] } with
      cores := [(0, { tlb := [entry0], carve := [(1, [0, 1])], contrib := [(1, 2)] })] }
    match exec (.crange .neutral .add 2 3 6 0 128) (setPartial s 0 1 range 33 7) with
    | .next t => leNat (Memory.readN t.mem (0x1000 + 4 * 33) 4) == 7 && (t.core 0).contrib.isEmpty && sAt t 0 3 == ⟨0, false⟩
    | _ => false) = true := by decide +kernel
theorem meets_homes : primaryLine (primary .i false) 0 512 = some (3, { state := .i, valid := false, wts := 1, rts := 2 }) ∧
    okRes (homeReadOp { primary .i false with homes := {} } 512 0) = true ∧
    okRes (homeRfoOp { primary .i false with homes := {} } 512 0) = true ∧
    primaryLine (primary .s true) 0 512 = some (3, { state := .s, valid := true, wts := 1, rts := 2 }) ∧
    okRes (homeRfoOp (primary .s true) 512 0) = true ∧ (dieLine (primary .m true) 0 512).map (·.2.state) = some .m ∧
    (dieLine (primary .e true) 0 512).map (·.2.state) = some .e ∧ okRes (recallFrom (primary .m true) 512 0) = true ∧
    okRes (registerHolder st 1 0) = true ∧ okRes (backInvalidate (primary .e true) 0 1) = true ∧
    okRes (combineAt (logRoom st 1) 1 2 0) = true := by decide +kernel
/-- An engine's write to a line that no frame holds yet goes on at once (R77, log 44). -/
theorem write_near : (match translate fresh 0 1 0x10000 pW with
    | .ok (x, s) => (match agentWrite s 0 1 x [(x.dev, [7])] with
      | .ok () u => (curBytes u 0x10000 1) == [7] && (u.atlas 0 1).isSome
      | _ => false)
    | .error _ => false) = true := by decide +kernel

/-! ### Steps of launches, copies, engines, rings -/

/-- Context 1 with one of its launches in a state, with a ring at 0x8000, with observation buffers. -/
def ready (j : Job) (bs : List Byte) : State := { code wave1 bs with ctxs := [(1, { page with jobs := [j] })], waves := [] }
def waiter : Job := { job .waiting 4 with lr := { launchRecOf launch with waitCnt := devPtr 0x1000, waitTgt := 5, ctl := bitAt 46 } }
theorem meets_waits : (match clCheck (ready waiter (leBytes 5 8)) (launchCore (ready waiter []) 1) 1 (devPtr 0x1000) 8 pR with
    | .ok (d, t) => (match combineFirst t d with
      | .ok () v => (match clRead v d 8 with
        | .ok (b, z) _ => leNat b == 5 && !z
        | _ => false)
      | _ => false)
    | .error _ => false) = true ∧ (ready waiter []).job? 1 4 = some waiter ∧ waiter.lr.waitTgt.toNat ≤ 5 ∧
    (let j := { job .placed 4 with dues := [{ cnt := devPtr 0x1000, incr := 1 }] }
     okRes (bump (ready j []) (launchCore (ready j []) 1) 1 (devPtr 0x1000) 1)) = true := by decide +kernel
theorem meets_places : (match pickPlace (noteHeads (ready (job .queued 4) []) 1) 1 with
    | some (_, _, k, _) => (rivalTurn (noteHeads (ready (job .queued 4) []) 1) 1 k).isNone &&
        (match exec (.dispatchPlacement 1) (ready (job .queued 4) []) with
          | .next t => (t.core k).turn == 1 && t.waves.length == 1
          | _ => false)
    | none => false) = true ∧ headOf { page with jobs := [{ job .queued 4 with headAt := some 0 }] } 0
      = some { job .queued 4 with headAt := some 0 } ∧ 0 + 4096 * (0 + 1) ≤ late.clk.tick ∧
    ({ job .grid 4 with arrived := 0 } : Job).arrived + 256 ≤ late.clk.cycle := by decide +kernel

/-- A tensor shape of one element of 4 bytes from 0x1000 to 0x1200, and a copy with its record at 0x1100. -/
def copying (f : Copy → Copy) : Copy := f { id := 7, op := 0, core := 0, ctx := 1, owner := 0, path := 0, seq := 0, team := none,
                                            pc := 32, after := 40, ptr := devPtr 0x1100 }
def shape1 : TShape := { base := devPtr 0x1000, dense := devPtr 0x1200, cnt := devPtr 0x1300, incr := 1, ctl := 0x12, ext := [1, 0, 0, 0],
                         str := [0, 0, 0, 0], pad := 0, follow := 0 }
def copies (c : Copy) (b : Nat) : State := { atHome wave1 page (leBytes 0 256 ++ leBytes b 64) with copies := [c] }
def shapeBytes : Nat := (devPtr 0x1000).toNat + ((devPtr 0x1200).toNat <<< 64) + ((devPtr 0x1300).toNat <<< 128) + (1 <<< 192)
theorem meets_copysteps : (match readShape (copies (copying id) shapeBytes) (copying id) with
    | .ok h u => h.dense == devPtr 0x1200 && ((shapeCheck u (copying id) { h with ext := [0, 1, 1, 1] }).isSome || h.empty)
    | _ => false) = true ∧ ctxRuns (copies (copying id) 0) 1 = true ∧
    (let c := copying fun c => { c with started := true, shape := some { shape1 with base := 1 } }
     match moveLine (copies c 0) c { shape1 with base := 1 } with
      | .fail f => (match parkOwner (copies c 0) c (.copy 7) { code := Code.ALIGN } with
        | .parked _ => f.code != 0
        | _ => false)
      | _ => false) = true := by decide +kernel

/-- Requests of core 0: GATHER of two elements of 4 bytes, begun. -/
def gather (d : Nat) (st : State) : State := { st with cores := [(0, { scope := [{ id := 3, ctx := 1, wave := 0, done := d, begun := true, bytes := leBytes (0x101 + ((devPtr 0x1200).toNat <<< 64) + ((devPtr 0x1000).toNat <<< 256) + (2 <<< 384) + (4 <<< 416)) 64 }] })] }
theorem meets_engines : (match (gather 0 reqState).request? 0 3 with
    | some r => r.begun && !r.ended && decide (r.done < r.count) && ctxRuns (gather 0 reqState) r.ctx &&
        okRes (gatherStep (logRoom ((gather 0 reqState).setRequest 0 { r with begun := true }) r.ctx) 0 { r with begun := true }) &&
        (match writeCrec (logRoom (gather 0 reqState) 1) 0 r with
          | .ok () u => okRes (bump (u.setRequest 0 { r with noted := true }) 0 r.ctx r.cnt r.incr)
          | _ => false)
    | none => false) = true ∧ (match (gather 2 reqState).request? 0 3 with
    | some r => decide (r.count ≤ r.done)
    | none => false) = true ∧
    (arrHead { mk wave with cores := [(0, { arrayQ := [{ id := 1, ctx := 1, wave := 0, seq := 0, acc := 0, kind := .azero, done := 1 }] })] } 0).isSome
      = true := by decide +kernel

/-- A state whose context 1 has a ring and buffers at home. -/
def observed : Ctx := { page with conf := { page.conf with ring := devPtr 0x1000 }, obsT := devPtr 0x1400, obsTlog := 10,
                                  obsS := devPtr 0x1800, obsSlog := 10, obsPer := 4, obsCtl := 3 }
def ringed : State := { atHome wave1 { observed with ring := { out := [⟨none, 4, 0, none, 0, none, false, false, false, false, 0, false⟩] } } [] with
  cores := [(0, { traceQ := [⟨1, 2, 3⟩] })]
}
/-- The same context as a child, which its parent observes. -/
def watched : State := { ringed with
  cores := [(0, { traceQ := [⟨2, 2, 3⟩] })]
  waves := [(0, { wave1 with ctx := 2 })]
  ctxs := [(1, page), (2, { observed with parent := some 1 })] }
theorem meets_rings : (match writeHeader ringed 1 with
    | .ok () u => (match writeVoids u 1 4096 with
      | .ok () v => (match writeLost v 1 with
        | .ok () w => (match writeHeld w 1 1 with
          | .ok false z => (ringOf z 1).held.isEmpty
          | _ => false)
        | _ => false)
      | _ => false)
    | _ => false) = true ∧ (ringed.outst? 1 4).isSome = true := by decide +kernel
/-- A sample of context 2. -/
def sample2 : Sample := ⟨2, 32, 15, 5, 0, 0, 3⟩
/-- The trace record has gone to the buffer: TAIL counts it, its first word stands in place 0 (R213). -/
theorem step_trace : (match exec (.traceRecordWrite 0) watched with
    | .next t => (t.core 0).traceQ.isEmpty && leNat (Memory.readN t.mem 0x1400 8) == 1 && leNat (Memory.readN t.mem 0x1440 8) == 2
    | _ => false) = true := by decide +kernel
/-- A held record goes to its ring: the record stands at its place, TAIL counts it (R195). -/
theorem step_ring : (let r : Ring := { made := true, held := [{ code := 6, sub := 1, serial := 4, wave := 0, path := 0, ctx := 1 }] }
    match exec (.ringRecordWrite 1) { ringed with ctxs := [(1, { observed with ring := r })] } with
    | .next t => (ringOf t 1).held.isEmpty && leNat (Memory.readN t.mem 0x1000 8) == 1 && leNat (Memory.readN t.mem 0x1040 2) == 0x106
    | _ => false) = true := by decide +kernel
theorem meets_observes : (match flushLost watched 0 2 observed with
    | .ok () u => okRes (alongside watched u fun s => obsRecord s 2 0 observed.obsT 10 16 (leBytes 2 8 ++ leBytes 3 8))
    | _ => false) = true ∧ bit observed.obsCtl 1 = true ∧ bit observed.obsCtl 0 = true ∧
    okRes (obsRecord (watched.setCore 0 { watched.core 0 with sampleQ := [sample2] }) 2 0 observed.obsS 10 32 (sampleBytes sample2))
      = true := by decide +kernel

/-! ### Steps of homes, host, partitions and power -/

def hosted : State := { st with dev := { dieUp := 0xFF, hostUp := true, hdm := [(0, 0x10000)], present := [9], power := true }, clk := { tick := 5, cycle := 160 } }
theorem meets_recovery : (hosted.die 0).down = false ∧ hosted.dev.dieUp.getLsbD 0 = true ∧
    ({ hosted with dies := [(0, { down := true })] } : State).die 0 = { down := true } ∧
    Sp.find [(3, [4, 5])] 3 = some [4, 5] ∧ kindOf 0x400000 = 0 ∧ 0x400000 % 0x200000 = 0 ∧ 0x400000 / 0x200000 ≠ 1 ∧
    installed hosted 0x400000 = true ∧ extentFree hosted 0x400000 = true ∧
    (let w : Dual := { page := 1, base := 0x400000 }
     let s := { hosted with homes := { dual := [w] } }
     s.homes.dual.find? (fun w => w.page == 1 && !w.switched) = some w ∧
       (s.ctxs.any fun c => decide (64 < (movedFlat (1 * 0x200000) 0x200000 w.base c.2).length)) = false ∧
       okRes (movePage s w) = true) ∧ 9 ∈ hosted.dev.present := by decide +kernel
theorem meets_host : inWindow hosted 0x1000 16 = true ∧ okRes (hostRead hosted 0x1000 16) = true ∧
    okRes (hostWrite hosted 0x1000 (leBytes 5 16)) = true ∧ inWindow hosted (32 * 128) 128 = true ∧
    okRes (ownDev hosted 32 hosted.dev.hostId) = true ∧ inWindow hosted 0x20000 16 = false ∧
    (let l := (63 * 0x4000000000000 + 0x1000000000000) / 128
     hostLine hosted l = true ∧ okRes (clRead hosted (l * 128) 128) = true ∧ okRes (recallAll hosted l) = true) ∧
    (Sp.get {} hosted.dev.ports 3).down = false ∧ ({ retries := 8 } : Port).retries = 8 := by decide +kernel

/-- Context 1 with a partition of its own, in a state. -/
def root (x : CState) (q : Partition) : State :=
  { hosted with waves := [], ctxs := [(1, { page with state := x })], parts := [(1, q)] }
def part1 : Partition := { period := 1000, logMax := 100, borrow := [3] }
theorem meets_slices : (root .running part1).part? 1 = some part1 ∧ part1.ended = false ∧
    (rollPart (root .running part1) 1 (.sliceEnd 1)).2 = true ∧ (settleSnap (root .preempted part1) 1 part1.snap.waveCores part1.snap).isSome = true ∧
    goes (exec (.sliceEnd 1) (root .running part1)) = true ∧ goes (exec (.sliceStart 1) (root .preempted part1)) = true := by decide +kernel
def lender : State :=
  { root .running part1 with
    ctxs := [(1, { page with conf := { page.conf with units := 3, margin := 2 } }), (3, { page with conf := { page.conf with units := 4 } })]
    parts := [(1, part1), (3, { part1 with lent := [(2, 1)] })], clk := { tick := 5000 } }
theorem meets_units : canLend lender 1 1 3 = true ∧ (lender.parts.find? fun p => p.2.lent.any fun l => l.1 == 2).isSome = true ∧
    (lender.parts.find? fun p => (unitsOf lender p.1).getLsbD 1).isSome = true ∧
    holderOf (st.setCore 9 { st.core 9 with draining := true }) 9 = none ∧ (st.core 9).draining = false ∧
    (st.core 9).bankOn = true ∧ holderOf st 9 = none ∧ st.parts = [] ∧ ({ bankOn := false } : Core).bankOn = false := by decide +kernel
/-- The record of a root with units of core 0. -/
def rootCfg : RootCfg := { id := 5, conf := leBytes (1 + (1 <<< 736) + (0x2000 <<< 768) + (16 <<< 832)) 160, ranges := [⟨0, 0x200000, 0, 7⟩],
                           entry := 0, period := 1000, logMax := 0x10000, borrow := [],
                           area := (0x400000, 0x400000) }
theorem meets_config : rootOk { hosted with ctxs := [], waves := [] } rootCfg (confOf rootCfg.conf) = true ∧
    (confOf rootCfg.conf).localfr = 0 := by decide +kernel
theorem meets_completions : (let s := { hosted with ctxs := [(1, { page with stops := [(devPtr 0x1000, 1)], kills := [(7, devPtr 0x1000)] })] }
    (s.waves.any fun w => inSubtree s 1 w.2.ctx && (w.2.unperformed || !w.2.pend.isEmpty)) = false ∧
      okRes (bump (logRoom s 1) (launchCore s 1) 1 (devPtr 0x1000) 1) = true ∧
      s.ctxs.findSome? (fun (y : Nat × Ctx) => (y.2.kills.find? (fun k => k.1 == 7)).map (fun k => (y.1, k.2))) = some (1, devPtr 0x1000)) := by
  decide +kernel
theorem meets_power : firstImage 0 [(false, 9)] = none ∧ (firstImage 0 [(true, 3)]).isSome = true ∧
    (endSlices hosted (.orderlyPowerOff []) (hosted.parts.length + 1)).2 = true ∧ (preservePages [] (evictAll hosted (List.range 4096))).2.isNone = true ∧ State.reset.dev.power = false ∧
    0x100 / 128 * 128 < localSize (carved st) 0 1 ∧ 0x100 / 128 * 128 < lstaticOf { st with ctxs := [(1, ranged)] } 1 := by decide +kernel

/-! ### Faults, traps, frames, a whole step -/

theorem meets_issuing : Issuing st cur wave testCtx := ⟨rfl, rfl, rfl, rfl, by decide, .inl rfl, rfl, by decide⟩
/-- Path 1 is the handler of path 0, which is parked at its TRAP. -/
def handled : Wave :=
  { wave with paths := { parkPath (wave.path 0) Code.TRAP 32 ⟨1, 7, .fault, 32, 40⟩ with e := { kind := .path, state := .trapped, pc := 32, mask := 15 } } ::
      { e := { kind := .path, state := .handler, pc := 96, mask := 15 }, serves := some (0, 7) } :: List.replicate 14 {} }
def inHandler : State := { mk handled with sch := { cur := some ⟨0, 1, 96, 96, 8, false⟩ } }
theorem meets_traps : (∀ i ∈ [Instr.trap .neutral 5, .bkpt .neutral 1, .tretSkip .neutral, .tretRetry .neutral],
      may i st cur wave = true) ∧ wave.win = none ∧ (wave.path 0).noMatch = false ∧ (wave.path 0).serves = none ∧
    actMask (.trap onlyP3 5) st cur wave = 0 ∧ leastBudget (.trap onlyP3 5) cur wave ≤ wave.budget ∧
    (let w : Wave := { wave with paths := { wave.path 0 with noMatch := true } :: List.replicate 15 {} }
     may (.bkpt .neutral 1) (mk w) cur w = true ∧ armedAt (mk w) cur w = false) ∧
    (∀ i ∈ [Instr.tretSkip .neutral, .tretRetry .neutral], may i inHandler ⟨0, 1, 96, 96, 8, false⟩ handled = true) ∧
    armedAt inHandler ⟨0, 1, 96, 96, 8, false⟩ handled = false ∧ (handled.path 0).e.mask = (handled.path 1).e.mask ∧
    ((handled.path 0).park.map fun z => z.kind) = some .fault := by decide +kernel
/-- TRAP 5 and TRET.skip, one step each (R268, R270). -/
theorem step_trap : (match exec (.trap .neutral 5) st with
    | .next t => (pathAt t 0 0).e.state == .trapped && (match (pathAt t 0 0).park with
      | some z => z.pc == 32 && z.after == 40
      | none => false)
    | _ => false) = true := by decide +kernel
theorem step_tret : (match exec (.tretSkip .neutral) inHandler with
    | .next t => (pathAt t 0 0).e == { kind := .path, pc := 40, mask := 15 } && (pathAt t 0 1).e.kind == .free
    | _ => false) = true := by decide +kernel

/-- An execute breakpoint at address 32; a budget below what v40 needs; a poisoned guard. -/
def watchedCtx : Ctx := { testCtx with bkpts := [(2, BitVec.ofNat 128 (1 + (32 <<< 64)))] }
def small : Wave := { wave with budget := 8 }
def guarded : Wave := wave.poke (.p 3 0 ⟨false, true⟩)
theorem meets_stops : execHit (mk wave watchedCtx) cur wave = some 2 ∧ (Instr.iadd { alu with dst := 40 }).wf = true ∧
    small.budget < leastBudget (.iadd { alu with dst := 40 }) cur small ∧ execHit (mk small) cur small = none ∧
    guardPoison guarded 0 onlyP3 (guarded.path 0).e.mask ≠ 0 ∧ wave.unperformed = false ∧ busy.unperformed = true ∧
    guardPoison wave 0 onlyP3 (wave.path 0).e.mask = 0 ∧ actMask (.iadd { alu with ctl := onlyP3 }) st cur wave = 0 ∧
    execHit (mk guarded) cur guarded = none := by decide +kernel
theorem meets_frames2 : ∀ i ∈ [Instr.iadd alu, .movi .neutral false 4 (.pair 1 2), .srd .neutral true true 4 0x12, .pand prd,
      .p2v .neutral 4, .v2p .neutral 4 7, .fadd flt, .shfl .neutral .up 4 6 (.imm 1), .nop .neutral .l64, .ld .n32 mem, .atom .add false false atm],
    goes (exec i st) = true := by decide +kernel
theorem meets_local : (∀ i ∈ [Instr.stl .n32 mem, .ldl .n32 mem],
      laneFault (carved st) 0 1 i { tid := 0, ptr := 0x2000000000000040 } = none) ∧
    spaceOf (0x2000000000000040 : Word64) = 1 := by decide +kernel
theorem meets_arrivals : (∀ q ∈ arriving.pend, ∀ r x, (∃ y, RegW.v r x y ∈ q.writes) ∨ (∃ y, RegW.p r x y ∈ q.writes) → x < 64) := by
  intro q hq r x h
  simp only [arriving, List.mem_singleton] at hq
  subst hq
  obtain ⟨y, h⟩ | ⟨y, h⟩ := h <;> simp at h
  omega

/-- A state whose one wave is due and whose block decodes to LEASE 5. -/
def due : State := State.reset.withFetchWord 64 0x0140001F9E0002A9
theorem meets_due : due.sch.agenda = [] ∧ due.sch.todo = [0] ∧ lpOf 0 = 0 ∧ (due.lp 0).prog = [] ∧
    (match due.wave? 0 with
      | some w => (List.range 16).all (fun k => runnable due.clk.cycle (due.lp 0) w k == (k == 0)) &&
          (match (w.path 0).block (blockOf (w.path 0).e.pc) with
          | some bs =>
            let word : BitVec 128 := BitVec.ofNat 128 (fieldAt bs ((w.path 0).e.pc.toNat % 32) 16)
            bits word 0 2 != 0 && slotBytes word == 8 && (match decode ((bits word 0 64).setWidth 128) with
              | .ok j => j == .lease .neutral (.imm 5) && waitMet w (ctlOf j) true && distMet due.clk.cycle (w.path 0) (ctlOf j)
              | .error _ => false)
          | none => false)
      | none => false) = true := by decide +kernel
/-- An instruction that is well formed, an addition of two wave inputs, a number in the range of a type. -/
theorem meets_values : (Instr.iadd alu).wf = true ∧ isNan (.nan false) = true ∧ iMin .i8 ≤ 100 ∧ (100 : Int) ≤ iMax .i8 ∧
    RedOp.add ≠ .fadd ∧ (∀ x ∈ [(⟨⟨5, false⟩, 0⟩ : RedVal)], x.stat = 0) ∧
    Memory.wf State.reset.mem ∧ Memory.wf State.reset.fmem := by
  decide +kernel

/-! ### What the later hypotheses ask: seals, waits, rooms -/

theorem meets_seals : (∀ i ∈ [Instr.trap .neutral 5, .bkpt .neutral 1, .fence .neutral, .copy .neutral 4, .vqput .neutral true 3 4],
    may i st cur wave = true) ∧ st.parts = [] ∧ (atHome wave1 page []).parts = [] ∧ (ctxs .stopped []).parts = [] ∧
    ((underSeal st cur wave).wave? 0).map (fun v => (v.ctx, (v.path 0).e, (v.path 0).kept, v.paths.length)) =
      some (1, (wave.path 0).e, none, 16) ∧ ((underSeal st cur wave).ctx? 1).isSome = true := by decide +kernel
theorem meets_idles : Idles (.trap onlyP3 5) st cur wave ∧ Idles (.iadd { alu with ctl := onlyP3 }) st cur wave := by
  refine ⟨⟨?_, ?_, ?_, ?_, ?_, ?_, ?_, ?_⟩, ⟨?_, ?_, ?_, ?_, ?_, ?_, ?_, ?_⟩⟩ <;> decide +kernel
theorem meets_accesses : portBusy loading 0 localLoad.path = false ∧ unreadLaunch loading 0 localLoad.id = false ∧ localLoad.faulted = none ∧
    owesBefore (code fetching []) 0 0 0 = false ∧ portBusy (code fetching []) 0 0 = false ∧
    moving (primary .e true) 0 1 = false ∧ (logFull st 1 && sealWaits st 1) = false ∧
    (match walk (mapped page) 1 0 0 with
     | .ok e => e.target == .none && okRes (locate (installTlb (combineTables (mapped page) 1 0) 0 e) 0 1 e.part e.streamed)
     | .error _ => false) = true ∧
    (let s := carved (mk wave)
     localPinned s (localLine s 0 1 0x40) (some 0) = false ∧ foreignAt s 0 1 0x40 (some 0) = false) ∧
    (due.die 0).down = false ∧ issuePaused due 1 = false := by decide +kernel
theorem meets_ready : (let w := (ready waiter []).updJob 1 4 fun j => { j with ready := true }
    waiter.ready = false ∧ (match w.ctx? 1 with
      | some y => (y.jobs.filter fun j => j.state == .waiting && j.ready).length == 1 &&
          decide (queueLength y waiter.lr.queue < 512)
      | none => false) = true) ∧ ({ job .placed 4 with dues := [] } : Job).dues = [] := by decide +kernel
theorem meets_stopping : (let c := copying fun c => { c with started := true, shape := some { shape1 with base := 1 } }
    c.failure = none ∧ (match moveLine (copies c 0) c { shape1 with base := 1 } with
      | .fail f => (match parkOwner (copies c 0) { c with stopped := true } (.copy 7) f with
        | .parked _ => true
        | _ => false)
      | _ => false) = true ∧ copyBkpt (copies c 0) c shape1 = none) ∧
    (match (gather 0 reqState).request? 0 3 with
     | some r => (match writeCrec (logRoom (gather 0 reqState) 1) 0 r with
       | .ok () u => okRes (advanceCnt (u.setRequest 0 { r with noted := true }) 0 { r with noted := true })
       | _ => false)
     | none => false) = true := by decide +kernel
theorem meets_replies : ringToken ringed 1 = true ∧ (ringOf ringed 1).report = none ∧
    (match ringed.outst? 1 4 with
     | some o => !o.closed && !o.done && o.path.isNone && (ringed.core (coreOf o.wave)).launches.all (fun h => h.refused.isNone) &&
         ((ringed.updOutst 1 4 fun o => { o with done := true, action := 1 }).outst? 1 4).isSome
     | none => false) = true := by decide +kernel
theorem meets_removal : (let s := { hosted with dies := [(0, { down := true })] }
    removalDue s (fun a => homedOn s 0 a || (kindOf a == 1 && deviceOf a == s.dev.devId.toNat)) = none) ∧
    removalDue hosted (fun a => deviceOf a == 9) = none ∧ kindOf ((0x1000000000000 / 65536 + 0) * 65536) = 1 := by decide +kernel
theorem meets_arriving : (let z (i : Instr) : State := { (hosted.fresh).2 with dev := { (hosted.fresh).2.dev with hostQ := [((hosted.fresh).1, i)] } }
    hosted.dev.hostQ = [] ∧ okRes (hostRead (z (.memrd 0x1000 16)) 0x1000 16) = true ∧
      okRes (hostWrite (z (.memwr 0x1000 (leBytes 5 16))) 0x1000 (leBytes 5 16)) = true ∧
      okRes (ownDev (z (.meminv 32)) (nowAt hosted (32 * 128) / 128) hosted.dev.hostId) = true) ∧
    (let s := { hosted with dev := { hosted.dev with hostQ := [(77, .memrd 0x1000 8)] } }
     (s.dev.hostQ.any fun x => x.1 != s.sch.nextId && oneLine x.2 (.memrd 0x1010 16)) = true ∧
       (match exec (.memrd 0x1010 16) s with
        | .next t => t.dev.hostQ.length == 2 && t.dev.replies.isEmpty
        | _ => false) = true) ∧
    okRes (combineFirst hosted ((63 * 0x4000000000000 + 0x1000000000000) / 128 * 128)) = true := by decide +kernel
theorem meets_rests : (match rollPart (root .running part1) 1 (.sliceEnd 1) with
    | (u, b) => b && ctxsAtRest u (subtreeOf u 1)) = true ∧
    (settleSnap (root .preempted part1) 1 (part1.snap.cores.map fun k => k.1) part1.snap).isSome = true ∧
    (carvesRoom (root .preempted part1) 1).2 = true ∧ partQuiet (root .running part1) 1 = true ∧
    canLend (lender.setCore 1 { lender.core 1 with leaving := false }) 1 1 3 = true ∧ bankAtRest lender 1 = true ∧
    bankAtRest (st.setCore 9 { st.core 9 with draining := true }) 9 = true ∧ bankAtRest st 9 = true ∧ asleep lender 1 = false ∧
    partQuiet lender 1 = true ∧ (carveRoom { hosted with ctxs := [], waves := [] } 0 (coresIn 1)).2 = true ∧
    begunWith hosted (fun _ _ => true) = false ∧ hosted.waves.all (fun w => w.2.win.isNone) = true := by decide +kernel
/-- In a partition with no access on its way a TRAP takes the seal and the fault (R109). -/
theorem step_sealed : (match exec (.trap .neutral 5) { st with parts := [(1, part1)] } with
    | .next t => (pathAt t 0 0).e.state == .trapped
    | _ => false) = true := by decide +kernel

/-! ### What the clauses on values, splits and steps ask -/

theorem meets_floats : fDecode .f32 0x7FC00000 = .nan false ∧ fDecode .f32 0x7F800001 = .nan true ∧ fDecode .f32 0xFF800000 = .inf true ∧
    fDecode .f32 0x80000000 = .fin true 0 (-149) ∧ fDecode .f32 0x40400000 = .fin false 12582912 (-22) ∧
    12582912 * 2 ^ 0 = 3 * 2 ^ 22 ∧ fDecode .f32 0xBFC00000 = .fin true 12582912 (-23) ∧ 2 * 12582912 * 2 ^ 0 = (2 * 1 + 1) * 2 ^ 23 ∧
    fDecode .f32 0x3F000000 = .fin false (2 ^ 23) (-24) ∧ fHasInf .f32 = true ∧ fDecode .bf16 0x7FC0 = .nan false := by decide +kernel
/-- 470 exceeds the largest E4M3, 300 does not (R132). -/
theorem meets_exceeds : Exceeds .e4m3 .rn false (fun a z => AtMost a z 470 0) (fun a z => AtMost 470 0 a z) ∧
    ¬Exceeds .e4m3 .rn false (fun a z => AtMost a z 300 0) (fun a z => AtMost 300 0 a z) := by
  have d : fDecode .e4m3 (fMax .e4m3) = .fin false 14 5 := by decide +kernel
  constructor
  · intro m e h
    rw [d] at h; cases h
    refine ⟨fun _ => ⟨by simp only [AtMost]; decide, .inr (by simp only [AtMost]; decide)⟩, fun c => ?_, fun c => absurd rfl c⟩
    rcases c with c | ⟨c, _⟩ | ⟨c, _⟩ <;> cases c
  · exact fun h => absurd ((h 14 5 d).1 rfl).1 (by simp only [AtMost]; decide)

/-- Two threads of a wave aim at 0x1000 and the others at 0x2000; with w8 too, as do those of a return join at 64. -/
def aim (w : Wave) (t u : Word64) : Wave :=
  ((wW 4 0 t false ++ wW 4 1 t false) ++ (wW 4 2 u false ++ wW 4 3 u false)).foldl (fun w x => w.poke x) w
def aimed : Wave := aim wave 0x1000 0x2000
def groupsOf (i : Instr) (s : State) (w : Wave) : Option (List Group) :=
  match indirect (issOf i s cur w) (begun s cur w) false 4 with
  | .ok gs => some gs
  | .error _ => none
theorem meets_splits : (∀ i ∈ [Instr.brx .neutral false 4, .ret .neutral false 4, .callx .neutral false 4],
      may i (code aimed []) cur aimed = true ∧ groupsOf i (code aimed []) aimed = some [(3, 0x1000), (12, 0x2000)]) ∧
    (wave.path 0).serves.isNone = true ∧ 2 ≤ aimed.freeCount ∧ aimed.defer = [] ∧
    okRes (headerBudgets (begun (code aimed []) cur aimed) 0 aimed 0 15 [0x1000, 0x2000]) = true ∧
    (let w := aim split3 0x1000 0x2000
     may (.brx onlyP3 false 4) (code w []) cur w = true ∧ groupsOf (.brx onlyP3 false 4) (code w []) w = some [(1, 0x1000)]) ∧
    (let w := aim (joined .ret .ready) 64 0x2000
     may (.ret .neutral false 4) (code w []) cur w = true ∧ w.joins 0 = true ∧
       groupsOf (.ret .neutral false 4) (code w []) w = some [(1 + 2, 64)] ∧ 1 ≤ w.freeCount + 1) ∧
    (let w := aim { joined .ret .ready with paths := (joined .ret .ready).paths.set 0 { e := { kind := .path, pc := 32, mask := 15, link := 2 } } } 64 0x2000
     may (.ret .neutral false 4) (code w []) cur w = true ∧ groupsOf (.ret .neutral false 4) (code w []) w = some [(3, 64), (12, 0x2000)] ∧
       2 ≤ w.freeCount + 1) := by decide +kernel
/-- A deferred side that has run is taken back (R154). -/
theorem meets_deferred : popDone 65 [⟨12, 96, 0, true, false⟩] 0 false 3 = ([], 15) ∧
    newestDefer [⟨12, 96, 0, false, false⟩] 0 false = some (0, ⟨12, 96, 0, false, false⟩) := by decide +kernel
/-- A RET to two targets leaves two paths under a meet join. -/
theorem step_ret : (match exec (.ret .neutral false 4) (code aimed []) with
    | .next t => (pathAt t 0 0).e.pc == 0x1000 && (pathAt t 0 0).e.mask == 3 && (List.range 16).any (fun h =>
        (pathAt t 0 h).e.pc == 0x2000 && (pathAt t 0 h).e.mask == 12 && (pathAt t 0 h).e.link == (pathAt t 0 0).e.link)
    | _ => false) = true := by decide +kernel

theorem meets_empty : (∀ b : Bool, let r : LaunchRec := { launchRecOf launch with count := 0, ctl := if b then bitAt 47 else 0 }
    r.waitOn = false ∧ r.count = 0 ∧ r.doneOn = b) ∧ queueLength page 0 < 512 ∧
    (∀ j ∈ ({ page with jobs := [job .queued 1] } : Ctx).jobs, j.id < 2) := by decide +kernel
theorem meets_placing : (match pickPlace (noteHeads (ready (job .queued 4) []) 1) 1 with
    | some (j, is, _, _) => decide (j.lr.width ≤ 64) && (j.lr.teamPol != 2 || decide (is.length ≤ 2)) && !is.isEmpty
    | none => false) = true := by decide +kernel
/-- A copy that has landed and advances its counter at 0x1300. -/
def landedCopy : Copy := copying fun c => { c with started := true, shape := some shape1, landed := true, chained := true }
theorem meets_paying : (let s := copies landedCopy 0
    let z := copyProg (s.endTileOp 0 7) landedCopy false false
    (logFull z 1 && sealWaits z 1) = false ∧ (match bump (logRoom z 1) 0 1 shape1.cnt 1 with
      | .ok () u => u.copy? 7 == some landedCopy && leNat (Memory.readN u.mem 0x1300 8) == 1
      | _ => false) = true ∧ checkPtr shape1.cnt 8 .globalDev = none ∧ s.dirOf (lineOf 0x1300) = {} ∧ s.homes.dual = [] ∧
    ({ landedCopy with paid := true } : Copy).paid = true) := by decide +kernel

/-- Stops before which a window is still open: path 0 has a load to perform, or only an older one than its stop. -/
theorem meets_windows : busy.owesUntil ((busy.path 0).stopAt.getD busy.seq) = true ∧
    (let w : Wave := { busy with paths := busy.paths.map fun p => { p with stopAt := some 0 } }
     w.owesUntil ((w.path 0).stopAt.getD w.seq) = false ∧ w.unperformed = true ∧ Issuing (mk w) cur w testCtx ∧
     ((rollback (mk w) 0 false).wave? 0).map (fun v => ((v.path 0).e.kind, v.paths.length, ((rollback (mk w) 0 false).ctx? v.ctx).isSome))
      = some (.path, 16, true)) := by
  refine ⟨by decide +kernel, by decide +kernel, by decide +kernel, ⟨rfl, rfl, rfl, rfl, by decide, .inl rfl, rfl, by decide⟩, by decide +kernel⟩

/-- A combine whose page asks for no seal, and one whose page is shared. -/
def sharedRange (r : Range) : State :=
  { mapped { ranged with flat := [r], cranges := [(2, range)] } with cores := [(0, { tlb := [entry0], carve := [(1, [0, 1])], contrib := [(1, 2)] })] }
theorem meets_combines : (let s := setPartial (sharedRange { gbase := 0, dbase := 0, len := 0x200000, perm := 7 }) 0 1 range 3 7
    sealsLine s 1 2 0 = false ∧ logShort s 1 (combineLogs s 1 2 0) = false ∧ okRes (combineAt s 1 2 0) = true ∧
      runSeals s 1 2 1 = false) ∧
    (let f := setPartial (sharedRange { gbase := 0, dbase := 0, len := 0x200000, perm := 7 }) 0 1 range 3 7
     let s := { f with mem := Memory.writeN f.mem 0x8000 (leBytes (0x2F + (1 <<< 64)) 16) }
     sealsLine s 1 2 0 = true ∧ sealWaits s 1 = false ∧ okRes (combineAt (takeSeal s 1) 1 2 0 true false true) = true) := by
  decide +kernel

def bootIn : BootIn :=
  { slots := [(true, 1)], raiseTo := 1, restOk := true, towers := 0xFF, present := [9], hdm := [(0, 0x200000)], routes := ⟨1, [(9, [0, 1])]⟩,
    tier2 := List.replicate 8 0x20000000000, fw := 0, tower := List.replicate 8 0, engine := List.replicate 8 0 }
theorem meets_boots : (bootIn.restOk && bootIn.linksOk && routesOk bootIn.routes && hdmOk bootIn.hdm) = true ∧
    (match exec (.modulePowerOn bootIn) State.reset with
     | .next t => t.dev.state == 2 && bar0Read t 0 == 0x0000FF0400000002 && t.dev.present == [9]
     | _ => false) = true := by decide +kernel
theorem meets_outside : markDue hosted = none ∧ serviceUpdate hosted = false ∧ nowAt hosted 0x1000 = 0x1000 ∧ hosted.dev.state < 16 ∧
    (let p : Port := { retries := 8, flit := 5 }
     p.down = false ∧ (if p.flit = 5 then p.retries else 0) = 8 ∧ (if p.flit = 6 then p.retries else 0) = 0) := by decide +kernel

/-- Thread 0's part of an access to 0x1000, where memory is at home. -/
def part0 (i : Instr) (v : Word64) : Access := { stuck with instr := i, lanes := [{ tid := 0, ptr := devPtr 0x1000, d0 := 5, d1 := v }] }
def reaches (i : Instr) (cas : Bool) : Bool :=
  let s := code wave1 (leBytes 5 16)
  let l : Lane := { tid := 0, ptr := devPtr 0x1000, d0 := if cas then 6 else 5, d1 := 9 }
  match laneCheck s 0 1 l (accKind i).size (accKind i).want (accKind i).spaces with
  | .ok (some x, s₁) => (match combineFirst s₁ x.dev true true with
    | .ok () s₂ => if cas then leNat (curBytes s₂ x.dev 4) != 6 && okRes (casReadAt s₂ (whoOf 0 wave1) x)
        else leNat (curBytes s₂ x.dev 4) == 5 && okRes (readAt s₂ (whoOf 0 wave1) x) && okRes (writeAt s₂ (whoOf 0 wave1) x)
    | _ => false)
  | _ => false
theorem meets_bytes : (∀ i ∈ [Instr.ld .n32 mem, .st .n32 mem, .atom .add false false atm, .cas atm, .cadd .add mem],
      reaches i false = true) ∧ reaches (.cas atm) true = true ∧ caddSlot (code wave1 []) 1 .add (devPtr 0x1000) = none ∧
    (let s := sharedRange { gbase := 0, dbase := 0, len := 0x200000, perm := 7 }
     caddSlot s 1 .add 0x1000 = some (2, range) ∧ (List.range 8).any (fun d => diePinned s d (lineOf 0x1000)) = false) := by
  decide +kernel

/-- A step of a product and one of a drain. -/
theorem meets_arraysteps : (∀ k ∈ [1, 2, 3, 4], 0 < mmaTotal k 16 (tcSteps ((tiled cols).tcOf 0 0)) 4) ∧
    (let v := (tiled cols).tcOf 0 5
     tcValid v = true ∧ tcRows v = 32 ∧ tcFmt v ≠ 0 ∧ tcFmt v ≠ 8 ∧ 16 * fmtHalf (tcFmt v) ≤ 2 * rowBytes v ∧
       16 * 4 ≤ rowBytes ((tiled cols).tcOf 0 4)) ∧
    (let o : ArrOp := { id := 1, ctx := 1, wave := 0, seq := 0, acc := 0, kind := .azero, done := 0, start := some 0 }
     let s : State := { tiled cols with cores := [(0, { (tiled cols).core 0 with arrayQ := [o] })] }
     arrCores s = [0] ∧ arrHead s 0 = some o ∧ s.copies = [] ∧ o.done < o.total) := by decide +kernel
theorem meets_outofturn : wave.fuse = none ∧ (lateRoll (mk { wave with fuse := some (waiting 32) }) 1 0 0).waves = [(0, { wave with fuse := some (waiting 32) })] ∧
    (let w := wave1.setPath 0 { wave1.path 0 with poll := some (poll (bwait 2)) }
     pollInside w (poll (bwait 2)) = false ∧ portBusy (mk w) 0 0 = false) ∧
    logShort spills 1 (spillLines spills 0 { full blocked with age := 1 }) = false := by decide +kernel
end Sys2Proof.Tests
end

/-!
PROOF. The steps of launches, copies, engines, the array, rings and observation (O47): what acting on conflicts keeps, what
each of these steps comes to, and the statement from them.
-/

namespace Sys2Proof.Machine

open Claim

/-! ### What acting on conflicts keeps (R113, R114) -/

/-- From s to t nothing due now is taken away, and copies and cores, but for their launch buffers, stay. -/
structure Unwound (s t : State) : Prop where
  copies : t.copies = s.copies
  cores  : ∀ k, { t.core k with launches := [] } = { s.core k with launches := [] }
  agenda : s.sch.agenda ⊆ t.sch.agenda

theorem Unwound.refl (s : State) : Unwound s s := ⟨rfl, fun _ => rfl, List.Subset.refl _⟩

theorem Unwound.trans {s t u : State} (h : Unwound s t) (k : Unwound t u) : Unwound s u :=
  ⟨k.copies.trans h.copies, fun c => (k.cores c).trans (h.cores c), List.Subset.trans h.agenda k.agenda⟩

theorem Unwound.of_later {s t : State} (h : Later s t) (k : s.sch.agenda ⊆ t.sch.agenda) : Unwound s t :=
  ⟨h.copies, fun c => by simp only [State.core, h.cores], k⟩

theorem agenda_subset_soon (s : State) (e : Instr) : s.sch.agenda ⊆ (s.soon e).sch.agenda :=
  List.subset_append_left _ _

theorem agenda_subset_ensureSoon (s : State) (e : Instr) : s.sch.agenda ⊆ (s.ensureSoon e).sch.agenda := by
  unfold State.ensureSoon
  split
  · exact List.Subset.refl _
  · exact agenda_subset_soon s e

theorem ringPut_unwound (s : State) (ring : Option Nat) (r : FaultRec) : Unwound s (ringPut s ring r) := by
  refine .of_later (ringPut_later s ring r) ?_
  unfold ringPut
  split
  · exact List.Subset.refl _
  · split
    · exact List.Subset.refl _
    · split <;> exact agenda_subset_soon _ _

theorem dropLatch_unwound (s : State) (w : Nat) : Unwound s (dropLatch s w) :=
  .of_later (dropLatch_later s w) (List.Subset.refl _)

theorem unmarkLines_sch (s : State) : (unmarkLines s).sch = s.sch := by
  have unmark (l : List (Nat × LineRec)) (t : State) :
      (l.foldl (fun s x => s.setLine x.1 { s.line x.1 with pinned := false }) t).sch = t.sch := by
    induction l generalizing t with
    | nil => rfl
    | cons x l ih => exact ih _
  exact unmark _ s

theorem unpin_unwound (s : State) (w : Nat) : Unwound s (unpin s w) := by
  refine .of_later (unpin_later s w) ?_
  unfold unpin
  split
  · exact List.Subset.refl _
  · rw [← unmarkLines_sch s]
    generalize unmarkLines s = t
    simp only
    split
    · exact List.Subset.refl _
    · refine List.Subset.trans ?_ (agenda_subset_ensureSoon _ _)
      exact List.Subset.refl _

theorem withdrawPin_unwound (s : State) (w : Nat) : Unwound s (withdrawPin s w) := by
  refine .of_later (withdrawPin_later s w) ?_
  simp [withdrawPin]

/-- TAKING A FAULT adds to what is due. -/
theorem takeFault_unwound (s : State) (w i : Nat) (pc base next : Word64) (k : ParkKind) (f : FaultInfo) :
    Unwound s (takeFault s w i pc base next k f) := by
  unfold takeFault
  split
  · exact .refl s
  · split
    · exact .refl s
    · simp only
      refine .trans ?_ (ringPut_unwound _ _ _)
      refine .trans ?_ (dropLatch_unwound _ _)
      have pins (t : State) (y : Wave) :
          Unwound t (if (y.settle.state == WState.running) = true then t else withdrawPin (unpin t w) w) := by
        split
        · exact .refl t
        · exact (unpin_unwound t w).trans (withdrawPin_unwound _ w)
      refine .trans ?_ (pins _ _)
      exact ⟨rfl, fun _ => rfl, List.Subset.refl _⟩

theorem core_setCore_ne (s : State) {c k : Nat} (x : Core) (h : k ≠ c) : (s.setCore c x).core k = s.core k := by
  simp [State.core, Sp.get_put_ne _ _ _ h]

theorem setLaunches_unwound (s : State) (c : Nat) (l : List HeldLaunch) :
    Unwound s (s.setCore c { s.core c with launches := l }) := by
  refine ⟨rfl, fun k => ?_, List.Subset.refl _⟩
  by_cases h : k = c
  · rw [h, State.core_setCore]
  · rw [core_setCore_ne _ _ h]

theorem updWave_unwound (s : State) (w : Nat) (f : Wave → Wave) : Unwound s (s.updWave w f) :=
  ⟨State.updWave_copies .., fun k => by simp only [State.core, State.updWave_cores], by simp⟩

theorem undoWindow_unwound (s : State) (wid : Nat) (n : Window) : Unwound s (undoWindow s wid n) := by
  unfold undoWindow
  split
  · exact .refl s
  · next w h =>
    simp only
    refine .trans ?_ (dropLatch_unwound _ _)
    refine .trans ?_ (unpin_unwound _ _)
    refine .trans ?_ (setLaunches_unwound _ _ _)
    exact ⟨rfl, fun _ => rfl, List.Subset.refl _⟩

/-- ROLLBACK changes its wave, what it has launched, and what a fault changes (R114, R116). -/
theorem rollback_unwound (s : State) (wid : Nat) (counted : Bool) : Unwound s (rollback s wid counted) := by
  unfold rollback
  split
  · exact .refl s
  · next w _ =>
    split
    · exact .refl s
    · next n _ =>
      simp only
      split
      · exact undoWindow_unwound s wid n
      · generalize (if (w.keyPc == n.pc && w.keyPath == n.path && w.count != 0) = true then w.count + 1 else 1) = c
        have counts (f : Wave → Wave) : Unwound s ((undoWindow s wid n).updWave wid f) :=
          (undoWindow_unwound s wid n).trans (updWave_unwound _ wid f)
        split
        · exact (counts _).trans (takeFault_unwound _ _ _ _ _ _ _ _)
        · exact counts _

theorem foldl_unwound {α : Type} {f : State → α → State} (h : ∀ s a, Unwound s (f s a)) (l : List α) (s : State) :
    Unwound s (l.foldl f s) := by
  induction l generalizing s with
  | nil => exact .refl s
  | cons a l ih => exact (h s a).trans (ih _)

theorem settleHits_unwound (s : State) : Unwound s (settleHits s) := by
  unfold settleHits
  simp only
  split
  · exact ⟨rfl, fun _ => rfl, List.Subset.refl _⟩
  · exact .trans (t := { s with sch := { s.sch with hits := [] } }) ⟨rfl, fun _ => rfl, List.Subset.refl _⟩
      (foldl_unwound (fun s w => rollback_unwound s w true) _ _)

theorem settleHits_quiet {s : State} (h : s.sch.hits = []) : settleHits s = s := by
  obtain ⟨⟩ := s
  rename_i sch
  obtain ⟨⟩ := sch
  subst h
  rfl

/-- A step that acts on conflicts last leads to what it has made, where that leaves none. -/
theorem leads_settleHits {e : Instr} {s v u : State} (he : exec e s = .next (settleHits v)) (h : v = u) : Leads e s u :=
  fun hu => by rw [he, h, settleHits_quiet hu]

/-- Whatever holds of all that such a step's conflicts may leave holds where it goes. -/
theorem goes_settleHits {e : Instr} {s v u : State} {P : State → Prop} (he : exec e s = .next (settleHits v)) (h : v = u)
    (hp : ∀ t, Unwound u t → P t) : Goes e s P :=
  ⟨_, he, hp _ (h ▸ settleHits_unwound v)⟩

/-! ### Wait counters and owed increments (R179, R180) -/

/-- A record that waits and whose counter has come to its target is ready for its queue. -/
theorem pollWait_reached {s t₁ t₂ u : State} {c id d : Nat} {j : Job} {b : List Byte} {z : Bool}
    (hj : s.job? c id = some j) (hw : j.state = .waiting) (hr : j.ready = false)
    (hc : clCheck s (launchCore s c) c j.lr.waitCnt 8 pR = .ok (d, t₁)) (hf : combineFirst t₁ d = .ok () t₂)
    (hb : clRead t₂ d 8 = .ok (b, z) u) (hv : j.lr.waitTgt.toNat ≤ leNat b) :
    pollWait s c id = enterReady (u.updJob c id fun j => { j with ready := true }) c := by
  simp only [pollWait, hj, hw, hr, bne_self_eq_false, Bool.or_self, Bool.false_eq_true, if_false, hc, hf, hb,
    decide_eq_true hv, if_true]

/-- The one record that is ready enters its queue where there is room. -/
theorem enterReady_one {s : State} {c : Nat} {x : Ctx} {k : Job} (hx : s.ctx? c = some x)
    (hk : x.jobs.filter (fun j => j.state == .waiting && j.ready) = [k]) :
    enterReady s c = if queueLength x k.lr.queue < 512 then
      enterQueue (s.setCtx c { x with jobs := x.jobs.filter (fun j => j.id != k.id) }) c k.lr else s := by
  simp [enterReady, hx, hk]

/-- With room in the log, or once the checkpoint that makes room need not wait, a step that appends to it acts (R207). -/
theorem withRoom_ready {s : State} {c : Nat} (self : Instr) (f : State → State)
    (h : (logFull s c && sealWaits s c) = false) : withRoom s c self f = f (logRoom s c) := by
  simp [withRoom, h]

theorem payDue_none {s : State} {c id : Nat} {j : Job} (hj : s.job? c id = some j) (hd : j.dues = []) :
    payDue s c id = dropJob s c id := by
  simp [payDue, hj, hd, leastOf]

/-- The one increment that is owed, and whose time has come, is performed. -/
theorem payDue_one {s u : State} {c id : Nat} {j : Job} {d : Due} (hj : s.job? c id = some j) (hd : j.dues = [d])
    (hw : d.when ≤ s.clk.tick) (hl : (logFull s c && sealWaits s c) = false)
    (hb : bump (logRoom s c) (launchCore (logRoom s c) c) c d.cnt d.incr = .ok () u) :
    payDue s c id = (u.updJob c id fun j => { j with dues := j.dues.eraseIdx 0 }).ensureSoon (.waitCounterRetry c id) := by
  simp [payDue, hj, hd, hw, withRoom_ready _ _ hl, hb]

theorem execWaitCounterRetry_pays {s : State} {c id : Nat} {j : Job} (hj : s.job? c id = some j) (hw : j.state ≠ .waiting) :
    exec (.waitCounterRetry c id) s = .next (settleHits (payDue s c id)) := by
  simp [exec, execWaitCounterRetry, hj, hw]

/-! ### Heads and grids (R181, R182) -/

@[simp] theorem State.ensureSoon_ctx? (s : State) (e : Instr) (c : Nat) : (s.ensureSoon e).ctx? c = s.ctx? c := by
  unfold State.ensureSoon
  split <;> rfl

@[simp] theorem State.ensureTicks_ctx? (s : State) (n : Nat) (e : Instr) (c : Nat) : (s.ensureTicks n e).ctx? c = s.ctx? c := by
  unfold State.ensureTicks
  split <;> rfl

theorem State.updCtx_some {s : State} {c : Nat} {x : Ctx} (f : Ctx → Ctx) (h : s.ctx? c = some x) :
    s.updCtx c f = s.setCtx c (f x) := by
  simp [State.updCtx, h]

/-- A head that has waited another 4,096 ticks ages by them. -/
theorem headAging_ages {s : State} {c q h : Nat} {x : Ctx} {j : Job} (hx : s.ctx? c = some x) (hj : headOf x q = some j)
    (hh : j.headAt = some h) (ht : h + 4096 * (j.aged + 1) ≤ s.clk.tick) :
    Goes (.headAging c q) s fun t => ∃ y k, t.ctx? c = some y ∧ k ∈ y.jobs ∧ k.id = j.id ∧
      k.aged = (s.clk.tick - h) / 4096 := by
  have old : j.aged < (s.clk.tick - h) / 4096 := by omega
  have mem : j ∈ x.jobs := List.mem_of_find?_eq_some hj
  refine ⟨_, by simp [exec, execHeadAging, hx, hj, hh, old]; rfl, ?_⟩
  simp only [State.ensureSoon_ctx?]
  rw [State.updJob, State.updCtx_some (x := x) _ (by simpa using hx)]
  exact ⟨_, { j with aged := (s.clk.tick - h) / 4096 }, State.ctx?_setCtx .., List.mem_map.2 ⟨j, mem, by simp⟩, rfl, rfl⟩

/-- No grid of a queue is open once it is closed. -/
theorem closeGrid_closed {x : Ctx} {q : Nat} {k : Job} (hk : k ∈ (closeGrid x q).jobs) (hg : k.state = .grid) :
    k.lr.queue ≠ q := by
  obtain ⟨j, -, rfl⟩ := List.mem_map.1 hk
  intro hq
  by_cases h : (j.state == .grid && j.lr.queue == q) = true
  · simp [h] at hg
  · simp only [h, Bool.false_eq_true, if_false] at hg hq
    simp [hg, hq] at h

theorem gridClose_closes {s : State} {c q : Nat} {x : Ctx} {j : Job} (hx : s.ctx? c = some x) (hj : j ∈ x.jobs)
    (hg : j.state = .grid) (hq : j.lr.queue = q) (ht : j.arrived + 256 ≤ s.clk.cycle) :
    Goes (.gridClose c q) s fun t => ∃ y, t.ctx? c = some y ∧ ∀ k ∈ y.jobs, k.state = .grid → k.lr.queue ≠ q := by
  have due : x.jobs.any (fun j => j.state == .grid && j.lr.queue == q && decide (j.arrived + 256 ≤ s.clk.cycle)) = true :=
    List.any_eq_true.2 ⟨j, hj, by simp [hg, hq, ht]⟩
  refine ⟨_, by simp only [exec, execGridClose, hx, due, if_true]; rfl, closeGrid x q, ?_, fun k hk => closeGrid_closed hk⟩
  rw [State.ensureSoon_ctx?, State.ctx?_setCtx]

/-! ### What the launch unit leaves alone (R179, R180) -/

/-- From s to t no wave and no core changes. -/
structure UnitsKept (s t : State) : Prop where
  waves : t.waves = s.waves
  cores : t.cores = s.cores

theorem UnitsKept.refl (s : State) : UnitsKept s s := ⟨rfl, rfl⟩

theorem UnitsKept.trans {s t u : State} (h : UnitsKept s t) (k : UnitsKept t u) : UnitsKept s u :=
  ⟨k.waves.trans h.waves, k.cores.trans h.cores⟩

theorem setCtx_unitsKept (s : State) (c : Nat) (x : Ctx) : UnitsKept s (s.setCtx c x) := ⟨rfl, rfl⟩

theorem updCtx_unitsKept (s : State) (c : Nat) (f : Ctx → Ctx) : UnitsKept s (s.updCtx c f) := ⟨by simp, by simp⟩

theorem ensureSoon_unitsKept (s : State) (e : Instr) : UnitsKept s (s.ensureSoon e) := by
  unfold State.ensureSoon
  split <;> exact ⟨rfl, rfl⟩

theorem complete_unitsKept (s : State) (c id : Nat) (r : LaunchRec) : UnitsKept s (complete s c id r) := by
  unfold complete
  split
  · exact (updCtx_unitsKept s c _).trans (ensureSoon_unitsKept _ _)
  · exact updCtx_unitsKept s c _

theorem enterQueue_unitsKept (s : State) (c : Nat) (r : LaunchRec) : UnitsKept s (enterQueue s c r) := by
  unfold enterQueue
  split
  · exact .refl s
  · simp only
    split
    · refine .trans ?_ (complete_unitsKept _ _ _ _)
      exact ⟨rfl, rfl⟩
    · split
      · split
        · exact (setCtx_unitsKept s c _).trans (ensureSoon_unitsKept _ _)
        · refine .trans ?_ (ensureSoon_unitsKept _ _)
          exact ⟨rfl, rfl⟩
      · refine .trans ?_ (ensureSoon_unitsKept _ _)
        exact ⟨rfl, rfl⟩

theorem foldl_unitsKept {α : Type} {f : State → α → State} (h : ∀ s a, UnitsKept s (f s a)) (l : List α) (s : State) :
    UnitsKept s (l.foldl f s) := by
  induction l generalizing s with
  | nil => exact .refl s
  | cons a l ih => exact (h s a).trans (ih _)

theorem enterReady_unitsKept (s : State) (c : Nat) : UnitsKept s (enterReady s c) := by
  refine foldl_unitsKept (fun s j => ?_) _ s
  split
  · split
    · exact (setCtx_unitsKept s c _).trans (enterQueue_unitsKept _ _ _)
    · exact .refl s
  · exact .refl s

/-- A group that has been placed changes of its core no more than whose turn is next. -/
theorem notePlaced_unitsKept (s : State) (c k : Nat) (j : Job) (is : List Nat) :
    UnitsKept (s.setCore k { s.core k with turn := c }) (notePlaced s c k j is) := by
  unfold notePlaced
  refine .trans ?_ (ensureSoon_unitsKept _ _)
  refine .trans ?_ (enterReady_unitsKept _ _)
  exact updCtx_unitsKept _ c _

/-! ### Where the placer puts a group (R183, R184) -/

theorem mem_insertLoad {s : State} {a k : Nat} {l : List Nat} : k ∈ insertLoad s a l ↔ k = a ∨ k ∈ l := by
  induction l with
  | nil => simp [insertLoad]
  | cons b l ih =>
    unfold insertLoad
    split
    · simp
    · simp only [List.mem_cons, ih]
      exact or_left_comm

theorem mem_byLoad {s : State} {k : Nat} {l : List Nat} : k ∈ byLoad s l ↔ k ∈ l := by
  have sorted (l m : List Nat) : k ∈ l.foldl (fun l a => insertLoad s a l) m ↔ k ∈ m ∨ k ∈ l := by
    induction l generalizing m with
    | nil => simp
    | cons a l ih => simp only [List.foldl_cons, ih, mem_insertLoad, List.mem_cons]; tauto
  simpa [byLoad] using sorted l []

/-- The placer takes candidate cores only. -/
theorem mem_placeCores {s : State} {c k : Nat} {r : LaunchRec} (h : k ∈ coreOrder s c r) : k ∈ placeCores s c r := by
  have first (d : Nat) (l : List Nat) (h : k ∈ l.filter (fun k => k / 32 == d) ++ l.filter (fun k => k / 32 != d)) :
      k ∈ l := by
    rcases List.mem_append.1 h with h | h <;> exact List.mem_of_mem_filter h
  rw [← mem_byLoad (s := s)]
  revert h
  unfold coreOrder
  simp only
  split
  · exact id
  · split
    · exact id
    · split
      · next core _ =>
        have rest (h : k ∈ ((byLoad s (placeCores s c r)).filter (· != core)).filter (fun k => k / 32 == core / 32) ++
            ((byLoad s (placeCores s c r)).filter (· != core)).filter (fun k => k / 32 != core / 32)) :
            k ∈ byLoad s (placeCores s c r) := List.mem_of_mem_filter (first _ _ h)
        split
        · next hc =>
          intro h
          rcases List.mem_cons.1 h with rfl | h
          · exact List.contains_iff_mem.1 hc
          · exact rest h
        · exact rest
      · split
        · exact first _ _
        · exact id

theorem dieOk_of_coreOrder {s : State} {c k : Nat} {r : LaunchRec} (h : k ∈ coreOrder s c r) : r.dieOk (k / 32) = true := by
  have hk := (List.mem_filter.1 (mem_placeCores h)).2
  simp only [Bool.and_eq_true] at hk
  obtain ⟨⟨⟨⟨-, die⟩, -⟩, -⟩, -⟩ := hk
  exact die

theorem firstPlace_some {s t : State} {c k : Nat} {j : Job} {is ks : List Nat} (h : firstPlace s c j is ks = some (k, t)) :
    k ∈ ks ∧ placeOn s c j is k = some t := by
  induction ks with
  | nil => simp [firstPlace] at h
  | cons a ks ih =>
    unfold firstPlace at h
    split at h
    · next u hu =>
      cases h
      exact ⟨List.mem_cons_self, hu⟩
    · exact ⟨List.mem_cons_of_mem _ (ih h).1, (ih h).2⟩

theorem pickHead_some {s t : State} {c k : Nat} {j : Job} {is : List Nat} {hs js : List Job}
    (h : pickHead s c hs js = some (j, is, k, t)) : k ∈ coreOrder s c j.lr ∧ placeOn s c j is k = some t := by
  induction js with
  | nil => simp [pickHead] at h
  | cons a js ih =>
    unfold pickHead at h
    simp only at h
    split at h
    · next hp =>
      cases h
      exact ⟨List.mem_of_mem_filter (firstPlace_some hp).1, (firstPlace_some hp).2⟩
    · exact ih h

theorem pickPlace_some {s t : State} {c k : Nat} {j : Job} {is : List Nat} (h : pickPlace s c = some (j, is, k, t)) :
    k ∈ coreOrder s c j.lr ∧ placeOn s c j is k = some t := by
  unfold pickPlace at h
  split at h
  · cases h
  · split at h
    · cases h
    · exact pickHead_some h

/-- A fold whose every step keeps its answer or takes the element at hand answers with an element of its list, or as it began. -/
theorem foldl_choice {α : Type} {f : Option α → α → Option α} (h : ∀ b a, f b a = b ∨ f b a = some a) (l : List α)
    (b : Option α) {x : α} (hx : l.foldl f b = some x) : x ∈ l ∨ b = some x := by
  induction l generalizing b with
  | nil => exact .inr hx
  | cons a l ih =>
    rcases ih _ hx with hm | hs
    · exact .inl (List.mem_cons_of_mem _ hm)
    · rcases h b a with e | e
      · exact .inr (e ▸ hs)
      · rw [e] at hs
        cases hs
        exact .inl List.mem_cons_self

/-- The lane pair taken is one of the core's. -/
theorem pickLane_core {s : State} {core n lp : Nat} {pair : Bool} (h : pickLane s core pair n = some lp) : lp / 32 = core := by
  have listed := foldl_choice (fun b l => ?choice) _ none h
  case choice =>
    split
    · exact .inl rfl
    · split
      · split
        · exact .inr rfl
        · exact .inl rfl
      · exact .inr rfl
  rcases listed with hl | hl
  · obtain ⟨l, lane, rfl⟩ := List.mem_map.1 hl
    have := List.mem_range.1 lane
    omega
  · cases hl

theorem freeSlot_some {s : State} {lp k : Nat} (h : freeSlot s lp = some k) : k < 16 ∧ s.wave? (lp * 16 + k) = none := by
  refine ⟨List.mem_range.1 (List.mem_of_find?_eq_some h), ?_⟩
  simpa [slotFree] using List.find?_some h

theorem freePair_some {s : State} {lp k : Nat} (h : freePair s lp = some k) :
    k + 1 < 16 ∧ s.wave? (lp * 16 + k) = none ∧ s.wave? (lp * 16 + (k + 1)) = none := by
  obtain ⟨a, ha, rfl⟩ := List.mem_map.1 (List.mem_of_find?_eq_some h)
  have := List.mem_range.1 ha
  exact ⟨by omega, by simpa [slotFree] using List.find?_some h⟩

/-- From s to t the waves of a group begin on a core, in slots that were free, and no wave of s changes. -/
structure GroupPlaced (s t : State) (c core : Nat) (j : Job) (is : List Nat) : Prop where
  kept : ∀ wid w, s.wave? wid = some w → t.wave? wid = some w
  news : ∀ i ∈ is, ∃ wid u area run, coreOf wid = core ∧ s.wave? wid = none ∧
    t.wave? wid = some (newWave u c j i area run)

theorem GroupPlaced.nil (s : State) (c core : Nat) (j : Job) : GroupPlaced s s c core j [] :=
  ⟨fun _ _ h => h, by simp⟩

theorem GroupPlaced.cons {s t u : State} {c core i : Nat} {j : Job} {is : List Nat} (h : GroupPlaced s t c core j [i])
    (k : GroupPlaced t u c core j is) : GroupPlaced s u c core j (i :: is) where
  kept wid w hw := k.kept wid w (h.kept wid w hw)
  news x hx := by
    rcases List.mem_cons.1 hx with rfl | hx
    · obtain ⟨wid, v, area, run, hc, hs, ht⟩ := h.news x List.mem_cons_self
      exact ⟨wid, v, area, run, hc, hs, k.kept _ _ ht⟩
    · obtain ⟨wid, v, area, run, hc, ht, hu⟩ := k.news x hx
      refine ⟨wid, v, area, run, hc, ?_, hu⟩
      cases hs : s.wave? wid with
      | none => rfl
      | some w => rw [h.kept wid w hs] at ht; cases ht

theorem putWaveAt_some {s t : State} {c lp slot i : Nat} {j : Job} (h : putWaveAt s c j lp slot i = some t) :
    ∃ area run, t = s.setWave (lp * 16 + slot) (newWave s c j i area run) := by
  unfold putWaveAt at h
  simp only at h
  split at h
  · cases h; exact ⟨_, _, rfl⟩
  · cases h

/-- A wave put in a free slot of a lane pair. -/
theorem putWaveAt_placed {s t : State} {c core lp slot i : Nat} {j : Job} (hp : lp / 32 = core) (hs : slot < 16)
    (hf : s.wave? (lp * 16 + slot) = none) (h : putWaveAt s c j lp slot i = some t) : GroupPlaced s t c core j [i] := by
  obtain ⟨area, run, rfl⟩ := putWaveAt_some h
  refine ⟨fun wid w hw => ?_, fun x hx => ?_⟩
  · rw [State.wave?_setWave_ne _ _ (fun e => by rw [e, hf] at hw; cases hw), hw]
  · rw [List.mem_singleton.1 hx]
    refine ⟨_, s, area, run, ?_, hf, State.wave?_setWave ..⟩
    show (lp * 16 + slot) / 512 = core
    omega

theorem putGroup_placed {s t : State} {c core : Nat} {j : Job} {is : List Nat} (h : putGroup s c core j is = some t) :
    GroupPlaced s t c core j is := by
  induction is generalizing s with
  | nil => cases h; exact .nil _ _ _ _
  | cons i is ih =>
    unfold putGroup at h
    split at h
    · cases h
    · next lp hlp =>
      split at h
      · cases h
      · next k hk =>
        obtain ⟨u, hu, h⟩ := Option.bind_eq_some_iff.1 h
        obtain ⟨hk, hf⟩ := freeSlot_some hk
        exact (putWaveAt_placed (pickLane_core hlp) hk hf hu).cons (ih h)

theorem putPair_placed {s t : State} {c core : Nat} {j : Job} {is : List Nat} (hl : is.length ≤ 2)
    (h : putPair s c core j is = some t) : GroupPlaced s t c core j is := by
  unfold putPair at h
  split at h
  · cases h
  · next lp hlp =>
    split at h
    · cases h
    · next k hk =>
      obtain ⟨hk, hf, hg⟩ := freePair_some hk
      have hp := pickLane_core hlp
      match is, hl, h with
      | [], _, h => cases h; exact .nil _ _ _ _
      | [a], _, h => exact putWaveAt_placed hp (by omega) hf (by simpa using h)
      | [a, b], _, h =>
        obtain ⟨u, hu, h⟩ := Option.bind_eq_some_iff.1 (by simpa using h : (putWaveAt s c j lp k a).bind
          (fun s => putWaveAt s c j lp (k + 1) b) = some t)
        refine (putWaveAt_placed hp (by omega) hf hu).cons (putWaveAt_placed hp hk ?_ h)
        obtain ⟨area, run, rfl⟩ := putWaveAt_some hu
        rw [State.wave?_setWave_ne _ _ (by omega), hg]

theorem placeOn_placed {s t : State} {c core : Nat} {j : Job} {is : List Nat} (hl : j.lr.teamPol = 2 → is.length ≤ 2)
    (h : placeOn s c j is core = some t) : GroupPlaced s t c core j is := by
  unfold placeOn at h
  split at h
  · cases h
  · split at h
    · next hp => exact putPair_placed (hl (beq_iff_eq.1 hp)) h
    · exact putGroup_placed h

/-! ### A wave at kernel entry (R15) -/

/-- The register writes of kernel entry. -/
def entryWrites (j : Job) (i : Nat) : List RegW :=
  (List.range j.lr.width).flatMap (fun t =>
      wW 0 t (argsOf j i) false ++ [RegW.v 2 t ⟨BitVec.ofNat 32 (i * j.lr.width + t), false⟩]) ++
    wX 0 (argsOf j i) false ++ [wS 2 (BitVec.ofNat 32 i)]

/-- A wave at kernel entry before them. -/
def bareWave (s : State) (c : Nat) (j : Job) (i : Nat) (area run : Nat × Nat) : Wave :=
  { ctx := c, width := j.lr.width, budget := j.lr.budget, age := s.clk.tick, job := j.id, index := i, tc := j.lr.tc,
    areas := [area], runs := [run],
    paths := { e := { kind := PKind.path, pc := j.lr.entry, mask := maskOf (List.range j.lr.width) } } :: List.replicate 15 {} }

theorem newWave_pokes (s : State) (c : Nat) (j : Job) (i : Nat) (area run : Nat × Nat) :
    newWave s c j i area run = (entryWrites j i).foldl Wave.poke (bareWave s c j i area run) := rfl

/-- Putting register values changes the three register files alone. -/
theorem pokes_files (ws : List RegW) (w : Wave) :
    ∃ v s p, ws.foldl Wave.poke w = { w with vregs := v, sregs := s, preds := p } := by
  induction ws generalizing w with
  | nil => exact ⟨_, _, _, rfl⟩
  | cons x ws ih =>
    obtain ⟨v, s, p, h⟩ := ih (w.poke x)
    refine ⟨v, s, p, ?_⟩
    rw [List.foldl_cons, h]
    cases x <;> rfl

/-- It leaves the registers that the same writes at issue leave. -/
theorem pokes_regs (ws : List RegW) {a b : Wave} (h : a.vregs = b.vregs ∧ a.sregs = b.sregs ∧ a.preds = b.preds) :
    (ws.foldl Wave.poke a).vregs = (b.writes 0 ws).vregs ∧ (ws.foldl Wave.poke a).sregs = (b.writes 0 ws).sregs ∧
      (ws.foldl Wave.poke a).preds = (b.writes 0 ws).preds := by
  induction ws generalizing a b with
  | nil => exact h
  | cons x ws ih =>
    refine ih ?_
    obtain ⟨hv, hs, hp⟩ := write_regs b 0 x
    obtain ⟨kv, ks, kp⟩ := h
    rw [hv, hs, hp]
    cases x <;> simp [Wave.poke, kv, ks, kp]

/-- Each write of kernel entry names a register of its own. -/
theorem entryWrites_apart {j : Job} (i : Nat) (h : j.lr.width ≤ 64) :
    (entryWrites j i).Pairwise (fun a b => a.place ≠ b.place) := by
  have vec : ((List.range j.lr.width).flatMap
      (fun t => wW 0 t (argsOf j i) false ++ [RegW.v 2 t ⟨BitVec.ofNat 32 (i * j.lr.width + t), false⟩])).Pairwise
        (fun a b => a.place ≠ b.place) := by
    rw [List.pairwise_flatMap]
    refine ⟨fun t _ => by simp [wW, RegW.place, vKey], ?_⟩
    refine List.pairwise_lt_range.imp_of_mem fun {t u} ht hu lt x hx y hy => ?_
    have ht := List.mem_range.1 ht
    have hu := List.mem_range.1 hu
    simp only [wW, List.cons_append, List.nil_append, List.mem_cons, List.not_mem_nil, or_false] at hx hy
    rcases hx with rfl | rfl | rfl <;> rcases hy with rfl | rfl | rfl <;> simp [RegW.place, vKey] <;> omega
  unfold entryWrites
  rw [List.append_assoc, List.pairwise_append]
  refine ⟨vec, by simp [wX, wS, RegW.place], fun x hx y hy => ?_⟩
  obtain ⟨t, -, hx⟩ := List.mem_flatMap.1 hx
  simp only [wW, wX, List.cons_append, List.nil_append, List.mem_cons, List.not_mem_nil, or_false] at hx hy
  rcases hx with rfl | rfl | rfl <;> rcases hy with rfl | rfl | rfl <;> simp [RegW.place]

/-- They name v0 to v2 and s0 to s2. -/
theorem entryWrites_place {j : Job} {i : Nat} {x : RegW} (h : j.lr.width ≤ 64) (hx : x ∈ entryWrites j i) :
    (x.place.1 = 0 ∧ x.place.2 < 192) ∨ (x.place.1 = 1 ∧ x.place.2 < 3) := by
  unfold entryWrites at hx
  rw [List.append_assoc, List.mem_append, List.mem_flatMap] at hx
  rcases hx with ⟨t, ht, hx⟩ | hx
  · have ht := List.mem_range.1 ht
    simp only [wW, List.cons_append, List.nil_append, List.mem_cons, List.not_mem_nil, or_false] at hx
    rcases hx with rfl | rfl | rfl <;> simp [RegW.place, vKey] <;> omega
  · simp only [wX, List.cons_append, List.nil_append, List.mem_cons, List.not_mem_nil, or_false] at hx
    rcases hx with rfl | rfl | rfl <;> simp [RegW.place]

section
variable (s : State) (c : Nat) (j : Job) (i : Nat) (area run : Nat × Nat)

theorem newWave_fields : let v := newWave s c j i area run
    v.ctx = c ∧ v.job = j.id ∧ v.index = i ∧ v.width = j.lr.width ∧ v.budget = j.lr.budget ∧ v.state = .running ∧
      v.owed = [] ∧ (v.path 0).e = { kind := .path, pc := j.lr.entry, mask := maskOf (List.range j.lr.width) } := by
  obtain ⟨v, r, p, h⟩ := pokes_files (entryWrites j i) (bareWave s c j i area run)
  rw [newWave_pokes, h]
  exact ⟨rfl, rfl, rfl, rfl, rfl, rfl, rfl, rfl⟩

/-- Every write of kernel entry holds. -/
theorem newWave_held (h : j.lr.width ≤ 64) {x : RegW} (hx : x ∈ entryWrites j i) : x.held (newWave s c j i area run) :=
  (held_congr (pokes_regs _ ⟨rfl, rfl, rfl⟩) x).2
    ((writes_held 0 _ (bareWave s c j i area run) (entryWrites_apart i h)).1 x hx)

/-- A register that none of them names is 0, with its tag clear. -/
theorem newWave_clear {y : RegW} (hy : ∀ x ∈ entryWrites j i, y.place ≠ x.place) (h0 : y.held (bareWave s c j i area run)) :
    y.held (newWave s c j i area run) :=
  (held_congr (pokes_regs _ ⟨rfl, rfl, rfl⟩) y).2 ((writes_other 0 _ (bareWave s c j i area run) y hy).2 h0)

end

theorem holds_of_held {t : State} {wid : Nat} {v : Wave} {x : RegW} (h : t.wave? wid = some v) (hx : x.held v) :
    Holds t wid x := by
  cases x <;> simpa [Holds, RegW.held, vAt, sAt, pAt, h] using hx

/-- A wave at kernel entry holds its arguments, its number and its thread numbers, and every other register is clear. -/
theorem newWave_registers {s t : State} {c i wid : Nat} {j : Job} {area run : Nat × Nat} (h : j.lr.width ≤ 64)
    (ht : t.wave? wid = some (newWave s c j i area run)) :
    HoldsAll t wid (wX 0 (argsOf j i) false ++ [wS 2 (BitVec.ofNat 32 i)]) ∧
    (∀ x, x < j.lr.width → HoldsAll t wid (wW 0 x (argsOf j i) false ++
      [.v 2 x ⟨BitVec.ofNat 32 (i * j.lr.width + x), false⟩])) ∧
    ∀ r x, 3 ≤ r → vAt t wid r x = ⟨0, false⟩ ∧ sAt t wid r = ⟨0, false⟩ ∧ pAt t wid (r - 3) x = ⟨false, false⟩ := by
  have written {x : RegW} (hx : x ∈ entryWrites j i) : Holds t wid x :=
    holds_of_held ht (newWave_held s c j i area run h hx)
  have clear {y : RegW} (hy : ∀ x ∈ entryWrites j i, y.place ≠ x.place) (h0 : y.held (bareWave s c j i area run)) :
      Holds t wid y := holds_of_held ht (newWave_clear s c j i area run hy h0)
  refine ⟨fun x hx => written ?_, fun n hn x hx => written ?_, fun r n hr => ⟨?_, ?_, ?_⟩⟩
  · rw [entryWrites, List.append_assoc]
    exact List.mem_append_right _ hx
  · exact List.mem_append_left _ (List.mem_append_left _ (List.mem_flatMap.2 ⟨n, List.mem_range.2 hn, hx⟩))
  · refine clear (y := .v r n ⟨0, false⟩) (fun x hx e => ?_) rfl
    have := entryWrites_place h hx
    rw [← e] at this
    simp only [RegW.place, vKey] at this
    omega
  · refine clear (y := .s r ⟨0, false⟩) (fun x hx e => ?_) rfl
    have := entryWrites_place h hx
    rw [← e] at this
    simp only [RegW.place] at this
    omega
  · refine clear (y := .p (r - 3) n ⟨false, false⟩) (fun x hx e => ?_) rfl
    have := entryWrites_place h hx
    rw [← e] at this
    simp only [RegW.place] at this
    omega

/-! ### DISPATCH_PLACEMENT (R181, R183) -/

theorem noteHeads_unitsKept (s : State) (c : Nat) : UnitsKept s (noteHeads s c) := by
  refine foldl_unitsKept (fun s q => ?_) _ s
  unfold noteHead
  split
  · split
    · exact .refl s
    · exact ⟨(updCtx_unitsKept s c _).waves, (updCtx_unitsKept s c _).cores⟩
  · exact .refl s

theorem UnitsKept.wave? {s t : State} (h : UnitsKept s t) (wid : Nat) : t.wave? wid = s.wave? wid := by
  simp only [State.wave?, h.waves]

theorem UnitsKept.core {s t : State} (h : UnitsKept s t) (k : Nat) : t.core k = s.core k := by
  simp only [State.core, h.cores]

theorem dispatch_picked {s u : State} {c k : Nat} {j : Job} {is : List Nat}
    (hp : pickPlace (noteHeads s c) c = some (j, is, k, u)) (hr : rivalTurn (noteHeads s c) c k = none) :
    dispatch s c = notePlaced u c k j is := by
  unfold dispatch
  simp only [hp]
  rw [hr]

/-- The group that is picked is placed on its core, whose turn goes on, on a die that its record allows. -/
theorem dispatch_places {s u : State} {c k : Nat} {j : Job} {is : List Nat}
    (hp : pickPlace (noteHeads s c) c = some (j, is, k, u)) (hr : rivalTurn (noteHeads s c) c k = none)
    (hl : j.lr.teamPol = 2 → is.length ≤ 2) : Goes (.dispatchPlacement c) s fun t =>
      (t.core k).turn = c ∧ j.lr.dieOk (k / 32) = true ∧ GroupPlaced s t c k j is := by
  have placed : exec (.dispatchPlacement c) s = .next (notePlaced u c k j is) :=
    congrArg Host.Outcome.next (dispatch_picked hp hr)
  obtain ⟨hk, ho⟩ := pickPlace_some hp
  have group := placeOn_placed hl ho
  have units := notePlaced_unitsKept u c k j is
  have before (wid : Nat) : (noteHeads s c).wave? wid = s.wave? wid := (noteHeads_unitsKept s c).wave? wid
  have after (wid : Nat) : (notePlaced u c k j is).wave? wid = u.wave? wid := units.wave? wid
  refine ⟨_, placed, ?_, dieOk_of_coreOrder hk, ⟨fun wid w hw => ?_, fun i hi => ?_⟩⟩
  · rw [units.core, State.core_setCore]
  · rw [after]
    exact group.kept wid w (by rw [before, hw])
  · obtain ⟨wid, v, area, run, hc, hs, ht⟩ := group.news i hi
    exact ⟨wid, v, area, run, hc, by rw [← before, hs], by rw [after, ht]⟩

/-! ### Copies (R308 to R312) -/

theorem copy?_id {s : State} {id : Nat} {c : Copy} (h : s.copy? id = some c) : c.id = id := by
  simpa using List.find?_some h

@[simp] theorem copyProg_copies (s : State) (c : Copy) (a b : Bool) : (copyProg s c a b).copies = s.copies :=
  State.updWave_copies ..

@[simp] theorem endTileOp_copies (s : State) (core id : Nat) : (s.endTileOp core id).copies = s.copies := rfl

/-- Setting a copy sets every entry of its number. -/
theorem eq_of_mem_setCopy {s : State} {c y : Copy} (h : y ∈ (s.setCopy c).copies) (hy : y.id = c.id) : y = c := by
  obtain ⟨x, -, rfl⟩ := List.mem_map.1 h
  by_cases e : (x.id == c.id) = true
  · simp [e]
  · simp only [e, Bool.false_eq_true, if_false] at hy
    simp [hy] at e

theorem copy?_setCopy {s : State} {id : Nat} {c d : Copy} (h : s.copy? id = some c) (hd : d.id = id) :
    (s.setCopy d).copy? id = some d := by
  have found : ∃ y, (s.setCopy d).copy? id = some y := by
    rw [← Option.isSome_iff_exists]
    refine List.find?_isSome.2 ⟨d, List.mem_map.2 ⟨c, List.mem_of_find?_eq_some h, ?_⟩, by simp [hd]⟩
    simp [copy?_id h, hd]
  obtain ⟨y, hy⟩ := found
  rw [hy, eq_of_mem_setCopy (List.mem_of_find?_eq_some hy) (by rw [copy?_id hy, hd])]

@[simp] theorem teamOpDone_copies (s : State) (t : Option Nat) : (teamOpDone s t).copies = s.copies := by
  unfold teamOpDone
  split
  · rfl
  · simp only
    split <;> rfl

/-- A copy that is dropped is gone. -/
theorem dropCopy_copies (s : State) (c : Copy) (f : Bool) :
    (dropCopy s c f).copies = s.copies.filter (fun x => x.id != c.id) := by
  cases ht : c.team <;> cases hh : c.hazard <;> simp [dropCopy, ht, hh, apply_ite State.copies]

/-- The copy begins once its record has been read and checked, nothing stops it, and its tile is free. -/
theorem startCopy_begins {s u : State} {id : Nat} {c : Copy} {h : TShape} (hc : s.copy? id = some c)
    (hs : c.started = false) (hr : ctxRuns s c.ctx = true) (hh : readShape s c = .ok h u)
    (hk : h.empty = true ∨ shapeCheck u c h = none) (hb : copyBkpt u c h = none)
    (ht : (c.op == 2 && !h.empty && tileBusy (u.core c.core) [] [(bits h.dense 0 4).toNat] none) = false) :
    startCopy s id = beginCopy u c h := by
  have checked : (if h.empty then none else shapeCheck u c h) = none := by
    rcases hk with hk | hk
    · rw [if_pos hk]
    · rw [hk, ite_self]
  unfold startCopy
  simp only [hc, hs, hr, hh, checked, hb, ht, Bool.not_true, Bool.false_eq_true, if_false]

theorem reportStop_parked {s u : State} {c : Copy} {f : FaultInfo} (hp : parkOwner s c (.copy c.id) f = .parked u) :
    reportStop s c f = copyProg (u.setCopy { c with failure := none }) { c with failure := none } true true := by
  simp only [reportStop, hp]

/-- A copy whose next line fails stops, its owner parked. -/
theorem stopCopy_parks {s u : State} {id : Nat} {c : Copy} {h : TShape} {f : Fail} (hc : s.copy? id = some c)
    (hh : c.shape = some h) (hf : c.failure = none) (hs : c.stopped = false) (hl : c.landed = false)
    (hm : moveLine s c h = .fail f) (hp : parkOwner s { c with stopped := true } (.copy id) f = .parked u) :
    stopCopy s id = copyProg (u.setCopy { c with stopped := true, failure := none })
      { c with stopped := true, failure := none } true true := by
  have reported : stopCopy s id = reportStop s { c with stopped := true } f := by
    unfold stopCopy
    simp only [hc, hh, hf, hs, hl, hm, Bool.or_self, Bool.false_eq_true, if_false]
  rw [reported, reportStop_parked]
  rw [← hp, copy?_id hc]

theorem copyStop_stops {s u : State} {id : Nat} {c : Copy} {h : TShape} {f : Fail} (hc : s.copy? id = some c)
    (hh : c.shape = some h) (hf : c.failure = none) (hs : c.stopped = false) (hl : c.landed = false)
    (hm : moveLine s c h = .fail f) (hp : parkOwner s { c with stopped := true } (.copy id) f = .parked u) :
    Goes (.copyStop id) s fun t => ∀ y ∈ t.copies, y.id = id → y.stopped = true := by
  refine goes_settleHits rfl (stopCopy_parks hc hh hf hs hl hm hp)
    fun t ht y hy hid => ?_
  rw [ht.copies, copyProg_copies] at hy
  rw [eq_of_mem_setCopy hy (hid.trans (copy?_id hc).symm)]

section
variable {s u : State} {id : Nat} {c : Copy} {h : TShape} (hc : s.copy? id = some c) (hh : c.shape = some h)
  (hl : c.landed = true) (hn : c.chained = true)
include hc hh hl hn

/-- A landed copy that has no follow-on MMA left ends once its counter has advanced (R310, R312). -/
theorem completeCopy_ends {t : State} {d : Copy} (ht : payCopy (copyProg (s.endTileOp c.core id) c false false) c h = t)
    (hd : t.copy? id = some d) (hp : d.paid = true) (hq : d.chained = true) : completeCopy s id = dropCopy t d h.empty := by
  have still : (copyProg (s.endTileOp c.core id) c false false).copy? id = some c := by
    simpa [State.copy?] using hc
  have unchained (t : State) : chainMma t c h = t := by simp [chainMma, hn]
  unfold completeCopy
  simp only [hc, hh, hl, unchained, still, ht, hd, hp, hq, Bool.not_true, Bool.and_self, Bool.false_eq_true, if_true, if_false]

theorem completeCopy_paid (hp : c.paid = true) :
    completeCopy s id = dropCopy (copyProg (s.endTileOp c.core id) c false false) c h.empty :=
  completeCopy_ends hc hh hl hn (by simp [payCopy, hp]) (by simpa [State.copy?] using hc) hp hn

theorem completeCopy_pays (hp : c.paid = false)
    (hz : (logFull (copyProg (s.endTileOp c.core id) c false false) c.ctx &&
      sealWaits (copyProg (s.endTileOp c.core id) c false false) c.ctx) = false)
    (hb : bump (logRoom (copyProg (s.endTileOp c.core id) c false false) c.ctx) c.core c.ctx h.cnt h.incr = .ok () u)
    (hu : u.copy? id = some c) :
    completeCopy s id = dropCopy (u.setCopy { c with paid := true }) { c with paid := true } h.empty :=
  completeCopy_ends hc hh hl hn (by simp [payCopy, hp, withRoom_ready _ _ hz, hb])
    (copy?_setCopy hu (copy?_id hc : c.id = id)) rfl hn

theorem copyComplete_drops (hp : c.paid = true) : Goes (.copyComplete id) s fun t => ∀ y ∈ t.copies, y.id ≠ id := by
  refine goes_settleHits rfl (completeCopy_paid hc hh hl hn hp)
    fun t ht y hy => ?_
  rw [ht.copies, dropCopy_copies, copy?_id hc] at hy
  simpa using (List.mem_filter.1 hy).2

end

/-! ### The increment of a counter (R119) -/

/-- Bytes written read back. -/
theorem Memory.readN_writeN (m : List Host.Cell) {bs : List Byte} {n : Nat} (a : Nat) (h : bs.length = n) :
    Memory.readN (Memory.writeN m a bs) a n = bs := by
  subst h
  induction bs generalizing m a with
  | nil => rfl
  | cons b bs ih =>
    simp only [List.length_cons, Memory.readN, Memory.writeN, ih]
    rw [Memory.read_writeN_out _ _ _ _ (by omega), Memory.read_write]

theorem length_leBytes (v n : Nat) : (leBytes v n).length = n := by
  induction n generalizing v with
  | zero => rfl
  | succ n ih => simp [leBytes, ih]

/-- A token taken from buckets leaves memory and homes (R99). -/
theorem charge_home {s t : State} {c dev : Nat} (h : charge s c dev = some t) : t.mem = s.mem ∧ t.homes = s.homes := by
  have taken (k : Nat) (cs : List Nat) (s : State) (h : takeTokens s k cs = some t) : t.mem = s.mem ∧ t.homes = s.homes := by
    induction cs generalizing s with
    | nil => cases h; exact ⟨rfl, rfl⟩
    | cons c cs ih =>
      cases hx : s.ctx? c with
      | none => exact ih s (by simpa [takeTokens, hx] using h)
      | some x =>
        cases hb : x.bucket with
        | none => exact ih s (by simpa [takeTokens, hx, hb] using h)
        | some b =>
          simp only [takeTokens, hx, hb] at h
          split at h
          · cases h
          · exact ih (s.setCtx c _) h
  exact taken _ _ s h

theorem foldl_setDie_home (f : State → Nat → Die) (l : List Nat) (s : State) :
    (l.foldl (fun s d => s.setDie d (f s d)) s).mem = s.mem ∧ (l.foldl (fun s d => s.setDie d (f s d)) s).homes = s.homes := by
  induction l generalizing s with
  | nil => exact ⟨rfl, rfl⟩
  | cons d l ih => exact ih _

theorem withMarks_home (s t : State) : (withMarks s t).mem = t.mem ∧ (withMarks s t).homes = t.homes :=
  foldl_setDie_home (fun u d => { u.die d with homeMark := (s.die d).homeMark }) _ t

theorem joinMarks_mem (t u : State) : (joinMarks t u).mem = u.mem :=
  (foldl_setDie_home (fun v d => { v.die d with homeMark := max (v.die d).homeMark (t.die d).homeMark }) _ u).1

theorem alongside_ok {α : Type} {s t u : State} {f : State → Res α} {a : α} (h : alongside s t f = .ok a u) :
    ∃ v, f (withMarks s t) = .ok a v ∧ u = joinMarks t v := by
  unfold alongside at h
  split at h
  · next b v hv =>
    cases h
    exact ⟨v, hv, rfl⟩
  · next hn => exact absurd h (hn a u)

/-- A line that no die holds is recalled from none. -/
theorem recallAll_free {s : State} {l : Nat} (h : s.dirOf l = {}) : recallAll s l = .ok () (s.setDir l {}) := by
  have unheld : holdersOf s l = [] := by simp [holdersOf, h]
  simp [recallAll, h, unheld, DirWord.rshare]

/-- A clockless change of a line that no die holds changes its bytes at home. -/
theorem clUpdate_mem {s u : State} {dev n : Nat} {w : Bool} {f : List Byte → List Byte} {a : List Byte × Bool}
    (hd : s.dirOf (lineOf dev) = {}) (hh : s.homes.dual = []) (h : clUpdate s dev n w f = .ok a u) :
    u.mem = Memory.writeN s.mem dev (f (Memory.readN s.mem dev n)) := by
  unfold clUpdate at h
  simp only [recallAll_free hd] at h
  split at h
  · cases h
  · split at h
    · cases h
    · cases h
      have written (t : State) (bs : List Byte) (ht : t.homes.dual = []) :
          (homeWrite t dev bs).mem = Memory.writeN t.mem dev bs := by
        simp [homeWrite, ht]
      split <;> exact written (s.setDir (lineOf dev) {}) _ hh

theorem clAdd_mem {s u : State} {dev n : Nat} {a : Unit} (hd : s.dirOf (lineOf dev) = {}) (hh : s.homes.dual = [])
    (h : clAdd s dev n = .ok a u) :
    u.mem = Memory.writeN s.mem dev (leBytes ((leNat (Memory.readN s.mem dev 8) + n) % 0x10000000000000000) 8) := by
  unfold clAdd at h
  split at h
  · cases h
  · cases h
  · next hu =>
    cases h
    exact clUpdate_mem hd hh hu

theorem logLine_mem (s : State) (c key : Nat) (old : List Byte) (p : Bool) : (logLine s c key old p).mem = s.mem := by
  unfold logLine
  simp only
  split
  · rfl
  · split <;> rfl

theorem wrote_mem (s : State) (key n : Nat) : (wrote s key n).mem = s.mem := by
  have soon (l : List Instr) (s : State) : (l.foldl State.ensureSoon s).mem = s.mem := by
    induction l generalizing s with
    | nil => rfl
    | cons e l ih =>
      rw [List.foldl_cons, ih]
      unfold State.ensureSoon
      split <;> rfl
  exact soon _ s

/-- A counter that advances holds the sum modulo 2^64. -/
theorem bump_adds {s y t u : State} {core c n : Nat} {p : Word64} {x : Xl} (hp : checkPtr p 8 .globalDev = none)
    (hx : translate s core c p pRW = .ok (x, y)) (hf : combineFirst y x.dev = .ok () t)
    (hd : t.dirOf (lineOf x.dev) = {}) (hh : t.homes.dual = []) (hb : bump s core c p n = .ok () u) :
    Memory.readN u.mem x.dev 8 = leBytes ((leNat (Memory.readN t.mem x.dev 8) + n) % 0x10000000000000000) 8 := by
  unfold bump at hb
  simp only [hp, hx, hf] at hb
  split at hb
  · cases hb
  · cases hb
  · next a v hv =>
    split at hv
    · cases hv
    · next k hk =>
      obtain ⟨km, kh⟩ := charge_home hk
      obtain ⟨z, hz, rfl⟩ := alongside_ok hv
      obtain ⟨mm, mh⟩ := withMarks_home y k
      have added := clAdd_mem (by rw [← hd]; simp only [State.dirOf, mh, kh]) (by rw [mh, kh, hh]) hz
      have mem : u.mem = z.mem := by
        cases hb
        rw [wrote_mem]
        split
        · rw [joinMarks_mem]
        · rw [logLine_mem, joinMarks_mem]
      rw [mem, added, mm, km]
      exact Memory.readN_writeN _ _ (length_leBytes _ 8)

/-! ### Requests of an engine (R313, R314) -/

theorem Unwound.scope {s t : State} (h : Unwound s t) (k : Nat) : (t.core k).scope = (s.core k).scope :=
  show ({ t.core k with launches := [] } : Core).scope = _ from h.cores k ▸ rfl

theorem Unwound.traceQ {s t : State} (h : Unwound s t) (k : Nat) : (t.core k).traceQ = (s.core k).traceQ :=
  show ({ t.core k with launches := [] } : Core).traceQ = _ from h.cores k ▸ rfl

theorem request?_id {s : State} {core id : Nat} {r : Request} (h : s.request? core id = some r) : r.id = id := by
  simpa using List.find?_some h

/-- The work of a request is over: every entry of its number has ended, and its completion is due. -/
theorem endRequest_ends (s : State) (core : Nat) (r : Request) :
    (∀ q ∈ ((endRequest s core r).core core).scope, q.id = r.id → q.ended = true) ∧
      .engineRequestComplete core r.id ∈ (endRequest s core r).sch.agenda := by
  refine ⟨fun q hq hid => ?_, List.mem_append_right _ List.mem_cons_self⟩
  have scope : ((endRequest s core r).core core).scope =
      (s.core core).scope.map (fun x => if x.id == r.id then { r with begun := true, ended := true } else x) := by
    have soon (t : State) (e : Instr) : (t.soon e).core core = t.core core := rfl
    rw [endRequest, soon, State.endTileOp, State.core_setCore, State.setRequest, State.core_setCore]
  rw [scope] at hq
  obtain ⟨x, -, rfl⟩ := List.mem_map.1 hq
  by_cases e : (x.id == r.id) = true
  · simp [e]
  · simp only [e, Bool.false_eq_true, if_false] at hid
    simp [hid] at e

section
variable {s : State} {core id : Nat} {r : Request} {e : Instr} {op : State → Nat → Request → Res Request}
  (hr : s.request? core id = some r) (he : r.ended = false) (hc : ctxRuns s r.ctx = true) (hb : r.begun = true)
  (hl : (logFull (s.setRequest core { r with begun := true }) r.ctx &&
    sealWaits (s.setRequest core { r with begun := true }) r.ctx) = false)
include hr he hc hb hl

/-- After its last element a request ends. -/
theorem engineRun_ends (hd : r.count ≤ r.done) : engineRun s core id e op =
    endRequest (logRoom (s.setRequest core { r with begun := true }) r.ctx) core { r with begun := true } := by
  unfold engineRun
  rw [hr]
  dsimp only
  rw [if_neg (by simp [he]), if_neg (by simp [hc]), if_neg (by simp [hb]), if_neg (by simp [hb]), withRoom_ready _ _ hl]
  exact if_pos hd

/-- Before it, one operation of a request is performed, and the next is due a cycle later. -/
theorem engineRun_acts {q : Request} {u : State} (hd : r.done < r.count)
    (ho : op (logRoom (s.setRequest core { r with begun := true }) r.ctx) core { r with begun := true } = .ok q u) :
    engineRun s core id e op = (u.setRequest core q).after 1 e := by
  unfold engineRun
  rw [hr]
  dsimp only
  rw [if_neg (by simp [he]), if_neg (by simp [hc]), if_neg (by simp [hb]), if_neg (by simp [hb]), withRoom_ready _ _ hl, ho]
  exact if_neg (Nat.not_le.2 hd)

end

theorem exec_engine {s : State} {core id : Nat} {e : Instr} {op : State → Nat → Request → Res Request}
    (h : (e, op) ∈ [(Instr.gather core id, gatherStep), (.bilerp core id, bilerpStep), (.search core id, searchStep)]) :
    exec e s = .next (settleHits (engineRun s core id e op)) := by
  simp only [List.mem_cons, Prod.mk.injEq, List.not_mem_nil, or_false] at h
  rcases h with ⟨rfl, rfl⟩ | ⟨rfl, rfl⟩ | ⟨rfl, rfl⟩ <;> rfl

/-- A request whose record is written and whose counter has advanced leaves its queue. -/
theorem completeRequest_leaves {s u v : State} {core id : Nat} {r : Request} (hr : s.request? core id = some r)
    (he : r.ended = true) (hn : r.noted = false) (hl : (logFull s r.ctx && sealWaits s r.ctx) = false)
    (hw : writeCrec (logRoom s r.ctx) core r = .ok () u)
    (ha : advanceCnt (u.setRequest core { r with noted := true }) core { r with noted := true } = .ok () v) :
    completeRequest s core id =
      v.setCore core { v.core core with scope := (v.core core).scope.filter (fun x => x.id != id) } := by
  unfold completeRequest
  rw [hr]
  dsimp only
  rw [if_neg (by simp [he]), withRoom_ready _ _ hl, if_neg (by simp [hn]), hw]
  dsimp only
  rw [ha]

/-! ### The array (R327) -/

/-- An entry that is over leaves the queue of its core. -/
theorem arrEnd_arrayQ (s : State) (core : Nat) (o : ArrOp) :
    ((arrEnd s core o).core core).arrayQ = (s.core core).arrayQ.filter (fun x => x.id != o.id) := by
  have upd (t : State) (f : Wave → Wave) : (t.updWave o.wave f).core core = t.core core := by
    simp only [State.core, State.updWave_cores]
  rw [arrEnd, upd, State.core_setCore, State.endTileOp, State.core_setCore]

theorem arrComplete_leaves {s : State} {core : Nat} {o : ArrOp} (ho : arrHead s core = some o) (hd : o.total ≤ o.done) :
    ∀ x ∈ ((arrComplete s core).core core).arrayQ, x.id ≠ o.id := by
  unfold arrComplete
  simp only [ho, Nat.not_lt.2 hd, if_false]
  generalize hz : arrEnd _ core o = z
  have left : ∀ x ∈ (z.core core).arrayQ, x.id ≠ o.id := by
    rw [← hz, arrEnd_arrayQ]
    exact fun x hx => by simpa using (List.mem_filter.1 hx).2
  split
  · next n hn =>
    have next : n ∈ (z.core core).arrayQ := List.mem_of_find?_eq_some hn
    split
    · intro x hx
      rw [State.setMprog, State.core_setCore, State.setArr, State.core_setCore] at hx
      obtain ⟨y, hy, rfl⟩ := List.mem_map.1 hx
      split
      · exact left n next
      · exact left y hy
    · exact left
  · exact left

/-! ### Rings (R195 to R198) -/

/-- A ring that is owed nothing more when it has been written rests. -/
theorem serveRing_written {s u v w z : State} {c : Nat} (ht : ringToken s c = true) (hu : writeHeader s c = .ok () u)
    (hv : writeVoids u c 4096 = .ok () v) (hw : writeLost v c = .ok () w) (hz : writeHeld w c 1 = .ok false z)
    (hh : (ringOf z c).held = []) : serveRing s c = z := by
  unfold serveRing
  simp only [ht, hu, hv, hw, hz, hh, Bool.not_true, Bool.false_eq_true, if_false, List.isEmpty_nil, if_true]

theorem execRingRecordWrite_serves {s : State} {c : Nat} {x : Ctx} (hx : s.ctx? c = some x)
    (h : (ringOf s c).report = none ∨ s.sch.timers.all (fun t => t.ev != .ringWriteRetry c) = true) :
    exec (.ringRecordWrite c) s = .next (settleHits (serveRing s c)) := by
  have free : ((ringOf s c).report.isSome && s.sch.timers.any (fun t => t.ev == .ringWriteRetry c)) = false := by
    rcases h with h | h
    · simp [h]
    · rw [Bool.and_eq_false_iff]
      exact .inr (by simpa using h)
  show execRingRecordWrite c s = _
  simp only [execRingRecordWrite, hx, Option.isNone_some, free, Bool.false_eq_true, if_false]

theorem execRingWriteRetry_serves {s : State} {c : Nat} {x : Ctx} (hx : s.ctx? c = some x) :
    exec (.ringWriteRetry c) s = .next (settleHits (serveRing s c)) := by
  show execRingWriteRetry c s = _
  simp only [execRingWriteRetry, hx, Option.isNone_some, Bool.false_eq_true, if_false]

/-- A core with no refused launch has none to try again. -/
theorem lateLaunches_none {s : State} {wid : Nat} (h : ∀ x ∈ (s.core (coreOf wid)).launches, x.refused = none) :
    lateLaunches s wid = s := by
  unfold lateLaunches
  generalize (s.core (coreOf wid)).launches = l at h
  induction l with
  | nil => rfl
  | cons x l ih =>
    rw [List.foldl_cons, h x List.mem_cons_self]
    exact ih fun y hy => h y (List.mem_cons_of_mem _ hy)

theorem updOutst_ctx? (s : State) (c id : Nat) (f : Outst → Outst) : (s.updOutst c id f).ctx? c =
    (s.ctx? c).map fun x =>
      { x with ring := { x.ring with out := x.ring.out.map fun o => if o.serial == id then f o else o } } := by
  show (s.updCtx c _).ctx? c = _
  cases h : s.ctx? c <;> simp [State.updCtx, h]

/-- The record found by a serial once the records of that serial are changed is a changed one, whether its context has it or,
once that is gone, the device. -/
theorem outst?_updOutst {s : State} {c id : Nat} {f : Outst → Outst} {p : Outst}
    (h : (s.updOutst c id f).outst? c id = some p) : ∃ o, p = f o := by
  have changed (o : Outst) (ho : ((if o.serial == id then f o else o).serial == id) = true) :
      (if o.serial == id then f o else o) = f o := by
    by_cases e : (o.serial == id) = true
    · rw [if_pos e]
    · rw [if_neg e] at ho
      exact absurd ho e
  unfold State.outst? at h
  split at h
  · next q hq =>
    cases h
    obtain ⟨x, hx, hp⟩ := Option.bind_eq_some_iff.1 hq
    rw [updOutst_ctx?] at hx
    obtain ⟨y, -, rfl⟩ := Option.map_eq_some_iff.1 hx
    have key := List.find?_some hp
    obtain ⟨o, -, rfl⟩ := List.mem_map.1 (List.mem_of_find?_eq_some hp)
    exact ⟨o, changed o key⟩
  · obtain ⟨y, hy, rfl⟩ := Option.map_eq_some_iff.1 h
    have key := List.find?_some hy
    obtain ⟨z, -, rfl⟩ := List.mem_map.1 (List.mem_of_find?_eq_some hy)
    simp only [Bool.and_eq_true] at key
    by_cases e : (z.1 == c) = true
    · simp only [e, if_true] at key ⊢
      exact ⟨z.2, changed z.2 key.2⟩
    · simp only [e, Bool.false_eq_true, if_false] at key
      exact key.1.elim

/-- Reports are as before. -/
theorem ringOf_updOutst_report (s : State) (c id : Nat) (f : Outst → Outst) :
    (ringOf (s.updOutst c id f) c).report = (ringOf s c).report := by
  unfold ringOf
  rw [updOutst_ctx?]
  cases s.ctx? c <;> rfl

/-- The first reply to a record that parks no path is noted and written (R198). -/
theorem replyTo_writes {s : State} {c id n : Nat} {o p : Outst} (ho : s.outst? c id = some o) (hc : o.closed = false)
    (hd : o.done = false) (hp : o.path = none) (hr : (ringOf s c).report ≠ some id)
    (hl : ∀ x ∈ (s.core (coreOf o.wave)).launches, x.refused = none)
    (hz : (s.updOutst c id fun o => { o with done := true, action := n }).outst? c id = some p) :
    replyTo s c id n = writeDone (s.updOutst c id fun o => { o with done := true, action := n }) c p n := by
  generalize hu : (s.updOutst c id fun o => { o with done := true, action := n }) = z at hz ⊢
  have cores : z.cores = s.cores := by rw [← hu]; exact State.updCtx_cores ..
  have idle : lateLaunches (replyPath z c o n) o.wave = z := by
    have stays : replyPath z c o n = z := by simp [replyPath, hp]
    rw [stays, lateLaunches_none (by simpa only [State.core, cores] using hl)]
  have other : ((ringOf z c).report == some id) = false := by
    rw [← hu, ringOf_updOutst_report]
    simpa using hr
  unfold replyTo
  simp only [ho, hc, hd, hu, idle, other, hz, Bool.false_eq_true, if_false]

theorem writeDone_written {s u : State} {c n d : Nat} {p : Outst} {a : List Byte} (hp : p.reply = some d)
    (h : ringChange s (p.ring.getD c) d 8 (fun _ => leBytes (0x8000000000000000 + n) 8) = .ok a u) :
    writeDone s c p n = closeOutst u c p := by
  simp only [writeDone, hp, h]

theorem writeDone_ringless {s : State} {c n : Nat} {p : Outst} (hp : p.reply = none) (hr : p.ring = none) :
    writeDone s c p n = closeOutst s c p := by
  simp only [writeDone, hp, hr, Option.isNone_none, if_true]

theorem execRingReply_replies {s : State} {c id n : Nat} (h1 : 1 ≤ n) (h3 : n ≤ 3) :
    exec (.ringReply c id n) s = .next (settleHits (replyTo s c id n)) := by
  show execRingReply c id n s = _
  simp [execRingReply, h1, h3]

/-! ### Observation (R214, R216) -/

/-- The oldest trace record is written, and leaves its queue. -/
theorem writeTrace_pops {s u v : State} {core : Nat} {x : Ctx} {r : TraceRec} {rest : List TraceRec}
    (hq : (s.core core).traceQ = r :: rest) (hx : s.ctx? r.ctx = some x) (ho : bit x.obsCtl 0 = true)
    (hu : flushLost s core r.ctx x = .ok () u)
    (hv : alongside s u (fun s => obsRecord s r.ctx core x.obsT x.obsTlog 16 (leBytes r.lo.toNat 8 ++ leBytes r.hi.toNat 8))
      = .ok () v) : ((writeTrace s core).core core).traceQ = (v.core core).traceQ.drop 1 := by
  have bytes : (leBytes r.lo.toNat 8 ++ leBytes r.hi.toNat 8).isEmpty = false := rfl
  unfold writeTrace
  simp only [hq, hx, ho, hu, hv, bytes, Bool.not_true, Bool.false_eq_true, if_false]
  have popped : ((popTrace v core).core core).traceQ = (v.core core).traceQ.drop 1 := by
    rw [popTrace, State.core_setCore]
  split
  · exact popped
  · rw [(ensureSoon_unitsKept _ _).core, popped]

/-- The one sample of a core is written. -/
theorem writeSamples_one {s u : State} {core lp : Nat} {x : Ctx} {r : Sample} (hq : (s.core core).sampleQ = [r])
    (hx : s.ctx? r.ctx = some x) (ho : bit x.obsCtl 1 = true)
    (hu : obsRecord s r.ctx core x.obsS x.obsSlog 32 (sampleBytes r) = .ok () u) :
    writeSamples s core lp (s.core core).sampleQ.length = u.setCore core { u.core core with sampleQ := [] } := by
  rw [hq]
  simp only [List.length_singleton, writeSamples, hq, hx, ho, hu, Bool.not_true, Bool.false_eq_true, if_false]

/-! ### The statement -/

/-- Settles O47: each step of launches, copies, engines, the array, rings and observation by its lemma above. -/
theorem workSteps : Obligations.WorkSteps := by
  intro s u v ctx id core n
  refine ⟨?poll, ?retry, ?place, ?aging, ?grid, ?start, ?stop, ?complete, ?counter, ?engine, ?request, ?array, ?ring, ?reply,
    ?trace, ?sample⟩
  case poll =>
    intro j d t₁ t₂ b z hj hw hr hc hf hb hv
    exact ⟨leads_settleHits rfl (pollWait_reached hj hw hr hc hf hb hv),
      fun y k hy hk => enterReady_one hy hk⟩
  case retry =>
    intro j hj hw
    exact ⟨fun hd => leads_settleHits (execWaitCounterRetry_pays hj hw) (payDue_none hj hd),
      fun d hd ht hl hb => leads_settleHits (execWaitCounterRetry_pays hj hw) (payDue_one hj hd ht hl hb)⟩
  case place =>
    intro j is k hp hr hw hl
    obtain ⟨t, ht, hturn, hdie, hgroup⟩ := dispatch_places hp hr hl
    refine ⟨t, ht, hturn, hdie, hgroup.kept, fun i hi => ?_⟩
    obtain ⟨wid, y, area, run, hcore, hfree, hwave⟩ := hgroup.news i hi
    obtain ⟨fctx, fjob, findex, fwidth, fbudget, fstate, fowed, fpath⟩ := newWave_fields y ctx j i area run
    exact ⟨wid, _, hcore, hfree, hwave, fctx, fjob, findex, fwidth, fbudget, fstate, fowed, fpath, newWave_registers hw hwave⟩
  case aging => exact fun x j h hx hj hh ht => headAging_ages hx hj hh ht
  case grid => exact fun x j hx hj hg hq ht => gridClose_closes hx hj hg hq ht
  case start =>
    intro c h hc hs hr hh hk hb ht
    exact leads_settleHits rfl (startCopy_begins hc hs hr hh hk hb ht)
  case stop => exact fun c h f hc hh hf hs hl hm hp => copyStop_stops hc hh hf hs hl hm hp
  case complete =>
    intro c h hc hh hl hn
    refine ⟨copyComplete_drops hc hh hl hn,
      fun hp hz hb hu => ⟨leads_settleHits rfl (completeCopy_pays hc hh hl hn hp hz hb hu), fun y hy => ?_⟩⟩
    rw [dropCopy_copies] at hy
    simpa [copy?_id hc] using (List.mem_filter.1 hy).2
  case counter => exact fun p m x y t hp hx hf hd hh hb => bump_adds hp hx hf hd hh hb
  case engine =>
    intro r hr he hc hb hl e op hop
    refine ⟨fun hd => goes_settleHits (exec_engine hop) (engineRun_ends hr he hc hb hl hd) fun t ht => ?_,
      fun q hd hq => leads_settleHits (exec_engine hop) (engineRun_acts hr he hc hb hl hd hq)⟩
    obtain ⟨hends, hdue⟩ := endRequest_ends (logRoom (s.setRequest core { r with begun := true }) r.ctx) core
      { r with begun := true }
    exact ⟨fun q hq hid => hends q (ht.scope core ▸ hq) (hid.trans (request?_id hr).symm),
      ht.agenda (request?_id hr ▸ hdue)⟩
  case request =>
    intro r hr he hn hl hw ha
    refine goes_settleHits rfl (completeRequest_leaves hr he hn hl hw ha)
      fun t ht q hq => ?_
    rw [ht.scope, State.core_setCore] at hq
    simpa using (List.mem_filter.1 hq).2
  case array => exact fun o ho hd => ⟨_, rfl, arrComplete_leaves ho hd⟩
  case ring =>
    intro x w z hx ht hu hv hw hz hh
    have written := serveRing_written ht hu hv hw hz hh
    exact ⟨fun hr => leads_settleHits (execRingRecordWrite_serves hx hr) written,
      leads_settleHits (execRingWriteRetry_serves hx) written⟩
  case reply =>
    intro o p ho hc hd hp h1 h3 hr hl z hz
    have answered := replyTo_writes ho hc hd hp hr hl hz
    obtain ⟨q, rfl⟩ := outst?_updOutst hz
    exact ⟨rfl, rfl,
      fun d a hq hw => leads_settleHits (execRingReply_replies h1 h3) (answered.trans (writeDone_written hq hw)),
      fun hq hn => leads_settleHits (execRingReply_replies h1 h3) (answered.trans (writeDone_ringless hq hn))⟩
  case trace =>
    intro x r rest hq hx ho hu hv
    refine goes_settleHits rfl rfl fun t ht => ?_
    rw [ht.traceQ, writeTrace_pops hq hx ho hu hv]
  case sample =>
    intro x r hq hx ho hu
    exact leads_settleHits rfl (writeSamples_one hq hx ho hu)

end Sys2Proof.Machine

/-!
PROOF. Every step keeps the canonical form of memory (O60): what each operation of the model leaves, in the order of their
definitions, up to the step. An operation that writes bytes writes them through Memory.write, which keeps the form; most write none.
-/

namespace Sys2Proof.Machine

/-- Memory at home and in frames is in canonical form (R22, R23, R43). -/
structure Canonical (s : State) : Prop where
  home   : Memory.wf s.mem
  frames : Memory.wf s.fmem

/-- The state that an outcome leaves, if it leaves one, is in canonical form. -/
def Leaves (o : Option State) : Prop := ∀ t, o = some t → Canonical t

/-- The state that a memory operation, an instruction's own part, a step leaves. -/
def Res.state? {α : Type} : Res α → Option State
  | .ok _ t => some t
  | .wait _ _ | .fail _ => none
def nextState : Out → Option State
  | .next t => some t
  | .fault _ | .refused _ => none
def Evicted.state? : Evicted → Option State
  | .done _ t => some t
  | .none | .later => Option.none
def Grown.state? : Grown → Option State
  | .done t | .blocked t => some t
  | .fault _ => none
def Came.state? : Came → Option State
  | .all t | .wait t _ _ | .paused t | .fault t _ => some t
def Moved.state? : Moved → Option State
  | .line _ t | .wait t => some t
  | .fail _ => none
def Deferred.state? : Deferred → Option State
  | .parked t => some t
  | .later | .gone => none
def Polled.state? : Polled → Option State
  | .got _ _ t => some t
  | .wait _ _ | .fault _ => none

/-- Leaving entries out keeps the canonical form. -/
theorem Memory.wf.filter {m : List Host.Cell} (h : Memory.wf m) (p : Host.Cell → Bool) : Memory.wf (m.filter p) :=
  ⟨h.1.filter p, fun c hc => h.2 c (List.mem_of_mem_filter hc)⟩

theorem Memory.wf_foldl_write {α : Type} (a : α → Nat) (b : α → Byte) (l : List α) {m : List Host.Cell} (h : Memory.wf m) :
    Memory.wf (l.foldl (fun m c => Memory.write m (a c) (b c)) m) := by
  induction l generalizing m with
  | nil => exact h
  | cons c l ih => exact ih (Memory.wf_write _ _ h)

section
variable {s t : State} {α β : Type}

theorem Leaves.none : Leaves Option.none := fun _ e => nomatch e
theorem Leaves.some (h : Canonical s) : Leaves (Option.some s) := fun _ e => Option.some.inj e ▸ h
theorem Leaves.at {o : Option State} (h : Leaves o) (e : o = Option.some t) : Canonical t := h t e
theorem Leaves.ok {r : Res α} {a : α} (h : Leaves r.state?) (e : r = .ok a t) : Canonical t := h t (congrArg Res.state? e)
/-- What a function that may fail has left with its result, and by itself. -/
theorem Leaves.okSnd {ε : Type} {r : Except ε (α × State)} {a : α} (h : Leaves (r.toOption.map (·.2))) (e : r = .ok (a, t)) :
    Canonical t := h t (congrArg (fun x => x.toOption.map (·.2)) e)
theorem Leaves.okFst {ε : Type} {r : Except ε (State × α)} {a : α} (h : Leaves (r.toOption.map (·.1))) (e : r = .ok (t, a)) :
    Canonical t := h t (congrArg (fun x => x.toOption.map (·.1)) e)
theorem Leaves.okState {ε : Type} {r : Except ε State} (h : Leaves r.toOption) (e : r = .ok t) : Canonical t :=
  h t (congrArg Except.toOption e)
theorem Leaves.ite {c : Prop} [Decidable c] {f : α → Option State} {a b : α} (ha : Leaves (f a)) (hb : Leaves (f b)) :
    Leaves (f (if c then a else b)) := by
  split <;> assumption

theorem Canonical.ite {c : Prop} [Decidable c] {a b : State} (ha : Canonical a) (hb : Canonical b) :
    Canonical (if c then a else b) := by
  split <;> assumption
/-- A state with the same bytes. -/
theorem Canonical.update {a b c d e f g h' i j k l m n o p} (h : Canonical s) :
    Canonical ⟨a, b, s.mem, s.fmem, c, d, e, f, g, h', i, j, k, l, m, n, o, p⟩ := ⟨h.home, h.frames⟩
theorem Canonical.same (h : Canonical s) (hm : t.mem = s.mem := by rfl) (hf : t.fmem = s.fmem := by rfl) : Canonical t :=
  ⟨hm ▸ h.home, hf ▸ h.frames⟩
theorem Canonical.congr (h : Canonical s) (e : s = t) : Canonical t := e ▸ h
theorem Canonical.ofFst {x : State × α} {a : α} (h : Canonical x.1) (e : x = (t, a)) : Canonical t :=
  h.congr (congrArg Prod.fst e)
theorem Canonical.of_later (h : Canonical s) (k : Later s t) : Canonical t := h.same k.mem k.fmem

theorem Canonical.foldl {f : State → α → State} {l : List α} (h : Canonical s)
    (hf : ∀ s a, Canonical s → Canonical (f s a)) : Canonical (l.foldl f s) :=
  l.foldlRecOn f h fun s h a _ => hf s a h
theorem Canonical.foldl_fst {f : State × β → α → State × β} {l : List α} {x : State × β} (h : Canonical x.1)
    (hf : ∀ x a, Canonical x.1 → Canonical (f x a).1) : Canonical (l.foldl f x).1 :=
  l.foldlRecOn f (motive := fun x => Canonical x.1) h fun x h a _ => hf x a h

theorem Leaves.bind {o : Option State} {f : State → Option State} (ho : Leaves o) (hf : ∀ s, Canonical s → Leaves (f s)) :
    Leaves (o.bind f) := by
  cases o with
  | none => exact .none
  | some s => exact hf s (ho s rfl)
theorem Leaves.map {o : Option State} {f : State → State} (ho : Leaves o) (hf : ∀ s, Canonical s → Canonical (f s)) :
    Leaves (o.map f) := by
  cases o with
  | none => exact .none
  | some s => exact .some (hf s (ho s rfl))
theorem Leaves.getD {o : Option State} (ho : Leaves o) (h : Canonical s) : Canonical (o.getD s) := by
  cases o with
  | none => exact h
  | some t => exact ho t rfl

end

/-! ### Ops -/

section
variable {s : State} {w wid c r n l t ctx : Nat} {i : Instr} {f : FaultInfo} {pc mask : Word64} {x : Iss} {ring : Option
  Nat}

theorem Canonical.setWave {x : Wave} (h : Canonical s) : Canonical (s.setWave w x) := h.update

theorem Canonical.dropWave (h : Canonical s) : Canonical (s.dropWave w) := h.update

theorem Canonical.updWave {f : Wave → Wave} (h : Canonical s) : Canonical (s.updWave w f) := by
  unfold Machine.State.updWave
  split
  · exact h.setWave
  · exact h

theorem Canonical.setCtx {x : Ctx} (h : Canonical s) : Canonical (s.setCtx c x) := h.update

theorem Canonical.updCtx {f : Ctx → Ctx} (h : Canonical s) : Canonical (s.updCtx c f) := by
  unfold Machine.State.updCtx
  split
  · exact h.setCtx
  · exact h

theorem Canonical.setCore {x : Core} (h : Canonical s) : Canonical (s.setCore c x) := h.update

theorem Canonical.setDie {d : Nat} {x : Die} (h : Canonical s) : Canonical (s.setDie d x) := h.update

theorem Canonical.setLp {x : LanePair} (h : Canonical s) : Canonical (s.setLp l x) := h.update

theorem Canonical.setFrame {f : Nat} {x : FrameRec} (h : Canonical s) : Canonical (s.setFrame f x) := h.update

theorem Canonical.setLine {x : LineRec} (h : Canonical s) : Canonical (s.setLine l x) := h.update

theorem Canonical.setPart {x : Partition} (h : Canonical s) : Canonical (s.setPart r x) := h.update

theorem Canonical.soon (h : Canonical s) : Canonical (s.soon i) := h.update

theorem Canonical.after (h : Canonical s) : Canonical (s.after n i) := h.update

theorem Canonical.afterTicks (h : Canonical s) : Canonical (s.afterTicks n i) := h.update

theorem Canonical.tickFree (h : Canonical s) : Canonical s.tickFree := h.update

theorem Canonical.later (h : Canonical s) : Canonical (s.later i) := h.after.tickFree

theorem Canonical.ensureTicks (h : Canonical s) : Canonical (s.ensureTicks n i) := Canonical.ite h h.afterTicks

theorem Canonical.ensureSoon (h : Canonical s) : Canonical (s.ensureSoon i) := Canonical.ite h h.soon

theorem Canonical.fresh (h : Canonical s) : Canonical (s.fresh).2 := h.update

theorem Canonical.gate {wave : Option Nat} (h : Canonical s) : Canonical (s.gate t r wave) :=
  Canonical.ite h (Canonical.ite h.ensureSoon h.update)

theorem Canonical.waitTick (h : Canonical s) : Canonical (s.waitTick t r i) := by
  unfold Machine.State.waitTick
  refine Canonical.ite h.gate ?_
  dsimp only
  exact h.gate.fresh.update

theorem Canonical.ringPut {r : FaultRec} (h : Canonical s) : Canonical (ringPut s ring r) := by
  unfold Machine.ringPut
  dsimp only
  split
  · exact h.update
  split
  · exact h.update
  · exact Canonical.ite h.setCtx.soon h.setCtx.soon

theorem Canonical.raiseTo {fl : BitVec 16} {wave : Nat} (h : Canonical s) : Canonical (raiseTo s c ring fl wave f pc) := by
  unfold Machine.raiseTo
  dsimp only
  split
  · exact h
  · exact h.setCtx.ringPut

theorem Canonical.raiseNoPath (h : Canonical s) : Canonical (raiseNoPath s c f pc) := h.raiseTo

theorem Canonical.dropLatch (h : Canonical s) : Canonical (dropLatch s w) := h.setLp

theorem Canonical.withdrawPin (h : Canonical s) : Canonical (withdrawPin s wid) := h.update.updWave

theorem Canonical.unmarkLines (h : Canonical s) : Canonical (unmarkLines s) := h.foldl fun _ _ h₁ => h₁.setLine

theorem Canonical.unpin (h : Canonical s) : Canonical (unpin s wid) := by
  unfold Machine.unpin
  refine Canonical.ite h ?_
  dsimp only
  split
  · exact h.unmarkLines.update
  · exact h.unmarkLines.update.ensureSoon

theorem Canonical.takeFault {i : Nat} {base next : Word64} {kind : ParkKind} (h : Canonical s) :
    Canonical (takeFault s w i pc base next kind f) := by
  unfold Machine.takeFault
  dsimp only
  split
  · exact h
  split
  · exact h
  · exact (Canonical.ite h.setWave.setCtx h.setWave.setCtx.unpin.withdrawPin).dropLatch.ringPut

theorem Canonical.undoWindow {n : Window} (h : Canonical s) : Canonical (undoWindow s wid n) := by
  unfold Machine.undoWindow
  dsimp only
  split
  · exact h
  · exact h.setWave.setCore.unpin.dropLatch

theorem Canonical.rollback {counted : Bool} (h : Canonical s) : Canonical (rollback s wid counted) := by
  unfold Machine.rollback
  dsimp only
  split
  · exact h
  split
  · exact h
  · exact Canonical.ite h.undoWindow (Canonical.ite h.undoWindow.updWave.takeFault h.undoWindow.updWave)

theorem Canonical.stallPath {c : Cur} {reason : Nat} (h : Canonical s) : Canonical (stallPath s c reason) :=
  h.updWave.setLp.update

theorem Canonical.stallStop {c : Cur} {id : Nat} (h : Canonical s) : Canonical (stallStop s c id) := h.updWave.stallPath

theorem Canonical.latchLand {ws : List RegW} (h : Canonical s) : Canonical (latchLand s wid ws) := Canonical.ite h.setLp h

theorem Canonical.faultNow (h : Canonical s) : Canonical (faultNow x f s) := h.takeFault.update

theorem Canonical.requestPin (h : Canonical s) : Canonical (requestPin s w) := by
  unfold Machine.requestPin
  refine Canonical.ite h ?_
  dsimp only
  exact h.fresh.update.updWave.soon.afterTicks

theorem Canonical.stepStop {l : List Nat} (h : Canonical s) : Canonical (stepStop s w mask pc l) := by
  induction l generalizing s with
  | nil =>
    unfold Machine.stepStop
    exact h
  | cons a l ih =>
    unfold Machine.stepStop
    refine ih ?_
    dsimp only
    split
    · exact Canonical.ite h.takeFault h
    · exact h

theorem Canonical.fireStepAt {i : Nat} (h : Canonical s) : Canonical (fireStepAt s ctx wid i mask pc) := by
  unfold Machine.fireStepAt
  split
  · exact Canonical.ite h.setCtx.stepStop h
  · exact h

theorem Canonical.lateRoll {i : Nat} (h : Canonical s) : Canonical (lateRoll s ctx wid i) := Canonical.ite h.rollback h

theorem Canonical.disarm (h : Canonical s) : Canonical (disarm s c) := h.updCtx

theorem Canonical.raiseAt {t : State} (h : Canonical s) (ht : Canonical t) : Leaves (nextState (raiseAt x s t f)) :=
  Leaves.ite (Leaves.some h.stallPath) (Leaves.ite (Leaves.some h.stallStop) (Leaves.some
    (Canonical.ite ht.rollback ht).faultNow))

theorem Canonical.breakAt {b : Nat} (h : Canonical s) : Leaves (nextState (breakAt x s b)) :=
  h.raiseAt (Canonical.ite h.disarm h)

theorem Canonical.issue {i : Instr} {s : State} {act : Iss → State → Act} (h : Canonical s)
    (hact : ∀ x t, Canonical t → Leaves (act x t).state?) : Leaves (nextState (issue i s act)) := by
  intro u e
  have next : Machine.issue i s act = .next u := by
    revert e
    cases Machine.issue i s act <;> simp [nextState]
  exact issue_rel (R := fun a b => Canonical a → Canonical b) (fun _ _ k c => c.of_later k) (fun _ _ _ f g c => g (f c))
    (fun _ _ c => c.rollback) (fun x a t _ _ _ k c => hact x a c t k) next h

end

/-! ### Areas -/

section
variable {s : State}

theorem Canonical.pokeAreas {core c off : Nat} {bs : List Byte} (h : Canonical s) : Canonical (pokeAreas s core c off bs) :=
  h.foldl fun _ _ h₁ => Canonical.ite h₁.updWave h₁

end

/-! ### Frames -/

section
variable {s : State} {die part l fk dev core ctx c k : Nat} {α : Type} {freed : Option Nat}

theorem Canonical.failed {f : Fail} (_ : Canonical s) : Leaves (failed (α := α) s f).state? := Leaves.ite .none .none

theorem Canonical.setAtlas {e : AtlasEntry} (h : Canonical s) : Canonical (s.setAtlas die e) := h.setDie

theorem Canonical.dropAtlas (h : Canonical s) : Canonical (s.dropAtlas die part) := h.setDie

theorem Canonical.setDir {d : DirWord} (h : Canonical s) : Canonical (s.setDir l d) := h.update

theorem Canonical.setHomePoison {b : Bool} (h : Canonical s) : Canonical (s.setHomePoison l b) := h.update

theorem Canonical.raiseHome {t : Nat} (h : Canonical s) : Canonical (raiseHome s dev t) := h.setDie

theorem Canonical.homeWrite {s : State} {dev : Nat} {bs : List Byte} (h : Canonical s) : Canonical (homeWrite s dev bs) := by
  have home := Memory.wf_writeN bs dev h.home
  unfold Machine.homeWrite
  dsimp only
  split
  · exact ⟨Memory.wf_writeN bs _ home, h.frames⟩
  · exact ⟨home, h.frames⟩

theorem Canonical.setFbytes {s : State} {fk off : Nat} {bs : List Byte} (h : Canonical s) : Canonical (s.setFbytes fk off bs) :=
  ⟨h.home, Memory.wf_writeN bs _ h.frames⟩

theorem Canonical.takeTokens {l : List Nat} (h : Canonical s) : Leaves (takeTokens s k l) := by
  induction l generalizing s with
  | nil =>
    unfold Machine.takeTokens
    exact .some h
  | cons a l ih =>
    unfold Machine.takeTokens
    dsimp only
    split
    · exact ih h
    split
    · exact ih h
    split
    · exact .none
    · exact ih h.setCtx

theorem Canonical.charge (h : Canonical s) : Leaves (charge s c dev) := h.takeTokens

theorem Canonical.forceTokens {l : List Nat} (h : Canonical s) : Canonical (forceTokens s k l) := by
  induction l generalizing s with
  | nil =>
    unfold Machine.forceTokens
    exact h
  | cons a l ih =>
    unfold Machine.forceTokens
    dsimp only
    split
    · exact ih h
    split
    · exact ih h
    · exact ih h.setCtx

theorem Canonical.forceCharge (h : Canonical s) : Canonical (forceCharge s c dev) := h.forceTokens

theorem Canonical.chargeLine (h : Canonical s) : Leaves (chargeLine s c dev) := by
  unfold Machine.chargeLine
  dsimp only
  split
  · exact .some h.forceCharge
  · exact h.charge

theorem Canonical.strikeDie (h : Canonical s) : Canonical (strikeDie s die l) := h.update

theorem Canonical.giveUp (h : Canonical s) : Canonical (giveUp s die l) := by
  unfold Machine.giveUp
  dsimp only
  split
  · exact h
  · exact (Canonical.ite h.forceCharge.homeWrite.setHomePoison h).setDir.raiseHome.setLine

theorem Canonical.giveUps {l : List Nat} (h : Canonical s) : Canonical (giveUps s die l) := by
  induction l generalizing s with
  | nil =>
    unfold Machine.giveUps
    exact h
  | cons a l ih =>
    unfold Machine.giveUps
    exact ih h.giveUp

theorem Canonical.invalidate (h : Canonical s) : Canonical (invalidate s die l) := by
  unfold Machine.invalidate
  split
  · exact h
  · exact h.setLine.strikeDie

theorem Canonical.invalidates {l1 : List Nat} (h : Canonical s) : Canonical (invalidates s l l1) := by
  induction l1 generalizing s with
  | nil =>
    unfold Machine.invalidates
    exact h
  | cons a l ih =>
    unfold Machine.invalidates
    exact ih h.invalidate

theorem Canonical.recallAll (h : Canonical s) : Leaves (recallAll s l).state? :=
  Leaves.ite .none (Leaves.ite .none (Leaves.ite .none (Leaves.some (h.foldl (fun _ _ h₁ => h₁.giveUp.strikeDie)).setDir)))

theorem Canonical.tierRoom (h : Canonical s) : Leaves (tierRoom s l).state? := by
  unfold Machine.tierRoom
  refine Leaves.ite (Leaves.some h) ?_
  dsimp only
  split
  · exact Leaves.ite h.recallAll (Leaves.some h)
  · exact .some h

theorem Canonical.homeReadOp (h : Canonical s) : Leaves (homeReadOp s l die).state? := by
  unfold Machine.homeReadOp
  refine Leaves.ite .none ?_
  dsimp only
  split
  · exact .none
  · exact .none
  next e =>
  split
  · exact .some (h.tierRoom.ok e).setDir
  · exact .some (h.tierRoom.ok e).setDir
  · split
    · exact .some (h.tierRoom.ok e).setDir
    · exact .some (h.tierRoom.ok e).forceCharge.setLine.setDir
  split
  · exact .some (h.tierRoom.ok e).setDir
  · exact .some (h.tierRoom.ok e).forceCharge.setLine.setDir

theorem Canonical.homeRfoOp (h : Canonical s) : Leaves (homeRfoOp s l die).state? := by
  unfold Machine.homeRfoOp
  refine Leaves.ite .none (Leaves.ite .none (Leaves.ite .none ?_))
  dsimp only
  split
  · exact .none
  · exact .none
  · next e => exact .some (Canonical.ite (h.tierRoom.ok e).forceCharge (h.tierRoom.ok e)).invalidates.setDir

theorem Canonical.installLine {u : Supply} (h : Canonical s) : Canonical (installLine s die fk l u) := h.setFbytes.setLine

theorem Canonical.clearTargets {l : List Nat} (h : Canonical s) : Canonical (clearTargets s fk l) := by
  induction l generalizing s with
  | nil =>
    unfold Machine.clearTargets
    exact h
  | cons a l ih =>
    unfold Machine.clearTargets
    exact ih h.setCore.update

theorem Canonical.bumpGen (h : Canonical s) : Canonical (bumpGen s fk) := (Canonical.ite h.clearTargets h).setFrame

theorem Canonical.resetLines (h : Canonical s) : Canonical (resetLines s fk) := h.update

theorem Canonical.freeFrame {s : State} {fk : Nat} (h : Canonical s) : Canonical (freeFrame s fk) := by
  have reset : Canonical (Machine.resetLines s fk) := h.resetLines
  exact Canonical.setFrame ⟨reset.home, reset.frames.filter _⟩

theorem Canonical.dropReplica (h : Canonical s) : Canonical (dropReplica s fk) := by
  unfold Machine.dropReplica
  refine (Canonical.setDie ?_).bumpGen.freeFrame
  split
  · exact h.setAtlas
  · exact h

theorem Canonical.dropReplicas {l : List Nat} (h : Canonical s) : Canonical (dropReplicas s l) := by
  induction l generalizing s with
  | nil =>
    unfold Machine.dropReplicas
    exact h
  | cons a l ih =>
    unfold Machine.dropReplicas
    exact ih h.dropReplica

theorem Canonical.clearHolder (h : Canonical s) : Canonical (clearHolder s part die) := h.setDie

theorem Canonical.endForwarding {gen : Nat} (h : Canonical s) : Canonical (endForwarding s fk gen) := by
  unfold Machine.endForwarding
  refine Canonical.ite h (Canonical.bumpGen ?_).freeFrame
  split
  · exact h.setAtlas
  · exact h

theorem Canonical.endMoves (h : Canonical s) : Canonical (endMoves s die part) := h.foldl fun _ _ h₁ => h₁.endForwarding

theorem Canonical.evict (h : Canonical s) : Canonical (evict s die part) := by
  unfold Machine.evict
  dsimp only
  split
  · exact h.endMoves
  · exact h.endMoves.dropReplicas.giveUps.raiseHome.clearHolder.setDie.bumpGen.freeFrame.dropAtlas

theorem Canonical.evictOldest {ok : Nat → FrameRec → Bool} (h : Canonical s) : Leaves (evictOldest s ok).state? := by
  unfold Machine.evictOldest
  split
  · exact Leaves.ite .none (Leaves.some h.evict)
  · exact Leaves.ite .none .none

theorem Canonical.evictFor {ok : Nat → Bool} (h : Canonical s) : Leaves (evictFor s ctx ok).state? := by
  unfold Machine.evictFor
  split
  · exact .some h
  · exact .none
  · next e => exact .some (h.evictOldest.at (congrArg Evicted.state? e))

theorem Canonical.makeRoom {l : List Nat} (h : Canonical s) : Leaves (makeRoom s core freed l).state? := by
  induction l generalizing s freed with
  | nil =>
    unfold Machine.makeRoom
    exact .some h
  | cons a l ih =>
    unfold Machine.makeRoom
    split
    · exact .none
    · exact .none
    next e =>
    split
    · exact .none
    · exact .none
    next e₁ =>
    refine ih (Leaves.ok ?_ e₁)
    refine Leaves.ite (Leaves.ok ?_ e).evictFor (Leaves.some (Leaves.ok ?_ e)) <;> exact Leaves.ite h.evictFor
        (Leaves.some h)

theorem Canonical.takeFrame (h : Canonical s) : Leaves (takeFrame s core freed).state? := by
  unfold Machine.takeFrame
  split
  · exact .some h
  split
  · exact .some h.dropReplica
  split
  · exact .some h
  · exact .none
  · next e₂ => exact .some (h.evictOldest.at (congrArg Evicted.state? e₂))

theorem Canonical.fillBank (h : Canonical s) : Leaves (fillBank s core ctx).state? := by
  unfold Machine.fillBank
  refine Leaves.ite (Leaves.ite ?_ (Leaves.ite ?_ (Leaves.some h))) (Leaves.ite ?_ (Leaves.ite ?_ (Leaves.ite
      (Leaves.some h) ?_)))
  · dsimp only
    split
    · exact .none
    · exact .none
    · next e => exact .some (h.evictFor.ok e)
  · dsimp only
    split
    · exact .none
    · exact .none
    · next e => exact .some (h.evictFor.ok e)
  · dsimp only
    split
    · exact .some h
    split
    · exact .none
    · exact .none
    · next e₁ => exact .some (h.evictFor.ok e₁)
  · dsimp only
    split
    · exact .none
    · exact .none
    next e =>
    refine Leaves.ite (Leaves.some (h.evictFor.ok e)) ?_
    split <;> exact .some (h.evictFor.ok e)
  · split <;> exact .some h

theorem Canonical.backInvalidate (h : Canonical s) : Leaves (backInvalidate s die part).state? := by
  unfold Machine.backInvalidate
  dsimp only
  split
  · exact .some h
  · exact Leaves.ite .none (Leaves.ite .none (Leaves.some (h.evict.foldl (fun _ _ h₁ => h₁.strikeDie))))

theorem Canonical.backInvalidates {l : List Nat} (h : Canonical s) : Leaves (backInvalidates s part l).state? := by
  induction l generalizing s with
  | nil =>
    unfold Machine.backInvalidates
    exact .some h
  | cons a l ih =>
    unfold Machine.backInvalidates
    split
    · next e => exact ih (h.backInvalidate.ok e)
    · exact .none
    · exact .none

theorem Canonical.registerHolder (h : Canonical s) : Leaves (registerHolder s part die).state? := by
  unfold Machine.registerHolder
  dsimp only
  split
  · exact .some h.setDie
  split
  · refine Leaves.ite (Leaves.some h.setDie) ?_
    split
    · next e₂ => exact .some (h.backInvalidates.ok e₂).setDie
    · exact .none
    · exact .none
  · exact .some h.setDie

theorem Canonical.registerDev (h : Canonical s) : Leaves (registerDev s part dev).state? := by
  unfold Machine.registerDev
  dsimp only
  split
  · exact .some h.setDie
  split
  · exact Leaves.ite (Leaves.some h.setDie) (Leaves.ite .none (Leaves.some h.setDie))
  · exact .some h.setDie

theorem Canonical.forgetDev (h : Canonical s) : Canonical (forgetDev s part dev) := Canonical.ite h h.setDie

theorem Canonical.dropDev (h : Canonical s) : Canonical (dropDev s l dev) := h.setDir.forgetDev

theorem Canonical.endDevHolds (h : Canonical s) : Canonical (endDevHolds s dev) :=
  h.foldl fun _ _ h₁ => (Canonical.ite h₁.setHomePoison h₁).dropDev

theorem Canonical.asDev {f : State → Res α} (h : Canonical s) (hf : ∀ t, Canonical t → Leaves (f t).state?) :
    Leaves (asDev (α := α) s l dev f).state? := by
  unfold Machine.asDev
  refine Leaves.ite ?_ (hf _ h)
  dsimp only
  split
  · next e => exact .some ((hf _ h.setDir).ok e).setDir
  · exact hf _ h.setDir

theorem Canonical.atlasRoom (h : Canonical s) : Leaves (atlasRoom s die part).state? := by
  unfold Machine.atlasRoom
  refine Leaves.ite (Leaves.some h) ?_
  dsimp only
  split
  · exact Leaves.ite .none (Leaves.some h.evict)
  · exact .none

theorem Canonical.placePrimary {bank f : Nat} (h : Canonical s) : Leaves (placePrimary s ctx part bank f).state? :=
  .some h.bumpGen.resetLines.setFrame.setAtlas

theorem Canonical.fill (h : Canonical s) : Leaves (fill s core ctx part).state? := by
  unfold Machine.fill
  dsimp only
  split
  · exact .none
  · exact .none
  next e =>
  split
  · exact .none
  · exact .none
  next e₁ =>
  split
  · exact .none
  · exact .none
  · next e₂ => exact .some (((h.registerHolder.ok e).atlasRoom.ok e₁).fillBank.ok e₂).clearHolder
  next e₂ =>
  split
  · exact .none
  · exact .none
  next e₃ =>
  split
  · exact .none
  · exact .none
  · next e₄ =>
      exact .some (((((h.registerHolder.ok e).atlasRoom.ok e₁).fillBank.ok e₂).makeRoom.ok e₃).takeFrame.ok e₄).clearHolder
  · next e₄ =>
      exact (((((h.registerHolder.ok e).atlasRoom.ok e₁).fillBank.ok e₂).makeRoom.ok e₃).takeFrame.ok e₄).placePrimary

theorem Canonical.locate {streamed : Bool} (h : Canonical s) : Leaves (locate s core ctx part streamed).state? := by
  unfold Machine.locate
  refine Leaves.ite (Leaves.some h) ?_
  dsimp only
  split
  · refine Leaves.ite .none ?_
    split <;> exact .some h
  split
  · next e₁ => split <;> exact .some (h.fill.ok e₁)
  · next e₁ => exact .some (h.fill.ok e₁)
  · exact .none
  · exact .none

theorem Canonical.touchFrame (h : Canonical s) : Canonical (touchFrame s fk) := h.setFrame

theorem Canonical.countAt {write : Bool} (h : Canonical s) : Canonical (countAt s fk core write) :=
  Canonical.ite h.setFrame h.setFrame

theorem Canonical.makeReplica (h : Canonical s) : Canonical (makeReplica s fk core) := by
  unfold Machine.makeReplica
  refine Canonical.ite h ?_
  dsimp only
  split
  · exact h
  split
  · exact h.bumpGen.resetLines.setFrame.setAtlas.clearTargets
  · exact h.bumpGen.resetLines.setFrame

theorem Canonical.moveLines {s : State} {o n : Nat} (h : Canonical s) : Canonical (moveLines s o n) := by
  unfold Machine.moveLines
  dsimp only
  have moved (l ls : List (Nat × LineRec)) :
      Canonical (l.foldl (fun s x => s.setLine (flKey n (x.1 % 512)) x.2) { s with lines := ls }) :=
    h.update.foldl fun _ _ h₁ => h₁.setLine
  exact ⟨(moved _ _).home, Memory.wf_foldl_write _ _ _ (h.frames.filter _)⟩

theorem Canonical.movePrimary (h : Canonical s) : Canonical (movePrimary s fk core) := by
  unfold Machine.movePrimary
  dsimp only
  split
  · exact h.bumpGen.resetLines.setFrame.setAtlas.moveLines.setFrame.afterTicks
  · exact h

end

/-! ### Access -/

section
variable {s t : State} {core c dev n fk vpart part ctx l off size : Nat} {x : Xl} {w : Who} {p : Word64} {wave : Option
  Nat} {want : BitVec 3} {write logged log : Bool} {bs : List Byte}

theorem Canonical.combineTables (h : Canonical s) : Canonical (combineTables s c p) :=
  Canonical.ite h (h.foldl (fun _ _ h₁ => h₁.ensureSoon))

theorem Canonical.chargeLines {s : State} {c : Nat} {l : List Nat} (h : Canonical s) : Leaves (chargeLines s c l) := by
  induction l generalizing s with
  | nil => exact .some h
  | cons a l ih => exact h.chargeLine.bind fun _ h₁ => ih h₁

theorem Canonical.walked {s : State} {c : Nat} {p : Word64} (h : Canonical s) : Leaves (walked s c p) := by
  unfold Machine.walked
  split
  · exact .some h.combineTables
  · exact h.chargeLines.map fun _ h₁ => h₁.combineTables

theorem Canonical.installTlb {e : TlbEntry} (h : Canonical s) : Canonical (installTlb s core e) := h.setCore

theorem Canonical.setTlbPart (h : Canonical s) : Canonical (setTlbPart s core c vpart part) := h.setCore

theorem Canonical.translate (h : Canonical s) : Leaves ((translate s core c p want).toOption.map (·.2)) := by
  unfold Machine.translate
  dsimp only
  split
  · split
    · split
      · exact .none
      split
      · exact .none
      split
      · exact .none
      split
      · exact .none
      split
      · exact .none
      · exact .some h
    split
    · exact .none
    split
    · exact .none
    split
    · exact .none
    split
    · exact .none
    split
    · exact .none
    · exact .some h
  split
  · split
    · split
      · split
        · exact .none
        · exact .some h.setTlbPart
      split
      · exact .none
      · exact .some h
    split
    · exact .none
    split
    · next e₂ =>
        split
        · exact .none
        · exact .some (h.walked.at e₂).installTlb
    · exact .none
  split
  · exact .none
  split
  · next e₂ =>
      split
      · exact .none
      · exact .some (h.walked.at e₂).installTlb
  · exact .none

theorem Canonical.setTarget {t : Target} (h : Canonical s) : Canonical (setTarget s core c vpart t) := h.setCore

theorem Canonical.bounce {lines : List Nat} (h : Canonical s) : Canonical (bounce s core c vpart part lines) :=
  h.setTarget.update

theorem Canonical.locateEntry (h : Canonical s) : Canonical (locateEntry s core ctx vpart) := by
  unfold Machine.locateEntry
  split
  · exact h
  refine Canonical.ite h ?_
  split
  · next e₁ => exact (h.locate.ok e₁).setTarget
  · exact h.waitTick
  · exact h

theorem Canonical.takeHold (h : Canonical s) : Canonical (takeHold s core wave part) := h.setDie.after

theorem Canonical.endHold (h : Canonical s) : Canonical (endHold s core wave part) := Canonical.ite h.setDie h

theorem Canonical.placeOf {n1 n2 : Nat} {l : List Nat} (h : Canonical s) : Leaves (placeOf wave n s n1 n2 x l).state? := by
  induction n generalizing s n1 n2 x l with
  | zero =>
    unfold Machine.placeOf
    dsimp only
    split <;> exact .some h.takeHold
  | succ n ih =>
    unfold Machine.placeOf
    refine Leaves.ite .none ?_
    dsimp only
    split
    · split <;> exact .some h
    split
    · exact .none
    · exact .none
    · next e₁ =>
        refine .some (Leaves.ok ?_ e₁)
        split
        · exact .some h
        split
        · next e₃ => exact .some (h.locate.ok e₃).setTarget
        · exact h.locate
    · next e₁ =>
        refine .some (Leaves.ok ?_ e₁)
        split
        · exact .some h
        split
        · next e₃ => exact .some (h.locate.ok e₃).setTarget
        · exact h.locate
    next e₁ =>
    split
    · refine .some (Canonical.ite (Leaves.ok ?_ e₁) (Leaves.ok ?_ e₁).setTarget)
      · split
        · exact .some h
        split
        · next e₄ => exact .some (h.locate.ok e₄).setTarget
        · exact h.locate
      split
      · exact .some h
      split
      · next e₄ => exact .some (h.locate.ok e₄).setTarget
      · exact h.locate
    refine ih (Leaves.ok ?_ e₁).bounce
    split
    · exact .some h
    split
    · next e₄ => exact .some (h.locate.ok e₄).setTarget
    · exact h.locate

theorem Canonical.setPts {t : Nat} (h : Canonical s) : Canonical (setPts s core c t) := h.setCore

theorem Canonical.passGate {home : Bool} (h : Canonical s) : Canonical (passGate s w dev home) := Canonical.ite h h.update

theorem Canonical.fetchLine (h : Canonical s) : Leaves (fetchLine s c fk dev write).state? := by
  unfold Machine.fetchLine
  dsimp only
  split
  · exact .none
  next e =>
  refine Leaves.ite (Leaves.ite (Leaves.some (Leaves.at ?_ e)) ?_) (Leaves.ite (Leaves.some (Leaves.at ?_ e)) (Leaves.ite
      (Leaves.some (Leaves.at ?_ e).setLine) ?_))
  · split
    · exact .some h
    · exact h.charge
  · split
    · next e₁ =>
        refine .some ((Leaves.at ?_ e).homeReadOp.ok e₁).installLine
        split
        · exact .some h
        · exact h.charge
    · exact .none
    · exact .none
  · split
    · exact .some h
    · exact h.charge
  · split
    · exact .some h
    · exact h.charge
  split
  · next e₁ =>
      refine Leaves.ite (Leaves.some ((Leaves.at ?_ e).homeRfoOp.ok e₁).setLine) (Leaves.some
          ((Leaves.at ?_ e).homeRfoOp.ok e₁).installLine)
      · split
        · exact .some h
        · exact h.charge
      split
      · exact .some h
      · exact h.charge
  · exact .none
  · exact .none

theorem Canonical.readPrimary (h : Canonical s) : Leaves (readPrimary s w fk dev).state? := by
  unfold Machine.readPrimary
  dsimp only
  split
  · exact .none
  split
  · exact .none
  · exact .none
  · next e₁ => exact Leaves.ite .none (Leaves.some (h.passGate.fetchLine.ok e₁).setPts.setLine)

theorem Canonical.refetch (h : Canonical s) : Leaves (refetch s w fk dev).state? := by
  unfold Machine.refetch
  dsimp only
  split
  · exact .none
  split
  · exact .none
  · exact .none
  · next e₁ => exact .some (h.readPrimary.ok e₁).touchFrame.setFbytes.setLine

theorem Canonical.supplied {k rts : Nat} (h : Canonical s) : Canonical (supplied s l k rts) := h.setLine.setDir

theorem Canonical.reached (h : Canonical s) : Canonical (reached s x fk core write) := Canonical.ite h.touchFrame h.countAt

theorem Canonical.unheld {w : Who} {x : Xl} {r : Res Got} (hr : Leaves r.state?) : Leaves (unheld w x r).state? := by
  cases r with
  | ok g s => exact .some (hr.ok rfl).endHold
  | wait _ _ | fail _ => exact .none

theorem Canonical.readAt (h : Canonical s) : Leaves (readAt s w x).state? := by
  unfold Machine.readAt
  refine Canonical.unheld ?_
  dsimp only
  split
  · exact .none
  · exact .none
  · next e =>
      split
      · exact .none
      split
      · exact .none
      next e₂ =>
      refine Leaves.ite .none ?_
      split
      · exact Leaves.ite .none (Leaves.some ((h.placeOf.ok e).passGate.chargeLine.at e₂).supplied.setPts)
      · exact Leaves.ite .none (Leaves.some ((h.placeOf.ok e).passGate.chargeLine.at e₂).raiseHome.setPts)
  next e =>
  refine Leaves.ite (Leaves.ite (Leaves.ite .none (Leaves.some (h.placeOf.ok e).setPts.countAt)) ?_) ?_
  · split
    · next e₁ => exact .some ((h.placeOf.ok e).refetch.ok e₁).setPts.countAt
    · exact .none
    · exact .none
  split
  · next e₁ => exact .some ((h.placeOf.ok e).readPrimary.ok e₁).reached
  · exact (h.placeOf.ok e).readPrimary

theorem Canonical.writeAt (h : Canonical s) : Leaves (writeAt s w x).state? := by
  unfold Machine.writeAt
  refine Canonical.unheld ?_
  dsimp only
  split
  · exact .none
  · exact .none
  · next e =>
      split
      · exact .none
      split
      · exact .none
      next e₂ =>
      split
      · exact .none
      · exact .none
      · next e₃ =>
          exact Leaves.ite .none (Leaves.some (((h.placeOf.ok e).passGate.charge.at e₂).recallAll.ok e₃).raiseHome.setPts)
  next e =>
  split
  · exact .none
  split
  · exact .none
  · exact .none
  · next e₂ =>
      exact Leaves.ite .none (Leaves.ite .none (Leaves.some
          ((h.placeOf.ok e).passGate.fetchLine.ok e₂).setPts.setLine.reached))

theorem Canonical.casReadAt (h : Canonical s) : Leaves (casReadAt s w x).state? := by
  unfold Machine.casReadAt
  refine Canonical.unheld ?_
  dsimp only
  split
  · exact .none
  · exact .none
  · next e =>
      split
      · exact .none
      split
      · exact .none
      next e₂ =>
      split
      · exact .none
      · exact .none
      · next e₃ =>
          exact Leaves.ite .none (Leaves.some (((h.placeOf.ok e).passGate.charge.at e₂).recallAll.ok e₃).raiseHome.setPts)
  next e =>
  split
  · exact .none
  · exact .none
  next e₁ =>
  refine Leaves.ite .none ?_
  split
  · next e₂ => exact .some (((h.placeOf.ok e).fetchLine.ok e₁).readPrimary.ok e₂).reached
  · exact ((h.placeOf.ok e).fetchLine.ok e₁).readPrimary

theorem Canonical.logLine {key : Nat} {old : List Byte} {poison : Bool} (h : Canonical s) :
    Canonical (logLine s c key old poison) := by
  unfold Machine.logLine
  dsimp only
  split
  · exact h
  · exact Canonical.ite h h.setPart

theorem Canonical.logLocal (h : Canonical s) : Canonical (logLocal s core c off) := h.logLine

theorem Canonical.strikeCore (h : Canonical s) : Canonical (strikeCore s core l wave) := h.update

theorem Canonical.putBytes {p : Place} (h : Canonical s) : Canonical (putBytes s w p dev bs logged) := by
  unfold Machine.putBytes
  refine Canonical.strikeCore ?_
  split
  · exact (Canonical.ite h.logLine h).setFbytes
  · exact (Canonical.ite h.logLine h).homeWrite

theorem Canonical.touchLocal (h : Canonical s) : Canonical (touchLocal s core ctx off) := h.touchFrame

theorem Canonical.localWrite {s : State} {w : Who} {off : Nat} {bs : List Byte} {log stl : Bool} (h : Canonical s) :
    Canonical (localWrite s w off bs log stl) := by
  unfold Machine.localWrite
  dsimp only
  refine Canonical.strikeCore ⟨?_, Memory.wf_writeN _ _ ?_⟩
  · exact (Canonical.ite h.logLocal h).pokeAreas.home
  · exact (Canonical.ite h.logLocal h).pokeAreas.frames

theorem Canonical.checkAccess {sp : Spaces} (h : Canonical s) :
    Leaves ((checkAccess s core c p size want sp).toOption.map (·.2)) := by
  unfold Machine.checkAccess
  split
  · exact .none
  split
  · split
    · exact .none
    · exact .some h
  split
  · exact .none
  · next e₁ => exact .some (h.translate.okSnd e₁)

theorem Canonical.clRead (h : Canonical s) : Leaves (clRead s dev n).state? := by
  unfold Machine.clRead
  refine Leaves.ite .none ?_
  dsimp only
  split
  · exact Leaves.ite .none (Leaves.some h.forceCharge.supplied)
  · exact Leaves.ite .none (Leaves.some h.raiseHome)

theorem Canonical.clUpdate {whole : Bool} {f : List Byte → List Byte} (h : Canonical s) :
    Leaves (clUpdate s dev n whole f).state? := by
  unfold Machine.clUpdate
  refine Leaves.ite .none ?_
  dsimp only
  split
  · exact .none
  · exact .none
  · next e =>
      exact Leaves.ite .none (Leaves.some (Canonical.ite (h.recallAll.ok e).homeWrite.raiseHome.setHomePoison
          (h.recallAll.ok e).homeWrite.raiseHome))

theorem Canonical.clWrite (h : Canonical s) : Leaves (clWrite s dev bs).state? := by
  unfold Machine.clWrite
  split
  · exact .none
  · exact .none
  · next e => exact .some (h.clUpdate.ok e)

theorem Canonical.clAdd (h : Canonical s) : Leaves (clAdd s dev n).state? := by
  unfold Machine.clAdd
  split
  · exact .none
  · exact .none
  · next e => exact .some (h.clUpdate.ok e)

theorem Canonical.withMarks (_ : Canonical s) (ht : Canonical t) : Canonical (withMarks s t) :=
  ht.foldl fun _ _ h₁ => h₁.setDie

theorem Canonical.joinMarks {u : State} (_ : Canonical t) (hu : Canonical u) : Canonical (joinMarks t u) :=
  hu.foldl fun _ _ h₁ => h₁.setDie

theorem Canonical.alongside {α : Type} {f : State → Res α} (h : Canonical s) (ht : Canonical t)
    (hf : ∀ t, Canonical t → Leaves (f t).state?) :
    Leaves (alongside (α := α) s t f).state? := by
  unfold Machine.alongside
  split
  · next e => exact .some (ht.joinMarks ((hf _ (h.withMarks ht)).ok e))
  · exact hf _ (h.withMarks ht)

theorem Canonical.clCheck (h : Canonical s) : Leaves ((clCheck s core c p size want).toOption.map (·.2)) := by
  unfold Machine.clCheck
  split
  · exact .none
  split
  · exact .none
  next e₁ =>
  refine .some ?_
  split
  · exact (h.translate.okSnd e₁).locateEntry
  · exact h.translate.okSnd e₁

theorem Canonical.copyLine {pk : Nat} {r : LineRec} (h : Canonical s) : Canonical (copyLine s pk fk dev r) :=
  h.setFbytes.setLine

theorem Canonical.agentRead (h : Canonical s) : Leaves (agentRead s core c x n).state? := by
  unfold Machine.agentRead
  dsimp only
  split
  · exact .none
  · exact .none
  · next e =>
      split
      · exact .none
      next e₁ =>
      refine (Leaves.at ?_ e₁).clRead
      split
      · exact .some (h.placeOf.ok e)
      · exact (h.placeOf.ok e).charge
  next e =>
  refine Leaves.ite (Leaves.some (h.placeOf.ok e).reached.endHold) ?_
  split
  · exact .none
  · exact .none
  · next e₁ =>
      exact Leaves.ite .none (Leaves.some (Canonical.ite ((h.placeOf.ok e).fetchLine.ok e₁).setLine.touchFrame.copyLine
          ((h.placeOf.ok e).fetchLine.ok e₁).setLine).reached.endHold)

theorem Canonical.putPieces {p : Place} {l : List (Nat × List Byte)} (h : Canonical s) :
    Canonical (putPieces s w p logged l) := by
  induction l generalizing s with
  | nil =>
    unfold Machine.putPieces
    exact h
  | cons a l ih =>
    unfold Machine.putPieces
    exact ih h.putBytes

theorem Canonical.agentUpdate {f : State → Place → List (Nat × List Byte)} (h : Canonical s) :
    Leaves (agentUpdate s core c x f log).state? := by
  unfold Machine.agentUpdate
  dsimp only
  split
  · exact .none
  · exact .none
  · next e =>
      split
      · exact .none
      next e₁ =>
      split
      · exact .none
      · exact .none
      · next e₂ =>
          exact .some (Canonical.ite (((h.placeOf.ok e).charge.at e₁).clUpdate.ok e₂).putPieces.setHomePoison
              (((h.placeOf.ok e).charge.at e₁).clUpdate.ok e₂).putPieces)
  next e =>
  split
  · exact .none
  · exact .none
  · next e₁ =>
      exact Leaves.ite .none (Leaves.ite .none (Leaves.some
          ((h.placeOf.ok e).fetchLine.ok e₁).putPieces.setLine.reached.endHold))

theorem Canonical.agentWrite {ps : List (Nat × List Byte)} (h : Canonical s) :
    Leaves (agentWrite s core c x ps log).state? :=
  h.agentUpdate

end

/-! ### Commut -/

section
variable {s s₀ : State} {c n slot core line first dev : Nat} {r : CRange} {sealed chk flush : Bool}

theorem Canonical.wrote {key : Nat} (h : Canonical s) : Canonical (wrote s key n) := h.foldl fun _ _ h₁ => h₁.ensureSoon

theorem Canonical.setPartial {s : State} {core c : Nat} {r : CRange} {n : Nat} {v : Word32} (h : Canonical s) :
    Canonical (setPartial s core c r n v) :=
  ⟨h.home, Memory.wf_writeN _ _ h.frames⟩

theorem Canonical.setPartials (h : Canonical s) : Canonical (setPartials s core c r first n) := by
  induction n with
  | zero =>
    unfold Machine.setPartials
    exact h
  | succ n ih =>
    unfold Machine.setPartials
    exact ih.setPartial

theorem Canonical.resetPartials (h : Canonical s) : Canonical (resetPartials s core c r first n) :=
  (h.foldl (fun _ _ h₁ => h₁.logLocal)).setPartials

theorem Canonical.combineLine {cores : List Nat} (h : Canonical s) :
    Leaves (combineLine s c slot line r cores sealed).state? := by
  unfold Machine.combineLine
  dsimp only
  split
  · exact Leaves.ite .none (Leaves.some h)
  refine Leaves.ite (Leaves.some h) (Leaves.ite .none ?_)
  split
  · exact .none
  next e₁ =>
  split
  · exact .none
  · exact .none
  · next e₂ =>
      exact .some (((Canonical.ite ((h.charge.at e₁).clUpdate.ok e₂).tickFree
          ((h.charge.at e₁).clUpdate.ok e₂).tickFree.logLine).foldl (fun _ _ h₁ =>
          Canonical.ite h₁.setPartials h₁.resetPartials)).foldl (fun _ _ h₁ => h₁.strikeDie)).wrote

theorem Canonical.combineAt (h : Canonical s) : Leaves (combineAt s c slot line chk flush sealed).state? := by
  unfold Machine.combineAt
  dsimp only
  split
  · exact .some h
  refine Leaves.ite (Leaves.some h) ?_
  split
  · exact h.failed
  · exact Leaves.ite (Leaves.some h) h.combineLine

theorem Canonical.combineLines (h : Canonical s₀) (hs : Canonical s) :
    Leaves (combineLines s₀ s c slot line flush n).state? := by
  induction n generalizing s line with
  | zero =>
    unfold Machine.combineLines
    exact .some hs.updCtx.update
  | succ n ih =>
    unfold Machine.combineLines
    split
    · next e => exact ih ((h.alongside hs (fun _ h₁ => h₁.combineAt)).ok e)
    · exact .none
    · exact .some hs

theorem Canonical.combineRun (h : Canonical s) : Leaves (combineRun s c slot line n flush).state? := h.combineLines h

theorem Canonical.combineHits {l : List (Nat × Nat × Nat)} (h : Canonical s₀) (hs : Canonical s) :
    Leaves (combineHits s₀ s chk sealed l).state? := by
  induction l generalizing s with
  | nil =>
    unfold Machine.combineHits
    exact .some hs
  | cons a l ih =>
    unfold Machine.combineHits
    split
    · next e => exact ih ((h.alongside hs (fun _ h₁ => h₁.combineAt)).ok e)
    · exact h.alongside hs fun _ h₁ => h₁.combineAt

theorem Canonical.combineFirst (h : Canonical s) : Leaves (combineFirst s dev chk sealed).state? := h.combineHits h

theorem Canonical.combineNext (h : Canonical s₀) (hs : Canonical s) : Leaves (combineNext s₀ s dev).state? :=
  h.alongside hs fun _ h₁ => h₁.combineFirst

theorem Canonical.registerCore (h : Canonical s) : Canonical (registerCore s core c slot r) :=
  Canonical.ite h h.resetPartials.setCore

theorem Canonical.spoil {off : Nat} (h : Canonical s) : Canonical (spoil s core c off n) := h.updCtx

end

/-! ### Tiles -/

section
variable {s : State} {core t acc off : Nat} {bs : List Byte} {poison : Bool}

theorem Canonical.setOwner {c : Option Nat} (h : Canonical s) : Canonical (s.setOwner core t c) := h.setCore

theorem Canonical.setMx {m : Matrix} (h : Canonical s) : Canonical (s.setMx m) := h.update

theorem Canonical.putImg (h : Canonical s) : Canonical (s.putImg core t off bs poison) := h.setMx

theorem Canonical.putScl {l : List Byte} (h : Canonical s) : Canonical (s.putScl core t off poison l) := by
  induction l generalizing s off with
  | nil =>
    unfold Machine.State.putScl
    exact h
  | cons a l ih =>
    unfold Machine.State.putScl
    exact ih h.setMx

theorem Canonical.clearTile (h : Canonical s) : Canonical (s.clearTile core t) := h.setMx

theorem Canonical.setAcc {m n : Nat} {e : AccElem} (h : Canonical s) : Canonical (s.setAcc core acc m n e) := h.setMx

theorem Canonical.setImode {b : Bool} (h : Canonical s) : Canonical (s.setImode core acc b) := h.setCore

theorem Canonical.clearAcc (h : Canonical s) : Canonical (s.clearAcc core acc) := h.setMx.setImode

theorem Canonical.addTileOp {o : TileOp} (h : Canonical s) : Canonical (s.addTileOp core o) := h.setCore

theorem Canonical.endTileOp {id : Nat} (h : Canonical s) : Canonical (s.endTileOp core id) := h.setCore

theorem Canonical.endTileOf {a : Access} (h : Canonical s) : Canonical (s.endTileOf core a) := by
  unfold Machine.State.endTileOf
  split
  · exact h.endTileOp
  · exact h

theorem Canonical.loadPiece {v : Word32} {m : TMov} {p : Piece} {pz : Bool} (h : Canonical s) :
    Canonical (loadPiece s core t v m p bs pz) := by
  unfold Machine.loadPiece
  split
  · exact h.putImg
  · exact h.putImg
  · exact h.foldl fun _ _ h₁ => h₁.foldl (fun _ _ h₂ => h₂.putScl)
  · exact h.foldl fun _ _ h₁ => h₁.foldl (fun _ _ h₂ => h₂.putScl)

end

/-! ### Array -/

section
variable {s : State} {core acc i tile tv c0 nc : Nat} {pz scv sat zero : Bool} {o : ArrOp}

theorem Canonical.eachElem {s : State} {core acc : Nat} {wraps : List (Nat × Int)} {cols : List Nat}
    {f : Nat → Nat → AccElem → AccElem × Int} (h : Canonical s) : Canonical (eachElem s core acc wraps cols f).1 :=
  Canonical.foldl_fst h fun _ _ h₁ => h₁.foldl_fst fun _ _ h₂ => h₂.setAcc

theorem Canonical.mmaStep {kind a b n p : Nat} {za : Bool} {wraps : List (Nat × Int)} (h : Canonical s) :
    Canonical (mmaStep s core acc kind a b n p za pz i wraps).1 := by
  unfold Machine.mmaStep
  dsimp only
  split <;> exact h.setImode.eachElem

theorem Canonical.drainRow {m : Nat} (h : Canonical s) : Canonical (drainRow s core acc tile tv c0 scv sat zero pz i m) :=
  Canonical.ite ((Canonical.ite (h.putImg.foldl (fun _ _ h₁ => Canonical.ite h₁.setMx h₁)).putScl (h.putImg.foldl
    (fun _ _ h₁ => Canonical.ite h₁.setMx h₁))).foldl (fun _ _ h₁ => h₁.setAcc)) (Canonical.ite (h.putImg.foldl
    (fun _ _ h₁ => Canonical.ite h₁.setMx h₁)).putScl (h.putImg.foldl (fun _ _ h₁ => Canonical.ite h₁.setMx h₁)))

theorem Canonical.drainTail (h : Canonical s) : Canonical (drainTail s core tile nc) :=
  h.foldl fun _ _ h₁ => Canonical.ite (h₁.putImg.foldl (fun _ _ h₂ => h₂.putScl)) h₁.putImg

theorem Canonical.drainStep (h : Canonical s) : Canonical (drainStep s core acc tile tv c0 nc scv sat zero pz i) :=
  Canonical.ite (h.foldl (fun _ _ h₁ => h₁.drainRow)).drainTail (h.foldl (fun _ _ h₁ => h₁.drainRow))

theorem Canonical.setMprog {v : Word32} (h : Canonical s) : Canonical (s.setMprog core acc v) := h.setCore

theorem Canonical.setArr (h : Canonical s) : Canonical (s.setArr core o) := h.setCore

theorem Canonical.arrStep (h : Canonical s) : Canonical (arrStep s core o) := by
  unfold Machine.arrStep
  dsimp only
  split
  · exact h.clearAcc.setArr.setMprog
  · exact h.setOwner.setArr.setMprog
  · exact h.mmaStep.setArr.setMprog
  · exact h.drainStep.setArr.setMprog

theorem Canonical.arrCycle (h : Canonical s) : Canonical (arrCycle s core) := by
  unfold Machine.arrCycle
  dsimp only
  split
  · exact h
  split
  · exact h.setArr.setMprog
  · exact Canonical.ite h (Canonical.ite h.ensureSoon (Canonical.ite h.arrStep.ensureSoon h.arrStep))

theorem Canonical.arrCycles {l : List Nat} (h : Canonical s) : Canonical (arrCycles s l) := by
  induction l generalizing s with
  | nil =>
    unfold Machine.arrCycles
    exact h
  | cons a l ih =>
    unfold Machine.arrCycles
    exact ih h.arrCycle

theorem Canonical.arrEnd (h : Canonical s) : Canonical (arrEnd s core o) := h.endTileOp.setCore.updWave

theorem Canonical.abandonArr {c : Nat} (h : Canonical s) : Canonical (abandonArr s core c acc) := by
  unfold Machine.abandonArr
  split
  · exact h.arrEnd
  · exact h

theorem Canonical.arrComplete (h : Canonical s) : Canonical (arrComplete s core) := by
  unfold Machine.arrComplete
  dsimp only
  split
  · exact h
  refine Canonical.ite h ?_
  split
  · exact Canonical.ite h.setMprog.updWave.arrEnd.setArr.setMprog h.setMprog.updWave.arrEnd
  · exact h.setMprog.updWave.arrEnd

end

/-! ### Paths -/

section
variable {s : State} {action : Nat}

theorem Canonical.resumePath {w i : Nat} (h : Canonical s) : Canonical (resumePath s w i action) := by
  unfold Machine.resumePath
  dsimp only
  split
  · exact h
  split
  · exact h
  · exact Canonical.ite (Canonical.ite h.setWave.soon h.setWave) h.setWave

theorem Canonical.closeRecord {c serial : Nat} (h : Canonical s) : Canonical (closeRecord s c serial action) :=
  h.updCtx.soon

end

/-! ### Places -/

section
variable {s : State} {wid n lp : Nat}

theorem Canonical.resizeRuns (h : Canonical s) : Canonical (resizeRuns s wid n) := by
  unfold Machine.resizeRuns
  dsimp only
  split
  · exact h
  refine Canonical.ite h.setWave ?_
  split
  · exact h.setWave
  · exact h.setWave.foldl fun _ _ h₁ => h₁.updWave

theorem Canonical.enlarge (h : Canonical s) : Canonical (enlarge s wid n) := by
  unfold Machine.enlarge
  dsimp only
  split
  · exact h
  · exact h.resizeRuns.updWave

theorem Canonical.growWave {mask : Word64} (h : Canonical s) : Leaves (growWave s wid n mask).state? := by
  unfold Machine.growWave
  dsimp only
  split
  · exact .some h
  refine Leaves.ite .none (Leaves.ite (Leaves.some h) ?_)
  split
  · exact .none
  · exact Leaves.ite (Leaves.some h.setWave.enlarge) (Leaves.some h.setWave.updWave)

theorem Canonical.grantGrow (h : Canonical s) : Canonical (grantGrow s wid) := by
  unfold Machine.grantGrow
  dsimp only
  split
  · exact h
  · exact Canonical.ite h.enlarge h

theorem Canonical.writeSpill {w : Wave} (h : Canonical s) : Canonical (writeSpill s wid w) :=
  h.foldl fun _ _ h₁ => h₁.foldl (fun _ _ h₂ => h₂.localWrite)

theorem Canonical.spillOne (h : Canonical s) : Canonical (spillOne s lp) := by
  unfold Machine.spillOne
  split
  · exact h.writeSpill.setWave
  · exact h

theorem Canonical.restoreWave (h : Canonical s) : Canonical (restoreWave s wid) := by
  unfold Machine.restoreWave
  dsimp only
  split
  · exact h
  · exact Canonical.ite (Canonical.ite h.setWave.enlarge h.setWave.resizeRuns) h

theorem Canonical.serveLane (h : Canonical s) : Canonical (serveLane s lp) := by
  unfold Machine.serveLane
  split
  · exact Canonical.ite h.ensureSoon (Canonical.ite h.ensureSoon h)
  split
  · exact Canonical.ite h.ensureSoon h
  · exact h

theorem Canonical.watchWaves (h : Canonical s) : Canonical (watchWaves s) := by
  unfold Machine.watchWaves
  refine (h.foldl (fun s₁ a₁ h₁ => Canonical.ite h₁.ensureSoon ?_)).foldl (fun _ _ h₁ => h₁.serveLane)
  split
  · exact Canonical.ite h₁.ensureSoon h₁
  · exact h₁

end

/-! ### Launch -/

section
variable {s s₀ : State} {c id n : Nat} {w : Who} {p : Word64} {r : LaunchRec} {first : Bool}

theorem Canonical.lendTokens {k : Nat} {ds : List (Nat × Int)} (h : Canonical s) : Canonical (lendTokens s k ds) :=
  h.foldl fun _ _ h₁ => h₁.updCtx

theorem Canonical.onCredit {α : Type} {dev : Nat} {f : State → Res α} (h : Canonical s) (hf : ∀ t, Canonical t → Leaves
    (f t).state?) :
    Leaves (onCredit (α := α) s c dev f).state? := by
  unfold Machine.onCredit
  dsimp only
  split
  · next e => exact .some ((hf _ h.lendTokens).ok e).lendTokens
  · exact hf _ h.lendTokens

theorem Canonical.recordPiece {x : Xl} (h : Canonical s₀) (hs : Canonical s) : Leaves (recordPiece s₀ s w x first).state? :=
  Leaves.ite hs.readAt (hs.onCredit (fun _ h₁ => h.alongside h₁ (fun _ h₂ => h₂.readAt)))

theorem Canonical.loadFrom (h : Canonical s₀) (hs : Canonical s) : Leaves (loadFrom s₀ s w p first n).state? := by
  induction n generalizing s p first with
  | zero =>
    unfold Machine.loadFrom
    exact .some hs
  | succ n ih =>
    unfold Machine.loadFrom
    dsimp only
    split
    · exact hs.failed
    · next e =>
        split
        · next e₁ => exact .some ((ih (hs.checkAccess.okSnd e)).ok e₁)
        · exact ih (hs.checkAccess.okSnd e)
    next e =>
    split
    · exact .none
    · exact .none
    next e₁ =>
    split
    · exact .none
    · exact .none
    next e₂ =>
    split
    · next e₃ => exact .some ((ih ((h.recordPiece ((h.combineNext (hs.checkAccess.okSnd e)).ok e₁)).ok e₂)).ok e₃)
    · exact ih ((h.recordPiece ((h.combineNext (hs.checkAccess.okSnd e)).ok e₁)).ok e₂)

theorem Canonical.loadRecord (h : Canonical s) : Leaves (loadRecord s w p n).state? := h.loadFrom h

theorem Canonical.readLaunch (h : Canonical s) : Leaves (readLaunch s w p).state? := by
  unfold Machine.readLaunch
  refine Leaves.ite .none ?_
  dsimp only
  split
  · exact .none
  · exact .none
  · exact .none
  next e =>
  split
  · exact .none
  · exact .some (h.loadRecord.ok e)

theorem Canonical.updJob {f : Job → Job} (h : Canonical s) : Canonical (s.updJob c id f) := h.updCtx

theorem Canonical.jobFault {f : Fail} (h : Canonical s) : Canonical (jobFault s c id f) := by
  unfold Machine.jobFault
  dsimp only
  split
  · exact h
  · exact (Canonical.ite h h.updJob.raiseNoPath).ensureTicks

theorem Canonical.dropJob (h : Canonical s) : Canonical (dropJob s c id) := h.updCtx

theorem Canonical.bump {core : Nat} (h : Canonical s) : Leaves (bump s core c p n).state? := by
  unfold Machine.bump
  dsimp only
  split
  · exact .none
  split
  · exact h.failed
  next e₁ =>
  split
  · exact .none
  · exact .none
  next e₂ =>
  split
  · exact .none
  · exact .none
  next e₃ =>
  refine .some (Canonical.ite (Leaves.ok ?_ e₃) (Leaves.ok ?_ e₃).logLine).wrote
  · split
    · exact .none
    · next e₄ =>
        exact (h.translate.okSnd e₁).alongside (((h.translate.okSnd e₁).combineFirst.ok e₂).charge.at e₄)
            fun _ h₁ => h₁.clAdd
  split
  · exact .none
  · next e₄ =>
      exact (h.translate.okSnd e₁).alongside (((h.translate.okSnd e₁).combineFirst.ok e₂).charge.at e₄) fun _ h₁ => h₁.clAdd

theorem Canonical.complete (h : Canonical s) : Canonical (complete s c id r) := Canonical.ite h.updJob.ensureSoon h.dropJob

theorem Canonical.enterQueue (h : Canonical s) : Canonical (enterQueue s c r) := by
  unfold Machine.enterQueue
  dsimp only
  split
  · exact h
  refine Canonical.ite h.fresh.setCtx.complete (Canonical.ite ?_ h.fresh.setCtx.ensureSoon)
  split
  · exact h.setCtx.ensureSoon
  · exact h.fresh.setCtx.after.ensureSoon

theorem Canonical.enterReady (h : Canonical s) : Canonical (enterReady s c) := by
  unfold Machine.enterReady
  refine h.foldl fun s₁ a₁ h₁ => ?_
  split
  · exact Canonical.ite h₁.setCtx.enterQueue h₁
  · exact h₁

theorem Canonical.enqueue (h : Canonical s) : Leaves (enqueue s c r) := by
  unfold Machine.enqueue
  split
  · exact .some h
  split
  · split
    · exact .none
    split
    · next e₂ => exact .some (h.fresh.congr (congrArg Prod.snd e₂)).setCtx.soon
  split
  · exact .none
  · exact .some h.enterQueue

theorem Canonical.pollWait (h : Canonical s) : Canonical (pollWait s c id) := by
  unfold Machine.pollWait
  dsimp only
  split
  · refine Canonical.ite h ?_
    split
    · exact Canonical.ite (Canonical.ite h h.waitTick) h.jobFault
    next e₁ =>
    split
    · exact Canonical.ite h h.waitTick
    · exact h.jobFault
    next e₂ =>
    split
    · exact Canonical.ite h h.waitTick
    · exact h.jobFault
    · next e₃ =>
        exact Canonical.ite (((h.clCheck.okSnd e₁).combineFirst.ok e₂).clRead.ok e₃).updJob.enterReady
            (((h.clCheck.okSnd e₁).combineFirst.ok e₂).clRead.ok e₃).ensureTicks
  · exact h

end

/-! ### Window -/

section
variable {s : State} {wid c id n root n1 : Nat} {l : Lane} {a : Access} {w : Who} {x : Iss} {i self : Instr} {k : AccKind}
  {f : State → State}

theorem Canonical.noteWrite {path : Nat} (h : Canonical s) : Canonical (noteWrite s wid path) := h.update

theorem Canonical.laneCheck {core : Nat} {size : Nat} {want : BitVec 3} {sp : Spaces} (h : Canonical s) :
    Leaves ((laneCheck s core c l size want sp).toOption.map (·.2)) := by
  unfold Machine.laneCheck
  split
  · exact .some h
  · exact h.checkAccess

theorem Canonical.laneRead (h : Canonical s) : Leaves (laneRead s w l k).state? := by
  unfold Machine.laneRead
  dsimp only
  split
  · exact h.failed
  · next e => exact .some (h.laneCheck.okSnd e).touchLocal
  next e =>
  split
  · exact .none
  · exact .none
  next e₁ =>
  split
  · exact .none
  · exact .none
  · next e₂ => exact .some (((h.laneCheck.okSnd e).combineFirst.ok e₁).readAt.ok e₂)

theorem Canonical.laneWrite {f : List Byte → Option (List Byte)} (h : Canonical s) :
    Leaves (laneWrite s w l k f).state? := by
  unfold Machine.laneWrite
  dsimp only
  split
  · exact h.failed
  · next e =>
      refine Leaves.ite .none ?_
      split
      · exact .some (h.laneCheck.okSnd e).strikeCore.touchLocal
      · exact .some (h.laneCheck.okSnd e).localWrite.touchLocal.wrote
  next e =>
  split
  · exact .none
  · exact .none
  next e₁ =>
  split
  · split
    · exact .none
    · exact .none
    · next e₃ => exact .some (((h.laneCheck.okSnd e).combineFirst.ok e₁).casReadAt.ok e₃).strikeCore
  split
  · exact .none
  · exact .none
  · next e₃ => exact .some (((h.laneCheck.okSnd e).combineFirst.ok e₁).writeAt.ok e₃).putBytes.wrote

theorem Canonical.laneCadd {o : COp} {v : Word32} (h : Canonical s) : Leaves (laneCadd s w l o v).state? := by
  unfold Machine.laneCadd
  dsimp only
  split
  · exact h.failed
  · next e => exact .some (h.laneCheck.okSnd e)
  next e =>
  split
  · refine Leaves.ite .none (Leaves.some (Canonical.registerCore ?_).logLocal.setPartial.strikeCore.touchLocal)
    split
    · exact (h.laneCheck.okSnd e).locateEntry
    · exact h.laneCheck.okSnd e
  · exact h.laneWrite

theorem Canonical.lanePrf (h : Canonical s) : Leaves (lanePrf s w l).state? := by
  unfold Machine.lanePrf
  split
  · exact Leaves.ite .none (Leaves.some h)
  · exact .some h
  next e =>
  split
  · exact .none
  · exact .some h
  next e₁ =>
  split
  · exact .none
  · exact .some h
  · next e₂ => exact .some (((h.laneCheck.okSnd e).combineFirst.ok e₁).placeOf.ok e₂)
  next e₂ =>
  split
  · exact .none
  · exact .some h
  · next e₃ => exact .some ((((h.laneCheck.okSnd e).combineFirst.ok e₁).placeOf.ok e₂).readAt.ok e₃)

theorem Canonical.laneOp (h : Canonical s) : Leaves (laneOp s w wid a l).state? := by
  unfold Machine.laneOp
  dsimp only
  split
  · split
    · exact .none
    · exact .none
    · next e₁ => exact .some (Canonical.ite (h.laneRead.ok e₁).spoil (h.laneRead.ok e₁))
  · split
    · exact .none
    · exact .none
    · next e₁ => exact .some (Canonical.ite (h.laneRead.ok e₁).spoil (h.laneRead.ok e₁))
  · split
    · next e₁ =>
        refine .some (Canonical.ite (Leaves.ok ?_ e₁).spoil (Leaves.ok ?_ e₁))
        · split
          · exact .none
          · exact .none
          · next e₂ => exact .some (h.laneWrite.ok e₂)
        split
        · exact .none
        · exact .none
        · next e₂ => exact .some (h.laneWrite.ok e₂)
    split
    · exact .none
    · exact .none
    · next e₁ => exact .some (h.laneWrite.ok e₁)
  · split
    · next e₁ =>
        refine .some (Canonical.ite (Leaves.ok ?_ e₁).spoil (Leaves.ok ?_ e₁))
        · split
          · exact .none
          · exact .none
          · next e₂ => exact .some (h.laneWrite.ok e₂)
        split
        · exact .none
        · exact .none
        · next e₂ => exact .some (h.laneWrite.ok e₂)
    split
    · exact .none
    · exact .none
    · next e₁ => exact .some (h.laneWrite.ok e₁)
  · split
    · exact .none
    · exact .none
    · next e₁ => exact .some (h.laneWrite.ok e₁)
  · split
    · exact .none
    · exact .none
    · next e₁ => exact .some (h.laneWrite.ok e₁)
  · split
    · exact .none
    · exact .none
    · next e₁ => exact .some (h.laneCadd.ok e₁)
  · split
    · exact .none
    · exact .none
    · next e₁ => exact .some (h.laneWrite.ok e₁)
  · refine Leaves.ite (Leaves.some h) ?_
    split
    · exact .none
    · exact .none
    · next e₁ => exact .some (h.laneWrite.ok e₁)
  · split
    · exact .none
    · exact .none
    · next e₁ => exact .some (h.laneWrite.ok e₁)
  · split
    · exact .none
    · exact .none
    · next e₁ => exact .some (h.laneWrite.ok e₁)
  · split
    · exact .none
    · exact .none
    · next e₁ => exact .some (h.laneRead.ok e₁)
  · split
    · exact .none
    · exact .none
    · next e₁ => exact .some (h.lanePrf.ok e₁)
  · split
    · exact .some h
    split
    · exact .some h
    split
    · exact .none
    · exact .none
    · next e₃ => exact .some (h.combineRun.ok e₃)
  · split
    · exact .none
    · exact .none
    · next e₁ => exact .some ((h.laneRead.ok e₁).foldl (fun _ _ h₁ => h₁.loadPiece))
  · split
    · exact .none
    · exact .none
    · next e₁ => exact .some (h.laneWrite.ok e₁)
  · exact .some h

theorem Canonical.rollbackAll {ok : Nat → Wave → Bool} (h : Canonical s) : Canonical (rollbackAll s ok) :=
  h.foldl fun _ _ h₁ => h₁.rollback

theorem Canonical.settleHits (h : Canonical s) : Canonical (settleHits s) :=
  Canonical.ite h.update (h.update.foldl (fun _ _ h₁ => h₁.rollback))

theorem Canonical.servePaused (h : Canonical s) : Canonical (servePaused s root) :=
  h.update.foldl fun _ _ h₁ => h₁.foldl (fun _ _ h₂ => h₂.ensureSoon)

theorem Canonical.checkpointOf (h : Canonical s) : Canonical (checkpointOf s root) := by
  unfold Machine.checkpointOf
  dsimp only
  split
  · exact h
  split
  · exact h.rollbackAll.update.setPart.servePaused
  · exact h.rollbackAll.update

theorem Canonical.takeSeal (h : Canonical s) : Canonical (takeSeal s c) := h.checkpointOf

theorem Canonical.pausePart (h : Canonical s) : Canonical (pausePart s root) := by
  unfold Machine.pausePart
  split
  · exact h
  · exact Canonical.ite h h.setPart.rollbackAll

theorem Canonical.askCheckpoint (h : Canonical s) : Canonical (askCheckpoint s root) :=
  Canonical.ite h (Canonical.ite h.pausePart.ensureSoon h)

theorem Canonical.sealedAct {act : State → Act} (h : Canonical s) (hact : ∀ t, Canonical t → Leaves (act t).state?) :
    Leaves (sealedAct x s act).state? :=
  Leaves.ite (hact _ h) (Leaves.ite (Leaves.some h.updWave.askCheckpoint) (hact _ h.takeSeal))

theorem Canonical.issueSealed {act : Iss → State → Act} (h : Canonical s) (hact : ∀ a0 t, Canonical t → Leaves
    (act a0 t).state?) :
    Leaves (nextState (issueSealed i s act)) :=
  h.issue fun _ _ h₁ => h₁.sealedAct (fun _ h₂ => hact _ _ h₂)

theorem Canonical.withLines {keys : List Nat} (h : Canonical s) (hf : ∀ t, Canonical t → Canonical (f t)) :
    Canonical (withLines s c keys self f) :=
  Canonical.ite (hf _ h) (Canonical.ite h.askCheckpoint.ensureTicks (hf _ h.takeSeal))

theorem Canonical.logRoom (h : Canonical s) : Canonical (logRoom s c) := Canonical.ite h.takeSeal h

theorem Canonical.withRoom (h : Canonical s) (hf : ∀ t, Canonical t → Canonical (f t)) : Canonical (withRoom s c self f) :=
  Canonical.ite h.askCheckpoint.ensureTicks (hf _ h.logRoom)

theorem Canonical.checkpointFor (h : Canonical s) : Canonical (checkpointFor s wid c id).1 := by
  unfold Machine.checkpointFor
  dsimp only
  split
  · exact h.updWave.checkpointOf
  · exact h.updWave.askCheckpoint

theorem Canonical.dropHeld (h : Canonical s) : Canonical (dropHeld s wid id) := h.setCore

theorem Canonical.refuseHeld {h : HeldLaunch} {f : FaultInfo} (hs : Canonical s) : Canonical (refuseHeld s wid h f) := by
  unfold Machine.refuseHeld
  dsimp only
  split
  · exact hs.dropHeld
  refine Canonical.ite hs.setCore.ensureTicks ?_
  split
  · exact hs.rollback
  split
  · exact hs.rollback.dropHeld.raiseNoPath
  · exact Canonical.ite hs.rollback.setCore.ensureTicks hs.rollback.setWave.dropHeld.takeFault

theorem Canonical.lateLaunches (h : Canonical s) : Canonical (lateLaunches s wid) := by
  unfold Machine.lateLaunches
  refine h.foldl fun s₁ a₁ h₁ => ?_
  split
  · exact Canonical.ite h₁.refuseHeld h₁
  · exact h₁

theorem Canonical.noteFull {r : LaunchRec} (h : Canonical s) : Canonical (noteFull s wid id r) := h.setCore

theorem Canonical.releaseRun (h : Canonical s) : Canonical (releaseRun n s n1) := by
  induction n generalizing s n1 with
  | zero =>
    unfold Machine.releaseRun
    exact h
  | succ n ih =>
    unfold Machine.releaseRun
    split
    · split
      · exact h.waitTick
      · exact ih h.refuseHeld
      next e₁ =>
      split
      · refine (Leaves.ok ?_ e₁).noteFull.ensureTicks
        split
        · exact .some h
        · exact h.readLaunch
      next e₂ =>
      refine ih ((Leaves.ok ?_ e₁).enqueue.at e₂).dropHeld
      split
      · exact .some h
      · exact h.readLaunch
    · exact h

theorem Canonical.releaseLaunches (h : Canonical s) : Canonical (releaseLaunches s wid n) := h.setCore.releaseRun

theorem Canonical.accessFault {kind : ParkKind} {f : FaultInfo} (h : Canonical s) :
    Canonical (accessFault s wid a kind f) := by
  unfold Machine.accessFault
  dsimp only
  split
  · exact h.rollback
  · exact h.rollback.setWave.endTileOf.takeFault.releaseLaunches

theorem Canonical.waitHigh {t r : Nat} (h : Canonical s) : Canonical (waitHigh s wid id t r) := h.updWave.waitTick

theorem Canonical.runLanes {x : Access} (h : Canonical s) : Leaves (runLanes n s n1 x).state? := by
  induction n generalizing s n1 x with
  | zero =>
    unfold Machine.runLanes
    exact .some h
  | succ n ih =>
    unfold Machine.runLanes
    dsimp only
    split
    · split
      · next e₁ =>
          refine .some (Canonical.congr ?_ (congrArg Prod.fst e₁))
          split
          · exact h.checkpointFor
          · exact h
      next e₁ =>
      split
      · refine .some (Canonical.congr ?_ (congrArg Prod.fst e₁))
        split
        · exact h.checkpointFor
        · exact h
      · refine .some (Canonical.congr ?_ (congrArg Prod.fst e₁))
        split
        · exact h.checkpointFor
        · exact h
      next e₂ =>
      split
      · refine .some ((Canonical.congr ?_ (congrArg Prod.fst e₁)).laneOp.ok e₂).updWave.tickFree.latchLand
        split
        · exact h.checkpointFor
        · exact h
      refine ih ((Canonical.congr ?_ (congrArg Prod.fst e₁)).laneOp.ok e₂).updWave.tickFree.latchLand
      split
      · exact h.checkpointFor
      · exact h
    · exact .some h

theorem Canonical.unpoison {die ln : Nat} (h : Canonical s) : Canonical (unpoison s die ln) := by
  unfold Machine.unpoison
  split
  · exact h.setLine
  · exact h.setHomePoison

theorem Canonical.clearWhole {w : Wave} (h : Canonical s) : Canonical (clearWhole s wid w a) :=
  h.foldl fun _ _ h₁ => Canonical.ite h₁.setLine h₁.unpoison

theorem Canonical.fixLanes {s : State} {core c : Nat} {i : Instr} {l : List Lane} (h : Canonical s) :
    Canonical (fixLanes s core c i l).1 := by
  induction l generalizing s with
  | nil => exact h
  | cons a l ih =>
    unfold Machine.fixLanes
    split
    · next e => exact ih (h.laneCheck.at (congrArg (fun x => x.toOption.map Prod.snd) e))
    · exact ih h

theorem Canonical.endHolds {w : Wave} (h : Canonical s) : Canonical (endHolds s wid w a) := by
  unfold Machine.endHolds
  refine h.foldl fun s₁ a₁ h₁ => ?_
  split
  · exact h₁.endHold
  · exact h₁

theorem Canonical.performLanes {s : State} {wid : Nat} {w : Wave} {a : Access} (h : Canonical s) :
    Canonical (performLanes s wid w a).1 := by
  unfold Machine.performLanes
  dsimp only
  have asked : Canonical (if needsSeal s (coreOf wid) w.ctx a then Machine.checkpointFor s wid w.ctx a.id else (s, true)).1 := by
    split
    · exact h.checkpointFor
    · exact h
  split
  · next e => exact asked.congr (congrArg Prod.fst e)
  · next t e =>
    have ready : Canonical t := asked.congr (congrArg Prod.fst e)
    have fixed : Canonical (if a.next == 0 then Machine.fixLanes t (coreOf wid) w.ctx a.instr a.lanes else (t, a.lanes)).1 := by
      split
      · exact ready.fixLanes
      · exact ready
    split
    · next e => exact (fixed.runLanes.at (congrArg Came.state? e)).updWave.waitHigh
    · next e => exact (fixed.runLanes.at (congrArg Came.state? e)).updWave
    · next e => exact (fixed.runLanes.at (congrArg Came.state? e)).accessFault
    · next u e =>
      have done : Canonical u := fixed.runLanes.at (congrArg Came.state? e)
      exact .ite done.clearWhole.endHolds.updWave.endTileOf.noteWrite done.clearWhole.endHolds.updWave.endTileOf

theorem Canonical.performOldest {s : State} {wid : Nat} {a : Access} (h : Canonical s) : Canonical (performOldest s wid a).1 := by
  unfold Machine.performOldest
  split
  · exact h
  · split
    · exact h
    · split
      · exact h.performLanes
      · split
        · split
          · exact h.waitTick (t := s.clk.tick + 1) (r := 0) (i := .accessPerformed wid a.id)
          · exact h.accessFault (kind := .fault)
        · split
          · exact h.accessFault (kind := .debug)
          · exact h.performLanes

theorem Canonical.earlyRead {ptr : Word64} (h : Canonical s) : Leaves ((earlyRead s wid id i ptr).bind Res.state?) := by
  unfold Machine.earlyRead
  dsimp only
  split
  · exact .none
  split
  · exact .none
  split
  · split
    · exact .none
    split
    · split
      · exact .some h
      · exact .none
    split
    · exact .some h
    · exact .none
  · next e₂ =>
      split
      · exact .none
      split
      · exact .none
      · exact .some (h.checkAccess.okSnd e₂).touchLocal.updWave
  next e₂ =>
  split
  · exact .none
  split
  · exact .none
  · exact .none
  next e₃ =>
  split
  · exact .none
  · exact .none
  · next e₄ =>
      split
      · split
        · exact .some (((h.checkAccess.okSnd e₂).combineFirst.ok e₃).placeOf.ok e₄)
        · exact .none
      split
      · exact .some (((h.checkAccess.okSnd e₂).combineFirst.ok e₃).placeOf.ok e₄)
      · exact .none
  next e₄ =>
  split
  · exact .none
  · exact .none
  next e₅ =>
  split
  · exact .none
  split
  · exact .none
  · exact .some (Canonical.ite ((((h.checkAccess.okSnd e₂).combineFirst.ok e₃).placeOf.ok e₄).readAt.ok e₅).setDie
      ((((h.checkAccess.okSnd e₂).combineFirst.ok e₃).placeOf.ok e₄).readAt.ok e₅)).updWave

theorem Canonical.earlyLane (h : Canonical s) : Leaves ((earlyLane s wid a l).bind Res.state?) := by
  unfold Machine.earlyLane
  dsimp only
  split
  · exact .none
  · exact .none
  · exact .none
  · next e => exact .some (h.earlyRead.at (congrArg (Option.bind · Res.state?) e))
  next e =>
  refine .some (Canonical.updWave ?_).tickFree.latchLand
  split
  · exact (h.earlyRead.at (congrArg (Option.bind · Res.state?) e)).spoil
  · exact h.earlyRead.at (congrArg (Option.bind · Res.state?) e)

theorem Canonical.earlyLanes {x : Access} (h : Canonical s) : Leaves ((earlyLanes n s n1 x).bind Res.state?) := by
  induction n generalizing s n1 x with
  | zero =>
    unfold Machine.earlyLanes
    exact .some h
  | succ n ih =>
    unfold Machine.earlyLanes
    split
    · exact .some h
    split
    · next e₁ => exact ih (h.earlyLane.at (congrArg (Option.bind · Res.state?) e₁))
    · exact h.earlyLane

theorem Canonical.performEarly (h : Canonical s) : Canonical (performEarly s wid a) := by
  unfold Machine.performEarly
  split
  · exact h
  refine Canonical.ite h ?_
  split
  · next e₁ => exact (h.earlyLanes.at (congrArg (Option.bind · Res.state?) e₁)).updWave
  · exact h.waitHigh
  · exact h
  · exact h

theorem Canonical.commitTo (h : Canonical s) : Canonical (commitTo s wid n) := by
  unfold Machine.commitTo
  dsimp only
  split
  · exact h
  split
  · exact h
  · exact (Canonical.ite h h.setCore.ensureSoon).setWave.unpin

theorem Canonical.closeWindow (h : Canonical s) : Canonical (closeWindow s wid) := by
  unfold Machine.closeWindow
  split
  · exact h
  · exact h.commitTo.updWave

theorem Canonical.drain (h : Canonical s) : Canonical (drain n s n1) := by
  induction n generalizing s n1 with
  | zero =>
    unfold Machine.drain
    exact h
  | succ n ih =>
    unfold Machine.drain
    dsimp only
    split
    · exact h
    split
    · exact h.closeWindow.releaseLaunches
    refine Canonical.ite ?_ h.commitTo.ensureSoon.releaseLaunches
    split
    · next e₂ =>
        split
        · exact (h.commitTo.performOldest.ofFst e₂).rollback.releaseLaunches
        · exact ih (h.commitTo.performOldest.ofFst e₂)
    · next e₂ => exact h.commitTo.performOldest.ofFst e₂

theorem Canonical.commit {k : Nat} (h : Canonical s) : Canonical (commit k s wid) := by
  unfold Machine.commit
  split
  · exact h
  split
  · exact h
  · exact Canonical.ite h.drain h.rollback

theorem Canonical.performAccess (h : Canonical s) : Canonical (performAccess s wid id) := by
  unfold Machine.performAccess
  split
  · exact h
  split
  · exact Canonical.ite h.lateLaunches.releaseRun.settleHits h
  refine Canonical.ite h (Canonical.ite h.after (Canonical.ite (Canonical.ite h.ensureTicks ?_) h.performEarly.settleHits))
  split
  · next e₂ => exact (h.performOldest.ofFst e₂).commit.settleHits
  · next e₂ => exact (h.performOldest.ofFst e₂).settleHits

theorem Canonical.breakStop {b : Nat} (h : Canonical s) : Leaves (breakStop x s b).state? :=
  Leaves.ite (Leaves.some h.disarm) .none

theorem Canonical.issueAccess {lanes : List Lane} {tile : Option Nat} (h : Canonical s) :
    Leaves (issueAccess i x s lanes tile).state? := by
  unfold Machine.issueAccess
  refine Leaves.ite .none (Leaves.ite .none ?_)
  dsimp only
  split
  · exact .none
  split
  · exact .some h.disarm
  · exact .some h.updWave.later

end

/-! ### Skipper -/

section
variable {s : State} {c : Copy} {wid n id action i : Nat}

theorem Canonical.setCopy (h : Canonical s) : Canonical (s.setCopy c) := h.update

theorem Canonical.copyProg {active stopped : Bool} (h : Canonical s) : Canonical (copyProg s c active stopped) := h.updWave

theorem Canonical.abandonCopy (h : Canonical s) : Canonical (abandonCopy s wid) := by
  unfold Machine.abandonCopy
  dsimp only
  split
  · exact h
  · exact h.endTileOp.setCopy.updWave

theorem Canonical.teamOpDone {t : Option Nat} (h : Canonical s) : Canonical (teamOpDone s t) := by
  unfold Machine.teamOpDone
  dsimp only
  split
  · exact h
  split
  · exact h
  · exact h.setCore

theorem Canonical.dropCopy {flag : Bool} (h : Canonical s) : Canonical (dropCopy s c flag) := by
  unfold Machine.dropCopy
  refine Canonical.teamOpDone ?_
  split
  · refine Canonical.ite (Canonical.ite (Canonical.updWave ?_) ?_) (Canonical.ite (Canonical.updWave ?_) ?_).update
    · split
      · exact h.update.endTileOp.endTileOp
      · exact h.update.endTileOp
    · split
      · exact h.update.endTileOp.endTileOp
      · exact h.update.endTileOp
    · split
      · exact h.update.endTileOp.endTileOp
      · exact h.update.endTileOp
    split
    · exact h.update.endTileOp.endTileOp
    · exact h.update.endTileOp
  refine Canonical.ite (Canonical.updWave ?_) ?_
  · split
    · exact h.update.endTileOp.endTileOp
    · exact h.update.endTileOp
  split
  · exact h.update.endTileOp.endTileOp
  · exact h.update.endTileOp

theorem Canonical.releaseOwner (h : Canonical s) : Canonical (releaseOwner s c) := h.updWave

theorem Canonical.gatherElem {h : TShape} {k : Nat} (hs : Canonical s) : Leaves (gatherElem s c h k).state? := by
  unfold Machine.gatherElem
  dsimp only
  split
  · exact hs.failed
  next e =>
  split
  · refine (Leaves.at ?_ (congrArg Except.toOption e)).failed
    refine Leaves.ite (Leaves.some hs) ?_
    split
    · exact .none
    · next e₂ => exact .some (hs.checkAccess.okSnd e₂)
  · next e₁ =>
      refine .some ((Leaves.at ?_ (congrArg Except.toOption e)).checkAccess.okSnd e₁)
      refine Leaves.ite (Leaves.some hs) ?_
      split
      · exact .none
      · next e₂ => exact .some (hs.checkAccess.okSnd e₂)
  next e₁ =>
  split
  · exact .none
  · exact .none
  next e₂ =>
  split
  · exact .none
  · exact .none
  next e₃ =>
  refine Leaves.ite .none (Leaves.some ((((Leaves.at ?_ (congrArg
      Except.toOption e)).checkAccess.okSnd e₁).combineFirst.ok e₂).agentRead.ok e₃))
  refine Leaves.ite (Leaves.some hs) ?_
  split
  · exact .none
  · next e₄ => exact .some (hs.checkAccess.okSnd e₄)

theorem Canonical.gatherElems {h : TShape} {n1 : Nat} (hs : Canonical s) :
    Leaves ((gatherElems s c h n n1).toOption.map (·.1)) := by
  induction n1 generalizing s c with
  | zero =>
    unfold Machine.gatherElems
    exact .some hs
  | succ n ih =>
    unfold Machine.gatherElems
    dsimp only
    split
    · exact .some hs
    split
    · exact .none
    · exact .some hs.gate
    · next e => exact ih (hs.gatherElem.ok e).setCopy

theorem Canonical.reduceLine {h : TShape} {line : Nat} {logged : Bool} {es : List (Nat × SrcElem)} (hs : Canonical s) :
    Leaves (reduceLine s c h line logged es).state? := by
  unfold Machine.reduceLine
  dsimp only
  split
  · exact .none
  next e =>
  split
  · exact .none
  · exact .none
  · next e₁ => exact .some (Canonical.ite ((hs.charge.at e).clUpdate.ok e₁).logLine ((hs.charge.at e).clUpdate.ok e₁))

theorem Canonical.putLine {h : TShape} (hs : Canonical s) : Leaves (putLine s c h).state? := by
  unfold Machine.putLine
  refine Leaves.ite (Leaves.some hs.putImg.setMx) ?_
  dsimp only
  split
  · exact hs.failed
  · next e => exact .some (hs.checkAccess.okSnd e)
  next e =>
  split
  · exact .none
  · exact .none
  next e₁ =>
  split
  · exact .none
  · exact .none
  · next e₂ =>
      exact .some (((hs.checkAccess.okSnd e).alongside ((hs.checkAccess.okSnd e).combineFirst.ok e₁)
          (fun _ h₁ => Leaves.ite h₁.tickFree.agentWrite h₁.tickFree.reduceLine)).ok e₂).wrote

theorem Canonical.moveLine {h : TShape} (hs : Canonical s) : Leaves (moveLine s c h).state? := by
  unfold Machine.moveLine
  refine Leaves.ite (Leaves.some hs.askCheckpoint) ?_
  split
  · exact .none
  · next e => exact .some (hs.logRoom.gatherElems.okFst e)
  next e =>
  split
  · exact .some (hs.logRoom.gatherElems.okFst e).gate
  · exact .none
  · next e₁ => exact .some ((hs.logRoom.gatherElems.okFst e).putLine.ok e₁)

theorem Canonical.copyCycle (h : Canonical s) : Canonical (copyCycle s id n).1 := by
  induction n generalizing s with
  | zero =>
    unfold Machine.copyCycle
    exact h
  | succ n ih =>
    unfold Machine.copyCycle
    dsimp only
    split
    · exact h
    split
    · exact h
    split
    · exact h
    split
    · exact h.setCopy.ensureSoon
    split
    · next e₂ => exact h.moveLine.at (congrArg Moved.state? e₂)
    · exact h.ensureSoon
    next e₂ =>
    split
    · exact (h.moveLine.at (congrArg Moved.state? e₂)).setCopy.copyProg.setCopy.ensureSoon
    · exact ih (h.moveLine.at (congrArg Moved.state? e₂)).setCopy.copyProg

theorem Canonical.coreCopies {l : List Nat} (h : Canonical s) : Canonical (coreCopies s l n) := by
  induction l generalizing s n with
  | nil =>
    unfold Machine.coreCopies
    exact h
  | cons a l ih =>
    unfold Machine.coreCopies
    split
    · next e => exact ih (h.copyCycle.ofFst e)

theorem Canonical.copyCycles (h : Canonical s) : Canonical (copyCycles s) := h.foldl fun _ _ h₁ => h₁.coreCopies.settleHits

theorem Canonical.parkOwner {kind : ParkKind} {f : FaultInfo} (h : Canonical s) : Leaves (parkOwner s c kind f).state? := by
  unfold Machine.parkOwner
  dsimp only
  split
  · exact .none
  refine Leaves.ite .none ?_
  split
  · exact .none
  refine Leaves.ite .none ?_
  split
  · exact .none
  · exact .some h.rollback.setWave.takeFault

theorem Canonical.copyReply {deferred : Bool} (h : Canonical s) : Canonical (copyReply s id action deferred) := by
  unfold Machine.copyReply
  dsimp only
  split
  · exact h
  · exact Canonical.ite h.dropCopy.copyProg (Canonical.ite (Canonical.ite h.soon h)
      (Canonical.ite h.setCopy.soon h.setCopy.copyProg))

theorem Canonical.chainReply (h : Canonical s) : Canonical (chainReply s id action) := by
  unfold Machine.chainReply
  split
  · exact h
  · exact h.setCopy.soon

theorem Canonical.launchReply {rec pc : Nat} (h : Canonical s) : Canonical (launchReply s wid i rec pc) :=
  h.fresh.setCore.releaseRun

theorem Canonical.applyAction (h : Canonical s) : Canonical (applyAction s wid i action) := by
  unfold Machine.applyAction
  dsimp only
  split
  · exact h
  split
  · exact h
  split
  · exact h.resumePath
  · exact h.resumePath
  · exact Canonical.ite h.resumePath.launchReply h.resumePath
  · exact h.resumePath.copyReply
  · exact h.resumePath.chainReply

end

/-! ### Fetch -/

section
variable {s : State} {lpi wid i b : Nat}

theorem Canonical.requestFetch {counted : Bool} (h : Canonical s) : Canonical (requestFetch s wid i b counted) :=
  h.updWave.later

theorem Canonical.fetchFault {n : Nat} {f : Fail} (h : Canonical s) : Canonical (fetchFault s wid i n f) := by
  unfold Machine.fetchFault
  dsimp only
  split
  · exact h
  refine Canonical.ite h (Canonical.ite h.setWave ?_)
  split
  · exact (Canonical.ite h.disarm h).rollback.takeFault
  · exact h.rollback.takeFault

theorem Canonical.fetchArrive (h : Canonical s) : Canonical (fetchArrive s wid i b) := by
  unfold Machine.fetchArrive
  dsimp only
  split
  · exact h
  split
  · exact h
  refine Canonical.ite h.after ?_
  split
  · exact Canonical.ite h.after (Canonical.ite h.updWave.fetchFault h.updWave)
  split
  · exact Canonical.ite h.after (Canonical.ite h.updWave.fetchFault h.updWave)
  next e₃ =>
  split
  · exact (h.translate.okSnd e₃).waitTick
  · exact Canonical.ite h.after (Canonical.ite h.updWave.fetchFault h.updWave)
  next e₄ =>
  split
  · exact ((h.translate.okSnd e₃).combineFirst.ok e₄).waitTick
  · exact Canonical.ite h.after (Canonical.ite h.updWave.fetchFault h.updWave)
  · next e₅ => exact (((h.translate.okSnd e₃).combineFirst.ok e₄).readAt.ok e₅).updWave

theorem Canonical.scanPath {l : LanePair} (h : Canonical s) : Canonical (scanPath s l wid i).1 := by
  unfold Machine.scanPath
  dsimp only
  split
  · exact h
  split
  · exact Canonical.ite h h.setWave
  split
  · exact Canonical.ite (Canonical.ite h.setWave h.setWave.setLp) (Canonical.ite h.setWave h.setWave.setLp).requestFetch
  split
  · exact Canonical.ite (Canonical.ite h.setWave.ensureSoon h.setWave).requestFetch
      (Canonical.ite h.setWave.ensureSoon h.setWave)
  · exact h.setWave

theorem Canonical.scanPaths {s : State} {l : LanePair} {wid : Nat} {is : List Nat} (h : Canonical s) :
    Canonical (scanPaths s l wid is).1 := by
  induction is generalizing s with
  | nil => exact h
  | cons i is ih => exact ih h.scanPath

theorem Canonical.scanWaves {s : State} {l : LanePair} {ws : List Nat} (h : Canonical s) : Canonical (scanWaves s l ws).1 := by
  induction ws generalizing s with
  | nil => exact h
  | cons w ws ih =>
    have scanned : Canonical (match s.wave? w with
        | some x => Machine.scanPaths s l w (List.range x.paths.length)
        | none => (s, [])).1 := by
      split
      · exact h.scanPaths
      · exact h
    exact ih scanned

theorem Canonical.laneBegin (h : Canonical s) : Canonical (laneBegin s lpi).1 := by
  unfold Machine.laneBegin
  dsimp only
  split
  · exact h.setLp
  · exact h.scanWaves.setLp

theorem Canonical.delayResult {id : Nat} (h : Canonical s) : Canonical (delayResult s wid id) := h.update

theorem Canonical.delayProg {l : List Busy} (h : Canonical s) : Canonical (delayProg s l) := by
  induction l generalizing s with
  | nil =>
    unfold Machine.delayProg
    exact h
  | cons a l ih =>
    unfold Machine.delayProg
    exact ih (h.foldl (fun _ _ h₁ => h₁.delayResult)).update

theorem Canonical.queueSample {r : Sample} (h : Canonical s) : Canonical (queueSample s lpi r) := h.setCore.ensureSoon

theorem Canonical.sampleBegun {g : Began} (h : Canonical s) : Canonical (sampleBegun s lpi g) :=
  Canonical.ite h (Canonical.ite h.updWave h.queueSample)

theorem Canonical.sampleCharged {y : Nat × Wave × Nat} {reason : Nat} (h : Canonical s) :
    Canonical (sampleCharged s lpi y reason) :=
  Canonical.ite h h.queueSample

theorem Canonical.laneEnd (h : Canonical s) : Canonical (laneEnd s lpi) := by
  unfold Machine.laneEnd
  refine Canonical.update ?_
  dsimp only
  split
  · refine (Canonical.setLp ?_).sampleCharged
    split
    · refine (Canonical.settleHits ?_).delayProg
      split
      · exact h.sampleBegun
      · exact h
    refine (Canonical.settleHits ?_).setLp
    split
    · exact h.sampleBegun
    · exact h
  refine Canonical.setLp ?_
  split
  · refine (Canonical.settleHits ?_).delayProg
    split
    · exact h.sampleBegun
    · exact h
  refine (Canonical.settleHits ?_).setLp
  split
  · exact h.sampleBegun
  · exact h

theorem Canonical.countLane (h : Canonical s) : Canonical (countLane s lpi) := h.setLp

theorem Canonical.countLanes {l : List Nat} (h : Canonical s) : Canonical (countLanes s l) := by
  induction l generalizing s with
  | nil =>
    unfold Machine.countLanes
    exact h
  | cons a l ih =>
    unfold Machine.countLanes
    exact ih h.countLane

theorem Canonical.advanceTime (h : Canonical s) : Canonical (advanceTime s) :=
  (Canonical.ite (h.update.foldl (fun _ _ h₁ => h₁.soon)) h.update).update

theorem Canonical.cycleOf (h : Canonical s) : Canonical (cycleOf s) :=
  h.countLanes.advanceTime.arrCycles.copyCycles.watchWaves.update

end

/-! ### Flags -/

section
variable {s : State}

theorem Canonical.landLater {x : Iss} {i : Instr} {n : Nat} {ws : List RegW} {stat : Word32} (h : Canonical s) :
    Canonical (landLater x i n ws stat s) :=
  h.updWave.after

theorem Canonical.resultLands {wid id : Nat} (h : Canonical s) : Canonical (resultLands s wid id) := by
  unfold Machine.resultLands
  dsimp only
  split
  · exact h
  split
  · exact h
  · exact h.setWave.tickFree

end

/-! ### Operands -/

section
variable {i : Instr} {s : State} {o : Alu} {n : Nat} {sc : Bool} {cycles : State → Nat}

theorem Canonical.compute {f : Wave → Nat → Nat → List RegW} (h : Canonical s) : Leaves (nextState (compute i sc f s)) :=
  h.issue fun _ _ h₁ => .some h₁.updWave

theorem Canonical.computeLater {f : Wave → Nat → Nat → FOut} (h : Canonical s) :
    Leaves (nextState (computeLater i sc cycles f s)) :=
  h.issue fun _ _ h₁ => .some h₁.landLater

theorem Canonical.int32 {f : In3 → Word32} (h : Canonical s) : Leaves (nextState (int32 i o n f s)) := h.compute

theorem Canonical.intTyped {f : Int → Int → Int} (h : Canonical s) : Leaves (nextState (intTyped i o n f s)) := h.int32

theorem Canonical.int64 {f : Word64 → Word64 → Word64} (h : Canonical s) : Leaves (nextState (int64 i o f s)) := h.compute

theorem Canonical.shift64 {f : Word64 → Nat → Word64} (h : Canonical s) : Leaves (nextState (shift64 i o f s)) := h.compute

theorem Canonical.flt32 {o : Flt} {f : In3 → FR} (h : Canonical s) : Leaves (nextState (flt32 i o n cycles f s)) :=
  h.computeLater

theorem Canonical.pred2 {o : Prd} {two : Bool} {f : Bool → Bool → Bool} (h : Canonical s) :
    Leaves (nextState (pred2 i o two f s)) :=
  h.compute

end

/-! ### Matrix -/

section
variable {s : State} {core acc c wid seq total a kind : Nat} {x : Iss} {ctl : Ctl} {t : BitVec 8} {pz : Bool}

theorem Canonical.fails {f : FaultInfo} : Leaves (Iss.fails x f).state? := .none

theorem Canonical.execTcfg {v : Src} (h : Canonical s) : Leaves (nextState (execTcfg ctl t v s)) :=
  h.issue fun _ _ h₁ => Leaves.ite Canonical.fails (Leaves.ite Canonical.fails (Leaves.ite .none (Leaves.some
    (Canonical.ite h₁.clearTile h₁).setOwner.setCore)))

theorem Canonical.execTzero (h : Canonical s) : Leaves (nextState (execTzero ctl t s)) := by
  unfold Machine.execTzero
  refine h.issue fun x₁ t₁ h₁ => ?_
  dsimp only
  split
  · exact Canonical.fails
  · exact Leaves.ite .none (Leaves.some h₁.clearTile)

theorem Canonical.checkLines {want : BitVec 3} {l : List Word64} (h : Canonical s) :
    Leaves (checkLines s core c want l).toOption := by
  induction l generalizing s with
  | nil =>
    unfold Machine.checkLines
    exact .some h
  | cons a l ih =>
    unfold Machine.checkLines
    split
    · exact .none
    · next e => exact ih (h.checkAccess.okSnd e)

theorem Canonical.moveTile {i : Instr} {t : Nat} {a : BitVec 8} {m : TMov} {store : Bool} (h : Canonical s) :
    Leaves (moveTile i x s t a m store).state? := by
  unfold Machine.moveTile
  dsimp only
  split
  · exact Canonical.fails
  split
  · exact Canonical.fails
  refine Leaves.ite Canonical.fails (Leaves.ite .none ?_)
  split
  · exact Canonical.fails
  · next e₂ => exact Leaves.ite Canonical.fails (h.checkLines.okState e₂).fresh.addTileOp.issueAccess

theorem Canonical.arrPut {kind : ArrKind} {done : Nat} {reads writes : List Nat} {byp : Bool} (h : Canonical s) :
    Canonical (arrPut s core c wid seq acc kind done total reads writes byp pz) :=
  Canonical.ite h.fresh.setCore h.fresh.setCore.addTileOp

theorem Canonical.zeroAcc {rel : Bool} (h : Canonical s) : Leaves (zeroAcc x s acc rel).state? :=
  Leaves.ite Canonical.fails (Leaves.ite .none (Leaves.some (Canonical.ite h.setOwner.clearAcc h).arrPut))

theorem Canonical.takeBypass (h : Canonical s) : Canonical (takeBypass s core a) := h.setCore

theorem Canonical.takeStopped (h : Canonical s) : Canonical (takeStopped s core acc total).2 := h.setMprog

theorem Canonical.putMma {b n p : Nat} {za : Bool} (h : Canonical s) :
    Canonical (putMma s core c wid seq kind acc a b n p za pz) := by
  unfold Machine.putMma
  dsimp only
  exact h.takeStopped.takeBypass.arrPut

theorem Canonical.issueMma {o : Mma} (h : Canonical s) : Leaves (issueMma kind o x s).state? := by
  unfold Machine.issueMma
  dsimp only
  split
  · exact Canonical.fails
  · exact Leaves.ite .none (Leaves.some h.putMma)

theorem Canonical.execTdrain {o : Drn} (h : Canonical s) : Leaves (nextState (execTdrain o s)) := by
  unfold Machine.execTdrain
  refine h.issue fun x₁ t₁ h₁ => ?_
  dsimp only
  split
  · exact Canonical.fails
  · exact Leaves.ite .none (Leaves.some h₁.takeStopped.arrPut)

end

/-! ### Engines -/

section
variable {s : State} {core size n id : Nat} {r : Request} {p : Word64}

theorem Canonical.putRequest {x : Iss} {s : State} {nw : Bool} {d a : BitVec 8} (h : Canonical s) :
    Leaves (putRequest x s nw d a).state? := by
  unfold Machine.putRequest
  extract_lets core s₀ p status
  have kept (t : State) (v : Word32) (ht : Canonical t) : Canonical (status t v) := ht.updWave
  clear_value status
  split
  · exact .none
  split
  · exact .none
  split
  · exact .none
  · exact .none
  next bs pz t e =>
  have loaded : Canonical t := h.loadRecord.ok e
  split
  · exact h.breakStop
  dsimp only
  split
  · exact .none
  split
  · exact .none
  split
  · exact .none
  split
  · exact .none
  next v e =>
  have checked : Canonical v := loaded.fresh.clCheck.at (congrArg (fun x => x.toOption.map Prod.snd) e)
  split
  · exact .none
  split
  · split
    · exact .some (kept _ _ checked)
    · exact .none
  refine Leaves.ite .none (.some (kept _ _ (Canonical.later ?_)))
  split
  · exact .ite checked.setCore.addTileOp checked.setCore
  · exact checked.setCore

theorem Canonical.setRequest (h : Canonical s) : Canonical (s.setRequest core r) := h.setCore

theorem Canonical.endRequest (h : Canonical s) : Canonical (endRequest s core r) := h.setRequest.endTileOp.soon

theorem Canonical.failRequest {f : Fail} (h : Canonical s) : Canonical (failRequest s core r f) := h.endRequest

theorem Canonical.engineRead (h : Canonical s) : Leaves (engineRead s core r p size n).state? := by
  unfold Machine.engineRead
  split
  · exact h.failed
  · next e => exact .some (h.checkAccess.okSnd e)
  next e =>
  split
  · exact .none
  · exact .none
  · next e₁ => exact ((h.checkAccess.okSnd e).combineFirst.ok e₁).agentRead

theorem Canonical.engineWrite {off : Nat} {bs : List Byte} {tags : List Bool} (h : Canonical s) :
    Leaves (engineWrite s core r off size bs tags).state? := by
  unfold Machine.engineWrite
  dsimp only
  split
  · exact .some (h.foldl (fun _ _ h₁ => h₁.putImg))
  refine Leaves.ite .none ?_
  split
  · exact h.failed
  · next e₁ => exact .some (h.checkAccess.okSnd e₁)
  next e₁ =>
  split
  · exact .none
  · exact .none
  next e₂ =>
  split
  · exact .none
  · exact .none
  · next e₃ =>
      exact .some (((h.checkAccess.okSnd e₁).alongside ((h.checkAccess.okSnd e₁).combineFirst.ok e₂)
          (fun _ h₁ => h₁.agentWrite)).ok e₃).wrote

theorem Canonical.engineWord (h : Canonical s) : Leaves (engineWord s core r p n).state? := by
  unfold Machine.engineWord
  split
  · exact .none
  · exact .none
  · next e => exact Leaves.ite .none (Leaves.some (h.engineRead.ok e))

theorem Canonical.gatherStep (h : Canonical s) : Leaves (gatherStep s core r).state? := by
  unfold Machine.gatherStep
  dsimp only
  split
  · split
    · exact .none
    · exact .none
    · next e₁ => exact .some (h.engineWord.ok e₁)
  split
  · split
    · exact .none
    · exact .none
    · next e₁ => exact .some (h.engineRead.ok e₁)
  split
  · exact .none
  · exact .none
  · next e₁ => exact Leaves.ite (Leaves.some (h.engineWrite.ok e₁)) (Leaves.some (h.engineWrite.ok e₁))

theorem Canonical.bilerpStep (h : Canonical s) : Leaves (bilerpStep s core r).state? := by
  unfold Machine.bilerpStep
  dsimp only
  split
  · split
    · exact .none
    · exact .none
    · next e₁ => exact .some (h.engineWord.ok e₁)
  split
  · split
    · exact .none
    · exact .none
    · next e₂ => exact Leaves.ite (Leaves.some (h.engineWrite.ok e₂)) (Leaves.some (h.engineWrite.ok e₂))
  split
  · split
    · exact .none
    · exact .none
    · next e₁ => exact .some (h.engineRead.ok e₁)
  · split
    · exact .none
    · exact .none
    · next e₁ => exact .some (h.engineRead.ok e₁)
  · split
    · exact .none
    · exact .none
    · next e₁ => exact .some (h.engineRead.ok e₁)
  · split
    · exact .none
    · exact .none
    · next e₁ => exact .some (h.engineRead.ok e₁)
  split
  · exact .none
  · exact .none
  · next e₁ => exact Leaves.ite (Leaves.some (h.engineWrite.ok e₁)) (Leaves.some (h.engineWrite.ok e₁))

theorem Canonical.searchStep (h : Canonical s) : Leaves (searchStep s core r).state? := by
  unfold Machine.searchStep
  dsimp only
  split
  · split
    · exact .none
    · exact .none
    · next e₁ => exact .some (h.engineWord.ok e₁)
  · refine Leaves.ite (Leaves.some h) ?_
    split
    · exact .none
    · exact .none
    next e₁ =>
    refine Leaves.ite .none ?_
    split <;> exact .some (h.engineRead.ok e₁)
  · split
    · exact .none
    · exact .none
    · next e₁ => exact .some (h.engineWrite.ok e₁)
  · exact .some h

theorem Canonical.engineRun {self : Instr} {op : State → Nat → Request → Res Request} (h : Canonical s)
    (hop : ∀ t a1 a2, Canonical t → Leaves (op t a1 a2).state?) :
    Canonical (engineRun s core id self op) := by
  unfold Machine.engineRun
  dsimp only
  split
  · exact h
  refine Canonical.ite h (Canonical.ite h.ensureTicks (Canonical.ite h.after (Canonical.ite h.endRequest
      (h.setRequest.withRoom (fun t₁ h₁ => Canonical.ite h₁.endRequest ?_)))))
  split
  · exact h₁.waitTick
  · exact h₁.failRequest
  · next e₁ => exact ((hop _ _ _ h₁).ok e₁).setRequest.after

theorem Canonical.writeCrec (h : Canonical s) : Leaves (writeCrec s core r).state? := by
  unfold Machine.writeCrec
  refine Leaves.ite (Leaves.some h) ?_
  split
  · exact .some h
  split
  · exact Leaves.ite .none (Leaves.some h)
  next e₁ =>
  split
  · exact .none
  · exact .some (h.translate.okSnd e₁)
  next e₂ =>
  split
  · exact .none
  · exact .some ((h.translate.okSnd e₁).combineFirst.ok e₂)
  · next e₃ =>
      exact .some (((h.translate.okSnd e₁).alongside ((h.translate.okSnd e₁).combineFirst.ok e₂)
          (fun _ h₁ => h₁.agentWrite)).ok e₃).wrote

theorem Canonical.advanceCnt (h : Canonical s) : Leaves (advanceCnt s core r).state? := by
  unfold Machine.advanceCnt
  dsimp only
  split
  · exact h.failed
  · next e => exact .some (h.checkAccess.okSnd e)
  next e =>
  split
  · exact .none
  · exact .none
  next e₁ =>
  split
  · exact .none
  · exact .none
  · next e₂ =>
      exact .some (((h.checkAccess.okSnd e).alongside ((h.checkAccess.okSnd e).combineFirst.ok e₁)
          (fun _ h₁ => h₁.agentUpdate)).ok e₂).wrote

theorem Canonical.completeRequest (h : Canonical s) : Canonical (completeRequest s core id) := by
  unfold Machine.completeRequest
  dsimp only
  split
  · exact h
  refine Canonical.ite (Canonical.ite h (Canonical.ite h.ensureTicks (Canonical.ite h.after h.endRequest))) (h.withRoom
      (fun t₁ h₁ => ?_))
  split
  · exact h₁.waitTick
  · exact h₁
  next e₁ =>
  split
  · refine (Leaves.ok ?_ e₁).setRequest.waitTick
    exact Leaves.ite (Leaves.some h₁) h₁.writeCrec
  · refine (Canonical.ite (Leaves.ok ?_ e₁).setRequest (Leaves.ok ?_ e₁).setRequest.setRequest.raiseNoPath).ensureTicks <;>
      exact Leaves.ite (Leaves.some h₁) h₁.writeCrec
  next e₂ =>
  refine ((Leaves.ok ?_ e₁).setRequest.advanceCnt.ok e₂).setCore
  exact Leaves.ite (Leaves.some h₁) h₁.writeCrec

end

/-! ### Contexts -/

section
variable {s : State} {c n core wid issuer target id first t : Nat} {d k r : BitVec 8} {ctl : Ctl} {x : Iss} {p : Word64}
  {pz all stop : Bool} {i : Instr}

theorem Canonical.counterArg (h : Canonical s) : Leaves ((counterArg x s r).toOption.map (·.2)) := by
  unfold Machine.counterArg
  split
  · exact .none
  split
  · exact .none
  · next e₁ => exact .some (h.clCheck.okSnd e₁)

theorem Canonical.recordArg {align : Nat} {f : List Byte → Bool → State → Act} (h : Canonical s)
    (hf : ∀ a0 a1 t, Canonical t → Leaves (f a0 a1 t).state?) :
    Leaves (recordArg x s r align n f).state? := by
  unfold Machine.recordArg
  split
  · exact Canonical.fails
  split
  · exact Canonical.fails
  split
  · exact .none
  · exact Canonical.fails
  next e₂ =>
  split
  · exact h.breakStop
  · exact hf _ _ _ (h.loadRecord.ok e₂)

theorem Canonical.setStatus {v : Nat} (h : Canonical s) : Canonical (setStatus x s d v pz) := h.updWave

theorem Canonical.sealedEffect {eff : State → State} (h : Canonical s) (heff : ∀ t, Canonical t → Canonical (eff t)) :
    Leaves (sealedEffect x i s eff).state? := by
  unfold Machine.sealedEffect
  dsimp only
  split
  · exact .some (heff _ h).setPart
  · exact .some (heff _ h)

theorem Canonical.answer (h : Canonical s) : Leaves (answer x i s d n pz).state? := h.sealedEffect fun _ h₁ => h₁.setStatus

theorem Canonical.freeDown {need : Nat} (h : Canonical s) : Canonical (freeDown s core need n).1 := by
  induction n generalizing s with
  | zero =>
    unfold Machine.freeDown
    exact h
  | succ n ih =>
    unfold Machine.freeDown
    dsimp only
    split
    · exact h
    split
    · split
      · exact h
      · exact ih h.dropReplica
    · split
      · exact ih h.evict
      · exact h
    · exact h
    · exact ih h

theorem Canonical.carveRoom {l : List Nat} (h : Canonical s) : Canonical (carveRoom s n l).1 := by
  induction l generalizing s with
  | nil =>
    unfold Machine.carveRoom
    exact h
  | cons a l ih =>
    unfold Machine.carveRoom
    split
    · next e =>
        refine ih (Canonical.congr ?_ (congrArg Prod.fst e))
        split
        · exact h
        · exact h.freeDown
    next e =>
    refine Canonical.congr ?_ (congrArg Prod.fst e)
    split
    · exact h
    · exact h.freeDown

theorem Canonical.carveOut (h : Canonical s) : Canonical (carveOut s core c n) :=
  Canonical.ite h (h.freeDown.foldl (fun _ _ h₁ => h₁.setFrame)).setCore

theorem Canonical.dropCarve (h : Canonical s) : Canonical (dropCarve s core c) := by
  unfold Machine.dropCarve
  dsimp only
  split
  · exact h
  · exact (h.foldl (fun _ _ h₁ => h₁.freeFrame)).setCore

theorem Canonical.makeCtx {parent : Option Nat} {c : Conf} {entry : Option LaunchRec} (h : Canonical s) :
    Canonical (makeCtx s id parent c entry) :=
  (h.setCtx.foldl (fun _ _ h₁ => h₁.carveOut)).ensureSoon

theorem Canonical.newIds {st : Nat} (h : Canonical s) : Canonical (newIds x s d st id pz) := h.updWave

theorem Canonical.execCtxnew (h : Canonical s) : Leaves (nextState (execCtxnew ctl d r s)) := by
  unfold Machine.execCtxnew
  refine h.issueSealed fun a0₁ t₁ h₁ => h₁.recordArg (fun a0₂ a1₁ t₂ h₂ => ?_)
  dsimp only
  split
  · exact .some h₂
  split
  · refine Leaves.ite Canonical.fails ?_
    split
    · split
      · next e₃ => exact .some (h₂.carveRoom.ofFst e₃)
      · next e₃ => exact (h₂.carveRoom.ofFst e₃).sealedEffect fun _ h₃ => h₃.makeCtx.newIds
    split
    · exact .none
    · exact h₂.sealedEffect fun _ h₃ => h₃.newIds
    next e₂ =>
    refine Leaves.ite ((h₂.loadRecord.ok e₂).sealedEffect (fun _ h₃ => h₃.newIds)) ?_
    split
    · next e₃ => exact .some ((h₂.loadRecord.ok e₂).carveRoom.ofFst e₃)
    · next e₃ => exact ((h₂.loadRecord.ok e₂).carveRoom.ofFst e₃).sealedEffect fun _ h₃ => h₃.makeCtx.newIds
  · exact h₂.sealedEffect fun _ h₃ => h₃.newIds

theorem Canonical.setFlats {ds : List Decl} {always : Option Nat} {fs : List (Nat × List Range)} (h : Canonical s) :
    Canonical (setFlats s c ds always fs) :=
  h.updCtx.foldl fun _ _ h₁ => h₁.updCtx

theorem Canonical.execCtxgrant (h : Canonical s) : Leaves (nextState (execCtxgrant ctl d k r s)) := by
  unfold Machine.execCtxgrant
  refine h.issueSealed fun a0₁ t₁ h₁ => ?_
  dsimp only
  split
  · exact Canonical.fails
  refine h₁.recordArg fun a0₂ a1₁ t₂ h₂ => Leaves.ite Canonical.fails (Leaves.ite Canonical.fails ?_)
  split
  · exact Leaves.ite .none (h₂.sealedEffect (fun _ h₃ => h₃.setFlats.setStatus))
  · exact h₂.answer

theorem Canonical.execCtxrevoke (h : Canonical s) : Leaves (nextState (execCtxrevoke ctl d k r s)) := by
  unfold Machine.execCtxrevoke
  refine h.issueSealed fun a0₁ t₁ h₁ => ?_
  dsimp only
  split
  · exact Canonical.fails
  refine h₁.recordArg fun a0₂ a1₁ t₂ h₂ => Leaves.ite Canonical.fails (Leaves.ite Canonical.fails
      (Leaves.ite Canonical.fails ?_))
  split
  · exact Canonical.fails
  · next e₁ =>
      exact Leaves.ite (h₂.clCheck.okSnd e₁).answer (Leaves.ite (h₂.clCheck.okSnd e₁).answer (Leaves.ite .none
          ((h₂.clCheck.okSnd e₁).sealedEffect (fun _ h₃ => h₃.setFlats.later.setStatus))))

theorem Canonical.dropTlb {ok : TlbEntry → Bool} (h : Canonical s) : Canonical (dropTlb s ok) := h.update

theorem Canonical.restartWalks {ok : Nat → Nat → Bool} (h : Canonical s) : Canonical (restartWalks s ok) := h.update

theorem Canonical.payCounter {self : Instr} (h : Canonical s) : Canonical (payCounter s issuer p self) := by
  unfold Machine.payCounter
  split
  · exact h
  refine h.withRoom fun t₁ h₁ => ?_
  split
  · exact h₁.waitTick
  · exact h₁.afterTicks
  · next e₁ => exact h₁.bump.ok e₁

theorem Canonical.revokeDone (h : Canonical s) : Canonical (revokeDone s issuer target p) :=
  Canonical.ite (h.dropTlb.restartWalks.foldl (fun _ _ h₁ => h₁.rollback)).afterTicks (h.dropTlb.restartWalks.foldl
    (fun _ _ h₁ => h₁.rollback)).payCounter

theorem Canonical.tlbinvDone (h : Canonical s) : Canonical (tlbinvDone s issuer target first n all p) :=
  Canonical.ite h.dropTlb.restartWalks.rollbackAll.afterTicks h.dropTlb.restartWalks.rollbackAll.payCounter

theorem Canonical.putTlbinv (h : Canonical s) : Leaves (putTlbinv x s target first n all p).state? := .some h.later

theorem Canonical.execTlbinvPage {a c : BitVec 8} {n : BitVec 16} (h : Canonical s) :
    Leaves (nextState (execTlbinvPage ctl a c n s)) := by
  unfold Machine.execTlbinvPage
  refine h.issueSealed fun a0₁ t₁ h₁ => ?_
  split
  · exact Canonical.fails
  next e =>
  split
  · exact Canonical.fails
  · exact Leaves.ite Canonical.fails (h₁.counterArg.okSnd e).putTlbinv

theorem Canonical.execTlbinvCtx {c : BitVec 8} (h : Canonical s) : Leaves (nextState (execTlbinvCtx ctl c s)) := by
  unfold Machine.execTlbinvCtx
  refine h.issueSealed fun a0₁ t₁ h₁ => ?_
  split
  · exact Canonical.fails
  · next e => exact (h₁.counterArg.okSnd e).putTlbinv

theorem Canonical.execTlbinvChild {c : BitVec 8} (h : Canonical s) : Leaves (nextState (execTlbinvChild ctl k c s)) := by
  unfold Machine.execTlbinvChild
  refine h.issueSealed fun a0₁ t₁ h₁ => ?_
  split
  · exact Canonical.fails
  next e =>
  split
  · exact Canonical.fails
  · exact (h₁.counterArg.okSnd e).putTlbinv

theorem Canonical.markCopies (h : Canonical s) : Canonical (markCopies s c stop) := h.foldl fun _ _ h₁ => h₁.copyProg

theorem Canonical.markArrays (h : Canonical s) : Canonical (markArrays s c stop) :=
  h.foldl fun _ _ h₁ => h₁.foldl (fun _ _ h₂ => h₂.setMprog)

theorem Canonical.eachWave {f : State → Nat → State} (h : Canonical s) (hf : ∀ t a1, Canonical t → Canonical (f t a1)) :
    Canonical (eachWave s c f) :=
  h.foldl fun _ _ h₁ => hf _ _ h₁

theorem Canonical.runCtx (h : Canonical s) : Canonical (runCtx s c) := by
  unfold Machine.runCtx
  dsimp only
  split
  · exact h
  refine Canonical.ite h (Canonical.ensureSoon ?_)
  split
  · exact Leaves.getD (h.setCtx.eachWave (fun _ _ h₁ => h₁.updWave)).markCopies.markArrays.enqueue (h.setCtx.eachWave
      (fun _ _ h₁ => h₁.updWave)).markCopies.markArrays
  · exact (h.setCtx.eachWave (fun _ _ h₁ => h₁.updWave)).markCopies.markArrays

theorem Canonical.execCtxrun (h : Canonical s) : Leaves (nextState (execCtxrun ctl d k s)) := by
  unfold Machine.execCtxrun
  refine h.issueSealed fun a0₁ t₁ h₁ => ?_
  split
  · exact Canonical.fails
  split
  · exact .some h₁
  · exact Leaves.ite .none (Leaves.ite h₁.answer (h₁.sealedEffect (fun _ h₂ => (h₂.foldl
      (fun _ _ h₃ => h₃.runCtx)).setStatus)))

theorem Canonical.dropPins (h : Canonical s) : Canonical (dropPins s wid) := h.rollback.withdrawPin.unpin

theorem Canonical.stopWave (h : Canonical s) : Canonical (stopWave s wid) := h.dropPins.updWave

theorem Canonical.stopCtx (h : Canonical s) : Canonical (stopCtx s c) := by
  unfold Machine.stopCtx
  split
  · exact h
  · exact Canonical.ite h (h.setCtx.eachWave (fun _ _ h₁ => h₁.stopWave)).markCopies.markArrays

theorem Canonical.execCtxstop {c : BitVec 8} (h : Canonical s) : Leaves (nextState (execCtxstop ctl d k c s)) := by
  unfold Machine.execCtxstop
  refine h.issueSealed fun a0₁ t₁ h₁ => ?_
  dsimp only
  split
  · exact Canonical.fails
  split
  · exact Canonical.fails
  next e₁ =>
  split
  · exact .some (h₁.counterArg.okSnd e₁)
  · exact Leaves.ite (h₁.counterArg.okSnd e₁).answer ((h₁.counterArg.okSnd e₁).sealedEffect (fun _ h₂ => (h₂.foldl
      (fun _ _ h₃ => h₃.stopCtx)).updCtx.later.setStatus))

theorem Canonical.stopDone (h : Canonical s) : Canonical (stopDone s c) := by
  unfold Machine.stopDone
  split
  · exact h
  split
  · exact h
  refine Canonical.ite h.afterTicks (h.withRoom (fun t₁ h₁ => ?_))
  split
  · exact h₁.waitTick
  · exact Canonical.ite h₁.afterTicks h₁.updCtx.soon
  · next e₂ => exact (h₁.bump.ok e₂).updCtx.soon

theorem Canonical.dropEvents (h : Canonical s) : Canonical (dropEvents s wid) := h.update

theorem Canonical.disown (h : Canonical s) : Canonical (disown s wid) := h.update.setCore

theorem Canonical.removeWave (h : Canonical s) : Canonical (removeWave s wid) := by
  unfold Machine.removeWave
  refine (Canonical.dropLatch ?_).dropEvents.setLp.setCore.disown.dropWave
  split
  · exact h.dropPins.foldl fun _ _ h₁ => h₁.endTileOf
  · exact h.dropPins

theorem Canonical.clearWork (h : Canonical s) : Canonical (clearWork s c core) := h.setCore

theorem Canonical.clearCore (h : Canonical s) : Canonical (clearCore s c core) := h.clearWork.dropCarve

theorem Canonical.voidRecords {ok : Outst → Bool} (h : Canonical s) : Canonical (voidRecords s c ok) := by
  unfold Machine.voidRecords
  dsimp only
  split
  · exact h
  refine h.setCtx.foldl fun s₁ a₁ h₁ => ?_
  split
  · exact h₁.update
  · exact h₁.updCtx.ensureSoon

theorem Canonical.killCtx (h : Canonical s) : Canonical (killCtx s c) := by
  unfold Machine.killCtx
  dsimp only
  split
  · exact (((h.eachWave (fun _ _ h₁ => h₁.removeWave)).update.foldl (fun _ _ h₁ => h₁.evict)).foldl
      (fun _ _ h₁ => h₁.clearCore)).voidRecords
  · exact (((h.eachWave (fun _ _ h₁ => h₁.removeWave)).update.foldl (fun _ _ h₁ => h₁.evict)).foldl
      (fun _ _ h₁ => h₁.clearCore)).voidRecords.update

theorem Canonical.killTree (h : Canonical s) : Canonical (killTree s t issuer p) :=
  (h.foldl (fun _ _ h₁ => h₁.killCtx)).foldl (fun _ _ h₁ => h₁.updCtx)

theorem Canonical.execCtxkill {c : BitVec 8} (h : Canonical s) : Leaves (nextState (execCtxkill ctl d k c s)) := by
  unfold Machine.execCtxkill
  refine h.issueSealed fun a0₁ t₁ h₁ => ?_
  dsimp only
  split
  · exact Canonical.fails
  split
  · exact Canonical.fails
  · next e₁ =>
      exact Leaves.ite (Leaves.some ((h₁.counterArg.okSnd e₁).foldl (fun _ _ h₂ => h₂.eachWave
          (fun _ _ h₃ => h₃.dropPins)))) (((h₁.counterArg.okSnd e₁).foldl (fun _ _ h₂ => h₂.eachWave
          (fun _ _ h₃ => h₃.dropPins))).sealedEffect (fun _ h₂ => h₂.killTree.later.setStatus))

theorem Canonical.killDone (h : Canonical s) : Canonical (killDone s t) := by
  unfold Machine.killDone
  split
  · exact h
  refine h.withRoom fun t₁ h₁ => ?_
  split
  · exact h₁.waitTick
  · exact h₁.afterTicks
  · next e₁ => exact (h₁.bump.ok e₁).updCtx.soon

theorem Canonical.setBucket {rate depth : Nat} (h : Canonical s) : Canonical (setBucket s c rate depth) := h.updCtx

theorem Canonical.execQosset {v : BitVec 8} (h : Canonical s) : Leaves (nextState (execQosset ctl d k v s)) := by
  unfold Machine.execQosset
  refine h.issueSealed fun a0₁ t₁ h₁ => ?_
  dsimp only
  split
  · exact Canonical.fails
  split
  · exact h₁.sealedEffect fun _ h₂ => h₂.setBucket.setStatus
  · exact h₁.answer

end

/-! ### Coherence -/

section
variable {s : State} {die line l dev part ctx core fk wid rts : Nat} {own : Bool} {self : Instr}

theorem Canonical.retried {s : State} {self : Instr} {r : Res Unit} (h : Canonical s) (hr : Leaves r.state?) :
    Canonical (retried s self r) := by
  cases r with
  | ok _ t => exact hr.ok rfl
  | wait _ _ => exact h.waitTick
  | fail _ => exact h

theorem Canonical.combineStep {slot : Nat} (h : Canonical s) : Canonical (combineStep s ctx slot line) :=
  Canonical.ite (Canonical.ite h.askCheckpoint.ensureTicks (h.takeSeal.retried h.takeSeal.combineAt)) (h.withLines
    (fun _ h₁ => h₁.retried h₁.combineAt))

theorem Canonical.grantPin (h : Canonical s) : Canonical (grantPin s wid) := by
  unfold Machine.grantPin
  dsimp only
  split
  · refine Canonical.ite h.ensureSoon ?_
    split
    · refine Canonical.ite ?_ h.withdrawPin.update.afterTicks
      split
      · exact h.withdrawPin.ensureSoon
      · exact h.withdrawPin
    · exact h.update
  · exact h

theorem Canonical.countRollback (h : Canonical s) : Canonical (countRollback s wid) := by
  unfold Machine.countRollback
  dsimp only
  split
  · exact h
  · exact Canonical.ite h.setWave.withdrawPin.takeFault h.setWave

theorem Canonical.execPinGrantTimeout {wave req : Nat} (h : Canonical s) :
    Leaves (nextState (execPinGrantTimeout wave req s)) := by
  unfold Machine.execPinGrantTimeout
  dsimp only
  split
  · exact .some h
  refine Leaves.ite ?_ (Leaves.some h)
  split
  · exact .some (Canonical.ite h.withdrawPin.countRollback.requestPin h.withdrawPin.countRollback)
  · exact .some h.withdrawPin.countRollback

theorem Canonical.tickPts (h : Canonical s) : Canonical (tickPts s) := h.update.foldl fun _ _ h₁ => h₁.rollback

theorem Canonical.monarchAct {few : Bool} (h : Canonical s) : Canonical (monarchAct s fk core few) :=
  Canonical.ite h (Canonical.ite (Canonical.ite h (Canonical.ite h.makeReplica.setFrame h.makeReplica)) h.movePrimary)

theorem Canonical.monarchPrimary (h : Canonical s) : Canonical (monarchPrimary s fk) := by
  unfold Machine.monarchPrimary
  refine Canonical.ite h ?_
  dsimp only
  refine Canonical.ite (Canonical.ite h.setFrame h) (Canonical.ite (Canonical.ite h.setFrame h) ?_)
  split
  · exact Canonical.ite (Canonical.ite h.monarchAct.setFrame h.monarchAct) (Canonical.ite h.setFrame h)
  · exact Canonical.ite h.setFrame h

theorem Canonical.monarchReplica (h : Canonical s) : Canonical (monarchReplica s fk) :=
  Canonical.ite h (Canonical.ite (Canonical.ite h.setFrame (Canonical.ite h.setFrame h.dropReplica)) h.setFrame)

theorem Canonical.monarchAll (h : Canonical s) : Canonical (monarchAll s) :=
  (h.foldl (fun _ _ h₁ => h₁.monarchReplica)).foldl (fun _ _ h₁ => h₁.monarchPrimary)

theorem Canonical.execFill (h : Canonical s) : Leaves (nextState (execFill core ctx part s)) := by
  unfold Machine.execFill
  refine Leaves.ite (Leaves.some h) ?_
  split
  · next e => exact .some (h.fill.ok e).settleHits
  · exact .some h.waitTick
  · exact .some h

theorem Canonical.execEviction {replica : Option Nat} (h : Canonical s) :
    Leaves (nextState (execEviction die part replica s)) := by
  unfold Machine.execEviction
  refine Leaves.ite (Leaves.some h.ensureTicks) ?_
  split
  · exact .some h.evict
  split
  · exact Leaves.ite (Leaves.some h.dropReplica) (Leaves.some h)
  · exact .some h

theorem Canonical.frameArrives {vpart : Nat} {write : Bool} (h : Canonical s) :
    Canonical (frameArrives s core ctx vpart write) := by
  unfold Machine.frameArrives
  dsimp only
  split
  · exact h
  split
  · split
    · exact (Canonical.ite h h.setTarget).countAt
    · exact h.bounce.locateEntry
  · exact h

theorem Canonical.endWalk {va ver restarts : Nat} (h : Canonical s) : Canonical (endWalk s core ctx va ver restarts) := by
  unfold Machine.endWalk
  refine Canonical.ite (Canonical.ite h.updCtx h).later ?_
  dsimp only
  split
  · next e => exact ((Canonical.ite h.updCtx h).walked.at e).installTlb.locateEntry
  · exact (Canonical.ite h.updCtx h).ensureTicks
  · exact Canonical.ite (Canonical.ite h.updCtx h).ensureTicks (Canonical.ite h.updCtx h)

theorem Canonical.forwardRead (h : Canonical s) : Canonical (forwardRead s l die) := by
  unfold Machine.forwardRead
  dsimp only
  split
  · exact h
  split
  · exact h.setLine.setDir
  · exact h.setLine.setDir
  · exact h.setLine.setDir
  · exact h

theorem Canonical.shareDev (h : Canonical s) : Canonical (shareDev s l dev) :=
  Canonical.ite h (Canonical.ite h.forwardRead h).setDir

theorem Canonical.ownDev (h : Canonical s) : Leaves (ownDev s l dev).state? := by
  unfold Machine.ownDev
  split
  · exact .none
  · exact .none
  next e =>
  split
  · exact .none
  · exact .none
  next e₁ =>
  split
  · next e₂ =>
      refine .some ((((h.combineFirst.ok e).registerDev.ok e₁).asDev (fun t₁ h₁ => ?_)).ok e₂).setDir
      split
      · next e₃ => exact (h₁.recallAll.ok e₃).tierRoom
      · exact h₁.recallAll
  refine ((h.combineFirst.ok e).registerDev.ok e₁).asDev fun t₁ h₁ => ?_
  split
  · next e₂ => exact (h₁.recallAll.ok e₂).tierRoom
  · exact h₁.recallAll

theorem Canonical.readDev (h : Canonical s) : Leaves (readDev s l dev).state? := by
  unfold Machine.readDev
  dsimp only
  split
  · exact .none
  · exact .none
  next e =>
  split
  · exact .none
  · exact .none
  next e₁ =>
  split
  · exact .none
  · exact .none
  next e₂ =>
  split
  · next e₃ =>
      exact .some (Canonical.ite (((((h.combineFirst.ok e).registerDev.ok e₁).tierRoom.ok e₂).asDev
          (fun _ h₁ => h₁.clRead)).ok e₃).setDir (((((h.combineFirst.ok e).registerDev.ok e₁).tierRoom.ok e₂).asDev
          (fun _ h₁ => h₁.clRead)).ok e₃).shareDev)
  · exact (((h.combineFirst.ok e).registerDev.ok e₁).tierRoom.ok e₂).asDev fun _ h₁ => h₁.clRead

theorem Canonical.peerReply {bs : List Byte} (h : Canonical s) : Canonical (peerReply s l bs) := h.update.settleHits

theorem Canonical.peerAsks (h : Canonical s) : Canonical (peerAsks s l dev own self) := by
  unfold Machine.peerAsks
  refine Canonical.ite h ?_
  split
  · next e =>
      refine (Leaves.ok ?_ e).peerReply
      refine Leaves.ite ?_ h.readDev
      split
      · next e₁ =>
          split
          · next e₂ => exact .some ((h.alongside (h.readDev.ok e₁) (fun _ h₁ => h₁.ownDev)).ok e₂)
          · exact .none
          · exact .none
      · exact h.readDev
  · exact h.waitTick
  · exact h

theorem Canonical.askedBy {who : Nat} {byDie : Out} (h : Canonical s) (hbyDie : Leaves (nextState byDie)) :
    Leaves (nextState (askedBy s line who own self byDie)) := by
  unfold Machine.askedBy
  split
  · exact .some h.peerAsks
  · exact hbyDie

theorem Canonical.execHomeRead (h : Canonical s) : Leaves (nextState (execHomeRead line die s)) := by
  unfold Machine.execHomeRead
  refine h.askedBy ?_
  split
  · exact .some h
  refine Leaves.ite (Leaves.some h) ?_
  split
  · next e₁ => exact .some (h.homeReadOp.ok e₁).installLine.settleHits
  · exact .some h.waitTick
  · exact .some h

theorem Canonical.execHomeReadForOwnership (h : Canonical s) :
    Leaves (nextState (execHomeReadForOwnership line die s)) := by
  unfold Machine.execHomeReadForOwnership
  refine h.askedBy ?_
  split
  · exact .some h
  refine Leaves.ite (Leaves.some h) ?_
  split
  · next e₁ => exact .some (h.homeRfoOp.ok e₁).installLine.settleHits
  · exact .some h.waitTick
  · exact .some h

theorem Canonical.execHomeUpgrade (h : Canonical s) : Leaves (nextState (execHomeUpgrade line die s)) := by
  unfold Machine.execHomeUpgrade
  refine h.askedBy ?_
  split
  · exact .some h
  refine Leaves.ite (Leaves.some h) ?_
  split
  · next e₁ => exact .some (h.homeRfoOp.ok e₁).setLine.settleHits
  · exact .some h.waitTick
  · exact .some h

theorem Canonical.peerGives {data : List Byte} (h : Canonical s) : Canonical (peerGives s line dev data) :=
  Canonical.ite h (Canonical.ite h.homeWrite.setHomePoison.wrote h).dropDev.raiseHome.settleHits

theorem Canonical.execWriteBack {die : Giver} (h : Canonical s) : Leaves (nextState (execWriteBack line die s)) := by
  unfold Machine.execWriteBack
  split
  · exact .some h.peerGives
  split
  · exact .some (Canonical.ite h.giveUp h)
  · exact .some h

theorem Canonical.cleanNotice (h : Canonical s) : Canonical (cleanNotice s l die rts) := by
  unfold Machine.cleanNotice
  dsimp only
  split
  · exact Canonical.ite h h.giveUp.raiseHome
  · exact h.setDir.raiseHome

theorem Canonical.execCleanEvictionNotice (h : Canonical s) :
    Leaves (nextState (execCleanEvictionNotice line die rts s)) := by
  unfold Machine.execCleanEvictionNotice
  split
  · exact .some h.peerGives.raiseHome
  · exact .some h.cleanNotice

theorem Canonical.recallFrom (h : Canonical s) : Leaves (recallFrom s l die).state? :=
  Leaves.ite .none (Leaves.ite .none (Leaves.some h.giveUp.strikeDie))

theorem Canonical.execForwardedReadForOwnership (h : Canonical s) :
    Leaves (nextState (execForwardedReadForOwnership line die s)) := by
  unfold Machine.execForwardedReadForOwnership
  split
  · exact Leaves.ite (Leaves.some (h.retried h.recallFrom).settleHits) (Leaves.some h)
  · exact .some h

theorem Canonical.execInvalidation (h : Canonical s) : Leaves (nextState (execInvalidation line die s)) := by
  unfold Machine.execInvalidation
  split
  · exact .some h.peerGives
  split
  · exact Leaves.ite (Leaves.some (h.retried h.recallFrom).settleHits) (Leaves.some h)
  · exact .some h

theorem Canonical.execHolderRegistration (h : Canonical s) : Leaves (nextState (execHolderRegistration part die s)) := by
  unfold Machine.execHolderRegistration
  refine .some (h.retried ?_).settleHits
  split
  · exact h.registerDev
  · exact h.registerHolder

theorem Canonical.peerDrops (h : Canonical s) : Canonical (peerDrops s part dev) :=
  h.foldl fun _ _ h₁ => Canonical.ite h₁.dropDev h₁

theorem Canonical.execBackInvalidation (h : Canonical s) : Leaves (nextState (execBackInvalidation part die s)) := by
  unfold Machine.execBackInvalidation
  split
  · exact .some h.peerDrops
  · exact .some (h.retried h.backInvalidate).settleHits

end

/-! ### Control -/

section
variable {s : State} {ctl : Ctl} {x : Iss} {sc wide : Bool} {w : Wave} {a : BitVec 8} {p : Word64} {n wid i core c : Nat}
  {gs : List Group} {off : BitVec 32}

theorem Canonical.putWave (h : Canonical s) : Canonical (Iss.putWave x s w) := h.setWave

theorem Canonical.goGroups {kind : PKind} {ret : Word64} (h : Canonical s) :
    Leaves (goGroups x s w gs kind ret sc).state? := by
  unfold Machine.goGroups
  split
  · exact .some h.putWave
  split
  · exact .some h.putWave
  · exact .none

theorem Canonical.readOrdered {want : BitVec 3} (h : Canonical s) : Leaves (readOrdered s wid w i p n want).state? := by
  unfold Machine.readOrdered
  refine Leaves.ite .none ?_
  split
  · exact h.failed
  · next e => exact .some (h.checkAccess.okSnd e)
  next e =>
  split
  · exact .none
  · exact .none
  next e₁ =>
  split
  · exact .none
  · exact .none
  · next e₂ => exact .some (((h.checkAccess.okSnd e).combineFirst.ok e₁).readAt.ok e₂)

theorem Canonical.headerBudgets {mask : Word64} {l : List Word64} (h : Canonical s) :
    Leaves (headerBudgets s wid w i mask l).state? := by
  induction l generalizing s with
  | nil =>
    unfold Machine.headerBudgets
    exact .some h
  | cons a l ih =>
    unfold Machine.headerBudgets
    dsimp only
    split
    · exact .none
    · exact .none
    next e =>
    refine Leaves.ite .none ?_
    split
    · next e₁ => exact .some ((ih (h.readOrdered.ok e)).ok e₁)
    · exact .none
    · exact .none

theorem Canonical.callGroups {link : Word64} (h : Canonical s) : Leaves (callGroups x s gs link sc).state? := by
  unfold Machine.callGroups
  dsimp only
  split
  · exact .none
  · exact .none
  next e =>
  refine Leaves.ite ?_ (Leaves.ite .none ?_)
  · split
    · exact .none
    · exact (h.headerBudgets.ok e).goGroups
  split
  · exact .none
  · next e₁ => exact .some ((h.headerBudgets.ok e).growWave.at (congrArg Grown.state? e₁))
  next e₁ =>
  split
  · exact .none
  · exact ((h.headerBudgets.ok e).growWave.at (congrArg Grown.state? e₁)).goGroups

theorem Canonical.execBra (h : Canonical s) : Leaves (nextState (execBra ctl wide off s)) := by
  unfold Machine.execBra
  refine h.issue fun x₁ t₁ h₁ => ?_
  dsimp only
  split
  · exact .none
  · exact h₁.goGroups

theorem Canonical.execBrx (h : Canonical s) : Leaves (nextState (execBrx ctl sc a s)) := by
  unfold Machine.execBrx
  refine h.issue fun x₁ t₁ h₁ => ?_
  dsimp only
  split
  · exact .none
  · exact h₁.goGroups

theorem Canonical.execCall (h : Canonical s) : Leaves (nextState (execCall ctl wide off s)) := by
  unfold Machine.execCall
  refine h.issue fun x₁ t₁ h₁ => ?_
  split
  · exact .none
  · exact h₁.callGroups

theorem Canonical.execCallx (h : Canonical s) : Leaves (nextState (execCallx ctl sc a s)) := by
  unfold Machine.execCallx
  refine h.issue fun x₁ t₁ h₁ => ?_
  split
  · exact .none
  · exact h₁.callGroups

theorem Canonical.execRet (h : Canonical s) : Leaves (nextState (execRet ctl sc a s)) := by
  unfold Machine.execRet
  refine h.issue fun x₁ t₁ h₁ => ?_
  dsimp only
  split
  · exact .none
  split
  · exact h₁.goGroups
  · exact Leaves.ite .none (Leaves.some h₁.putWave)

theorem Canonical.execRep {count : BitVec 6} {idst isa isb : BitVec 3} (h : Canonical s) :
    Leaves (nextState (execRep count idst isa isb s)) := by
  unfold Machine.execRep
  dsimp only
  split
  · exact .none
  split
  · exact .none
  · exact .some h.setWave

theorem Canonical.prefetchLine (h : Canonical s) : Canonical (prefetchLine s core c p) := by
  unfold Machine.prefetchLine
  dsimp only
  split
  · exact h
  · exact h
  next e =>
  split
  · exact h
  · exact h
  next e₁ =>
  split
  · next e₂ =>
      split
      · next e₃ =>
          exact Canonical.ite ((((h.checkAccess.okSnd e).combineFirst.ok e₁).placeOf.ok e₂).fetchLine.ok e₃)
              ((((h.checkAccess.okSnd e).combineFirst.ok e₁).placeOf.ok e₂).fetchLine.ok e₃).setFbytes.setLine
      · exact ((h.checkAccess.okSnd e).combineFirst.ok e₁).placeOf.ok e₂
  · next e₂ => exact ((h.checkAccess.okSnd e).combineFirst.ok e₁).placeOf.ok e₂
  · exact h

theorem Canonical.prefetchLines (h : Canonical s) : Canonical (prefetchLines s core c p n) := by
  induction n generalizing s p with
  | zero =>
    unfold Machine.prefetchLines
    exact h
  | succ n ih =>
    unfold Machine.prefetchLines
    exact ih h.prefetchLine

theorem Canonical.trapReturn {action : Nat} (h : Canonical s) : Leaves (trapReturn x s action).state? := by
  unfold Machine.trapReturn
  dsimp only
  split
  · exact .none
  · exact Leaves.ite .none (Leaves.some h.putWave.applyAction.closeRecord)

theorem Canonical.execSwr {ctl : Ctl} {w64 : Bool} {sel a : BitVec 8} {s : State} (h : Canonical s) :
    Leaves (nextState (execSwr ctl w64 sel a s)) := by
  refine h.issue fun _ _ h₁ => ?_
  dsimp only
  split
  · exact .some h₁.updWave
  split
  · exact Leaves.ite .none (Leaves.some (Canonical.ite h₁.updWave.abandonCopy h₁.updWave))
  split
  · exact Leaves.ite .none (Leaves.some (Canonical.ite h₁.setCore.abandonArr h₁.setCore))
  exact Leaves.ite (Leaves.some h₁.setLp) (Leaves.ite (Leaves.some h₁.setLp) (Leaves.ite (Leaves.some h₁.setLp)
    (Leaves.ite (Leaves.some h₁.setLp) (Leaves.some h₁))))

theorem Canonical.trampoline {back : Bool} (h : Canonical s) : Leaves (trampoline x s n back).state? := by
  unfold Machine.trampoline
  dsimp only
  split
  · exact .none
  refine Leaves.ite .none ?_
  split
  · exact .none
  · exact .none
  next e₁ =>
  split
  · exact h.breakStop
  · exact Leaves.ite .none (Leaves.ite .none (Leaves.some (h.readOrdered.ok e₁).putWave))

end

/-! ### Cross -/

section
variable {s : State} {old wid new lower ev : Nat} {ctl : Ctl} {w : Wave} {d : BitVec 8}

theorem Canonical.crossOp {i : Instr} {f : Iss → Nat → List RegW × Word32} (h : Canonical s) :
    Leaves (nextState (crossOp i f s)) :=
  h.issue fun _ _ h₁ => .some h₁.landLater

theorem Canonical.renameCopies (h : Canonical s) : Canonical (renameCopies s old new) := h.update

theorem Canonical.moveResults {news : Nat → List (Nat × Nat)} (h : Canonical s) : Canonical (moveResults s old news) :=
  h.setLp.update

theorem Canonical.joinSplit {upper : Nat} (h : Canonical s) : Canonical (joinSplit s old lower upper w) := by
  unfold Machine.joinSplit
  dsimp only
  split
  · exact (h.moveResults.renameCopies.foldl (fun _ _ h₁ => h₁.soon.soon)).updJob.setCore
  · exact (h.moveResults.renameCopies.foldl (fun _ _ h₁ => h₁.soon.soon)).updJob

theorem Canonical.renameMember (h : Canonical s) : Canonical (renameMember s old new) := h.setCore

theorem Canonical.splitStep {x : Iss} (h : Canonical s) : Canonical (splitStep x s lower) :=
  Canonical.ite h.disarm.stepStop.stepStop h

theorem Canonical.execSplit (h : Canonical s) : Leaves (nextState (execSplit ctl d s)) := by
  unfold Machine.execSplit
  refine h.issue fun x₁ t₁ h₁ => ?_
  dsimp only
  split
  · exact .some h₁.dropWave.dropLatch.renameMember.setWave.setWave.joinSplit.splitStep
  · exact .some h₁.updWave

theorem Canonical.endFuse {status : Nat} (h : Canonical s) : Canonical (endFuse s wid status) := by
  unfold Machine.endFuse
  dsimp only
  split
  · exact h
  split
  · exact h.lateRoll
  split
  · exact h.lateRoll
  · exact h.lateRoll.setWave.fireStepAt

theorem Canonical.fuseExpire {req : Nat} (h : Canonical s) : Canonical (fuseExpire s wid req) := by
  unfold Machine.fuseExpire
  split
  · exact h
  split
  · exact h
  · exact Canonical.ite h (Canonical.ite h.endFuse (Canonical.ite h.endFuse h))

theorem Canonical.leaveFused (h : Canonical s) : Canonical (leaveFused s wid) := h.setCore

theorem Canonical.fuseStep {ctx i pe : Nat} {pc : Word64} (h : Canonical s) :
    Canonical (fuseStep s ctx wid i ev pe pc) := by
  unfold Machine.fuseStep
  split
  · exact Canonical.ite h.disarm.stepStop h
  · exact h

theorem Canonical.joinFused {od : Nat} {base : Nat} (h : Canonical s) : Canonical (joinFused s ev od w base) :=
  h.dropWave.dropLatch.dropLatch.leaveFused.setWave.moveResults.renameMember.renameCopies

theorem Canonical.execFuse {a n : BitVec 8} (h : Canonical s) : Leaves (nextState (execFuse ctl d a n s)) := by
  unfold Machine.execFuse
  refine h.issue fun x₁ t₁ h₁ => Leaves.ite (Leaves.some h₁.updWave) (Leaves.ite (Leaves.some h₁.updWave) (Leaves.ite
      (Leaves.some h₁.updWave) ?_))
  dsimp only
  split
  · exact .some h₁.updWave
  refine Leaves.ite (Leaves.some h₁.updWave) ?_
  split
  · exact .some h₁.putWave.afterTicks
  refine Leaves.ite (Leaves.some h₁.endFuse.updWave) ?_
  split
  · exact Leaves.ite .none (Leaves.some (Canonical.ite h₁.joinFused.fuseStep h₁.joinFused.fuseStep.fuseStep))
  · exact .some h₁.endFuse.updWave

theorem Canonical.execGrow {n : Src} (h : Canonical s) : Leaves (nextState (execGrow ctl n s)) := by
  unfold Machine.execGrow
  refine h.issue fun x₁ t₁ h₁ => ?_
  split
  · exact .none
  · next e => exact .some (h₁.growWave.at (congrArg Grown.state? e))
  · next e => exact .some (h₁.growWave.at (congrArg Grown.state? e))

end

/-! ### Memory -/

section
variable {s : State} {q : Poll} {x : Iss} {ctl : Ctl} {a : BitVec 8} {wid : Nat}

theorem Canonical.execCrange {op : COp} {slot : BitVec 3} {d : BitVec 8} {len poff : BitVec 32} (h : Canonical s) :
    Leaves (nextState (execCrange ctl op slot d a len poff s)) := by
  unfold Machine.execCrange
  refine h.issue fun x₁ t₁ h₁ => Leaves.ite .none ?_
  dsimp only
  split
  · exact .some h₁.updWave
  refine Leaves.ite (Leaves.some h₁.updWave) (Leaves.ite (h₁.sealedAct (fun t₂ h₂ => ?_)) ?_)
  · split
    · exact .none
    · exact .none
    · next e₁ => exact .some (h₂.combineRun.ok e₁)
    · next e₁ => exact .some (h₂.combineRun.ok e₁).updCtx.updWave
  split
  · exact .none
  · exact .none
  · next e₁ => exact .some (h₁.combineRun.ok e₁)
  · next e₁ => exact .some (h₁.combineRun.ok e₁).updCtx.updWave

theorem Canonical.execCntadd {inc : Src} (h : Canonical s) : Leaves (nextState (execCntadd ctl a inc s)) := by
  unfold Machine.execCntadd
  refine h.issue fun x₁ t₁ h₁ => ?_
  dsimp only
  split
  · next e => exact .some (h₁.issueAccess.at (congrArg Act.state? e))
  · exact h₁.issueAccess

theorem Canonical.pollLoad {path : Nat} (h : Canonical s) : Leaves (pollLoad s wid path q).state? := by
  unfold Machine.pollLoad
  dsimp only
  split
  · exact .none
  refine Leaves.ite ?_ (Leaves.ite .none ?_)
  · split
    · next e₁ =>
        refine .some (Leaves.at ?_ (congrArg (Option.bind · Res.state?) e₁))
        split
        · exact .none
        · exact h.earlyRead
    · exact .none
    · exact .none
  split
  · exact .none
  · exact .none
  next e₁ =>
  split
  · exact .none
  · exact .some (h.laneRead.ok e₁)

theorem Canonical.pollOn (h : Canonical s) : Canonical (pollOn x s q) := h.updWave

theorem Canonical.keepPolling {n : Nat} (h : Canonical s) : Leaves (keepPolling x s q n).state? := .some h.pollOn.afterTicks

theorem Canonical.issuePoll {pointer : Bool} (h : Canonical s) : Leaves (issuePoll x s q pointer).state? := by
  unfold Machine.issuePoll
  refine Leaves.ite .none (Leaves.ite .none (Leaves.ite (Leaves.some h.pollOn.after) ?_))
  dsimp only
  split
  · exact Leaves.ite h.keepPolling .none
  · exact Leaves.ite h.breakStop .none
  · next e =>
      exact Leaves.ite (Leaves.some (h.pollLoad.at (congrArg Polled.state? e)).updWave) (h.pollLoad.at
          (congrArg Polled.state? e)).keepPolling

theorem Canonical.recheckPoll {i : Nat} (h : Canonical s) : Canonical (recheckPoll s wid i) := by
  unfold Machine.recheckPoll
  dsimp only
  split
  · exact h
  split
  · exact h
  refine Canonical.ite h.after ?_
  split
  · exact h.updWave.gate.ensureTicks
  · exact (Canonical.ite h.rollback h).updWave.takeFault
  · next e₂ =>
      exact Canonical.ite (Canonical.ite (Canonical.ite (h.pollLoad.at (congrArg Polled.state? e₂)) (h.pollLoad.at
          (congrArg Polled.state? e₂)).lateRoll).updWave.tickFree.latchLand (Canonical.ite (h.pollLoad.at
          (congrArg Polled.state? e₂)) (h.pollLoad.at (congrArg
          Polled.state? e₂)).lateRoll).updWave.tickFree.latchLand.fireStepAt) (h.pollLoad.at
          (congrArg Polled.state? e₂)).updWave.ensureTicks

end

/-! ### Teams -/

section
variable {s : State} {ctl : Ctl} {t : Nat} {d a : BitVec 8}

theorem Canonical.updTeam {f : Team → Team} (h : Canonical s) : Canonical (s.updTeam t f) := by
  unfold Machine.State.updTeam
  dsimp only
  split
  · exact h
  · exact h.setCore

theorem Canonical.setColl {c : Collective} (h : Canonical s) : Canonical (s.setColl c) := h.update

theorem Canonical.dropColl (h : Canonical s) : Canonical (s.dropColl t) := h.update

theorem Canonical.newCopy {op : Nat} {ptr : Word64} {g : Given} {team : Option Nat} (h : Canonical s) :
    Canonical (newCopy s op ptr g team) := by
  unfold Machine.newCopy
  dsimp only
  split
  · exact h.fresh
  refine Canonical.soon ?_
  split
  · exact h.fresh.update.updTeam
  · exact h.fresh.update

theorem Canonical.leaveTeam {wid : Nat} (h : Canonical s) : Canonical (leaveTeam s wid) := by
  unfold Machine.leaveTeam
  dsimp only
  split
  · exact h
  split
  · exact h
  split
  · exact h.setWave
  refine Canonical.updTeam ?_
  split
  · refine Canonical.ite ?_ h.setWave
    split
    · exact h.setWave.newCopy
    · exact h.setWave
  · exact h.setWave

theorem Canonical.execTnew {size : Src} (h : Canonical s) : Leaves (nextState (execTnew ctl d size s)) := by
  unfold Machine.execTnew
  refine h.issue fun x₁ t₁ h₁ => Leaves.ite (Leaves.some h₁.updWave) ?_
  dsimp only
  split
  · exact .some h₁.updWave
  split
  · exact .some h₁.updWave
  · exact .some h₁.setCore.updWave.updWave

theorem Canonical.execTjoin (h : Canonical s) : Leaves (nextState (execTjoin ctl d a s)) := by
  unfold Machine.execTjoin
  refine h.issue fun x₁ t₁ h₁ => Leaves.ite .none (Leaves.ite (Leaves.some h₁.updWave) ?_)
  dsimp only
  split
  · exact .some h₁.updWave
  · exact .some h₁.updTeam.updWave.updWave

theorem Canonical.execLaunch (h : Canonical s) : Leaves (nextState (execLaunch ctl a s)) := by
  unfold Machine.execLaunch
  refine h.issue fun x₁ t₁ h₁ => Leaves.ite .none ?_
  dsimp only
  split
  · exact h₁.breakStop
  refine Leaves.ite (Leaves.ite .none (Leaves.some h₁.setCore)) (Leaves.ite .none ?_)
  split
  · exact .none
  · exact .none
  next e₁ =>
  split
  · exact .none
  · next e₂ => exact .some ((h₁.readLaunch.ok e₁).enqueue.at e₂)

end

/-! ### Copies -/

section
variable {s : State} {c : Copy} {id : Nat} {f : FaultInfo} {x : Iss}

theorem Canonical.holdOwner (h : Canonical s) : Canonical (holdOwner s x) := h.updWave

theorem Canonical.contribute {op : Nat} {a : BitVec 8} (h : Canonical s) : Leaves (contribute x s op a).state? := by
  unfold Machine.contribute
  refine Leaves.ite .none ?_
  dsimp only
  split
  · exact Leaves.ite (Leaves.some h.noteWrite.copyReply) (Leaves.some h.noteWrite.setCopy.soon.holdOwner)
  split
  · exact .some h.noteWrite.newCopy.holdOwner
  · exact Leaves.ite .none (Leaves.ite .none (Leaves.ite (Leaves.some h.noteWrite.setColl.newCopy.holdOwner)
      (Leaves.some h.noteWrite.setColl)))

theorem Canonical.readShape (h : Canonical s) : Leaves (readShape s c).state? := by
  unfold Machine.readShape
  dsimp only
  split
  · exact .none
  split
  · exact .none
  · exact .none
  next e₁ =>
  refine Leaves.ite .none ?_
  split
  · exact (h.loadRecord.ok e₁).failed
  · next e₂ => exact .some ((h.loadRecord.ok e₁).clCheck.okSnd e₂)

theorem Canonical.ownerGone (h : Canonical s) : Canonical (ownerGone s c f) := h.raiseNoPath

theorem Canonical.startFails (h : Canonical s) : Canonical (startFails s c f) := by
  unfold Machine.startFails
  dsimp only
  split
  · exact h.setCopy.ownerGone.dropCopy
  refine Canonical.ite h.setCopy.takeFault ?_
  split
  · next e₁ => exact h.setCopy.parkOwner.at (congrArg Deferred.state? e₁)
  · exact h.setCopy.after
  · exact h.setCopy.ownerGone.dropCopy

theorem Canonical.beginCopy {h : TShape} (hs : Canonical s) : Canonical (beginCopy s c h) := by
  unfold Machine.beginCopy
  refine Canonical.ite (Canonical.ite (Canonical.releaseOwner ?_).setCopy.addTileOp
      (Canonical.releaseOwner ?_).setCopy).updWave.copyProg.soon (Canonical.ite
      (Canonical.releaseOwner ?_).setCopy.addTileOp (Canonical.releaseOwner ?_).setCopy).updWave.copyProg
  · split
    · exact hs.dropColl
    · exact hs
  · split
    · exact hs.dropColl
    · exact hs
  · split
    · exact hs.dropColl
    · exact hs
  split
  · exact hs.dropColl
  · exact hs

theorem Canonical.startCopy (h : Canonical s) : Canonical (startCopy s id) := by
  unfold Machine.startCopy
  dsimp only
  split
  · exact h
  refine Canonical.ite h (Canonical.ite h.ensureTicks ?_)
  split
  · exact h.waitTick
  · exact h.startFails
  next e₁ =>
  split
  · exact (h.readShape.ok e₁).startFails
  split
  · exact (h.readShape.ok e₁).startFails
  · exact Canonical.ite (h.readShape.ok e₁).updWave.after (h.readShape.ok e₁).beginCopy

theorem Canonical.reportStop (h : Canonical s) : Canonical (reportStop s c f) := by
  unfold Machine.reportStop
  dsimp only
  split
  · next e => exact (h.parkOwner.at (congrArg Deferred.state? e)).setCopy.copyProg
  · exact h.setCopy.copyProg.ensureTicks
  · exact h.ownerGone.dropCopy

theorem Canonical.stopCopy (h : Canonical s) : Canonical (stopCopy s id) := by
  unfold Machine.stopCopy
  split
  · exact h
  split
  · exact h.reportStop
  · exact h
  refine Canonical.ite h ?_
  split
  · exact h.reportStop
  · exact h

theorem Canonical.enterMma {h : TShape} (hs : Canonical s) : Canonical (enterMma s c h id) :=
  Canonical.ite hs.after hs.endTileOp.putMma.setCopy

theorem Canonical.refuseMma {e : FaultInfo} (h : Canonical s) : Canonical (refuseMma s c e) := by
  unfold Machine.refuseMma
  split
  · next e₁ => exact (h.parkOwner.at (congrArg Deferred.state? e₁)).setCopy
  · exact h.setCopy.after
  · exact h.ownerGone.setCopy

theorem Canonical.chainMma {h : TShape} (hs : Canonical s) : Canonical (chainMma s c h) := by
  unfold Machine.chainMma
  refine Canonical.ite hs (Canonical.ite hs.after ?_)
  dsimp only
  split
  · exact hs.refuseMma
  · exact hs.enterMma
  split
  · exact hs.updWave.refuseMma
  · exact hs.fresh.addTileOp.setCopy.enterMma

theorem Canonical.payCopy {h : TShape} (hs : Canonical s) : Canonical (payCopy s c h) := by
  unfold Machine.payCopy
  refine Canonical.ite hs (hs.withRoom (fun t₁ h₁ => ?_))
  dsimp only
  split
  · exact h₁.waitTick
  · exact (Canonical.ite hs hs.setCopy.raiseNoPath).ensureTicks
  · next e => exact (h₁.bump.ok e).setCopy

theorem Canonical.completeCopy (h : Canonical s) : Canonical (completeCopy s id) := by
  unfold Machine.completeCopy
  dsimp only
  split
  · exact h
  split
  · exact h
  refine Canonical.ite h ?_
  split
  · refine Canonical.ite (Canonical.dropCopy ?_) ?_
    · split
      · exact h.endTileOp.copyProg.chainMma.payCopy
      · exact h.endTileOp.copyProg.chainMma
    split
    · exact h.endTileOp.copyProg.chainMma.payCopy
    · exact h.endTileOp.copyProg.chainMma
  split
  · exact h.endTileOp.copyProg.chainMma.payCopy
  · exact h.endTileOp.copyProg.chainMma

end

/-! ### Placement -/

section
variable {s : State} {c ctx lp i core queue id : Nat} {j : Job} {is : List Nat}

theorem Canonical.putWaveAt {slot : Nat} (h : Canonical s) : Leaves (putWaveAt s c j lp slot i) := by
  unfold Machine.putWaveAt
  dsimp only
  split
  · exact .some h.setWave
  · exact .none

theorem Canonical.putGroup {s : State} {c core : Nat} {j : Job} {is : List Nat} (h : Canonical s) :
    Leaves (putGroup s c core j is) := by
  induction is generalizing s with
  | nil => exact .some h
  | cons i is ih =>
    unfold Machine.putGroup
    split
    · exact .none
    · split
      · exact .none
      · exact h.putWaveAt.bind fun _ h₁ => ih h₁

theorem Canonical.putPair {s : State} {c core : Nat} {j : Job} {is : List Nat} (h : Canonical s) :
    Leaves (putPair s c core j is) := by
  unfold Machine.putPair
  split
  · exact .none
  · split
    · exact .none
    · exact List.foldlRecOn _ _ (motive := Leaves) (.some h) fun _ ho _ _ => ho.bind fun _ h₁ => h₁.putWaveAt

theorem Canonical.placeOn (h : Canonical s) : Leaves (placeOn s c j is core) := by
  unfold Machine.placeOn
  split
  · exact .none
  split
  · exact h.putPair
  · exact h.putGroup

theorem Canonical.firstPlace {l : List Nat} (h : Canonical s) : Leaves ((firstPlace s c j is l).map (·.2)) := by
  induction l with
  | nil =>
    unfold Machine.firstPlace
    exact .none
  | cons a l ih =>
    unfold Machine.firstPlace
    split
    · next e => exact .some (h.placeOn.at e)
    · exact ih

theorem Canonical.noteHead {q : Nat} (h : Canonical s) : Canonical (noteHead s c q) := by
  unfold Machine.noteHead
  split
  · exact Canonical.ite h h.updJob.afterTicks
  · exact h

theorem Canonical.noteHeads (h : Canonical s) : Canonical (noteHeads s c) := h.foldl fun _ _ h₁ => h₁.noteHead

theorem Canonical.pickHead {hs l : List Job} (h : Canonical s) : Leaves ((pickHead s c hs l).map (·.2.2.2)) := by
  induction l with
  | nil =>
    unfold Machine.pickHead
    exact .none
  | cons a l ih =>
    unfold Machine.pickHead
    dsimp only
    split
    · next e => exact .some (h.firstPlace.at (congrArg (Option.map Prod.snd) e))
    · exact ih

theorem Canonical.pickPlace (h : Canonical s) : Leaves ((pickPlace s c).map (·.2.2.2)) := by
  unfold Machine.pickPlace
  split
  · exact .none
  · exact Leaves.ite .none h.pickHead

theorem Canonical.notePlaced (h : Canonical s) : Canonical (notePlaced s c core j is) :=
  h.setCore.updJob.enterReady.ensureSoon

theorem Canonical.reclaimFor {js : List Job} (h : Canonical s) : Canonical (reclaimFor s c js) := by
  unfold Machine.reclaimFor
  split
  · exact h.ensureSoon
  · exact h

theorem Canonical.dispatch {s : State} {c : Nat} (h : Canonical s) : Canonical (dispatch s c) := by
  unfold Machine.dispatch
  dsimp only
  split
  · next e =>
    split
    · exact h.noteHeads.ensureSoon.ensureTicks
    · exact (h.noteHeads.pickPlace.at (congrArg (Option.map fun x => x.2.2.2) e)).notePlaced
  · split
    · exact .ite h.noteHeads.ensureTicks.reclaimFor h.noteHeads
    · exact h.noteHeads

theorem Canonical.execHeadAging (h : Canonical s) : Leaves (nextState (execHeadAging ctx queue s)) := by
  unfold Machine.execHeadAging
  dsimp only
  split
  · exact .some h
  split
  · exact .some h
  · exact Leaves.ite (Leaves.some h.ensureTicks.updJob.ensureSoon) (Leaves.some h.ensureTicks)

theorem Canonical.execGridClose (h : Canonical s) : Leaves (nextState (execGridClose ctx queue s)) := by
  unfold Machine.execGridClose
  split
  · exact .some h
  · exact Leaves.ite (Leaves.some h.setCtx.ensureSoon) (Leaves.some h)

theorem Canonical.payDue (h : Canonical s) : Canonical (payDue s c id) := by
  unfold Machine.payDue
  dsimp only
  split
  · exact h
  split
  · split
    · exact h.dropJob
    · exact Canonical.ite h h.afterTicks
  refine h.withRoom fun t₁ h₁ => ?_
  split
  · exact h₁.updJob.gate.ensureSoon
  · exact (Canonical.ite h₁ h₁.raiseNoPath).updJob.ensureSoon
  · next e₂ => exact (h₁.bump.ok e₂).updJob.ensureSoon

theorem Canonical.execWaitCounterRetry (h : Canonical s) : Leaves (nextState (execWaitCounterRetry ctx id s)) := by
  unfold Machine.execWaitCounterRetry
  split
  · exact .some h
  · exact .some (Canonical.ite h.pollWait h.payDue).settleHits

theorem Canonical.endIndex {job : Nat} (h : Canonical s) : Canonical (endIndex s c job i) := by
  unfold Machine.endIndex
  dsimp only
  split
  · exact h.updJob
  · exact Canonical.ite (Canonical.ite h.updJob (Canonical.ite h.updJob.dropJob h.updJob.complete)) (Canonical.ite
      (Canonical.ite h.updJob.dropJob h.updJob.complete) h.updJob)

theorem Canonical.endLaunches {ls : List (Nat × Nat)} (h : Canonical s) : Canonical (endLaunches s c ls) :=
  h.foldl fun _ _ h₁ => h₁.endIndex

theorem Canonical.freeWave {wid : Nat} (h : Canonical s) : Canonical (freeWave s wid) := by
  unfold Machine.freeWave
  dsimp only
  split
  · exact h
  refine Canonical.ite h (h.leaveTeam.removeWave.endLaunches.foldl (fun s₁ a₁ h₁ => ?_))
  split
  · exact Canonical.ite h₁.ensureSoon h₁
  · exact h₁

theorem Canonical.execNotAnInstruction {b : Bad} (h : Canonical s) : Leaves (nextState (execNotAnInstruction b s)) := by
  unfold Machine.execNotAnInstruction
  dsimp only
  split
  · exact .none
  split
  · exact .none
  split
  · exact h.breakAt
  · exact h.raiseAt h

theorem Canonical.execSpill (h : Canonical s) : Leaves (nextState (execSpill lp s)) := by
  unfold Machine.execSpill
  split
  · exact .some (h.withLines (fun _ h₁ => h₁.spillOne))
  · exact .some h

end

/-! ### Errors -/

section
variable {s : State} {c core off : Nat}

theorem Canonical.scrub {base size : Nat} (h : Canonical s) : Canonical (scrub s core c base size) :=
  h.foldl fun _ _ h₁ => h₁.localWrite.setLine

theorem Canonical.noteKilled {again : Bool} {l : Nat × Nat} (h : Canonical s) : Canonical (noteKilled s c again l) :=
  h.updJob

theorem Canonical.endTeam {t : Nat} (h : Canonical s) : Canonical (endTeam s t) :=
  (h.dropColl.foldl (fun _ _ h₁ => h₁.dropCopy)).setCore

theorem Canonical.killWaves {team : Option Nat} {ids : List Nat} (h : Canonical s) :
    Canonical (killWaves s c off team ids) := by
  unfold Machine.killWaves
  refine (Canonical.ite (Canonical.foldl ?_ (fun _ _ h₁ => h₁.noteKilled)) (Canonical.foldl ?_
      (fun _ _ h₁ => h₁.noteKilled)).raiseTo).endLaunches.ensureSoon
  · split
    · exact (h.foldl (fun _ _ h₁ => h₁.removeWave)).endTeam
    · exact h.foldl fun _ _ h₁ => h₁.removeWave
  split
  · exact (h.foldl (fun _ _ h₁ => h₁.removeWave)).endTeam
  · exact h.foldl fun _ _ h₁ => h₁.removeWave

theorem Canonical.poisonLocal (h : Canonical s) : Canonical (poisonLocal s core c off) := h.setLine

theorem Canonical.localError (h : Canonical s) : Canonical (localError s core c off) := by
  unfold Machine.localError
  refine Canonical.ite h (Canonical.ite h.poisonLocal ?_)
  split
  · exact h.scrub.killWaves
  split
  · split
    · exact h.scrub.killWaves
  · exact h.poisonLocal

theorem Canonical.tagSite {x : UeSite} (h : Canonical s) : Canonical (tagSite s x) := by
  unfold Machine.tagSite
  dsimp only
  split
  · exact h.updWave
  · exact h.updWave
  · exact h.updWave
  · exact h.setMx
  · exact h.setMx
  · exact h.setAcc

end

/-! ### Homes -/

section
variable {s : State} {o n part die n1 page old len : Nat} {l : List Nat} {w : Dual} {gone : Nat → Bool}

theorem Canonical.rewriteExtent {new : Nat} (h : Canonical s) : Canonical (rewriteExtent s old len new) :=
  (h.foldl (fun _ _ h₁ => h₁.updCtx)).restartWalks

theorem Canonical.renameRefs (h : Canonical s) : Canonical (renameRefs s o n) := h.update

theorem Canonical.renameAtlas (h : Canonical s) : Canonical (renameAtlas s die o n) := by
  unfold Machine.renameAtlas
  dsimp only
  split
  · exact h
  · exact Canonical.ite h.evict h.setDie

theorem Canonical.moveWords (h : Canonical s) : Canonical (moveWords s o n n1) := by
  induction n1 generalizing s with
  | zero =>
    unfold Machine.moveWords
    exact h
  | succ n ih =>
    unfold Machine.moveWords
    exact ih h.setDir.setHomePoison.setDir.setHomePoison

theorem Canonical.renamePart (h : Canonical s) : Canonical (renamePart s o n) := by
  unfold Machine.renamePart
  refine (Canonical.moveWords ?_).renameRefs
  dsimp only
  split <;> exact (h.foldl (fun _ _ h₁ => h₁.renameAtlas)).update

theorem Canonical.copyHome {s : State} {src dst len : Nat} (h : Canonical s) : Canonical (copyHome s src dst len) :=
  ⟨Memory.wf_foldl_write _ _ _ (h.home.filter _), h.frames⟩

theorem Canonical.openDual {base : Nat} (h : Canonical s) : Canonical (openDual s page base) :=
  Canonical.ite h h.copyHome.update

theorem Canonical.registerAll (h : Canonical s) : Leaves (registerAll s part l).state? := by
  induction l generalizing s with
  | nil =>
    unfold Machine.registerAll
    exact .some h
  | cons a l ih =>
    unfold Machine.registerAll
    split
    · next e => exact ih (h.registerHolder.ok e)
    · exact h.registerHolder

theorem Canonical.registerDevs (h : Canonical s) : Leaves (registerDevs s part l).state? := by
  induction l generalizing s with
  | nil =>
    unfold Machine.registerDevs
    exact .some h
  | cons a l ih =>
    unfold Machine.registerDevs
    split
    · next e => exact ih (h.registerDev.ok e)
    · exact h.registerDev

theorem Canonical.moveHolders (h : Canonical s) : Leaves (moveHolders s o n n1).state? := by
  induction n1 generalizing s with
  | zero =>
    unfold Machine.moveHolders
    exact .some h
  | succ n ih =>
    unfold Machine.moveHolders
    dsimp only
    split
    · next e =>
        split
        · next e₁ => exact ih ((h.registerAll.ok e).registerDevs.ok e₁).setDie
        · exact (h.registerAll.ok e).registerDevs
    · exact h.registerAll

theorem Canonical.renameParts (h : Canonical s) : Canonical (renameParts s o n n1) := by
  induction n1 generalizing s with
  | zero =>
    unfold Machine.renameParts
    exact h
  | succ n ih =>
    unfold Machine.renameParts
    exact ih h.renamePart

theorem Canonical.movePage (h : Canonical s) : Leaves (movePage s w).state? := by
  unfold Machine.movePage
  refine Leaves.ite .none ?_
  dsimp only
  split
  · next e => exact .some (h.moveHolders.ok e).rewriteExtent.renameParts.raiseHome
  · exact h.moveHolders

theorem Canonical.switchPage (h : Canonical s) : Canonical (switchPage s page) := by
  unfold Machine.switchPage
  dsimp only
  split
  · exact h
  refine Canonical.ite h.update ?_
  split
  · exact h.waitTick
  · exact h
  · next e₁ => exact (h.movePage.ok e₁).update.later

theorem Canonical.purgePage (h : Canonical s) : Canonical (purgePage s page) := Canonical.ite h.dropTlb.update h

theorem Canonical.losePart {ls : List Nat} (h : Canonical s) : Canonical (losePart s part ls) := by
  unfold Machine.losePart
  refine Canonical.ite h (h.update.foldl (fun s₁ a₁ h₁ => ?_))
  split
  · exact h₁
  split
  · exact h₁.raiseNoPath
  · exact h₁

theorem Canonical.discardPart (h : Canonical s) : Canonical (discardPart s die part) := by
  unfold Machine.discardPart
  dsimp only
  split
  · exact h
  · exact (h.foldl (fun _ _ h₁ => h₁.setLine.strikeDie)).evict

theorem Canonical.discardParts (h : Canonical s) : Canonical (discardParts s part) := h.foldl fun _ _ h₁ => h₁.discardPart

theorem Canonical.recoverPart {kept : Bool} (h : Canonical s) : Canonical (recoverPart s o n kept) :=
  Canonical.ite ((Canonical.ite ((h.discardParts.foldl (fun _ _ h₁ => h₁.setDir.setHomePoison)).renameRefs.foldl
    (fun _ _ h₁ => h₁.setHomePoison)) (h.discardParts.foldl (fun _ _ h₁ => h₁.setDir.setHomePoison)).renameRefs).foldl
    (fun _ _ h₁ => h₁.homeWrite.setHomePoison)).raiseHome ((Canonical.ite ((h.discardParts.foldl
    (fun _ _ h₁ => h₁.setDir.setHomePoison)).renameRefs.foldl (fun _ _ h₁ => h₁.setHomePoison)) (h.discardParts.foldl
    (fun _ _ h₁ => h₁.setDir.setHomePoison)).renameRefs).foldl
    (fun _ _ h₁ => h₁.homeWrite.setHomePoison)).raiseHome.losePart

theorem Canonical.recoverParts {kept : Nat → Bool} (h : Canonical s) : Canonical (recoverParts s o n kept n1) := by
  induction n1 generalizing s with
  | zero =>
    unfold Machine.recoverParts
    exact h
  | succ n ih =>
    unfold Machine.recoverParts
    exact ih h.recoverPart

theorem Canonical.recoverExtent {stands : Nat → Bool} (h : Canonical s) : Canonical (recoverExtent s old len stands) := by
  unfold Machine.recoverExtent
  dsimp only
  split
  · exact (h.dropTlb.foldl (fun _ _ h₁ => h₁.copyHome)).rewriteExtent.recoverParts
  · exact h.dropTlb.foldl fun _ _ h₁ => h₁.recoverPart

theorem Canonical.recoverDual (h : Canonical s) : Canonical (recoverDual s w) := h.update.dropTlb.rewriteExtent.recoverParts

theorem Canonical.recoverDuals {hit : Nat → Bool} (h : Canonical s) : Canonical (recoverDuals s gone hit) :=
  h.update.foldl fun _ _ h₁ => h₁.recoverDual

theorem Canonical.recoverHomes (h : Canonical s) : Canonical (recoverHomes s gone) :=
  h.recoverDuals.foldl fun _ _ h₁ => h₁.recoverExtent

theorem Canonical.recoverTier2 (h : Canonical s) : Canonical (recoverTier2 s die) := h.foldl fun _ _ h₁ => h₁.recoverExtent

theorem Canonical.loseParts {ps : List Nat} {self : Instr} (h : Canonical s) : Canonical (loseParts s ps self) := by
  unfold Machine.loseParts
  dsimp only
  split
  · exact (h.foldl (fun _ _ h₁ => h₁.losePart)).waitTick
  · exact (h.foldl (fun _ _ h₁ => h₁.losePart)).foldl (fun _ _ h₁ => h₁.discardParts.foldl (fun _ _ h₂ => h₂.setDir))

theorem Canonical.forgetDie (h : Canonical s) : Canonical (forgetDie s die) :=
  h.foldl fun _ _ h₁ => h₁.evict.foldl (fun _ _ h₂ => h₂.setHomePoison)

theorem Canonical.failDie (h : Canonical s) : Canonical (failDie s die) := by
  unfold Machine.failDie
  refine Canonical.ite h.setDie.later (Canonical.ite h ?_)
  dsimp only
  split
  · exact h.waitTick
  split
  · exact h.waitTick
  · exact h.forgetDie.recoverDuals.recoverHomes.recoverTier2.update

theorem Canonical.clearLost (h : Canonical s) : Canonical (clearLost s part) := by
  unfold Machine.clearLost
  dsimp only
  split
  · exact h
  · exact (h.update.foldl (fun _ _ h₁ => h₁.homeWrite.setHomePoison)).tickFree

theorem Canonical.loseDevice {dev : Nat} (h : Canonical s) : Canonical (loseDevice s dev) := by
  unfold Machine.loseDevice
  refine Canonical.ite h (Canonical.ite h.update.later ?_)
  dsimp only
  split
  · exact h.waitTick
  split
  · exact h.waitTick
  · exact h.endDevHolds.recoverHomes.update

end

/-! ### HostLink -/

section
variable {s : State} {addr l line id : Nat} {bs : List Byte}

theorem Canonical.unsupported (h : Canonical s) : Canonical (unsupported s) := h.update

theorem Canonical.hostRead {n : Nat} (h : Canonical s) : Leaves (hostRead s addr n).state? := by
  unfold Machine.hostRead
  split
  · exact .none
  · exact .none
  next e =>
  split
  · exact .none
  · exact .none
  next e₁ =>
  split
  · exact .none
  · exact .none
  next e₂ =>
  split
  · next e₃ =>
      exact .some (((((h.combineFirst.ok e).registerDev.ok e₁).tierRoom.ok e₂).asDev
          (fun _ h₁ => h₁.clRead)).ok e₃).shareDev
  · exact (((h.combineFirst.ok e).registerDev.ok e₁).tierRoom.ok e₂).asDev fun _ h₁ => h₁.clRead

theorem Canonical.hostWrite (h : Canonical s) : Leaves (hostWrite s addr bs).state? := by
  unfold Machine.hostWrite
  split
  · exact .none
  · exact .none
  next e =>
  split
  · next e₁ => exact .some ((h.alongside (h.combineFirst.ok e) (fun _ h₁ => h₁.asDev (fun _ h₂ => h₂.clWrite))).ok e₁).wrote
  · exact h.alongside (h.combineFirst.ok e) fun _ h₁ => h₁.asDev (fun _ h₂ => h₂.clWrite)

theorem Canonical.hostReply (h : Canonical s) : Canonical (hostReply s addr bs) := h.update

theorem Canonical.hostPerform {x : Instr} (h : Canonical s) : Leaves (hostPerform s x).state? := by
  unfold Machine.hostPerform
  split
  · split
    · next e => exact .some (h.hostRead.ok e).hostReply
    · exact .none
    · exact .none
  · exact h.hostWrite
  · exact h.ownDev
  · exact .some h

theorem Canonical.hostTry (h : Canonical s) : Canonical (hostTry s id) := by
  unfold Machine.hostTry
  dsimp only
  split
  · exact h
  refine Canonical.ite h ?_
  split
  · next e₁ =>
      refine Canonical.settleHits ?_
      split
      · exact (h.hostPerform.ok e₁).update.soon
      · exact (h.hostPerform.ok e₁).update
  · split
    · exact h.update.soon
    · exact h.update
  · exact h.gate.update

theorem Canonical.hostArrives {i : Instr} (h : Canonical s) : Canonical (hostArrives s i) := by
  unfold Machine.hostArrives
  dsimp only
  split
  · exact h
  · exact Canonical.ite h (Canonical.ite h.unsupported h.fresh.update.hostTry)

theorem Canonical.waitDone (h : Canonical s) : Canonical (waitDone s id) := by
  unfold Machine.waitDone
  dsimp only
  split
  · exact h.hostTry
  · exact h.update

theorem Canonical.snoopReply (h : Canonical s) : Canonical (snoopReply s l bs) := h.hostReply.settleHits

theorem Canonical.snoopRead (h : Canonical s) : Leaves (snoopRead s l).state? := by
  unfold Machine.snoopRead
  split
  · exact .none
  · exact .none
  · next e => exact (h.combineFirst.ok e).clRead

theorem Canonical.execSnpcur (h : Canonical s) : Leaves (nextState (execSnpcur line s)) := by
  unfold Machine.execSnpcur
  refine Leaves.ite (Leaves.some h) ?_
  split
  · exact .some h.waitTick
  · exact .some h
  · next e => exact .some (h.snoopRead.ok e).snoopReply

theorem Canonical.cleanOwner (h : Canonical s) : Canonical (cleanOwner s l) := by
  unfold Machine.cleanOwner
  refine Canonical.ite h ?_
  dsimp only
  split
  · exact h
  · exact h.forceCharge.homeWrite.setHomePoison.setLine.setDir

theorem Canonical.execSnpdata (h : Canonical s) : Leaves (nextState (execSnpdata line s)) := by
  unfold Machine.execSnpdata
  refine Leaves.ite (Leaves.some h) ?_
  split
  · exact .some h.waitTick
  · exact .some h
  · next e => exact .some (h.snoopRead.ok e).cleanOwner.snoopReply

theorem Canonical.execSnpinv (h : Canonical s) : Leaves (nextState (execSnpinv line s)) := by
  unfold Machine.execSnpinv
  refine Leaves.ite (Leaves.some h) ?_
  split
  · exact .some h.waitTick
  · exact .some h
  next e =>
  refine .some (Leaves.ok ?_ e).snoopReply
  split
  · next e₁ => exact (h.combineFirst.ok e₁).recallAll
  · exact h.combineFirst

theorem Canonical.dropHostSteps (h : Canonical s) : Canonical (dropHostSteps s) := h.update

theorem Canonical.dropHostParts (h : Canonical s) : Canonical (dropHostParts s) :=
  h.foldl fun _ _ h₁ => (h₁.discardParts.foldl (fun _ _ h₂ => h₂.setDir)).losePart

theorem Canonical.resetHost (h : Canonical s) : Canonical (resetHost s) := h.dropHostSteps.endDevHolds.dropHostParts.update

theorem Canonical.downPort {port : Nat} (h : Canonical s) : Canonical (downPort s port) :=
  h.update.foldl fun _ _ h₁ => h₁.soon

end

/-! ### Peek -/

section
variable {s s₀ : State} {core t c off n item : Nat} {bs : List Byte} {p : Word64} {x : Iss} {w : Who} {l qs : List Piece}
  {i : Instr} {d : BitVec 8} {pz trace : Bool} {f : Fail}

theorem Canonical.bufReadFrom (h : Canonical s₀) (hs : Canonical s) : Leaves (bufReadFrom s₀ s w l).state? := by
  induction l generalizing s with
  | nil =>
    unfold Machine.bufReadFrom
    exact .some hs
  | cons a l ih =>
    unfold Machine.bufReadFrom
    dsimp only
    split
    · exact hs.failed
    · next e => exact ih (hs.checkAccess.okSnd e)
    next e =>
    split
    · exact .none
    · exact .none
    next e₁ =>
    split
    · exact .none
    · exact .none
    next e₂ =>
    split
    · next e₃ => exact .some ((ih (((h.combineNext (hs.checkAccess.okSnd e)).ok e₁).readAt.ok e₂)).ok e₃)
    · exact ih (((h.combineNext (hs.checkAccess.okSnd e)).ok e₁).readAt.ok e₂)

theorem Canonical.bufRead (h : Canonical s) : Leaves (bufRead s w qs).state? := h.bufReadFrom h

theorem Canonical.bufWriteFrom (h : Canonical s₀) (hs : Canonical s) : Leaves (bufWriteFrom s₀ s w bs l).state? := by
  induction l generalizing s with
  | nil =>
    unfold Machine.bufWriteFrom
    exact .some hs
  | cons a l ih =>
    unfold Machine.bufWriteFrom
    split
    · exact hs.failed
    · next e => exact ih (hs.checkAccess.okSnd e)
    next e =>
    split
    · exact .none
    · exact .none
    next e₁ =>
    split
    · exact .none
    · exact .none
    · next e₂ => exact ih (((h.combineNext (hs.checkAccess.okSnd e)).ok e₁).writeAt.ok e₂).putBytes.wrote

theorem Canonical.bufWrite (h : Canonical s) : Leaves (bufWrite s w bs qs).state? := h.bufWriteFrom h

theorem Canonical.memCheck {want : BitVec 3} (h : Canonical s) : Leaves (memCheck s core t want l).toOption := by
  induction l generalizing s with
  | nil =>
    unfold Machine.memCheck
    exact .some h
  | cons a l ih =>
    unfold Machine.memCheck
    split
    · exact .none
    · next e => exact ih (h.checkAccess.okSnd e)

theorem Canonical.memReadFrom (h : Canonical s₀) (hs : Canonical s) : Leaves (memReadFrom s₀ s core t l).state? := by
  induction l generalizing s with
  | nil =>
    unfold Machine.memReadFrom
    exact .some hs
  | cons a l ih =>
    unfold Machine.memReadFrom
    split
    · exact hs.failed
    · next e => exact ih (hs.checkAccess.okSnd e)
    next e =>
    split
    · exact .none
    · exact .none
    next e₁ =>
    split
    · exact .none
    · exact .none
    next e₂ =>
    split
    · next e₃ => exact .some ((ih (((h.combineNext (hs.checkAccess.okSnd e)).ok e₁).agentRead.ok e₂)).ok e₃)
    · exact ih (((h.combineNext (hs.checkAccess.okSnd e)).ok e₁).agentRead.ok e₂)

theorem Canonical.memRead (h : Canonical s) : Leaves (memRead s core t qs).state? := h.memReadFrom h

theorem Canonical.memWriteFrom {s₀ s : State} {core t : Nat} {bs : List Byte} {qs : List Piece} (h₀ : Canonical s₀)
    (h : Canonical s) : Leaves (memWriteFrom s₀ s core t bs qs).state? := by
  induction qs generalizing s with
  | nil => exact .some h
  | cons q qs ih =>
    -- Its equations are too costly for `unfold` to derive, so its recursor is opened instead.
    change ∀ t, Canonical t → Leaves (Machine.memWriteFrom s₀ t core _ bs qs).state? at ih
    delta Machine.memWriteFrom Machine.memWriteFrom._f at ih ⊢
    dsimp only [List.brecOn, List.brecOn.go] at ih ⊢
    split
    · exact h.failed
    · next e => exact ih _ (h.checkAccess.at (congrArg (fun x => x.toOption.map Prod.snd) e))
    · next u e =>
      have checked : Canonical u := h.checkAccess.at (congrArg (fun x => x.toOption.map Prod.snd) e)
      split
      · exact .none
      · exact .none
      · next v e =>
        have combined : Canonical v := (h₀.combineNext checked).ok e
        split
        · exact .none
        · exact .none
        · next w e =>
          have written : Canonical w := (h₀.alongside combined fun _ h₁ => h₁.agentWrite).ok e
          exact ih _ written.wrote

theorem Canonical.memWrite (h : Canonical s) : Leaves (memWrite s core t bs qs).state? := h.memWriteFrom h

theorem Canonical.touchRun (h : Canonical s) : Canonical (touchRun s core t off n) := h.foldl fun _ _ h₁ => h₁.touchLocal

theorem Canonical.localPut (h : Canonical s) : Canonical (localPut s core t off bs) :=
  h.touchRun.foldl fun _ _ h₁ => h₁.localWrite.wrote

theorem Canonical.readBuffer {f : List Byte → Bool → State → Act} (h : Canonical s) (hf : ∀ a0 a1 t, Canonical t → Leaves
    (f a0 a1 t).state?) :
    Leaves (readBuffer x s p n f).state? := by
  unfold Machine.readBuffer
  split
  · exact .none
  · exact Canonical.fails
  next e =>
  split
  · exact h.breakStop
  · exact hf _ _ _ (h.bufRead.ok e)

theorem Canonical.peekAnswer {st : Nat} (h : Canonical s) : Leaves (peekAnswer x i s d pz p bs st).state? := by
  unfold Machine.peekAnswer
  split
  · exact .none
  · exact Canonical.fails
  next e =>
  split
  · exact h.breakStop
  · exact (h.bufWrite.ok e).sealedEffect fun _ h₁ => h₁.setStatus.noteWrite

theorem Canonical.peekFault (h : Canonical s) : Leaves (peekFault x i s d pz p f).state? := h.peekAnswer

theorem Canonical.itemKey {f : Nat → State → Act} (h : Canonical s) (hf : ∀ a0 t, Canonical t → Leaves (f a0 t).state?) :
    Leaves (itemKey x s p item f).state? :=
  Leaves.ite (hf _ _ h) (h.readBuffer (fun _ _ _ h₁ => Leaves.ite Canonical.fails (hf _ _ h₁)))

theorem Canonical.ctxPeek {k b : BitVec 8} {index : Nat} (h : Canonical s) :
    Leaves (ctxPeek i x s d k b item index).state? := by
  unfold Machine.ctxPeek
  dsimp only
  split
  · exact Canonical.fails
  split
  · exact Canonical.fails
  split
  · exact Canonical.fails
  split
  · refine h.itemKey fun a0₁ t₁ h₁ => Leaves.ite ?_ (Leaves.ite (Leaves.ite h₁.answer ?_) ?_)
    · split
      · exact h₁.peekFault
      next e₄ =>
      split
      · exact .none
      · exact (h₁.memCheck.okState e₄).peekFault
      · next e₅ => exact ((h₁.memCheck.okState e₄).memRead.ok e₅).peekAnswer
    · split
      · exact h₁.peekFault
      · exact h₁.touchRun.peekAnswer
    split
    · exact h₁.answer
    · exact h₁.peekAnswer
  · exact h.answer

theorem Canonical.obsWrite (h : Canonical s) : Leaves (obsWrite s c core p bs).state? := by
  unfold Machine.obsWrite
  dsimp only
  split
  · exact h.failed
  next e =>
  split
  · exact .none
  · exact .none
  next e₁ =>
  split
  · exact .none
  next e₂ =>
  split
  · exact .none
  · exact .none
  next e₃ =>
  refine .some ((Canonical.alongside ?_ (((Canonical.combineFirst ?_).ok e₁).charge.at e₂)
      (fun _ h₁ => h₁.clWrite)).ok e₃).wrote
  · split
    · exact (h.translate.okSnd e).locateEntry
    · exact h.translate.okSnd e
  split
  · exact (h.translate.okSnd e).locateEntry
  · exact h.translate.okSnd e

theorem Canonical.obsFault (h : Canonical s) : Canonical (obsFault s c trace f) := h.updCtx.raiseTo

theorem Canonical.obsHeader {log : Nat} (h : Canonical s) : Leaves (obsHeader s c core trace p log).state? := by
  unfold Machine.obsHeader
  split
  · exact .none
  · exact .some h.obsFault
  · next e => exact .some (h.obsWrite.ok e)

theorem Canonical.setObs {setter : Option Nat} (h : Canonical s) : Canonical (setObs s c setter bs) := h.updCtx

/-- What a poke of an item does keeps the canonical form: it sets a field of the context, or a wave (R282). -/
theorem Canonical.pokeItem {s t : State} {c item index : Nat} {bs : List Byte} {f : State → State}
    (e : pokeItem s c item index bs = .ok f) (h : Canonical t) : Canonical (f t) := by
  unfold Machine.pokeItem at e
  dsimp only at e
  repeat' split at e
  all_goals cases e
  iterate 5
    · exact h.updCtx
  all_goals exact h.setWave

theorem Canonical.ctxPoke {i : Instr} {x : Iss} {s : State} {d k b : BitVec 8} {item index : Nat} (h : Canonical s) :
    Leaves (ctxPoke i x s d k b item index).state? := by
  unfold Machine.ctxPoke
  dsimp only
  split
  · exact .none
  split
  · exact .none
  split
  · exact .none
  split
  · refine h.itemKey fun key t ht => ?_
    split
    · exact ht.answer
    refine ht.readBuffer fun bs pb u hu => ?_
    split
    · exact .none
    split
    · split
      · exact hu.peekFault
      next v e =>
      have checked : Canonical v := hu.memCheck.at (congrArg Except.toOption e)
      split
      · exact .none
      · exact checked.peekFault
      · next w e =>
        exact ((h.alongside checked fun _ h₁ => h₁.memWrite).ok e).answer
    split
    · split
      · exact hu.answer
      split
      · exact hu.peekFault
      · exact hu.localPut.answer
    split
    · split
      · exact hu.answer
      split
      · exact .none
      · exact .none
      next v e =>
      have traced : Canonical v := (h.alongside hu.setObs fun _ h₁ => h₁.obsHeader).ok e
      split
      · exact .none
      · exact .none
      next w e =>
      have sampled : Canonical w := (h.alongside traced fun _ h₁ => h₁.obsHeader).ok e
      exact sampled.sealedEffect fun _ h₁ => h₁.setObs.updCtx.setStatus
    split
    · exact hu.answer
    · next f e => exact hu.sealedEffect fun _ h₁ => (Canonical.pokeItem e h₁).setStatus
  · exact h.answer

end

/-! ### Observe -/

section
variable {s : State} {core c n : Nat}

theorem Canonical.obsAdd {p : Word64} (h : Canonical s) : Leaves (obsAdd s c core p n).state? := by
  unfold Machine.obsAdd
  split
  · exact h.failed
  next e =>
  split
  · exact .none
  · exact .none
  next e₁ =>
  split
  · exact .none
  next e₂ =>
  split
  · exact .none
  · exact .none
  · next e₃ =>
      exact .some (((h.translate.okSnd e).alongside (((h.translate.okSnd e).combineFirst.ok e₁).charge.at e₂)
          (fun _ h₁ => h₁.clUpdate)).ok e₃).wrote

theorem Canonical.obsRecord {buf : Word64} {log size : Nat} {bs : List Byte} (h : Canonical s) :
    Leaves (obsRecord s c core buf log size bs).state? := by
  unfold Machine.obsRecord
  split
  · exact .none
  · exact .none
  · next e => exact h.alongside (h.obsAdd.ok e) fun _ h₁ => h₁.obsWrite

theorem Canonical.flushLost {x : Ctx} (h : Canonical s) : Leaves (flushLost s core c x).state? := by
  unfold Machine.flushLost
  refine Leaves.ite (Leaves.some h) ?_
  dsimp only
  split
  · next e => exact .some (h.obsAdd.ok e).setCore
  · exact .none
  · exact .none

theorem Canonical.popTrace (h : Canonical s) : Canonical (popTrace s core) := h.setCore

theorem Canonical.writeTrace (h : Canonical s) : Canonical (writeTrace s core) := by
  unfold Machine.writeTrace
  dsimp only
  split
  · exact h
  split
  · exact Canonical.ite (Canonical.ite h.setCore h.setCore.popTrace) (Canonical.ite h.setCore h.setCore.popTrace).ensureSoon
  refine Canonical.ite (Canonical.ite (Canonical.ite h.setCore h.setCore.popTrace)
      (Canonical.ite h.setCore h.setCore.popTrace).ensureSoon) ?_
  split
  · exact h.waitTick
  · exact Canonical.ite h.obsFault h.obsFault.ensureSoon
  next e₂ =>
  refine Canonical.ite (Canonical.ite (Leaves.ok ?_ e₂) (Leaves.ok ?_ e₂).popTrace) (Canonical.ite (Leaves.ok ?_ e₂)
      (Leaves.ok ?_ e₂).popTrace).ensureSoon
  · split
    · next e₃ =>
        exact Leaves.ite (Leaves.some (h.flushLost.ok e₃)) (h.alongside (h.flushLost.ok e₃) (fun _ h₁ => h₁.obsRecord))
    · exact h.flushLost
  · split
    · next e₃ =>
        exact Leaves.ite (Leaves.some (h.flushLost.ok e₃)) (h.alongside (h.flushLost.ok e₃) (fun _ h₁ => h₁.obsRecord))
    · exact h.flushLost
  · split
    · next e₃ =>
        exact Leaves.ite (Leaves.some (h.flushLost.ok e₃)) (h.alongside (h.flushLost.ok e₃) (fun _ h₁ => h₁.obsRecord))
    · exact h.flushLost
  split
  · next e₃ =>
      exact Leaves.ite (Leaves.some (h.flushLost.ok e₃)) (h.alongside (h.flushLost.ok e₃) (fun _ h₁ => h₁.obsRecord))
  · exact h.flushLost

theorem Canonical.writeSamples {lp : Nat} (h : Canonical s) : Canonical (writeSamples s core lp n) := by
  induction n generalizing s with
  | zero =>
    unfold Machine.writeSamples
    exact h
  | succ n ih =>
    unfold Machine.writeSamples
    dsimp only
    split
    · exact h
    split
    · exact ih h.setCore
    refine Canonical.ite (ih h.setCore) ?_
    split
    · exact h.waitTick
    · exact ih h.setCore.obsFault
    · next e₂ => exact ih (h.obsRecord.ok e₂).setCore

end

/-! ### Rings -/

section
variable {s : State} {c n serial off action : Nat} {o : Outst} {f : List Byte → List Byte}

theorem Canonical.updOutst {f : Outst → Outst} (h : Canonical s) : Canonical (s.updOutst c serial f) := h.updCtx.update

theorem Canonical.dropOutst (h : Canonical s) : Canonical (s.dropOutst c serial) := h.updCtx.update

theorem Canonical.updRing {f : Ring → Ring} (h : Canonical s) : Canonical (s.updRing c f) := h.updCtx

theorem Canonical.ringWord {size : Nat} (h : Canonical s) : Leaves ((ringWord s c off size).toOption.map (·.2)) := by
  unfold Machine.ringWord
  split
  · exact .none
  · exact h.clCheck

theorem Canonical.ringChange {d : Nat} (h : Canonical s) : Leaves (ringChange s c d n f).state? := by
  unfold Machine.ringChange
  split
  · exact .none
  · exact .none
  next e =>
  split
  · exact .none
  · exact .none
  next e₁ =>
  refine .some (((h.combineFirst.ok e).onCredit (fun t₁ h₁ => ?_)).ok e₁).wrote
  split
  · exact .none
  · next e₂ => exact h.alongside (h₁.charge.at e₂) fun _ h₂ => h₂.clUpdate

theorem Canonical.ringUpdate (h : Canonical s) : Leaves (ringUpdate s c off n f).state? := by
  unfold Machine.ringUpdate
  split
  · exact h.failed
  · next e => exact (h.ringWord.okSnd e).ringChange

theorem Canonical.ringAdd (h : Canonical s) : Leaves (ringAdd s c off n).state? := by
  unfold Machine.ringAdd
  split
  · next e => exact .some (h.ringUpdate.ok e)
  · exact .none
  · exact .none

theorem Canonical.ringRead (h : Canonical s) : Leaves (ringRead s c off).state? := by
  unfold Machine.ringRead
  split
  · exact h.failed
  next e =>
  split
  · exact .none
  · exact .none
  next e₁ =>
  split
  · next e₂ => exact .some (((h.ringWord.okSnd e).combineFirst.ok e₁).clRead.ok e₂)
  · exact .none
  · exact .none

theorem Canonical.writeHeader (h : Canonical s) : Leaves (writeHeader s c).state? := by
  unfold Machine.writeHeader
  split
  · exact .some h
  refine Leaves.ite (Leaves.some h) ?_
  split
  · next e₁ => exact .some (h.ringUpdate.ok e₁).updRing
  · exact .none
  · exact .none

theorem Canonical.markVoids {s₀ : State} (h : Canonical s₀) (hs : Canonical s) : Leaves (markVoids s₀ s c n).state? := by
  induction n generalizing s with
  | zero =>
    unfold Machine.markVoids
    exact .some hs
  | succ n ih =>
    unfold Machine.markVoids
    split
    · exact .some hs
    split
    · next e₁ => exact ih ((h.alongside hs (fun _ h₁ => h₁.ringChange)).ok e₁).updOutst
    · exact .none
    · exact .none

theorem Canonical.writeVoids (h : Canonical s) : Leaves (writeVoids s c n).state? := h.markVoids h

theorem Canonical.writeLost (h : Canonical s) : Leaves (writeLost s c).state? := by
  unfold Machine.writeLost
  refine Leaves.ite (Leaves.some h) ?_
  split
  · next e => exact .some (h.ringAdd.ok e).updRing
  · exact h.ringAdd

theorem Canonical.recordWritten (h : Canonical s) : Canonical (recordWritten s c serial) := by
  unfold Machine.recordWritten
  refine h.foldl fun s₁ a₁ h₁ => Canonical.ite h₁ ?_
  split
  · exact h₁.updWave.commit
  · exact h₁

theorem Canonical.putRecord {r : FaultRec} (h : Canonical s) : Leaves (putRecord s c r).state? := by
  unfold Machine.putRecord
  dsimp only
  split
  · exact h.failed
  next e =>
  split
  · exact .none
  · exact .none
  next e₁ =>
  split
  · next e₂ =>
      refine .some ?_
      split
      · exact Canonical.ite (((h.ringWord.okSnd e).alongside ((h.ringWord.okSnd e).ringChange.ok e₁)
          (fun _ h₁ => h₁.ringAdd)).ok e₂).updRing.updOutst.recordWritten.soon (((h.ringWord.okSnd e).alongside
          ((h.ringWord.okSnd e).ringChange.ok e₁) (fun _ h₁ => h₁.ringAdd)).ok e₂).updRing.updOutst.recordWritten
      · exact (((h.ringWord.okSnd e).alongside ((h.ringWord.okSnd e).ringChange.ok e₁)
          (fun _ h₁ => h₁.ringAdd)).ok e₂).updRing.updOutst.recordWritten
  · exact (h.ringWord.okSnd e).alongside ((h.ringWord.okSnd e).ringChange.ok e₁) fun _ h₁ => h₁.ringAdd

theorem Canonical.countWaits (h : Canonical s) : Leaves (countWaits s c).state? := by
  unfold Machine.countWaits
  refine Leaves.ite (Leaves.some h) ?_
  split
  · next e => exact .some (h.ringAdd.ok e).updRing
  · exact h.ringAdd

theorem Canonical.writeHeld (h : Canonical s) : Leaves (writeHeld s c n).state? := by
  induction n generalizing s with
  | zero =>
    unfold Machine.writeHeld
    exact .some h
  | succ n ih =>
    unfold Machine.writeHeld
    dsimp only
    split
    · exact .some h
    split
    · exact .none
    · exact .none
    next e₁ =>
    split
    · exact .none
    · exact .none
    next e₂ =>
    split
    · split
      · split
        · next e₄ =>
            exact .some ((h.alongside ((h.alongside (h.ringRead.ok e₁) (fun _ h₁ => h₁.ringRead)).ok e₂)
                (fun _ h₁ => h₁.countWaits)).ok e₄)
        · exact .none
        · exact .none
      split
      · next e₄ =>
          exact ih ((h.alongside ((h.alongside (h.ringRead.ok e₁) (fun _ h₁ => h₁.ringRead)).ok e₂)
              (fun _ h₁ => h₁.putRecord)).ok e₄)
      · exact .none
      · exact .none
    split
    · split
      · next e₄ =>
          exact .some ((h.alongside ((h.alongside (h.ringRead.ok e₁) (fun _ h₁ => h₁.ringRead)).ok e₂)
              (fun _ h₁ => h₁.countWaits)).ok e₄)
      · exact .none
      · exact .none
    split
    · next e₄ =>
        exact ih ((h.alongside ((h.alongside (h.ringRead.ok e₁) (fun _ h₁ => h₁.ringRead)).ok e₂)
            (fun _ h₁ => h₁.putRecord)).ok e₄)
    · exact .none
    · exact .none

theorem Canonical.reportRing {f : Fail} (h : Canonical s) : Canonical (reportRing s c f) :=
  (Canonical.ite h h.raiseTo.updRing).ensureTicks

theorem Canonical.serveRing (h : Canonical s) : Canonical (serveRing s c) := by
  unfold Machine.serveRing
  refine Canonical.ite h.ensureTicks ?_
  split
  · exact h.waitTick
  · exact Canonical.ite h.ensureTicks h.reportRing
  next e =>
  split
  · exact (h.writeHeader.ok e).waitTick
  · exact (h.writeHeader.ok e).reportRing
  next e₁ =>
  split
  · exact ((h.writeHeader.ok e).writeVoids.ok e₁).waitTick
  · exact ((h.writeHeader.ok e).writeVoids.ok e₁).reportRing
  next e₂ =>
  split
  · exact (((h.writeHeader.ok e).writeVoids.ok e₁).writeLost.ok e₂).waitTick
  · exact (((h.writeHeader.ok e).writeVoids.ok e₁).writeLost.ok e₂).reportRing
  · next e₃ => exact ((((h.writeHeader.ok e).writeVoids.ok e₁).writeLost.ok e₂).writeHeld.ok e₃).ensureTicks
  · next e₃ =>
      exact Canonical.ite ((((h.writeHeader.ok e).writeVoids.ok e₁).writeLost.ok e₂).writeHeld.ok e₃)
          ((((h.writeHeader.ok e).writeVoids.ok e₁).writeLost.ok e₂).writeHeld.ok e₃).ensureSoon

theorem Canonical.serveGone (h : Canonical s) : Canonical (serveGone s c) := by
  unfold Machine.serveGone
  split
  · next e => exact h.writeVoids.ok e
  · exact h.waitTick
  · exact h

theorem Canonical.execRingRecordWrite {ctx : Nat} (h : Canonical s) : Leaves (nextState (execRingRecordWrite ctx s)) :=
  Leaves.ite (Leaves.some h.serveGone.settleHits) (Leaves.ite (Leaves.some h) (Leaves.some h.serveRing.settleHits))

theorem Canonical.replyPath (h : Canonical s) : Canonical (replyPath s c o action) := by
  unfold Machine.replyPath
  split
  · split
    · exact Canonical.ite h.applyAction h
    · exact h
  · exact h

theorem Canonical.closeOutst (h : Canonical s) : Canonical (closeOutst s c o) := Canonical.ite h.updOutst h.dropOutst

theorem Canonical.writeDone (h : Canonical s) : Canonical (writeDone s c o action) := by
  unfold Machine.writeDone
  split
  · exact Canonical.ite h.closeOutst h
  split
  · exact h.waitTick
  · exact h
  · next e₁ => exact (h.ringChange.ok e₁).closeOutst

theorem Canonical.replyTo (h : Canonical s) : Canonical (replyTo s c serial action) := by
  unfold Machine.replyTo
  dsimp only
  split
  · exact h
  refine Canonical.ite h (Canonical.ite h.writeDone ?_)
  split
  · exact (Canonical.ite h.updOutst.replyPath.lateLaunches.updRing.update.ensureSoon
      h.updOutst.replyPath.lateLaunches).writeDone
  · exact Canonical.ite h.updOutst.replyPath.lateLaunches.updRing.update.ensureSoon h.updOutst.replyPath.lateLaunches

end

/-! ### Slices -/

section
variable {s : State} {root core c : Nat} {self : Instr} {u : Unit4} {cores : List Nat} {fin : State → State} {spare : Bool}
  {g : RootCfg}

theorem Canonical.periodic (h : Canonical s) : Canonical (periodic s root) := by
  unfold Machine.periodic
  dsimp only
  split
  · exact Canonical.ite h.setPart (Canonical.ite h.checkpointOf.ensureTicks
      (Canonical.ite h.pausePart h.pausePart.afterTicks))
  · exact h

theorem Canonical.dropSteps {ok : Instr → Bool} (h : Canonical s) : Canonical (dropSteps s ok) := h.update

theorem Canonical.haltPart {p : Partition} (h : Canonical s) : Canonical (haltPart s root p) := by
  unfold Machine.haltPart
  dsimp only
  split
  · exact ((((h.dropSteps.foldl (fun _ _ h₁ => h₁.voidRecords)).foldl (fun _ _ h₁ => h₁.eachWave
      (fun _ _ h₂ => h₂.removeWave))).update.foldl (fun _ _ h₁ => h₁.foldl (fun _ _ h₂ => h₂.clearWork))).foldl
      (fun _ _ h₁ => h₁.updCtx)).setPart
  · exact (((h.dropSteps.foldl (fun _ _ h₁ => h₁.voidRecords)).foldl (fun _ _ h₁ => h₁.eachWave
      (fun _ _ h₂ => h₂.removeWave))).update.foldl (fun _ _ h₁ => h₁.foldl (fun _ _ h₂ => h₂.clearWork))).foldl
      (fun _ _ h₁ => h₁.updCtx)

theorem Canonical.replayLine {s : State} {g : LogLine} (h : Canonical s) : Leaves (replayLine s g).state? := by
  unfold Machine.replayLine
  split
  · exact .some (Canonical.setLine ⟨h.home, Memory.wf_writeN _ _ h.frames⟩)
  · split
    · next e => exact .some (h.clUpdate.ok e).setHomePoison
    · exact .none
    · exact .none

theorem Canonical.replayNow {n : Nat} {n1 : Nat} (h : Canonical s) : Canonical (replayNow n s n1).1 := by
  induction n generalizing s n1 with
  | zero =>
    unfold Machine.replayNow
    exact h
  | succ n ih =>
    unfold Machine.replayNow
    split
    · exact h
    split
    · exact h
    split
    · exact h
    · exact ih h.setPart
    next e₂ =>
    split
    · exact ih (h.replayLine.ok e₂).setPart
    · exact h.replayLine.ok e₂

theorem Canonical.rollPart (h : Canonical s) : Canonical (rollPart s root self).1 := by
  unfold Machine.rollPart
  dsimp only
  split
  · exact h
  split
  · exact h.pausePart.ensureTicks
  split
  · next e₁ => exact ((Canonical.ite h h.haltPart).replayNow.ofFst e₁).waitTick
  · next e₁ => exact (Canonical.ite h h.haltPart).replayNow.ofFst e₁

theorem Canonical.putLocals {s : State} {cells : List Host.Cell} {bad : List Nat} (h : Canonical s) :
    Canonical (putLocals s cells bad) := by
  refine Canonical.foldl (Canonical.foldl h fun t x h₁ => ?_) fun _ _ h₁ => h₁.setLine
  exact ⟨h₁.home, Memory.wf_write _ x.2 h₁.frames⟩

theorem Canonical.carveAll (h : Canonical s) : Canonical (carveAll s root) :=
  h.foldl fun _ _ h₁ => h₁.foldl (fun _ _ h₂ => h₂.carveOut)

theorem Canonical.carvesRoom {s : State} {root : Nat} (h : Canonical s) : Canonical (carvesRoom s root).1 := by
  refine Canonical.foldl_fst h fun x _ h₁ => ?_
  split
  · exact h₁.carveRoom
  · exact h₁

theorem Canonical.setCounters {ls : List (Nat × LanePair)} (h : Canonical s) : Canonical (setCounters s cores ls) :=
  h.foldl fun _ _ h₁ => h₁.setLp

theorem Canonical.clearMatrix (h : Canonical s) : Canonical (clearMatrix s cores) := h.update

theorem Canonical.evictAll {cs : List Nat} (h : Canonical s) : Canonical (evictAll s cs) := h.foldl fun _ _ h₁ => h₁.evict

theorem Canonical.freePart (h : Canonical s) : Canonical (freePart s root) := by
  unfold Machine.freePart
  dsimp only
  split
  · exact ((h.dropTlb.evictAll.foldl (fun _ _ h₁ => h₁.foldl (fun _ _ h₂ => h₂.dropCarve))).clearMatrix.foldl
      (fun _ _ h₁ => h₁.setCore)).setCounters.setPart
  · exact ((h.dropTlb.evictAll.foldl (fun _ _ h₁ => h₁.foldl (fun _ _ h₂ => h₂.dropCarve))).clearMatrix.foldl
      (fun _ _ h₁ => h₁.setCore)).setCounters

theorem Canonical.endSlice (h : Canonical s) : Canonical (endSlice s root self) := by
  unfold Machine.endSlice
  split
  · refine Canonical.ite h ?_
    split
    · next e₁ => exact h.rollPart.ofFst e₁
    · next e₁ => exact Canonical.ite (h.rollPart.ofFst e₁).freePart (h.rollPart.ofFst e₁).ensureTicks
  · exact h

theorem Canonical.raiseTime (h : Canonical s) : Canonical (raiseTime s c) :=
  Canonical.ite h (h.evictAll.updCtx.foldl (fun _ _ h₁ => h₁.setCore))

theorem Canonical.actDone (h : Canonical s) : Canonical (actDone s c) := by
  unfold Machine.actDone
  split
  · exact h
  · exact h.foldl fun _ _ h₁ => h₁.replyPath

theorem Canonical.wakePart {p : Snapshot} (h : Canonical s) : Canonical (wakePart s root p) := by
  unfold Machine.wakePart
  dsimp only
  split
  · exact ((((((h.foldl (fun _ _ h₁ => h₁.updCtx)).foldl (fun _ _ h₁ => Canonical.ite h₁.setCore h₁)).update.foldl
      (fun _ _ h₁ => h₁.setWave)).update.foldl (fun _ _ h₁ => h₁.raiseTime)).foldl (fun _ _ h₁ => h₁.ensureSoon)).foldl
      (fun _ _ h₁ => h₁.actDone)).setPart.ensureTicks
  · exact (((((h.foldl (fun _ _ h₁ => h₁.updCtx)).foldl (fun _ _ h₁ => Canonical.ite h₁.setCore h₁)).update.foldl
      (fun _ _ h₁ => h₁.setWave)).update.foldl (fun _ _ h₁ => h₁.raiseTime)).foldl (fun _ _ h₁ => h₁.ensureSoon)).foldl
      (fun _ _ h₁ => h₁.actDone)

theorem Canonical.moveLocals {s : State} {o : Nat} {to_ : List Move} (h : Canonical s) : Canonical (moveLocals s o to_) :=
  h.foldl fun _ _ h₁ => Canonical.putLocals ⟨h₁.home, h₁.frames.filter _⟩

theorem Canonical.emptyBank {keep gone : Nat → Bool} (h : Canonical s) : Canonical (emptyBank s core keep gone) := by
  unfold Machine.emptyBank
  refine ((h.foldl (fun s₁ a₁ h₁ => ?_)).foldl (fun _ _ h₁ => h₁.dropCarve)).setCore
  dsimp only
  split
  · exact h₁.dropReplica
  · exact h₁.evict
  · exact h₁.endForwarding
  · exact h₁

theorem Canonical.goOnWithout (h : Canonical s) (hfin : ∀ t, Canonical t → Canonical (fin t)) :
    Canonical (goOnWithout s root core fin) := by
  unfold Machine.goOnWithout
  dsimp only
  split
  · exact hfin _ h
  split
  · exact hfin _ h.freePart
  · exact (hfin _ h.moveLocals.setPart).wakePart.carveAll

theorem Canonical.leaveCore (h : Canonical s) (hfin : ∀ t, Canonical t → Canonical (fin t)) :
    Canonical (leaveCore s root core self fin) := by
  unfold Machine.leaveCore
  dsimp only
  split
  · refine Canonical.ite (Canonical.ite h.setCore.ensureTicks (hfin _ (Canonical.setCore ?_))) ?_
    · split
      · exact h.setCore.setPart
      · exact h.setCore
    split
    · next e₁ => exact h.setCore.rollPart.ofFst e₁
    · next e₁ =>
        exact Canonical.ite ((h.setCore.rollPart.ofFst e₁).goOnWithout (fun _ h₁ => hfin _ h₁.setCore))
            (h.setCore.rollPart.ofFst e₁).ensureTicks
  · exact Canonical.ite (hfin _ h.setCore.setCore) h.setCore.ensureTicks

theorem Canonical.firstRun (h : Canonical s) : Canonical (firstRun s root) := (h.foldl (fun _ _ h₁ => h₁.runCtx)).periodic

theorem Canonical.startSlice (h : Canonical s) : Canonical (startSlice s root) := by
  unfold Machine.startSlice
  dsimp only
  split
  · refine Canonical.ite h.firstRun (Canonical.ite h ?_)
    split
    · exact h
    · next e₁ => exact (h.carvesRoom.ofFst e₁).ensureTicks
    · next e₁ => exact (h.carvesRoom.ofFst e₁).carveAll.putLocals.setCounters.wakePart
  · exact h

theorem Canonical.lend {borrower : Nat} (h : Canonical s) : Canonical (lend s core borrower) := by
  unfold Machine.lend
  dsimp only
  split
  · exact h
  refine Canonical.ite h.setCore (Canonical.ite (Canonical.ite h.setCore h.setCore.askCheckpoint).setCore.ensureTicks
      (Canonical.carveOut ?_).ensureSoon)
  split
  · refine Canonical.setPart ?_
    split
    · exact (Canonical.ite h.setCore h.setCore.checkpointOf).emptyBank.clearMatrix.setCore.setCounters.setPart
    · exact (Canonical.ite h.setCore h.setCore.checkpointOf).emptyBank.clearMatrix.setCore.setCounters
  split
  · exact (Canonical.ite h.setCore h.setCore.checkpointOf).emptyBank.clearMatrix.setCore.setCounters.setPart
  · exact (Canonical.ite h.setCore h.setCore.checkpointOf).emptyBank.clearMatrix.setCore.setCounters

theorem Canonical.returnUnit {s : State} {core borrower owner : Nat} (h : Canonical s) :
    Canonical (returnUnit s core borrower owner) := by
  unfold Machine.returnUnit
  extract_lets mine theirs emptied cleared unlent
  have hunlent : Canonical unlent := by
    unfold unlent
    split
    · exact h.emptyBank.clearMatrix.setCore.setPart
    · exact h.emptyBank.clearMatrix.setCore
  clear_value unlent
  split
  · exact hunlent
  · exact .ite hunlent.setCounters.setPart hunlent.setCounters.setPart.carveAll.ensureSoon

theorem Canonical.reclaimUnit (h : Canonical s) : Canonical (reclaimUnit s core) := by
  unfold Machine.reclaimUnit
  dsimp only
  split
  · exact h
  · exact h.leaveCore fun _ h₁ => h₁.returnUnit

theorem Canonical.coreDrained (h : Canonical s) : Canonical (coreDrained s core spare) := by
  unfold Machine.coreDrained
  refine Canonical.ite ?_ h.emptyBank.clearMatrix.setCore
  dsimp only
  split
  · exact Canonical.ite h.emptyBank.clearMatrix.setCore.setCore h.emptyBank.clearMatrix.setCore.setCore.carveAll.ensureSoon
  · exact h.emptyBank.clearMatrix.setCore.setCore

theorem Canonical.drainCore (h : Canonical s) : Canonical (drainCore s core self spare) := by
  unfold Machine.drainCore
  dsimp only
  split
  · exact Canonical.ite h.setCore.coreDrained h.setCore.ensureTicks
  · exact h.setCore.leaveCore fun _ h₁ => h₁.coreDrained

theorem Canonical.drainTower {die : Nat} (h : Canonical s) : Canonical (drainTower s die) := by
  unfold Machine.drainTower
  refine Canonical.ite h ?_
  dsimp only
  split
  · exact h.drainCore.ensureTicks
  · exact h.update

theorem Canonical.bankGone (h : Canonical s) : Canonical (bankGone s core) := h.emptyBank.setCore

theorem Canonical.bankOff (h : Canonical s) : Canonical (bankOff s core self) := by
  unfold Machine.bankOff
  refine Canonical.ite h ?_
  dsimp only
  split
  · exact Canonical.ite h.bankGone h.setCore.ensureTicks
  split
  · exact Canonical.ite h.bankGone h.setCore.ensureTicks
  · exact Canonical.ite (Canonical.ite h.bankGone h.setCore.ensureTicks) (Canonical.ite
      (Canonical.ite h.setCore.setPart h) (h.leaveCore (fun _ h₁ => h₁.bankGone)))

theorem Canonical.unitOff (h : Canonical s) : Canonical (unitOff s u self) := by
  unfold Machine.unitOff
  dsimp only
  split
  · exact h.bankOff
  · exact Canonical.ite h.setCore h
  · exact Canonical.ite h.setCore h
  · exact h
  · exact h

theorem Canonical.bankUp {s : State} {core : Nat} (h : Canonical s) : Canonical (bankUp s core) := by
  unfold Machine.bankUp
  split
  · exact h
  extract_lets cleared emptied on
  have hcleared : Canonical cleared := h.foldl fun _ _ h₁ => h₁.clearTargets
  clear_value cleared
  have hemptied : Canonical emptied := ⟨hcleared.home, hcleared.frames.filter _⟩
  exact hemptied.setCore.foldl fun _ _ h₁ => h₁.carveAll.ensureSoon

theorem Canonical.unitOn (h : Canonical s) : Canonical (unitOn s u) := by
  unfold Machine.unitOn
  dsimp only
  split
  · exact h.bankUp
  · exact Canonical.ite h.setCore h
  · exact Canonical.ite h.setCore h
  · exact h
  · exact h

theorem Canonical.drainUnit (h : Canonical s) : Canonical (drainUnit s u) := by
  unfold Machine.drainUnit
  split
  · exact Canonical.ite h h.drainCore
  · exact h.drainTower
  · exact h.unitOff
  · exact h.unitOff
  · exact h.unitOff

theorem Canonical.keepObs (h : Canonical s) : Canonical (keepObs s root) := by
  unfold Machine.keepObs
  dsimp only
  split
  · exact h.setPart
  · exact h

theorem Canonical.rootObs (h : Canonical s) : Canonical (rootObs s g) := by
  unfold Machine.rootObs
  refine Canonical.ite h ?_
  dsimp only
  split
  · exact h.waitTick
  · exact h.setObs.keepObs
  next e =>
  split
  · exact h.waitTick
  · exact (h.setObs.obsHeader.ok e).keepObs
  · next e₁ => exact ((h.alongside (h.setObs.obsHeader.ok e) (fun _ h₁ => h₁.obsHeader)).ok e₁).keepObs

theorem Canonical.configureRoot (h : Canonical s) : Canonical (configureRoot s g) := by
  unfold Machine.configureRoot
  refine Canonical.ite h.rootObs (Canonical.ite h ?_)
  dsimp only
  split
  · next e => exact (h.carveRoom.ofFst e).ensureTicks
  · next e => exact (h.carveRoom.ofFst e).makeCtx.updCtx.update.rootObs.setPart

end

/-! ### Power -/

section
variable {s : State}

theorem Canonical.placeSpares {towers : BitVec 8} {failed : List Nat} (h : Canonical s) :
    Canonical (placeSpares s towers failed) :=
  h.foldl fun _ _ h₁ => Canonical.ite h₁ ((h₁.foldl (fun _ _ h₂ => h₂.setCore)).foldl (fun _ _ h₂ => h₂.setCore))

theorem Canonical.boot {b : BootIn} (h : Canonical s) : Canonical (boot s b) := by
  unfold Machine.boot
  refine Canonical.ite h ?_
  dsimp only
  split
  · exact h.update
  · exact Canonical.ite h.update (Canonical.ite h.placeSpares.update h.placeSpares.update)

theorem Canonical.powerOff {s : State} (h : Canonical s) : Canonical (powerOff s) :=
  ⟨h.home.filter _, .nil, fun _ hc => nomatch hc⟩

theorem Canonical.endSlices {self : Instr} {n : Nat} (h : Canonical s) : Canonical (endSlices s self n).1 := by
  induction n generalizing s with
  | zero =>
    unfold Machine.endSlices
    exact h
  | succ n ih =>
    unfold Machine.endSlices
    dsimp only
    split
    · exact h
    split
    · split
      · exact ih h.endSlice
      · exact h.endSlice
    split
    · exact ih h.endSlice
    · exact h.endSlice

theorem Canonical.preservePages {l : List (Nat × Nat)} (h : Canonical s) : Canonical (preservePages l s).1 := by
  induction l generalizing s with
  | nil =>
    unfold Machine.preservePages
    exact h
  | cons a l ih =>
    unfold Machine.preservePages
    dsimp only
    split
    · exact ih (Canonical.ite h h.openDual)
    split
    · exact Canonical.ite h h.openDual
    · exact ih (Canonical.ite h h.openDual)
    · next e₁ => exact ih ((Canonical.ite h h.openDual).movePage.ok e₁).update

theorem Canonical.orderlyOff {pages : List (Nat × Nat)} (h : Canonical s) : Canonical (orderlyOff s pages) := by
  unfold Machine.orderlyOff
  split
  · next e => exact h.endSlices.ofFst e
  next e =>
  split
  · next e₁ => exact ((h.endSlices.ofFst e).evictAll.preservePages.ofFst e₁).powerOff
  · next e₁ => exact ((h.endSlices.ofFst e).evictAll.preservePages.ofFst e₁).waitTick

end

/-! ### Every instruction and event, and the step -/

theorem Canonical.exec {s : State} {i : Instr} (h : Canonical s) : Leaves (nextState (exec i s)) := by
  unfold Machine.exec
  cases i with
  | iadd | isub | imul | ineg | iabs => exact h.intTyped
  | imulh | imad | imin | imax | band | bor | bxor | bandn | bnot | shl | shr | sar | bfx | bfi | popc | clz | ctz | brev |
  permb =>
    exact h.int32
  | imadw | icmp | sel | mov | movi | lea | p2v | v2p => exact h.compute
  | iaddw | isubw => exact h.int64
  | shlw | shrw => exact h.shift64
  | fadd | fsub | fmul | ffma | fmin | fmax | fclass | frcp | frsq | fsqrt | fexp2 | flog2 | fsin | fcos | frnd | badd2 |
  bmul2 | bfma2 | hfma2 | fcvt | fcvtx | i2f | f2i =>
    exact h.flt32
  | fcmp | fcvtp => exact h.computeLater
  | pand | por | pxor | pnot | pmov => exact h.pred2
  | split => exact h.execSplit
  | fuse => exact h.execFuse
  | vote | shfl | wred | wscan | bcast => exact h.crossOp
  | grow => exact h.execGrow
  | shrink => exact h.issue fun _ _ h₁ => Leaves.ite (Leaves.some h₁) (Leaves.some h₁.updWave)
  | bra => exact h.execBra
  | brx => exact h.execBrx
  | call => exact h.execCall
  | callx => exact h.execCallx
  | ret => exact h.execRet
  | exit | meet => exact h.issue fun _ _ h₁ => .some h₁.putWave
  | yield => exact h.issue fun _ _ h₁ => .some (Canonical.ite h₁.putWave h₁.putWave.after)
  | nop => exact h.issue fun _ _ h₁ => .some h₁
  | rep => exact h.execRep
  | pfc => exact h.issue fun _ _ h₁ => .some h₁.prefetchLines
  | mark => exact h.issue fun _ _ h₁ => Leaves.ite (Leaves.some h₁) (Leaves.some h₁.setCore.ensureSoon)
  | bkpt => exact h.issueSealed fun _ _ h₁ => Leaves.ite (Leaves.some h₁) (Leaves.some h₁)
  | trap | fence => exact h.issueSealed fun _ _ h₁ => .some h₁
  | tretRetry | tretSkip => exact h.issue fun _ _ h₁ => h₁.trapReturn
  | srd | lease => exact h.issue fun _ _ h₁ => .some h₁.updWave
  | swr => exact h.execSwr
  | ld | st | ldl | stl | atom | cas | prf | cadd | crflush | binit | barv | bdrop | btest =>
    exact h.issue fun _ _ h₁ => h₁.issueAccess
  | crange => exact h.execCrange
  | tnew => exact h.execTnew
  | tjoin => exact h.execTjoin
  | tleave => exact h.issue fun _ _ h₁ => .some h₁.leaveTeam
  | bwait | waitge => exact h.issue fun _ _ h₁ => h₁.issuePoll
  | copy | copyr | copym => exact h.issueSealed fun _ _ h₁ => h₁.contribute
  | cntadd => exact h.execCntadd
  | vqput => exact h.issueSealed fun _ _ h₁ => h₁.putRequest
  | launch => exact h.execLaunch
  | tcfg => exact h.execTcfg
  | tld | tst => exact h.issue fun _ _ h₁ => h₁.moveTile
  | tzero => exact h.execTzero
  | azero | azeroRel => exact h.issue fun _ _ h₁ => h₁.zeroAcc
  | mmaF | mmaX | mmaI8 | mmaBp => exact h.issue fun _ _ h₁ => h₁.issueMma
  | tdrain => exact h.execTdrain
  | ctxnew => exact h.execCtxnew
  | ctxgrant => exact h.execCtxgrant
  | ctxrevoke => exact h.execCtxrevoke
  | ctxrun => exact h.execCtxrun
  | ctxstop => exact h.execCtxstop
  | ctxpeek => exact h.issueSealed fun _ _ h₁ => h₁.ctxPeek
  | ctxpoke => exact h.issueSealed fun _ _ h₁ => h₁.ctxPoke
  | ctxkill => exact h.execCtxkill
  | tlbinvPage => exact h.execTlbinvPage
  | tlbinvCtx => exact h.execTlbinvCtx
  | tlbinvChild => exact h.execTlbinvChild
  | qosset => exact h.execQosset
  | tramp | trampret => exact h.issue fun _ _ h₁ => h₁.trampoline
  | accessPerformed => exact .some h.performAccess
  | pinGrant => exact .some h.grantPin
  | pinGrantTimeout => exact h.execPinGrantTimeout
  | pinTimeout => exact Leaves.ite (Leaves.some (Canonical.ite h.rollback h).unpin) (Leaves.some h)
  | ptsTick => exact .some h.tickPts
  | lasttouchSweep | timestampSweep | bucketRefill | throttleStep | hostLinkTrained => exact .some h.update
  | monarchInterval => exact .some h.monarchAll
  | forwardingEnd => exact .some h.endForwarding
  | locate => exact .some h.locateEntry.settleHits
  | fill => exact h.execFill
  | eviction => exact h.execEviction
  | frameArrival => exact .some h.frameArrives.settleHits
  | atlasHoldExpiry => exact .some h.setDie
  | wrapNotice => exact .some h.clearTargets
  | pageWalk => exact .some h.endWalk.settleHits
  | tlbinvComplete => exact .some h.tlbinvDone.settleHits
  | homeRead => exact h.execHomeRead
  | homeReadForOwnership => exact h.execHomeReadForOwnership
  | homeUpgrade => exact h.execHomeUpgrade
  | writeBack => exact h.execWriteBack
  | cleanEvictionNotice => exact h.execCleanEvictionNotice
  | forwardedRead => exact .some h.forwardRead
  | forwardedReadForOwnership => exact h.execForwardedReadForOwnership
  | invalidation => exact h.execInvalidation
  | holderRegistration => exact h.execHolderRegistration
  | backInvalidation => exact h.execBackInvalidation
  | streamedAccess => exact .some h.performAccess.settleHits
  | clocklessWaitDone => exact .some h.waitDone
  | combine => exact .some h.combineStep.settleHits
  | memrd | memwr | meminv => exact .some h.hostArrives
  | snpdata => exact h.execSnpdata
  | snpinv => exact h.execSnpinv
  | snpcur => exact h.execSnpcur
  | hostUnsupportedRequest => exact Leaves.ite (Leaves.some h.unsupported) (Leaves.some h)
  | copyStart => exact .some h.startCopy.settleHits
  | copyStop => exact .some h.stopCopy.settleHits
  | copyComplete => exact .some h.completeCopy.settleHits
  | arrayOperationComplete => exact .some h.arrComplete
  | gather => exact .some (h.engineRun (fun _ _ _ h₁ => h₁.gatherStep)).settleHits
  | bilerp => exact .some (h.engineRun (fun _ _ _ h₁ => h₁.bilerpStep)).settleHits
  | search => exact .some (h.engineRun (fun _ _ _ h₁ => h₁.searchStep)).settleHits
  | engineRequestComplete => exact .some h.completeRequest.settleHits
  | waitCounterPoll => exact .some h.pollWait.settleHits
  | waitCounterRetry => exact h.execWaitCounterRetry
  | dispatchPlacement => exact .some h.dispatch
  | headAging => exact h.execHeadAging
  | gridClose => exact h.execGridClose
  | waveFree => exact .some h.freeWave.settleHits
  | pathUrgent | yieldExpiry => exact .some h.updWave
  | fetchBlockArrival => exact .some h.fetchArrive.settleHits
  | growGrant => exact .some h.grantGrow
  | spill => exact h.execSpill
  | restore => exact .some h.restoreWave
  | fuseTimeout => exact .some h.fuseExpire
  | pollRecheck => exact .some h.recheckPoll.settleHits
  | ringRecordWrite => exact h.execRingRecordWrite
  | ringReply => exact Leaves.ite (Leaves.some h.replyTo.settleHits) (Leaves.some h)
  | ringWriteRetry => exact Leaves.ite (Leaves.some h) (Leaves.some h.serveRing.settleHits)
  | localUe => exact .some h.localError.settleHits
  | registerUe => exact .some h.tagSite
  | checkpoint => exact .some h.periodic.settleHits
  | sliceEnd => exact .some h.endSlice.settleHits
  | sliceStart => exact .some h.startSlice.settleHits
  | lendUnit => exact .some h.lend.settleHits
  | reclaim => exact .some h.reclaimUnit.settleHits
  | rootConfiguration => exact .some h.configureRoot
  | bankPowerOff => exact .some h.unitOff.settleHits
  | bankPowerOn => exact .some h.unitOn.settleHits
  | unitDrain => exact .some h.drainUnit.settleHits
  | homeFailureRecovery => exact .some h.failDie.settleHits
  | homelostClear => exact .some h.clearLost
  | dualHomeOpen => exact .some h.openDual
  | switch => exact .some h.switchPage.settleHits
  | sample => exact .some h.writeSamples.settleHits
  | ctxstopComplete => exact .some h.stopDone.settleHits
  | ctxkillComplete => exact .some h.killDone.settleHits
  | ctxrevokeComplete => exact .some h.revokeDone.settleHits
  | hostLinkReset => exact .some h.resetHost.settleHits
  | bar0Write => exact Leaves.ite (Leaves.some h) (Leaves.some h.update)
  | attestationRequest => exact Leaves.ite (Leaves.some h) (Leaves.ite (Leaves.some h.ensureTicks) (Leaves.some h.update))
  | flitCrcRetry => exact Leaves.ite (Leaves.some h) (Leaves.ite (Leaves.some h.update) (Leaves.some h.downPort))
  | deviceUnreachable => exact .some h.loseDevice.settleHits
  | memoryDeviceLoss => exact .some h.loseParts.settleHits
  | poisonResponse => exact .some h.setHomePoison
  | modulePowerOn => exact .some h.boot
  | thermalPowerOff | modulePowerLoss => exact .some h.powerOff
  | orderlyPowerOff => exact .some h.orderlyOff
  | notAnInstruction => exact h.execNotAnInstruction
  | resultWritten => exact .some h.resultLands
  | traceRecordWrite => exact .some h.writeTrace.settleHits
  | lanePairCycle => exact .some h.cycleOf
  | purgeComplete => exact .some h.purgePage
  | bisnpResponse => exact Leaves.ite (Leaves.some h.dropDev.raiseHome) (Leaves.some h)

/-! ### Step -/

section
variable {s : State}

theorem Canonical.runLane {lp : Nat} {l : List Cand} (h : Canonical s) : Leaves (nextState (runLane lp l s)) := by
  induction l generalizing s with
  | nil =>
    unfold Machine.runLane
    exact .some h.laneEnd
  | cons a l ih =>
    unfold Machine.runLane
    dsimp only
    split
    · next e =>
        exact Leaves.ite (Leaves.some (h.update.exec.at (congrArg nextState e)).laneEnd) (ih (h.update.exec.at
            (congrArg nextState e)))
    · exact .none
    · exact .none

theorem Canonical.step (h : Canonical s) : Leaves (nextState (step s)) := by
  unfold Machine.step
  dsimp only
  split
  · exact h.update.exec
  split
  · exact h.update.laneBegin.runLane
  · exact h.exec

end

/-- Settles O60: every step leaves the canonical form, from what every operation leaves. -/
theorem memoryStaysCanonical : Obligations.MemoryStaysCanonical := by
  intro s t h e
  have k : Canonical t := (Canonical.step ⟨h.1, h.2⟩).at (congrArg nextState e)
  exact ⟨k.home, k.frames⟩

end Sys2Proof.Machine

/-!
PROOF. Grants (O41): what the pieces of a declared range cover, and what a cut leaves of it.
-/

namespace Sys2Proof.Machine

open Claim

/-- The piece of a declared range that a range of its parent backs is where the two meet. -/
theorem mem_piecesOf {parent : List Range} {cg pg len : Nat} {p : BitVec 3} {r : Range} :
    r ∈ piecesOf parent cg pg len p ↔ ∃ q ∈ parent, max pg q.gbase < min (pg + len) (q.gbase + q.len) ∧
      r = ⟨cg + (max pg q.gbase - pg), min (pg + len) (q.gbase + q.len) - max pg q.gbase,
        q.dbase + (max pg q.gbase - q.gbase), p⟩ := by
  simp only [piecesOf, List.mem_filterMap]
  refine exists_congr fun q => and_congr_right fun _ => ?_
  split
  · next h => simp [h, eq_comm]
  · next h => simp [h]

theorem piecesOf_perm {parent : List Range} {cg pg len : Nat} {p : BitVec 3} {r : Range}
    (h : r ∈ piecesOf parent cg pg len p) : r.perm = p := by
  obtain ⟨q, -, -, rfl⟩ := mem_piecesOf.1 h
  rfl

/-- The pieces cover an address where the parent covers the one it is declared over, at the parent's device address. -/
theorem piecesOf_covers (parent : List Range) (cg pg len a dev : Nat) (p : BitVec 3) :
    (∃ r ∈ piecesOf parent cg pg len p, r.gbase ≤ a ∧ a < r.gbase + r.len ∧ dev = r.dbase + (a - r.gbase)) ↔
      cg ≤ a ∧ a < cg + len ∧ ∃ q ∈ parent, q.gbase ≤ pg + (a - cg) ∧ pg + (a - cg) < q.gbase + q.len ∧
        dev = q.dbase + (pg + (a - cg) - q.gbase) := by
  constructor
  · rintro ⟨r, hr, h⟩
    obtain ⟨q, hq, meet, rfl⟩ := mem_piecesOf.1 hr
    simp only at h
    exact ⟨by omega, by omega, q, hq, by omega, by omega, by omega⟩
  · rintro ⟨h₁, h₂, q, hq, h⟩
    exact ⟨_, mem_piecesOf.2 ⟨q, hq, by omega, rfl⟩, by simp only; omega⟩

/-- A cut leaves the part below its span and the part above it. -/
theorem mem_cutDecl {lo len : Nat} {d e : Decl} : e ∈ cutDecl lo len d ↔
    if d.cg + d.len ≤ lo ∨ lo + len ≤ d.cg then e = d
    else (d.cg < lo ∧ e = ⟨d.cg, d.pg, lo - d.cg, d.perm⟩) ∨
      (lo + len < d.cg + d.len ∧ e = ⟨lo + len, d.pg + (lo + len - d.cg), d.cg + d.len - (lo + len), d.perm⟩) := by
  simp only [cutDecl, Bool.or_eq_true, decide_eq_true_eq]
  split
  · exact List.mem_singleton
  · simp only [List.mem_append, List.mem_ite_nil_right, List.mem_singleton]

/-- What is left covers the addresses of the declared range outside the span, over the same addresses of the parent. -/
theorem cutDecl_covers (lo len a b : Nat) (d : Decl) :
    (∃ e ∈ cutDecl lo len d, e.cg ≤ a ∧ a < e.cg + e.len ∧ b = e.pg + (a - e.cg)) ↔
      d.cg ≤ a ∧ a < d.cg + d.len ∧ ¬(lo ≤ a ∧ a < lo + len) ∧ b = d.pg + (a - d.cg) := by
  simp only [mem_cutDecl]
  split
  · next apart =>
    simp only [exists_eq_left]
    omega
  · next meet =>
    constructor
    · rintro ⟨e, ⟨_, rfl⟩ | ⟨_, rfl⟩, h⟩ <;> simp only at h <;> omega
    · rintro ⟨h₁, h₂, h₃, h₄⟩
      by_cases below : a < lo
      · exact ⟨_, .inl ⟨by omega, rfl⟩, by simp only; omega⟩
      · exact ⟨_, .inr ⟨by omega, rfl⟩, by simp only; omega⟩

/-- Settles O41: both halves address by address, by linear arithmetic on where the ranges meet. -/
theorem grantsFlatten : Obligations.GrantsFlatten := fun parent d lo len a =>
  ⟨fun dev => piecesOf_covers parent d.cg d.pg d.len a dev d.perm, fun _ h => piecesOf_perm h,
    fun b => cutDecl_covers lo len a b d⟩

end Sys2Proof.Machine

/-!
PROOF. What a context is made with (R202) outlives carve-outs, evictions and the end of issue.
-/

namespace Sys2Proof.Machine

/-- What CTXNEW gives a context: its configuration, its parent, its state, its entry record. -/
def Ctx.made (x : Ctx) : Conf × Option Nat × CState × Option LaunchRec := (x.conf, x.parent, x.state, x.entry)

/-- From s to t every context keeps what it was made with. -/
def CtxsKept (s t : State) : Prop := ∀ c, (t.ctx? c).map Ctx.made = (s.ctx? c).map Ctx.made

namespace CtxsKept

theorem refl (s : State) : CtxsKept s s := fun _ => rfl

theorem trans {s t u : State} (h : CtxsKept s t) (k : CtxsKept t u) : CtxsKept s u := fun c => (k c).trans (h c)

theorem of_ctxs {s t : State} (h : t.ctxs = s.ctxs) : CtxsKept s t := fun c => by rw [State.ctx?, State.ctx?, h]

theorem setCore (s : State) (k : Nat) (x : Core) : CtxsKept s (s.setCore k x) := fun _ => rfl

theorem setDie (s : State) (d : Nat) (x : Die) : CtxsKept s (s.setDie d x) := fun _ => rfl

theorem setFrame (s : State) (k : Nat) (x : FrameRec) : CtxsKept s (s.setFrame k x) := fun _ => rfl

theorem setLine (s : State) (k : Nat) (x : LineRec) : CtxsKept s (s.setLine k x) := fun _ => rfl

theorem setCtx {s : State} {c : Nat} {x y : Ctx} (h : s.ctx? c = some x) (k : y.made = x.made) :
    CtxsKept s (s.setCtx c y) := fun d => by
  by_cases e : d = c
  · subst e
    rw [State.ctx?_setCtx, h, Option.map_some, Option.map_some, k]
  · rw [State.ctx?_setCtx_ne _ _ e]

theorem foldl {α : Type} {f : State → α → State} (h : ∀ s a, CtxsKept s (f s a)) (l : List α) (s : State) :
    CtxsKept s (l.foldl f s) := by
  induction l generalizing s with
  | nil => exact refl s
  | cons a l ih => exact (h s a).trans (ih _)

theorem ensureSoon (s : State) (e : Instr) : CtxsKept s (s.ensureSoon e) :=
  fun c => congrArg (Option.map Ctx.made) (State.ensureSoon_ctx? s e c)

theorem updWave (s : State) (w : Nat) (f : Wave → Wave) : CtxsKept s (s.updWave w f) :=
  of_ctxs (State.updWave_ctxs s w f)

/-! ### The end of issue -/

theorem ringPut (s : State) (ring : Option Nat) (r : FaultRec) : CtxsKept s (ringPut s ring r) := by
  unfold Machine.ringPut
  split
  · exact of_ctxs rfl
  · split
    · exact of_ctxs rfl
    · next x hx => split <;> exact setCtx hx rfl

theorem unmarkLines (s : State) : CtxsKept s (unmarkLines s) := by
  unfold Machine.unmarkLines
  exact foldl (fun _ _ => setLine _ _ _) _ s

theorem unpin (s : State) (w : Nat) : CtxsKept s (unpin s w) := by
  unfold Machine.unpin
  split
  · exact refl s
  · refine (unmarkLines s).trans ?_
    dsimp only
    split
    · exact of_ctxs rfl
    · exact trans (of_ctxs rfl) (ensureSoon _ _)

theorem withdrawPin (s : State) (w : Nat) : CtxsKept s (withdrawPin s w) :=
  trans (t := { s with pins := _ }) (of_ctxs rfl) (updWave _ w _)

theorem takeFault (s : State) (w i : Nat) (pc base next : Word64) (k : ParkKind) (f : FaultInfo) :
    CtxsKept s (takeFault s w i pc base next k f) := by
  unfold Machine.takeFault
  split
  · exact refl s
  · split
    · exact refl s
    · next x c hc =>
      have pins (t : State) (y : Wave) : CtxsKept t (if (y.settle.state == .running) = true then t else
          Machine.withdrawPin (Machine.unpin t w) w) := by
        split
        · exact refl t
        · exact (unpin t w).trans (withdrawPin _ w)
      dsimp only
      refine .trans ?_ (ringPut _ _ _)
      refine .trans (.trans ?_ (pins _ _)) (of_ctxs (t := dropLatch _ w) rfl)
      exact setCtx (s := s.setWave w _) hc rfl

theorem stepStop (w : Nat) (m pc : Word64) (is : List Nat) (s : State) : CtxsKept s (stepStop s w m pc is) := by
  induction is generalizing s with
  | nil => exact refl s
  | cons i is ih =>
    unfold Machine.stepStop
    dsimp only
    refine .trans ?_ (ih _)
    split
    · split
      · exact takeFault _ _ _ _ _ _ _ _
      · exact refl s
    · exact refl s

theorem fireStep (x : Iss) (s : State) : CtxsKept s (fireStep x s) := by
  unfold Machine.fireStep
  split
  · exact refl s
  · unfold fireStepAt
    split
    · next c hc =>
      split
      · refine .trans ?_ (stepStop _ _ _ _ _)
        exact setCtx hc rfl
      · exact refl s
    · exact refl s

theorem finish (x : Iss) (i : Instr) (moved later : Bool) (s : State) : CtxsKept s (finish x i moved later s) := by
  refine of_ctxs ?_
  unfold Machine.finish
  dsimp only
  rw [State.setLp_ctxs]
  split
  · rfl
  · split <;> rfl

/-! ### Evictions and carve-outs (R43, R58, R84, R99) -/

/-- A charge takes tokens. -/
theorem forceTokens (s : State) (k : Nat) (cs : List Nat) : CtxsKept s (forceTokens s k cs) := by
  induction cs generalizing s with
  | nil => exact refl s
  | cons c cs ih =>
    unfold Machine.forceTokens
    split
    · exact ih s
    · next x hx =>
      split
      · exact ih s
      · refine .trans ?_ (ih _)
        exact setCtx hx rfl

theorem homeWrite (s : State) (dev : Nat) (bs : List Byte) : CtxsKept s (homeWrite s dev bs) := by
  unfold Machine.homeWrite
  dsimp only
  split <;> exact of_ctxs rfl

theorem giveUp (s : State) (die l : Nat) : CtxsKept s (giveUp s die l) := by
  unfold Machine.giveUp
  split
  · exact refl s
  · next k r _ =>
    dsimp only
    refine .trans (t := if (r.state == .m || r.state == .o) = true then _ else s) ?_ (of_ctxs rfl)
    split
    · refine .trans ?_ (of_ctxs rfl)
      exact .trans (forceTokens _ _ _) (homeWrite _ _ _)
    · exact refl s

theorem giveUps (die : Nat) (ls : List Nat) (s : State) : CtxsKept s (giveUps s die ls) := by
  induction ls generalizing s with
  | nil => exact refl s
  | cons l ls ih => exact (giveUp s die l).trans (ih _)

theorem clearTargets (fk : Nat) (cs : List Nat) (s : State) : CtxsKept s (clearTargets s fk cs) := by
  induction cs generalizing s with
  | nil => exact refl s
  | cons c cs ih => exact .trans (t := { s with waves := _, cores := _ }) (of_ctxs rfl) (ih _)

theorem bumpGen (s : State) (fk : Nat) : CtxsKept s (bumpGen s fk) := by
  unfold Machine.bumpGen
  refine .trans (t := if ((s.frame fk).gen == 255) = true then _ else s) ?_ (of_ctxs rfl)
  split
  · exact clearTargets _ _ s
  · exact refl s

theorem freeFrame (s : State) (fk : Nat) : CtxsKept s (freeFrame s fk) := of_ctxs rfl

theorem endForwarding (s : State) (fk gen : Nat) : CtxsKept s (endForwarding s fk gen) := by
  unfold Machine.endForwarding
  dsimp only
  split
  · exact refl s
  · refine .trans ?_ (freeFrame _ fk)
    refine .trans ?_ (bumpGen _ fk)
    split
    · exact of_ctxs rfl
    · exact refl s

theorem endMoves (s : State) (die part : Nat) : CtxsKept s (endMoves s die part) := by
  unfold Machine.endMoves
  exact foldl (fun s fk => endForwarding s fk _) _ s

theorem dropReplica (s : State) (fk : Nat) : CtxsKept s (dropReplica s fk) := by
  unfold Machine.dropReplica
  refine .trans ?_ (freeFrame _ fk)
  refine .trans ?_ (bumpGen _ fk)
  refine .trans ?_ (setDie _ _ _)
  split
  · exact of_ctxs rfl
  · exact refl s

theorem dropReplicas (fs : List Nat) (s : State) : CtxsKept s (dropReplicas s fs) := by
  induction fs generalizing s with
  | nil => exact refl s
  | cons f fs ih => exact (dropReplica s f).trans (ih _)

theorem evict (s : State) (die part : Nat) : CtxsKept s (evict s die part) := by
  unfold Machine.evict
  refine .trans (endMoves s die part) ?_
  dsimp only
  split
  · exact refl _
  · refine .trans ?_ (setDie _ _ _)
    refine .trans ?_ (freeFrame _ _)
    refine .trans ?_ (bumpGen _ _)
    refine .trans ?_ (setDie _ _ _)
    refine .trans ?_ (setDie _ _ _)
    refine .trans ?_ (setDie _ _ _)
    exact (dropReplicas _ _).trans (giveUps die _ _)

theorem freeDown (core need n : Nat) (s : State) : CtxsKept s (freeDown s core need n).1 := by
  induction n generalizing s with
  | zero => exact refl s
  | succ k ih =>
    unfold Machine.freeDown
    split
    · exact refl s
    · dsimp only
      split
      · split
        · exact refl s
        · exact (dropReplica _ _).trans (ih _)
      · split
        · exact (evict _ _ _).trans (ih _)
        · exact refl s
      · exact refl s
      · exact ih s

theorem carveOut (s : State) (core c n : Nat) : CtxsKept s (carveOut s core c n) := by
  unfold Machine.carveOut
  split
  · exact refl s
  · refine .trans (freeDown core n 256 s) ?_
    exact .trans (foldl (fun _ _ => setFrame _ _ _) _ _) (setCore _ _ _)

end CtxsKept

/-- A context that is made has what it is made with. -/
theorem makeCtx_made (s : State) (id : Nat) (parent : Option Nat) (c : Conf) (e : Option LaunchRec) :
    ((makeCtx s id parent c e).ctx? id).map Ctx.made = some (c, parent, .stopped, e) := by
  unfold makeCtx
  dsimp only
  rw [CtxsKept.ensureSoon _ _ id, CtxsKept.foldl (fun s k => CtxsKept.carveOut s k id c.localfr) _ _ id, State.ctx?_setCtx]
  rfl

end Sys2Proof.Machine

/-!
PROOF. What an instruction that a seal precedes comes to (R278): its operands, its status, what is due after it; and the steps
of grants, translations and contexts from that (O40, O43).
-/

namespace Sys2Proof.Machine

open Claim

/-! ### What a sealed instruction does -/

theorem issOf_ctx (i : Instr) (s : State) (c : Cur) (w : Wave) : (issOf i s c w).w.ctx = w.ctx := opened_ctx s c w

section
variable {i : Instr} {s : State} {c : Cur} {w : Wave} {act : Iss → State → Act}

/-- What an instruction under a seal has done stands when it completes; the end of issue adds what is owed. -/
theorem issueSealed_done {t : State} (h : BeginsSealed i s c w)
    (ha : act (issOf i s c w) (underSeal s c w) = .done t) : ∃ u, issueSealed i s act = .next u ∧ Later t u ∧ CtxsKept t u := by
  rw [issueSealed_acts h, ha]
  exact ⟨_, rfl, (finish_later _ _ _ _ t).trans (fireStep_later _ _), (CtxsKept.finish _ _ _ _ t).trans (.fireStep _ _)⟩

/-- The effect of a context instruction changes no more of the machine than its own part, beside the snapshot of its seal. -/
theorem sealedEffect_done (x : Iss) (i : Instr) (v : State) (f : State → State) :
    ∃ ps, sealedEffect x i v f = .done { f v with parts := ps } := by
  unfold sealedEffect
  dsimp only
  split <;> exact ⟨_, rfl⟩

/-- A context instruction completes with its effect. -/
theorem sealedEffect_next {v : State} {f : State → State} (h : BeginsSealed i s c w)
    (ha : act (issOf i s c w) (underSeal s c w) = sealedEffect (issOf i s c w) i v f) :
    ∃ ps t, issueSealed i s act = .next t ∧ Later { f v with parts := ps } t ∧ CtxsKept (f v) t := by
  obtain ⟨ps, hp⟩ := sealedEffect_done (issOf i s c w) i v f
  exact ⟨ps, issueSealed_done h (ha.trans hp)⟩

end

/-- A wave is there after what comes later. -/
theorem Later.wave_some {s t : State} {wid : Nat} {y : Wave} (h : Later s t) (hy : s.wave? wid = some y) :
    ∃ z, t.wave? wid = some z ∧ WaveLater y z := by
  have k := h.waves wid
  cases ht : t.wave? wid with
  | none => simp [hy, ht, OptLater] at k
  | some z => exact ⟨z, rfl, by simpa only [hy, ht, OptLater] using k⟩

/-- A register that holds a value in a wave holds it after what comes later. -/
theorem Later.holds {s t : State} {wid : Nat} {y : Wave} {x : RegW} (h : Later s t) (hy : s.wave? wid = some y)
    (hx : x.held y) : Holds t wid x := by
  obtain ⟨z, hz, k⟩ := h.wave_some hy
  exact holds_of_held hz ((held_congr ⟨k.vregs, k.sregs, k.preds⟩ x).2 hx)

theorem Later.isSome {s t : State} {wid : Nat} (h : Later s t) (hs : (s.wave? wid).isSome) : (t.wave? wid).isSome := by
  obtain ⟨y, hy⟩ := Option.isSome_iff_exists.1 hs
  obtain ⟨z, hz, -⟩ := h.wave_some hy
  exact hz ▸ rfl

theorem Later.mem_later (s : State) (e : Instr) : ∃ n, Timer.mk false n e ∈ (s.later e).sch.timers :=
  ⟨_, List.mem_append_right _ (List.mem_singleton_self _)⟩

@[simp] theorem State.updWave_ctx? (s : State) (wid : Nat) (f : Wave → Wave) (c : Nat) :
    (s.updWave wid f).ctx? c = s.ctx? c := by
  simp only [State.ctx?, State.updWave_ctxs]

theorem State.wave?_updWave {s : State} {wid : Nat} {y : Wave} (f : Wave → Wave) (h : s.wave? wid = some y) :
    (s.updWave wid f).wave? wid = some (f y) := by
  simp [State.updWave, h, State.wave?_setWave]

/-- Registers written at the end of an effect, from z, hold when the instruction has completed; configurations are those of z,
and what is due is as the effect left it. -/
theorem sealed_writes {i : Instr} {s : State} {c : Cur} {w : Wave} {act : Iss → State → Act} {v z : State} {f : State → State}
    {ws : List RegW} (h : BeginsSealed i s c w) (he : exec i s = issueSealed i s act)
    (ha : act (issOf i s c w) (underSeal s c w) = sealedEffect (issOf i s c w) i v f)
    (hf : Later (z.updWave c.wave (fun y => y.writes w.seq ws)) (f v))
    (hp : ws.Pairwise (fun a b => a.place ≠ b.place)) (hw : (z.wave? c.wave).isSome) :
    ∃ t, exec i s = .next t ∧ HoldsAll t c.wave ws ∧ (∀ j, ctxConf t j = ctxConf z j) ∧
      CtxsKept (f v) t ∧ ∀ x ∈ (f v).sch.timers, x ∈ t.sch.timers := by
  obtain ⟨ps, t, ht, later, kept⟩ := sealedEffect_next h ha
  obtain ⟨y, hy⟩ := Option.isSome_iff_exists.1 hw
  obtain ⟨a, ha, la⟩ := hf.wave_some (State.wave?_updWave _ hy)
  have held (x : RegW) (hx : x ∈ ws) : x.held a :=
    (held_congr ⟨la.vregs, la.sregs, la.preds⟩ x).2 ((writes_held w.seq ws y hp).1 x hx)
  refine ⟨t, he.trans ht, fun x hx => later.holds ha (held x hx), fun j => ?_, kept, later.timers⟩
  calc ctxConf t j = ctxConf (f v) j := later.conf j
    _ = ctxConf (z.updWave c.wave (fun y => y.writes w.seq ws)) j := hf.conf j
    _ = ctxConf z j := by simp only [ctxConf, State.updWave_ctx?]

/-- An instruction whose effect ends with a status among the registers written answers with it; from u to z no more than what is
due has changed. -/
theorem answers_writes {i : Instr} {s : State} {c : Cur} {w : Wave} {act : Iss → State → Act} {v z u : State}
    {f : State → State} {ws : List RegW} {d : BitVec 8} {n : Nat} {pz : Bool} (h : BeginsSealed i s c w)
    (he : exec i s = issueSealed i s act)
    (ha : act (issOf i s c w) (underSeal s c w) = sealedEffect (issOf i s c w) i v f)
    (hf : Later (z.updWave c.wave (fun y => y.writes w.seq ws)) (f v))
    (hp : ws.Pairwise (fun a b => a.place ≠ b.place)) (hd : .s d.toNat ⟨BitVec.ofNat 32 n, pz⟩ ∈ ws) (hu : Later u z) :
    Answers i s c d n pz u := by
  intro hw
  obtain ⟨t, ht, hold, conf, -, -⟩ := sealed_writes h he ha hf hp (hu.isSome hw)
  exact ⟨t, ht, hold _ hd, fun j => (conf j).trans (hu.conf j)⟩

/-- So does one that writes its status alone. -/
theorem answers_setStatus {i : Instr} {s : State} {c : Cur} {w : Wave} {act : Iss → State → Act} {v u : State}
    {f : State → State} {d : BitVec 8} {n : Nat} {pz : Bool} (h : BeginsSealed i s c w) (he : exec i s = issueSealed i s act)
    (ha : act (issOf i s c w) (underSeal s c w) = sealedEffect (issOf i s c w) i v
      (fun s => setStatus (issOf i s c w) (f s) d n pz)) (hu : Later u (f v)) : Answers i s c d n pz u :=
  answers_writes (z := f v) (ws := [.s d.toNat ⟨BitVec.ofNat 32 n, pz⟩]) h he ha (.refl _) (List.pairwise_singleton _ _)
    (List.mem_singleton_self _) hu

/-- A status that changes nothing else. -/
theorem answers_answer {i : Instr} {s : State} {c : Cur} {w : Wave} {act : Iss → State → Act} {v : State} {d : BitVec 8}
    {n : Nat} {pz : Bool} (h : BeginsSealed i s c w) (he : exec i s = issueSealed i s act)
    (ha : act (issOf i s c w) (underSeal s c w) = answer (issOf i s c w) i v d n pz) : Answers i s c d n pz v :=
  answers_setStatus (f := id) h he ha (.refl v)

/-! ### Record operands -/

theorem failed_ne_ok {α : Type} {s t : State} {f : Fail} {a : α} : failed s f ≠ .ok a t := by
  unfold failed
  split <;> simp

/-- Orders 1 to 4 of R38. -/
theorem checkPtr_eq_none {p : Word64} {n : Nat} {sp : Spaces} : checkPtr p n sp = none ↔
    ¬ 3 ≤ (spaceOf p).toNat ∧ mustZero p = true ∧ sp.has (spaceOf p) = true ∧ p.toNat % n = 0 := by
  unfold checkPtr
  split
  · simp_all
  · split
    · simp_all
    · split
      · simp_all
      · split <;> simp_all

/-- The checks of R38 depend on the size by the alignment alone. -/
theorem checkPtr_aligned {p : Word64} {m n : Nat} {sp : Spaces} (h : checkPtr p m sp = none) (hn : p.toNat % n = 0) :
    checkPtr p n sp = none := by
  obtain ⟨h₁, h₂, h₃, -⟩ := checkPtr_eq_none.1 h
  exact checkPtr_eq_none.2 ⟨h₁, h₂, h₃, hn⟩

theorem checkPtr_of_checkAccess {s : State} {core c size : Nat} {p : Word64} {want : BitVec 3} {sp : Spaces}
    {x : Option Xl × State} (h : checkAccess s core c p size want sp = .ok x) : checkPtr p size sp = none := by
  unfold checkAccess at h
  split at h
  · cases h
  · assumption

/-- A pointer whose record reads has passed the checks of R38 for its first piece. -/
theorem checkPtr_of_loadRecord {s t : State} {w : Who} {p : Word64} {n : Nat} {x : List Byte × Bool} (hn : n ≠ 0)
    (h : loadRecord s w p n = .ok x t) : checkPtr p 16 .globalDev = none := by
  obtain ⟨n, rfl⟩ := Nat.exists_eq_succ_of_ne_zero hn
  unfold loadRecord loadFrom at h
  cases hc : checkAccess s w.core w.ctx p 16 pR .globalDev with
  | ok y => exact checkPtr_of_checkAccess hc
  | error f =>
    rw [hc] at h
    exact absurd h failed_ne_ok

/-- A record that reads is handed on with its poison. -/
theorem recordArg_reads {i : Instr} {s : State} {c : Cur} {w : Wave} {r : BitVec 8} {align n : Nat} {bs : List Byte} {pz : Bool}
    {v : State} (h : Record i s c w r align n bs pz v) (hn : n ≠ 0) (f : List Byte → Bool → State → Act) :
    recordArg (issOf i s c w) (underSeal s c w) r align n f = f bs pz v := by
  obtain ⟨p, hp, ha, hl, ho⟩ := h
  have hc : checkPtr p align .globalDev = none := checkPtr_aligned (checkPtr_of_loadRecord hn hl) ha
  unfold recordArg
  rw [hp]
  dsimp only
  rw [hc]
  dsimp only
  rw [show loadRecord (underSeal s c w) (whoOf (issOf i s c w).cur.wave (issOf i s c w).w) p n = .ok (bs, pz) v from hl]
  dsimp only
  rw [ho]

end Sys2Proof.Machine

/-!
PROOF. TLB entries go (O43): when a TLBINV is accepted its completion is due, and that drops the entries of its scope.
-/

namespace Sys2Proof.Machine

open Claim

/-- What a change of every listed value makes of what a key reads as, where it keeps what an unlisted key reads as. -/
theorem Sp.get_map {α : Type} {d : α} (f : α → α) (hd : f d = d) (m : List (Nat × α)) (k : Nat) :
    Sp.get d (m.map fun x => (x.1, f x.2)) k = f (Sp.get d m k) := by
  induction m with
  | nil => exact hd.symm
  | cons x m ih =>
    by_cases h : x.1 = k
    · simp [Sp.get, Sp.find, h]
    · simpa [Sp.get, Sp.find, h] using ih

theorem dropTlb_core (s : State) (ok : TlbEntry → Bool) (k : Nat) :
    ((dropTlb s ok).core k).tlb = (s.core k).tlb.filter (fun e => !ok e) :=
  congrArg Core.tlb (Sp.get_map (fun k : Core => { k with tlb := k.tlb.filter (fun e => !ok e) }) rfl s.cores k)

/-- A TLBINV that is accepted has its completion due. -/
theorem tlbinv_due {i : Instr} {s : State} {c : Cur} {w : Wave} {act : Iss → State → Act} {v : State} {p : Word64}
    {target first n : Nat} {all : Bool} (h : BeginsSealed i s c w)
    (ha : act (issOf i s c w) (underSeal s c w) = putTlbinv (issOf i s c w) v target first n all p) :
    ∃ t m, issueSealed i s act = .next t ∧
      Timer.mk false m (.tlbinvComplete w.ctx target first n all p) ∈ t.sch.timers := by
  obtain ⟨t, ht, later, -⟩ := issueSealed_done h ha
  obtain ⟨m, due⟩ := Later.mem_later v (.tlbinvComplete (opened s c w).ctx target first n all p)
  exact ⟨t, m, ht, opened_ctx s c w ▸ later.timers _ due⟩

/-- Settles O43: each form by its own operands, and the drop entry by entry. -/
theorem translationsDrop : Obligations.TranslationsDrop := by
  intro ctl a k r n s c w p v pk
  refine ⟨fun va h hp ha hs => ?page, fun h hp => ?ctx, fun t h hp hk => ?child, fun target first pages all core e _ => ?gone⟩
  case page =>
    show ∃ t m, execTlbinvPage ctl a r n s = _ ∧ _
    refine tlbinv_due (v := v) h ?_
    simp only [hp, ha, hs, issOf_ctx, bne_self_eq_false, Bool.false_eq_true, if_false]
  case ctx =>
    show ∃ t m, execTlbinvCtx ctl r s = _ ∧ _
    refine tlbinv_due (v := v) h ?_
    simp only [hp, issOf_ctx]
  case child =>
    show ∃ t m, execTlbinvChild ctl k r s = _ ∧ _
    refine tlbinv_due (v := v) h ?_
    simp only [hp, hk]
  case gone =>
    simp only [dropTlb_core, List.mem_filter, Bool.not_eq_true', ← Bool.not_eq_true, Bool.and_eq_true, Bool.or_eq_true,
      beq_iff_eq, decide_eq_true_eq]

end Sys2Proof.Machine

/-!
PROOF. CTXNEW, CTXGRANT and CTXREVOKE answer with their status (O40).
-/

namespace Sys2Proof.Machine

open Claim

section
variable {ctl : Ctl} {d k r : BitVec 8} {s : State} {c : Cur} {w : Wave} {bs : List Byte} {pz pk : Bool} {v : State}

/-! ### CTXNEW (R202, R279) -/

/-- The two registers that CTXNEW writes, its status and the id, are not one. -/
theorem newIds_apart (d : Nat) (x y : VWord) : [RegW.s d x, .s (d + 1) y].Pairwise (fun a b => a.place ≠ b.place) := by
  simp [RegW.place]

theorem answers_newIds {i : Instr} {act : Iss → State → Act} {n id : Nat} (h : BeginsSealed i s c w)
    (he : exec i s = issueSealed i s act)
    (ha : act (issOf i s c w) (underSeal s c w) = sealedEffect (issOf i s c w) i v
      (fun s => newIds (issOf i s c w) s d n id pz)) : Answers i s c d n pz v :=
  answers_writes h he ha (.refl _) (newIds_apart _ _ _) List.mem_cons_self (.refl v)

section
variable {x : Ctx} (h : BeginsSealed (.ctxnew ctl d r) s c w) (hr : Record (.ctxnew ctl d r) s c w r 32 10 bs pz v)
  (hx : v.ctx? w.ctx = some x)
include h hr hx

theorem ctxnew_refuses (hn : newStatus v w.ctx x bs (confOf bs) ≠ 0) :
    Answers (.ctxnew ctl d r) s c d (newStatus v w.ctx x bs (confOf bs)) pz v := by
  refine answers_newIds (id := 0) h (rfl : exec _ s = execCtxnew ctl d r s) ?_
  dsimp only
  rw [recordArg_reads hr (by decide), issOf_ctx, hx]
  dsimp only
  split
  · contradiction
  · rfl

/-- An entry record that is poisoned or fails its checks earns 8. -/
theorem ctxnew_badEntry {es : List Byte} {bad : Bool} {z : State} (hn : newStatus v w.ctx x bs (confOf bs) = 0)
    (hl : (confOf bs).localfr ≠ 0) (hz : pz = false)
    (he : loadRecord v (whoOf c.wave (opened s c w)) (confOf bs).entry 4 = .ok (es, bad) z)
    (hb : bad = true ∨ (checkLaunch (confOf bs).units (launchRecOf es) (confOf bs).entry).isSome = true) :
    Answers (.ctxnew ctl d r) s c d 8 pz z := by
  refine answers_newIds (id := 0) h (rfl : exec _ s = execCtxnew ctl d r s) ?_
  dsimp only
  rw [recordArg_reads hr (by decide), issOf_ctx, hx]
  dsimp only
  have who : whoOf (issOf (.ctxnew ctl d r) s c w).cur.wave (issOf (.ctxnew ctl d r) s c w).w = whoOf c.wave (opened s c w) := rfl
  rw [hn, who, he]
  simp [hz, hl, hb]
  rfl

/-- Once its carve-outs have room, the child is made with its record. -/
theorem ctxnew_makes {e : Option LaunchRec} {z y : State} (hn : newStatus v w.ctx x bs (confOf bs) = 0)
    (he : ((confOf bs).localfr = 0 ∧ pz = false ∧ e = none ∧ z = v) ∨ ∃ es, ((confOf bs).localfr ≠ 0 ∧ pz = false ∧
      loadRecord v (whoOf c.wave (opened s c w)) (confOf bs).entry 4 = .ok (es, false) z) ∧ e = some (launchRecOf es) ∧
      checkLaunch (confOf bs).units (launchRecOf es) (confOf bs).entry = none)
    (hc : carveRoom z (confOf bs).localfr (coresIn (confOf bs).units) = (y, true))
    (hw : ((makeCtx y (freeId v) (some w.ctx) (confOf bs) e).wave? c.wave).isSome) :
    ∃ t, exec (.ctxnew ctl d r) s = .next t ∧
      HoldsAll t c.wave [.s d.toNat ⟨0, false⟩, .s (d.toNat + 1) ⟨BitVec.ofNat 32 (freeId v), false⟩] ∧
      (t.ctx? (freeId v)).map Ctx.made = some (confOf bs, some w.ctx, .stopped, e) := by
  have done := sealed_writes (v := y)
    (f := fun t => newIds (issOf (.ctxnew ctl d r) s c w) (makeCtx t (freeId v) (some w.ctx) (confOf bs) e) d 0 (freeId v) false)
    h (rfl : exec _ s = execCtxnew ctl d r s) (ha := ?made) (.refl _) (newIds_apart _ _ _) hw
  case made =>
    dsimp only
    have who : whoOf (issOf (.ctxnew ctl d r) s c w).cur.wave (issOf (.ctxnew ctl d r) s c w).w = whoOf c.wave (opened s c w) :=
      rfl
    rw [recordArg_reads hr (by decide), issOf_ctx, hx]
    dsimp only
    rw [hn, who]
    rcases he with ⟨hl, hz, rfl, rfl⟩ | ⟨es, ⟨hl, hz, he⟩, rfl, hk⟩
    · rw [hl] at hc
      simp [hz, hl, hc]
    · simp [hz, hl, he, hk, hc]
  obtain ⟨t, ht, hold, -, kept, -⟩ := done
  exact ⟨t, ht, hold, (kept _).trans ((CtxsKept.updWave _ _ _ _).trans (makeCtx_made _ _ _ _ _))⟩

end

/-! ### CTXGRANT (R30, R33, R280) -/

section
variable {t : Nat} (h : BeginsSealed (.ctxgrant ctl d k r) s c w) (hr : Record (.ctxgrant ctl d k r) s c w r 32 2 bs pz v)
  (ht : targetArg (issOf (.ctxgrant ctl d k r) s c w) (underSeal s c w) k true = .ok (t, pk))
  (hp : fieldAt bs 24 4 < 8) (hz : fieldAt bs 28 4 = 0)

/-- The declared range that the record of a grant asks for. -/
def grantOf (bs : List Byte) : Decl :=
  ⟨fieldAt bs 0 8, fieldAt bs 8 8, fieldAt bs 16 8, BitVec.ofNat 3 (fieldAt bs 24 4)⟩

/-- The declared ranges of a context. -/
def declaredOf (s : State) (c : Nat) : List Decl := match s.ctx? c with | some y => y.declared | none => []

include h hr ht hp hz

theorem ctxgrant_refuses (hn : grantStatus v w.ctx t (grantOf bs) ≠ 0) :
    Answers (.ctxgrant ctl d k r) s c d (grantStatus v w.ctx t (grantOf bs)) (pk || pz) v := by
  refine answers_answer h (rfl : exec _ s = execCtxgrant ctl d k r s) ?_
  dsimp only
  rw [ht]
  dsimp only
  rw [recordArg_reads hr (by decide), issOf_ctx, if_neg (by simpa using hp), if_neg (by simpa using hz)]
  split
  · contradiction
  · rfl

theorem ctxgrant_grants (hn : grantStatus v w.ctx t (grantOf bs) = 0)
    (hh : heldWalk v (reflatten v t (declaredOf v t ++ [grantOf bs])) = false) :
    let ds := declaredOf v t ++ [grantOf bs]
    Answers (.ctxgrant ctl d k r) s c d 0 (pk || pz) (setFlats v t ds (some t) (reflatten v t ds)) := by
  intro ds
  refine answers_setStatus (v := v) (f := fun s => setFlats s t ds (some t) (reflatten v t ds)) h
    (rfl : exec _ s = execCtxgrant ctl d k r s) ?_ (.refl _)
  dsimp only
  rw [ht]
  dsimp only
  rw [recordArg_reads hr (by decide), issOf_ctx, if_neg (by simpa using hp), if_neg (by simpa using hz)]
  change (match grantStatus v w.ctx t (grantOf bs) with | 0 => _ | n => _) = _
  rw [hn]
  rw [if_neg (by rw [Bool.not_eq_true]; exact hh)]
  rfl

end

/-! ### CTXREVOKE (R34, R280) -/

section
variable {t dev : Nat} {u : State} (hr : Record (.ctxrevoke ctl d k r) s c w r 32 2 bs false v)
  (ht : targetArg (issOf (.ctxrevoke ctl d k r) s c w) (underSeal s c w) k false = .ok (t, pk))
  (h₁ : fieldAt bs 24 4 = 0) (h₂ : fieldAt bs 28 4 = 0)
  (hc : clCheck v (coreOf c.wave) w.ctx (BitVec.ofNat 64 (fieldAt bs 16 8)) 8 pRW = .ok (dev, u))

/-- The declared ranges that a revoke leaves a context. -/
def cutFrom (s : State) (c : Nat) (bs : List Byte) : List Decl :=
  (declaredOf s c).flatMap (cutDecl (fieldAt bs 0 8) (fieldAt bs 8 8))

include hr ht h₁ h₂ hc

/-- Past its checks a revoke answers 5, 4, or cuts. -/
theorem ctxrevoke_acts : ∃ act, exec (.ctxrevoke ctl d k r) s = issueSealed (.ctxrevoke ctl d k r) s act ∧
    let i : Instr := .ctxrevoke ctl d k r
    let x := issOf i s c w
    let ds := cutFrom u t bs
    let fs := reflatten u t ds
    let lo := fieldAt bs 0 8
    let len := fieldAt bs 8 8
    act x (underSeal s c w) =
      if lo % page2M != 0 || len % page2M != 0 || len == 0 then answer x i u d 5 pk
      else if decide (64 < ds.length) || fs.any (fun y => decide (64 < y.2.length)) then answer x i u d 4 pk
      else if heldWalk u fs then .stall 3
      else sealedEffect x i u (fun s =>
        setStatus x ((setFlats s t ds none fs).later (.ctxrevokeComplete w.ctx t (BitVec.ofNat 64 (fieldAt bs 16 8)))) d 0 pk) := by
  refine ⟨_, (rfl : exec _ s = execCtxrevoke ctl d k r s), ?_⟩
  dsimp only
  rw [ht]
  dsimp only
  have hc' : clCheck v (coreOf (issOf (.ctxrevoke ctl d k r) s c w).cur.wave) w.ctx (BitVec.ofNat 64 (fieldAt bs 16 8)) 8 pRW =
    .ok (dev, u) := hc
  rw [recordArg_reads hr (by decide), issOf_ctx, if_neg (by simpa using h₁), if_neg (by simpa using h₂),
    if_neg Bool.false_ne_true, hc']
  simp only [Bool.or_false]
  rfl

variable (h : BeginsSealed (.ctxrevoke ctl d k r) s c w)
include h

theorem ctxrevoke_odd
    (ho : fieldAt bs 0 8 % page2M ≠ 0 ∨ fieldAt bs 8 8 % page2M ≠ 0 ∨ fieldAt bs 8 8 = 0) :
    Answers (.ctxrevoke ctl d k r) s c d 5 pk u := by
  obtain ⟨act, he, ha⟩ := ctxrevoke_acts (d := d) hr ht h₁ h₂ hc
  refine answers_answer h he (ha.trans (if_pos ?_))
  simpa [or_assoc] using ho

variable (ho : ¬(fieldAt bs 0 8 % page2M ≠ 0 ∨ fieldAt bs 8 8 % page2M ≠ 0 ∨ fieldAt bs 8 8 = 0))
include ho

theorem ctxrevoke_many
    (hm : 64 < (cutFrom u t bs).length ∨ ∃ y ∈ reflatten u t (cutFrom u t bs), 64 < y.2.length) :
    Answers (.ctxrevoke ctl d k r) s c d 4 pk u := by
  obtain ⟨act, he, ha⟩ := ctxrevoke_acts (d := d) hr ht h₁ h₂ hc
  refine answers_answer h he (ha.trans ((if_neg ?_).trans (if_pos ?_)))
  · simpa [or_assoc] using ho
  · simpa using hm

/-- The ranges that are left are flattened anew, and the completion is due. -/
theorem ctxrevoke_cuts
    (hm : ¬(64 < (cutFrom u t bs).length ∨ ∃ y ∈ reflatten u t (cutFrom u t bs), 64 < y.2.length))
    (hh : heldWalk u (reflatten u t (cutFrom u t bs)) = false) :
    Answers (.ctxrevoke ctl d k r) s c d 0 pk (setFlats u t (cutFrom u t bs) none (reflatten u t (cutFrom u t bs))) ∧
      ((u.wave? c.wave).isSome → ∃ x n, exec (.ctxrevoke ctl d k r) s = .next x ∧
        Timer.mk false n (.ctxrevokeComplete w.ctx t (BitVec.ofNat 64 (fieldAt bs 16 8))) ∈ x.sch.timers) := by
  obtain ⟨act, he, ha⟩ := ctxrevoke_acts (d := d) hr ht h₁ h₂ hc
  have cuts := ha.trans ((if_neg (by simpa [or_assoc] using ho)).trans ((if_neg (by simpa using hm)).trans (if_neg (by simp [hh]))))
  refine ⟨answers_setStatus h he cuts (.later _ _), fun _ => ?_⟩
  obtain ⟨ps, x, hx, later, -⟩ := sealedEffect_next h cuts
  obtain ⟨n, due⟩ := Later.mem_later (setFlats u t (cutFrom u t bs) none (reflatten u t (cutFrom u t bs)))
    (.ctxrevokeComplete w.ctx t (BitVec.ofNat 64 (fieldAt bs 16 8)))
  exact ⟨x, n, he.trans hx, later.timers _ (by simpa [setStatus] using due)⟩

end

end

/-- Settles O40: each status, and each effect, by its lemma above. -/
theorem contextsGrow : Obligations.ContextsGrow := by
  intro ctl d k r s c w bs pz pk v
  refine ⟨fun x h hr hx => ⟨ctxnew_refuses h hr hx, fun es bad z hn hes hb => ?bad, fun e z y hn he hc hw => ?new⟩,
    fun t h hr ht hp hz => ⟨ctxgrant_refuses h hr ht hp hz, ctxgrant_grants h hr ht hp hz⟩,
    fun t dev u h hr ht h₁ h₂ hc => ⟨ctxrevoke_odd hr ht h₁ h₂ hc h, ctxrevoke_many hr ht h₁ h₂ hc h,
      ctxrevoke_cuts hr ht h₁ h₂ hc h⟩⟩
  case bad =>
    obtain ⟨hl, hz, hes⟩ := hes
    exact ctxnew_badEntry h hr hx hn hl hz hes hb
  case new => exact ctxnew_makes h hr hx hn he hc hw

end Sys2Proof.Machine

/-!
PROOF. CTXPEEK and CTXPOKE answer for every item (O44): the buffer and the key, then each item by what its reading or its
change comes to.
-/

namespace Sys2Proof.Machine

open Claim

/-! ### A write noted -/

/-- A change of waves that keeps their registers keeps what is found. -/
theorem Later.mapWaves {s : State} (f : Nat × Wave → Nat × Wave) (hk : ∀ x, (f x).1 = x.1) (hw : ∀ x, WaveLater x.2 (f x).2) :
    Later s { s with waves := s.waves.map f } := by
  refine { Later.refl s with
    waves := fun v => ?_, conf := fun _ => rfl, timers := fun _ h => h, hist := fun _ => ⟨rfl, rfl, rfl, rfl⟩ }
  show OptLater (Sp.find s.waves v) (Sp.find (s.waves.map f) v)
  induction s.waves with
  | nil => trivial
  | cons x m ih =>
    by_cases e : x.1 = v
    · simpa [Sp.find, hk, e, OptLater] using hw x
    · simpa [Sp.find, hk, e] using ih

/-- To note that a path has written changes paths and undo records. -/
theorem noteWrite_later (s : State) (wid path : Nat) : Later s (noteWrite s wid path) := by
  refine Later.mapWaves _ (fun x => ?_) (fun x => ?_)
  · dsimp only
    split <;> rfl
  · dsimp only
    split
    · exact .refl _
    · constructor <;> first | rfl | exact fun _ h => h

/-! ### The buffer -/

section
variable {i : Instr} {s : State} {c : Cur} {w : Wave}

/-- A buffer that reads, at no breakpoint, is handed on with its poison. -/
theorem readBuffer_reads {v u : State} {p : Word64} {n : Nat} {bs : List Byte} {pb : Bool}
    (hr : bufRead v (whoOf c.wave (opened s c w)) (runsOf p n) = .ok (bs, pb) u)
    (ho : ownStop (issOf i s c w) v true false p n = none) (f : List Byte → Bool → State → Act) :
    readBuffer (issOf i s c w) v p n f = f bs pb u := by
  unfold readBuffer
  rw [show bufRead v (whoOf (issOf i s c w).cur.wave (issOf i s c w).w) (runsOf p n) = .ok (bs, pb) u from hr]
  dsimp only
  rw [ho]

/-- Item n has this key, read from the buffer at p where it has one. -/
def KeyRead (i : Instr) (s : State) (c : Cur) (w : Wave) (p : Word64) (n key : Nat) (v : State) : Prop :=
  (itemKeyed n = false ∧ key = 0 ∧ v = underSeal s c w) ∨
    (itemKeyed n = true ∧ ownStop (issOf i s c w) (underSeal s c w) true false p 8 = none ∧
      ∃ bs, bufRead (underSeal s c w) (whoOf c.wave (opened s c w)) (runsOf p 8) = .ok (bs, false) v ∧ key = leNat bs)

theorem itemKey_reads {p : Word64} {n key : Nat} {v : State} (h : KeyRead i s c w p n key v) (f : Nat → State → Act) :
    itemKey (issOf i s c w) (underSeal s c w) p n f = f key v := by
  unfold itemKey
  rcases h with ⟨hk, rfl, rfl⟩ | ⟨hk, ho, bs, hr, rfl⟩
  · rw [hk]
    rfl
  · rw [hk, readBuffer_reads hr ho]
    rfl

/-- The status of an item comes with its data in the buffer. -/
theorem answers_peekAnswer {act : Iss → State → Act} {u' u : State} {d : BitVec 8} {n : Nat} {pk : Bool} {at_ : Word64}
    {bs : List Byte} (h : BeginsSealed i s c w) (he : exec i s = issueSealed i s act)
    (ha : act (issOf i s c w) (underSeal s c w) = peekAnswer (issOf i s c w) i u' d pk at_ bs n)
    (hw : bufWrite u' (whoOf c.wave (opened s c w)) bs (runsOf at_ bs.length) = .ok () u)
    (ho : ownStop (issOf i s c w) u' false true at_ bs.length = none) : Answers i s c d n pk u := by
  refine answers_writes (v := u) (z := u) (ws := [.s d.toNat ⟨BitVec.ofNat 32 n, pk⟩])
    (f := fun t => noteWrite (setStatus (issOf i s c w) t d n pk) c.wave c.path) h he (ha.trans ?_)
    (noteWrite_later _ _ _) (List.pairwise_singleton _ _) (List.mem_singleton_self _) (.refl u)
  unfold peekAnswer
  rw [show bufWrite u' (whoOf (issOf i s c w).cur.wave (issOf i s c w).w) bs (runsOf at_ bs.length) = .ok () u from hw]
  dsimp only
  rw [ho]
  rfl

end

/-! ### CTXPEEK -/

section
variable {i : Instr} {d k r : BitVec 8} {item index : Nat} {s : State} {c : Cur} {w : Wave} {t : Nat} {pk : Bool} {p : Word64}

/-- A peek or a poke i of the context t begins, with its buffer at p. -/
structure Ready (i : Instr) (s : State) (c : Cur) (w : Wave) (k r : BitVec 8) (t : Nat) (pk : Bool) (p : Word64) : Prop where
  begins : BeginsSealed i s c w
  target : targetArg (issOf i s c w) (underSeal s c w) k false = .ok (t, pk)
  buffer : pointerArg (issOf i s c w) (underSeal s c w) r = .ok p
  passes : checkPtr p 16 .globalDev = none

theorem core_issOf : coreOf (issOf i s c w).cur.wave = coreOf c.wave := rfl

section
variable (h : Ready i s c w k r t pk p)
include h

theorem ctxPeek_refuses (hs : itemStatus (underSeal s c w) t item index false ≠ 0) :
    ctxPeek i (issOf i s c w) (underSeal s c w) d k r item index =
      answer (issOf i s c w) i (underSeal s c w) d (itemStatus (underSeal s c w) t item index false) pk := by
  simp only [ctxPeek, h.target, h.buffer, h.passes]

variable {key : Nat} {v : State} (hs : itemStatus (underSeal s c w) t item index false = 0) (hk : KeyRead i s c w p item key v)
include hs hk

/-- Of an item but MEM and LOCAL, its data or a status. -/
theorem ctxPeek_item (h0 : item ≠ 0x30) (h1 : item ≠ 0x31) :
    ctxPeek i (issOf i s c w) (underSeal s c w) d k r item index =
      match peekItem v (coreOf c.wave) t item index key with
      | .error n => answer (issOf i s c w) i v d n pk
      | .ok (bs, pz) => peekAnswer (issOf i s c w) i v d pk (dataAt p item) bs (if pz then 6 else 0) := by
  simp only [ctxPeek, h.target, h.buffer, h.passes, hs, itemKey_reads hk, beq_iff_eq, h0, h1, if_false]
  rfl

theorem ctxPeek_mem {x u : State} {bs : List Byte} {pz : Bool} (h0 : item = 0x30)
    (hx : memCheck v (coreOf c.wave) t pR (runsOf (BitVec.ofNat 64 key) index) = .ok x)
    (hu : memRead x (coreOf c.wave) t (runsOf (BitVec.ofNat 64 key) index) = .ok (bs, pz) u) :
    ctxPeek i (issOf i s c w) (underSeal s c w) d k r item index =
      peekAnswer (issOf i s c w) i u d pk (p + 16) bs (if pz then 6 else 0) := by
  have h0 : (item == 0x30) = true := beq_iff_eq.2 h0
  simp only [ctxPeek, h.target, h.buffer, h.passes, hs, itemKey_reads hk, h0, if_true, core_issOf, hx, hu]

theorem ctxPeek_local (h1 : item = 0x31) (hg : key / 0x100000000 < 256)
    (hf : localFault v (key / 0x100000000) t (key % 0x100000000) index = none) :
    ctxPeek i (issOf i s c w) (underSeal s c w) d k r item index =
      peekAnswer (issOf i s c w) i (touchRun v (key / 0x100000000) t (key % 0x100000000) index) d pk (p + 16)
        (localRun v (key / 0x100000000) t (key % 0x100000000) index)
        (if localPoisons v (key / 0x100000000) t (key % 0x100000000) index then 6 else 0) := by
  have h0 : (item == 0x30) = false := by simp [h1]
  have h1 : (item == 0x31) = true := beq_iff_eq.2 h1
  have hg : ¬ 256 ≤ key / 0x100000000 := by omega
  simp only [ctxPeek, h.target, h.buffer, h.passes, hs, itemKey_reads hk, h0, h1, hg, Bool.false_eq_true, if_false, if_true, hf]

end

end

/-! ### CTXPOKE -/

section
variable {i : Instr} {d k r : BitVec 8} {item index : Nat} {s : State} {c : Cur} {w : Wave} {t : Nat} {pk : Bool} {p : Word64}
  (h : Ready i s c w k r t pk p)
include h

theorem ctxPoke_refuses (hs : itemStatus (underSeal s c w) t item index true ≠ 0) :
    ctxPoke i (issOf i s c w) (underSeal s c w) d k r item index =
      answer (issOf i s c w) i (underSeal s c w) d (itemStatus (underSeal s c w) t item index true) pk := by
  simp only [ctxPoke, h.target, h.buffer, h.passes]

variable {key : Nat} {v : State} (hs : itemStatus (underSeal s c w) t item index true = 0) (hk : KeyRead i s c w p item key v)
include hs hk

/-- An item of no bytes is none of the context's. -/
theorem ctxPoke_empty (hn : pokeSize v t item index = 0) :
    ctxPoke i (issOf i s c w) (underSeal s c w) d k r item index = answer (issOf i s c w) i v d 3 pk := by
  simp only [ctxPoke, h.target, h.buffer, h.passes, hs, itemKey_reads hk, hn, beq_self_eq_true, if_true]

variable {bs : List Byte} {pb : Bool} {u : State} (hn : pokeSize v t item index ≠ 0)
  (hr : bufRead v (whoOf c.wave (opened s c w)) (runsOf (dataAt p item) (pokeSize v t item index)) = .ok (bs, pb) u)
  (ho : ownStop (issOf i s c w) v true false (dataAt p item) (pokeSize v t item index) = none)
  (ha : (pb && itemAddress item) = false)
include hn hr ho ha

/-- An item but OBS, MEM and LOCAL is set, or refuses its bytes. -/
theorem ctxPoke_item (h0 : item ≠ 0x30) (h1 : item ≠ 0x31) (h5 : item ≠ 0x05) :
    ctxPoke i (issOf i s c w) (underSeal s c w) d k r item index = match pokeItem u t item index bs with
      | .error e => answer (issOf i s c w) i u d e (pk || pb)
      | .ok f => sealedEffect (issOf i s c w) i u (fun s => setStatus (issOf i s c w) (f s) d 0 (pk || pb)) := by
  simp only [ctxPoke, h.target, h.buffer, h.passes, hs, itemKey_reads hk, beq_iff_eq, hn, readBuffer_reads hr ho, ha, h0, h1, h5,
    Bool.false_eq_true, if_false]
  rfl

theorem ctxPoke_badObs (h5 : item = 0x05) (hb : obsOk bs = false) :
    ctxPoke i (issOf i s c w) (underSeal s c w) d k r item index = answer (issOf i s c w) i u d 5 (pk || pb) := by
  have h0 : (item == 0x30) = false := by simp [h5]
  have h1 : (item == 0x31) = false := by simp [h5]
  have h5 : (item == 0x05) = true := beq_iff_eq.2 h5
  simp only [ctxPoke, h.target, h.buffer, h.passes, hs, itemKey_reads hk, beq_iff_eq, hn, readBuffer_reads hr ho, ha, h0, h1, h5,
    hb, Bool.false_eq_true, Bool.not_false, if_false, if_true]

/-- The buffers of the observation unit that a context has on. -/
def obsOn (s : State) (t : Nat) : BitVec 2 := match s.ctx? t with | some q => q.obsCtl | none => 0

/-- An observation configuration is set once both headers are written. -/
theorem ctxPoke_obs {x y : State} (h5 : item = 0x05) (hb : obsOk bs = true)
    (hx : alongside (underSeal s c w) (setObs u t (some w.ctx) bs) (fun s =>
      obsHeader s t (coreOf c.wave) true (BitVec.ofNat 64 (fieldAt bs 0 8)) (fieldAt bs 20 1)) = .ok () x)
    (hy : alongside (underSeal s c w) x (fun s =>
      obsHeader s t (coreOf c.wave) false (BitVec.ofNat 64 (fieldAt bs 8 8)) (fieldAt bs 21 1)) = .ok () y) :
    ctxPoke i (issOf i s c w) (underSeal s c w) d k r item index =
      sealedEffect (issOf i s c w) i y (fun s => setStatus (issOf i s c w)
        ((setObs s t (some w.ctx) bs).updCtx t (fun q => { q with obsCtl := obsOn y t })) d 0 (pk || pb)) := by
  have h0 : (item == 0x30) = false := by simp [h5]
  have h1 : (item == 0x31) = false := by simp [h5]
  have h5 : (item == 0x05) = true := beq_iff_eq.2 h5
  simp only [ctxPoke, h.target, h.buffer, h.passes, hs, itemKey_reads hk, beq_iff_eq, hn, readBuffer_reads hr ho, ha, h0, h1, h5,
    hb, core_issOf, issOf_ctx, hx, hy, Bool.false_eq_true, Bool.not_true, if_false, if_true, obsOn]
  rfl

theorem ctxPoke_mem {x y : State} (h0 : item = 0x30)
    (hx : memCheck u (coreOf c.wave) t pW (runsOf (BitVec.ofNat 64 key) index) = .ok x)
    (hy : alongside (underSeal s c w) x (fun s =>
      memWrite s (coreOf c.wave) t bs (runsOf (BitVec.ofNat 64 key) index)) = .ok () y) :
    ctxPoke i (issOf i s c w) (underSeal s c w) d k r item index = answer (issOf i s c w) i y d 0 (pk || pb) := by
  have h0 : (item == 0x30) = true := beq_iff_eq.2 h0
  simp only [ctxPoke, h.target, h.buffer, h.passes, hs, itemKey_reads hk, beq_iff_eq, hn, readBuffer_reads hr ho, ha, h0,
    core_issOf, hx, hy, Bool.false_eq_true, if_false, if_true]

section
variable (h1 : item = 0x31)
include h1

/-- LOCAL bytes of a core that is none. -/
theorem ctxPoke_noCore (hg : 256 ≤ key / 0x100000000) :
    ctxPoke i (issOf i s c w) (underSeal s c w) d k r item index = answer (issOf i s c w) i u d 3 (pk || pb) := by
  have h0 : (item == 0x30) = false := by simp [h1]
  have h1 : (item == 0x31) = true := beq_iff_eq.2 h1
  simp only [ctxPoke, h.target, h.buffer, h.passes, hs, itemKey_reads hk, beq_iff_eq, hn, readBuffer_reads hr ho, ha, h0, h1, hg,
    Bool.false_eq_true, if_false, if_true]

theorem ctxPoke_local (hg : key / 0x100000000 < 256)
    (hf : localFault u (key / 0x100000000) t (key % 0x100000000) index = none) :
    ctxPoke i (issOf i s c w) (underSeal s c w) d k r item index =
      answer (issOf i s c w) i (localPut u (key / 0x100000000) t (key % 0x100000000) bs) d 0 (pk || pb) := by
  have h0 : (item == 0x30) = false := by simp [h1]
  have h1 : (item == 0x31) = true := beq_iff_eq.2 h1
  have hg : ¬ 256 ≤ key / 0x100000000 := by omega
  simp only [ctxPoke, h.target, h.buffer, h.passes, hs, itemKey_reads hk, beq_iff_eq, hn, readBuffer_reads hr ho, ha, h0, h1, hg,
    hf, Bool.false_eq_true, if_false, if_true]

end

end

/-! ### The statement -/

section
variable {ctl : Ctl} {d k r item : BitVec 8} {index : BitVec 24} {s : State} {c : Cur} {w : Wave} {t : Nat} {pk : Bool}
  {p : Word64}

theorem exec_ctxpeek : exec (.ctxpeek ctl d k r item index) s = issueSealed (.ctxpeek ctl d k r item index) s (fun x s =>
    ctxPeek (.ctxpeek ctl d k r item index) x s d k r item.toNat index.toNat) := rfl

theorem exec_ctxpoke : exec (.ctxpoke ctl d k r item index) s = issueSealed (.ctxpoke ctl d k r item index) s (fun x s =>
    ctxPoke (.ctxpoke ctl d k r item index) x s d k r item.toNat index.toNat) := rfl

end

/-- Settles O44: each item by what peeking or poking it comes to. -/
theorem peeksAndPokes : Obligations.PeeksAndPokes := by
  intro ctl d k r item index s c w t pk p
  refine ⟨fun ready => ?peek, fun ready => ?poke⟩
  case peek =>
    obtain ⟨hb, ht, hp, hc⟩ := ready
    have h : Ready (.ctxpeek ctl d k r item index) s c w k r t pk p := ⟨hb, ht, hp, hc⟩
    refine ⟨fun hs => answers_answer hb exec_ctxpeek (ctxPeek_refuses h hs), fun key v e hs hk h0 h1 he => ?status,
      fun key v bs pz at_ u u' hs hk hd hw ho => ?data⟩
    case status => exact answers_answer hb exec_ctxpeek ((ctxPeek_item h hs hk h0 h1).trans (by rw [he]))
    case data =>
      refine answers_peekAnswer hb exec_ctxpeek ?_ hw ho
      rcases hd with ⟨h0, h1, hd, rfl, rfl⟩ | ⟨h0, rfl, x, hx, hu⟩ | ⟨h1, rfl, rfl, hg, hf, rfl, rfl⟩
      · exact (ctxPeek_item h hs hk h0 h1).trans (by rw [hd])
      · exact ctxPeek_mem h hs hk h0 hx hu
      · exact ctxPeek_local h hs hk h1 hg hf
  case poke =>
    obtain ⟨hb, ht, hp, hc⟩ := ready
    have h : Ready (.ctxpoke ctl d k r item index) s c w k r t pk p := ⟨hb, ht, hp, hc⟩
    refine ⟨fun hs => answers_answer hb exec_ctxpoke (ctxPoke_refuses h hs), fun key v bs pb u hs hk =>
      ⟨fun hn => answers_answer hb exec_ctxpoke (ctxPoke_empty h hs hk hn), fun hn hr ho ha => ?set⟩⟩
    refine ⟨fun e h0 h1 h5 he => ?_, fun f h0 h1 h5 hf => ?_,
      fun h5 hx => answers_answer hb exec_ctxpoke (ctxPoke_badObs h hs hk hn hr ho ha h5 hx),
      fun x y h5 hz hx hy => answers_setStatus hb exec_ctxpoke (ctxPoke_obs h hs hk hn hr ho ha h5 hz hx hy) (.refl _),
      fun x y h0 hx hy => answers_answer hb exec_ctxpoke (ctxPoke_mem h hs hk hn hr ho ha h0 hx hy),
      fun h1 hg => answers_answer hb exec_ctxpoke (ctxPoke_noCore h hs hk hn hr ho ha h1 hg),
      fun h1 hg hf => answers_answer hb exec_ctxpoke (ctxPoke_local h hs hk hn hr ho ha h1 hg hf)⟩
    · exact answers_answer hb exec_ctxpoke ((ctxPoke_item h hs hk hn hr ho ha h0 h1 h5).trans (by rw [he]))
    · exact answers_setStatus hb exec_ctxpoke ((ctxPoke_item h hs hk hn hr ho ha h0 h1 h5).trans (by rw [hf])) (.refl _)

end Sys2Proof.Machine

/-!
PROOF. CADD to a range whose partials lie in a wave area (O56 fails there).

What local space holds in a wave area is what the wave's state means (R148, R152): a read of it shows the deferral stack, and an
access of the wave to it changes the stack. A contribution writes the partial's bytes in the frame past the areas, so that the
partial still reads as the area shows it, and not as the contribution has made it.
-/

namespace Sys2Proof.Machine

open Claim

/-! ### The state: wave 0 of context 1 keeps its deferral stack where slot 0 keeps its partials -/

/-- A range of 32 elements with its partials from offset 0x1000 of local space on. -/
def areaRange : CRange := { base := 0, len := 128, op := .add, poff := 0x1000 }

/-- A wave whose area begins at the same offset, with one deferred thread. -/
def areaWave : Wave := { ctx := 1, width := 1, budget := 8, areas := [(0x1000, 4096)], defer := [⟨1, 0, 0, false, false⟩] }

/-- Core 0 has its carve-out for the context, and has contributed to the slot before. -/
def areaState : State := { State.reset with
  waves := [(0, areaWave)], ctxs := [(1, { cranges := [(0, areaRange)] })],
  cores := [(0, { carve := [(1, [0])], contrib := [(1, 0)] })] }

/-- The wave performs its accesses on core 0. -/
def areaWho : Who := { core := 0, ctx := 1, lease := 0, wave := some 0 }

/-- The line of the range, at its home. -/
def areaXl : Xl := { dev := 0, irrev := false, shared := false, direct := false, ent := none }

/-- One thread adds 1 to element 0. -/
def areaLane : Lane := { tid := 0, ptr := 0, d0 := 1, xl := some areaXl }

def areaMem : Mem := ⟨.neutral, false, false, 0, 0, 0⟩

def areaAccess : Access :=
  { id := 0, path := 0, pc := 0, base := 0, after := 0, instr := .cadd .add areaMem, mask := 1, lanes := [areaLane] }

/-! ### What it comes to -/

/-- No line is combined first: the context maps no page. -/
theorem areaState_combines : combineFirst areaState areaXl.dev areaLane.xl.isNone true = .ok () areaState := by
  have none : rangeHits areaState (lineOf areaXl.dev) = [] := by decide +kernel
  rw [combineFirst, none, combineHits]

/-- The partial of element 0 before the access is the first word of the deferral record. -/
theorem areaState_partial : partialAt areaState 0 1 areaRange 0 = 1 := by decide +kernel

/-- The partial of element 0 where a thread's part of an access leads. -/
def partialAfter : Res Done → Option Word32
  | .ok _ u => some (partialAt u 0 1 areaRange 0)
  | _ => none

/-- It reads the same after. -/
theorem areaState_partialAfter : partialAfter (laneOp areaState areaWho 0 areaAccess areaLane) = some 1 := by decide +kernel

/-- Refutes O56: a CADD of 1 to an element whose partial reads 1 leaves it reading 1, since the wave's deferral stack lies there. -/
theorem not_accessBytes : ¬ Obligations.AccessBytes := by
  rintro ⟨-, performed, -⟩
  obtain ⟨-, -, -, contributes⟩ := performed areaState areaState areaState areaWho 0 areaAccess areaLane areaXl rfl
    areaState_combines
  obtain ⟨u, ⟨y, hy, -, -⟩, -, changed, -⟩ := contributes .add areaMem 0 areaRange rfl (by decide +kernel) (by decide +kernel)
  have kept : partialAt u 0 1 areaRange 0 = 1 := by
    have after := areaState_partialAfter
    rw [hy] at after
    exact Option.some.inj after
  have before : registerCore areaState 0 1 0 areaRange = areaState := if_pos (by decide +kernel)
  have sum : partialAt u 0 1 areaRange 0 = copApply .add (partialAt (registerCore areaState 0 1 0 areaRange) 0 1 areaRange 0)
      (caddValue .add 1) := changed
  rw [kept, before, areaState_partial] at sum
  exact absurd sum (by decide)

end Sys2Proof.Machine

/-!
PROOF. The steps of pins, sweeps, Monarch, Atlas, homes and walks (O46): what acting on conflicts keeps of them, what each step
comes to, and the statement from them.
-/

namespace Sys2Proof.Machine

open Claim

/-! ### What acting on conflicts keeps (R113, R114, R117) -/

/-- Every time of a core's pts is after n. -/
def PtsAfter (n : Nat) (s : State) : Prop := ∀ k ∈ s.cores, ∀ y ∈ k.2.pts, n < y.2

theorem Sp.mem_of_find {α : Type} {m : List (Nat × α)} {k : Nat} {v : α} (h : Sp.find m k = some v) : (k, v) ∈ m := by
  induction m with
  | nil => cases h
  | cons x m ih =>
    unfold Sp.find at h
    split at h
    · next e =>
      subst e
      cases h
      exact List.mem_cons_self
    · exact List.mem_cons_of_mem _ (ih h)

theorem PtsAfter.core {n : Nat} {s : State} (h : PtsAfter n s) (c : Nat) : ∀ y ∈ (s.core c).pts, n < y.2 := by
  cases e : Sp.find s.cores c with
  | none =>
    simp only [State.core, Sp.get, e, Option.getD_none]
    exact fun y hy => absurd hy (by simp)
  | some k =>
    simp only [State.core, Sp.get, e, Option.getD_some]
    exact h _ (Sp.mem_of_find e)

theorem PtsAfter.setCore {n : Nat} {s : State} (h : PtsAfter n s) (c : Nat) {x : Core} (hx : ∀ y ∈ x.pts, n < y.2) :
    PtsAfter n (s.setCore c x) := by
  intro k hk
  rw [State.setCore_cores, Sp.put] at hk
  split at hk
  · exact h k (Sp.mem_erase hk)
  · rcases Sp.mem_insert hk with rfl | hk
    · exact hx
    · exact h k hk

/-- From s to t nothing due later is taken away, the pin grant goes to no other wave, and no time of a pts falls back. -/
structure Settled (s t : State) : Prop where
  timers : s.sch.timers ⊆ t.sch.timers
  holder : t.pins.holder = s.pins.holder ∨ t.pins.holder = none
  pts    : ∀ n, PtsAfter n s → PtsAfter n t

namespace Settled

theorem refl (s : State) : Settled s s := ⟨List.Subset.refl _, .inl rfl, fun _ h => h⟩

theorem trans {s t u : State} (h : Settled s t) (k : Settled t u) : Settled s u :=
  ⟨List.Subset.trans h.timers k.timers, k.holder.elim (fun e => h.holder.imp e.trans e.trans) .inr, fun n p => k.pts n (h.pts n p)⟩

theorem of_later {s t : State} (h : Later s t) (k : t.pins.holder = s.pins.holder ∨ t.pins.holder = none) : Settled s t :=
  ⟨h.timers, k, fun n p => by rw [PtsAfter, h.cores]; exact p⟩

theorem foldl {α : Type} {f : State → α → State} (h : ∀ s a, Settled s (f s a)) (l : List α) (s : State) :
    Settled s (l.foldl f s) := by
  induction l generalizing s with
  | nil => exact refl s
  | cons a l ih => exact (h s a).trans (ih _)

theorem updWave (s : State) (w : Nat) (f : Wave → Wave) : Settled s (s.updWave w f) :=
  ⟨by simp, .inl (by simp), fun n p => by rw [PtsAfter, State.updWave_cores]; exact p⟩

theorem ringPut (s : State) (ring : Option Nat) (r : FaultRec) : Settled s (ringPut s ring r) := by
  refine of_later (ringPut_later s ring r) (.inl ?_)
  unfold Machine.ringPut
  split
  · rfl
  · split
    · rfl
    · split <;> rfl

theorem ensureSoon_pins (s : State) (e : Instr) : (s.ensureSoon e).pins = s.pins := by
  unfold State.ensureSoon
  split <;> rfl

end Settled

/-- A wave that has the grant gives it up. -/
theorem unpin_holder {s : State} {w : Nat} (h : s.pins.holder = some w ∨ s.pins.holder = none) :
    (unpin s w).pins.holder = none := by
  unfold unpin
  rcases h with h | h
  · rw [if_neg (by simp [h])]
    dsimp only
    split
    · rfl
    · rw [Settled.ensureSoon_pins]
  · rw [if_pos (by simp [h]), h]

namespace Settled

theorem unpin (s : State) (w : Nat) : Settled s (unpin s w) := by
  refine of_later (unpin_later s w) ?_
  by_cases h : s.pins.holder = some w
  · exact .inr (unpin_holder (.inl h))
  · refine .inl ?_
    unfold Machine.unpin
    rw [if_pos (by simpa using h)]

theorem withdrawPin (s : State) (w : Nat) : Settled s (withdrawPin s w) :=
  of_later (withdrawPin_later s w) (.inl (by simp [Machine.withdrawPin]))

/-- TAKING A FAULT may end the grant of its wave. -/
theorem takeFault (s : State) (w i : Nat) (pc base next : Word64) (k : ParkKind) (f : FaultInfo) :
    Settled s (takeFault s w i pc base next k f) := by
  unfold Machine.takeFault
  split
  · exact refl s
  · split
    · exact refl s
    · have pins (t : State) (y : Wave) : Settled t (if (y.settle.state == .running) = true then t else
          Machine.withdrawPin (Machine.unpin t w) w) := by
        split
        · exact refl t
        · exact (unpin t w).trans (withdrawPin _ w)
      dsimp only
      refine .trans ?_ (ringPut _ _ _)
      refine .trans (.trans ?_ (pins _ _)) (of_later (dropLatch_later _ w) (.inl rfl))
      exact ⟨List.Subset.refl _, .inl rfl, fun _ h => h⟩

theorem undoWindow (s : State) (wid : Nat) (n : Window) : Settled s (undoWindow s wid n) := by
  unfold Machine.undoWindow
  split
  · exact refl s
  · dsimp only
    refine .trans ?_ (of_later (dropLatch_later _ _) (.inl rfl))
    refine .trans ?_ (unpin _ wid)
    exact ⟨List.Subset.refl _, .inl rfl, fun n h => PtsAfter.setCore (s := s.setWave wid _) h _ (h.core _)⟩

theorem rollback (s : State) (wid : Nat) (counted : Bool) : Settled s (rollback s wid counted) := by
  unfold Machine.rollback
  split
  · exact refl s
  next w _ =>
    split
    · exact refl s
    next n _ =>
      refine .trans (undoWindow s wid n) ?_
      dsimp only
      split
      · exact refl _
      · generalize (if (w.keyPc == n.pc && w.keyPath == n.path && w.count != 0) = true then w.count + 1 else 1) = c
        split
        · refine .trans ?_ (takeFault _ _ _ _ _ _ _ _)
          exact updWave _ wid _
        · exact updWave _ wid _

theorem settleHits (s : State) : Settled s (settleHits s) := by
  have quiet : Settled s { s with sch := { s.sch with hits := [] } } := ⟨List.Subset.refl _, .inl rfl, fun _ h => h⟩
  unfold Machine.settleHits
  dsimp only
  split
  · exact quiet
  · exact quiet.trans (foldl (fun s w => rollback s w true) _ _)

end Settled

/-! ### Pins (R116 to R118) -/

section
variable {s : State} {wid n : Nat} {w : Wave}

theorem grantPin_holder {q : List Nat} (hw : s.wave? wid = some w) (hr : w.state = .running) (hh : s.pins.holder = none)
    (hq : s.pins.queue = wid :: q) : (grantPin s wid).pins.holder = some wid := by
  unfold grantPin
  simp [hh, hq, hw, hr]

theorem withdrawPin_wave (hw : s.wave? wid = some w) : (withdrawPin s wid).wave? wid = some { w with pinReq := none } :=
  State.wave?_updWave (s := { s with pins := _ }) _ hw

/-- A request that is made is queued. -/
theorem requestPin_queued (s : State) (wid : Nat) : wid ∈ (requestPin s wid).pins.queue := by
  unfold requestPin
  split
  · next h => simpa using h
  · simp [State.fresh]

/-- It counts no rollback. -/
theorem requestPin_wave (hw : s.wave? wid = some w) :
    ((requestPin s wid).wave? wid).map (·.count) = some w.count := by
  unfold requestPin
  split
  · rw [hw]
    rfl
  · have asked := State.wave?_updWave (s := { s with sch := s.fresh.2.sch, pins := { s.pins with queue := s.pins.queue ++ [wid] } })
      (fun x => { x with pinReq := some s.fresh.1 }) hw
    exact congrArg (Option.map (·.count)) asked

/-- Before the 64th, a rollback counted is no more than that. -/
theorem countRollback_below (hw : s.wave? wid = some w) (hc : w.count + 1 < 64) :
    countRollback s wid = s.setWave wid { w with count := w.count + 1 } := by
  unfold countRollback
  rw [hw]
  exact if_neg (by simp; omega)

theorem execPinGrantTimeout_asks (hw : s.wave? wid = some w) (hp : w.pinReq = some n) (hq : wid ∈ s.pins.queue)
    (hc : w.count + 1 < 64) : Goes (.pinGrantTimeout wid n) s fun t =>
      (t.wave? wid).map (·.count) = some (w.count + 1) ∧ wid ∈ t.pins.queue := by
  have counted := countRollback_below (withdrawPin_wave hw) hc
  have wave : (countRollback (withdrawPin s wid) wid).wave? wid = some { w with pinReq := none, count := w.count + 1 } := by
    rw [counted, State.wave?_setWave]
  refine ⟨requestPin (countRollback (withdrawPin s wid) wid) wid, ?_, requestPin_wave wave, requestPin_queued _ _⟩
  show execPinGrantTimeout wid n s = _
  unfold execPinGrantTimeout
  rw [hw]
  dsimp only
  rw [if_pos (by simp [hp, hq]), wave]
  dsimp only
  rw [if_pos hc]

theorem execPinTimeout_ends (hh : s.pins.holder = some wid) (ht : s.pins.since + 4096 ≤ s.clk.tick) :
    Goes (.pinTimeout wid n) s fun t => t.pins.holder = none := by
  refine ⟨_, (show execPinTimeout wid n s = _ from if_pos (by simp [hh, ht])), unpin_holder ?_⟩
  split
  · exact (Settled.rollback s wid true).holder.imp_left (·.trans hh)
  · exact .inl hh

end

/-! ### Ticks and sweeps (R44, R73, R79, R99) -/

/-- No pts lags behind the time. -/
theorem tickPts_after (s : State) : PtsAfter s.clk.tick (tickPts s) := by
  unfold tickPts
  refine (Settled.foldl (fun s w => Settled.rollback s w true) _ _).pts _ fun k hk y hy => ?_
  obtain ⟨x, -, rfl⟩ := List.mem_map.1 hk
  simpa using (List.mem_filter.1 hy).2

theorem execTimestampSweep_raises (s : State) : Goes .timestampSweep s fun t => ∀ l ∈ t.lines,
    (s.frame (l.1 / 512)).kind = .primary ∨ (s.frame (l.1 / 512)).kind = .replica ∨ (s.frame (l.1 / 512)).kind = .forward →
      s.clk.tick - 0x4000 ≤ l.2.wts ∧ s.clk.tick - 0x4000 ≤ l.2.rts := by
  refine ⟨_, rfl, fun l hl hk => ?_⟩
  obtain ⟨x, -, rfl⟩ := List.mem_map.1 hl
  dsimp only at hk ⊢
  split
  · exact ⟨Nat.le_max_right _ _, Nat.le_max_right _ _⟩
  · next hs =>
    rw [if_neg hs] at hk
    rcases hk with hk | hk | hk <;> exact absurd (by simp [hk]) hs

/-- What a change of every listed value makes of what is listed at a key. -/
theorem Sp.find_map {α : Type} (f : α → α) (m : List (Nat × α)) (k : Nat) :
    Sp.find (m.map fun x => (x.1, f x.2)) k = (Sp.find m k).map f := by
  induction m with
  | nil => rfl
  | cons x m ih =>
    by_cases h : x.1 = k
    · simp [Sp.find, h]
    · simpa [Sp.find, h] using ih

theorem execBucketRefill_fills {s : State} {ctx : Nat} {x : Ctx} {rate depth : Nat} (hx : s.ctx? ctx = some x)
    (hb : x.bucket = some (rate, depth)) : Goes .bucketRefill s fun t =>
      (t.ctx? ctx).map (·.tokens) =
        some (x.tokens.map fun (y : Nat × Int) => (y.1, min (y.2 + (rate : Int)) ((rate * depth : Nat) : Int))) := by
  refine ⟨_, rfl, ?_⟩
  show (Sp.find (s.ctxs.map fun c => (c.1, refill c.2)) ctx).map _ = _
  rw [Sp.find_map, show Sp.find s.ctxs ctx = some x from hx]
  simp [refill, hb]

/-! ### Frames and targets (R51 to R64) -/

theorem endForwarding_frees {s : State} {fk gen : Nat} (hk : (s.frame fk).kind = .forward) (hg : (s.frame fk).gen = gen) :
    ((endForwarding s fk gen).frame fk).kind = .free := by
  unfold endForwarding
  dsimp only
  rw [if_neg (by simp [hk, hg]), freeFrame, State.frame_setFrame]

/-- A translation with no target gets the one that is located. -/
theorem locateEntry_sets {s u : State} {core ctx n : Nat} {e : TlbEntry} {tg : Target} (he : findTlb s core ctx n = some e)
    (ht : e.target = .none) (hl : locate s core ctx e.part e.streamed = .ok tg u) :
    locateEntry s core ctx n = setTarget u core ctx n tg := by
  unfold locateEntry
  rw [he]
  dsimp only
  rw [if_neg (by simp [ht]), hl]

theorem execFill_fills {s u : State} {core ctx part : Nat} {fk : Option AtlasEntry} (ha : s.atlas (core / 32) part = none)
    (hq : quotaDie s ctx ≠ 0) (hf : fill s core ctx part = .ok fk u) : exec (.fill core ctx part) s = .next (settleHits u) := by
  show execFill core ctx part s = _
  unfold execFill
  rw [if_neg (by simp [ha, hq]), hf]

theorem execEviction_evicts {s : State} {die part : Nat} (hh : heldPart s die part = false) (hm : moving s die part = false) :
    exec (.eviction die part none) s = .next (evict s die part) :=
  show execEviction die part none s = _ from if_neg (by simp [hh, hm])

theorem execEviction_drops {s : State} {core die part k : Nat} (hh : heldPart s die part = false)
    (hk : replicaFrame s core part = some k) (hd : k / 8192 = die) :
    exec (.eviction die part (some core)) s = .next (dropReplica s k) := by
  show execEviction die part (some core) s = _
  unfold execEviction
  rw [if_neg (by simp [hh])]
  dsimp only
  rw [hk]
  exact if_pos (by simp [hd])

theorem frameArrives_served {s : State} {core ctx n a b g : Nat} {wr : Bool} {e : TlbEntry}
    (he : findTlb s core ctx n = some e) (ht : e.target = .frame a b g) (ha : arrive s a b g = some (a, b, g)) :
    frameArrives s core ctx n wr = countAt s (frameKey a b) core wr := by
  unfold frameArrives
  simp [he, ht, ha]

/-- No translation of a core names a frame. -/
def NamesNot (s : State) (c fk : Nat) : Prop := ∀ e ∈ (s.core c).tlb, ∀ a b g, e.target = .frame a b g → frameKey a b ≠ fk

theorem clearTarget_names {e : TlbEntry} {fk a b g : Nat} (h : (e.clearTarget fk).target = .frame a b g) :
    frameKey a b ≠ fk := by
  unfold TlbEntry.clearTarget at h
  split at h
  · next a' b' _ ht =>
    split at h
    · cases h
    · next hn =>
      rw [ht] at h
      cases h
      simpa using hn
  · next hn => exact absurd h (hn a b g)

/-- After a notice no core of the list has a translation that names the frame. -/
theorem clearTargets_names (fk : Nat) (cs : List Nat) (s : State) (c : Nat) (h : c ∈ cs ∨ NamesNot s c fk) :
    NamesNot (clearTargets s fk cs) c fk := by
  induction cs generalizing s with
  | nil => exact h.resolve_left (by simp)
  | cons d cs ih =>
    unfold clearTargets
    refine ih _ ?_
    by_cases e : c = d
    · refine .inr fun x hx a b g ht => ?_
      have cleared : x ∈ ((s.setCore d { s.core d with tlb := (s.core d).tlb.map fun e => e.clearTarget fk }).core c).tlb := hx
      rw [e, State.core_setCore] at cleared
      obtain ⟨y, -, rfl⟩ := List.mem_map.1 cleared
      exact clearTarget_names ht
    · refine h.imp (fun hc => (List.mem_cons.1 hc).resolve_left e) fun hn x hx => hn x ?_
      have same : x ∈ ((s.setCore d { s.core d with tlb := (s.core d).tlb.map fun e => e.clearTarget fk }).core c).tlb := hx
      rwa [core_setCore_ne _ _ e] at same

/-! ### Walks (R35, R36) -/

section
variable {s : State} {core ctx n m gen : Nat}

/-- A walk whose grant version is out of date is due again at the version of now. -/
theorem endWalk_restarts (hv : versionOf s ctx ≠ m) : ∃ d,
    Timer.mk false d (.pageWalk core ctx n (versionOf s ctx) (gen + 1)) ∈ (endWalk s core ctx n m gen).sch.timers := by
  have version (f : Ctx → Ctx) (hf : ∀ x, (f x).gver = x.gver) : versionOf (s.updCtx ctx f) ctx = versionOf s ctx := by
    unfold versionOf
    cases h : s.ctx? ctx with
    | none => simp [State.updCtx, h]
    | some x => simp [State.updCtx, h, hf]
  unfold endWalk
  rw [if_pos (by simpa using Ne.symm hv)]
  dsimp only
  generalize hz : (if (gen + 1 == 8) = true then s.updCtx ctx (fun x => { x with hold := true }) else s) = z
  have same : versionOf z ctx = versionOf s ctx := by
    subst hz
    split
    · exact version _ fun _ => rfl
    · rfl
  rw [same]
  exact Later.mem_later z _

theorem findTlb_installTlb (s : State) (core : Nat) (e : TlbEntry) :
    findTlb (installTlb s core e) core e.ctx e.vpart = some { e with l1 := true } := by
  simp [findTlb, installTlb]

theorem walk_ctx {p : Word64} {want : BitVec 3} {e : TlbEntry} (h : walk s ctx p want = .ok e) : e.ctx = ctx := by
  unfold walk at h
  split at h
  · cases h
  · dsimp only at h
    split at h
    · cases h
    · split at h
      · cases h
      · split at h
        · cases h
        · cases h
          rfl

/-- The state in which a walk that ends is made, with the hold of the context cleared where no other walk has it. -/
theorem endWalk_installs {u y z : State} {e : TlbEntry} {tg : Target}
    (hz : (if 8 ≤ gen ∧ walkHolds s ctx = false then s.updCtx ctx fun x => { x with hold := false } else s) = z)
    (hw : walk z ctx (BitVec.ofNat 64 n) 0 = .ok e) (hy : walked z ctx (BitVec.ofNat 64 n) = some y) (ht : e.target = .none)
    (hl : locate (installTlb y core e) core ctx e.part e.streamed = .ok tg u) :
    endWalk s core ctx n (versionOf s ctx) gen = setTarget u core ctx e.vpart tg := by
  have found : findTlb (installTlb y core e) core ctx e.vpart = some { e with l1 := true } :=
    walk_ctx hw ▸ findTlb_installTlb y core e
  have cleared : (if decide (8 ≤ gen) && !walkHolds s ctx then s.updCtx ctx fun x => { x with hold := false } else s) = z := by
    simpa using hz
  unfold endWalk
  rw [if_neg (by simp)]
  dsimp only
  rw [cleared, hw, hy]
  exact locateEntry_sets found ht hl

end

/-! ### Homes and holders (R83 to R89) -/

section
variable {s u : State} {line die part : Nat}

theorem peerOf_die (hd : die < 8) : peerOf s die = none := by
  unfold peerOf
  rw [if_neg]
  simp [show ¬ 8 ≤ die by omega]

theorem execHomeRead_installs {fk : Nat} {r : LineRec} {b : Supply} (hd : die < 8) (hp : primaryLine s die line = some (fk, r))
    (hv : r.valid = false) (hb : homeReadOp s line die = .ok b u) :
    exec (.homeRead line die) s = .next (settleHits (installLine u die fk line b)) := by
  show execHomeRead line die s = _
  simp [execHomeRead, askedBy, peerOf_die hd, hp, hv, hb]

theorem execHomeReadForOwnership_installs {fk : Nat} {r : LineRec} {b : Supply} (hd : die < 8)
    (hp : primaryLine s die line = some (fk, r)) (hv : r.valid = false) (hb : homeRfoOp s line die = .ok b u) :
    exec (.homeReadForOwnership line die) s = .next (settleHits (installLine u die fk line b)) := by
  show execHomeReadForOwnership line die s = _
  simp [execHomeReadForOwnership, askedBy, peerOf_die hd, hp, hv, hb]

theorem execHomeUpgrade_upgrades {fk : Nat} {r : LineRec} {b : Supply} (hd : die < 8)
    (hp : primaryLine s die line = some (fk, r)) (hv : r.valid = true) (hs : r.state = .s ∨ r.state = .o)
    (hb : homeRfoOp s line die = .ok b u) : exec (.homeUpgrade line die) s =
      .next (settleHits (u.setLine (flKey fk (line % 512)) (upgraded u (line * 128) r b.dirty))) := by
  show execHomeUpgrade line die s = _
  rcases hs with hs | hs <;> simp [execHomeUpgrade, askedBy, peerOf_die hd, hp, hv, hs, hb]

/-- A die with the right to write a line gives it up and stays its owner. -/
theorem forwardRead_owned {k : Nat} {r : LineRec} (hl : dieLine s die line = some (k, r)) (hs : r.state = .m ∨ r.state = .o) :
    forwardRead s line die =
      (s.setLine k { r with state := .o }).setDir line { s.dirOf line with state := .owned, owner := die } := by
  rcases hs with hs | hs <;> simp [forwardRead, hl, hs]

theorem State.dirOf_setDir (s : State) (l : Nat) (d : DirWord) : (s.setDir l d).dirOf l = d :=
  Sp.get_put _ _ _ _

theorem execWriteBack_gives {k : Nat} {r : LineRec} {bs : List Byte} (hd : die < 8) (hl : dieLine s die line = some (k, r))
    (hs : r.state = .m ∨ r.state = .o) : exec (.writeBack line ⟨die, bs⟩) s = .next (giveUp s die line) := by
  show execWriteBack line ⟨die, bs⟩ s = _
  rcases hs with hs | hs <;> simp [execWriteBack, peerOf_die hd, hl, hs]

theorem execForwardedRead_owned {k : Nat} {r : LineRec} (hl : dieLine s die line = some (k, r))
    (hs : r.state = .m ∨ r.state = .o) : Goes (.forwardedRead line die) s fun t =>
      (t.line k).state = .o ∧ (t.dirOf line).state = .owned ∧ (t.dirOf line).owner = die := by
  refine ⟨_, rfl, ?_⟩
  rw [forwardRead_owned hl hs]
  refine ⟨congrArg LineRec.state (State.line_setLine s k _), ?_⟩
  rw [State.dirOf_setDir]
  exact ⟨rfl, rfl⟩

theorem execForwardedReadForOwnership_recalls {k : Nat} {r : LineRec} (hl : dieLine s die line = some (k, r))
    (hs : r.state = .m ∨ r.state = .o) (hr : recallFrom s line die = .ok () u) :
    exec (.forwardedReadForOwnership line die) s = .next (settleHits u) := by
  show execForwardedReadForOwnership line die s = _
  rcases hs with hs | hs <;> simp [execForwardedReadForOwnership, hl, hs, hr, retried]

theorem execInvalidation_recalls {k : Nat} {r : LineRec} (hd : die < 8) (hl : dieLine s die line = some (k, r))
    (hs : r.state = .s ∨ r.state = .e) (hr : recallFrom s line die = .ok () u) :
    exec (.invalidation line die) s = .next (settleHits u) := by
  show execInvalidation line die s = _
  rcases hs with hs | hs <;> simp [execInvalidation, peerOf_die hd, hl, hs, hr, retried]

theorem execCleanEvictionNotice_gives {k n : Nat} {r : LineRec} (hd : die < 8) (hl : dieLine s die line = some (k, r))
    (hs : r.state = .s ∨ r.state = .e) :
    exec (.cleanEvictionNotice line die n) s = .next (raiseHome (giveUp s die line) (line * 128) n) := by
  show execCleanEvictionNotice line die n s = _
  rcases hs with hs | hs <;> simp [execCleanEvictionNotice, cleanNotice, peerOf_die hd, hl, hs]

theorem execHolderRegistration_registers (hd : die < 8) (hr : registerHolder s part die = .ok () u) :
    exec (.holderRegistration part die) s = .next (settleHits u) := by
  show execHolderRegistration part die s = _
  simp [execHolderRegistration, peerOf_die hd, hr, retried]

theorem execBackInvalidation_drops (hd : die < 8) (hr : backInvalidate s die part = .ok () u) :
    exec (.backInvalidation part die) s = .next (settleHits u) := by
  show execBackInvalidation part die s = _
  simp [execBackInvalidation, peerOf_die hd, hr, retried]

end

/-! ### Combines (R97) -/

section
variable {s v : State} {ctx n line : Nat}

theorem combineStep_unsealed (hs : sealsLine s ctx n line = false) (hl : logShort s ctx (combineLogs s ctx n line) = false)
    (hc : combineAt s ctx n line = .ok () v) : combineStep s ctx n line = v := by
  unfold combineStep withLines
  simp [hs, hl, hc, retried]

theorem combineStep_sealed (hs : sealsLine s ctx n line = true) (hw : sealWaits s ctx = false)
    (hc : combineAt (takeSeal s ctx) ctx n line true false true = .ok () v) : combineStep s ctx n line = v := by
  unfold combineStep
  simp [hs, hw, hc, retried]

end

/-! ### The statement -/

/-- A frame forgotten in all the targets of a die's cores. -/
theorem execWrapNotice_clears {s : State} {core n k : Nat} (hk : k < 32) : Goes (.wrapNotice core n) s fun t =>
    NamesNot t (core / 32 * 32 + k) (frameKey core n) :=
  ⟨_, rfl, clearTargets_names _ _ s _ (.inl (by simpa [coresOf] using hk))⟩

theorem execPageWalk_restarts {s : State} {core ctx n m gen : Nat} (hv : versionOf s ctx ≠ m) : ∃ d,
    Goes (.pageWalk core ctx n m gen) s fun t =>
      Timer.mk false d (.pageWalk core ctx n (versionOf s ctx) (gen + 1)) ∈ t.sch.timers := by
  obtain ⟨d, h⟩ := endWalk_restarts (core := core) (n := n) (gen := gen) hv
  exact ⟨d, _, rfl, (Settled.settleHits _).timers h⟩

/-- Settles O46: a clause for each step, from what its operation comes to; where the step acts on conflicts last, none is left (Leads),
or what is claimed stays through them (Settled). -/
theorem pinAndCoherenceSteps : Obligations.PinAndCoherenceSteps := by
  intro s u v wid core ctx part die line n m gen wr
  refine ⟨fun w q hw hr hh hq => ⟨_, rfl, grantPin_holder hw hr hh hq⟩,
    fun w hw hp hq hc => execPinGrantTimeout_asks hw hp hq hc,
    execPinTimeout_ends,
    ⟨_, rfl, tickPts_after s⟩,
    ⟨_, rfl, fun f => Nat.le_max_right _ _⟩,
    execTimestampSweep_raises s,
    fun x rate depth hx hb => execBucketRefill_fills hx hb,
    ⟨_, rfl, rfl⟩,
    fun hk hg => ⟨_, rfl, endForwarding_frees hk hg⟩,
    fun e tg he ht hl => leads_settleHits rfl (locateEntry_sets he ht hl),
    fun ha hq fk hf => leads_settleHits (execFill_fills ha hq hf) rfl,
    fun hh hm => ⟨_, execEviction_evicts hh hm, rfl⟩,
    fun k hh hk hd => ⟨_, execEviction_drops hh hk hd, rfl⟩,
    fun e a b g he ht ha => leads_settleHits rfl (frameArrives_served he ht ha),
    ⟨_, rfl, fun h hh => ?_⟩,
    fun k hk => execWrapNotice_clears hk,
    execPageWalk_restarts,
    fun e y tg hw hy ht hl => leads_settleHits rfl (endWalk_installs rfl hw hy ht hl),
    fun fk r b hd hp hv => ⟨fun hb => leads_settleHits (execHomeRead_installs hd hp hv hb) rfl,
      fun hb => leads_settleHits (execHomeReadForOwnership_installs hd hp hv hb) rfl⟩,
    fun fk r b hd hp hv hs hb => leads_settleHits (execHomeUpgrade_upgrades hd hp hv hs hb) rfl,
    fun k r bs hd hl hs => ⟨⟨_, execWriteBack_gives hd hl hs, rfl⟩, execForwardedRead_owned hl hs,
      fun hr => leads_settleHits (execForwardedReadForOwnership_recalls hl hs hr) rfl⟩,
    fun k r hd hl hs => ⟨⟨_, execCleanEvictionNotice_gives hd hl hs, rfl⟩,
      fun hr => leads_settleHits (execInvalidation_recalls hd hl hs hr) rfl⟩,
    fun hd hr => leads_settleHits (execHolderRegistration_registers hd hr) rfl,
    fun hd hr => leads_settleHits (execBackInvalidation_drops hd hr) rfl,
    fun hs hl hc => leads_settleHits rfl (combineStep_unsealed hs hl hc),
    fun hs hw hc => leads_settleHits rfl (combineStep_sealed hs hw hc)⟩
  rw [State.die_setDie] at hh
  simpa using (List.mem_filter.1 hh).2

end Sys2Proof.Machine

/-!
PROOF. The state after reset (O59).
-/

namespace Sys2Proof.Machine

open Claim

/-- What nothing is listed of reads as its default. -/
@[simp] theorem Sp.get_nil {α : Type} (d : α) (k : Nat) : Sp.get d [] k = d := rfl

/-- A memory that nothing has written is in canonical form. -/
theorem Memory.wf_nil : Memory.wf [] := ⟨.nil, fun _ h => absurd h List.not_mem_nil⟩

section
variable (k : Nat)

theorem State.reset_frame : State.reset.frame k = {} := Sp.get_nil _ k
theorem State.reset_dirOf : State.reset.dirOf k = {} := Sp.get_nil _ k
theorem State.reset_die : State.reset.die k = {} := Sp.get_nil _ k
theorem State.reset_core : State.reset.core k = {} := Sp.get_nil _ k

end

/-- Settles O59: nothing is listed, so that each part reads as its default. -/
theorem resetState : Obligations.ResetState := by
  refine ⟨rfl, rfl, rfl, rfl, rfl, rfl, fun k => ?_, fun l => ?_, fun d => ?_, fun k => ?_, Memory.wf_nil, Memory.wf_nil⟩
  · rw [State.reset_frame]
    exact ⟨rfl, rfl⟩
  · rw [State.reset_dirOf]
  · rw [State.reset_die]
    exact ⟨rfl, rfl, rfl⟩
  · rw [State.reset_core]
    exact ⟨rfl, rfl⟩

end Sys2Proof.Machine

/-!
PROOF. What rollbacks, checkpoints and evictions leave of partitions (R114, R206, R43, R58).
-/

namespace Sys2Proof.Machine

/-! ### Partitions read and set -/

@[simp] theorem State.part?_setPart (s : State) (r : Nat) (p : Partition) : (s.setPart r p).part? r = some p :=
  Sp.find_insert _ _ _

theorem State.part?_setPart_ne (s : State) {r k : Nat} (p : Partition) (h : k ≠ r) : (s.setPart r p).part? k = s.part? k :=
  Sp.find_insert_ne _ _ h

theorem State.part?_congr {s t : State} (h : t.parts = s.parts) (r : Nat) : t.part? r = s.part? r := by
  rw [State.part?, State.part?, h]

@[simp] theorem State.ensureSoon_parts (s : State) (e : Instr) : (s.ensureSoon e).parts = s.parts := by
  unfold State.ensureSoon
  split <;> rfl

@[simp] theorem State.ensureTicks_parts (s : State) (n : Nat) (e : Instr) : (s.ensureTicks n e).parts = s.parts := by
  unfold State.ensureTicks
  split <;> rfl

/-- What is to come again has a timer. -/
theorem State.ensureTicks_due (s : State) (n : Nat) (e : Instr) : ∃ y ∈ (s.ensureTicks n e).sch.timers, y.ev = e := by
  unfold State.ensureTicks
  split
  · next h => simpa using h
  · exact ⟨_, List.mem_append_right _ (List.mem_singleton_self _), rfl⟩

/-! ### What a rollback leaves (R114) -/

/-- From s to t partitions and frame records stay. -/
structure Unrolled (s t : State) : Prop where
  parts  : t.parts = s.parts
  frames : t.frames = s.frames

namespace Unrolled

theorem refl (s : State) : Unrolled s s := ⟨rfl, rfl⟩

theorem trans {s t u : State} (h : Unrolled s t) (k : Unrolled t u) : Unrolled s u :=
  ⟨k.parts.trans h.parts, k.frames.trans h.frames⟩

theorem of_later {s t : State} (h : Later s t) : Unrolled s t := ⟨h.parts, h.frames⟩

theorem updWave (s : State) (w : Nat) (f : Wave → Wave) : Unrolled s (s.updWave w f) :=
  ⟨State.updWave_parts s w f, State.updWave_frames s w f⟩

theorem foldl {α : Type} {f : State → α → State} (h : ∀ s a, Unrolled s (f s a)) (l : List α) (s : State) :
    Unrolled s (l.foldl f s) := by
  induction l generalizing s with
  | nil => exact refl s
  | cons a l ih => exact (h s a).trans (ih _)

theorem undoWindow (s : State) (wid : Nat) (n : Window) : Unrolled s (undoWindow s wid n) := by
  unfold Machine.undoWindow
  split
  · exact refl s
  · dsimp only
    refine .trans ?_ (of_later (dropLatch_later _ _))
    exact .trans (t := (s.setWave wid _).setCore _ _) ⟨rfl, rfl⟩ (of_later (unpin_later _ wid))

theorem rollback (s : State) (wid : Nat) (counted : Bool) : Unrolled s (rollback s wid counted) := by
  unfold Machine.rollback
  split
  · exact refl s
  next w _ =>
    split
    · exact refl s
    next n _ =>
      refine .trans (undoWindow s wid n) ?_
      dsimp only
      split
      · exact refl _
      · generalize (if (w.keyPc == n.pc && w.keyPath == n.path && w.count != 0) = true then w.count + 1 else 1) = c
        split
        · exact (updWave _ wid _).trans (of_later (takeFault_later _ _ _ _ _ _ _ _))
        · exact updWave _ wid _

theorem rollbackAll (s : State) (ok : Nat → Wave → Bool) : Unrolled s (rollbackAll s ok) :=
  foldl (fun s w => rollback s w false) _ s

/-- Acting on conflicts rolls windows back. -/
theorem settleHits (s : State) : Unrolled s (settleHits s) := by
  have quiet : Unrolled s { s with sch := { s.sch with hits := [] } } := ⟨rfl, rfl⟩
  unfold Machine.settleHits
  dsimp only
  split
  · exact quiet
  · exact quiet.trans (foldl (fun s w => rollback s w true) _ _)

end Unrolled

/-- Where no window is selected none rolls back. -/
theorem rollbackAll_none {s : State} {ok : Nat → Wave → Bool} (h : ∀ w ∈ s.waves, ok w.1 w.2 = false) :
    rollbackAll s ok = s := by
  have none : s.waves.filter (fun w => ok w.1 w.2) = [] := List.filter_eq_nil_iff.2 fun w hw => by simp [h w hw]
  rw [rollbackAll, none]
  rfl

/-! ### Pauses and checkpoints (R206) -/

theorem servePaused_parts (s : State) (root : Nat) : (servePaused s root).parts = s.parts := by
  have soon {α : Type} (e : α → Instr) (l : List α) (t : State) :
      (l.foldl (fun s a => s.ensureSoon (e a)) t).parts = t.parts := by
    induction l generalizing t with
    | nil => rfl
    | cons a l ih => exact (ih _).trans (State.ensureSoon_parts t _)
  have waves (l : List (Nat × Wave)) (t : State) : (l.foldl (fun s w => (w.2.accs.filter (fun a => a.paused)).foldl
      (fun s a => s.ensureSoon (.accessPerformed w.1 a.id)) s) t).parts = t.parts := by
    induction l generalizing t with
    | nil => rfl
    | cons w l ih => exact (ih _).trans (soon _ _ t)
  exact waves _ _

/-- A checkpoint empties the undo log, captures the partition and ends its pause. -/
theorem checkpointOf_parts {s : State} {root : Nat} {p : Partition} (h : s.part? root = some p) :
    ∃ x, (checkpointOf s root).parts = Sp.insert s.parts root { p with log := [], snap := x, pausing := false } := by
  have rolled := (Unrolled.rollbackAll s fun _ w => inSubtree s root w.ctx).parts
  unfold checkpointOf
  rw [h]
  dsimp only
  split
  · next q hq =>
    have same : p = q := Option.some.inj (h.symm.trans ((State.part?_congr rolled root).symm.trans hq))
    subst same
    simp only [servePaused_parts, State.setPart_parts, rolled]
    exact ⟨_, rfl⟩
  · next hn =>
    have gone : s.part? root = none := (State.part?_congr rolled root).symm.trans hn
    rw [h] at gone
    cases gone

/-- A checkpoint changes neither the units lent to a partition nor their owners. -/
theorem checkpointOf_lent (s : State) (root k : Nat) :
    ((checkpointOf s root).part? k).map Partition.lent = (s.part? k).map Partition.lent := by
  cases h : s.part? root with
  | none => simp [checkpointOf, h]
  | some p =>
    obtain ⟨x, hx⟩ := checkpointOf_parts h
    rw [State.part?, hx]
    by_cases e : k = root
    · subst e
      rw [Sp.find_insert, h]
      rfl
    · rw [Sp.find_insert_ne _ _ e]
      rfl

/-- A partition whose issue pauses is there as before. -/
theorem pausePart_part {s : State} {root : Nat} {p : Partition} (h : s.part? root = some p) :
    (pausePart s root).part? root = some { p with pausing := true } := by
  unfold pausePart
  rw [h]
  dsimp only
  split
  · next hp => rw [h, ← hp]
  · rw [State.part?_congr (Unrolled.rollbackAll _ _).parts, State.part?_setPart]

end Sys2Proof.Machine

/-!
PROOF. Evictions, carve-outs and the emptying of a bank leave partitions (R43, R58, R205).
-/

namespace Sys2Proof.Machine

/-- From s to t partitions stay. -/
def PartsKept (s t : State) : Prop := t.parts = s.parts

namespace PartsKept

theorem refl (s : State) : PartsKept s s := Eq.refl s.parts

theorem trans {s t u : State} (h : PartsKept s t) (k : PartsKept t u) : PartsKept s u := Eq.trans k h

theorem part? {s t : State} (h : PartsKept s t) (r : Nat) : t.part? r = s.part? r := State.part?_congr h r

theorem lent {s t : State} (h : PartsKept s t) (r : Nat) : (t.part? r).map Partition.lent = (s.part? r).map Partition.lent := by
  rw [h.part?]

theorem setCore (s : State) (k : Nat) (x : Core) : PartsKept s (s.setCore k x) := rfl

theorem setDie (s : State) (d : Nat) (x : Die) : PartsKept s (s.setDie d x) := rfl

theorem setFrame (s : State) (k : Nat) (x : FrameRec) : PartsKept s (s.setFrame k x) := rfl

theorem setLp (s : State) (l : Nat) (x : LanePair) : PartsKept s (s.setLp l x) := rfl

theorem ensureSoon (s : State) (e : Instr) : PartsKept s (s.ensureSoon e) := State.ensureSoon_parts s e

theorem foldl {α : Type} {f : State → α → State} (h : ∀ s a, PartsKept s (f s a)) (l : List α) (s : State) :
    PartsKept s (l.foldl f s) := by
  induction l generalizing s with
  | nil => exact refl s
  | cons a l ih => exact (h s a).trans (ih _)

/-! ### Frames go (R54, R58, R64) -/

theorem forceTokens (s : State) (k : Nat) (cs : List Nat) : PartsKept s (forceTokens s k cs) := by
  induction cs generalizing s with
  | nil => exact refl s
  | cons c cs ih =>
    unfold Machine.forceTokens
    split
    · exact ih s
    · split
      · exact ih s
      · exact .trans (t := s.setCtx _ _) rfl (ih _)

theorem homeWrite (s : State) (dev : Nat) (bs : List Byte) : PartsKept s (homeWrite s dev bs) := by
  unfold Machine.homeWrite
  dsimp only
  split <;> rfl

theorem giveUp (s : State) (die l : Nat) : PartsKept s (giveUp s die l) := by
  unfold Machine.giveUp
  split
  · exact refl s
  · next k r _ =>
    dsimp only
    refine .trans (t := if (r.state == .m || r.state == .o) = true then _ else s) ?_ rfl
    split
    · exact .trans ((forceTokens _ _ _).trans (homeWrite _ _ _)) rfl
    · exact refl s

theorem giveUps (die : Nat) (ls : List Nat) (s : State) : PartsKept s (giveUps s die ls) := by
  induction ls generalizing s with
  | nil => exact refl s
  | cons l ls ih => exact (giveUp s die l).trans (ih _)

theorem clearTargets (fk : Nat) (cs : List Nat) (s : State) : PartsKept s (clearTargets s fk cs) := by
  induction cs generalizing s with
  | nil => exact refl s
  | cons c cs ih => exact .trans (t := { s with waves := _, cores := _ }) rfl (ih _)

theorem bumpGen (s : State) (fk : Nat) : PartsKept s (bumpGen s fk) := by
  unfold Machine.bumpGen
  refine .trans (t := if ((s.frame fk).gen == 255) = true then _ else s) ?_ rfl
  split
  · exact clearTargets _ _ s
  · exact refl s

theorem freeFrame (s : State) (fk : Nat) : PartsKept s (freeFrame s fk) := rfl

theorem endForwarding (s : State) (fk gen : Nat) : PartsKept s (endForwarding s fk gen) := by
  unfold Machine.endForwarding
  dsimp only
  split
  · exact refl s
  · refine .trans (.trans ?_ (bumpGen _ fk)) (freeFrame _ fk)
    split <;> rfl

theorem dropReplica (s : State) (fk : Nat) : PartsKept s (dropReplica s fk) := by
  unfold Machine.dropReplica
  refine .trans (.trans (.trans ?_ (setDie _ _ _)) (bumpGen _ fk)) (freeFrame _ fk)
  split <;> rfl

theorem dropReplicas (fs : List Nat) (s : State) : PartsKept s (dropReplicas s fs) := by
  induction fs generalizing s with
  | nil => exact refl s
  | cons f fs ih => exact (dropReplica s f).trans (ih _)

theorem evict (s : State) (die part : Nat) : PartsKept s (evict s die part) := by
  unfold Machine.evict
  refine .trans (t := endMoves s die part) (foldl (fun s fk => endForwarding s fk _) _ s) ?_
  dsimp only
  split
  · exact refl _
  · refine .trans ?_ (setDie _ _ _)
    refine .trans (.trans ?_ (bumpGen _ _)) (freeFrame _ _)
    refine .trans ?_ (setDie _ _ _)
    refine .trans ?_ (setDie _ _ _)
    refine .trans ?_ (setDie _ _ _)
    exact (dropReplicas _ _).trans (giveUps die _ _)

/-! ### Carve-outs (R43) -/

theorem freeDown (core need n : Nat) (s : State) : PartsKept s (freeDown s core need n).1 := by
  induction n generalizing s with
  | zero => exact refl s
  | succ k ih =>
    unfold Machine.freeDown
    split
    · exact refl s
    · dsimp only
      split
      · split
        · exact refl s
        · exact (dropReplica _ _).trans (ih _)
      · split
        · exact (evict _ _ _).trans (ih _)
        · exact refl s
      · exact refl s
      · exact ih s

theorem carveOut (s : State) (core c n : Nat) : PartsKept s (carveOut s core c n) := by
  unfold Machine.carveOut
  split
  · exact refl s
  · refine .trans (freeDown core n 256 s) ?_
    exact .trans (foldl (fun _ _ => setFrame _ _ _) _ _) (setCore _ _ _)

theorem dropCarve (s : State) (core c : Nat) : PartsKept s (dropCarve s core c) := by
  unfold Machine.dropCarve
  split
  · exact refl s
  · exact .trans (foldl (fun s k => freeFrame s _) _ s) (setCore _ _ _)

/-! ### A bank is emptied, its core idle (R205) -/

theorem emptyBank (s : State) (core : Nat) (keep gone : Nat → Bool) : PartsKept s (emptyBank s core keep gone) := by
  unfold Machine.emptyBank
  have empty (s : State) (k : Nat) : PartsKept s (match (s.frame (frameKey core k)).kind with
      | .replica => Machine.dropReplica s (frameKey core k)
      | .primary => Machine.evict s (core / 32) (s.frame (frameKey core k)).part
      | .forward => Machine.endForwarding s (frameKey core k) (s.frame (frameKey core k)).gen
      | _ => s) := by
    split
    · exact dropReplica _ _
    · exact evict _ _ _
    · exact endForwarding _ _ _
    · exact refl s
  refine .trans ?_ (setCore _ core _)
  exact (foldl empty _ s).trans (foldl (fun s c => dropCarve s core c) _ _)

theorem setCounters (s : State) (cores : List Nat) (ls : List (Nat × LanePair)) : PartsKept s (setCounters s cores ls) := by
  unfold Machine.setCounters
  exact foldl (fun _ _ => setLp _ _ _) _ s

end PartsKept

end Sys2Proof.Machine

/-!
PROOF. The steps of partitions and units (O49): checkpoints, slices, lent and drained units, banks.
-/

namespace Sys2Proof.Machine

open Claim

/-- What acting on conflicts leaves is read in what a step has made. -/
theorem goes_unrolled {e : Instr} {s v : State} {P : State → Prop} (he : exec e s = .next (settleHits v))
    (h : ∀ t, Unrolled v t → v.sch.timers ⊆ t.sch.timers → P t) : Goes e s P :=
  ⟨_, he, h _ (.settleHits v) (Settled.settleHits v).timers⟩

/-! ### Checkpoints (R206) -/

section
variable {s : State} {root : Nat} {q : Partition} {x : Ctx}

theorem periodic_quiet (hq : s.part? root = some q) (hx : s.ctx? root = some x) (he : q.ended = false)
    (hs : x.state ≠ .preempted) (hp : partQuiet s root = true) :
    periodic s root = (checkpointOf s root).ensureTicks q.period (.checkpoint root) := by
  simp [periodic, hq, hx, he, hs, hp]

/-- While accesses of the partition are on their way its issue pauses. -/
theorem periodic_pauses (hq : s.part? root = some q) (hx : s.ctx? root = some x) (he : q.ended = false)
    (hs : x.state ≠ .preempted) (hp : partQuiet s root = false) : (periodic s root).parts = (pausePart s root).parts := by
  simp only [periodic, hq, hx, he, beq_eq_false_iff_ne.2 hs, hp, Bool.or_self, Bool.false_eq_true, if_false]
  split <;> rfl

theorem execCheckpoint_cuts (hq : s.part? root = some q) (hx : s.ctx? root = some x) (he : q.ended = false)
    (hs : x.state ≠ .preempted) : Goes (.checkpoint root) s fun t =>
      if partQuiet s root then (t.part? root).map (·.log) = some [] ∧ ∃ y ∈ t.sch.timers, y.ev = .checkpoint root
      else (t.part? root).map (fun p => (p.log, p.pausing)) = some (q.log, true) := by
  refine goes_unrolled (v := periodic s root) rfl fun t ht due => ?_
  rw [State.part?_congr ht.parts root]
  split
  · next hp =>
    obtain ⟨z, hz⟩ := checkpointOf_parts hq
    rw [periodic_quiet hq hx he hs hp] at due ⊢
    constructor
    · rw [State.part?, State.ensureTicks_parts, hz, Sp.find_insert]
      rfl
    · obtain ⟨y, hy, ev⟩ := State.ensureTicks_due (checkpointOf s root) q.period (.checkpoint root)
      exact ⟨y, due hy, ev⟩
  · next hp =>
    rw [State.part?_congr (periodic_pauses hq hx he hs (by simpa using hp)) root, pausePart_part hq]
    rfl

/-! ### Slices (R175, R209, R210) -/

theorem endSlice_frees {u : State} {self : Instr} (hq : s.part? root = some q) (hx : s.ctx? root = some x)
    (hs : x.state ≠ .preempted) (hr : rollPart s root self = (u, true)) (ha : ctxsAtRest u (subtreeOf u root) = true) :
    endSlice s root self = freePart u root := by
  simp [endSlice, hq, hx, hs, hr, ha]

theorem startSlice_first (hq : s.part? root = some q) (hx : s.ctx? root = some x) (hs : x.state = .stopped)
    (hn : x.started = false) : startSlice s root = firstRun s root := by
  simp [startSlice, hq, hx, hs, hn]

theorem startSlice_wakes {u : State} {z : Snapshot} (hq : s.part? root = some q) (hx : s.ctx? root = some x)
    (hs : x.state = .preempted) (he : q.ended = false)
    (hz : settleSnap s root (q.snap.cores.map fun k => k.1) q.snap = some z) (hr : carvesRoom s root = (u, true)) :
    startSlice s root = wakePart (setCounters (putLocals (carveAll u root) z.locals z.lpoison) (partCores u root)
      (z.lps.filter fun l => (partCores u root).contains (l.1 / 32))) root z := by
  simp [startSlice, hq, hx, hs, he, hz, hr]

end

/-! ### Lent units (R205) -/

/-- A partition set with the units that it had has them. -/
theorem State.lent_setPart {s : State} {r : Nat} {p q : Partition} (h : s.part? r = some p) (hl : q.lent = p.lent) (k : Nat) :
    ((s.setPart r q).part? k).map Partition.lent = (s.part? k).map Partition.lent := by
  by_cases e : k = r
  · subst e
    rw [State.part?_setPart, h, Option.map_some, Option.map_some, hl]
  · rw [State.part?_setPart_ne _ _ e]

section
variable {s : State} {core o root : Nat} {b : Partition}

/-- The owner of a unit that is lent keeps its counters, and loses it from its snapshot. -/
theorem lent_saved (saved : Partition → List (Nat × LanePair)) (snap : Partition → Snapshot) :
    ((match s.part? o with
      | some p => s.setPart o { p with saved := saved p, snap := snap p }
      | none => s).part? root).map Partition.lent = (s.part? root).map Partition.lent := by
  split
  · next p hp => exact State.lent_setPart (q := { p with saved := saved p, snap := snap p }) hp rfl root
  · rfl

/-- The borrower has the unit beside those that were lent to it. -/
theorem lent_added {ls : List (Nat × Nat)} (l : Nat × Nat) (h : (s.part? root).map Partition.lent = some ls) :
    ((match s.part? root with
      | some q => s.setPart root { q with lent := q.lent ++ [l] }
      | none => s).part? root).map Partition.lent = some (ls ++ [l]) := by
  cases hq : s.part? root with
  | none => simp [hq] at h
  | some q =>
    rw [hq] at h
    rw [State.part?_setPart, ← Option.some.inj h]
    rfl

theorem lend_lends {q : Partition} (ho : s.parts.find? (fun p => (unitsOf s p.1).getLsbD core) = some (o, q))
    (hb : s.part? root = some b)
    (hc : canLend (s.setCore core { s.core core with leaving := false }) core o root = true)
    (hr : bankAtRest s core = true) (hq : asleep s o = true ∨ partQuiet s o = true) :
    ((lend s core root).part? root).map Partition.lent = some (b.lent ++ [(core, o)]) := by
  have idle : (!bankAtRest s core || (!asleep s o && !partQuiet s o)) = false := by
    rcases hq with h | h <;> simp [hr, h]
  unfold lend
  rw [ho]
  dsimp only
  rw [hc, idle, if_neg (by simp), if_neg (by simp)]
  have there : (s.setCore core { s.core core with leaving := false }).part? root = some b := hb
  generalize s.setCore core { s.core core with leaving := false } = v at there ⊢
  have cut : ((if asleep v o = true then v else checkpointOf v o).part? root).map Partition.lent = some b.lent := by
    split
    · exact congrArg _ there
    · exact (checkpointOf_lent v o root).trans (congrArg _ there)
  generalize (if asleep v o = true then v else checkpointOf v o) = u at cut ⊢
  have emptied := (PartsKept.emptyBank u core (subtreeOf u o).contains (subtreeOf u o).contains).lent root
  generalize emptyBank u core (subtreeOf u o).contains (subtreeOf u o).contains = y at emptied ⊢
  have idled := (PartsKept.setCounters ((clearMatrix y [core]).setCore core (idleCore (y.core core))) [core] []).lent root
  generalize setCounters ((clearMatrix y [core]).setCore core (idleCore (y.core core))) [core] [] = z at idled ⊢
  refine ((PartsKept.ensureSoon _ _).lent root).trans ?_
  refine ((PartsKept.carveOut _ _ _ _).lent root).trans ?_
  exact lent_added (core, o) ((lent_saved _ _).trans (idled.trans (emptied.trans cut)))

theorem reclaimUnit_leaves {q : Partition} (hq : s.parts.find? (fun p => p.2.lent.any fun l => l.1 == core) = some (root, q)) :
    reclaimUnit s core = leaveCore s root core (.reclaim core) fun s =>
      returnUnit s core root (((q.lent.find? (fun l => l.1 == core)).map (fun l => l.2)).getD 0) := by
  unfold reclaimUnit
  rw [hq]

end

/-! ### Drained units (R211) -/

section
variable {s : State} {core : Nat}

theorem drainUnit_drains (hh : holderOf (s.setCore core { s.core core with draining := true }) core = none) (hc : core < 256)
    (hd : ((s.core core).draining && coreClear s core) = false)
    (hr : bankAtRest (s.setCore core { s.core core with draining := true }) core = true) :
    drainUnit s (.core core) = coreDrained (s.setCore core { s.core core with draining := true }) core true := by
  unfold drainUnit drainCore
  simp [hd, hh, hr, Nat.not_le.2 hc]

/-! ### Banks and engine units (R67, R68) -/

theorem bankOff_gone {self : Instr} (hc : core < 256) (ho : (s.core core).bankOn = true) (hh : holderOf s core = none)
    (hr : bankAtRest s core = true) : bankOff s core self = bankGone s core := by
  simp [bankOff, ho, hh, hr, Nat.not_le.2 hc]

theorem bankGone_off (s : State) (core : Nat) : ((bankGone s core).core core).bankOn = false := by
  unfold bankGone
  rw [State.core_setCore]

/-- What is read of a core, but its launch buffer, is as the step has left it. -/
theorem settleHits_core {α : Type} (f : Core → α) (hf : ∀ k l, f { k with launches := l } = f k) (s : State) (core : Nat) :
    f ((settleHits s).core core) = f (s.core core) := by
  rw [← hf _ [], (settleHits_unwound s).cores core, hf]

theorem execBankPowerOff_off (hc : core < 256) (ho : (s.core core).bankOn = true) (hh : holderOf s core = none)
    (hr : bankAtRest s core = true) : Goes (.bankPowerOff (.bank core)) s fun t => (t.core core).bankOn = false := by
  refine ⟨settleHits (bankOff s core (.bankPowerOff (.bank core))), rfl, ?_⟩
  dsimp only
  rw [settleHits_core Core.bankOn fun _ _ => rfl, bankOff_gone hc ho hh hr, bankGone_off]

theorem unitOff_loupe (hc : core < 256) (self : Instr) : ((unitOff s (.loupe core) self).core core).loupeOn = false := by
  simp [unitOff, hc]

theorem unitOff_luna (hc : core < 256) (self : Instr) : ((unitOff s (.luna core) self).core core).lunaOn = false := by
  simp [unitOff, hc]

theorem unitOn_luna (hc : core < 256) : ((unitOn s (.luna core)).core core).lunaOn = true := by
  simp [unitOn, hc]

/-- With no partition to take carve-outs again, a bank that comes on has no frame but FREE ones. -/
theorem bankUp_on (hc : core < 256) (ho : (s.core core).bankOn = false) (hp : s.parts = []) :
    ((bankUp s core).core core).bankOn = true ∧ ∀ f ∈ (bankUp s core).frames, f.1 / 256 ≠ core := by
  have noticed : (((List.range 256).foldl (fun s k => clearTargets s (frameKey core k) (coresOf (core / 32))) s)).parts = [] :=
    Eq.trans (PartsKept.foldl (fun s k => PartsKept.clearTargets _ _ s) _ s) hp
  unfold bankUp
  rw [if_neg (by simp [ho, Nat.not_le.2 hc])]
  generalize (List.range 256).foldl (fun s k => clearTargets s (frameKey core k) (coresOf (core / 32))) s = u at noticed ⊢
  dsimp only
  rw [State.setCore_parts]
  dsimp only
  rw [noticed]
  refine ⟨?_, fun f hf => ?_⟩
  · rw [List.filter_nil, List.foldl_nil, State.core_setCore]
  · rw [List.filter_nil, List.foldl_nil, State.setCore_frames] at hf
    simpa using (List.mem_filter.1 hf).2

theorem execBankPowerOn_on (hc : core < 256) (ho : (s.core core).bankOn = false) (hp : s.parts = []) :
    Goes (.bankPowerOn (.bank core)) s fun t => (t.core core).bankOn = true ∧ ∀ f ∈ t.frames, f.1 / 256 ≠ core := by
  obtain ⟨on, free⟩ := bankUp_on hc ho hp
  refine ⟨settleHits (bankUp s core), rfl, ?_, ?_⟩
  · rw [settleHits_core Core.bankOn fun _ _ => rfl, on]
  · rw [(Unrolled.settleHits _).frames]
    exact free

end

end Sys2Proof.Machine

/-!
PROOF. What a context is made with outlives a write of the observation unit (R212): its translation, the fill and the combine that
it may ask for, its charge and the write itself.
-/

namespace Sys2Proof.Machine

/-- The state that an outcome leaves, if it leaves one, keeps what the contexts of s were made with. -/
def CtxsLeft (s : State) (o : Option State) : Prop := ∀ t, o = some t → CtxsKept s t

namespace CtxsLeft

variable {s t : State} {α : Type}

theorem none : CtxsLeft s Option.none := fun _ e => nomatch e

theorem some (h : CtxsKept s t) : CtxsLeft s (Option.some t) := fun _ e => Option.some.inj e ▸ h

theorem ok {r : Res α} {a : α} (h : CtxsLeft s r.state?) (e : r = .ok a t) : CtxsKept s t := h t (congrArg Res.state? e)

theorem ite {β : Type} {c : Prop} [Decidable c] {f : β → Option State} {a b : β} (ha : CtxsLeft s (f a))
    (hb : CtxsLeft s (f b)) : CtxsLeft s (f (if c then a else b)) := by
  split <;> assumption

/-- What follows a state that has kept them. -/
theorem after {o : Option State} (h : CtxsKept s t) (k : CtxsLeft t o) : CtxsLeft s o := fun u e => h.trans (k u e)

end CtxsLeft

namespace CtxsKept

open CtxsLeft (none some ite after)

variable {α : Type}

protected theorem ite {s a b : State} {p : Prop} [Decidable p] (ha : CtxsKept s a) (hb : CtxsKept s b) :
    CtxsKept s (if p then a else b) := by
  split <;> assumption

theorem updCtx (s : State) (c : Nat) {f : Ctx → Ctx} (h : ∀ x, (f x).made = x.made) : CtxsKept s (s.updCtx c f) := by
  unfold State.updCtx
  split
  · next x hx => exact setCtx hx (h x)
  · exact refl s

theorem raiseTo (s : State) (c : Nat) (ring : Option Nat) (fl : BitVec 16) (wave : Nat) (f : FaultInfo) (pc : Word64) :
    CtxsKept s (raiseTo s c ring fl wave f pc) := by
  unfold Machine.raiseTo
  split
  · exact refl s
  · next x hx =>
    dsimp only
    refine .trans ?_ (ringPut _ _ _)
    exact setCtx hx rfl

/-! ### Charges (R99) -/

theorem takeTokens (k : Nat) (cs : List Nat) (s : State) : CtxsLeft s (takeTokens s k cs) := by
  induction cs generalizing s with
  | nil => exact some (refl s)
  | cons c cs ih =>
    unfold Machine.takeTokens
    split
    · exact ih s
    · next x hx =>
      split
      · exact ih s
      · dsimp only
        split
        · exact none
        · refine after ?_ (ih _)
          exact setCtx hx rfl

theorem charge (s : State) (c dev : Nat) : CtxsLeft s (charge s c dev) := takeTokens _ _ s

theorem chargeLine (s : State) (c dev : Nat) : CtxsLeft s (chargeLine s c dev) := by
  unfold Machine.chargeLine
  dsimp only
  split
  · exact some (forceTokens _ _ _)
  · exact charge s c dev

theorem chargeLines (c : Nat) (ls : List Nat) (s : State) : CtxsLeft s (chargeLines s c ls) := by
  induction ls generalizing s with
  | nil => exact some (refl s)
  | cons l ls ih =>
    intro t e
    obtain ⟨u, hu, hl⟩ := Option.bind_eq_some_iff.1 e
    exact (chargeLine s c _ u hu).trans (ih u t hl)

/-! ### Fills (R51, R56, R57) -/

theorem strikeDie (s : State) (die l : Nat) : CtxsKept s (strikeDie s die l) := of_ctxs rfl

theorem recallAll (s : State) (l : Nat) : CtxsLeft s (recallAll s l).state? := by
  unfold Machine.recallAll
  refine ite none (ite none (ite none (some ?_)))
  exact .trans (foldl (fun s h => (giveUp s h l).trans (strikeDie _ h l)) _ s) (of_ctxs rfl)

theorem evictOldest (s : State) (ok : Nat → FrameRec → Bool) : CtxsLeft s (evictOldest s ok).state? := by
  unfold Machine.evictOldest
  split
  · exact ite none (some (evict _ _ _))
  · exact ite none none

theorem evictFor (s : State) (ctx : Nat) (ok : Nat → Bool) : CtxsLeft s (evictFor s ctx ok).state? := by
  unfold Machine.evictFor
  split
  · exact some (refl s)
  · exact none
  · next e => exact some (evictOldest s _ _ (congrArg Evicted.state? e))

/-- The eviction of a full quota, or none. -/
theorem evictIf (s : State) (b : Bool) (ctx : Nat) (ok : Nat → Bool) :
    CtxsLeft s (if b then Machine.evictFor s ctx ok else .ok Option.none s).state? :=
  ite (evictFor s ctx ok) (some (refl s))

theorem makeRoom (core : Nat) (cs : List Nat) (s : State) (freed : Option Nat) : CtxsLeft s (makeRoom s core freed cs).state? := by
  induction cs generalizing s freed with
  | nil => exact some (refl s)
  | cons a cs ih =>
    unfold Machine.makeRoom
    split
    · exact none
    · exact none
    next e =>
    refine after ((evictIf s _ a _).ok e) ?_
    split
    · exact none
    · exact none
    · next e => exact after ((evictIf _ _ a _).ok e) (ih _ _)

theorem takeFrame (s : State) (core : Nat) (freed : Option Nat) : CtxsLeft s (takeFrame s core freed).state? := by
  unfold Machine.takeFrame
  split
  · exact some (refl s)
  split
  · exact some (dropReplica _ _)
  split
  · exact some (refl s)
  · exact none
  · next e => exact some (evictOldest s _ _ (congrArg Evicted.state? e))

theorem fillBank (s : State) (core ctx : Nat) : CtxsLeft s (fillBank s core ctx).state? := by
  have evicted (ok : Nat → Bool) (next : Option Nat → State → Res (Option (Nat × Option Nat)))
      (h : ∀ k t, CtxsLeft t (next k t).state?) : CtxsLeft s (match Machine.evictFor s ctx ok with
        | .wait t r => Res.wait t r
        | .fail f => .fail f
        | .ok k s => next k s).state? := by
    split
    · exact none
    · exact none
    · next e => exact after ((evictFor s ctx ok).ok e) (h _ _)
  unfold Machine.fillBank
  refine ite (ite (evicted _ _ fun k t => some (refl t)) (ite (evicted _ _ fun k t => some (refl t)) (some (refl s)))) (ite ?_ (ite
    (evicted _ _ fun k t => ite (some (refl t)) ?_) (ite (some (refl s)) ?_)))
  · dsimp only
    split
    · exact some (refl s)
    · exact evicted _ _ fun k t => some (refl t)
  · split <;> exact some (refl t)
  · dsimp only
    split <;> exact some (refl s)

theorem backInvalidate (s : State) (die part : Nat) : CtxsLeft s (backInvalidate s die part).state? := by
  unfold Machine.backInvalidate
  split
  · exact some (refl s)
  · exact ite none (ite none (some ((evict s die part).trans (foldl (fun s l => strikeDie s die l) _ _))))

theorem backInvalidates (part : Nat) (ds : List Nat) (s : State) : CtxsLeft s (backInvalidates s part ds).state? := by
  induction ds generalizing s with
  | nil => exact some (refl s)
  | cons d ds ih =>
    unfold Machine.backInvalidates
    split
    · next e => exact after ((backInvalidate s d part).ok e) (ih _)
    · exact none
    · exact none

theorem registerHolder (s : State) (part die : Nat) : CtxsLeft s (registerHolder s part die).state? := by
  unfold Machine.registerHolder
  dsimp only
  split
  · exact some (setDie _ _ _)
  split
  · refine ite (some (setDie _ _ _)) ?_
    split
    · next e => exact some (((backInvalidates _ _ s).ok e).trans (setDie _ _ _))
    · exact none
    · exact none
  · exact some (setDie _ _ _)

theorem atlasRoom (s : State) (die part : Nat) : CtxsLeft s (atlasRoom s die part).state? := by
  unfold Machine.atlasRoom
  refine ite (some (refl s)) ?_
  dsimp only
  split
  · exact ite none (some (evict _ _ _))
  · exact none

theorem placePrimary (s : State) (ctx part bank f : Nat) : CtxsLeft s (placePrimary s ctx part bank f).state? :=
  some ((bumpGen s _).trans (of_ctxs rfl))

theorem fill (s : State) (core ctx part : Nat) : CtxsLeft s (fill s core ctx part).state? := by
  unfold Machine.fill
  dsimp only
  split
  · exact none
  · exact none
  next e =>
  refine after ((registerHolder s _ _).ok e) ?_
  split
  · exact none
  · exact none
  next e =>
  refine after ((atlasRoom _ _ _).ok e) ?_
  split
  · exact none
  · exact none
  · next e => exact some (((fillBank _ _ _).ok e).trans (setDie _ _ _))
  next e =>
  refine after ((fillBank _ _ _).ok e) ?_
  split
  · exact none
  · exact none
  next e =>
  refine after ((makeRoom _ _ _ _).ok e) ?_
  split
  · exact none
  · exact none
  · next e => exact some (((takeFrame _ _ _).ok e).trans (setDie _ _ _))
  · next e => exact after ((takeFrame _ _ _).ok e) (placePrimary _ _ _ _ _)

theorem locate (s : State) (core ctx part : Nat) (streamed : Bool) : CtxsLeft s (locate s core ctx part streamed).state? := by
  unfold Machine.locate
  refine ite (some (refl s)) ?_
  dsimp only
  split
  · refine ite none ?_
    split <;> exact some (refl s)
  split
  · next e =>
    refine after ((fill s core ctx part).ok e) ?_
    split <;> exact some (refl _)
  · next e => exact some ((fill s core ctx part).ok e)
  · exact none
  · exact none

theorem gate (s : State) (t r : Nat) (wave : Option Nat) : CtxsKept s (s.gate t r wave) := by
  unfold State.gate
  split
  · exact refl s
  · split
    · exact ensureSoon s _
    · exact of_ctxs rfl

theorem waitTick (s : State) (t r : Nat) (i : Instr) : CtxsKept s (s.waitTick t r i) := by
  unfold State.waitTick
  exact CtxsKept.ite (gate s t r _) ((gate s t r _).trans (of_ctxs rfl))

theorem locateEntry (s : State) (core ctx n : Nat) : CtxsKept s (locateEntry s core ctx n) := by
  unfold Machine.locateEntry
  split
  · exact refl s
  split
  · exact refl s
  split
  · next e => exact ((locate s _ _ _ _).ok e).trans (setCore _ _ _)
  · exact waitTick s _ _ _
  · exact refl s

/-! ### Translations (R35, R37) -/

theorem combineTables (s : State) (c : Nat) (p : Word64) : CtxsKept s (combineTables s c p) := by
  unfold Machine.combineTables
  split
  · exact refl s
  · exact foldl (fun s _ => ensureSoon s _) _ s

theorem walked (s : State) (c : Nat) (p : Word64) : CtxsLeft s (walked s c p) := by
  unfold Machine.walked
  split
  · exact some (combineTables s c p)
  · intro t e
    obtain ⟨u, hu, rfl⟩ := Option.map_eq_some_iff.1 e
    exact (chargeLines _ _ _ u hu).trans (combineTables u c p)

theorem translate {s t : State} {core c : Nat} {p : Word64} {want : BitVec 3} {x : Xl}
    (h : translate s core c p want = .ok (x, t)) : CtxsKept s t := by
  have installed (u : State) (e : TlbEntry) (hu : Machine.walked s c p = .some u) : CtxsKept s (installTlb u core e) :=
    (walked s c p u hu).trans (setCore _ _ _)
  unfold Machine.translate at h
  dsimp only at h
  split at h
  · repeat' split at h
    all_goals cases h
    all_goals exact refl s
  · repeat' split at h
    all_goals cases h
    · exact setCore _ _ _
    · exact refl s
    · next hw _ _ => exact installed _ _ hw
    · next hw _ _ => exact installed _ _ hw

/-! ### Combines (R97) -/

theorem wrote (s : State) (key n : Nat) : CtxsKept s (wrote s key n) := foldl (fun s _ => ensureSoon s _) _ s

theorem logLine (s : State) (c key : Nat) (old : List Byte) (poison : Bool) : CtxsKept s (logLine s c key old poison) := by
  unfold Machine.logLine
  dsimp only
  split
  · exact refl s
  · split <;> exact of_ctxs rfl

theorem setPartials (s : State) (core c : Nat) (r : CRange) (first n : Nat) : CtxsKept s (setPartials s core c r first n) := by
  induction n with
  | zero => exact refl s
  | succ n ih => exact ih.trans (of_ctxs rfl)

theorem resetPartials (s : State) (core c : Nat) (r : CRange) (first n : Nat) : CtxsKept s (resetPartials s core c r first n) :=
  (foldl (fun s _ => logLine s _ _ _ _) _ s).trans (setPartials _ _ _ _ _ _)

theorem clUpdate (s : State) (dev n : Nat) (whole : Bool) (f : List Byte → List Byte) :
    CtxsLeft s (clUpdate s dev n whole f).state? := by
  unfold Machine.clUpdate
  refine ite none ?_
  dsimp only
  split
  · exact none
  · exact none
  next e =>
  refine after ((recallAll s _).ok e) (ite none (some ?_))
  split
  · exact (homeWrite _ _ _).trans (of_ctxs rfl)
  · exact (homeWrite _ _ _).trans (of_ctxs rfl)

theorem clWrite (s : State) (dev : Nat) (bs : List Byte) : CtxsLeft s (clWrite s dev bs).state? := by
  unfold Machine.clWrite
  split
  · exact none
  · exact none
  · next e => exact some ((clUpdate s _ _ _ _).ok e)

theorem alongside {s t : State} {f : State → Res α} (h : CtxsKept s t) (hf : ∀ u, CtxsLeft u (f u).state?) :
    CtxsLeft s (alongside s t f).state? := by
  have marks : CtxsKept s (withMarks s t) := h.trans (foldl (fun _ _ => setDie _ _ _) _ t)
  unfold Machine.alongside
  split
  · next e => exact some (marks.trans (((hf _).ok e).trans (foldl (fun _ _ => setDie _ _ _) _ _)))
  · exact after marks (hf _)

theorem combineLine (s : State) (c slot line : Nat) (r : CRange) (cores : List Nat) (sealed : Bool) :
    CtxsLeft s (combineLine s c slot line r cores sealed).state? := by
  unfold Machine.combineLine
  dsimp only
  split
  · exact ite none (some (refl s))
  refine ite (some (refl s)) (ite none ?_)
  split
  · exact none
  next e =>
  refine after (charge s _ _ _ e) ?_
  split
  · exact none
  · exact none
  next e =>
  refine after ((clUpdate _ _ _ _ _).ok e) (some (.trans (.trans (.trans ?_ (foldl (fun s k => ?_) _ _))
    (foldl (fun s d => strikeDie s d _) _ _)) (wrote _ _ _)))
  · split
    · exact of_ctxs rfl
    · exact .trans (of_ctxs rfl) (logLine _ _ _ _ _)
  · split
    · exact setPartials _ _ _ _ _ _
    · exact resetPartials _ _ _ _ _ _

theorem combineAt (s : State) (c slot line : Nat) (chk flush sealed : Bool) :
    CtxsLeft s (combineAt s c slot line chk flush sealed).state? := by
  unfold Machine.combineAt
  split
  · exact some (refl s)
  dsimp only
  refine ite (some (refl s)) ?_
  split
  · exact ite none none
  · exact ite (some (refl s)) (combineLine s _ _ _ _ _ _)

theorem combineHits (chk sealed : Bool) (hs : List (Nat × Nat × Nat)) (s t : State) (h : CtxsKept s t) :
    CtxsLeft s (combineHits s t chk sealed hs).state? := by
  induction hs generalizing t with
  | nil => exact some h
  | cons a hs ih =>
    have first := alongside h fun u => combineAt u a.1 a.2.1 a.2.2 chk false sealed
    unfold Machine.combineHits
    split
    · next e => exact ih _ (first.ok e)
    · exact first

theorem combineFirst (s : State) (dev : Nat) (chk sealed : Bool) : CtxsLeft s (combineFirst s dev chk sealed).state? :=
  combineHits _ _ _ s s (refl s)

/-! ### The observation unit (R212) -/

theorem obsWrite (s : State) (c core : Nat) (p : Word64) (bs : List Byte) : CtxsLeft s (obsWrite s c core p bs).state? := by
  unfold Machine.obsWrite
  split
  · exact ite none none
  next x t e =>
  refine after (translate e) ?_
  cases x.ent
  case' some e => refine after (locateEntry t core (obsOwner t c) e.vpart) ?_
  all_goals
    dsimp only
    split
    · exact none
    · exact none
    next e =>
    split
    · exact none
    next e' =>
    have charged := ((combineFirst _ _ _ _).ok e).trans (charge _ _ _ _ e')
    split
    · exact none
    · exact none
    · next e => exact some (((alongside charged fun u => clWrite u _ _).ok e).trans (wrote _ _ _))

theorem obsHeader (s : State) (c core : Nat) (trace : Bool) (p : Word64) (log : Nat) :
    CtxsLeft s (obsHeader s c core trace p log).state? := by
  unfold Machine.obsHeader
  split
  · exact none
  · refine some (.trans ?_ (raiseTo _ _ _ _ _ _ _))
    exact updCtx s c fun _ => rfl
  · next e => exact some ((obsWrite s _ _ _ _).ok e)

theorem setObs (s : State) (c : Nat) (setter : Option Nat) (bs : List Byte) : CtxsKept s (setObs s c setter bs) :=
  updCtx s c fun _ => rfl

end CtxsKept

end Sys2Proof.Machine

/-!
PROOF. The steps of roots, owed counters, boot, power and errors (O49).
-/

namespace Sys2Proof.Machine

open Claim

/-! ### Roots (R202, R212) -/

namespace CtxsKept

theorem keepObs (s : State) (root : Nat) : CtxsKept s (keepObs s root) := by
  unfold Machine.keepObs
  split
  · exact of_ctxs rfl
  · exact refl s

/-- Setting a root's observation configuration, or waiting to set it. -/
theorem rootObs (s : State) (g : RootCfg) : CtxsKept s (rootObs s g) := by
  have made := setObs s g.id none g.obs
  unfold Machine.rootObs
  refine CtxsKept.ite (refl s) ?_
  dsimp only
  split
  · exact waitTick s _ _ _
  · exact made.trans (keepObs _ _)
  next e =>
  have first := made.trans ((obsHeader _ _ _ _ _ _).ok e)
  split
  · exact waitTick s _ _ _
  · exact first.trans (keepObs _ _)
  · next e => exact ((alongside first fun u => obsHeader u _ _ _ _ _).ok e).trans (keepObs _ _)

end CtxsKept

section
variable {s u : State} {cfg : RootCfg} {e : Option LaunchRec}

/-- The entry record of a root: none without local memory, else the one that its configuration names. -/
theorem root_entry {n : Nat} {r : Option LaunchRec} (h : (n = 0 ∧ e = none) ∨ (n ≠ 0 ∧ r = e ∧ e.isSome)) :
    (n != 0 && r.isNone) = false ∧ (if n == 0 then none else r) = e := by
  rcases h with ⟨rfl, rfl⟩ | ⟨hn, rfl, hs⟩
  · exact ⟨rfl, rfl⟩
  · exact ⟨by simp [Option.isNone_eq_false_iff.2 hs], by simp [hn]⟩

/-- What a context was made with, in the order of its state, configuration, parent and entry. -/
theorem Ctx.state_of_made {o : Option Ctx} {c : Conf} {p : Option Nat} {z : CState} (h : o.map Ctx.made = some (c, p, z, e)) :
    o.map (fun x => (x.state, x.conf, x.parent, x.entry)) = some (z, c, p, e) := by
  cases o with
  | none => cases h
  | some x =>
    cases h
    rfl

theorem configureRoot_made (hk : rootOk s cfg (confOf cfg.conf) = true) (hn : s.part? cfg.id = none)
    (he : ((confOf cfg.conf).localfr = 0 ∧ e = none) ∨
      ((confOf cfg.conf).localfr ≠ 0 ∧ rootEntry s cfg (confOf cfg.conf) = e ∧ e.isSome))
    (hr : carveRoom s (confOf cfg.conf).localfr (coresIn (confOf cfg.conf).units) = (u, true)) :
    ((configureRoot s cfg).ctx? cfg.id).map Ctx.made = some (confOf cfg.conf, none, .stopped, e) ∧
      ((configureRoot s cfg).part? cfg.id).map (fun p => (p.period, p.logMax, p.area)) =
        some (cfg.period, cfg.logMax, cfg.area) := by
  obtain ⟨there, entry⟩ := root_entry he
  unfold configureRoot
  dsimp only
  rw [hn, hk, there, hr, entry]
  dsimp only [Option.isSome_none, Bool.not_true, Bool.or_self, Bool.false_eq_true, if_false]
  rw [if_neg (by simp), if_neg (by simp)]
  refine ⟨?_, ?_⟩
  · refine Eq.trans (CtxsKept.of_ctxs (State.setPart_ctxs _ _ _) cfg.id) ?_
    refine Eq.trans (CtxsKept.rootObs _ cfg cfg.id) ?_
    refine Eq.trans (CtxsKept.of_ctxs (s := State.updCtx _ _ _) rfl cfg.id) ?_
    refine Eq.trans (CtxsKept.updCtx _ cfg.id ?_ cfg.id) (makeCtx_made u cfg.id none _ e)
    exact fun _ => rfl
  · rw [State.part?_setPart]
    rfl

end

/-! ### Owed counters (R204, R281, R282, R41) -/

section
variable {s u v : State} {ctx i : Nat} {q p : Word64}

theorem stopDone_pays {x : Ctx} {rest : List (Word64 × Nat)} (hx : s.ctx? ctx = some x) (hs : x.stops = (q, i) :: rest)
    (hq : (s.waves.any fun w => inSubtree s ctx w.2.ctx && (w.2.accs.any (fun a => !a.early && a.faulted.isNone) ||
      !w.2.pend.isEmpty)) = false) (hr : (logFull s i && sealWaits s i) = false)
    (hb : bump (logRoom s i) (launchCore (logRoom s i) i) i q 1 = .ok () u) :
    stopDone s ctx = (u.updCtx ctx fun x => { x with stops := rest }).soon (.ctxstopComplete ctx) := by
  unfold stopDone
  rw [hx]
  dsimp only
  rw [hs]
  dsimp only
  rw [hq, withRoom_ready _ _ hr, hb]
  rfl

theorem killDone_pays
    (hk : s.ctxs.findSome? (fun y => (y.2.kills.find? (fun k => k.1 == ctx)).map (fun k => (y.1, k.2))) = some (i, q))
    (hr : (logFull s i && sealWaits s i) = false)
    (hb : bump (logRoom s i) (launchCore (logRoom s i) i) i q 1 = .ok () u) :
    killDone s ctx = (u.updCtx i fun x => { x with kills := x.kills.erase (ctx, q) }).soon (.ctxkillComplete ctx) := by
  unfold killDone
  rw [hk]
  dsimp only
  rw [withRoom_ready _ _ hr, hb]

theorem payCounter_pays {x : Ctx} (self : Instr) (hx : s.ctx? ctx = some x) (hr : (logFull s ctx && sealWaits s ctx) = false)
    (hb : bump (logRoom s ctx) (launchCore (logRoom s ctx) ctx) ctx p 1 = .ok () u) : payCounter s ctx p self = u := by
  unfold payCounter
  rw [hx]
  dsimp only
  rw [withRoom_ready _ _ hr, hb]

/-- Without an open window no revocation rolls one back. -/
theorem revokeDone_pays {x : Ctx} {root : Nat} {t : State} (hw : ∀ w ∈ s.waves, w.2.win = none) (hx : s.ctx? ctx = some x)
    (ht : restartWalks (dropTlb s fun e => inSubtree s root e.ctx) (fun c _ => inSubtree s root c) = t)
    (hb : begunWith s (fun c _ => inSubtree s root c) = false) (hr : (logFull t ctx && sealWaits t ctx) = false)
    (hp : bump (logRoom t ctx) (launchCore (logRoom t ctx) ctx) ctx p 1 = .ok () v) : revokeDone s ctx root p = v := by
  have waves : t.waves = s.waves := ht ▸ rfl
  have begun : begunWith t (fun c _ => inSubtree s root c) = false := ht ▸ hb
  have there : t.ctx? ctx = some x := ht ▸ hx
  unfold revokeDone
  dsimp only
  rw [ht, List.filter_eq_nil_iff.2 ?_]
  · rw [List.map_nil, List.foldl_nil, begun]
    exact payCounter_pays _ there hr hp
  · intro w h
    simp [hw w (waves ▸ h)]

theorem earlyIn_closed {w : Wave} (ok : Nat → Bool) (h : w.win = none) : earlyIn w ok = false := by
  simp [earlyIn, h]

/-- Is a page of a context within the scope of a TLBINV? -/
def tlbScope (target first n : Nat) (all : Bool) (c page : Nat) : Bool :=
  c == target && (all || (decide (first ≤ page) && decide (page < first + n)))

/-- Without an open window no TLBINV rolls one back. -/
theorem tlbinvDone_pays {x : Ctx} {root k m : Nat} {all : Bool} {t : State} (hw : ∀ w ∈ s.waves, w.2.win = none)
    (hx : s.ctx? ctx = some x)
    (ht : restartWalks (dropTlb s fun e => tlbScope root k m all e.ctx (e.vpart / 32))
      (fun c va => tlbScope root k m all c (va / page2M)) = t)
    (hb : begunWith s (fun _ x => x.ent.any fun e => tlbScope root k m all e.ctx (e.vpart / 32)) = false)
    (hr : (logFull t ctx && sealWaits t ctx) = false)
    (hp : bump (logRoom t ctx) (launchCore (logRoom t ctx) ctx) ctx p 1 = .ok () v) : tlbinvDone s ctx root k m all p = v := by
  have waves : t.waves = s.waves := ht ▸ rfl
  have begun : begunWith t (fun _ x => x.ent.any fun e => tlbScope root k m all e.ctx (e.vpart / 32)) = false := ht ▸ hb
  have there : t.ctx? ctx = some x := ht ▸ hx
  have kept : rollbackAll t (fun _ w => earlyIn w (tlbScope root k m all w.ctx)) = t :=
    rollbackAll_none fun w h => earlyIn_closed _ (hw w (waves ▸ h))
  have pays : tlbinvDone s ctx root k m all p =
      if begunWith (rollbackAll t fun _ w => earlyIn w (tlbScope root k m all w.ctx))
          fun _ x => x.ent.any fun e => tlbScope root k m all e.ctx (e.vpart / 32)
      then (rollbackAll t fun _ w => earlyIn w (tlbScope root k m all w.ctx)).afterTicks 1 (.tlbinvComplete ctx root k m all p)
      else payCounter (rollbackAll t fun _ w => earlyIn w (tlbScope root k m all w.ctx)) ctx p
        (.tlbinvComplete ctx root k m all p) := ht ▸ rfl
  rw [pays, kept, begun]
  exact payCounter_pays _ there hr hp

end

end Sys2Proof.Machine

/-!
PROOF. Boot, the end of power and errors in memory and registers; what the steps of partitions, units, power and errors do (O49).
-/

namespace Sys2Proof.Machine

open Claim

/-! ### Boot (R373, R374) -/

section
variable {s : State} (b : BootIn)

theorem boot_unverified (hp : s.dev.power = false) (hi : firstImage s.dev.minSvn (b.slots.take 4) = none) :
    boot s b = { s with dev := { s.dev with power := true, state := 4 } } := by
  simp [boot, hp, hi]

/-- What a boot with a verified image leaves of the device: STATE 4 where a later step fails, else the module's own
configuration. -/
theorem boot_verified {i : Nat} (hp : s.dev.power = false) (hi : firstImage s.dev.minSvn (b.slots.take 4) = some i) :
    let d := (boot s b).dev
    let ok := b.restOk && b.linksOk && routesOk b.routes && hdmOk b.hdm
    d.power = true ∧ d.svn = i ∧ d.minSvn = max s.dev.minSvn b.raiseTo ∧
      d.state = (if ok then (if b.towers = 0xFF then 2 else 3) else 4) ∧
      (ok = true → d.dieUp = b.towers ∧ d.devId = b.routes.own ∧ d.routes = b.routes.entries ∧ d.hdm = b.hdm ∧
        d.hostUp = b.hostLink) := by
  unfold boot
  rw [hp, hi]
  dsimp only
  rw [if_neg (by simp)]
  cases hr : b.restOk
  · simp
  cases hl : b.linksOk
  · simp
  cases ht : routesOk b.routes
  · simp
  cases hh : hdmOk b.hdm
  · simp
  · simp

theorem execModulePowerOn_boots (hp : s.dev.power = false) : Goes (.modulePowerOn b) s fun t => t.dev.power = true ∧
    (firstImage s.dev.minSvn (b.slots.take 4) = none → t.dev.state = 4 ∧ t.dev.minSvn = s.dev.minSvn) ∧
    (∀ i, firstImage s.dev.minSvn (b.slots.take 4) = some i → t.dev.svn = i ∧ t.dev.minSvn = max s.dev.minSvn b.raiseTo ∧
      let ok := b.restOk && b.linksOk && routesOk b.routes && hdmOk b.hdm
      t.dev.state = (if ok then (if b.towers = 0xFF then 2 else 3) else 4) ∧
      (ok = true → t.dev.dieUp = b.towers ∧ t.dev.devId = b.routes.own ∧ t.dev.routes = b.routes.entries ∧
        t.dev.hdm = b.hdm ∧ t.dev.hostUp = b.hostLink)) := by
  refine ⟨boot s b, rfl, ?_, fun hi => ?_, fun i hi => (boot_verified b hp hi).2⟩
  · cases hi : firstImage s.dev.minSvn (b.slots.take 4) with
    | none => rw [boot_unverified b hp hi]
    | some i => exact (boot_verified b hp hi).1
  · rw [boot_unverified b hp hi]
    exact ⟨rfl, rfl⟩

end

/-! ### The end of power (R378) -/

/-- A key that a filter by keys keeps is found as before. -/
theorem Sp.find_filter {α : Type} (p : Nat → Bool) {k : Nat} (h : p k = true) (m : List (Nat × α)) :
    Sp.find (m.filter fun c => p c.1) k = Sp.find m k := by
  induction m with
  | nil => rfl
  | cons a m ih =>
    obtain ⟨j, v⟩ := a
    by_cases e : j = k
    · subst e
      simp [Sp.find, h]
    · cases g : p j <;> simp [Sp.find, e, g, ih]

/-- Memory outside the towers outlives the module's power. -/
theorem read_powerOff {s : State} {a : Nat} (h : kindOf a ≠ 0 ∨ deviceOf a ≠ s.dev.devId.toNat) :
    Memory.read (powerOff s).mem a = Memory.read s.mem a := by
  have kept : (!ownHbm s a) = true := by
    rcases h with h | h <;> simp [ownHbm, h]
  exact congrArg (Option.getD · Memory.fresh) (Sp.find_filter (fun a => !ownHbm s a) kept s.mem)

theorem orderlyOff_powerOff {s u v : State} {keep : List (Nat × Nat)}
    (he : endSlices s (.orderlyPowerOff keep) (s.parts.length + 1) = (u, true))
    (hp : preservePages keep (evictAll u (List.range 4096)) = (v, none)) : orderlyOff s keep = powerOff v := by
  unfold orderlyOff
  rw [he]
  dsimp only
  rw [hp]

/-! ### Errors in memory and registers (R140, R206) -/

section
variable {s : State}

/-- An error below LSTATIC poisons the whole line of local memory. -/
theorem localError_static {core ctx off : Nat} (hs : off / 128 * 128 < localSize s core ctx)
    (hl : off / 128 * 128 < lstaticOf s ctx) : localError s core ctx off = poisonLocal s core ctx (off / 128 * 128) := by
  simp [localError, Nat.not_le.2 hs, hl]

theorem execLocalUe_poisons {core ctx off : Nat} (hs : off / 128 * 128 < localSize s core ctx)
    (hl : off / 128 * 128 < lstaticOf s ctx) (hh : s.sch.hits = []) : Goes (.localUe core ctx off) s fun t =>
      (t.line (localAddr s core ctx (off / 128 * 128) / 128)).poison = true := by
  refine ⟨settleHits (poisonLocal s core ctx (off / 128 * 128)), ?_, ?_⟩
  · rw [← localError_static hs hl]
    rfl
  · rw [settleHits_quiet (show (poisonLocal s core ctx (off / 128 * 128)).sch.hits = [] from hh)]
    exact congrArg LineRec.poison (State.line_setLine s _ _)

theorem tagSite_tileWord (core k m : Nat) : (tagSite s (.tileWord core k m)).wordPoison core k m = true :=
  Sp.get_put false s.mx.wpoison (wordKey core k m) true

theorem tagSite_tileScale (core k m : Nat) : (tagSite s (.tileScale core k m)).sclPoison core k m = true :=
  Sp.get_put false s.mx.spoison (sclKey core k m) true

theorem tagSite_accElem (core k m : Nat) :
    ((tagSite s (.accElem core k m)).accElem core k (m / 512) (m % 512)).poison = true :=
  congrArg AccElem.poison (Sp.get_put _ _ _ _)

variable {w : Wave} {n : Nat}

theorem vAt_tagSite (h : s.wave? n = some w) (k m : Nat) : vAt (tagSite s (.vreg n k m)) n k m = ⟨(w.v k m).val, true⟩ := by
  rw [vAt, tagSite, State.wave?_updWave _ h]
  exact Sp.get_put _ _ _ _

theorem sAt_tagSite (h : s.wave? n = some w) (k : Nat) : sAt (tagSite s (.sreg n k)) n k = ⟨(w.s k).val, true⟩ := by
  rw [sAt, tagSite, State.wave?_updWave _ h]
  exact Sp.get_put _ _ _ _

theorem pAt_tagSite (h : s.wave? n = some w) (k m : Nat) : pAt (tagSite s (.pred n k m)) n k m = ⟨(w.p k m).val, true⟩ := by
  rw [pAt, tagSite, State.wave?_updWave _ h]
  exact Sp.get_put _ _ _ _

end

/-! ### The obligation -/

/-- Settles O49: a step for each clause. A step that acts on conflicts afterwards only rolls windows back, and a rollback leaves
partitions, frames and cores (but their launch buffers) as they are. -/
theorem partitionAndPowerSteps : Obligations.PartitionAndPowerSteps := by
  intro s u v root core ctx off n k m b thr cfg all keep p
  refine ⟨fun _ _ => execCheckpoint_cuts, ?sliceEnd, ?sliceStart, ?lend, ?reclaim, ?drain, execBankPowerOff_off, ?engine,
    execBankPowerOn_on, ?root, ?stop, ?kill, ?counters, execModulePowerOn_boots b, ⟨_, rfl, rfl, rfl⟩, ?off, ?orderly,
    execLocalUe_poisons, ?vreg, ?sreg, ?pred, ⟨_, rfl, tagSite_tileWord core k m⟩, ⟨_, rfl, tagSite_tileScale core k m⟩,
    ⟨_, rfl, tagSite_accElem core k m⟩⟩
  case sliceEnd =>
    exact fun q x hq hx hs hr ha => leads_settleHits rfl (endSlice_frees hq hx hs hr ha)
  case sliceStart =>
    exact fun q x hq hx => ⟨fun hs hn => leads_settleHits rfl (startSlice_first hq hx hs hn),
      fun z hs he hz hr => leads_settleHits rfl (startSlice_wakes hq hx hs he hz hr)⟩
  case lend =>
    exact fun o q b ho hb hc hr hq => goes_unrolled (v := Machine.lend s core root) rfl fun t ht _ =>
      (congrArg (Option.map Partition.lent) (State.part?_congr ht.parts root)).trans (lend_lends ho hb hc hr hq)
  case reclaim =>
    exact fun b q hq => leads_settleHits rfl (reclaimUnit_leaves hq)
  case drain =>
    exact fun hh hc hd hr => leads_settleHits rfl (drainUnit_drains hh hc hd hr)
  case engine =>
    exact fun hc => ⟨⟨_, rfl, (settleHits_core Core.loupeOn (fun _ _ => rfl) _ core).trans (unitOff_loupe hc _)⟩,
      ⟨_, rfl, (settleHits_core Core.lunaOn (fun _ _ => rfl) _ core).trans (unitOn_luna hc)⟩,
      ⟨_, rfl, (settleHits_core Core.lunaOn (fun _ _ => rfl) _ core).trans (unitOff_luna hc (.unitDrain (.luna core)))⟩⟩
  case root =>
    exact fun e hk hn he hr => ⟨_, rfl, (configureRoot_made hk hn he hr).imp_left Ctx.state_of_made⟩
  case stop =>
    exact fun x q i rest hx hs hq hr hb => leads_settleHits rfl (stopDone_pays hx hs hq hr hb)
  case kill =>
    exact fun i q hk hr hb => leads_settleHits rfl (killDone_pays hk hr hb)
  case counters =>
    exact fun x hw hx => ⟨fun hb hr hp => leads_settleHits rfl (revokeDone_pays hw hx rfl hb hr hp),
      fun hb hr hp => leads_settleHits rfl (tlbinvDone_pays hw hx rfl hb hr hp)⟩
  case off =>
    rintro e (rfl | rfl) <;>
      exact ⟨powerOff s, rfl, rfl, rfl, rfl, rfl, rfl, rfl, rfl, fun _ => read_powerOff⟩
  case orderly =>
    exact fun he hp => ⟨_, rfl, orderlyOff_powerOff he hp⟩
  case vreg =>
    exact fun w hw => ⟨_, rfl, vAt_tagSite hw k m⟩
  case sreg =>
    exact fun w hw => ⟨_, rfl, sAt_tagSite hw k⟩
  case pred =>
    exact fun w hw => ⟨_, rfl, pAt_tagSite hw k m⟩

end Sys2Proof.Machine

/-!
PROOF. What the end of issue leaves of contexts: all but the ring and the step control (R193, R222). LEASE, FENCE and CRANGE
from that (O29).
-/

namespace Sys2Proof.Machine

open Claim

/-! ### What the end of issue leaves of a context -/

/-- A context without its ring and its step control, which the end of issue may change. -/
def Ctx.still (x : Ctx) : Ctx := { x with ring := {}, step := 0 }

/-- From s to t every context stays but for its ring and its step control. -/
def CtxsStill (s t : State) : Prop := ∀ c, (t.ctx? c).map Ctx.still = (s.ctx? c).map Ctx.still

namespace CtxsStill

theorem refl (s : State) : CtxsStill s s := fun _ => rfl

theorem trans {s t u : State} (h : CtxsStill s t) (k : CtxsStill t u) : CtxsStill s u := fun c => (k c).trans (h c)

theorem of_ctxs {s t : State} (h : t.ctxs = s.ctxs) : CtxsStill s t := fun c => by rw [State.ctx?, State.ctx?, h]

/-- What does not depend on ring and step control reads as before. -/
theorem reads {α : Type} {s t : State} (h : CtxsStill s t) {g : Ctx → α} (hg : ∀ x, g x.still = g x) (c : Nat) :
    (t.ctx? c).map g = (s.ctx? c).map g := by
  have drop (o : Option Ctx) : o.map g = (o.map Ctx.still).map g := by
    rw [Option.map_map, show g ∘ Ctx.still = g from funext hg]
  rw [drop, h c, ← drop]

theorem setCtx {s : State} {c : Nat} {x y : Ctx} (h : s.ctx? c = some x) (k : y.still = x.still) :
    CtxsStill s (s.setCtx c y) := fun d => by
  by_cases e : d = c
  · subst e
    rw [State.ctx?_setCtx, h, Option.map_some, Option.map_some, k]
  · rw [State.ctx?_setCtx_ne _ _ e]

theorem ringPut (s : State) (ring : Option Nat) (r : FaultRec) : CtxsStill s (ringPut s ring r) := by
  unfold Machine.ringPut
  split
  · exact of_ctxs rfl
  · split
    · exact of_ctxs rfl
    · next x hx => split <;> exact setCtx hx rfl

theorem foldl_setLine (g : State → Nat × LineRec → LineRec) (l : List (Nat × LineRec)) (s : State) :
    (l.foldl (fun s x => s.setLine x.1 (g s x)) s).ctxs = s.ctxs := by
  induction l generalizing s with
  | nil => rfl
  | cons x l ih => exact ih _

theorem unpin (s : State) (w : Nat) : CtxsStill s (unpin s w) := by
  unfold Machine.unpin
  split
  · exact refl s
  · refine trans (of_ctxs (t := unmarkLines s) (foldl_setLine _ _ s)) ?_
    dsimp only
    split
    · exact of_ctxs rfl
    · exact fun c => congrArg (Option.map Ctx.still) (State.ensureSoon_ctx? _ _ c)

theorem withdrawPin (s : State) (w : Nat) : CtxsStill s (withdrawPin s w) :=
  of_ctxs (State.updWave_ctxs { s with pins := _ } w _)

theorem takeFault (s : State) (w i : Nat) (pc base next : Word64) (k : ParkKind) (f : FaultInfo) :
    CtxsStill s (takeFault s w i pc base next k f) := by
  unfold Machine.takeFault
  split
  · exact refl s
  · split
    · exact refl s
    · next x c hc =>
      have pins (t : State) (y : Wave) : CtxsStill t (if (y.settle.state == .running) = true then t else
          Machine.withdrawPin (Machine.unpin t w) w) := by
        split
        · exact refl t
        · exact (unpin t w).trans (withdrawPin _ w)
      dsimp only
      refine .trans ?_ (ringPut _ _ _)
      refine .trans (.trans ?_ (pins _ _)) (of_ctxs (t := dropLatch _ w) rfl)
      exact setCtx (s := s.setWave w _) hc rfl

theorem stepStop (w : Nat) (m pc : Word64) (is : List Nat) (s : State) : CtxsStill s (stepStop s w m pc is) := by
  induction is generalizing s with
  | nil => exact refl s
  | cons i is ih =>
    unfold Machine.stepStop
    dsimp only
    refine .trans ?_ (ih _)
    split
    · split
      · exact takeFault _ _ _ _ _ _ _ _
      · exact refl s
    · exact refl s

theorem fireStep (x : Iss) (s : State) : CtxsStill s (fireStep x s) := by
  unfold Machine.fireStep
  split
  · exact refl s
  · unfold fireStepAt
    split
    · next c hc =>
      split
      · refine .trans ?_ (stepStop _ _ _ _ _)
        exact setCtx hc rfl
      · exact refl s
    · exact refl s

theorem finish (x : Iss) (i : Instr) (moved later : Bool) (s : State) : CtxsStill s (finish x i moved later s) := by
  refine of_ctxs ?_
  unfold Machine.finish
  dsimp only
  rw [State.setLp_ctxs]
  split
  · rfl
  · split <;> rfl

end CtxsStill

/-! ### An instruction that completes at issue -/

section
variable {i : Instr} {s t : State} {c : Cur} {w : Wave} {act : Iss → State → Act}

/-- The end of issue keeps what an instruction has done. -/
theorem complete_later (x : Iss) (i : Instr) (t : State) : Later t (fireStep x (finish x i false false t)) :=
  (finish_later _ _ _ _ t).trans (fireStep_later _ _)

/-- What an instruction has done stands when it completes. -/
theorem actOut_done (x : Iss) : ∃ u, actOut i s c w x (.done t) = .next u ∧ Later t u ∧ CtxsStill t u :=
  ⟨_, rfl, complete_later .., (CtxsStill.finish _ _ _ _ t).trans (.fireStep _ _)⟩

end

/-- The window that opens changes no register that reads (R16, R106). -/
theorem opened_readS (s : State) (c : Cur) (w : Wave) (free r : Nat) : (opened s c w).readS free r = w.readS free r := by
  unfold opened Wave.openWindow
  split
  · rfl
  · split <;> rfl

theorem opened_readX (s : State) (c : Cur) (w : Wave) (free r : Nat) : (opened s c w).readX free r = w.readX free r := by
  simp only [Wave.readX, opened_readS]

/-! ### LEASE and FENCE (R292, R293) -/

/-- A lease set in a wave stays in what comes later. -/
theorem Later.lease_set {s t : State} {wid n : Nat} {y : Wave} (hy : s.wave? wid = some y)
    (h : Later (s.updWave wid fun y => { y with lease := n }) t) : (t.wave? wid).map (·.lease) = some n := by
  obtain ⟨z, hz, k⟩ := h.wave_some (State.wave?_updWave _ hy)
  rw [hz, Option.map_some, k.lease]

/-- LEASE sets its immediate, or its register clamped to 1 to 255. -/
theorem lease_sets {ctl : Ctl} {n : NArg} {s : State} {c : Cur} {w : Wave} : Begins (.lease ctl n) s c w →
    ∃ t, exec (.lease ctl n) s = .next t ∧ (t.wave? c.wave).map (·.lease) = some
      (match n with | .imm v => v.toNat | .reg r => max 1 (min 255 (srcS w s.sch.free r).val.toNat)) := by
  intro h
  show ∃ t, execLease ctl n s = .next t ∧ _
  unfold execLease
  rw [issue_acts h]
  refine ⟨_, rfl, (Later.lease_set (State.wave?_setWave s c.wave _) (complete_later ..)).trans ?_⟩
  cases n with
  | imm v => rfl
  | reg r => exact congrArg (fun v : VWord => some (max 1 (min 255 v.val.toNat))) (opened_readS s c w s.sch.free r.toNat)

/-- FENCE seals: where it takes the seal itself, the undo log of its partition is empty. -/
theorem fence_seals {ctl : Ctl} {s : State} {c : Cur} {w : Wave} (h : BeginsSealed (.fence ctl) s c w) :
    ∃ t, exec (.fence ctl) s = .next t ∧ ((w.path c.path).sealed = false →
      ∀ p, (begun s c w).part? (rootOf (begun s c w) w.ctx) = some p →
        (t.part? (rootOf (begun s c w) w.ctx)).map (·.log) = some []) := by
  obtain ⟨t, ht, later, -⟩ := issueSealed_done (act := fun _ s => .done s) h rfl
  refine ⟨t, ht, fun hs p hp => ?_⟩
  obtain ⟨x, hx⟩ := checkpointOf_parts hp
  rw [State.part?, later.parts, underSeal, if_neg (by rw [hs]; decide), takeSeal, hx, Sp.find_insert]
  rfl

/-! ### CRANGE (R294) -/

/-- With a seal taken while it waited, or no access on its way, an instruction acts under its seal. -/
theorem sealedAct_acts {i : Instr} {s : State} {c : Cur} {w : Wave} (h : BeginsSealed i s c w) (act : State → Act) :
    sealedAct (issOf i s c w) (begun s c w) act = act (underSeal s c w) := by
  cases hs : (w.path c.path).sealed with
  | true => simp [sealedAct, underSeal, issOf, hs]
  | false => simp [sealedAct, underSeal, issOf, opened_ctx, hs, h.quiet hs]

/-- What acts under a seal in one case and at once in the other begins in that state. -/
theorem sealedIf_acts {i : Instr} {s : State} {c : Cur} {w : Wave} {q : Bool} (h : q = true → BeginsSealed i s c w)
    (act : State → Act) : (if q = true then sealedAct (issOf i s c w) (begun s c w) act else act (begun s c w)) =
      act (if q then underSeal s c w else begun s c w) := by
  cases q with
  | true => simpa using sealedAct_acts (h rfl) act
  | false => rfl

/-- A run of no line is over at once: nothing is combined, no seal and no log line is asked for. -/
theorem runSeals_zero (s : State) (c slot : Nat) : runSeals s c slot 0 = false := by
  simp [runSeals, logShort]

/-- It leaves every wave as it is, and the context there. -/
theorem combineRun_zero {s : State} {c wid : Nat} {x : Ctx} {v : Wave} (slot : Nat) (hx : s.ctx? c = some x)
    (hv : s.wave? wid = some v) :
    ∃ u y, combineRun s c slot 0 0 = .ok none u ∧ u.wave? wid = some v ∧ u.ctx? c = some y := by
  unfold combineRun combineLines
  rw [State.updCtx_some _ hx]
  exact ⟨_, _, rfl, hv, State.ctx?_setCtx s c _⟩

section
variable {ctl : Ctl} {op : COp} {slot : BitVec 3} {d a : BitVec 8} {len poff : BitVec 32} {s : State} {c : Cur} {w : Wave}
  {x : Ctx} {p : Word64}

/-- A status written last is read when the instruction has completed, and contexts stay. -/
theorem status_done {i : Instr} {u : State} {v : Wave} (n : Nat) (hv : u.wave? c.wave = some v) :
    ∃ t, actOut i s c w (issOf i s c w) (.done (u.updWave c.wave fun y => y.write w.seq (wS d.toNat (BitVec.ofNat 32 n)))) = .next t ∧
      sAt t c.wave d.toNat = ⟨BitVec.ofNat 32 n, false⟩ ∧ CtxsStill u t := by
  obtain ⟨t, ht, later, still⟩ := actOut_done (i := i) (s := s) (c := c) (w := w) (issOf i s c w)
    (t := u.updWave c.wave fun y => y.write w.seq (wS d.toNat (BitVec.ofNat 32 n)))
  have held : (wS d.toNat (BitVec.ofNat 32 n)).held (v.write w.seq (wS d.toNat (BitVec.ofNat 32 n))) :=
    (held_congr (write_regs _ _ _) _).2 (poke_held v _)
  exact ⟨t, ht, later.holds (State.wave?_updWave _ hv) held, .trans (.of_ctxs (State.updWave_ctxs _ _ _)) still⟩

/-- The range that a CRANGE with base p declares. -/
def rangeOf (op : COp) (p : Word64) (len poff : BitVec 32) : CRange :=
  { base := p, len := len.toNat, op := op, poff := poff.toNat }

section
variable (h : Begins (.crange ctl op slot d a len poff) s c w) (hx : s.ctx? w.ctx = some x)
  (hp : srcX w s.sch.free a = (p, false))
include h hx hp

/-- A CRANGE with a status other than 0 declares nothing. -/
theorem crange_refuses (hn : rangeStatus x slot.toNat (rangeOf op p len poff) ≠ 0) :
    ∃ t, exec (.crange ctl op slot d a len poff) s = .next t ∧
      sAt t c.wave d.toNat = ⟨BitVec.ofNat 32 (rangeStatus x slot.toNat (rangeOf op p len poff)), false⟩ ∧
      (t.ctx? w.ctx).map (·.cranges) = some x.cranges := by
  obtain ⟨t, ht, status, still⟩ := status_done (i := .crange ctl op slot d a len poff) (s := s) (w := w) (d := d)
    (rangeStatus x slot.toNat (rangeOf op p len poff)) (State.wave?_setWave s c.wave (opened s c w))
  refine ⟨t, .trans ?_ ht, status, (still.reads (fun _ => rfl) w.ctx).trans (congrArg (Option.map _) hx)⟩
  have hp' : srcX (opened s c w) s.sch.free a = (p, false) := (opened_readX s c w _ _).trans hp
  have hx' : (s.setWave c.wave (opened s c w)).ctx? w.ctx = some x := hx
  show execCrange ctl op slot d a len poff s = _
  unfold execCrange
  rw [issue_acts h]
  simp only [issOf, State.setWave_sch, hp', opened_ctx, hx', Bool.false_eq_true, if_false]
  rw [if_pos (by simpa [rangeOf] using hn)]
  rfl

/-- A CRANGE of status 0 declares its slot, once the lines of what the slot declared are combined. -/
theorem crange_declares {n : Nat} {u : State} {v : Wave} {y : Ctx} (h0 : rangeStatus x slot.toNat (rangeOf op p len poff) = 0)
    (hn : (Sp.find x.cranges slot.toNat).elim 0 (·.len / 128) = n)
    (hs : runSeals (begun s c w) w.ctx slot.toNat n = true → BeginsSealed (.crange ctl op slot d a len poff) s c w)
    (hu : combineRun (if runSeals (begun s c w) w.ctx slot.toNat n then underSeal s c w else begun s c w) w.ctx slot.toNat 0 n =
      .ok none u) (hv : u.wave? c.wave = some v) (hy : u.ctx? w.ctx = some y) :
    ∃ t z, exec (.crange ctl op slot d a len poff) s = .next t ∧ sAt t c.wave d.toNat = ⟨0, false⟩ ∧ t.ctx? w.ctx = some z ∧
      Sp.find z.cranges slot.toNat = (if len = 0 then none else some (rangeOf op p len poff)) := by
  let put (m : List (Nat × CRange)) := if len == 0 then Sp.erase m slot.toNat else Sp.insert m slot.toNat (rangeOf op p len poff)
  have found : Sp.find (put y.cranges) slot.toNat = if len = 0 then none else some (rangeOf op p len poff) := by
    by_cases e : len = 0#32 <;> simp [put, e]
  obtain ⟨t, ht, status, still⟩ := status_done (i := .crange ctl op slot d a len poff) (s := s) (w := w) (d := d)
    (u := u.updCtx w.ctx fun z => { z with cranges := put z.cranges }) (v := v) 0 ((congrArg (fun m => Sp.find m c.wave) (State.updCtx_waves _ _ _)).trans hv)
  have ranges := still.reads (g := Ctx.cranges) (fun _ => rfl) w.ctx
  rw [State.updCtx_some _ hy, State.ctx?_setCtx] at ranges
  obtain ⟨z, hz, hr⟩ := Option.map_eq_some_iff.1 ranges
  refine ⟨t, z, .trans ?_ ht, status, hz, hr ▸ found⟩
  have hp' : srcX (opened s c w) s.sch.free a = (p, false) := (opened_readX s c w _ _).trans hp
  have hx' : (s.setWave c.wave (opened s c w)).ctx? w.ctx = some x := hx
  show execCrange ctl op slot d a len poff s = _
  unfold execCrange
  rw [issue_acts h]
  simp only [issOf, State.setWave_sch, hp', opened_ctx, hx', Bool.false_eq_true, if_false]
  rw [if_neg (by simpa [rangeOf] using h0)]
  have acts (go : State → Act) := congrArg
    (actOut (.crange ctl op slot d a len poff) s c w (issOf (.crange ctl op slot d a len poff) s c w)) (sealedIf_acts hs go)
  cases hf : Sp.find x.cranges slot.toNat <;> rw [hf] at hn <;> dsimp only [Option.elim] at hn ⊢ <;> subst hn <;>
    exact (acts _).trans (by rw [hu]; rfl)

end

end

/-! #### The status -/

/-- Orders 1 to 5 of a CRANGE's status (R294). -/
theorem rangeStatus_cases (x : Ctx) (k : Nat) (r : CRange) :
    let others := x.cranges.filter (fun y => y.1 != k)
    let b1 : Prop := spaceOf r.base ≠ 0 ∨ mustZero r.base = false ∨ r.base.toNat % 128 ≠ 0
    let b2 : Prop := r.len % 128 ≠ 0 ∨ 0x100000 < r.len
    let b3 : Prop := r.poff % 128 ≠ 0 ∨ x.conf.lstatic < r.poff + partialBytes r
    let b4 : Prop := ∃ y ∈ others, r.base.toNat < y.2.base.toNat + y.2.len ∧ y.2.base.toNat < r.base.toNat + r.len
    let b5 : Prop := ∃ y ∈ others, r.poff < y.2.poff + partialBytes y.2 ∧ y.2.poff < r.poff + partialBytes r
    (b1 → rangeStatus x k r = 1) ∧ (¬b1 → r.len = 0 → rangeStatus x k r = 0) ∧
    (r.len ≠ 0 → (¬b1 → b2 → rangeStatus x k r = 2) ∧ (¬b1 → ¬b2 → b3 → rangeStatus x k r = 3) ∧
      (¬b1 → ¬b2 → ¬b3 → b4 → rangeStatus x k r = 4) ∧ (¬b1 → ¬b2 → ¬b3 → ¬b4 → b5 → rangeStatus x k r = 5) ∧
      (¬b1 → ¬b2 → ¬b3 → ¬b4 → ¬b5 → rangeStatus x k r = 0)) := by
  intro others b1 b2 b3 b4 b5
  have e1 : (!globalAt r.base 128) = true ↔ b1 := by simp [globalAt, b1, or_assoc]
  have e2 : (r.len % 128 != 0 || decide (0x100000 < r.len)) = true ↔ b2 := by simp [b2]
  have e3 : (r.poff % 128 != 0 || decide (x.conf.lstatic < r.poff + partialBytes r)) = true ↔ b3 := by simp [b3]
  have e4 : others.any (fun y => decide (r.base.toNat < y.2.base.toNat + y.2.len) &&
      decide (y.2.base.toNat < r.base.toNat + r.len)) = true ↔ b4 := by
    simp only [List.any_eq_true, Bool.and_eq_true, decide_eq_true_eq, b4]
  have e5 : others.any (fun y => decide (r.poff < y.2.poff + partialBytes y.2) &&
      decide (y.2.poff < r.poff + partialBytes r)) = true ↔ b5 := by
    simp only [List.any_eq_true, Bool.and_eq_true, decide_eq_true_eq, b5]
  unfold rangeStatus
  dsimp only
  simp only [show x.cranges.filter (fun y => y.1 != k) = others from rfl, e1, e2, e3, e4, e5, beq_iff_eq]
  exact ⟨fun h1 => if_pos h1, fun h1 h0 => by rw [if_neg h1, if_pos h0], fun h0 =>
    ⟨fun h1 h2 => by rw [if_neg h1, if_neg h0, if_pos h2],
     fun h1 h2 h3 => by rw [if_neg h1, if_neg h0, if_neg h2, if_pos h3],
     fun h1 h2 h3 h4 => by rw [if_neg h1, if_neg h0, if_neg h2, if_neg h3, if_pos h4],
     fun h1 h2 h3 h4 h5 => by rw [if_neg h1, if_neg h0, if_neg h2, if_neg h3, if_neg h4, if_pos h5],
     fun h1 h2 h3 h4 h5 => by rw [if_neg h1, if_neg h0, if_neg h2, if_neg h3, if_neg h4, if_neg h5]⟩⟩

/-- Settles O29: LEASE, FENCE and CRANGE by what each leaves, the status of a CRANGE by its order of checks. -/
theorem leasesFencesRanges : Obligations.LeasesFencesRanges := by
  refine ⟨fun ctl n op slot d a len poff s c w => ⟨lease_sets, fence_seals, fun x p h hx hp => ⟨?refuses, ?first, ?again⟩⟩,
    rangeStatus_cases⟩
  case refuses => exact crange_refuses h hx hp
  case first =>
    intro h0 hf
    obtain ⟨u, y, hu, hv, hy⟩ := combineRun_zero slot.toNat (s := begun s c w) hx (State.wave?_setWave s c.wave (opened s c w))
    exact crange_declares h hx hp h0 (by rw [hf]) (by simp [runSeals_zero]) (by simpa [runSeals_zero] using hu) hv hy
  case again =>
    intro old u v y h0 hf seals hs hu hv hy
    exact crange_declares h hx hp h0 (by rw [hf]; rfl) hs hu hv hy

end Sys2Proof.Machine

/-!
PROOF. CTXRUN, CTXSTOP, CTXKILL and QOSSET answer with their status (O42).
-/

namespace Sys2Proof.Machine

open Claim

/-! ### What stands when a context instruction has completed -/

section
variable {i : Instr} {s : State} {c : Cur} {w : Wave} {act : Iss → State → Act} {v : State} {f : State → State}

/-- What the effect of a context instruction has made due is due when it has completed, and contexts stay as it left them. -/
theorem sealed_leaves (h : BeginsSealed i s c w) (he : exec i s = issueSealed i s act)
    (ha : act (issOf i s c w) (underSeal s c w) = sealedEffect (issOf i s c w) i v f) :
    ∃ t, exec i s = .next t ∧ CtxsStill (f v) t ∧ ∀ x ∈ (f v).sch.timers, x ∈ t.sch.timers := by
  obtain ⟨ps, hp⟩ := sealedEffect_done (issOf i s c w) i v f
  rw [he, issueSealed_acts h, ha, hp]
  obtain ⟨t, ht, later, still⟩ := actOut_done (i := i) (s := s) (c := c) (w := w) (t := { f v with parts := ps }) (issOf i s c w)
  exact ⟨t, ht, .trans (.of_ctxs rfl) still, later.timers⟩

end

theorem setStatus_timers (x : Iss) (s : State) (d : BitVec 8) (n : Nat) (pz : Bool) :
    (setStatus x s d n pz).sch.timers = s.sch.timers := by
  rw [setStatus, State.updWave_sch]

theorem setStatus_ctx? (x : Iss) (s : State) (d : BitVec 8) (n : Nat) (pz : Bool) (c : Nat) :
    (setStatus x s d n pz).ctx? c = s.ctx? c := State.updWave_ctx? ..

/-- A field that CTXRUN and its like set in a context changes none that it runs with. -/
theorem Later.updCtx {s : State} {c : Nat} {g : Ctx → Ctx} (h : ∀ x, (g x).conf = x.conf ∧ (g x).parent = x.parent ∧
    (g x).state = x.state ∧ (g x).declared = x.declared ∧ (g x).gver = x.gver ∧ (g x).bkpts = x.bkpts) :
    Later s (s.updCtx c g) := by
  unfold State.updCtx
  split
  · next x hx =>
    obtain ⟨h₁, h₂, h₃, h₄, h₅, h₆⟩ := h x
    exact Later.setCtx hx h₁ h₂ h₃ h₄ h₅ h₆
  · exact Later.refl s

/-! ### The instructions -/

section
variable {ctl : Ctl} {d k r : BitVec 8} {s : State} {c : Cur} {w : Wave} {t : Nat} {pk : Bool}

/-! #### CTXRUN (R281) -/

section
variable {y : Ctx} (h : BeginsSealed (.ctxrun ctl d k) s c w)
  (hk : targetArg (issOf (.ctxrun ctl d k) s c w) (underSeal s c w) k false = .ok (t, pk))
  (hy : (underSeal s c w).ctx? t = some y) (hs : y.stops = [])
include h hk hy hs

theorem ctxrun_refuses (hn : y.state ≠ .stopped) : Answers (.ctxrun ctl d k) s c d 1 pk (underSeal s c w) := by
  refine answers_answer h (rfl : exec _ s = execCtxrun ctl d k s) ?_
  rw [hk]
  dsimp only
  rw [hy]
  dsimp only
  rw [hs, if_neg (by decide), if_pos (bne_iff_ne.2 hn)]

theorem ctxrun_runs (hn : y.state = .stopped) :
    Answers (.ctxrun ctl d k) s c d 0 pk ((subtreeOf (underSeal s c w) t).foldl runCtx (underSeal s c w)) := by
  refine answers_setStatus (v := underSeal s c w) (f := fun s => (subtreeOf s t).foldl runCtx s) h
    (rfl : exec _ s = execCtxrun ctl d k s) ?_ (.refl _)
  rw [hk]
  dsimp only
  rw [hy]
  dsimp only
  rw [hs, hn]
  exact (if_neg (by decide)).trans (if_neg (by decide))

end

/-! #### CTXSTOP (R281) -/

/-- A stopped subtree whose stop owes a counter to its issuer. -/
def stopOwed (v : State) (t issuer : Nat) (p : Word64) : State :=
  ((subtreeOf v t).foldl stopCtx v).updCtx t fun y => { y with stops := y.stops ++ [(p, issuer)] }

/-- Where the context is, the counter stands with its stops. -/
theorem stopOwed_stops {v : State} {t issuer : Nat} {p : Word64} {l : List (Word64 × Nat)}
    (h : ((stopOwed v t issuer p).ctx? t).map Ctx.stops = some l) : (p, issuer) ∈ l := by
  unfold stopOwed at h
  cases hx : ((subtreeOf v t).foldl stopCtx v).ctx? t with
  | none => simp [State.updCtx, hx] at h
  | some x =>
    rw [State.updCtx_some _ hx, State.ctx?_setCtx] at h
    cases h
    exact List.mem_append_right _ (List.mem_singleton_self _)

section
variable {p : Word64} {v : State} {y : Ctx}
  (hk : targetArg (issOf (.ctxstop ctl d k r) s c w) (underSeal s c w) k false = .ok (t, pk))
  (hp : counterArg (issOf (.ctxstop ctl d k r) s c w) (underSeal s c w) r = .ok (p, v)) (hy : v.ctx? t = some y)
include hk hp hy

theorem ctxstop_refuses (h : BeginsSealed (.ctxstop ctl d k r) s c w) (hn : y.state = .preempted) :
    Answers (.ctxstop ctl d k r) s c d 2 pk v := by
  refine answers_answer h (rfl : exec _ s = execCtxstop ctl d k r s) ?_
  dsimp only
  rw [hk]
  dsimp only
  rw [hp]
  dsimp only
  rw [hy]
  dsimp only
  rw [hn, if_pos (by decide)]

variable (hn : y.state ≠ .preempted)
include hn

/-- CTXSTOP stops the subtree and owes the counter. -/
theorem ctxstop_acts : ∃ act, exec (.ctxstop ctl d k r) s = issueSealed (.ctxstop ctl d k r) s act ∧
    act (issOf (.ctxstop ctl d k r) s c w) (underSeal s c w) = sealedEffect (issOf (.ctxstop ctl d k r) s c w) (.ctxstop ctl d k r) v
      (fun s => setStatus (issOf (.ctxstop ctl d k r) s c w) ((stopOwed s t w.ctx p).later (.ctxstopComplete t)) d
        (if y.state = .stopped then 1 else 0) pk) := by
  refine ⟨_, (rfl : exec _ s = execCtxstop ctl d k r s), ?_⟩
  dsimp only
  rw [hk]
  dsimp only
  rw [hp]
  dsimp only
  rw [hy]
  dsimp only
  rw [if_neg (by simpa using hn), issOf_ctx]
  simp only [beq_iff_eq, stopOwed]
  rfl

/-- It answers whether the subtree was stopped already; its completion is due, and the counter stands with the stop. -/
theorem ctxstop_stops (h : BeginsSealed (.ctxstop ctl d k r) s c w) :
    let u := (subtreeOf v t).foldl stopCtx v
    Answers (.ctxstop ctl d k r) s c d (if y.state = .stopped then 1 else 0) pk u ∧
      ((u.wave? c.wave).isSome → ∃ x n, exec (.ctxstop ctl d k r) s = .next x ∧
        Timer.mk false n (.ctxstopComplete t) ∈ x.sch.timers ∧ ∀ z, x.ctx? t = some z → (p, w.ctx) ∈ z.stops) := by
  intro u
  obtain ⟨act, he, ha⟩ := ctxstop_acts (d := d) hk hp hy hn
  have owed : Later u (stopOwed v t w.ctx p) := .updCtx fun _ => ⟨rfl, rfl, rfl, rfl, rfl, rfl⟩
  refine ⟨answers_setStatus h he ha (owed.trans (.later _ _)), fun _ => ?_⟩
  obtain ⟨x, hx, still, timers⟩ := sealed_leaves h he ha
  obtain ⟨n, due⟩ := Later.mem_later (stopOwed v t w.ctx p) (.ctxstopComplete t)
  refine ⟨x, n, hx, timers _ (by rw [setStatus_timers]; exact due), fun z hz => ?_⟩
  have stops := still.reads (g := Ctx.stops) (fun _ => rfl) t
  rw [hz, setStatus_ctx?] at stops
  exact stopOwed_stops stops.symm

end

/-! #### CTXKILL (R281) -/

section
variable {p : Word64} {v : State} (h : BeginsSealed (.ctxkill ctl d k r) s c w)
  (hk : targetArg (issOf (.ctxkill ctl d k r) s c w) (underSeal s c w) k false = .ok (t, pk))
  (hp : counterArg (issOf (.ctxkill ctl d k r) s c w) (underSeal s c w) r = .ok (p, v))
include h hk hp

/-- CTXKILL kills the subtree once none of its frames must be waited for, and its completion is due. -/
theorem ctxkill_kills : let u := (subtreeOf v t).foldl (fun s d => eachWave s d dropPins) v
    killWaits u t = false → Answers (.ctxkill ctl d k r) s c d 0 pk (killTree u t w.ctx p) ∧
      (((killTree u t w.ctx p).wave? c.wave).isSome →
        ∃ x n, exec (.ctxkill ctl d k r) s = .next x ∧ Timer.mk false n (.ctxkillComplete t) ∈ x.sch.timers) := by
  intro u hw
  have acts : ∃ act, exec (.ctxkill ctl d k r) s = issueSealed (.ctxkill ctl d k r) s act ∧
      act (issOf (.ctxkill ctl d k r) s c w) (underSeal s c w) = sealedEffect (issOf (.ctxkill ctl d k r) s c w) (.ctxkill ctl d k r) u
        (fun s => setStatus (issOf (.ctxkill ctl d k r) s c w) ((killTree s t w.ctx p).later (.ctxkillComplete t)) d 0 pk) := by
    refine ⟨_, (rfl : exec _ s = execCtxkill ctl d k r s), ?_⟩
    dsimp only
    rw [hk]
    dsimp only
    rw [hp]
    dsimp only
    rw [if_neg (by rw [hw]; decide), issOf_ctx]
    rfl
  obtain ⟨act, he, ha⟩ := acts
  refine ⟨answers_setStatus h he ha (.later _ _), fun _ => ?_⟩
  obtain ⟨x, hx, -, timers⟩ := sealed_leaves h he ha
  obtain ⟨n, due⟩ := Later.mem_later (killTree u t w.ctx p) (.ctxkillComplete t)
  exact ⟨x, n, hx, timers _ (by rw [setStatus_timers]; exact due)⟩

end

/-! #### QOSSET (R99, R283) -/

/-- The bucket that QOSSET leaves a context. -/
theorem setBucket_bucket {s : State} {c rate depth : Nat} {b : Option (Nat × Nat)}
    (h : ((setBucket s c rate depth).ctx? c).map Ctx.bucket = some b) : b = if rate = 0 then none else some (rate, depth) := by
  unfold setBucket at h
  cases hx : s.ctx? c with
  | none => simp [State.updCtx, hx] at h
  | some x =>
    rw [State.updCtx_some _ hx, State.ctx?_setCtx] at h
    cases h
    by_cases e : rate = 0
    · simp [e]
    · simp only [beq_eq_false_iff_ne.2 e, e, Bool.false_eq_true, if_false]
      split <;> rfl

section
variable {n : Nat} {pv : Bool} (h : BeginsSealed (.qosset ctl d k r) s c w)
  (hk : targetArg (issOf (.qosset ctl d k r) s c w) (underSeal s c w) k false = .ok (t, pk))
  (hr : scalarArg (issOf (.qosset ctl d k r) s c w) (underSeal s c w) r = (n, pv))
include h hk hr

theorem qosset_refuses (hn : qosStatus (underSeal s c w) t n (n % 65536) (n / 65536 % 256) ≠ 0) :
    Answers (.qosset ctl d k r) s c d (qosStatus (underSeal s c w) t n (n % 65536) (n / 65536 % 256)) (pk || pv)
      (underSeal s c w) := by
  refine answers_answer h (rfl : exec _ s = execQosset ctl d k r s) ?_
  dsimp only
  rw [hk]
  dsimp only
  rw [hr]
  dsimp only
  split
  · contradiction
  · rfl

/-- QOSSET of status 0 sets the bucket. -/
theorem qosset_sets (hn : qosStatus (underSeal s c w) t n (n % 65536) (n / 65536 % 256) = 0) :
    let u := setBucket (underSeal s c w) t (n % 65536) (n / 65536 % 256)
    Answers (.qosset ctl d k r) s c d 0 (pk || pv) u ∧ ((u.wave? c.wave).isSome → ∃ x, exec (.qosset ctl d k r) s = .next x ∧
      ∀ z, x.ctx? t = some z → z.bucket = if n % 65536 = 0 then none else some (n % 65536, n / 65536 % 256)) := by
  intro u
  have acts : ∃ act, exec (.qosset ctl d k r) s = issueSealed (.qosset ctl d k r) s act ∧
      act (issOf (.qosset ctl d k r) s c w) (underSeal s c w) = sealedEffect (issOf (.qosset ctl d k r) s c w) (.qosset ctl d k r)
        (underSeal s c w) (fun s => setStatus (issOf (.qosset ctl d k r) s c w)
          (setBucket s t (n % 65536) (n / 65536 % 256)) d 0 (pk || pv)) := by
    refine ⟨_, (rfl : exec _ s = execQosset ctl d k r s), ?_⟩
    dsimp only
    rw [hk]
    dsimp only
    rw [hr]
    dsimp only
    change (match qosStatus (underSeal s c w) t n (n % 65536) (n / 65536 % 256) with | 0 => _ | st => _) = _
    rw [hn]
    rfl
  obtain ⟨act, he, ha⟩ := acts
  refine ⟨answers_setStatus h he ha (.refl _), fun _ => ?_⟩
  obtain ⟨x, hx, still, -⟩ := sealed_leaves h he ha
  refine ⟨x, hx, fun z hz => ?_⟩
  have bucket := still.reads (g := Ctx.bucket) (fun _ => rfl) t
  rw [hz, setStatus_ctx?] at bucket
  exact setBucket_bucket bucket.symm

end

end

/-- Settles O42: each status, and each effect, by its lemma above. -/
theorem contextsRun : Obligations.ContextsRun := by
  intro ctl d k r s c w t pk
  exact ⟨fun y h hk hy hs => ⟨ctxrun_refuses h hk hy hs, ctxrun_runs h hk hy hs⟩,
    fun p v y h hk hp hy => ⟨ctxstop_refuses hk hp hy h, fun hn => ctxstop_stops hk hp hy hn h⟩,
    fun p v h hk hp => ctxkill_kills h hk hp, fun n pv h hk hr => ⟨qosset_refuses h hk hr, qosset_sets h hk hr⟩⟩

end Sys2Proof.Machine

/-!
PROOF. The steps of waves and of the lane pairs (O45).
-/

namespace Sys2Proof.Machine

open Claim

/-! ### What acting on conflicts leaves alone (R113, R114) -/

/-- From s to t no memory byte, no home, no clock and nothing of the device but its ring changes; no wave comes to be, and no conflict
is noted where none was. -/
structure Calm (s t : State) : Prop where
  mem    : t.mem = s.mem
  homes  : t.homes = s.homes
  clk    : t.clk = s.clk
  dev    : t.dev = { s.dev with ring := t.dev.ring }
  absent : ∀ w, s.wave? w = none → t.wave? w = none
  hits   : s.sch.hits = [] → t.sch.hits = []

namespace Calm

theorem refl (s : State) : Calm s s := ⟨rfl, rfl, rfl, rfl, fun _ h => h, fun h => h⟩

theorem trans {s t u : State} (h : Calm s t) (k : Calm t u) : Calm s u where
  mem := k.mem.trans h.mem
  homes := k.homes.trans h.homes
  clk := k.clk.trans h.clk
  dev := by rw [k.dev, h.dev]
  absent w hw := k.absent w (h.absent w hw)
  hits hs := k.hits (h.hits hs)

theorem of_later {s t : State} (h : Later s t) (hd : t.dev = { s.dev with ring := t.dev.ring })
    (hh : s.sch.hits = [] → t.sch.hits = []) : Calm s t where
  mem := h.mem
  homes := h.homes
  clk := h.clk
  dev := hd
  absent w hw := by
    have k := h.waves w
    rw [hw] at k
    cases e : t.wave? w with
    | none => rfl
    | some v => rw [e] at k; exact k.elim
  hits := hh

theorem foldl {α : Type} {f : State → α → State} (h : ∀ s a, Calm s (f s a)) (l : List α) (s : State) :
    Calm s (l.foldl f s) := by
  induction l generalizing s with
  | nil => exact refl s
  | cons a l ih => exact (h s a).trans (ih _)

theorem updWave (s : State) (w : Nat) (f : Wave → Wave) : Calm s (s.updWave w f) where
  mem := by simp
  homes := by simp
  clk := by simp
  dev := by simp
  absent v hv := by
    unfold State.updWave
    split
    · next x hx =>
      by_cases e : v = w
      · rw [e, hx] at hv; cases hv
      · rw [State.wave?_setWave_ne _ _ e]; exact hv
    · exact hv
  hits h := by simpa using h

theorem ringPut (s : State) (ring : Option Nat) (r : FaultRec) : Calm s (ringPut s ring r) := by
  refine of_later (ringPut_later s ring r) ?_ fun h => ?_ <;> unfold Machine.ringPut
  · split
    · rfl
    · split
      · rfl
      · split <;> rfl
  · split
    · exact h
    · split
      · exact h
      · split <;> exact h

theorem dropLatch (s : State) (w : Nat) : Calm s (dropLatch s w) := of_later (dropLatch_later s w) rfl fun h => h

theorem ensureSoon (s : State) (e : Instr) : Calm s (s.ensureSoon e) := by
  refine of_later (Later.ensureSoon s e) ?_ fun h => ?_ <;> unfold State.ensureSoon
  · split <;> rfl
  · split <;> exact h

theorem unmarkLines_dev (s : State) : (unmarkLines s).dev = s.dev := by
  have unmark (l : List (Nat × LineRec)) (t : State) :
      (l.foldl (fun s x => s.setLine x.1 { s.line x.1 with pinned := false }) t).dev = t.dev := by
    induction l generalizing t with
    | nil => rfl
    | cons x l ih => exact ih _
  exact unmark _ s

theorem unpin (s : State) (w : Nat) : Calm s (unpin s w) := by
  refine of_later (unpin_later s w) ?_ fun h => ?_ <;> unfold Machine.unpin
  · split
    · rfl
    · rw [← unmarkLines_dev s]
      generalize unmarkLines s = t
      dsimp only
      split
      · rfl
      · exact (ensureSoon _ _).dev
  · split
    · exact h
    · rw [← unmarkLines_sch s] at h
      generalize unmarkLines s = t at h
      dsimp only
      split
      · exact h
      · exact (ensureSoon _ _).hits h

theorem withdrawPin (s : State) (w : Nat) : Calm s (withdrawPin s w) :=
  .trans (t := { s with pins := { s.pins with queue := s.pins.queue.filter (· != w) } })
    ⟨rfl, rfl, rfl, rfl, fun _ h => h, fun h => h⟩ (updWave _ w _)

/-- TAKING A FAULT changes its wave, its context and a ring. -/
theorem takeFault (s : State) (w i : Nat) (pc base next : Word64) (k : ParkKind) (f : FaultInfo) :
    Calm s (takeFault s w i pc base next k f) := by
  have pins (t : State) (y : Wave) : Calm t (if (y.settle.state == .running) = true then t else
      Machine.withdrawPin (Machine.unpin t w) w) := by
    split
    · exact refl t
    · exact (unpin t w).trans (withdrawPin _ w)
  refine of_later (takeFault_later s w i pc base next k f) ?_ fun h => ?_ <;> unfold Machine.takeFault
  · split
    · rfl
    · split
      · rfl
      · exact (((pins _ _).trans (dropLatch _ w)).trans (ringPut _ _ _)).dev
  · split
    · exact h
    · split
      · exact h
      · exact (((pins _ _).trans (dropLatch _ w)).trans (ringPut _ _ _)).hits h

theorem stepStop (w : Nat) (mask pc : Word64) (is : List Nat) (s : State) : Calm s (stepStop s w mask pc is) := by
  induction is generalizing s with
  | nil => exact refl s
  | cons i is ih =>
    refine .trans ?_ (ih _)
    split
    · dsimp only
      split
      · exact takeFault _ _ _ _ _ _ _ _
      · exact refl s
    · exact refl s

theorem setCtx (s : State) (c : Nat) (x : Ctx) : Calm s (s.setCtx c x) := ⟨rfl, rfl, rfl, rfl, fun _ h => h, fun h => h⟩

theorem fireStepAt (s : State) (c w i : Nat) (mask pc : Word64) : Calm s (fireStepAt s c w i mask pc) := by
  unfold Machine.fireStepAt
  split
  · split
    · exact (setCtx _ _ _).trans (stepStop w mask pc _ _)
    · exact refl s
  · exact refl s

theorem setWave {s : State} {w : Nat} {a b : Wave} (h : s.wave? w = some a) : Calm s (s.setWave w b) where
  mem := rfl
  homes := rfl
  clk := rfl
  dev := rfl
  absent v hv := by
    by_cases e : v = w
    · rw [e, h] at hv; cases hv
    · rw [State.wave?_setWave_ne _ _ e]; exact hv
  hits h := h

theorem setCore (s : State) (c : Nat) (x : Core) : Calm s (s.setCore c x) := ⟨rfl, rfl, rfl, rfl, fun _ h => h, fun h => h⟩

theorem undoWindow (s : State) (wid : Nat) (n : Window) : Calm s (undoWindow s wid n) := by
  unfold Machine.undoWindow
  split
  · exact refl s
  · next w hw =>
    dsimp only
    refine .trans ?_ (dropLatch _ _)
    refine .trans ?_ (unpin _ _)
    refine .trans ?_ (setCore _ _ _)
    exact setWave hw

theorem rollback (s : State) (wid : Nat) (counted : Bool) : Calm s (rollback s wid counted) := by
  unfold Machine.rollback
  split
  · exact refl s
  next w _ =>
    split
    · exact refl s
    next n _ =>
      refine .trans (undoWindow s wid n) ?_
      dsimp only
      split
      · exact refl _
      · generalize (if (w.keyPc == n.pc && w.keyPath == n.path && w.count != 0) = true then w.count + 1 else 1) = c
        split
        · exact (updWave _ wid _).trans (takeFault _ _ _ _ _ _ _ _)
        · exact updWave _ wid _

theorem settleHits (s : State) : Calm s (settleHits s) := by
  have quiet : Calm s { s with sch := { s.sch with hits := [] } } := ⟨rfl, rfl, rfl, rfl, fun _ h => h, fun _ => rfl⟩
  unfold Machine.settleHits
  dsimp only
  split
  · exact quiet
  · exact quiet.trans (foldl (fun s w => rollback s w true) _ _)

end Calm

/-- What only memory, homes, clock, the device or an absent wave decide holds where a step goes that acts on conflicts last. -/
theorem goes_calm {e : Instr} {s v u : State} {P : State → Prop} (he : exec e s = .next (settleHits v)) (h : v = u)
    (hp : ∀ t, Calm u t → P t) : Goes e s P :=
  ⟨_, he, hp _ (h ▸ Calm.settleHits v)⟩

/-! ### Paths of a wave -/

theorem Wave.path_setPath {w : Wave} {i : Nat} (p : Path) (h : i < w.paths.length) : (w.setPath i p).path i = p := by
  simp [Wave.path, Wave.setPath, List.getD, h]

theorem Wave.path_outside {w : Wave} {i : Nat} (h : w.paths.length ≤ i) : w.path i = {} := by
  simp [Wave.path, List.getD, h]

theorem pathAt_updWave {s : State} {wid : Nat} {w : Wave} (f : Wave → Wave) (i : Nat) (h : s.wave? wid = some w) :
    pathAt (s.updWave wid f) wid i = (f w).path i := by
  rw [pathAt, State.wave?_updWave f h]

/-- PATH_URGENT of a path that is eligible for long enough marks the cycle. -/
theorem pathUrgent_marks {s : State} {wid i : Nat} {w : Wave} (hw : s.wave? wid = some w) (hu : (w.path i).urgentAt = none)
    (he : (if (w.path i).demoted then 1024 else 16) ≤ (w.path i).eligible) :
    Goes (.pathUrgent wid i) s fun t => (pathAt t wid i).urgentAt = some s.clk.cycle := by
  refine ⟨_, rfl, ?_⟩
  beta_reduce
  rw [pathAt_updWave _ _ hw]
  have inside : i < w.paths.length := by
    by_contra h
    rw [Wave.path_outside (Nat.le_of_not_lt h)] at he
    exact absurd he (by decide)
  dsimp only
  rw [if_pos (by simp [hu, he]), Wave.path_setPath _ inside]

/-- YIELD_EXPIRY of a path whose time is over ends its yield. -/
theorem yieldExpiry_ends {s : State} {wid i : Nat} {w : Wave} (hw : s.wave? wid = some w)
    (hy : (w.path i).yieldTo ≤ s.clk.cycle) : Goes (.yieldExpiry wid i) s fun t => (pathAt t wid i).yieldTo = 0 := by
  refine ⟨_, rfl, ?_⟩
  beta_reduce
  rw [pathAt_updWave _ _ hw]
  dsimp only
  rw [if_pos (decide_eq_true hy)]
  by_cases h : i < w.paths.length
  · rw [Wave.path_setPath _ h]
  · rw [Wave.path_outside (by simpa [Wave.setPath] using h)]

/-- CLOCKLESS_WAIT_DONE makes due what waited under that number. -/
theorem clocklessWaitDone_dues {s : State} {id : Nat} {e : Instr} (h : s.sch.waits.find? (fun x => x.1 == id) = some (id, e)) :
    Goes (.clocklessWaitDone id) s fun t => t.sch.agenda = e :: s.sch.agenda ∧ ∀ x ∈ t.sch.waits, x.1 ≠ id := by
  refine ⟨_, rfl, ?_⟩
  rw [waitDone, h]
  exact ⟨rfl, fun x hx => by simpa using (List.mem_filter.1 hx).2⟩

/-! ### The oldest access is performed (R112) -/

theorem Wave.dropAccess_accs (w : Wave) (id : Nat) : ∀ b ∈ (w.dropAccess id).accs, b.id ≠ id := by
  intro b hb
  simpa using (List.mem_filter.1 hb).2

theorem endTileOf_wave? (s : State) (core : Nat) (a : Access) (wid : Nat) : (s.endTileOf core a).wave? wid = s.wave? wid := by
  unfold State.endTileOf
  split <;> rfl

theorem Later.accs {s t : State} (h : Later s t) {wid : Nat} {v : Wave} (hv : t.wave? wid = some v) :
    ∃ w, s.wave? wid = some w ∧ v.accs = w.accs := by
  have k := h.waves wid
  rw [hv] at k
  cases e : s.wave? wid with
  | none => rw [e] at k; exact k.elim
  | some w => rw [e] at k; exact ⟨w, rfl, k.accs⟩

theorem updWave_wave?_some {s : State} {wid : Nat} {f : Wave → Wave} {v : Wave} (h : (s.updWave wid f).wave? wid = some v) :
    ∃ w, s.wave? wid = some w ∧ v = f w := by
  cases e : s.wave? wid with
  | none => rw [State.updWave, e] at h; exact absurd (e.symm.trans h) (by simp)
  | some w =>
    rw [State.wave?_updWave f e] at h
    exact ⟨w, rfl, (Option.some.inj h).symm⟩

/-- Lanes that are all performed end their access. -/
theorem performLanes_drops {s u : State} {wid : Nat} {w v : Wave} {a : Access} (h : performLanes s wid w a = (u, true))
    (hv : u.wave? wid = some v) : ∀ b ∈ v.accs, b.id ≠ a.id := by
  unfold performLanes at h
  dsimp only at h
  split at h
  · simp at h
  · split at h
    · simp at h
    · simp at h
    · simp at h
    · next t _ =>
      obtain ⟨hu, -⟩ := Prod.mk.inj h
      have drop {z : State} (hz : (z.updWave wid fun w => w.dropAccess a.id).wave? wid = some v) : ∀ b ∈ v.accs, b.id ≠ a.id := by
        obtain ⟨y, -, rfl⟩ := updWave_wave?_some hz
        exact y.dropAccess_accs a.id
      rw [← hu] at hv
      split at hv
      · obtain ⟨y, hy, he⟩ := (noteWrite_later _ _ _).accs hv
        rw [endTileOf_wave?] at hy
        obtain ⟨x, -, rfl⟩ := updWave_wave?_some hy
        rw [he]
        exact x.dropAccess_accs a.id
      · rw [endTileOf_wave?] at hv
        exact drop hv

theorem performOldest_drops {s u : State} {wid : Nat} {v : Wave} {a : Access} (h : performOldest s wid a = (u, true))
    (hv : u.wave? wid = some v) : ∀ b ∈ v.accs, b.id ≠ a.id := by
  unfold performOldest at h
  split at h
  · simp at h
  · split at h
    · simp at h
    · split at h
      · exact performLanes_drops h hv
      · split at h
        · split at h <;> simp at h
        · split at h
          · simp at h
          · exact performLanes_drops h hv

theorem commit_windowless {s : State} {wid k : Nat} {w : Wave} (hw : s.wave? wid = some w) (hn : w.win = none) :
    commit k s wid = s := by
  simp only [commit, hw, hn]

/-- The oldest access of a wave, once nothing holds it back, is performed; outside a window no commit follows. -/
theorem performAccess_performs {s u : State} {wid id : Nat} {w v : Wave} {a : Access} (hw : s.wave? wid = some w)
    (ha : w.accs.find? (fun b => b.id == id) = some a) (he : a.early = false) (hf : a.faulted = none)
    (hb : portBusy s wid a.path = false) (hl : unreadLaunch s wid id = false)
    (ho : (w.accs.find? (fun b => !b.early)).map (·.id) = some id) (hp : performOldest s wid a = (u, true))
    (hv : u.wave? wid = some v) (hn : v.win = none) : performAccess s wid id = settleHits u := by
  unfold performAccess
  simp only [hw, ha, he, hf, hb, hl, ho, hp, Option.isSome_none, Bool.or_self, Bool.and_false, Bool.false_eq_true, if_false,
    beq_self_eq_true, if_true, commit_windowless hv hn]

/-! ### A drained wave (R155) -/

theorem updJob_unitsKept (s : State) (c job : Nat) (f : Job → Job) : UnitsKept s (s.updJob c job f) := updCtx_unitsKept s c _

theorem endIndex_unitsKept (s : State) (c job i : Nat) : UnitsKept s (endIndex s c job i) := by
  unfold endIndex
  dsimp only
  refine .trans (updJob_unitsKept s c job fun j => { j with alive := j.alive - 1 }) ?_
  generalize s.updJob c job _ = t
  split
  · exact .refl _
  · split
    · split
      · exact .refl _
      · split
        · exact updCtx_unitsKept _ c _
        · exact complete_unitsKept _ c job _
    · split
      · split
        · exact updCtx_unitsKept _ c _
        · exact complete_unitsKept _ c job _
      · exact .refl _

theorem freeWave_frees {s : State} {wid : Nat} {w : Wave} (hw : s.wave? wid = some w) (hd : drained s wid w = true) :
    (freeWave s wid).wave? wid = none := by
  unfold freeWave
  rw [hw]
  dsimp only
  rw [if_neg (by simp [hd])]
  refine ((foldl_unitsKept (fun t c => ?_) _ _).wave? wid).trans ?_
  · split
    · split
      · exact ensureSoon_unitsKept t _
      · exact .refl t
    · exact .refl t
  · rw [endLaunches, (foldl_unitsKept (fun t (x : Nat × Nat) => endIndex_unitsKept t w.ctx x.1 x.2) _ _).wave?]
    exact State.wave?_dropWave _ wid

theorem waveFree_frees {s : State} {wid : Nat} {w : Wave} (hw : s.wave? wid = some w) (hd : drained s wid w = true) :
    Goes (.waveFree wid) s fun t => t.wave? wid = none :=
  goes_calm rfl rfl fun _ h => h.absent _ (freeWave_frees hw hd)

/-! ### Results land (R233, R234) -/

/-- Registers keyed apart are places apart. -/
theorem RegW.key_of_place {x y : RegW} (h : x.place = y.place) : x.key = y.key := by
  cases x <;> cases y <;> simp only [RegW.place, Prod.mk.injEq] at h <;> simp only [RegW.key, sKey, pKey, vKey] at * <;> omega

/-- What a landing changes: the register files and the records of the window, of which there is none where there was none. -/
theorem landAs_files (w : Wave) (id : Nat) (x : RegW) : ∃ n, (w.landAs id true x) = { w.poke x with win := n } ∧
    (w.win = none → n = none) := by
  unfold Wave.landAs
  split
  · next n hn =>
    refine ⟨some n, by cases x <;> rfl, fun h => ?_⟩
    rw [h] at hn
    cases hn
  · rw [if_pos rfl]
    unfold Wave.set
    dsimp only
    split
    · next n hn =>
      have inside : w.win ≠ none := by cases x <;> exact fun h => absurd (hn.symm.trans h) (by simp)
      split
      · exact ⟨_, rfl, fun h => (inside h).elim⟩
      · exact ⟨some n, by rw [← hn], fun h => (inside h).elim⟩
    · next hn => exact ⟨none, by rw [← hn], fun _ => rfl⟩

theorem land_unraced {w : Wave} (free id : Nat) (x : RegW) (h : w.raced = []) : w.land free id x = w.landAs id true x := by
  simp [Wave.land, h]

/-- Putting register values leaves the window alone. -/
theorem pokes_win (ws : List RegW) (w : Wave) (m : Option Window) :
    ws.foldl Wave.poke { w with win := m } = { ws.foldl Wave.poke w with win := m } := by
  induction ws generalizing w with
  | nil => rfl
  | cons x ws ih =>
    rw [List.foldl_cons, List.foldl_cons, ← ih]
    cases x <;> rfl

/-- Results of which none was raced land in the registers that they name, and change nothing else but records of the window. -/
theorem lands_files (free id : Nat) (ws : List RegW) (w : Wave) (h : w.raced = []) :
    ∃ n, w.lands free id ws = { ws.foldl Wave.poke w with win := n } ∧ (w.win = none → n = none) := by
  induction ws generalizing w with
  | nil => exact ⟨w.win, rfl, fun k => k⟩
  | cons x ws ih =>
    obtain ⟨m, hm, hmw⟩ := landAs_files w id x
    obtain ⟨n, hn, hnw⟩ := ih (w.landAs id true x) (by rw [hm]; cases x <;> exact h)
    refine ⟨n, ?_, fun k => hnw (by rw [hm]; exact hmw k)⟩
    rw [Wave.lands, land_unraced free id x h, hn, hm]
    rw [pokes_win, List.foldl_cons]

/-- Register values put in places of their own are all held. -/
theorem pokes_held (ws : List RegW) (w : Wave) (h : ws.Pairwise (fun a b => a.place ≠ b.place)) :
    ∀ x ∈ ws, x.held (ws.foldl Wave.poke w) := fun x hx =>
  (held_congr (pokes_regs ws ⟨rfl, rfl, rfl⟩) x).2 ((writes_held 0 ws w h).1 x hx)

theorem raiseStat_fstat {w : Wave} (id : Nat) (f : Word32) (h : w.win = none) :
    w.raiseStat id f = { w with fstat := w.fstat ||| f } := by
  unfold Wave.raiseStat
  split
  · next hf => rw [hf]; simp
  · rw [h]

theorem clearFlag_files (w : Wave) (id : Nat) :
    ∃ n, w.clearFlag id = { w with win := n, owed := w.owed.filter (fun o => o.id != id) } := by
  unfold Wave.clearFlag
  dsimp only
  split
  · unfold Wave.noteFlag
    split
    · split <;> exact ⟨_, rfl⟩
    · exact ⟨_, rfl⟩
  · exact ⟨w.win, rfl⟩

/-- RESULT_WRITTEN outside a window, where no later write came first. -/
theorem resultWritten_lands {s : State} {wid id : Nat} {w : Wave} {q : Pend} (hw : s.wave? wid = some w)
    (hq : w.pend.find? (fun p => p.id == id) = some q) (hr : w.raced = []) (hn : w.win = none) :
    ∃ n v sr p, (resultLands s wid id).wave? wid = some { w with
      pend := w.pend.filter (fun q => q.id != id), owed := w.owed.filter (fun o => o.id != id), fstat := w.fstat ||| q.stat, win := n,
      vregs := v, sregs := sr, preds := p } ∧
      (q.writes.Pairwise (fun a b => a.place ≠ b.place) →
        ∀ x ∈ q.writes, x.held { w with vregs := v, sregs := sr, preds := p }) := by
  obtain ⟨n, hl, hln⟩ := lands_files s.sch.free id q.writes { w with pend := w.pend.filter (fun q => q.id != id) } hr
  obtain ⟨v, sr, p, hp⟩ := pokes_files q.writes { w with pend := w.pend.filter (fun q => q.id != id) }
  rw [hp, hln hn] at hl
  obtain ⟨m, hc⟩ := clearFlag_files
    (({ w with pend := w.pend.filter (fun q => q.id != id) }.lands s.sch.free id q.writes).raiseStat id q.stat) id
  refine ⟨m, v, sr, p, ?_, fun h x hx => ?_⟩
  · simp only [resultLands, hw, hq, hc]
    rw [hl, raiseStat_fstat _ _ rfl]
    exact State.wave?_setWave s wid _
  · have held := pokes_held q.writes { w with pend := w.pend.filter (fun q => q.id != id) } h x hx
    rw [hp] at held
    exact (held_congr ⟨rfl, rfl, rfl⟩ x).1 held

/-- RESULT_WRITTEN writes the registers and status bits on their way, and is over. -/
theorem resultWritten_writes {s : State} {wid id : Nat} {w : Wave} {q : Pend} (hw : s.wave? wid = some w)
    (hq : w.pend.find? (fun p => p.id == id) = some q) (hr : w.raced = []) (hn : w.win = none) :
    Goes (.resultWritten wid id) s fun t => (t.wave? wid).map (·.fstat) = some (w.fstat ||| q.stat) ∧
      (q.writes.Pairwise (fun x y => x.key ≠ y.key) → HoldsAll t wid q.writes) ∧
      ∀ x, t.wave? wid = some x → (∀ y ∈ x.pend, y.id ≠ id) ∧ ∀ y ∈ x.owed, y.id ≠ id := by
  obtain ⟨n, v, sr, p, ht, held⟩ := resultWritten_lands hw hq hr hn
  refine ⟨_, rfl, by rw [ht]; rfl, fun h x hx => ?_, fun x hx => ?_⟩
  · have apart := h.imp fun k e => k (RegW.key_of_place e)
    exact holds_of_held ht ((held_congr ⟨rfl, rfl, rfl⟩ x).1 (held apart x hx))
  · rw [ht] at hx
    obtain rfl := Option.some.inj hx
    exact ⟨fun y hy => by simpa using (List.mem_filter.1 hy).2, fun y hy => by simpa using (List.mem_filter.1 hy).2⟩

/-! ### A fetch block arrives (R188, R189) -/

section
variable {s u v z : State} {wid i n q : Nat} {w y : Wave} {x : Xl} {g : Got}

/-- A block of the path's, or the next, once read, is in its fetch buffer. -/
theorem fetchArrive_fills (hw : s.wave? wid = some w) (hf : (w.path i).fetching = some (n, q)) (ho : owesBefore s wid i q = false)
    (hb : portBusy s wid i = false) (hc : checkPtr (BitVec.ofNat 64 n) 32 .global = none)
    (ht : translate s (coreOf wid) w.ctx (BitVec.ofNat 64 n) pX = .ok (x, u)) (hk : combineFirst u x.dev = .ok () v)
    (hr : readAt v (whoOf wid w) x = .ok g z) (hy : z.wave? wid = some y) (hi : i < y.paths.length)
    (hn : n = blockOf (w.path i).e.pc ∨ n = blockOf (w.path i).e.pc + 32) :
    (fetchArrive s wid i n).sch = z.sch ∧ (pathAt (fetchArrive s wid i n) wid i).fetching = none ∧
      (n, placeBytes z g.place x.dev 32) ∈ (pathAt (fetchArrive s wid i n) wid i).fetch := by
  simp only [fetchArrive, hw, hf, Option.filter_some, beq_self_eq_true, if_true, ho, hb, Bool.or_self, Bool.false_eq_true, if_false, hc,
    ht, hk, hr]
  refine ⟨State.updWave_sch .., ?_⟩
  rw [pathAt_updWave _ _ hy, Wave.path_setPath _ hi]
  refine ⟨rfl, ?_⟩
  dsimp only
  rw [if_pos (by simpa using hn)]
  exact List.mem_append_right _ (List.mem_singleton_self _)

end

/-! ### Budgets, spills and restores (R166 to R169) -/

/-- Wave wid is w but for where its runs lie. -/
def Rerun (s : State) (wid : Nat) (w : Wave) : Prop := ∃ rs, s.wave? wid = some { w with runs := rs }

theorem Rerun.updRuns {s : State} {wid : Nat} {w : Wave} (h : Rerun s wid w) (k : Nat) (rs : List (Nat × Nat)) :
    Rerun (s.updWave k fun v => { v with runs := rs }) wid w := by
  obtain ⟨r, hr⟩ := h
  by_cases e : wid = k
  · exact ⟨rs, by rw [← e, State.wave?_updWave _ hr]⟩
  · refine ⟨r, ?_⟩
    unfold State.updWave
    split
    · rw [State.wave?_setWave_ne _ _ e, hr]
    · exact hr

/-- Giving a wave its runs moves runs only. -/
theorem resizeRuns_rerun {s : State} {wid : Nat} {w : Wave} (n : Nat) (hw : s.wave? wid = some w) :
    Rerun (resizeRuns s wid n) wid w := by
  unfold resizeRuns
  rw [hw]
  dsimp only
  split
  · exact ⟨_, State.wave?_setWave ..⟩
  · split
    · exact ⟨_, State.wave?_setWave ..⟩
    · have moved (l : List (Nat × Wave)) (t : State) (h : Rerun t wid w) :
          Rerun (l.foldl (fun s x => s.updWave x.1 fun w => { w with runs := x.2.runs }) t) wid w := by
        induction l generalizing t with
        | nil => exact h
        | cons a l ih => exact ih _ (h.updRuns a.1 a.2.runs)
      exact moved _ _ ⟨_, State.wave?_setWave ..⟩

/-- A wave that is not spilled settles to PARKED where all its paths are parked. -/
theorem settle_running {w : Wave} (h : w.state = .running) :
    let live := w.paths.filter fun q => q.e.kind == .path
    w.settle.state = (if !live.isEmpty && live.all Path.parked then .parked else .running) ∧ w.settle.budget = w.budget := by
  unfold Wave.settle
  simp only [h, beq_self_eq_true, Bool.true_and]
  split
  · exact ⟨rfl, rfl⟩
  · exact ⟨h, rfl⟩

/-- GROW_GRANT of the oldest blocked wave, once the free units are enough, gives it its budget. -/
theorem growGrant_grants {s : State} {wid : Nat} {w : Wave} (hw : s.wave? wid = some w) (hb : w.state = .blocked)
    (ho : (blockedOf s (lpOf wid)).all (fun x => x.1 == wid || !olderWave x (wid, w)) = true)
    (hu : growNeed w w.target ≤ freeUnits s (lpOf wid)) : Goes (.growGrant wid) s fun t =>
      let live := w.paths.filter fun q => q.e.kind == .path
      (t.wave? wid).map (fun x => (x.budget, x.state)) =
        some (w.target, if !live.isEmpty && live.all Path.parked then .parked else .running) := by
  refine ⟨_, rfl, ?_⟩
  simp only [grantGrow, hw, hb, ho, beq_self_eq_true, Bool.true_and, decide_eq_true hu, if_true, enlarge]
  obtain ⟨rs, hr⟩ := resizeRuns_rerun (unitsFor w.runWidth w.target) hw
  rw [State.wave?_updWave _ hr, Option.map_some, Option.some.injEq, Prod.mk.injEq]
  obtain ⟨state, budget⟩ := settle_running (w := { ({ w with runs := rs } : Wave).dropRegs w.budget with
    budget := w.target, growTo := none, state := .running }) rfl
  simp only [Wave.dropRegs, hb, beq_self_eq_true, if_true] at *
  exact ⟨budget, state⟩

theorem withLines_acts {s : State} {c : Nat} {keys : List Nat} (self : Instr) (f : State → State) (h : logShort s c keys = false) :
    withLines s c keys self f = f s := by
  simp [withLines, h]

/-- SPILL of the wave that R169 names. -/
theorem spill_spills {s : State} {lp wid : Nat} {w : Wave} (hm : mustSpill s lp = some (wid, w))
    (hl : logShort s w.ctx (spillLines s wid w) = false) :
    Goes (.spill lp) s fun t => t.wave? wid = some { w with state := .spilled, left := w.state } := by
  have spills : exec (.spill lp) s = .next ((writeSpill s wid w).setWave wid { w with state := .spilled, left := w.state }) := by
    show execSpill lp s = _
    simp only [execSpill, hm, withLines_acts _ _ hl, spillOne]
  exact ⟨_, spills, State.wave?_setWave ..⟩

/-- RESTORE of a wave that was PARKED. -/
theorem restore_parked {s : State} {wid : Nat} {w : Wave} (hw : s.wave? wid = some w) (hs : w.state = .spilled)
    (hb : blockedOf s (lpOf wid) = []) (hl : w.left = .parked)
    (hu : unitsFor w.runWidth w.target * w.runs.length ≤ freeUnits s (lpOf wid)) :
    Goes (.restore wid) s fun t => (t.wave? wid).map (·.state) = some .parked := by
  refine ⟨_, rfl, ?_⟩
  simp only [restoreWave, hw, hs, hb, hl, beq_self_eq_true, List.isEmpty_nil, Bool.true_and, decide_eq_true hu, if_true]
  rw [if_neg (by decide)]
  obtain ⟨rs, hr⟩ := resizeRuns_rerun (s := s.setWave wid { w with state := .parked, left := .parked })
    (unitsFor w.runWidth w.target)
    (State.wave?_setWave ..)
  rw [hr]
  rfl

/-! ### A FUSE ends (R160) -/

/-- A later state holds what a wave held in its scalar registers and predicates, and the FUSE it waits in. -/
theorem Later.wave?_some {s t : State} (h : Later s t) {wid : Nat} {v : Wave} (hv : s.wave? wid = some v) :
    ∃ x, t.wave? wid = some x ∧ WaveLater v x := by
  have k := h.waves wid
  rw [hv] at k
  cases e : t.wave? wid with
  | none => rw [e] at k; exact k.elim
  | some x => rw [e] at k; exact ⟨x, rfl, k⟩

theorem WaveLater.regHeld {a b : Wave} (h : WaveLater a b) (y : RegW) : y.held b ↔ y.held a :=
  held_congr ⟨h.vregs, h.sregs, h.preds⟩ y

theorem clearFlag_held (w : Wave) (id : Nat) (y : RegW) : y.held (w.clearFlag id) ↔ y.held w := by
  obtain ⟨n, h⟩ := clearFlag_files w id
  exact held_congr ⟨by rw [h], by rw [h], by rw [h]⟩ y

/-- The FUSE of a wave ends: it is over, and its status is written. -/
theorem endFuse_ends {s : State} {wid k : Nat} {w v : Wave} {f : FuseWait} (hw : s.wave? wid = some w) (hf : w.fuse = some f)
    (hv : (lateRoll s w.ctx wid f.path).wave? wid = some v) (hg : v.fuse = some f) :
    ((endFuse s wid k).wave? wid).map (·.fuse) = some none ∧ sAt (endFuse s wid k) wid f.dst = ⟨BitVec.ofNat 32 k, false⟩ := by
  simp only [endFuse, hw, hf, Option.bind_some, Option.map_some, hv, hg]
  obtain ⟨x, hx, later⟩ := (fireStepAt_later _ _ _ _ _ _).wave?_some (State.wave?_setWave (lateRoll s w.ctx wid f.path) wid _)
  rw [sAt, hx, Option.map_some, later.fuse]
  refine ⟨?_, (later.regHeld _).2 ((clearFlag_held _ _ _).2 (poke_held _ (wS f.dst (BitVec.ofNat 32 k))))⟩
  generalize f.req = n
  obtain ⟨m, hc⟩ := clearFlag_files ((Wave.setPath { v with fuse := none } f.path { v.path f.path with
    e := { (v.path f.path).e with pc := f.after, state := (v.path f.path).rest }, reason := 0 }).poke (wS f.dst (BitVec.ofNat 32 k))) n
  rw [hc]
  rfl

theorem fuseTimeout_ends {s : State} {wid n : Nat} {w v : Wave} {f : FuseWait} (hw : s.wave? wid = some w) (hf : w.fuse = some f)
    (hn : f.req = n) (hd : unfitBuddy s (buddyOf wid) = true ∨ f.deadline ≤ s.clk.tick)
    (hv : (lateRoll s w.ctx wid f.path).wave? wid = some v) (hg : v.fuse = some f) :
    Goes (.fuseTimeout wid n) s fun t => (t.wave? wid).map (·.fuse) = some none ∧
      sAt t wid f.dst = ⟨if unfitBuddy s (buddyOf wid) then 8 else 2, false⟩ := by
  have ends : fuseExpire s wid n = endFuse s wid (if unfitBuddy s (buddyOf wid) then 8 else 2) := by
    simp only [fuseExpire, hw, hf, hn, bne_self_eq_false, Bool.false_eq_true, if_false]
    split
    · rfl
    · next hu => rw [if_pos (hd.resolve_left hu)]
  obtain ⟨ended, status⟩ := endFuse_ends (k := if unfitBuddy s (buddyOf wid) then 8 else 2) hw hf hv hg
  refine ⟨_, rfl, ?_⟩
  beta_reduce
  rw [ends]
  refine ⟨ended, status.trans ?_⟩
  split <;> rfl

/-! ### A poll is over (R302, R304) -/

theorem putPath_files (w : Wave) (id i : Nat) (p : Path) :
    ∃ n ps, w.putPath id i p = { w with win := n, paths := ps } := by
  unfold Wave.putPath
  dsimp only
  split
  · split <;> exact ⟨_, _, rfl⟩
  · exact ⟨w.win, _, rfl⟩

theorem putPath_held (w : Wave) (id i : Nat) (p : Path) (y : RegW) : y.held (w.putPath id i p) ↔ y.held w := by
  obtain ⟨n, ps, h⟩ := putPath_files w id i p
  exact held_congr ⟨by rw [h], by rw [h], by rw [h]⟩ y

/-- The writes of a poll name a place each. -/
theorem pollWrites_apart (q : Poll) (r pz : Bool) : (pollWrites q r pz).Pairwise (fun a b => a.place ≠ b.place) := by
  refine List.pairwise_map.2 ((threadsBelow_lt q.mask 64).imp fun h e => ?_)
  simp only [RegW.place, vKey, Prod.mk.injEq, true_and] at e
  omega

theorem latchLand_later (s : State) (wid : Nat) (ws : List RegW) : Later s (latchLand s wid ws) := by
  unfold latchLand
  dsimp only
  split
  · exact Later.setLp ⟨rfl, rfl, rfl, rfl⟩
  · exact .refl s

theorem latchLand_sch (s : State) (wid : Nat) (ws : List RegW) : (latchLand s wid ws).sch = s.sch := by
  unfold latchLand
  dsimp only
  split <;> rfl

/-- The wave once a poll's result has landed, and its path goes on after it. -/
def pollEnded (free i : Nat) (q : Poll) (met pz : Bool) (w : Wave) : Wave :=
  let w := (w.lands free q.id (pollWrites q met pz)).clearFlag q.id
  let p := (w.path i).spun
  w.putPath q.id i { p with e := { p.e with state := p.rest, pc := q.pc + 16 }, poll := none, reason := 0 }

/-- The state then, before an armed step fires. -/
def pollLanded (s : State) (wid i : Nat) (q : Poll) (met pz : Bool) : State :=
  latchLand (s.updWave wid (pollEnded s.sch.free i q met pz)).tickFree wid (pollWrites q met pz)

theorem pollEnded_held (free i : Nat) (q : Poll) (met pz : Bool) {v : Wave} (hr : v.raced = []) :
    ∀ y ∈ pollWrites q met pz, y.held (pollEnded free i q met pz v) := by
  obtain ⟨n, hl, -⟩ := lands_files free q.id (pollWrites q met pz) v hr
  intro y hy
  have held := pokes_held (pollWrites q met pz) v (pollWrites_apart q met pz) y hy
  dsimp only [pollEnded]
  rw [putPath_held, clearFlag_held, hl]
  generalize (pollWrites q met pz).foldl Wave.poke v = r at held ⊢
  exact (held_congr ⟨rfl, rfl, rfl⟩ y).1 held

theorem pollLanded_holds {s : State} {wid i : Nat} {q : Poll} {met pz : Bool} {v : Wave} (hv : s.wave? wid = some v)
    (hr : v.raced = []) : ∃ x, (pollLanded s wid i q met pz).wave? wid = some x ∧ ∀ y ∈ pollWrites q met pz, y.held x := by
  have ended := State.wave?_updWave (pollEnded s.sch.free i q met pz) hv
  obtain ⟨x, hx, later⟩ := ((Later.tickFree _).trans (latchLand_later _ wid (pollWrites q met pz))).wave?_some ended
  exact ⟨x, hx, fun y hy => (later.regHeld y).2 (pollEnded_held _ i q met pz hr y hy)⟩

theorem pollLanded_hits (s : State) (wid i : Nat) (q : Poll) (met pz : Bool) :
    (pollLanded s wid i q met pz).sch.hits = s.sch.hits := by
  rw [pollLanded, latchLand_sch]
  show (s.updWave wid _).sch.hits = _
  rw [State.updWave_sch]

theorem recheckPoll_lands {s u : State} {wid i : Nat} {w : Wave} {q : Poll} {bs : List Byte} {pz : Bool} (hw : s.wave? wid = some w)
    (hq : (w.path i).poll = some q) (hb : portBusy s wid i = false) (hl : pollLoad s wid i q = .got bs pz u)
    (hm : pollMet q bs = true ∨ q.deadline ≤ u.clk.tick) : recheckPoll s wid i =
      if pollInside w q then pollLanded u wid i q (pollMet q bs) pz
      else fireStepAt (pollLanded (lateRoll u w.ctx wid i) wid i q (pollMet q bs) pz) w.ctx wid i (w.path i).e.mask q.pc := by
  have done : (pollMet q bs || decide (q.deadline ≤ u.clk.tick)) = true := by
    rcases hm with h | h <;> simp [h]
  simp only [recheckPoll, hw, hq, hb, hl, done, Bool.false_eq_true, if_false, if_true]
  split <;> rfl

theorem pollRecheck_lands {s u : State} {wid i : Nat} {w v : Wave} {q : Poll} {bs : List Byte} {pz : Bool} (hw : s.wave? wid = some w)
    (hq : (w.path i).poll = some q) (hb : portBusy s wid i = false) (hl : pollLoad s wid i q = .got bs pz u) :
    let z := if pollInside w q then u else lateRoll u w.ctx wid i
    z.wave? wid = some v → v.raced = [] → z.sch.hits = [] → pollMet q bs = true ∨ q.deadline ≤ u.clk.tick →
    Goes (.pollRecheck wid i) s fun t =>
      ∀ x ∈ threads q.mask, pAt t wid (pollDst q.instr) x = ⟨pollMet q bs, pz || q.poison⟩ := by
  intro z hz hr hh hm
  obtain ⟨x, hx, held⟩ := pollLanded_holds (i := i) (q := q) (met := pollMet q bs) (pz := pz) hz hr
  have quiet := (pollLanded_hits z wid i q (pollMet q bs) pz).trans hh
  have lands : ∃ t y, recheckPoll s wid i = t ∧ t.sch.hits = [] ∧ t.wave? wid = some y ∧ y.preds = x.preds := by
    rw [recheckPoll_lands hw hq hb hl hm]
    cases e : pollInside w q with
    | true =>
      simp only [z, e, if_true] at hx quiet
      exact ⟨_, x, rfl, quiet, hx, rfl⟩
    | false =>
      simp only [z, e, Bool.false_eq_true, if_false] at hx quiet
      obtain ⟨y, hy, later⟩ := (fireStepAt_later _ w.ctx wid i (w.path i).e.mask q.pc).wave?_some hx
      exact ⟨_, y, rfl, (Calm.fireStepAt _ _ _ _ _ _).hits quiet, hy, later.preds⟩
  obtain ⟨t, y, ht, hits, hy, hp⟩ := lands
  refine ⟨_, rfl, fun k hk => ?_⟩
  rw [ht, settleHits_quiet hits, pAt, hy]
  have := held _ (List.mem_map.2 ⟨k, hk, rfl⟩)
  simpa [RegW.held, Wave.p, hp] using this

/-! ### The cycle of the device (R217, R218) -/

theorem countLanes_kept (ls : List Nat) (s : State) : (countLanes s ls).copies = s.copies ∧ (countLanes s ls).cores = s.cores ∧
    (countLanes s ls).clk = s.clk := by
  induction ls generalizing s with
  | nil => exact ⟨rfl, rfl, rfl⟩
  | cons l ls ih => exact ih (countLane s l)

theorem foldl_soon_kept (is : List Instr) (s : State) : (is.foldl State.soon s).copies = s.copies ∧
    (is.foldl State.soon s).cores = s.cores ∧ (is.foldl State.soon s).clk = s.clk := by
  induction is generalizing s with
  | nil => exact ⟨rfl, rfl, rfl⟩
  | cons i is ih => exact ih (s.soon i)

theorem advanceTime_kept (s : State) : (advanceTime s).copies = s.copies ∧ (advanceTime s).cores = s.cores ∧
    (advanceTime s).clk.cycle = s.clk.cycle + 1 := by
  unfold advanceTime
  dsimp only
  split
  · obtain ⟨hp, hc, hk⟩ := foldl_soon_kept (tickSteps _) _
    exact ⟨hp, hc, congrArg Clock.cycle hk⟩
  · exact ⟨rfl, rfl, rfl⟩

theorem serveLane_clk (s : State) (lp : Nat) : (serveLane s lp).clk = s.clk := by
  have soon (e : Instr) : (s.ensureSoon e).clk = s.clk := (Later.ensureSoon s e).clk
  unfold serveLane
  split
  · split
    · exact soon _
    · split
      · exact soon _
      · rfl
  · split
    · split
      · exact soon _
      · rfl
    · rfl

theorem foldl_clk {α : Type} {f : State → α → State} (h : ∀ s a, (f s a).clk = s.clk) (l : List α) (s : State) :
    (l.foldl f s).clk = s.clk := by
  induction l generalizing s with
  | nil => rfl
  | cons a l ih => exact (ih _).trans (h s a)

theorem watchWaves_clk (s : State) : (watchWaves s).clk = s.clk := by
  unfold watchWaves
  dsimp only
  refine (foldl_clk serveLane_clk _ _).trans (foldl_clk (fun t w => ?_) _ _)
  split
  · exact (Later.ensureSoon t _).clk
  · split
    · split
      · exact (Later.ensureSoon t _).clk
      · rfl
    · rfl

/-- With no copy and no array at work a cycle counts, and brings the next. -/
theorem cycleOf_idle {s : State} (hc : s.copies = []) (ha : ∀ k ∈ s.cores, k.2.arrayQ = []) :
    (cycleOf s).clk.cycle = s.clk.cycle + 1 := by
  obtain ⟨cp, cc, ck⟩ := countLanes_kept (turnedLanes s) s
  obtain ⟨ap, ac, ak⟩ := advanceTime_kept (countLanes s (turnedLanes s))
  have arrays : arrCores (advanceTime (countLanes s (turnedLanes s))) = [] := by
    rw [arrCores, ac, cc, List.filter_eq_nil_iff.2 (fun k hk => by simp [ha k hk]), List.map_nil]
  have copies : copyCycles (advanceTime (countLanes s (turnedLanes s))) = advanceTime (countLanes s (turnedLanes s)) := by
    rw [copyCycles, ap, cp, hc]
    rfl
  unfold cycleOf
  dsimp only
  rw [arrays, arrCycles, copies, watchWaves_clk, ak, ck]

/-- ACCESS_PERFORMED and STREAMED_ACCESS of the oldest access lead to where it is performed, and it is gone there. -/
theorem access_performs {s u : State} {wid id : Nat} {w v : Wave} {a : Access} (hw : s.wave? wid = some w)
    (ha : w.accs.find? (fun b => b.id == id) = some a) (he : a.early = false) (hf : a.faulted = none)
    (hb : portBusy s wid a.path = false) (hl : unreadLaunch s wid id = false)
    (ho : (w.accs.find? (fun b => !b.early)).map (·.id) = some id) (hp : performOldest s wid a = (u, true))
    (hv : u.wave? wid = some v) (hn : v.win = none) :
    Leads (.accessPerformed wid id) s u ∧ Leads (.streamedAccess wid id) s u ∧ ∀ b ∈ v.accs, b.id ≠ id := by
  have performed := performAccess_performs hw ha he hf hb hl ho hp hv hn
  refine ⟨fun hu => ?_, fun hu => ?_, ?_⟩
  · show execAccessPerformed wid id s = _
    rw [execAccessPerformed, performed, settleHits_quiet hu]
  · show execStreamedAccess wid id s = _
    rw [execStreamedAccess, performed, settleHits_quiet hu, settleHits_quiet hu]
  · have own : a.id = id := by simpa using List.find?_some ha
    exact own ▸ performOldest_drops hp hv

theorem fetchBlockArrival_fills {s u v z : State} {wid i n q : Nat} {w y : Wave} {x : Xl} {g : Got} (hw : s.wave? wid = some w)
    (hf : (w.path i).fetching = some (n, q)) (ho : owesBefore s wid i q = false)
    (hb : portBusy s wid i = false) (hc : checkPtr (BitVec.ofNat 64 n) 32 .global = none)
    (ht : translate s (coreOf wid) w.ctx (BitVec.ofNat 64 n) pX = .ok (x, u)) (hk : combineFirst u x.dev = .ok () v)
    (hr : readAt v (whoOf wid w) x = .ok g z) (hh : z.sch.hits = []) (hy : z.wave? wid = some y) (hi : i < y.paths.length)
    (hn : n = blockOf (w.path i).e.pc ∨ n = blockOf (w.path i).e.pc + 32) : Goes (.fetchBlockArrival wid i n) s fun t =>
      (pathAt t wid i).fetching = none ∧ (n, placeBytes z g.place x.dev 32) ∈ (pathAt t wid i).fetch := by
  obtain ⟨sch, fills⟩ := fetchArrive_fills hw hf ho hb hc ht hk hr hy hi hn
  refine ⟨_, rfl, ?_⟩
  rw [settleHits_quiet (by rw [sch, hh])]
  exact fills

/-- Settles O45: each clause is what the model's operation for that step comes to under its hypotheses; acting on conflicts last
changes nothing where none stand. -/
theorem waveStepsTakeEffect : Obligations.WaveSteps := by
  unfold Obligations.WaveSteps
  intro s wid i id n w hw p
  refine ⟨?accesses, ?results, ?freed, ?urgent, ?yields, ?fetches, ?grows, ?spills, ?restores, ?fuses, ?polls, ?cycles, ?waits⟩
  case accesses =>
    intro a u v ha he hf hb hl ho hp hv hn
    exact access_performs hw ha he hf hb hl ho hp hv hn
  case results =>
    intro q hq hr hn
    obtain ⟨t, ht, stat, regs, gone⟩ := resultWritten_writes hw hq hr hn
    exact ⟨t, ht, stat, fun h _ => regs h, gone⟩
  case freed => exact fun hd => waveFree_frees hw hd
  case urgent => exact fun hu he => pathUrgent_marks hw hu he
  case yields => exact fun hy => yieldExpiry_ends hw hy
  case fetches =>
    intro q x u v g y hf ho hb hc ht hk z hr hh hy hi hn
    exact fetchBlockArrival_fills hw hf ho hb hc ht hk hr hh hy hi hn
  case grows => exact fun hb ho hu => growGrant_grants hw hb ho hu
  case spills => exact fun hm hl => spill_spills hm hl
  case restores => exact fun hs hb hl hu => restore_parked hw hs hb hl hu
  case fuses => exact fun f v hf hn hd hv hg => fuseTimeout_ends hw hf hn hd hv hg
  case polls => exact fun q bs pz u v hq hb hl hz hr hh hm => pollRecheck_lands hw hq hb hl hz hr hh hm
  case cycles => exact fun hc ha => ⟨_, rfl, cycleOf_idle hc ha⟩
  case waits => exact fun e he => clocklessWaitDone_dues he

end Sys2Proof.Machine

/-!
PROOF. The steps of homes, devices, the host and the ports (O48).
-/

namespace Sys2Proof.Machine

open Claim

/-! ### What leaves the device and the lost parts alone -/

/-- From s to t the device and the record of lost parts stay. -/
structure LossKept (s t : State) : Prop where
  dev  : t.dev = s.dev
  lost : t.homes.lost = s.homes.lost

namespace LossKept

theorem refl (s : State) : LossKept s s := ⟨rfl, rfl⟩

theorem trans {s t u : State} (h : LossKept s t) (k : LossKept t u) : LossKept s u := ⟨k.dev.trans h.dev, k.lost.trans h.lost⟩

theorem foldl {α : Type} {f : State → α → State} (h : ∀ s a, LossKept s (f s a)) (l : List α) (s : State) :
    LossKept s (l.foldl f s) := by
  induction l generalizing s with
  | nil => exact refl s
  | cons a l ih => exact (h s a).trans (ih _)

theorem ite {s t u : State} {p : Prop} [Decidable p] (ht : LossKept s t) (hu : LossKept s u) : LossKept s (if p then t else u) := by
  split
  · exact ht
  · exact hu

theorem setDie (s : State) (d : Nat) (x : Die) : LossKept s (s.setDie d x) := ⟨rfl, rfl⟩

theorem setDir (s : State) (l : Nat) (d : DirWord) : LossKept s (s.setDir l d) := ⟨rfl, rfl⟩

theorem setHomePoison (s : State) (l : Nat) (b : Bool) : LossKept s (s.setHomePoison l b) := ⟨rfl, rfl⟩

theorem setLine (s : State) (k : Nat) (r : LineRec) : LossKept s (s.setLine k r) := ⟨rfl, rfl⟩

theorem setFrame (s : State) (k : Nat) (f : FrameRec) : LossKept s (s.setFrame k f) := ⟨rfl, rfl⟩

theorem setCtx (s : State) (c : Nat) (x : Ctx) : LossKept s (s.setCtx c x) := ⟨rfl, rfl⟩

theorem strikeDie (s : State) (die l : Nat) : LossKept s (strikeDie s die l) := ⟨rfl, rfl⟩

theorem raiseHome (s : State) (dev t : Nat) : LossKept s (raiseHome s dev t) := ⟨rfl, rfl⟩

theorem ensureSoon (s : State) (e : Instr) : LossKept s (s.ensureSoon e) := by
  unfold State.ensureSoon
  split <;> exact ⟨rfl, rfl⟩

theorem gate (s : State) (t r : Nat) (w : Option Nat) : LossKept s (s.gate t r w) := by
  unfold State.gate
  split
  · exact refl s
  · dsimp only
    split
    · exact ensureSoon s _
    · exact ⟨rfl, rfl⟩

theorem waitTick (s : State) (t r : Nat) (i : Instr) : LossKept s (s.waitTick t r i) := by
  unfold State.waitTick
  exact ite (gate s t r _) ((gate s t r _).trans ⟨rfl, rfl⟩)

theorem forceTokens (s : State) (k : Nat) (cs : List Nat) : LossKept s (forceTokens s k cs) := by
  induction cs generalizing s with
  | nil => exact refl s
  | cons c cs ih =>
    unfold Machine.forceTokens
    split
    · exact ih s
    · split
      · exact ih s
      · exact (setCtx s _ _).trans (ih _)

theorem homeWrite (s : State) (dev : Nat) (bs : List Byte) : LossKept s (homeWrite s dev bs) := by
  unfold Machine.homeWrite
  dsimp only
  split <;> exact ⟨rfl, rfl⟩

theorem giveUp (s : State) (die l : Nat) : LossKept s (giveUp s die l) := by
  unfold Machine.giveUp
  split
  · exact refl s
  · next k r _ =>
    dsimp only
    refine .trans (.trans (.trans ?_ (setDir _ l _)) (raiseHome _ _ _)) (setLine _ _ _)
    split
    · exact .trans ((forceTokens _ _ _).trans (homeWrite _ _ _)) (setHomePoison _ _ _)
    · exact refl s

theorem giveUps (die : Nat) (ls : List Nat) (s : State) : LossKept s (giveUps s die ls) := by
  induction ls generalizing s with
  | nil => exact refl s
  | cons l ls ih => exact (giveUp s die l).trans (ih _)

theorem clearTargets (fk : Nat) (cs : List Nat) (s : State) : LossKept s (clearTargets s fk cs) := by
  induction cs generalizing s with
  | nil => exact refl s
  | cons c cs ih =>
    unfold Machine.clearTargets
    dsimp only
    refine .trans ?_ (ih _)
    exact ⟨rfl, rfl⟩

theorem bumpGen (s : State) (fk : Nat) : LossKept s (bumpGen s fk) := by
  unfold Machine.bumpGen
  refine .trans ?_ (setFrame _ fk _)
  split
  · exact clearTargets _ _ s
  · exact refl s

theorem freeFrame (s : State) (fk : Nat) : LossKept s (freeFrame s fk) := ⟨rfl, rfl⟩

theorem placed (s : State) (die part : Nat) (f : AtlasEntry → AtlasEntry) : LossKept s (match s.atlas die part with
    | some e => s.setAtlas die (f e)
    | none => s) := by
  split <;> exact ⟨rfl, rfl⟩

theorem endForwarding (s : State) (fk gen : Nat) : LossKept s (endForwarding s fk gen) := by
  unfold Machine.endForwarding
  dsimp only
  split
  · exact refl s
  · exact .trans (.trans (placed s _ _ _) (bumpGen _ fk)) (freeFrame _ fk)

theorem dropReplica (s : State) (fk : Nat) : LossKept s (dropReplica s fk) :=
  .trans (.trans (.trans (placed s _ _ _) (setDie _ _ _)) (bumpGen _ fk)) (freeFrame _ fk)

theorem dropReplicas (fs : List Nat) (s : State) : LossKept s (dropReplicas s fs) := by
  induction fs generalizing s with
  | nil => exact refl s
  | cons f fs ih => exact (dropReplica s f).trans (ih _)

theorem evict (s : State) (die part : Nat) : LossKept s (evict s die part) := by
  unfold Machine.evict
  refine .trans (t := endMoves s die part) (foldl (fun s fk => endForwarding s fk _) _ s) ?_
  dsimp only
  split
  · exact refl _
  · refine .trans ?_ (setDie _ _ _)
    refine .trans (.trans ?_ (bumpGen _ _)) (freeFrame _ _)
    refine .trans (.trans (.trans ?_ (raiseHome _ _ _)) (setDie _ _ _)) (setDie _ _ _)
    exact (dropReplicas _ _).trans (giveUps die _ _)

theorem discardPart (s : State) (die part : Nat) : LossKept s (discardPart s die part) := by
  unfold Machine.discardPart
  split
  · exact refl s
  · dsimp only
    exact (foldl (fun t l => (setLine t _ _).trans (strikeDie _ die l)) _ s).trans (evict _ die part)

theorem discardParts (s : State) (part : Nat) : LossKept s (discardParts s part) :=
  foldl (fun t d => discardPart t d part) _ s

theorem cleanOwner (s : State) (l : Nat) : LossKept s (cleanOwner s l) := by
  unfold Machine.cleanOwner
  dsimp only
  split
  · exact refl s
  · split
    · exact refl s
    · refine .trans (.trans ?_ (setLine _ _ _)) (setDir _ l _)
      exact .trans ((forceTokens _ _ _).trans (homeWrite _ _ _)) (setHomePoison _ _ _)

end LossKept

/-! ### Parts are lost (R101, R372) -/

/-- Part p is marked lost. -/
def Lost (s : State) (p : Nat) : Prop := (Sp.find s.homes.lost p).isSome

theorem raiseNoPath_calm (s : State) (c : Nat) (f : FaultInfo) (pc : Word64) : Calm s (raiseNoPath s c f pc) := by
  unfold raiseNoPath raiseTo
  dsimp only
  split
  · exact .refl s
  · exact (Calm.setCtx s c _).trans (Calm.ringPut _ _ _)

/-- A part with lines to lose is marked, and no other mark changes. -/
theorem losePart_lost {s : State} {part : Nat} {ls : List Nat} (h : ls.isEmpty = false) :
    (losePart s part ls).homes.lost = Sp.insert s.homes.lost part ls := by
  unfold losePart
  rw [if_neg (by simp [h])]
  dsimp only
  refine congrArg Homes.lost (Calm.foldl (fun t c => ?_) _ _).homes
  split
  · exact .refl t
  · split
    · exact raiseNoPath_calm t c _ _
    · exact .refl t

theorem losePart_marks {s : State} {part : Nat} {ls : List Nat} (h : ls.isEmpty = false) : Lost (losePart s part ls) part := by
  rw [Lost, losePart_lost h, Sp.find_insert]
  rfl

theorem Lost.losePart {s : State} {q : Nat} (h : Lost s q) {part : Nat} {ls : List Nat} (hl : ls.isEmpty = false) :
    Lost (losePart s part ls) q := by
  by_cases e : q = part
  · exact e ▸ losePart_marks hl
  · rw [Lost, losePart_lost hl, Sp.find_insert_ne _ _ e]
    exact h

theorem Lost.kept {s t : State} {q : Nat} (h : Lost s q) (k : LossKept s t) : Lost t q := by
  rw [Lost, k.lost]
  exact h

theorem linesOf_nonempty (part : Nat) : (linesOf part).isEmpty = false := by
  simp [linesOf]

/-- Parts lost one after the other are all marked, and so is what was before. -/
theorem foldl_losePart (ps : List Nat) (s : State) {q : Nat} (h : Lost s q ∨ q ∈ ps) :
    Lost (ps.foldl (fun s p => losePart s p (linesOf p)) s) q := by
  induction ps generalizing s with
  | nil => exact h.resolve_right (by simp)
  | cons p ps ih =>
    rw [List.foldl_cons]
    refine ih _ ?_
    rcases h with h | h
    · exact .inl (h.losePart (linesOf_nonempty p))
    · rcases List.mem_cons.1 h with rfl | h
      · exact .inl (losePart_marks (linesOf_nonempty q))
      · exact .inr h

theorem loseParts_marks {s : State} {ps : List Nat} (self : Instr) {q : Nat} (h : q ∈ ps) : Lost (loseParts s ps self) q := by
  have marked : Lost ((ps.filter fun p => (Sp.find s.homes.lost p).isNone).foldl (fun s p => losePart s p (linesOf p)) s) q := by
    refine foldl_losePart _ s ?_
    by_cases hq : (Sp.find s.homes.lost q).isSome
    · exact .inl hq
    · exact .inr (List.mem_filter.2 ⟨h, by simpa using hq⟩)
  unfold loseParts
  dsimp only
  split
  · exact marked.kept (.waitTick _ _ _ _)
  · exact marked.kept (.foldl (fun t p => (LossKept.discardParts t p).trans (.foldl (fun t l => .setDir t l _) _ _)) _ _)

/-- MEMORY_DEVICE_LOSS marks the parts of the extent that the die's port serves. -/
theorem memoryDeviceLoss_marks (s : State) (die base n : Nat) : Goes (.memoryDeviceLoss die base n) s fun t => ∀ i, i < n / 65536 →
    kindOf ((base / 65536 + i) * 65536) = 1 → (base / 65536 + i) % 8 = die → (Sp.find t.homes.lost (base / 65536 + i)).isSome := by
  refine goes_calm rfl rfl fun t ht i hi hk hd => ?_
  rw [ht.homes]
  refine loseParts_marks _ (List.mem_filter.2 ⟨List.mem_map.2 ⟨i, List.mem_range.2 hi, rfl⟩, ?_⟩)
  simp [hk, hd]

/-! ### A die fails (R100) -/

/-- HOME_FAILURE_RECOVERY of a die in service takes it out of service. -/
theorem homeFailureRecovery_downs {s : State} {die : Nat} (h : (s.die die).down = false) :
    Goes (.homeFailureRecovery die) s fun t => s.sch.hits = [] → (t.die die).down = true := by
  refine ⟨_, rfl, fun hits => ?_⟩
  have downs : failDie s die = (s.setDie die { s.die die with down := true }).later (.homeFailureRecovery die) := by
    simp only [failDie, h, Bool.not_false, if_true]
  have quiet : (failDie s die).sch.hits = [] := by rw [downs]; exact hits
  rw [settleHits_quiet quiet, downs]
  exact congrArg Die.down (State.die_setDie s die _)

/-- Once leases and marks have passed, the die's bit in DIEUP goes. -/
theorem homeFailureRecovery_clears {s : State} {die : Nat} (h : (s.die die).down = true) (hu : s.dev.dieUp.getLsbD die = true)
    (hd : die < 8) (hr : removalDue s (fun a => homedOn s die a || (kindOf a == 1 && deviceOf a == s.dev.devId.toNat)) = none)
    (hm : markDue s = none) : Goes (.homeFailureRecovery die) s fun t => t.dev.dieUp.getLsbD die = false := by
  refine goes_calm rfl rfl fun t ht => ?_
  rw [ht.dev]
  simp only [failDie, h, hu, hr, hm, Bool.not_true, Bool.false_eq_true, if_false]
  simp [hd]

/-! ### Losses end (R101) -/

/-- HOMELOST_CLEAR of a lost part: it is lost no more. -/
theorem homelostClear_ends {s : State} {part : Nat} {ls : List Nat} (h : Sp.find s.homes.lost part = some ls) :
    Goes (.homelostClear part) s fun t => Sp.find t.homes.lost part = none := by
  refine ⟨_, rfl, ?_⟩
  simp only [clearLost, h]
  have kept (z : State) (f : Nat → List Byte) :
      LossKept z (ls.foldl (fun s l => (homeWrite s (l * 128) (f l)).setHomePoison l true) z) :=
    .foldl (fun t l => (LossKept.homeWrite t _ _).trans (.setHomePoison _ l true)) ls z
  exact (congrArg (Sp.find · part) (kept { s with homes := { s.homes with lost := Sp.erase s.homes.lost part } } _).lost).trans
    (Sp.find_erase ..)

/-! ### Dual-home windows (R93) -/

theorem dualHomeOpen_opens {s : State} {page base : Nat} (hk : kindOf base = 0) (ha : base % 0x200000 = 0)
    (hp : base / 0x200000 ≠ page) (hi : installed s base = true) (he : extentFree s base = true)
    (hd : (s.homes.dual.any fun w => w.page == page || w.base / 0x200000 == base / 0x200000) = false) :
    Goes (.dualHomeOpen page base) s fun t => t.homes.dual = s.homes.dual ++ [{ page := page, base := base }] := by
  refine ⟨_, rfl, ?_⟩
  have allowed : (kindOf base != 0 || base % page2M != 0 || base / page2M == page || !installed s base || !extentFree s base ||
      s.homes.dual.any (fun w => w.page == page || w.base / page2M == base / page2M)) = false := by
    simp only [page2M, hk, ha, hi, he, hd, beq_eq_false_iff_ne.2 hp]
    decide
  simp only [openDual, allowed, Bool.false_eq_true, if_false]
  rfl

theorem switch_switches {s u : State} {page : Nat} {w : Dual}
    (hw : s.homes.dual.find? (fun w => w.page == page && !w.switched) = some w)
    (hf : (s.ctxs.any fun c => decide (64 < (movedFlat (page * 0x200000) 0x200000 w.base c.2).length)) = false)
    (hm : movePage s w = .ok () u) :
    Goes (.switch page) s fun t => { w with switched := true, redirect := true } ∈ t.homes.dual := by
  refine goes_calm rfl rfl fun t ht => ?_
  rw [ht.homes]
  simp only [switchPage, hw, page2M, hf, hm, Bool.false_eq_true, if_false]
  exact List.mem_append_right _ (List.mem_singleton_self _)

theorem purgeComplete_ends (s : State) (page : Nat) :
    Goes (.purgeComplete page) s fun t => ∀ w ∈ t.homes.dual, w.page = page → w.switched = false := by
  refine ⟨_, rfl, fun w hw hp => ?_⟩
  unfold purgePage at hw
  split at hw
  · have := (List.mem_filter.1 hw).2
    simpa [hp] using this
  · next none =>
    by_contra hs
    exact none (List.any_eq_true.2 ⟨w, hw, by simp [hp, hs]⟩)

/-! ### Devices that fail (R371) -/

theorem deviceUnreachable_fails {s : State} {n : Nat} (hp : n ∈ s.dev.present) (hf : n ∉ s.dev.failing) :
    Goes (.deviceUnreachable n) s fun t => n ∈ t.dev.failing ∧ n ∈ t.dev.present := by
  refine goes_calm rfl rfl fun t ht => ?_
  have fails : loseDevice s n = { s with dev := { s.dev with failing := n :: s.dev.failing } }.later (.deviceUnreachable n) := by
    have new : s.dev.failing.contains n = false := by simpa using hf
    simp only [loseDevice, List.contains_iff_mem.2 hp, new, Bool.not_true, Bool.not_false,
      Bool.false_eq_true, if_false, if_true]
  rw [ht.dev, fails]
  exact ⟨List.mem_cons_self, hp⟩

theorem deviceUnreachable_leaves {s : State} {n : Nat} (hp : n ∈ s.dev.present) (hf : n ∈ s.dev.failing)
    (hr : removalDue s (fun a => deviceOf a == n) = none) (hm : markDue s = none) :
    Goes (.deviceUnreachable n) s fun t => n ∉ t.dev.present := by
  refine goes_calm rfl rfl fun t ht => ?_
  rw [ht.dev]
  simp only [loseDevice, List.contains_iff_mem.2 hp, List.contains_iff_mem.2 hf, hr, hm, Bool.not_true, Bool.false_eq_true, if_false]
  simp

theorem poisonResponse_poisons (s : State) (line : Nat) :
    Goes (.poisonResponse line) s fun t => t.homePoison line = true ∧ t.mem = s.mem :=
  ⟨_, rfl, show Sp.get false (Sp.put false s.homes.poison line true) line = true from Sp.get_put .., rfl⟩

/-! ### Requests of the host (R90, R91, R121) -/

/-- The state in which the one request i of the host is tried. -/
def asked (s : State) (i : Instr) : State := { (s.fresh).2 with dev := { (s.fresh).2.dev with hostQ := [((s.fresh).1, i)] } }

/-- No request of the host waits any more. -/
def answered (s : State) : State := { s with dev := { s.dev with hostQ := [] } }

/-- A request that the windows cover, with none before it, is performed at once. -/
theorem hostArrives_performs {s u : State} {i : Instr} {a : Nat × Nat} (hu : s.dev.hostUp = true) (hq : s.dev.hostQ = [])
    (ha : hostAsk i = some a) (hw : inWindow s a.1 a.2 = true) (hp : hostPerform (asked s i) i = .ok () u) :
    hostArrives s i = settleHits (answered u) := by
  have tried : hostArrives s i = hostTry (asked s i) s.fresh.1 := by
    simp only [hostArrives, ha, hu, hw, Bool.not_true, Bool.false_eq_true, if_false]
    rw [asked, show (s.fresh).2.dev.hostQ = [] from hq]
    rfl
  have found : (asked s i).dev.hostQ = [(s.fresh.1, i)] := rfl
  rw [tried, hostTry, found]
  simp [hp, answered]

/-- A request behind an earlier one of its line waits. -/
theorem hostArrives_queues {s : State} {i : Instr} {a : Nat × Nat} (hu : s.dev.hostUp = true) (ha : hostAsk i = some a)
    (hw : inWindow s a.1 a.2 = true) (hl : (s.dev.hostQ.any fun x => x.1 != s.sch.nextId && oneLine x.2 i) = true)
    (hn : (s.dev.hostQ.all fun x => x.1 != s.sch.nextId) = true) : hostArrives s i =
      { (s.fresh).2 with dev := { s.dev with hostQ := s.dev.hostQ ++ [(s.sch.nextId, i)] } } := by
  have old : s.dev.hostQ.find? (fun x => x.1 == s.sch.nextId) = none := by
    simpa [List.find?_eq_none] using hn
  have before : (s.dev.hostQ ++ [(s.sch.nextId, i)]).takeWhile (fun x => x.1 != s.sch.nextId) = s.dev.hostQ := by
    rw [List.takeWhile_append_of_pos (by simpa using hn)]
    simp
  have line : (s.dev.hostQ.any fun x => oneLine x.2 i) = true := by
    obtain ⟨x, hx, h⟩ := List.any_eq_true.1 hl
    exact List.any_eq_true.2 ⟨x, hx, (Bool.and_eq_true_iff.1 h).2⟩
  simp only [hostArrives, ha, hu, hw, Bool.not_true, Bool.false_eq_true, if_false, hostTry, State.fresh, List.find?_append, old,
    Option.none_or, List.find?_singleton, beq_self_eq_true, if_true, before, line]

theorem hostArrives_unsupported {s : State} {i : Instr} {a : Nat × Nat} (hu : s.dev.hostUp = true) (ha : hostAsk i = some a)
    (hw : inWindow s a.1 a.2 = false) : hostArrives s i = unsupported s := by
  simp only [hostArrives, ha, hu, hw, Bool.not_true, Bool.not_false, Bool.false_eq_true, if_false, if_true]

section
variable {s u : State} {line base n : Nat} {bs : List Byte} {pz : Bool}

theorem memrd_answers (hu : s.dev.hostUp = true) (hq : s.dev.hostQ = []) (hw : inWindow s base n = true)
    (hr : hostRead (asked s (.memrd base n)) (nowAt s base) n = .ok (bs, pz) u) :
    Goes (.memrd base n) s fun t => t.dev.replies = u.dev.replies ++ [some (base, bs)] := by
  refine goes_calm (congrArg _ (hostArrives_performs (u := hostReply u base bs) hu hq rfl hw ?_)) rfl fun t ht => ?_
  · show (match hostRead (asked s (.memrd base n)) (nowAt s base) n with
      | .ok (bs, _) s => Res.ok () (hostReply s base bs)
      | .wait t r => .wait t r
      | .fail f => .fail f) = _
    rw [hr]
  · rw [ht.dev]
    rfl

theorem memwr_writes (hu : s.dev.hostUp = true) (hq : s.dev.hostQ = []) (hw : inWindow s base bs.length = true)
    (hr : hostWrite (asked s (.memwr base bs)) (nowAt s base) bs = .ok () u) : Leads (.memwr base bs) s (answered u) :=
  leads_settleHits (congrArg _ (hostArrives_performs (i := .memwr base bs) hu hq rfl hw hr)) rfl

/-- A device that has come to own a line stands in its directory word. -/
theorem ownDev_owner {z : State} {l dev : Nat} (h : ownDev z l dev = .ok () u) :
    (u.dirOf l).oremote = true ∧ (u.dirOf l).odev = dev := by
  unfold ownDev at h
  split at h
  · cases h
  · cases h
  · split at h
    · cases h
    · cases h
    · split at h
      · cases h
        rw [State.dirOf_setDir]
        exact ⟨rfl, rfl⟩
      · next e =>
        exact (e _ _ h).elim

theorem meminv_owns (hu : s.dev.hostUp = true) (hq : s.dev.hostQ = []) (hw : inWindow s (line * 128) 128 = true)
    (ho : ownDev (asked s (.meminv line)) (nowAt s (line * 128) / 128) s.dev.hostId = .ok () u) :
    Leads (.meminv line) s (answered u) ∧ (u.dirOf (nowAt s (line * 128) / 128)).oremote = true ∧
      (u.dirOf (nowAt s (line * 128) / 128)).odev = s.dev.hostId :=
  ⟨leads_settleHits (congrArg _ (hostArrives_performs (i := .meminv line) hu hq rfl hw ho)) rfl, ownDev_owner ho⟩

theorem host_queues {i : Instr} (hi : i = .memrd base n ∨ i = .memwr base bs ∨ i = .meminv line) (hu : s.dev.hostUp = true)
    (hw : ∀ a, hostAsk i = some a → inWindow s a.1 a.2 = true)
    (hl : (s.dev.hostQ.any fun x => x.1 != s.sch.nextId && oneLine x.2 i) = true)
    (hn : (s.dev.hostQ.all fun x => x.1 != s.sch.nextId) = true) :
    Goes i s fun t => t.dev.hostQ = s.dev.hostQ ++ [(s.sch.nextId, i)] ∧ t.mem = s.mem ∧ t.homes = s.homes ∧
      t.dev.replies = s.dev.replies := by
  have queues {a : Nat × Nat} (ha : hostAsk i = some a) (he : exec i s = .next (hostArrives s i)) :
      Goes i s fun t => t.dev.hostQ = s.dev.hostQ ++ [(s.sch.nextId, i)] ∧ t.mem = s.mem ∧ t.homes = s.homes ∧
        t.dev.replies = s.dev.replies := by
    rw [hostArrives_queues hu ha (hw a ha) hl hn] at he
    exact ⟨_, he, rfl, rfl, rfl, rfl⟩
  rcases hi with rfl | rfl | rfl
  · exact queues rfl rfl
  · exact queues rfl rfl
  · exact queues rfl rfl

theorem memrd_unsupported (hu : s.dev.hostUp = true) (hw : inWindow s base n = false) : Goes (.memrd base n) s fun t =>
    t.dev.hostCnt = s.dev.hostCnt + 1 ∧ t.dev.replies = s.dev.replies ++ [none] := by
  refine ⟨unsupported s, ?_, rfl, rfl⟩
  show execMemrd base n s = _
  rw [execMemrd, hostArrives_unsupported hu rfl hw]

theorem hostUnsupportedRequest_counts (hu : s.dev.hostUp = true) : Goes .hostUnsupportedRequest s fun t =>
    t.dev.hostCnt = s.dev.hostCnt + 1 ∧ t.dev.replies = s.dev.replies ++ [none] ∧ t.mem = s.mem ∧ t.homes = s.homes :=
  ⟨unsupported s, if_pos hu, rfl, rfl, rfl, rfl⟩

end

/-! ### What the host holds and snoops (R91, R92) -/

theorem withoutDev_devHolds (d : DirWord) (dev : Nat) : devHolds (withoutDev d dev) dev = false := by
  have clear : (d.devs &&& ~~~bitAt dev).getLsbD dev = false := by
    by_cases h : dev < 64
    · simp [h]
    · exact BitVec.getLsbD_of_ge _ _ (Nat.le_of_not_lt h)
  unfold withoutDev
  dsimp only
  split
  · simp [devHolds, clear]
  · next h => simp only [devHolds, clear, Bool.or_false]; simpa using h

theorem dropDev_dirOf (s : State) (l dev : Nat) : (dropDev s l dev).dirOf l = withoutDev (s.dirOf l) dev := by
  refine Eq.trans (?_ : _ = (s.setDir l (withoutDev (s.dirOf l) dev)).dirOf l) (State.dirOf_setDir ..)
  unfold dropDev forgetDev
  split <;> rfl

theorem bisnpResponse_ends (s : State) (line : Nat) :
    Goes (.bisnpResponse line) s fun t => devHolds (t.dirOf (nowAt s (line * 128) / 128)) s.dev.hostId = false := by
  by_cases h : devHolds (s.dirOf (nowAt s (line * 128) / 128)) s.dev.hostId = true
  · refine ⟨_, if_pos h, ?_⟩
    show devHolds ((dropDev s (nowAt s (line * 128) / 128) s.dev.hostId).dirOf (nowAt s (line * 128) / 128)) s.dev.hostId = false
    rw [dropDev_dirOf, withoutDev_devHolds]
  · exact ⟨_, if_neg h, by simpa using h⟩

section
variable {s u v : State} {line : Nat} {bs : List Byte} {pz : Bool}

theorem snoopRead_reads (hc : combineFirst s (line * 128) = .ok () v) (hr : clRead v (line * 128) 128 = .ok (bs, pz) u) :
    snoopRead s line = .ok (bs, pz) u := by
  simp only [snoopRead, hc, hr]

theorem snoops (hu : s.dev.hostUp = true) (hl : hostLine s line = true) : (!s.dev.hostUp || !hostLine s line) = false := by
  simp [hu, hl]

theorem snoopReply_replies (s : State) (l : Nat) (bs : List Byte) :
    (snoopReply s l bs).dev.replies = s.dev.replies ++ [some (l * 128, bs)] := by
  rw [snoopReply, (Calm.settleHits _).dev]
  rfl

theorem snpcur_replies (hu : s.dev.hostUp = true) (hl : hostLine s line = true) (hr : snoopRead s line = .ok (bs, pz) u) :
    Goes (.snpcur line) s fun t => t.dev.replies = u.dev.replies ++ [some (line * 128, bs)] := by
  refine ⟨snoopReply u line bs, ?_, snoopReply_replies ..⟩
  show execSnpcur line s = _
  simp only [execSnpcur, snoops hu hl, Bool.false_eq_true, if_false, hr]

theorem snpdata_replies (hu : s.dev.hostUp = true) (hl : hostLine s line = true) (hr : snoopRead s line = .ok (bs, pz) u) :
    Goes (.snpdata line) s fun t => t.dev.replies = u.dev.replies ++ [some (line * 128, bs)] := by
  refine ⟨snoopReply (cleanOwner u line) line bs, ?_, ?_⟩
  · show execSnpdata line s = _
    simp only [execSnpdata, snoops hu hl, Bool.false_eq_true, if_false, hr]
  · exact (snoopReply_replies ..).trans (by rw [(LossKept.cleanOwner u line).dev])

theorem snpinv_replies (hu : s.dev.hostUp = true) (hl : hostLine s line = true) (hc : combineFirst s (line * 128) = .ok () v)
    (hr : recallAll v line = .ok () u) : Goes (.snpinv line) s fun t =>
      t.dev.replies = u.dev.replies ++ [some (line * 128, Memory.readN u.mem (line * 128) 128)] := by
  refine ⟨snoopReply u line (Memory.readN u.mem (line * 128) 128), ?_, snoopReply_replies ..⟩
  show execSnpinv line s = _
  simp only [execSnpinv, snoops hu hl, Bool.false_eq_true, if_false, hc, hr]

end

/-! ### The link, BAR0 and attestation (R368, R369, R375) -/

theorem hostLinkReset_downs (s : State) : Goes .hostLinkReset s fun t => t.dev.hostUp = false ∧ t.dev.hostOn = false := by
  refine goes_calm rfl rfl fun t ht => ?_
  rw [ht.dev]
  exact ⟨rfl, rfl⟩

theorem bar0Write_keeps {s : State} {n : Nat} {val : BitVec 64} (hu : s.dev.hostUp = true) (hl : 0x1000 ≤ n) (hh : n < 0x2000000) :
    Goes (.bar0Write n val) s fun t => bar0Read t n = val := by
  have mailbox : (!s.dev.hostUp || decide (n < 0x1000) || decide (0x2000000 ≤ n)) = false := by
    simp only [hu, Bool.not_true, Bool.false_or, Bool.or_eq_false_iff, decide_eq_false_iff_not]
    omega
  refine ⟨{ s with dev := { s.dev with mailbox := Sp.insert s.dev.mailbox n val } }, ?_, ?_⟩
  · show execBar0Write n val s = _
    simp only [execBar0Write, mailbox, Bool.false_eq_true, if_false]
  · have zero : (n == 0) = false := by simp; omega
    have eight : (n == 8) = false := by simp; omega
    simp only [bar0Read, zero, eight, Nat.not_lt.2 hl, Bool.false_eq_true, if_false, Sp.get, Sp.find_insert, Option.getD_some]

theorem bar0Write_ignored {s : State} {n : Nat} {val : BitVec 64} (h : n < 0x1000) : Goes (.bar0Write n val) s fun t => t = s :=
  ⟨s, if_pos (by simp [h]), rfl⟩

/-! ### DEVSTAT (R368) -/

theorem bits_toNat {n : Nat} (v : BitVec n) (o k : Nat) : (bits v o k).toNat = v.toNat / 2 ^ o % 2 ^ k := by
  simp [bits, Nat.shiftRight_eq_div_pow]

/-- The fields of DEVSTAT do not overlap. -/
theorem devstat_toNat {s : State} (h : s.dev.state < 16) : (devstat s).toNat =
    s.dev.dieUp.toNat * 0x10000000000 + s.dev.devId.toNat * 0x400000000 + s.clk.throttle.toNat * 0x10 + s.dev.state := by
  have hd := s.dev.dieUp.isLt
  have hi := s.dev.devId.isLt
  have ht := s.clk.throttle.isLt
  rw [devstat, BitVec.toNat_ofNat]
  omega

theorem devstat_fields {s : State} (h : s.dev.state < 16) : let v := bar0Read s 0
    bits v 0 4 = BitVec.ofNat 4 s.dev.state ∧ bits v 4 4 = s.clk.throttle.setWidth 4 ∧ bits v 8 26 = 0 ∧
      bits v 34 6 = s.dev.devId ∧ bits v 40 8 = s.dev.dieUp ∧ bits v 48 16 = 0 := by
  have hd := s.dev.dieUp.isLt
  have hi := s.dev.devId.isLt
  have ht := s.clk.throttle.isLt
  have field (o k : Nat) (x : BitVec k) (e : (devstat s).toNat / 2 ^ o % 2 ^ k = x.toNat) : bits (devstat s) o k = x :=
    BitVec.eq_of_toNat_eq ((bits_toNat _ o k).trans e)
  have reserved (o k : Nat) (e : (devstat s).toNat / 2 ^ o % 2 ^ k = 0) : bits (devstat s) o k = 0 :=
    field o k 0 (e.trans (by simp))
  have v := devstat_toNat h
  refine ⟨field _ _ _ ?_, field _ _ _ ?_, reserved _ _ ?_, field _ _ _ ?_, field _ _ _ ?_, reserved _ _ ?_⟩ <;>
    simp only [v, BitVec.toNat_ofNat, BitVec.toNat_setWidth, Nat.reducePow] at * <;> omega

/-! ### Attestation (R375) -/

theorem attestationRequest_reports {s : State} {nonce : BitVec 256} (hp : s.dev.power = true) (hs : serviceUpdate s = false) :
    Goes (.attestationRequest nonce) s fun t => ∃ r sig, t.dev.reports = s.dev.reports ++ [r] ∧
      r = leBytes nonce.toNat 32 ++ leBytes s.dev.fw.toNat 32 ++
        sha256 ((List.range 8).flatMap fun d => leBytes (if s.dev.dieUp.getLsbD d then (s.dev.tower.getD d 0).toNat else 0) 32) ++
        sha256 ((List.range 8).flatMap fun d => leBytes (s.dev.engine.getD d 0).toNat 32) ++ leBytes s.dev.svn 8 ++
        leBytes s.dev.devId.toNat 1 ++ leBytes s.dev.dieUp.toNat 1 ++ leBytes s.parts.length 2 ++ leBytes 0 4 ++ sig ∧
      sig.length = 64 := by
  have reports : exec (.attestationRequest nonce) s = .next { s with dev := { s.dev with reports := s.dev.reports ++
      [reportBody s nonce ++ leBytes (Config.signature (leNat (sha256 (reportBody s nonce)))).toNat 64] } } := by
    show execAttestationRequest nonce s = _
    simp only [execAttestationRequest, hp, hs, Bool.not_true, Bool.false_eq_true, if_false]
  exact ⟨_, reports, _, _, rfl, rfl, length_leBytes ..⟩

/-! ### Ports (R370) -/

/-- How often the flit that a port has not delivered has been retried; another flit is one that follows its delivery. -/
def triesOf (s : State) (n flit : Nat) : Nat := if (Sp.get {} s.dev.ports n).flit = flit then (Sp.get {} s.dev.ports n).retries else 0

/-- A retry on a port in service. -/
theorem execFlitCrcRetry_retries {s : State} {n flit : Nat} (hn : n < 16) (hd : (Sp.get {} s.dev.ports n).down = false) :
    let p := { Sp.get {} s.dev.ports n with flit := flit, retries := triesOf s n flit + 1 }
    execFlitCrcRetry ⟨n, flit⟩ s = .next (if triesOf s n flit < 8 then
      { s with dev := { s.dev with ports := Sp.put {} s.dev.ports n p } } else downPort s n) := by
  have tries : (if (Sp.get {} s.dev.ports n).flit == flit then (Sp.get {} s.dev.ports n).retries else 0) = triesOf s n flit := by
    simp only [triesOf, beq_iff_eq]
  have served : (decide (16 ≤ n) || (Sp.get {} s.dev.ports n).down) = false := by
    simp only [hd, Bool.or_false, decide_eq_false_iff_not]
    omega
  simp only [execFlitCrcRetry, tries, served, Bool.false_eq_true, if_false]
  split <;> rfl

theorem flitCrcRetry_counts {s : State} {n flit : Nat} (hn : n < 16) (hd : (Sp.get {} s.dev.ports n).down = false)
    (ht : triesOf s n flit < 8) : Goes (.flitCrcRetry ⟨n, flit⟩) s fun t =>
      (Sp.get {} t.dev.ports n).retries = triesOf s n flit + 1 ∧ (Sp.get {} t.dev.ports n).flit = flit := by
  refine ⟨_, (execFlitCrcRetry_retries hn hd).trans (by rw [if_pos ht]), ?_⟩
  simp only [Sp.get_put, and_self]

/-- A port that leaves service is down, and stands in no route. -/
theorem downPort_downs (s : State) (n : Nat) :
    (Sp.get {} (downPort s n).dev.ports n).down = true ∧ ∀ r ∈ (downPort s n).dev.routes, n ∉ r.2 := by
  have told (z : State) (l : List Nat) : (l.foldl (fun s d => s.soon (.deviceUnreachable d)) z).dev = z.dev := by
    induction l generalizing z with
    | nil => rfl
    | cons d l ih => exact ih _
  unfold downPort
  dsimp only
  rw [told]
  refine ⟨by rw [Sp.get_put], fun r hr => ?_⟩
  obtain ⟨r, -, rfl⟩ := List.mem_map.1 hr
  simp

theorem flitCrcRetry_downs {s : State} {n flit : Nat} (hn : n < 16) (hd : (Sp.get {} s.dev.ports n).down = false)
    (ht : 8 ≤ triesOf s n flit) : Goes (.flitCrcRetry ⟨n, flit⟩) s fun t =>
      (Sp.get {} t.dev.ports n).down = true ∧ ∀ r ∈ t.dev.routes, n ∉ r.2 :=
  ⟨_, (execFlitCrcRetry_retries hn hd).trans (by rw [if_neg (Nat.not_lt.2 ht)]), downPort_downs s n⟩

/-! ### The statement -/

/-- Settles O48: each clause is what the model's operation for that step comes to under its hypotheses; acting on conflicts last
leaves homes, memory and the device but its ring alone. -/
theorem homeAndHostSteps : Obligations.HomeAndHostSteps := by
  unfold Obligations.HomeAndHostSteps
  intro s u die part line page base n nonce val bs pz
  refine ⟨?downs, ?clears, ?found, ?opens, ?switches, ?purges, ?devices, ?losses, ?poisons, ?requests, ?queues, ?outside, ?responses,
    ?snoops, ?invalidates, ?unsupported, ?resets, ?trains, ?mailbox, ?status, rfl, ?rest, ?page, ?reports, ?flits⟩
  case downs => exact homeFailureRecovery_downs
  case clears => exact homeFailureRecovery_clears
  case found => exact fun ls h => homelostClear_ends h
  case opens => exact dualHomeOpen_opens
  case switches => exact fun w hw hf hm => switch_switches hw hf hm
  case purges => exact purgeComplete_ends s page
  case devices => exact fun hp => ⟨deviceUnreachable_fails hp, deviceUnreachable_leaves hp⟩
  case losses => exact memoryDeviceLoss_marks s die base n
  case poisons => exact poisonResponse_poisons s line
  case requests => exact fun hu hq => ⟨memrd_answers hu hq, memwr_writes hu hq, meminv_owns hu hq⟩
  case queues => exact fun i hi hu hw hl hn => host_queues hi hu hw hl hn
  case outside => exact memrd_unsupported
  case responses => exact bisnpResponse_ends s line
  case snoops =>
    intro v hu hl hc hr
    exact ⟨snpcur_replies hu hl (snoopRead_reads hc hr), snpdata_replies hu hl (snoopRead_reads hc hr)⟩
  case invalidates => exact fun v hu hl hc hr => snpinv_replies hu hl hc hr
  case unsupported => exact hostUnsupportedRequest_counts
  case resets => exact hostLinkReset_downs s
  case trains => exact ⟨_, rfl, rfl, rfl⟩
  case mailbox => exact bar0Write_keeps
  case status => exact devstat_fields
  case rest => exact fun hl h0 h8 => by simp [bar0Read, hl, h0, h8]
  case page => exact bar0Write_ignored
  case reports => exact attestationRequest_reports
  case flits => exact fun hn hd => ⟨flitCrcRetry_counts hn hd, flitCrcRetry_downs hn hd⟩

end Sys2Proof.Machine

/-!
PROOF. The memory instructions issue their accesses (O28).
-/

namespace Sys2Proof.Machine

open Claim

section
variable {i : Instr} {s : State} {c : Cur} {w : Wave}

/-- What does not look at the window of a wave is the same once a window has opened (R106). -/
theorem opened_reads {α : Type} (g : Wave → α) (hg : ∀ (v : Wave) n, g { v with win := n } = g v) : g (opened s c w) = g w := by
  unfold opened Wave.openWindow
  split
  · rfl
  · split
    · exact hg _ _
    · rfl

/-- A wave with one more access that waits to be performed. -/
def Wave.putAccess (w : Wave) (a : Access) : Wave := { w with accs := w.accs ++ [a] }

/-- The state in which an access of i with some lanes has been put among those of its wave and is due to be performed. -/
def queuedIn (i : Instr) (s : State) (c : Cur) (w : Wave) (lanes : List Lane) : State :=
  ((begun s c w).updWave c.wave (·.putAccess (accessOf i s c w lanes none))).later (.accessPerformed c.wave w.seq)

/-- Where there is room for it, an access is put among those of its wave (R107, R108). -/
theorem issueAccess_queues {lanes : List Lane} (room : AccessRoom (begun s c w) c w (accessOf i s c w lanes none)) :
    issueAccess i (issOf i s c w) (begun s c w) lanes = .later (queuedIn i s c w lanes) := by
  obtain ⟨stores, reads, tst, armed⟩ := room
  have full : ¬ (queuedStore i && decide (32 ≤ queuedStores (opened s c w))) = true := fun h => by
    obtain ⟨a, b⟩ := Bool.and_eq_true_iff.1 h
    exact absurd (stores a) (Nat.not_lt.2 (of_decide_eq_true b))
  have waits : ¬ (readsFull (begun s c w) (coreOf c.wave) (opened s c w) i lanes ||
      meetsTst (begun s c w) (coreOf c.wave) (opened s c w) lanes) = true := by
    rw [show readsFull (begun s c w) (coreOf c.wave) (opened s c w) i lanes = false from reads,
      show meetsTst (begun s c w) (coreOf c.wave) (opened s c w) lanes = false from tst]
    decide
  have faults : (if armedAt (begun s c w) c (opened s c w) = true then
      lanesFault (begun s c w) (coreOf c.wave) (opened s c w).ctx i lanes else none) = none :=
    ite_eq_right_iff.2 fun ha => (armed ha).1
  have stops : (if armedAt (begun s c w) c (opened s c w) = true then
      accBkpt (begun s c w) c.wave (opened s c w).ctx (accessOf i s c w lanes none) else none) = none :=
    ite_eq_right_iff.2 fun ha => (armed ha).2
  unfold issueAccess
  dsimp only [issOf]
  rw [if_neg full, if_neg waits, faults]
  dsimp only
  unfold accessOf nextPc at stops
  rw [stops]
  rfl

/-- What has been queued is queued in what comes later, and due. -/
theorem queued_later {lanes : List Lane} {t : State} (h : Later (queuedIn i s c w lanes) t) :
    ∃ n, Queued t c.wave (accessOf i s c w lanes none) ∧ Timer.mk false n (.accessPerformed c.wave w.seq) ∈ t.sch.timers := by
  have put := State.wave?_updWave (·.putAccess (accessOf i s c w lanes none)) (State.wave?_setWave s c.wave (opened s c w))
  obtain ⟨v, hv, kept⟩ := ((Later.later _ _).trans h).wave_some put
  obtain ⟨n, due⟩ := Later.mem_later ((begun s c w).updWave c.wave (·.putAccess (accessOf i s c w lanes none)))
    (.accessPerformed c.wave w.seq)
  exact ⟨n, ⟨v, hv, kept.accs ▸ List.mem_append_right _ (List.mem_singleton_self _)⟩, h.timers _ due⟩

end

/-- An instruction whose own part is to issue an access, with the lanes its registers give, issues it: it is complete then, or when
the access is performed. -/
theorem issues_of {i : Instr} {f : Wave → Nat → Word64 → List Lane} {act : Iss → State → Act}
    (he : ∀ s, exec i s = issue i s act)
    (ha : ∀ s c w t, issueAccess i (issOf i s c w) (begun s c w) (f (opened s c w) s.sch.free (actMask i s c w)) = .later t →
      act (issOf i s c w) (begun s c w) = .later t ∨ act (issOf i s c w) (begun s c w) = .done t)
    (hf : ∀ (v : Wave) n free m, f { v with win := n } free m = f v free m := by intros; rfl) : Issues i f := by
  intro s c w h a room
  have lanes : f (opened s c w) s.sch.free (actMask i s c w) = f w s.sch.free (actMask i s c w) :=
    opened_reads (fun v => f v s.sch.free (actMask i s c w)) fun v n => hf v n _ _
  rw [he, issue_acts h]
  have done : ∃ t, actOut i s c w (issOf i s c w) (act (issOf i s c w) (begun s c w)) = .next t ∧
      Later (queuedIn i s c w (f w s.sch.free (actMask i s c w))) t := by
    rcases ha s c w _ (by rw [lanes]; exact issueAccess_queues room) with e | e <;> rw [e] <;>
      exact ⟨_, rfl, (finish_later _ _ _ _ _).trans (fireStep_later _ _)⟩
  obtain ⟨t, ht, later⟩ := done
  obtain ⟨n, queued, due⟩ := queued_later later
  exact ⟨t, n, ht, queued, due⟩

/-- So does one whose meaning e issues nothing else; that its lanes are those of f, whatever window is open, holds by unfolding. -/
theorem issues_lanes {i : Instr} {f : Wave → Nat → Word64 → List Lane} {e : State → Out} {g : Iss → State → List Lane}
    (he : ∀ s, exec i s = e s := by intros; rfl)
    (hi : ∀ s, e s = issue i s fun x s => issueAccess i x s (g x s) := by intros; rfl)
    (hg : ∀ s c w, g (issOf i s c w) (begun s c w) = f (opened s c w) s.sch.free (actMask i s c w) := by intros; rfl)
    (hf : ∀ (v : Wave) n free m, f { v with win := n } free m = f v free m := by intros; rfl) : Issues i f :=
  issues_of (fun s => (he s).trans (hi s)) (fun s c w t ht => .inl (by rw [hg]; exact ht)) hf

/-- The lane of an ATOM has the poison of its one value (R291). -/
theorem atomLane_atom (x : Iss) (free : Nat) (o : Atm) (t : Nat) : atomLane x free o false t =
    { tid := t, ptr := (ptrOf x.w free o.s o.ptr 0 t).1, pointer := (ptrOf x.w free o.s o.ptr 0 t).2,
      d0 := (atomVal x free o o.val t).1.setWidth 128, poison := (atomVal x free o o.val t).2 } := by
  simp [atomLane]

/-- CNTADD is complete once it is accepted (R303). -/
theorem issues_cntadd {ctl : Ctl} {a : BitVec 8} {inc : Src} : Issues (.cntadd ctl a inc) fun w free _ =>
    [{ tid := 0, ptr := (addr w free true a 0 0).1, pointer := (addr w free true a 0 0).2,
       d0 := (src64 w free true 0 false inc).1.setWidth 128, poison := (src64 w free true 0 false inc).2 }] := by
  have meaning (s : State) : exec (.cntadd ctl a inc) s = execCntadd ctl a inc s := rfl
  refine issues_of meaning (fun s c w t ht => .inr ?_)
  exact congrArg (fun q : Act => match q with | .later u => Act.done u | r => r) ht

/-- Settles O28: the own part of each instruction is to issue an access, whose lanes do not depend on a window that has opened. -/
theorem accessesIssue : Obligations.AccessesIssue := by
  unfold Obligations.AccessesIssue
  intro z o k op cop sgn nr m ctl a d off e r inc
  refine ⟨?ld, ?ldl, ?st, ?stl, ?cadd, ?prf, ?atom, ?cas, ?crflush, ?binit, ?barv, ?bdrop, ?btest, issues_cntadd⟩
  case ld => exact issues_lanes (e := execLd z o)
  case ldl => exact issues_lanes (e := execLdl z o)
  case st => cases z <;> exact issues_lanes (e := execSt _ o)
  case stl => cases z <;> exact issues_lanes (e := execStl _ o)
  case cadd => exact issues_lanes (e := execCadd cop o)
  case prf => exact issues_lanes (e := execPrf k o)
  case atom =>
    exact issues_lanes (e := execAtom op sgn nr m) (hg := fun _ _ _ => List.map_congr_left fun x _ => atomLane_atom _ _ m x)
  case cas => exact issues_lanes (e := execCas m)
  case crflush => exact issues_lanes (e := execCrflush ctl k)
  case binit => exact issues_lanes (e := execBinit ctl a off e)
  case barv => exact issues_lanes (e := execBarv r)
  case bdrop => exact issues_lanes (e := execBdrop r)
  case btest => exact issues_lanes (e := execBtest ctl d a off)

end Sys2Proof.Machine

/-!
PROOF. LAUNCH waits in the launch buffer inside a window and enters its queue outside (O33).
-/

namespace Sys2Proof.Machine

open Claim

section
variable {ctl : Ctl} {a : BitVec 8} {s : State} {c : Cur} {w : Wave} {p : Word64}

/-- What a LAUNCH inside a window has put in the launch buffer of its core (R110). -/
def heldLaunch (s : State) (c : Cur) (w : Wave) (p : Word64) : State :=
  let k := s.core (coreOf c.wave)
  (begun s c w).setCore (coreOf c.wave)
    { k with launches := k.launches ++ [{ wave := c.wave, id := w.seq, path := c.path, pc := c.pc, ptr := p }] }

/-- The own part of a LAUNCH whose record meets no breakpoint: inside a window, with room, it is held; outside, with no launch of its
wave held, its record is read and enters its queue. -/
theorem launch_acts (h : Begins (.launch ctl a) s c w) (hp : srcX w s.sch.free a = (p, false))
    (hb : launchStop (issOf (.launch ctl a) s c w) (begun s c w) p = none) :
    ∃ act, exec (.launch ctl a) s = actOut (.launch ctl a) s c w (issOf (.launch ctl a) s c w) act ∧
      ((opened s c w).win.isSome → ((s.core (coreOf c.wave)).launches.filter fun h => h.refused.isNone).length < 8 →
        act = .done (heldLaunch s c w p)) ∧
      ∀ r u v, (opened s c w).win = none →
        ((s.core (coreOf c.wave)).launches.any fun h => h.wave == c.wave && h.refused.isNone) = false →
        readLaunch (begun s c w) (whoOf c.wave (opened s c w)) p = .ok r u → enqueue u w.ctx r = some v → act = .done v := by
  have pointer : srcX (issOf (.launch ctl a) s c w).w (begun s c w).sch.free a = (p, false) := (opened_readX s c w _ _).trans hp
  have issued : exec (.launch ctl a) s = _ := (show exec (.launch ctl a) s = execLaunch ctl a s from rfl).trans (issue_acts h _)
  rw [show s.setWave c.wave (opened s c w) = begun s c w from rfl, pointer] at issued
  dsimp only at issued
  rw [if_neg (by decide), hb] at issued
  refine ⟨_, issued, fun hw hn => ?held, fun r u v hw hk hr he => ?queued⟩
  case held => exact (if_pos hw).trans (if_neg fun full => absurd (of_decide_eq_true full) (Nat.not_le.2 hn))
  case queued =>
    have reads : readLaunch (begun s c w) (whoOf (issOf (.launch ctl a) s c w).cur.wave (issOf (.launch ctl a) s c w).w) p =
      .ok r u := hr
    refine (if_neg (by simp [issOf, hw])).trans ((if_neg (Bool.eq_false_iff.1 hk)).trans ?_)
    rw [reads]
    dsimp only
    rw [issOf_ctx, he]

end

/-- Settles O33: the end of issue leaves the launch buffers and the jobs as the own part of LAUNCH has left them. -/
theorem launchesQueue : Obligations.LaunchesQueue := by
  unfold Obligations.LaunchesQueue
  intro ctl a s c w p h hp hb k
  obtain ⟨act, ht, held, queued⟩ := launch_acts h hp hb
  refine ⟨fun hw hn => ?_, fun r u v hw hk hr he => ?_⟩
  · obtain ⟨t, done, later, -⟩ := actOut_done (i := .launch ctl a) (s := s) (c := c) (w := w) (t := heldLaunch s c w p)
      (issOf (.launch ctl a) s c w)
    refine ⟨t, by rw [ht, held hw hn, done], ?_⟩
    rw [State.core, later.cores]
    exact congrArg Core.launches (State.core_setCore _ _ _)
  · obtain ⟨t, done, -, still⟩ := actOut_done (i := .launch ctl a) (s := s) (c := c) (w := w) (t := v)
      (issOf (.launch ctl a) s c w)
    exact ⟨t, by rw [ht, queued r u v hw hk hr he, done], still.reads (fun _ => rfl) w.ctx⟩

end Sys2Proof.Machine

/-!
PROOF. What a path comes to that takes a fault (R193, R194, R199, R200), from takeFault.
-/

namespace Sys2Proof.Machine

open Claim

/-! ### Paths of a wave -/

theorem Wave.path_setPath_ne {w : Wave} {i j : Nat} (p : Path) (h : j ≠ i) : (w.setPath i p).path j = w.path j := by
  simp [Wave.path, Wave.setPath, List.getD, List.getElem?_set_ne (Ne.symm h)]

theorem Wave.settle_path (w : Wave) (j : Nat) : w.settle.path j = w.path j := by
  unfold Wave.settle
  dsimp only
  split
  · rfl
  · split
    · rfl
    · split <;> rfl

theorem freeFrom_some {ps : List Path} {k h : Nat} (e : freeFrom ps k = some h) :
    ∃ n, h = k + n ∧ n < ps.length ∧ (ps.getD n {}).e.kind = .free := by
  induction ps generalizing k with
  | nil => cases e
  | cons p ps ih =>
    unfold freeFrom at e
    split at e
    · next hp => exact ⟨0, (Option.some.inj e).symm, Nat.succ_pos _, by simpa using hp⟩
    · obtain ⟨n, hn, hl, hk⟩ := ih e
      exact ⟨n + 1, by omega, Nat.succ_lt_succ hl, hk⟩

/-- A free entry is an entry of the path table, and free. -/
theorem Wave.freeEntry_some {w : Wave} {h : Nat} (e : w.freeEntry = some h) : h < w.paths.length ∧ (w.path h).e.kind = .free := by
  obtain ⟨n, rfl, hl, hk⟩ := freeFrom_some e
  exact ⟨by omega, by rw [Nat.zero_add]; exact hk⟩

/-! ### What a wave's paths come to -/

/-- The entry where the handler path of a fault starts, if it starts (R199). -/
def handlerEntry (w : Wave) (x : Ctx) (i code : Nat) : Option Nat :=
  if wantsHandler x (w.path i) code then w.freeEntry else none

/-- The wave whose path i has taken a fault: parked, with its handler path where one starts. -/
def faultedWave (s : State) (w : Wave) (x : Ctx) (i : Nat) (base next : Word64) (kind : ParkKind) (f : FaultInfo) : Wave :=
  let p := w.path i
  let n := nextSerial x.ring.serial
  let y := w.setPath i (parkPath p f.code base ⟨w.ctx, n, kind, base, next⟩)
  match handlerEntry w x i f.code with
  | some h => y.setPath h (handlerPath x p i n (nextIndex s (ringFor s w.ctx (faultRoute p f.code))) s.clk.cycle)
  | none => y

section
variable {s : State} {w : Wave} {x : Ctx} {i h : Nat} {base next : Word64} {kind : ParkKind} {f : FaultInfo}

theorem faultedWave_parks (hi : i < w.paths.length) (hk : (w.path i).e.kind = .path) :
    (faultedWave s w x i base next kind f).path i =
      parkPath (w.path i) f.code base ⟨w.ctx, nextSerial x.ring.serial, kind, base, next⟩ := by
  unfold faultedWave handlerEntry
  dsimp only
  split
  · next h he =>
    have free : w.freeEntry = some h := by
      split at he
      · exact he
      · cases he
    have ne : i ≠ h := fun e => by
      have := (Wave.freeEntry_some free).2
      rw [← e, hk] at this
      cases this
    rw [Wave.path_setPath_ne _ ne, Wave.path_setPath _ hi]
  · exact Wave.path_setPath _ hi

theorem faultedWave_handles (hw : wantsHandler x (w.path i) f.code = true) (he : w.freeEntry = some h) :
    (faultedWave s w x i base next kind f).path h = handlerPath x (w.path i) i (nextSerial x.ring.serial)
      (nextIndex s (ringFor s w.ctx (faultRoute (w.path i) f.code))) s.clk.cycle := by
  have entry : handlerEntry w x i f.code = some h := (if_pos hw).trans he
  unfold faultedWave
  rw [entry]
  exact Wave.path_setPath _ (by simpa [Wave.setPath] using (Wave.freeEntry_some he).1)

end

/-! ### What pins and the ring leave -/

/-- From s to t no path of a wave changes. -/
def PathsStay (s t : State) : Prop := ∀ w i, pathAt t w i = pathAt s w i

namespace PathsStay

theorem refl (s : State) : PathsStay s s := fun _ _ => rfl

theorem trans {s t u : State} (h : PathsStay s t) (k : PathsStay t u) : PathsStay s u := fun w i => (k w i).trans (h w i)

theorem of_waves {s t : State} (h : t.waves = s.waves) : PathsStay s t := fun w i => by simp only [pathAt, State.wave?, h]

theorem ensureSoon (s : State) (e : Instr) : PathsStay s (s.ensureSoon e) := by
  unfold State.ensureSoon
  split <;> exact of_waves rfl

theorem unmarkLines (s : State) : PathsStay s (unmarkLines s) := by
  have unmark (l : List (Nat × LineRec)) (t : State) :
      PathsStay t (l.foldl (fun s x => s.setLine x.1 { s.line x.1 with pinned := false }) t) := by
    induction l generalizing t with
    | nil => exact refl t
    | cons x l ih =>
      refine .trans ?_ (ih _)
      exact of_waves rfl
  exact unmark _ s

theorem unpin (s : State) (w : Nat) : PathsStay s (unpin s w) := by
  unfold Machine.unpin
  split
  · exact refl s
  · refine (unmarkLines s).trans ?_
    dsimp only
    split
    · exact of_waves rfl
    · refine .trans ?_ (ensureSoon _ _)
      exact of_waves rfl

theorem updWave (s : State) (w : Nat) {f : Wave → Wave} (h : ∀ y, (f y).paths = y.paths) : PathsStay s (s.updWave w f) := by
  intro v i
  unfold State.updWave
  split
  · next y hy =>
    by_cases e : v = w
    · rw [pathAt, pathAt, e, State.wave?_setWave, hy]
      exact congrArg (fun ps => ps.getD i {}) (h y)
    · rw [pathAt, pathAt, State.wave?_setWave_ne _ _ e]
  · rfl

theorem withdrawPin (s : State) (w : Nat) : PathsStay s (withdrawPin s w) := by
  refine .trans ?_ (updWave _ w fun _ => rfl)
  exact of_waves rfl

end PathsStay

/-- A record that names a path is held for its ring (R191, R196). -/
theorem ringPut_onRing (s : State) (ring : Option Nat) (r : FaultRec) (hp : r.path ≠ 31) : OnRing (ringPut s ring r) ring r := by
  unfold ringPut
  cases ring with
  | none => exact List.mem_append_right _ (List.mem_singleton_self r)
  | some c =>
    dsimp only
    cases hc : s.ctx? c with
    | none =>
      have absent : (some c).bind (State.ctx? { s with dev := { s.dev with ring := s.dev.ring ++ [r] } }) = none := hc
      unfold OnRing
      rw [absent]
      exact List.mem_append_right _ (List.mem_singleton_self r)
    | some x =>
      dsimp only
      rw [if_neg (by simp [hp])]
      unfold OnRing
      rw [Option.bind_some, State.ctx?, State.soon_ctxs, ← State.ctx?, State.ctx?_setCtx]
      exact ⟨x.ring.next, List.mem_append_right _ (List.mem_singleton_self _)⟩

theorem ringPut_waves (s : State) (ring : Option Nat) (r : FaultRec) : (ringPut s ring r).waves = s.waves := by
  unfold ringPut
  split
  · rfl
  · split
    · rfl
    · split <;> rfl

/-! ### Taking a fault -/

/-- The record of a fault that path i of wave w takes (R193). -/
def faultRec (wid i : Nat) (w : Wave) (x : Ctx) (pc : Word64) (f : FaultInfo) (tick : Word64) : FaultRec :=
  { code := f.code, sub := f.sub, serial := nextSerial x.ring.serial, mask := f.mask, pc := pc, addr := f.addr, wave := wid, path := i,
    ctx := w.ctx, extra := f.extra, tick := tick,
    flags := faultFlags (w.path i) f (wantsHandler x (w.path i) f.code && (handlerEntry w x i f.code).isNone) }

section
variable {s : State} {wid i : Nat} {w : Wave} {x : Ctx} {pc base next : Word64} {kind : ParkKind} {f : FaultInfo}

/-- Taking a fault ends with the record put on its ring, when the wave has its new paths. -/
theorem takeFault_puts (hw : s.wave? wid = some w) (hx : s.ctx? w.ctx = some x) :
    ∃ t tick, takeFault s wid i pc base next kind f =
        ringPut t (ringFor s w.ctx (faultRoute (w.path i) f.code)) (faultRec wid i w x pc f tick) ∧
      ∀ j, pathAt t wid j = (faultedWave s w x i base next kind f).path j := by
  unfold takeFault
  rw [hw]
  dsimp only
  rw [hx]
  dsimp only
  refine ⟨_, _, rfl, fun j => ?_⟩
  have pins (t : State) (y : Wave) :
      PathsStay t (dropLatch (if (y.state == .running) = true then t else withdrawPin (unpin t wid) wid) wid) := by
    refine .trans ?_ (.of_waves (s := if (y.state == .running) = true then t else withdrawPin (unpin t wid) wid) rfl)
    split
    · exact .refl t
    · exact (PathsStay.unpin t wid).trans (.withdrawPin _ wid)
  refine (pins _ _ wid j).trans ?_
  rw [pathAt, State.wave?, State.setCtx_waves, ← State.wave?, State.wave?_setWave]
  exact Wave.settle_path _ j

/-- Path i of wave w takes a fault: it parks, its record is held for its ring, and its handler path starts where R199 lets it. -/
theorem takeFault_faulted (hw : s.wave? wid = some w) (hx : s.ctx? w.ctx = some x) (hk : (w.path i).e.kind = .path)
    (hi : i < w.paths.length) (hl : w.paths.length ≤ 16) :
    Faulted s (takeFault s wid i pc base next kind f) wid i w x pc base next kind f := by
  obtain ⟨t, tick, ht, paths⟩ := takeFault_puts (i := i) (pc := pc) (base := base) (next := next) (kind := kind) (f := f) hw hx
  have at_ (j : Nat) : pathAt (takeFault s wid i pc base next kind f) wid j = (faultedWave s w x i base next kind f).path j := by
    rw [ht, pathAt, State.wave?, ringPut_waves]
    exact paths j
  have parked := (at_ i).trans (faultedWave_parks hi hk)
  have flags : (wantsHandler x (w.path i) f.code && (handlerEntry w x i f.code).isNone) =
      (wantsHandler x (w.path i) f.code && w.freeEntry.isNone) := by
    unfold handlerEntry
    cases wantsHandler x (w.path i) f.code <;> rfl
  refine ⟨?entry, congrArg Path.park parked, ⟨faultRec wid i w x pc f tick, ?held, rfl, rfl, rfl, rfl, rfl, rfl, rfl, rfl, rfl, rfl,
    ?flags⟩,
    fun h hh he => ?handler⟩
  case entry =>
    rw [parked]
    simp [parkPath]
  case held =>
    rw [ht]
    exact ringPut_onRing _ _ _ (show i ≠ 31 by omega)
  case flags => exact congrArg (faultFlags (w.path i) f) flags
  case handler =>
    rw [(at_ h).trans (faultedWave_handles hh he)]
    exact ⟨rfl, rfl, rfl⟩

end

end Sys2Proof.Machine

/-!
PROOF. Every instruction but REP goes through ISSUE.
-/

namespace Sys2Proof.Machine

open Claim

/-! ### Every instruction issues (R242) -/

/-- What i comes to from s is an issue of it, with some own part. -/
def IsIssue (i : Instr) (s : State) (o : Out) : Prop := ∃ act, o = issue i s act

namespace IsIssue

variable {i : Instr} {s : State}

theorem issue {act : Iss → State → Act} : IsIssue i s (issue i s act) := ⟨act, rfl⟩

theorem issueSealed {act : Iss → State → Act} : IsIssue i s (issueSealed i s act) := ⟨_, rfl⟩

theorem compute {sc : Bool} {f : Wave → Nat → Nat → List RegW} : IsIssue i s (compute i sc f s) := ⟨_, rfl⟩

theorem computeLater {sc : Bool} {n : State → Nat} {f : Wave → Nat → Nat → FOut} :
    IsIssue i s (computeLater i sc n f s) := ⟨_, rfl⟩

theorem int32 {o : Alu} {n : Nat} {f : In3 → Word32} : IsIssue i s (int32 i o n f s) := compute

theorem intTyped {o : Alu} {n : Nat} {f : Int → Int → Int} : IsIssue i s (intTyped i o n f s) := int32

theorem int64 {o : Alu} {f : Word64 → Word64 → Word64} : IsIssue i s (int64 i o f s) := compute

theorem shift64 {o : Alu} {f : Word64 → Nat → Word64} : IsIssue i s (shift64 i o f s) := compute

theorem pred2 {o : Prd} {two : Bool} {f : Bool → Bool → Bool} : IsIssue i s (pred2 i o two f s) := compute

theorem flt32 {o : Flt} {n : Nat} {cycles : State → Nat} {f : In3 → FR} : IsIssue i s (flt32 i o n cycles f s) := computeLater

theorem crossOp {f : Iss → Nat → List RegW × Word32} : IsIssue i s (crossOp i f s) := issue

end IsIssue

/-- Every instruction but REP goes through ISSUE: the shared meaning it is made of does. -/
theorem exec_isIssue {i : Instr} (h : i.wf = true) (hr : ∀ n d y z, i ≠ .rep n d y z) (s : State) : IsIssue i s (exec i s) := by
  unfold exec
  cases i with
  | iadd | isub | imul | ineg | iabs => exact .intTyped
  | imulh | imad | imin | imax | band | bor | bxor | bandn | bnot | shl | shr | sar | bfx | bfi | popc | clz | ctz |
  brev | permb => exact .int32
  | iaddw | isubw => exact .int64
  | shlw | shrw => exact .shift64
  | imadw | icmp | sel | mov | movi | lea | p2v | v2p => exact .compute
  | pand | por | pxor | pnot | pmov => exact .pred2
  | fadd | fsub | fmul | ffma | fmin | fmax | fclass | frcp | frsq | fsqrt | fexp2 | flog2 | fsin | fcos | frnd |
  badd2 | bmul2 | bfma2 | hfma2 | fcvt | fcvtx | i2f | f2i => exact .flt32
  | fcmp | fcvtp => exact .computeLater
  | vote | shfl | wred | wscan | bcast => exact .crossOp
  | split | fuse | grow | shrink | bra | brx | call | callx | ret | exit | meet | yield | nop | pfc | mark | tretRetry
  | tretSkip | srd | swr | ld | st | ldl | stl | atom | cas | prf | crange | cadd | crflush | lease | tnew | tjoin |
  tleave | binit | barv | bdrop | bwait | btest | cntadd | waitge | launch | tcfg | tld | tst | tzero | azero |
  azeroRel | mmaF | mmaX | mmaI8 | mmaBp | tdrain | tramp | trampret => exact .issue
  | bkpt | trap | fence | copy | copyr | copym | vqput | ctxnew | ctxgrant | ctxrevoke | ctxrun | ctxstop | ctxpeek |
  ctxpoke | ctxkill | tlbinvPage | tlbinvCtx | tlbinvChild | qosset => exact .issueSealed
  | rep => exact absurd rfl (hr _ _ _ _)
  | accessPerformed | pinGrant | pinGrantTimeout | pinTimeout | ptsTick | lasttouchSweep | timestampSweep |
  monarchInterval | forwardingEnd | locate | fill | eviction | frameArrival | atlasHoldExpiry | wrapNotice | pageWalk
  | tlbinvComplete | homeRead | homeReadForOwnership | homeUpgrade | writeBack | cleanEvictionNotice | forwardedRead |
  forwardedReadForOwnership | invalidation | holderRegistration | backInvalidation | streamedAccess |
  clocklessWaitDone | combine | memrd | memwr | meminv | snpdata | snpinv | snpcur | hostUnsupportedRequest |
  copyStart | copyStop | copyComplete | arrayOperationComplete | gather | bilerp | search | engineRequestComplete |
  waitCounterPoll | waitCounterRetry | dispatchPlacement | headAging | gridClose | waveFree | pathUrgent | yieldExpiry
  | fetchBlockArrival | growGrant | spill | restore | fuseTimeout | pollRecheck | ringRecordWrite | ringReply |
  ringWriteRetry | localUe | registerUe | checkpoint | sliceEnd | sliceStart | lendUnit | reclaim | rootConfiguration
  | bankPowerOff | bankPowerOn | unitDrain | homeFailureRecovery | homelostClear | dualHomeOpen | switch |
  bucketRefill | sample | ctxstopComplete | ctxkillComplete | ctxrevokeComplete | hostLinkReset | bar0Write |
  attestationRequest | flitCrcRetry | deviceUnreachable | memoryDeviceLoss | poisonResponse | modulePowerOn |
  throttleStep | thermalPowerOff | orderlyPowerOff | notAnInstruction | resultWritten | traceRecordWrite |
  lanePairCycle | purgeComplete | bisnpResponse | hostLinkTrained | modulePowerLoss => cases h

end Sys2Proof.Machine

/-!
PROOF. What stops an instruction at issue, and an instruction without active threads (O54).
-/

namespace Sys2Proof.Machine

open Claim

/-! ### What comes later keeps registers, memory and configuration -/

theorem vAt_eq (s : State) (v r x : Nat) : vAt s v r x = ((s.wave? v).map fun w => w.v r x).getD {} := by
  unfold vAt
  cases s.wave? v <;> rfl

theorem sAt_eq (s : State) (v r : Nat) : sAt s v r = ((s.wave? v).map fun w => w.s r).getD {} := by
  unfold sAt
  cases s.wave? v <;> rfl

theorem pAt_eq (s : State) (v r x : Nat) : pAt s v r x = ((s.wave? v).map fun w => w.p r x).getD {} := by
  unfold pAt
  cases s.wave? v <;> rfl

namespace Later

variable {s t : State}

/-- What later waves have in common reads as before. -/
theorem reads {α : Type} {g : Wave → α} (h : Later s t) (hg : ∀ a b, WaveLater a b → g b = g a) (v : Nat) :
    (t.wave? v).map g = (s.wave? v).map g := by
  have k := h.waves v
  revert k
  cases s.wave? v <;> cases t.wave? v <;> intro k
  · rfl
  · exact k.elim
  · exact k.elim
  · exact congrArg some (hg _ _ k)

theorem regsKept (h : Later s t) : RegsKept s t (fun _ _ _ => False) (fun _ _ => False) (fun _ _ _ => False) where
  vector v r x _ _ := by rw [vAt_eq, vAt_eq, h.reads fun a b k => by simp only [Wave.v, k.vregs]]
  scalar v r _ := by rw [sAt_eq, sAt_eq, h.reads fun a b k => by simp only [Wave.s, k.sregs]]
  pred v r x _ _ := by rw [pAt_eq, pAt_eq, h.reads fun a b k => by simp only [Wave.p, k.preds]]

theorem memKept (h : Later s t) : MemKept s t where
  mem _ := by rw [h.mem]
  fmem _ := by rw [h.fmem]
  homes := h.homes
  lines := h.lines
  matrix := h.mx

theorem sysKept (h : Later s t) : SysKept s t where
  wave v := h.reads (fun a b k => by simp only [k.fstat, k.held, k.lease, k.width, k.team, k.cprog, k.job, k.index]) v
  ctx := h.conf
  cores := h.cores
  dies := h.dies
  frames := h.frames
  hist := h.hist

end Later

/-! ### Stops (R115, R221) -/

/-- The issuing path as a stop finds it, with some threads as its active ones. -/
def issAt (s : State) (c : Cur) (w : Wave) (act : Word64) : Iss := ⟨c, w, w.path c.path, act, w.seq, s.sch.free⟩

/-- e comes to fault f of its path from state z, once commit has reached it: until then the stop waits, and what siblings have issued
since rolls back first. -/
structure StopsAt (s z : State) (c : Cur) (w : Wave) (x : Ctx) (e : Instr) (kind : ParkKind) (f : FaultInfo) : Prop where
  waits : w.owesUntil ((w.path c.path).stopAt.getD w.seq) = true → exec e s = .next (stallStop s c w.seq)
  faults : w.owesUntil ((w.path c.path).stopAt.getD w.seq) = false → w.unperformed = false → ∃ t, exec e s = .next t ∧
    Faulted z t c.wave c.path w x c.pc c.base (nextPc c) kind f
  rolls : ∀ v y, w.owesUntil ((w.path c.path).stopAt.getD w.seq) = false → w.unperformed = true →
    (rollback z c.wave false).wave? c.wave = some v → (rollback z c.wave false).ctx? v.ctx = some y →
    (v.path c.path).e.kind = .path → c.path < v.paths.length → v.paths.length ≤ 16 → ∃ t, exec e s = .next t ∧
      Faulted (rollback z c.wave false) t c.wave c.path v y c.pc c.base (nextPc c) kind f

section
variable {s z : State} {c : Cur} {w : Wave} {x y : Ctx} {act : Word64} {e : Instr} {kind : ParkKind} {f : FaultInfo}

/-- The fault of the issuing path, taken. -/
theorem faultNow_faulted (hw : z.wave? c.wave = some w) (hx : z.ctx? w.ctx = some x) (hk : (w.path c.path).e.kind = .path)
    (hi : c.path < w.paths.length) (hl : w.paths.length ≤ 16) {q : Iss} (hq : q.cur = c)
    (hf : (if f.code == Code.DEBUG_STOP then ParkKind.debug else .fault) = kind) :
    Faulted z (faultNow q f z) c.wave c.path w x c.pc c.base (nextPc c) kind f := by
  subst hq hf
  exact takeFault_faulted hw hx hk hi hl

/-- An instruction that raises a fault of its path from z stops; the context x differs from that of z, y, at most in what a fault
does not look at. -/
theorem stopsAt_of_raise (h : Issuing s c w x) (he : exec e s = raiseAt (issAt s c w act) s z f) (hf : f.later = false)
    (hk : (if f.code == Code.DEBUG_STOP then ParkKind.debug else .fault) = kind) (hw : z.wave? c.wave = some w)
    (hz : ∀ t, Faulted z t c.wave c.path w y c.pc c.base (nextPc c) kind f →
      Faulted z t c.wave c.path w x c.pc c.base (nextPc c) kind f) (hy : z.ctx? w.ctx = some y) :
    StopsAt s z c w x e kind f := by
  have now (ho : w.owesUntil ((w.path c.path).stopAt.getD w.seq) = false) :
      exec e s = .next (faultNow (issAt s c w act) f (if w.unperformed then rollback z c.wave false else z)) := by
    rw [he, raiseAt, if_neg (by rw [hf]; decide)]
    exact if_neg (Bool.eq_false_iff.1 ho)
  refine ⟨fun ho => ?waits, fun ho hu => ⟨_, now ho, ?faults⟩, fun v b ho hu hv hb kind size table => ⟨_, now ho, ?rolls⟩⟩
  case waits =>
    rw [he, raiseAt, if_neg (by rw [hf]; decide)]
    exact if_pos ho
  case faults =>
    rw [hu]
    exact hz _ (faultNow_faulted hw hy h.path h.size h.table rfl hk)
  case rolls =>
    rw [hu]
    exact faultNow_faulted hv hb kind size table rfl hk

end

/-! ### The checks before an instruction, in order (R165, R221, R230, R242) -/

section
variable {s : State} {c : Cur} {w : Wave} {x : Ctx} {i e : Instr} {act : Word64} {a : Iss → State → Act} {n : Nat}

theorem issue_breaks (h : Issuing s c w x) (hit : execHit s c w = some n) :
    issue i s a = breakAt (issAt s c w (actMask i s c w)) s n := by
  unfold issue
  simp only [h.cur, h.wave, hit]
  rfl

theorem issue_overBudget (h : Issuing s c w x) (hit : execHit s c w = none) (hb : w.budget < leastBudget i c w) :
    issue i s a = raiseAt (issAt s c w (actMask i s c w)) s s { code := Code.BUDGET, sub := 2, mask := (w.path c.path).e.mask } := by
  unfold issue
  simp only [h.cur, h.wave, hit]
  rw [if_pos hb]
  rfl

theorem issue_poisoned (h : Issuing s c w x) (hit : execHit s c w = none) (hb : leastBudget i c w ≤ w.budget)
    (hp : guardPoison w s.sch.free (ctlOf i) (w.path c.path).e.mask ≠ 0) :
    issue i s a = raiseAt (issAt s c w (actMask i s c w)) s s
      { code := Code.POISON_USE, mask := guardPoison w s.sch.free (ctlOf i) (w.path c.path).e.mask } := by
  unfold issue
  simp only [h.cur, h.wave, hit]
  rw [if_neg (Nat.not_lt.2 hb), if_pos (by simpa using hp)]
  rfl

/-- With no active thread an instruction ends its issue, its own part left out. -/
theorem issue_idles (h : Issuing s c w x) (hi : Idles i s c w) : issue i s a =
    .next (fireStep (issOf i s c w) (finish (issOf i s c w) i false false (begun s c w))) := by
  have idle : guardMask w s.sch.free (ctlOf i) (w.path c.path).e.mask = 0 := hi.idle
  have room : roomFor s (w.openWindow w.seq c false) (undoRoom i w c.path (popcount 0)) = true := hi.room
  unfold issue
  simp only [h.cur, h.wave, hi.bkpt, idle, hi.armed]
  rw [if_neg (Nat.not_lt.2 hi.budget), if_neg (by simp [hi.guard]), if_neg (by cases hu : w.unperformed <;> simp [hi.window, hu]),
    if_neg (by simp), if_neg (by simpa using hi.pin), if_neg (by rw [room]; decide), if_pos (by simp), issOf, hi.idle]
  rfl

/-- A breakpoint that the path is about to match stops it, in place of a step that is armed (R221, R222). -/
theorem stopsAt_of_break (h : Issuing s c w x) (he : exec e s = breakAt (issAt s c w act) s n) :
    StopsAt s (if armedAt s c w then disarm s w.ctx else s) c w x e .debug
      { code := Code.DEBUG_STOP, sub := 1, mask := (w.path c.path).e.mask, extra := BitVec.ofNat 64 n } := by
  have stop := show exec e s = raiseAt (issAt s c w act) s (if armedAt s c w then disarm s w.ctx else s)
    { code := Code.DEBUG_STOP, sub := 1, mask := (w.path c.path).e.mask, extra := BitVec.ofNat 64 n } from he
  cases ha : armedAt s c w <;> rw [ha] at stop
  · exact stopsAt_of_raise h stop rfl rfl h.wave (fun _ k => k) h.ctx
  · have disarmed : disarm s w.ctx = s.setCtx w.ctx { x with step := x.step &&& 0x7FFFFFFF } := State.updCtx_some _ h.ctx
    refine stopsAt_of_raise h stop rfl rfl ?_ (y := { x with step := x.step &&& 0x7FFFFFFF }) (fun _ k => k) ?_
    · rw [if_pos rfl, disarmed]
      exact h.wave
    · rw [if_pos rfl, disarmed, State.ctx?_setCtx]

/-- A fault that is no breakpoint's stops it as it is. -/
theorem stopsAt_of_fault {f : FaultInfo} (h : Issuing s c w x) (he : exec e s = raiseAt (issAt s c w act) s s f)
    (hl : f.later = false) (hk : f.code ≠ Code.DEBUG_STOP) : StopsAt s s c w x e .fault f :=
  stopsAt_of_raise h he hl (by simp [hk]) h.wave (fun _ k => k) h.ctx

theorem badWord_breaks (b : Bad) (h : Issuing s c w x) (hit : execHit s c w = some n) :
    exec (.notAnInstruction b) s = breakAt (issAt s c w (w.path c.path).e.mask) s n := by
  show execNotAnInstruction b s = _
  unfold execNotAnInstruction
  simp only [h.cur, h.wave, hit]
  rfl

/-- A word that is no instruction faults, unless a breakpoint stops it first (R242). -/
theorem badWord_faults (b : Bad) (h : Issuing s c w x) (hit : execHit s c w = none) : exec (.notAnInstruction b) s =
    raiseAt (issAt s c w (w.path c.path).e.mask) s s
      { code := if b.len0 then Code.LEN else if b.cross then Code.FETCH_CROSS else Code.ILLEGAL, sub := b.subcode,
        mask := (w.path c.path).e.mask, extra := BitVec.ofNat 64 b.extra, addr := if b.cross then c.pc else 0 } := by
  show execNotAnInstruction b s = _
  unfold execNotAnInstruction
  simp only [h.cur, h.wave, hit]
  rfl

end

/-! ### An instruction without active threads (R145) -/

theorem Wave.noteFlag_paths (w : Wave) (id f : Nat) : (w.noteFlag id f).paths = w.paths := by
  unfold Wave.noteFlag
  split
  · split <;> rfl
  · rfl

theorem Wave.noteIns_paths (w : Wave) (id : Nat) (c : Cur) (r : Nat) (o : List Defer) : (w.noteIns id c r o).paths = w.paths := by
  unfold Wave.noteIns
  split
  · split <;> rfl
  · rfl

theorem endOwe_paths (x : Iss) (i : Instr) (later : Bool) (w : Wave) : (endOwe x i later w).paths = w.paths := by
  unfold endOwe
  dsimp only
  rw [Wave.noteIns_paths]
  split
  · exact Wave.noteFlag_paths _ _ _
  · rfl

theorem Wave.putPath_paths (w : Wave) (id i : Nat) (p : Path) : (w.putPath id i p).paths = (w.setPath i p).paths := by
  unfold Wave.putPath
  dsimp only
  split
  · split <;> rfl
  · rfl

/-- The entry of a path that no repetition holds goes on to the next instruction. -/
theorem endPath_entry {x : Iss} {w : Wave} (i : Instr) (last : Nat) (hr : x.cur.rep = false)
    (hk : (w.path x.cur.path).e.kind = .path) (hi : x.cur.path < w.paths.length) :
    ((endPath x i false last w).path x.cur.path).e = { (w.path x.cur.path).e with pc := nextPc x.cur } := by
  have goes (k : Ctl) (n : Nat) : (advance x.cur k n (w.path x.cur.path)).e =
      { (w.path x.cur.path).e with pc := nextPc x.cur } := by
    unfold advance
    rw [hr]
    rfl
  have live : ¬((advance x.cur (ctlOf i) (oweClass i) (w.path x.cur.path)).e.kind == PKind.free) = true := by
    rw [goes]
    simp [hk]
  unfold endPath
  simp only [Bool.false_eq_true, if_false]
  rw [if_neg live, Wave.path, Wave.putPath_paths, ← Wave.path, Wave.path_setPath _ hi]
  exact goes _ _

/-- The paths of the issuing wave at the end of issue. -/
theorem finish_path {s : State} {w : Wave} {x : Iss} (i : Instr) (moved later : Bool) (j : Nat) (hw : s.wave? x.cur.wave = some w) :
    pathAt (finish x i moved later s) x.cur.wave j = (endPath x i moved (s.clk.cycle + lastPair x i s) w).path j := by
  have owed (v : Wave) (hv : v.paths = (endOwe x i later (endPath x i moved (s.clk.cycle + lastPair x i s) w)).paths) :
      v.path j = (endPath x i moved (s.clk.cycle + lastPair x i s) w).path j := by
    rw [Wave.path, hv, endOwe_paths, ← Wave.path]
  unfold finish
  rw [hw]
  dsimp only
  split <;> refine (?_ : pathAt (State.setWave _ x.cur.wave _) x.cur.wave j = _) <;> rw [pathAt, State.wave?_setWave] <;>
    exact owed _ rfl

theorem finish_ctxs (x : Iss) (i : Instr) (moved later : Bool) (s : State) : (finish x i moved later s).ctxs = s.ctxs := by
  unfold finish
  dsimp only
  rw [State.setLp_ctxs]
  split
  · rfl
  · split <;> rfl

/-- A path that no step is armed for goes on (R222). -/
theorem fireStep_unarmed {s t : State} {c : Cur} {w : Wave} {x : Iss} (ht : t.ctxs = s.ctxs) (hc : x.cur = c) (hw : x.w.ctx = w.ctx)
    (ha : armedAt s c w = false) : fireStep x t = t := by
  subst hc
  have unarmed : fireStepAt t x.w.ctx x.cur.wave x.cur.path x.p.e.mask x.cur.pc = t := by
    unfold armedAt at ha
    unfold fireStepAt
    rw [State.ctx?, ht, hw, ← State.ctx?]
    split
    · next y hy =>
      rw [hy] at ha
      exact if_neg (Bool.eq_false_iff.1 ha)
    · rfl
  unfold fireStep
  split
  · rfl
  · exact unarmed

section
variable {s : State} {c : Cur} {w : Wave} {x : Ctx} {i : Instr} {a : Iss → State → Act}

/-- An instruction without active threads keeps registers, memory and configuration, and its path goes on. -/
theorem issue_idles_keeps (h : Issuing s c w x) (hi : Idles i s c w) : ∃ t, issue i s a = .next t ∧ Later s t ∧
    (c.rep = false → (pathAt t c.wave c.path).e = { (w.path c.path).e with pc := nextPc c }) := by
  have begins : Later s (begun s c w) := Later.setWave h.wave (WaveLater.openWindow _ _ _ _)
  refine ⟨_, issue_idles h hi, begins.trans (complete_later _ _ _), fun hr => ?_⟩
  have paths : (opened s c w).paths = w.paths := opened_reads (fun v => v.paths) fun _ _ => rfl
  have path : (opened s c w).path c.path = w.path c.path := by rw [Wave.path, paths, ← Wave.path]
  have goes := endPath_entry (x := issOf i s c w) (w := opened s c w) i
    ((begun s c w).clk.cycle + lastPair (issOf i s c w) i (begun s c w)) hr (path ▸ h.path) (paths ▸ h.size)
  have unarmed := fireStep_unarmed (x := issOf i s c w) (finish_ctxs (issOf i s c w) i false false (begun s c w)) rfl
    (opened_ctx s c w) hi.armed
  rw [unarmed]
  have ended := finish_path (x := issOf i s c w) i false false c.path (State.wave?_setWave s c.wave (opened s c w))
  refine (congrArg Path.e ended).trans (goes.trans ?_)
  exact path ▸ rfl

end

/-- Settles O54: the checks of ISSUE in their order, each a stop of the path from takeFault's one rule; the end of issue for an
instruction that idles. -/
theorem faultsAtIssue : Obligations.FaultsAtIssue := by
  unfold Obligations.FaultsAtIssue
  intro i b s c w x h p Stops stop
  have breaks {e : Instr} {act : Word64} {n : Nat} (he : exec e s = breakAt (issAt s c w act) s n) : Stops e .debug (stop n) := by
    obtain ⟨waits, faults, rolls⟩ := stopsAt_of_break h he
    simp only [Stops, true_and]
    exact ⟨waits, faults, rolls⟩
  have raises {e : Instr} {act : Word64} {f : FaultInfo} (he : exec e s = raiseAt (issAt s c w act) s s f)
      (hl : f.later = false) (hk : f.code ≠ Code.DEBUG_STOP) : Stops e .fault f := by
    obtain ⟨waits, faults, rolls⟩ := stopsAt_of_fault h he hl hk
    simp only [Stops, reduceCtorEq, false_and, if_false]
    exact ⟨waits, faults, rolls⟩
  refine ⟨fun hwf hr => ?issued, fun n hit => breaks (badWord_breaks b h hit),
    fun hit => raises (badWord_faults b h hit) rfl ?code⟩
  case code =>
    dsimp only
    split
    · decide
    · split <;> decide
  case issued =>
    obtain ⟨act, he⟩ := exec_isIssue hwf hr s
    refine ⟨fun n hit => breaks (he.trans (issue_breaks h hit)),
      fun hit hb => raises (he.trans (issue_overBudget h hit hb)) rfl (show Code.BUDGET ≠ Code.DEBUG_STOP by decide),
      fun hit hb hp => raises (he.trans (issue_poisoned h hit hb hp)) rfl (show Code.POISON_USE ≠ Code.DEBUG_STOP by decide),
      fun idle => ?_⟩
    obtain ⟨t, ht, later, goes⟩ := issue_idles_keeps (a := act) h idle
    exact ⟨t, he.trans ht, later.regsKept, later.memKept, later.sysKept, goes⟩

end Sys2Proof.Machine

/-!
PROOF. What a result that arrives changes (O57).
-/

namespace Sys2Proof.Machine

open Claim

/-- A landing leaves every register but the one that it names. -/
theorem landAs_other (w : Wave) (id : Nat) (stays : Bool) {x y : RegW} (h : y.place ≠ x.place) :
    y.held (w.landAs id stays x) ↔ y.held w := by
  cases stays
  · unfold Wave.landAs
    split <;> exact held_congr ⟨rfl, rfl, rfl⟩ y
  · obtain ⟨n, hn, -⟩ := landAs_files w id x
    rw [hn]
    exact (held_congr ⟨rfl, rfl, rfl⟩ y).trans (poke_other w h)

theorem land_other (w : Wave) (free id : Nat) {x y : RegW} (h : y.place ≠ x.place) : y.held (w.land free id x) ↔ y.held w := by
  unfold Wave.land
  split
  · exact (landAs_other _ id _ h).trans (held_congr ⟨rfl, rfl, rfl⟩ y)
  · exact landAs_other w id true h

/-- A register that no result names keeps its value when the results land. -/
theorem lands_other (free id : Nat) (ws : List RegW) (w : Wave) (y : RegW) (h : ∀ x ∈ ws, y.place ≠ x.place) :
    y.held (w.lands free id ws) ↔ y.held w := by
  induction ws generalizing w with
  | nil => exact Iff.rfl
  | cons x ws ih =>
    exact (ih _ fun z hz => h z (List.mem_cons_of_mem _ hz)).trans (land_other w free id (h x List.mem_cons_self))

theorem raiseStat_held (w : Wave) (id : Nat) (f : Word32) (y : RegW) : y.held (w.raiseStat id f) ↔ y.held w := by
  unfold Wave.raiseStat
  split
  · exact Iff.rfl
  · split
    · split <;> exact held_congr ⟨rfl, rfl, rfl⟩ y
    · exact held_congr ⟨rfl, rfl, rfl⟩ y

section
variable {s : State} {wid id : Nat} {w : Wave}

/-- RESULT_WRITTEN sets its wave to one whose registers differ only where the results on their way name them. -/
theorem resultLands_sets (hw : s.wave? wid = some w) : resultLands s wid id = s ∨
    ∃ v, resultLands s wid id = (s.setWave wid v).tickFree ∧
      ∀ y : RegW, (∀ q ∈ w.pend, q.id = id → ∀ x ∈ q.writes, y.place ≠ x.place) → (y.held v ↔ y.held w) := by
  unfold resultLands
  simp only [hw]
  split
  · exact .inl rfl
  · next q hq =>
    refine .inr ⟨_, rfl, fun y hy => ?_⟩
    refine (clearFlag_held _ id y).trans ((raiseStat_held _ id _ y).trans ?_)
    exact (lands_other s.sch.free id q.writes _ y
      (hy q (List.mem_of_find?_eq_some hq) (by simpa using List.find?_some hq))).trans (held_congr ⟨rfl, rfl, rfl⟩ y)

variable {t : State} {v : Wave}

/-- A register reads as before in a state where its wave holds it as before. -/
theorem vAt_of_held (hw : s.wave? wid = some w) (ht : t.wave? wid = some v) {r x : Nat}
    (h : ∀ z, (RegW.v r x z).held v ↔ (RegW.v r x z).held w) : vAt t wid r x = vAt s wid r x := by
  simpa [vAt, hw, ht, RegW.held] using h (w.v r x)

theorem sAt_of_held (hw : s.wave? wid = some w) (ht : t.wave? wid = some v) {r : Nat}
    (h : ∀ z, (RegW.s r z).held v ↔ (RegW.s r z).held w) : sAt t wid r = sAt s wid r := by
  simpa [sAt, hw, ht, RegW.held] using h (w.s r)

theorem pAt_of_held (hw : s.wave? wid = some w) (ht : t.wave? wid = some v) {r x : Nat}
    (h : ∀ z, (RegW.p r x z).held v ↔ (RegW.p r x z).held w) : pAt t wid r x = pAt s wid r x := by
  simpa [pAt, hw, ht, RegW.held] using h (w.p r x)

end

/-- Setting one wave keeps the registers that it holds as before. -/
theorem setWave_regsKept {s t : State} {wid : Nat} {w v : Wave} {dv : Nat → Nat → Prop} {ds : Nat → Prop} {dp : Nat → Nat → Prop}
    (hw : s.wave? wid = some w) (ht : ∀ k, t.wave? k = if k = wid then some v else s.wave? k)
    (hv : ∀ r x, x < 64 → ¬dv r x → ∀ z, (RegW.v r x z).held v ↔ (RegW.v r x z).held w)
    (hs : ∀ r, ¬ds r → ∀ z, (RegW.s r z).held v ↔ (RegW.s r z).held w)
    (hp : ∀ r x, x < 64 → ¬dp r x → ∀ z, (RegW.p r x z).held v ↔ (RegW.p r x z).held w) :
    RegsKept s t (fun k r x => k = wid ∧ dv r x) (fun k r => k = wid ∧ ds r) (fun k r x => k = wid ∧ dp r x) := by
  have own : t.wave? wid = some v := (ht wid).trans (if_pos rfl)
  have others {k : Nat} (hk : k ≠ wid) : t.wave? k = s.wave? k := (ht k).trans (if_neg hk)
  constructor
  · intro k r x hx hn
    by_cases hk : k = wid
    · subst hk
      exact vAt_of_held hw own (hv r x hx fun h => hn ⟨rfl, h⟩)
    · simp only [vAt, others hk]
  · intro k r hn
    by_cases hk : k = wid
    · subst hk
      exact sAt_of_held hw own (hs r fun h => hn ⟨rfl, h⟩)
    · simp only [sAt, others hk]
  · intro k r x hx hn
    by_cases hk : k = wid
    · subst hk
      exact pAt_of_held hw own (hp r x hx fun h => hn ⟨rfl, h⟩)
    · simp only [pAt, others hk]

theorem RegsKept.refl (s : State) (dv : Nat → Nat → Nat → Prop) (ds : Nat → Nat → Prop) (dp : Nat → Nat → Nat → Prop) :
    RegsKept s s dv ds dp := ⟨fun _ _ _ _ _ => rfl, fun _ _ _ => rfl, fun _ _ _ _ _ => rfl⟩

/-- Settles O57: the wave is set to one that differs in the registers named and in status, flags and what is on its way. -/
theorem resultFrame : Obligations.ResultFrame := by
  unfold Obligations.ResultFrame
  intro s t wid id w hw hx ht
  obtain rfl : resultLands s wid id = t := Host.Outcome.next.inj ht
  obtain he | ⟨v, he, held⟩ := resultLands_sets (id := id) hw
  · rw [he]
    exact ⟨RegsKept.refl s _ _ _, ⟨fun _ => rfl, fun _ => rfl, rfl, fun _ => rfl, rfl⟩, fun _ _ => rfl, fun _ => rfl, rfl, rfl, rfl, rfl⟩
  rw [he]
  have waves (k : Nat) : (s.setWave wid v).tickFree.wave? k = if k = wid then some v else s.wave? k := by
    split
    · next h => subst h; exact State.wave?_setWave s k v
    · next h => exact State.wave?_setWave_ne s v h
  refine ⟨setWave_regsKept hw waves ?vector ?scalar ?pred, ⟨fun _ => rfl, fun _ => rfl, rfl, fun _ => rfl, rfl⟩,
    fun k hk => ?_, fun _ => rfl, rfl, rfl, rfl, rfl⟩
  case vector =>
    refine fun r x hlt hn z => held _ fun q hq hid y hy e => ?_
    cases y with
    | v r' x' z' =>
      obtain ⟨rfl, rfl⟩ := (vKey_inj hlt (hx q hq r' x' (.inl ⟨z', hy⟩))).1 (congrArg Prod.snd e)
      exact hn ⟨q, hq, hid, z', hy⟩
    | s | p => cases congrArg Prod.fst e
  case scalar =>
    refine fun r hn z => held _ fun q hq hid y hy e => ?_
    cases y with
    | s r' z' =>
      obtain rfl : r = r' := congrArg Prod.snd e
      exact hn ⟨q, hq, hid, z', hy⟩
    | v | p => cases congrArg Prod.fst e
  case pred =>
    refine fun r x hlt hn z => held _ fun q hq hid y hy e => ?_
    cases y with
    | p r' x' z' =>
      obtain ⟨rfl, rfl⟩ := (vKey_inj hlt (hx q hq r' x' (.inr ⟨z', hy⟩))).1 (congrArg Prod.snd e)
      exact hn ⟨q, hq, hid, z', hy⟩
    | v | s => cases congrArg Prod.fst e
  · simp only [specials, waves, if_neg hk]

end Sys2Proof.Machine

/-!
PROOF. What SWR writes reads back (O27).
-/

namespace Sys2Proof.Machine

open Claim

/-! ### What the end of issue leaves of %idle's count (R217) -/

/-- Every lane pair has counted the same busy cycles. -/
def BusyKept (s t : State) : Prop := ∀ l, (t.lp l).busy = (s.lp l).busy

namespace BusyKept

theorem of_lps {s t : State} (h : t.lps = s.lps) : BusyKept s t := fun l => by simp only [State.lp, h]

theorem trans {s t u : State} (h : BusyKept s t) (k : BusyKept t u) : BusyKept s u := fun l => (k l).trans (h l)

theorem setLp {s : State} {l : Nat} {x : LanePair} (h : x.busy = (s.lp l).busy) : BusyKept s (s.setLp l x) := fun k => by
  by_cases e : k = l
  · subst e
    rw [State.lp_setLp, h]
  · simp only [State.lp, State.setLp_lps, Sp.get_put_ne _ _ _ e]

theorem ringPut (s : State) (ring : Option Nat) (r : FaultRec) : BusyKept s (ringPut s ring r) := by
  refine of_lps ?_
  unfold Machine.ringPut
  split
  · rfl
  · split
    · rfl
    · split <;> rfl

theorem unmarkLines (s : State) : BusyKept s (unmarkLines s) :=
  of_lps (List.foldlRecOn (motive := fun t : State => t.lps = s.lps) _ _ rfl fun _ h _ _ => h)

theorem setCtx (s : State) (c : Nat) (x : Ctx) : BusyKept s (s.setCtx c x) := of_lps (State.setCtx_lps s c x)

theorem unpin (s : State) (w : Nat) : BusyKept s (unpin s w) := by
  unfold Machine.unpin
  split
  · exact of_lps rfl
  · refine (unmarkLines s).trans (of_lps ?_)
    dsimp only
    split
    · rfl
    · unfold State.ensureSoon
      split <;> rfl

theorem takeFault (s : State) (w i : Nat) (pc base next : Word64) (k : ParkKind) (f : FaultInfo) :
    BusyKept s (takeFault s w i pc base next k f) := by
  unfold Machine.takeFault
  split
  · exact of_lps rfl
  · split
    · exact of_lps rfl
    · dsimp only
      refine trans ?_ (ringPut _ _ _)
      refine trans ?_ (setLp rfl)
      have pin (t : State) (y : Wave) :
          BusyKept t (if (y.settle.state == WState.running) = true then t else withdrawPin (Machine.unpin t w) w) := by
        split
        · exact of_lps rfl
        · exact (unpin t w).trans (of_lps (State.updWave_lps _ _ _))
      exact trans (trans (of_lps (State.setWave_lps s w _)) (setCtx _ _ _)) (pin _ _)

theorem stepStop (w : Nat) (m pc : Word64) (is : List Nat) (s : State) : BusyKept s (stepStop s w m pc is) := by
  induction is generalizing s with
  | nil => exact of_lps rfl
  | cons i is ih =>
    unfold Machine.stepStop
    dsimp only
    refine trans ?_ (ih _)
    split
    · split
      · exact takeFault _ _ _ _ _ _ _ _
      · exact of_lps rfl
    · exact of_lps rfl

theorem fireStep (x : Iss) (s : State) : BusyKept s (fireStep x s) := by
  unfold Machine.fireStep
  split
  · exact of_lps rfl
  · unfold fireStepAt
    split
    · split
      · exact (setCtx _ _ _).trans (stepStop _ _ _ _ _)
      · exact of_lps rfl
    · exact of_lps rfl

theorem endLane (x : Iss) (i : Instr) (wrote : Bool) (l : LanePair) : (endLane x i wrote l).busy = l.busy := by
  unfold Machine.endLane latchStep
  dsimp only
  split <;> split <;> rfl

theorem finish (x : Iss) (i : Instr) (moved later : Bool) (s : State) : BusyKept s (finish x i moved later s) := by
  unfold Machine.finish
  dsimp only
  refine trans ?_ (trans (setLp (endLane _ _ _ _)) (of_lps rfl))
  refine of_lps ?_
  split
  · rfl
  · split <;> rfl

/-- An instruction that is complete at issue ends so. -/
theorem complete (x : Iss) (i : Instr) (s : State) : BusyKept s (Machine.fireStep x (Machine.finish x i false false s)) :=
  (finish _ _ _ _ s).trans (fireStep _ _)

end BusyKept

/-! ### The registers that SWR writes (R272, R273) -/

section
variable {s : State} {c : Cur} {w : Wave} {k : Nat}

theorem specialRead_mprog (h : k < 4) :
    specialRead s c w (0x20 + k) = (Sp.get 0 (s.core (coreOf c.wave)).mprog k).setWidth 64 := by
  interval_cases k <;> rfl

theorem specialRead_hist (h : k < 17) : specialRead s c w (0x40 + k) = Sp.get 0 (s.lp (lpOf c.wave)).hist k := by
  interval_cases k <;> rfl

theorem specialRead_stall (h : k < 11) : specialRead s c w (0x51 + k) = Sp.get 0 (s.lp (lpOf c.wave)).stall (k + 1) := by
  interval_cases k <;> rfl

/-- A special register that SWR writes. -/
def Writable (n : Nat) : Prop := n = 0x18 ∨ n = 0x24 ∨ (∃ k < 4, n = 0x20 + k) ∨ ∃ k < 30, n = 0x40 + k

/-- The counters of a lane pair: the 17 of %hist, the 11 of %stall, %idle, %slip. -/
theorem counter_cases {P : Nat → Prop} (h : k < 30) (hist : ∀ j < 17, P (0x40 + j)) (stall : ∀ j < 11, P (0x51 + j))
    (idle : P 0x5C) (slip : P 0x5D) : P (0x40 + k) := by
  obtain h | h | rfl | rfl : k < 17 ∨ (17 ≤ k ∧ k < 28) ∨ k = 28 ∨ k = 29 := by omega
  · exact hist k h
  · have := stall (k - 17) (by omega)
    rwa [show 0x51 + (k - 17) = 0x40 + k by omega] at this
  · exact idle
  · exact slip

/-- What is later reads as before in every register that SWR writes. -/
theorem specialRead_later {t : State} {v : Wave} {n : Nat} (hn : Writable n) (h : Later s t) (hv : WaveLater w v)
    (hb : BusyKept s t) : specialRead t c v n = specialRead s c w n := by
  obtain ⟨hist, stall, idle, slip⟩ := h.hist (lpOf c.wave)
  obtain rfl | rfl | ⟨k, hk, rfl⟩ | ⟨k, hk, rfl⟩ := hn
  · exact congrArg (·.setWidth 64) hv.fstat
  · exact congrArg (·.setWidth 64) hv.cprog
  · rw [specialRead_mprog hk, specialRead_mprog hk, State.core, State.core, h.cores]
  · refine counter_cases (P := fun n => specialRead t c v n = specialRead s c w n) hk (fun j hj => ?_) (fun j hj => ?_) ?_ slip
    · rw [specialRead_hist hj, specialRead_hist hj, hist]
    · rw [specialRead_stall hj, specialRead_stall hj, stall]
    · show LanePair.idleAt _ _ = LanePair.idleAt _ _
      rw [LanePair.idleAt, LanePair.idleAt, hb, h.clk, idle]

end

/-- %idle set at a cycle reads as set at that cycle. -/
theorem idleAt_setIdle (l : LanePair) (n : Nat) (v : Word64) : (l.setIdle n v).idleAt n = v := by
  simp only [LanePair.idleAt, LanePair.setIdle]
  rw [add_comm]
  exact sub_add_cancel _ _

/-- A progress register keeps its own value when its operation is abandoned (R273). -/
theorem abandonArr_mprog (s : State) (core c acc : Nat) : ((abandonArr s core c acc).core core).mprog = (s.core core).mprog := by
  unfold abandonArr
  split
  · rw [arrEnd, State.core, State.updWave_cores, ← State.core, State.core_setCore, State.endTileOp, State.core_setCore]
  · rfl

theorem abandonArr_wave? {s : State} {core c acc wid : Nat} {w : Wave} (h : s.wave? wid = some w) :
    ∃ v, (abandonArr s core c acc).wave? wid = some v := by
  unfold abandonArr
  split
  · unfold arrEnd State.updWave
    dsimp only
    split
    · next o _ _ _ _ =>
      by_cases e : wid = o.wave
      · subst e
        exact ⟨_, State.wave?_setWave _ _ _⟩
      · exact ⟨w, (State.wave?_setWave_ne _ _ e).trans h⟩
    · exact ⟨w, h⟩
  · exact ⟨w, h⟩

/-- %cprog keeps its own value when its copy is abandoned (R273). -/
theorem abandonCopy_cprog {s : State} {wid : Nat} {w : Wave} (h : s.wave? wid = some w) :
    ∃ v, (abandonCopy s wid).wave? wid = some v ∧ v.cprog = w.cprog := by
  unfold abandonCopy
  split
  · exact ⟨w, h, rfl⟩
  · next d _ =>
    dsimp only
    obtain ⟨n, hn⟩ := clearFlag_files w d.seq
    refine ⟨w.clearFlag d.seq, ?_, by rw [hn]⟩
    exact State.wave?_updWave (s := (s.endTileOp d.core d.id).setCopy _) _ h

/-- %cprog set, its copy abandoned where that is 0, is as set. -/
theorem setCprog_reads {s : State} {wid : Nat} {w : Wave} (v : Word32) (h : s.wave? wid = some w) :
    let t := s.updWave wid fun w => { w with cprog := v }
    ∃ y, (if v == 0 then abandonCopy t wid else t).wave? wid = some y ∧ y.cprog = v := by
  have set := State.wave?_updWave (fun w => { w with cprog := v }) h
  dsimp only
  split
  · exact abandonCopy_cprog set
  · exact ⟨_, set, rfl⟩

/-- A progress register set, its operation abandoned where that is 0, is as set. -/
theorem setMprog_reads {s : State} {wid : Nat} {w : Wave} (core c acc : Nat) (v : Word32) (h : s.wave? wid = some w) :
    let t := s.setCore core { s.core core with mprog := Sp.put 0 (s.core core).mprog acc v }
    let u := if v == 0 then abandonArr t core c acc else t
    (∃ y, u.wave? wid = some y) ∧ Sp.get 0 (u.core core).mprog acc = v := by
  have set : Sp.get 0 ((s.setCore core { s.core core with mprog := Sp.put 0 (s.core core).mprog acc v }).core core).mprog acc = v := by
    rw [State.core_setCore, Sp.get_put]
  dsimp only
  split
  · exact ⟨abandonArr_wave? h, by rw [abandonArr_mprog, set]⟩
  · exact ⟨⟨w, h⟩, set⟩

section
variable {s : State} {c : Cur} {w : Wave} {k : Nat}

/-- What SWR has made of a register it still reads as once it is complete. -/
theorem done_reads {i : Instr} {x : Iss} {b : Act} {u : State} {v : Wave} {n : Nat} {r : Word64} (hb : b = .done u) (hn : Writable n)
    (hv : u.wave? c.wave = some v) (hr : specialRead u c v n = r) :
    ∃ t y, actOut i s c w x b = .next t ∧ t.wave? c.wave = some y ∧ specialRead t c y n = r := by
  subst hb
  obtain ⟨y, hy, later⟩ := (complete_later x i u).wave_some hv
  exact ⟨_, y, rfl, hy, (specialRead_later hn (complete_later x i u) later (BusyKept.complete x i u)).trans hr⟩

/-- The part of a word that a 32-bit register keeps, read as 64 bits. -/
theorem setWidth_and_setWidth (v m : Word32) : ((v.setWidth 64).setWidth 32 &&& m).setWidth 64 = m.setWidth 64 &&& v.setWidth 64 := by
  rw [BitVec.setWidth_setWidth_of_le _ (by decide), BitVec.setWidth_eq, BitVec.setWidth_and, BitVec.and_comm]

/-- The same of the scalar register that SWR names, whatever window has opened. -/
theorem srcS_kept (m : Word32) (a : BitVec 8) : (((srcS (opened s c w) s.sch.free a).val.setWidth 64).setWidth 32 &&& m).setWidth 64 =
    m.setWidth 64 &&& (srcS w s.sch.free a).val.setWidth 64 := by
  rw [setWidth_and_setWidth, srcS, opened_readS, ← srcS]

variable {ctl : Ctl} {sel a : BitVec 8}

/-- %fstat reads back in bits [5:0]. -/
theorem swr_fstat (hs : sel.toNat = 0x18) (h : Begins (.swr ctl false sel a) s c w) : ∃ t x, exec (.swr ctl false sel a) s = .next t ∧
    t.wave? c.wave = some x ∧ specialRead t c x sel.toNat = 0x3F &&& (srcS w s.sch.free a).val.setWidth 64 := by
  show ∃ t x, execSwr ctl false sel a s = .next t ∧ _
  unfold execSwr
  rw [issue_acts h, hs]
  exact done_reads rfl (.inl rfl) (State.wave?_updWave _ (State.wave?_setWave s c.wave _)) (srcS_kept 0x3F a)

/-- %cprog, of whose copy nothing runs, reads back in bits [31:30] and [23:0]. -/
theorem swr_cprog (hs : sel.toNat = 0x24) (hb : progBusy w.cprog = false) (h : Begins (.swr ctl false sel a) s c w) :
    ∃ t x, exec (.swr ctl false sel a) s = .next t ∧ t.wave? c.wave = some x ∧
      specialRead t c x sel.toNat = 0xC0FFFFFF &&& (srcS w s.sch.free a).val.setWidth 64 := by
  show ∃ t x, execSwr ctl false sel a s = .next t ∧ _
  unfold execSwr
  rw [issue_acts h, hs]
  have idle : ¬ progBusy (opened s c w).cprog = true := by
    rw [opened_reads (·.cprog) fun _ _ => rfl, hb]
    decide
  obtain ⟨y, hy, prog⟩ := setCprog_reads (((srcS (opened s c w) s.sch.free a).val.setWidth 64).setWidth 32 &&& 0xC0FFFFFF)
    (State.wave?_setWave s c.wave (opened s c w))
  refine done_reads ?own (.inr (.inl rfl)) hy ((congrArg (·.setWidth 64) prog).trans (srcS_kept 0xC0FFFFFF a))
  simp only [Nat.reduceBEq, Bool.false_eq_true, if_false, if_true, issOf, idle]
  rfl

/-- %mprogk, of whose operation nothing runs, reads back in bits [31:30] and [19:0]. -/
theorem swr_mprog (hk : k < 4) (hs : sel.toNat = 0x20 + k) (hb : progBusy (Sp.get 0 (s.core (coreOf c.wave)).mprog k) = false)
    (h : Begins (.swr ctl false sel a) s c w) : ∃ t x, exec (.swr ctl false sel a) s = .next t ∧ t.wave? c.wave = some x ∧
      specialRead t c x sel.toNat = 0xC00FFFFF &&& (srcS w s.sch.free a).val.setWidth 64 := by
  show ∃ t x, execSwr ctl false sel a s = .next t ∧ _
  unfold execSwr
  rw [issue_acts h, hs]
  obtain ⟨⟨y, hy⟩, prog⟩ := setMprog_reads (coreOf c.wave) (opened s c w).ctx k
    (((srcS (opened s c w) s.sch.free a).val.setWidth 64).setWidth 32 &&& 0xC00FFFFF) (State.wave?_setWave s c.wave (opened s c w))
  have own : ¬ progBusy (Sp.get 0#32 ((s.setWave c.wave (opened s c w)).core (coreOf c.wave)).mprog k) = true := Bool.eq_false_iff.1 hb
  refine done_reads ?own (.inr (.inr (.inl ⟨k, hk, rfl⟩))) hy
    ((specialRead_mprog hk).trans ((congrArg (·.setWidth 64) prog).trans (srcS_kept 0xC00FFFFF a)))
  simp [issOf, own, Nat.add_comm 0x20 k, show ¬ k = 4 by omega, show k + 0x20 < 0x24 by omega]

/-- A lane pair in whose counter SWR has put its register reads so once the instruction is complete. -/
theorem counter_reads {b : Act} {n : Nat} (l : LanePair) (hb : b = .done ((begun s c w).setLp (lpOf c.wave) l)) (hn : Writable n)
    (hr : specialRead ((begun s c w).setLp (lpOf c.wave) l) c (opened s c w) n = (srcX (opened s c w) s.sch.free a).1) :
    ∃ t y, actOut (.swr ctl true sel a) s c w (issOf (.swr ctl true sel a) s c w) b = .next t ∧ t.wave? c.wave = some y ∧
      specialRead t c y n = (srcX w s.sch.free a).1 :=
  done_reads hb hn (State.wave?_setWave s c.wave _) (hr.trans (congrArg Prod.fst (opened_readX s c w _ _)))

/-- A counter of the lane pair reads back in full. -/
theorem swr_counter (hk : k < 30) (hs : sel.toNat = 0x40 + k) (h : Begins (.swr ctl true sel a) s c w) :
    ∃ t x, exec (.swr ctl true sel a) s = .next t ∧ t.wave? c.wave = some x ∧
      specialRead t c x sel.toNat = (srcX w s.sch.free a).1 := by
  show ∃ t x, execSwr ctl true sel a s = .next t ∧ _
  unfold execSwr
  rw [issue_acts h]
  generalize sel.toNat = n at hs ⊢
  have writable : Writable n := .inr (.inr (.inr ⟨k, hk, hs⟩))
  subst hs
  let l := (begun s c w).lp (lpOf c.wave)
  let v := (srcX (opened s c w) s.sch.free a).1
  obtain hist | ⟨stall, hl⟩ | rfl | rfl : k < 17 ∨ (17 ≤ k ∧ k < 28) ∨ k = 28 ∨ k = 29 := by omega
  · refine counter_reads { l with hist := Sp.put 0 l.hist k v } ?_ writable ((specialRead_hist hist).trans ?_)
    · simp [issOf, l, v, begun, show k ≤ 16 by omega, Nat.add_comm 0x40 k]
    · rw [State.lp_setLp, Sp.get_put]
  · obtain ⟨j, rfl⟩ := Nat.exists_eq_add_of_le stall
    rw [← Nat.add_assoc] at writable ⊢
    have hj : j < 11 := by omega
    refine counter_reads { l with stall := Sp.put 0 l.stall (j + 1) v } ?_ writable ((specialRead_stall hj).trans ?_)
    · simp [issOf, l, v, begun, show j ≤ 10 by omega, Nat.add_comm 0x51 j]
    · rw [State.lp_setLp, Sp.get_put]
  · refine counter_reads (l.setIdle (begun s c w).clk.cycle v) rfl writable ?_
    show LanePair.idleAt _ _ = _
    rw [State.lp_setLp]
    exact idleAt_setIdle l _ v
  · refine counter_reads { l with slip := v } rfl writable ?_
    show LanePair.slip _ = _
    rw [State.lp_setLp]

end

/-- Settles O27: what each writable register comes to in SWR's own part, which the end of issue leaves as it reads. -/
theorem specialWrites : Obligations.SpecialWrites := by
  unfold Obligations.SpecialWrites
  intro ctl w64 sel a m s c w hm hcprog hmprog h
  rw [List.mem_append, List.mem_append] at hm
  obtain (hm | hm) | hm := hm
  · rw [List.mem_cons, List.mem_singleton, Prod.mk.injEq, Prod.mk.injEq, Prod.mk.injEq, Prod.mk.injEq] at hm
    obtain ⟨hs, rfl, rfl⟩ | ⟨hs, rfl, rfl⟩ := hm
    · exact swr_fstat hs h
    · exact swr_cprog hs (hcprog (BitVec.eq_of_toNat_eq hs)) h
  · obtain ⟨k, hk, e⟩ := List.mem_map.1 hm
    obtain ⟨hs, rfl, rfl⟩ : 0x20 + k = sel.toNat ∧ false = w64 ∧ 0xC00FFFFF = m := by simpa using e
    have lt := List.mem_range.1 hk
    have idle := hmprog (by omega) (by omega)
    rw [show sel.toNat - 0x20 = k by omega] at idle
    exact swr_mprog lt hs.symm idle h
  · obtain ⟨k, hk, e⟩ := List.mem_map.1 hm
    obtain ⟨hs, rfl, rfl⟩ : 0x40 + k = sel.toNat ∧ true = w64 ∧ 0xFFFFFFFFFFFFFFFF = m := by simpa using e
    obtain ⟨t, x, ht, hx, reads⟩ := swr_counter (List.mem_range.1 hk) hs.symm h
    exact ⟨t, x, ht, hx, reads.trans (BitVec.allOnes_and).symm⟩

end Sys2Proof.Machine

/-!
PROOF. Rounding (R127, R128): the value that a code stands for, what rounding to a grid comes to, and one rounding into a format,
over the real numbers.
-/

namespace Sys2Proof.Machine

open Claim

/-! ### Scaled values -/

/-- The real number m * 2 ^ e. -/
noncomputable def dyad (m : Nat) (e : Int) : ℝ := m * 2 ^ e

theorem two_zpow_pos (e : Int) : (0 : ℝ) < 2 ^ e := zpow_pos two_pos e

theorem two_zpow_add (a b : Int) : (2 : ℝ) ^ (a + b) = 2 ^ a * 2 ^ b := zpow_add₀ two_ne_zero a b

theorem two_zpow_le {a b : Int} (h : a ≤ b) : (2 : ℝ) ^ a ≤ 2 ^ b := zpow_le_zpow_right₀ one_le_two h

@[simp] theorem dyad_zero (e : Int) : dyad 0 e = 0 := by simp [dyad]

theorem dyad_nonneg (m : Nat) (e : Int) : 0 ≤ dyad m e := mul_nonneg m.cast_nonneg (two_zpow_pos e).le

theorem dyad_two_pow (n : Nat) (e : Int) : dyad (2 ^ n) e = 2 ^ (n + e : Int) := by
  rw [dyad, two_zpow_add, zpow_natCast]
  norm_cast

/-- A scaled value on a finer grid. -/
theorem dyad_shift (m : Nat) {e q : Int} (h : q ≤ e) : dyad (m * 2 ^ (e - q).toNat) q = dyad m e := by
  have he : ((e - q).toNat : Int) + q = e := by omega
  calc dyad (m * 2 ^ (e - q).toNat) q = m * dyad (2 ^ (e - q).toNat) q := by simp only [dyad]; push_cast; ring
    _ = dyad m e := by rw [dyad_two_pow, he, dyad]

theorem dyad_le_iff (a b : Nat) (e : Int) : dyad a e ≤ dyad b e ↔ a ≤ b := by
  rw [dyad, dyad, mul_le_mul_iff_left₀ (two_zpow_pos e), Nat.cast_le]

theorem dyad_lt_iff (a b : Nat) (e : Int) : dyad a e < dyad b e ↔ a < b := by
  rw [dyad, dyad, mul_lt_mul_iff_left₀ (two_zpow_pos e), Nat.cast_lt]

theorem dyad_mul (a b : Nat) (x y : Int) : dyad (a * b) (x + y) = dyad a x * dyad b y := by
  rw [dyad, dyad, dyad, two_zpow_add]
  push_cast
  ring

theorem atMost_iff (a : Nat) (x : Int) (b : Nat) (y : Int) : AtMost a x b y ↔ dyad a x ≤ dyad b y := by
  rw [AtMost, ← dyad_le_iff _ _ (min x y), dyad_shift _ (min_le_left x y), dyad_shift _ (min_le_right x y)]

theorem ltScaled_iff (a : Nat) (x : Int) (b : Nat) (y : Int) : ltScaled a x b y = true ↔ dyad a x < dyad b y := by
  unfold ltScaled
  split
  · next h => rw [decide_eq_true_iff, ← dyad_lt_iff _ _ x, dyad_shift _ h]
  · next h => rw [decide_eq_true_iff, ← dyad_lt_iff _ _ y, dyad_shift _ (by omega)]

/-- The number of bits of a positive number, between powers of two. -/
theorem bitLen_bounds {m : Nat} (h : m ≠ 0) : 2 ^ (bitLen m - 1) ≤ m ∧ m < 2 ^ bitLen m ∧ 1 ≤ bitLen m := by
  rw [bitLen, if_neg h, Nat.add_sub_cancel]
  exact ⟨Nat.log2_self_le h, Nat.lt_log2_self, Nat.le_add_left 1 _⟩

theorem dyad_bounds {m : Nat} (h : m ≠ 0) (e : Int) : (2 : ℝ) ^ (e + bitLen m - 1) ≤ dyad m e ∧ dyad m e < 2 ^ (e + bitLen m) := by
  obtain ⟨lo, hi, pos⟩ := bitLen_bounds h
  have a := (dyad_le_iff _ _ e).2 lo
  have b := (dyad_lt_iff _ _ e).2 hi
  rw [dyad_two_pow] at a b
  rw [show e + (bitLen m : Int) - 1 = (bitLen m - 1 : Nat) + e by omega, add_comm e]
  exact ⟨a, b⟩

/-! ### Rounding to an integer (R127) -/

/-- k is v rounded to an integer by a mode. -/
structure RoundsReal (r : Rnd) (neg : Bool) (v : ℝ) (k : Nat) : Prop where
  near : r = .rn → 2 * v ≤ 2 * k + 1 ∧ 2 * k - 1 ≤ 2 * v ∧ (2 * k + 1 ≤ 2 * v ∨ 2 * v ≤ 2 * k - 1 → k % 2 = 0)
  cut  : Cuts r neg → k ≤ v ∧ v < k + 1
  away : r ≠ .rn → ¬Cuts r neg → k - 1 < v ∧ v ≤ k

/-- An integer is its own rounding. -/
theorem RoundsReal.nat (r : Rnd) (neg : Bool) (k : Nat) : RoundsReal r neg k k where
  near _ := ⟨by linarith, by linarith, fun h => h.elim (fun h => by linarith) (fun h => by linarith)⟩
  cut _ := ⟨le_rfl, by linarith⟩
  away _ _ := ⟨by linarith, le_rfl⟩

/-- A number between two integers is rounded to the lower one, unless `up`. -/
theorem RoundsReal.between {r : Rnd} {neg : Bool} {k : Nat} {x : ℝ} (h0 : 0 < x) (h1 : x < 1) (up : Bool)
    (near : r = .rn → (up = true ↔ 1 < 2 * x ∨ 2 * x = 1 ∧ k % 2 = 1)) (cut : Cuts r neg → up = false)
    (away : r ≠ .rn → ¬Cuts r neg → up = true) : RoundsReal r neg (k + x) (if up then k + 1 else k) where
  near hr := by
    cases up
    · have low : 2 * x ≤ 1 := not_lt.1 fun h => Bool.false_ne_true ((near hr).2 (.inl h))
      refine ⟨by simp only [Bool.false_eq_true, if_false]; linarith, by simp only [Bool.false_eq_true, if_false]; linarith, fun h => ?_⟩
      simp only [Bool.false_eq_true, if_false] at h ⊢
      have tie : 2 * x = 1 := le_antisymm low (h.elim (fun h => by linarith) fun h => by linarith)
      by_contra odd
      exact Bool.false_ne_true ((near hr).2 (.inr ⟨tie, by omega⟩))
    · simp only [if_true]
      have high := (near hr).1 rfl
      have : 1 ≤ 2 * x := high.elim le_of_lt fun h => h.1.ge
      push_cast
      refine ⟨by linarith, by linarith, fun h => ?_⟩
      obtain high | ⟨-, odd⟩ := high
      · exact h.elim (fun h => by linarith) fun h => by linarith
      · omega
  cut hc := by
    rw [cut hc]
    exact ⟨by simp only [Bool.false_eq_true, if_false]; linarith, by simp only [Bool.false_eq_true, if_false]; linarith⟩
  away hr hc := by
    rw [away hr hc]
    exact ⟨by simp only [if_true]; push_cast; linarith, by simp only [if_true]; push_cast; linarith⟩

/-- Does a mode take an integer k with a fraction of rem / d to the next integer (R127)? -/
def roundsUp (r : Rnd) (neg : Bool) (k rem d : Nat) : Bool :=
  match r with
  | .rn => decide (d < 2 * rem) || (2 * rem == d && k % 2 == 1)
  | .rz => false
  | .ru => !neg
  | .rd => neg

theorem roundShift_eq (r : Rnd) (neg : Bool) (m d : Nat) : roundShift r neg m d =
    if m % 2 ^ d = 0 then m / 2 ^ d else if roundsUp r neg (m / 2 ^ d) (m % 2 ^ d) (2 ^ d) then m / 2 ^ d + 1 else m / 2 ^ d := by
  unfold roundShift roundsUp
  cases r <;> rfl

theorem roundShift_rounds (r : Rnd) (neg : Bool) (m d : Nat) : RoundsReal r neg (m / 2 ^ d) (roundShift r neg m d) := by
  have pos : (0 : ℝ) < 2 ^ d := by positivity
  have split : (m : ℝ) / 2 ^ d = (m / 2 ^ d : Nat) + (m % 2 ^ d : Nat) / 2 ^ d := by
    rw [eq_comm, eq_div_iff pos.ne', add_mul, div_mul_cancel₀ _ pos.ne']
    exact_mod_cast Nat.div_add_mod' m (2 ^ d)
  rw [split, roundShift_eq]
  by_cases h0 : m % 2 ^ d = 0
  · rw [if_pos h0, h0]
    simpa using RoundsReal.nat r neg (m / 2 ^ d)
  rw [if_neg h0]
  have some_ : (0 : ℝ) < (m % 2 ^ d : Nat) := by exact_mod_cast Nat.pos_of_ne_zero h0
  have lt : ((m % 2 ^ d : Nat) : ℝ) < 2 ^ d := by exact_mod_cast Nat.mod_lt m (by positivity)
  refine RoundsReal.between (div_pos some_ pos) ((div_lt_one pos).2 lt) (roundsUp r neg (m / 2 ^ d) (m % 2 ^ d) (2 ^ d)) ?_ ?_ ?_
  · rintro rfl
    have half : (2 ^ d < 2 * (m % 2 ^ d) ↔ 1 < 2 * (((m % 2 ^ d : Nat) : ℝ) / 2 ^ d)) ∧
        (2 * (m % 2 ^ d) = 2 ^ d ↔ 2 * (((m % 2 ^ d : Nat) : ℝ) / 2 ^ d) = 1) := by
      rw [← mul_div_assoc, lt_div_iff₀ pos, div_eq_iff pos.ne', one_mul]
      exact ⟨by exact_mod_cast Iff.rfl, by exact_mod_cast Iff.rfl⟩
    rw [← half.1, ← half.2]
    simp [roundsUp]
  · cases r <;> cases neg <;> simp [Cuts, roundsUp]
  · cases r <;> cases neg <;> simp [Cuts, roundsUp]

theorem roundShift_exact (r : Rnd) (neg : Bool) (m d : Nat) : m % 2 ^ d = 0 ↔ m = roundShift r neg m d * 2 ^ d := by
  constructor
  · intro h
    rw [roundShift_eq, if_pos h]
    exact (Nat.div_mul_cancel (Nat.dvd_of_mod_eq_zero h)).symm
  · intro h
    rw [h, Nat.mul_mod_left]

/-- What a value V comes to on the grid 2 ^ q: its rounding, and whether that is exact. -/
structure OnGrid (r : Rnd) (neg : Bool) (V : ℝ) (q : Int) (g : Nat × Bool) : Prop where
  rounds : RoundsReal r neg (V / 2 ^ q) g.1
  exact  : g.2 = true ↔ V = dyad g.1 q

theorem onGrid_onGrid (r : Rnd) (neg : Bool) (m : Nat) (e q : Int) : OnGrid r neg (dyad m e) q (onGrid r neg m e q) := by
  unfold onGrid
  split
  · next h =>
    have value := dyad_shift m h
    refine ⟨?_, by simp [value]⟩
    rw [← value, dyad, mul_div_cancel_right₀ _ (two_zpow_pos q).ne']
    exact RoundsReal.nat r neg _
  · next h =>
    have pos := two_zpow_pos q
    have split : (2 : ℝ) ^ q = 2 ^ e * 2 ^ (q - e).toNat := by
      rw [← zpow_natCast, ← two_zpow_add]
      congr 1
      omega
    have value : dyad m e / 2 ^ q = m / 2 ^ (q - e).toNat := by
      rw [dyad, split, mul_comm (m : ℝ), mul_div_mul_left _ _ (two_zpow_pos e).ne']
    refine ⟨by rw [value]; exact roundShift_rounds r neg m _, ?_⟩
    dsimp only
    rw [beq_iff_eq, roundShift_exact r neg, dyad.eq_def (roundShift _ _ _ _), ← div_eq_iff pos.ne', value, div_eq_iff (by positivity)]
    exact_mod_cast Iff.rfl

/-! ### Codes and the values that they stand for (R122) -/

/-- The exponent of the last bit of a subnormal value. -/
def fQmin (f : FFmt) : Int := 1 - fBias f - fMbits f

/-- The magnitude of a code, from its exponent and mantissa fields. -/
def magCode (f : FFmt) (e m : Nat) : Nat := e * 2 ^ fMbits f + m

/-- The value of the sign and the fields of a finite code (R122). -/
def finValue (f : FFmt) (neg : Bool) (e m : Nat) : FVal :=
  if e = 0 then .fin neg m (fQmin f) else .fin neg (2 ^ fMbits f + m) (e - fBias f - fMbits f)

/-- Are the fields those of a NaN (R122, R123)? -/
def nanFields (f : FFmt) (e m : Nat) : Bool :=
  match f with
  | .e4m3 => e == 2 ^ fEbits f - 1 && m == 7
  | .e2m1 => false
  | _ => e == 2 ^ fEbits f - 1 && m != 0

theorem fDecode_eq (f : FFmt) (x : Nat) : fDecode f x =
    if nanFields f (x / 2 ^ fMbits f % 2 ^ fEbits f) (x % 2 ^ fMbits f) then
      .nan (match f with | .f32 | .bf16 | .f16 => decide (x % 2 ^ fMbits f < 2 ^ (fMbits f - 1)) | _ => false)
    else if fHasInf f && x / 2 ^ fMbits f % 2 ^ fEbits f == 2 ^ fEbits f - 1 then .inf (x / 2 ^ (fMbits f + fEbits f) % 2 == 1)
    else finValue f (x / 2 ^ (fMbits f + fEbits f) % 2 == 1) (x / 2 ^ fMbits f % 2 ^ fEbits f) (x % 2 ^ fMbits f) := by
  unfold fDecode finValue nanFields
  simp only [beq_iff_eq]
  cases f <;> rfl

/-- A finite value of a format is a multiple of the last place of the subnormals, of at most the format's precision. -/
theorem fDecode_fin {f : FFmt} {x m : Nat} {neg : Bool} {e : Int} (h : fDecode f x = .fin neg m e) :
    m < 2 ^ (fMbits f + 1) ∧ fQmin f ≤ e := by
  have lt := Nat.mod_lt x (show 2 ^ fMbits f > 0 by positivity)
  rw [fDecode_eq] at h
  rw [pow_succ]
  split at h
  · cases h
  split at h
  · cases h
  unfold finValue at h
  split at h
  · obtain ⟨-, rfl, rfl⟩ := FVal.fin.inj h
    omega
  · obtain ⟨-, rfl, rfl⟩ := FVal.fin.inj h
    unfold fQmin
    omega

theorem fSign_eq (f : FFmt) (neg : Bool) : fSign f neg = neg.toNat * 2 ^ (fMbits f + fEbits f) := by
  cases f <;> cases neg <;> rfl

/-- Fields of a magnitude up to the largest finite one are neither an infinity's nor a NaN's. -/
theorem fields_finite {f : FFmt} {e m : Nat} (hm : m < 2 ^ fMbits f) (h : magCode f e m ≤ fMax f) :
    e < 2 ^ fEbits f ∧ nanFields f e m = false ∧ (fHasInf f && e == 2 ^ fEbits f - 1) = false := by
  cases f <;> simp [magCode, fMbits, fMax, fEbits, nanFields, fHasInf] at * <;> omega

/-- A code whose magnitude is that of a finite value stands for that value with its sign. -/
theorem fDecode_magCode {f : FFmt} (neg : Bool) {e m : Nat} (hm : m < 2 ^ fMbits f) (h : magCode f e m ≤ fMax f) :
    fDecode f (fSign f neg + magCode f e m) = finValue f neg e m := by
  obtain ⟨he, nan, inf⟩ := fields_finite hm h
  have field : fSign f neg + magCode f e m = 2 ^ fMbits f * (2 ^ fEbits f * neg.toNat + e) + m := by
    rw [fSign_eq, magCode, pow_add]
    ring
  have mant : (fSign f neg + magCode f e m) % 2 ^ fMbits f = m := by
    rw [field, Nat.mul_add_mod, Nat.mod_eq_of_lt hm]
  have quot : (fSign f neg + magCode f e m) / 2 ^ fMbits f = 2 ^ fEbits f * neg.toNat + e := by
    rw [field, Nat.mul_add_div (by positivity), Nat.div_eq_of_lt hm, Nat.add_zero]
  have expo : (fSign f neg + magCode f e m) / 2 ^ fMbits f % 2 ^ fEbits f = e := by
    rw [quot, Nat.mul_add_mod, Nat.mod_eq_of_lt he]
  have sign : ((fSign f neg + magCode f e m) / 2 ^ (fMbits f + fEbits f) % 2 == 1) = neg := by
    rw [pow_add, ← Nat.div_div_eq_div_mul, quot, Nat.mul_add_div (by positivity), Nat.div_eq_of_lt he]
    cases neg <;> rfl
  rw [fDecode_eq, mant, expo, sign, nan, inf]
  rfl

/-- The code that rounding gives a magnitude of r on the grid 2 ^ q. -/
def gridCode (f : FFmt) (q : Int) (r : Nat) : Nat :=
  if r < 2 ^ fMbits f then r
  else if r = 2 ^ (fMbits f + 1) then (q + 1 + fMbits f + fBias f).toNat * 2 ^ fMbits f
  else (q + fMbits f + fBias f).toNat * 2 ^ fMbits f + (r - 2 ^ fMbits f)

/-- r on the grid 2 ^ q: the last places of a value of format f, of a subnormal one or of one with all its bits. -/
structure InFormat (f : FFmt) (q : Int) (r : Nat) : Prop where
  least : fQmin f ≤ q
  le    : r ≤ 2 ^ (fMbits f + 1)
  full  : q = fQmin f ∨ 2 ^ fMbits f ≤ r

theorem fMbits_pos (f : FFmt) : 1 ≤ fMbits f := by cases f <;> decide

theorem two_dvd_two_pow (f : FFmt) : 2 ∣ 2 ^ fMbits f := dvd_pow_self 2 (Nat.one_le_iff_ne_zero.1 (fMbits_pos f))

/-- The fields of such a code, and the value that they stand for. -/
theorem gridCode_fields {f : FFmt} {q : Int} {r : Nat} (h : InFormat f q r) : ∃ e m n x, gridCode f q r = magCode f e m ∧
    m < 2 ^ fMbits f ∧ (∀ neg, finValue f neg e m = .fin neg n x) ∧ dyad n x = dyad r q ∧ gridCode f q r % 2 = r % 2 := by
  obtain ⟨least, le, full⟩ := h
  have even := two_dvd_two_pow f
  unfold fQmin at least
  unfold gridCode magCode
  split_ifs with sub carry
  · obtain rfl : q = fQmin f := full.resolve_right (not_le.2 sub)
    exact ⟨0, r, r, fQmin f, by omega, sub, fun _ => if_pos rfl, rfl, rfl⟩
  · subst carry
    refine ⟨(q + 1 + fMbits f + fBias f).toNat, 0, 2 ^ fMbits f, q + 1, rfl, by positivity, fun neg => ?_, ?_, ?_⟩
    · rw [finValue, if_neg (by omega)]
      congr 1
      omega
    · rw [dyad_two_pow, dyad_two_pow]
      congr 1
      push_cast
      ring
    · rw [pow_succ]
      exact (Nat.mod_eq_zero_of_dvd (even.mul_left _)).trans (by simp)
  · refine ⟨(q + fMbits f + fBias f).toNat, r - 2 ^ fMbits f, r, q, rfl, ?_, fun neg => ?_, rfl, ?_⟩
    · rw [pow_succ] at le carry
      omega
    · rw [finValue, if_neg (by omega)]
      congr 1 <;> omega
    · have := even.mul_left (q + fMbits f + fBias f).toNat
      omega

/-- The largest finite value (R122). -/
theorem fMax_fields (f : FFmt) : ∃ e m, fMax f = magCode f e m ∧ m < 2 ^ fMbits f ∧ fMaxM f = 2 ^ fMbits f + m ∧
    fMaxE f = e - fBias f - fMbits f := by
  refine ⟨fMax f / 2 ^ fMbits f, fMax f % 2 ^ fMbits f, ?_⟩
  cases f <;> decide

/-- The code of a value up to the largest finite one is at most that one's. -/
theorem magCode_le {f : FFmt} {neg : Bool} {e m n : Nat} {x : Int} (hm : m < 2 ^ fMbits f) (hv : finValue f neg e m = .fin neg n x)
    (hle : dyad n x ≤ dyad (fMaxM f) (fMaxE f)) : magCode f e m ≤ fMax f := by
  obtain ⟨E, M, code, hM, mant, expo⟩ := fMax_fields f
  rw [code]
  unfold magCode
  have pos : 0 < E := by
    by_contra h
    cases f <;> simp [magCode, fMax, fMbits] at * <;> omega
  rcases lt_trichotomy e E with h | rfl | h
  · have : (e + 1) * 2 ^ fMbits f ≤ E * 2 ^ fMbits f := Nat.mul_le_mul_right _ h
    rw [Nat.add_mul] at this
    omega
  · rw [finValue, if_neg pos.ne'] at hv
    obtain ⟨-, rfl, rfl⟩ := FVal.fin.inj hv
    rw [mant, expo, dyad_le_iff] at hle
    omega
  · rw [finValue, if_neg (by omega)] at hv
    obtain ⟨-, rfl, rfl⟩ := FVal.fin.inj hv
    exfalso
    refine absurd hle (not_le.2 ?_)
    calc dyad (fMaxM f) (fMaxE f) < dyad (2 ^ (fMbits f + 1)) (fMaxE f) := by
          rw [dyad_lt_iff, mant, pow_succ]
          omega
      _ ≤ dyad (2 ^ fMbits f) (e - fBias f - fMbits f) := by
          rw [dyad_two_pow, dyad_two_pow, expo]
          refine two_zpow_le ?_
          push_cast
          omega
      _ ≤ dyad (2 ^ fMbits f + m) (e - fBias f - fMbits f) := (dyad_le_iff _ _ _).2 (Nat.le_add_right _ _)

theorem fSign_even (f : FFmt) (neg : Bool) : fSign f neg % 2 = 0 := by cases f <;> cases neg <;> decide

/-- What a code of a magnitude on a grid that is not beyond the largest finite one stands for. -/
theorem fDecode_gridCode {f : FFmt} {q : Int} {r : Nat} (h : InFormat f q r) (hle : dyad r q ≤ dyad (fMaxM f) (fMaxE f)) (neg : Bool) :
    gridCode f q r ≤ fMax f ∧ (fSign f neg + gridCode f q r) % 2 = r % 2 ∧
    ∃ n x, fDecode f (fSign f neg + gridCode f q r) = .fin neg n x ∧ dyad n x = dyad r q := by
  obtain ⟨e, m, n, x, code, hm, value, same, parity⟩ := gridCode_fields h
  rw [code] at parity ⊢
  have le := magCode_le hm (value neg) (same ▸ hle)
  have even := fSign_even f neg
  exact ⟨le, by omega, n, x, (fDecode_magCode neg hm le).trans (value neg), same⟩

/-- Zero's code stands for zero. -/
theorem fDecode_fSign (f : FFmt) (neg : Bool) : fDecode f (fSign f neg) = .fin neg 0 (fQmin f) := by
  simpa [magCode, finValue] using fDecode_magCode (f := f) neg (e := 0) (m := 0) (by positivity) (by simp [magCode])

theorem fDecode_fMax (f : FFmt) : fDecode f (fMax f) = .fin false (fMaxM f) (fMaxE f) := by cases f <;> decide

/-! ### One rounding into a format (R127, R128) -/

/-- V, not zero, and its rounding k to the last place 2 ^ q that format f gives it. -/
structure Placed (f : FFmt) (r : Rnd) (neg : Bool) (V : ℝ) (q : Int) (k : Nat) : Prop where
  least  : fQmin f ≤ q
  full   : q = fQmin f ∨ (2 : ℝ) ^ (fMbits f + q) ≤ V
  below  : V < 2 ^ (fMbits f + 1 + q)
  pos    : 0 < V
  rounds : RoundsReal r neg (V / 2 ^ q) k

section
variable {f : FFmt} {r : Rnd} {neg : Bool} {V v : ℝ} {q : Int} {k j : Nat}

/-- A mode is one of three kinds: to nearest, toward zero, away from zero. -/
theorem mode_cases {P : Prop} (r : Rnd) (neg : Bool) (near : r = .rn → P) (cut : Cuts r neg → P) (away : r ≠ .rn → ¬Cuts r neg → P) : P := by
  by_cases hr : r = .rn
  · exact near hr
  · by_cases hc : Cuts r neg
    · exact cut hc
    · exact away hr hc

theorem not_cuts_rn : ¬Cuts .rn neg := by simp [Cuts]

/-- Rounding is monotonic against integers. -/
theorem RoundsReal.le_of_le (h : RoundsReal r neg v k) (hv : v ≤ j) : k ≤ j := by
  have lt : (k : ℝ) < j + 1 := mode_cases r neg (fun hr => by obtain ⟨-, b, -⟩ := h.near hr; linarith)
    (fun hc => by linarith [(h.cut hc).1]) (fun hr hc => by linarith [(h.away hr hc).1])
  exact Nat.lt_succ_iff.1 (by exact_mod_cast lt)

theorem RoundsReal.ge_of_ge (h : RoundsReal r neg v k) (hv : (j : ℝ) ≤ v) : j ≤ k := by
  have lt : (j : ℝ) < k + 1 := mode_cases r neg (fun hr => by obtain ⟨a, -, -⟩ := h.near hr; linarith)
    (fun hc => by linarith [(h.cut hc).2]) (fun hr hc => by linarith [(h.away hr hc).2])
  exact Nat.lt_succ_iff.1 (by exact_mod_cast lt)

theorem dyad_succ (k : Nat) (q : Int) : dyad (k + 1) q = dyad k q + 2 ^ q := by
  simp only [dyad]
  push_cast
  ring

/-- The middle of two values, on the finer of their grids. -/
theorem dyad_mid (m n : Nat) (e x : Int) :
    dyad (m * 2 ^ (e - min e x).toNat + n * 2 ^ (x - min e x).toNat) (min e x - 1) = (dyad m e + dyad n x) / 2 := by
  have a := dyad_shift m (min_le_left e x)
  have b := dyad_shift n (min_le_right e x)
  rw [← a, ← b]
  simp only [dyad]
  rw [zpow_sub_one₀ two_ne_zero]
  push_cast
  ring

/-- To nearest, V is within half a place of its rounding, and at half a place that is even. -/
theorem RoundsReal.near_scaled (h : RoundsReal .rn neg (V / 2 ^ q) k) : 2 * V ≤ 2 * dyad k q + 2 ^ q ∧ 2 * dyad k q - 2 ^ q ≤ 2 * V ∧
    (2 * dyad k q + 2 ^ q ≤ 2 * V ∨ 2 * V ≤ 2 * dyad k q - 2 ^ q → k % 2 = 0) := by
  have pos := two_zpow_pos q
  obtain ⟨a, b, tie⟩ := h.near rfl
  have value : V = V / 2 ^ q * 2 ^ q := (div_mul_cancel₀ _ pos.ne').symm
  have scale {a b : ℝ} : a ≤ b ↔ a * 2 ^ q ≤ b * 2 ^ q := (mul_le_mul_iff_left₀ pos).symm
  rw [scale] at a b
  rw [scale, scale (a := 2 * (V / 2 ^ q))] at tie
  simp only [dyad]
  refine ⟨?_, ?_, fun t => tie (t.imp (fun t => ?_) fun t => ?_)⟩ <;> linarith

/-- Toward zero, V is from its rounding to below the next place. -/
theorem RoundsReal.cut_scaled (h : RoundsReal r neg (V / 2 ^ q) k) (hc : Cuts r neg) : dyad k q ≤ V ∧ V < dyad (k + 1) q := by
  have pos := two_zpow_pos q
  obtain ⟨a, b⟩ := h.cut hc
  rw [le_div_iff₀ pos] at a
  rw [div_lt_iff₀ pos] at b
  exact ⟨a, by simpa [dyad] using b⟩

/-- Away from zero, V is above the place before its rounding. -/
theorem RoundsReal.away_scaled (h : RoundsReal r neg (V / 2 ^ q) k) (hr : r ≠ .rn) (hc : ¬Cuts r neg) : dyad k q - 2 ^ q < V ∧ V ≤ dyad k q := by
  have pos := two_zpow_pos q
  obtain ⟨a, b⟩ := h.away hr hc
  rw [lt_div_iff₀ pos, sub_mul, one_mul] at a
  rw [div_le_iff₀ pos] at b
  exact ⟨a, b⟩

namespace Placed

theorem inFormat (h : Placed f r neg V q k) : InFormat f q k := by
  have pos := two_zpow_pos q
  refine ⟨h.least, h.rounds.le_of_le ?_, h.full.imp_right fun lo => h.rounds.ge_of_ge ?_⟩
  · have hi := h.below.le
    rw [two_zpow_add, ← div_le_iff₀ pos] at hi
    exact_mod_cast hi
  · rw [two_zpow_add, ← le_div_iff₀ pos] at lo
    exact_mod_cast lo

/-- A value of the format above the rounded one is at least the next place. -/
theorem above (h : Placed f r neg V q k) {y n : Nat} {s : Bool} {x : Int} (hy : fDecode f y = .fin s n x) (lt : dyad k q < dyad n x) :
    dyad (k + 1) q ≤ dyad n x := by
  obtain ⟨hn, hx⟩ := fDecode_fin hy
  by_cases hq : q ≤ x
  · rw [← dyad_shift n hq, dyad_lt_iff] at lt
    rw [← dyad_shift n hq, dyad_le_iff]
    exact lt
  · exfalso
    have full := h.inFormat.full.resolve_left (by omega)
    refine absurd lt (not_lt.2 ?_)
    calc dyad n x ≤ dyad (2 ^ (fMbits f + 1)) x := (dyad_le_iff _ _ _).2 hn.le
      _ ≤ dyad (2 ^ fMbits f) q := by
        rw [dyad_two_pow, dyad_two_pow]
        exact two_zpow_le (by push_cast; omega)
      _ ≤ dyad k q := (dyad_le_iff _ _ _).2 full

/-- A value of the format below the rounded one is at most the place before, unless the rounded one, of another exponent than those
below it, is at most V. -/
theorem beneath (h : Placed f r neg V q k) {y n : Nat} {s : Bool} {x : Int} (hy : fDecode f y = .fin s n x) (lt : dyad n x < dyad k q) :
    dyad n x ≤ dyad k q - 2 ^ q ∨ dyad k q ≤ V := by
  obtain ⟨hn, hx⟩ := fDecode_fin hy
  have step {j : Nat} (h : j < k) : dyad j q ≤ dyad k q - 2 ^ q := by
    have := (dyad_le_iff (j + 1) k q).2 h
    rw [dyad_succ] at this
    linarith
  by_cases hq : q ≤ x
  · rw [← dyad_shift n hq, dyad_lt_iff] at lt
    exact .inl (dyad_shift n hq ▸ step lt)
  · have full := h.inFormat.full.resolve_left (by omega)
    have large := h.full.resolve_left (by omega)
    rw [← dyad_two_pow] at large
    rcases full.lt_or_eq with full | rfl
    · left
      refine le_trans ?_ (step full)
      calc dyad n x ≤ dyad (2 ^ (fMbits f + 1)) x := (dyad_le_iff _ _ _).2 hn.le
        _ ≤ dyad (2 ^ fMbits f) q := by
          rw [dyad_two_pow, dyad_two_pow]
          exact two_zpow_le (by push_cast; omega)
    · exact .inr large

variable {c m : Nat} {e : Int}

/-- A code of the rounded value is the nearest one. -/
theorem nearest (h : Placed f .rn neg V q k) (hc : fDecode f c = .fin neg m e) (hv : dyad m e = dyad k q) (hp : c % 2 = k % 2) :
    Nearest f neg (fun a x => dyad a x ≤ V) (fun a x => V ≤ dyad a x) c := by
  obtain ⟨hi, lo, tie⟩ := h.rounds.near_scaled
  refine ⟨m, e, hc, fun y n x hy => ?_⟩
  simp only [dyad_mid, atMost_iff, not_le, hv, hp]
  refine ⟨fun lt => ?_, fun lt => ?_⟩
  · have next := h.above hy lt
    rw [dyad_succ] at next
    exact ⟨by linarith, fun t => tie (.inl (by linarith))⟩
  · obtain prev | large := h.beneath hy lt
    · exact ⟨by linarith, fun t => tie (.inr (by linarith))⟩
    · exact ⟨by linarith, fun t => by linarith⟩

/-- Toward zero, a code of the rounded value is the largest one up to V. -/
theorem isBelow (h : Placed f r neg V q k) (hr : Cuts r neg) (hc : fDecode f c = .fin neg m e) (hv : dyad m e = dyad k q) :
    Below f neg (fun a x => dyad a x ≤ V) c := by
  obtain ⟨lo, hi⟩ := h.rounds.cut_scaled hr
  refine ⟨m, e, hc, hv.trans_le lo, fun y n x hy hn => ?_⟩
  rw [atMost_iff, hv]
  by_contra gt
  linarith [h.above hy (not_le.1 gt)]

/-- Away from zero, a code of the rounded value is the smallest one from V on. -/
theorem isAbove (h : Placed f r neg V q k) (hr : r ≠ .rn) (hn : ¬Cuts r neg) (hc : fDecode f c = .fin neg m e)
    (hv : dyad m e = dyad k q) : Above f neg (fun a x => V ≤ dyad a x) c := by
  obtain ⟨lo, hi⟩ := h.rounds.away_scaled hr hn
  refine ⟨m, e, hc, hi.trans_eq hv.symm, fun y n x hy hn => ?_⟩
  rw [atMost_iff, hv]
  by_contra gt
  obtain prev | large := h.beneath hy (not_le.1 gt) <;> linarith

end Placed

end

/-! ### Overflow and underflow (R127, R128) -/

theorem dyad_half (m : Nat) (e : Int) : dyad (2 * m + 1) (e - 1) = dyad m e + 2 ^ e / 2 := by
  simp only [dyad]
  rw [zpow_sub_one₀ two_ne_zero]
  push_cast
  ring

/-- The largest finite value has all its bits, at an exponent of a normal value. -/
theorem fMaxM_bounds (f : FFmt) : 2 ^ fMbits f ≤ fMaxM f ∧ fMaxM f < 2 ^ (fMbits f + 1) ∧ fQmin f ≤ fMaxE f := by cases f <;> decide

section
variable {f : FFmt} {r : Rnd} {neg : Bool} {V v : ℝ} {q : Int} {k j : Nat}

theorem exceeds_iff_bounds : Exceeds f r neg (fun a x => dyad a x ≤ V) (fun a x => V ≤ dyad a x) ↔
    (r = .rn → dyad (fMaxM f) (fMaxE f) + 2 ^ fMaxE f / 2 ≤ V ∧
      (fMaxM f % 2 = 1 ∨ dyad (fMaxM f) (fMaxE f) + 2 ^ fMaxE f / 2 < V)) ∧
    (Cuts r neg → dyad (fMaxM f) (fMaxE f) + 2 ^ fMaxE f ≤ V) ∧ (r ≠ .rn → ¬Cuts r neg → dyad (fMaxM f) (fMaxE f) < V) := by
  unfold Exceeds
  constructor
  · intro h
    have h := h _ _ (fDecode_fMax f)
    dsimp only at h
    rwa [dyad_half, dyad_succ, not_le, not_le] at h
  · intro h m e hm
    obtain ⟨-, rfl, rfl⟩ := FVal.fin.inj ((fDecode_fMax f).symm.trans hm)
    dsimp only
    rwa [dyad_half, dyad_succ, not_le, not_le]

/-- Rounding with unbounded exponent exceeds the largest finite value exactly where rounding to the last place does. -/
theorem Placed.exceeds_iff (h : Placed f r neg V q k) :
    Exceeds f r neg (fun a x => dyad a x ≤ V) (fun a x => V ≤ dyad a x) ↔ dyad (fMaxM f) (fMaxE f) < dyad k q := by
  obtain ⟨lo, hi, least⟩ := fMaxM_bounds f
  have form := h.inFormat
  have pos := two_zpow_pos (fMaxE f)
  rw [exceeds_iff_bounds]
  rcases lt_trichotomy q (fMaxE f) with lt | rfl | gt
  · have small : (2 : ℝ) ^ (fMbits f + 1 + q : Int) ≤ dyad (fMaxM f) (fMaxE f) :=
      calc (2 : ℝ) ^ (fMbits f + 1 + q : Int) ≤ dyad (2 ^ fMbits f) (fMaxE f) := by
            rw [dyad_two_pow]
            exact two_zpow_le (by omega)
        _ ≤ dyad (fMaxM f) (fMaxE f) := (dyad_le_iff _ _ _).2 lo
    have hk : dyad k q ≤ 2 ^ (fMbits f + 1 + q : Int) := by
      refine ((dyad_le_iff _ _ _).2 form.le).trans_eq ?_
      rw [dyad_two_pow]
      push_cast
      rfl
    have hv := h.below
    refine iff_of_false (fun e => ?_) (by linarith)
    refine mode_cases r neg (fun hr => ?_) (fun hc => ?_) (fun hr hc => ?_)
    · linarith [(e.1 hr).1]
    · linarith [e.2.1 hc]
    · linarith [e.2.2 hr hc]
  · rw [dyad_lt_iff]
    refine ⟨fun e => ?_, fun lt => ?_⟩
    · by_contra le
      have le := (dyad_le_iff _ _ (fMaxE f)).2 (not_lt.1 le)
      refine mode_cases r neg (fun hr => ?_) (fun hc => ?_) (fun hr hc => ?_)
      · subst hr
        obtain ⟨up, -, tie⟩ := h.rounds.near_scaled
        obtain ⟨ge, odd⟩ := e.1 rfl
        obtain odd | gt := odd
        · have even : k % 2 = 0 := tie (.inl (by linarith))
          have : fMaxM f ≤ k := (dyad_le_iff _ _ (fMaxE f)).1 (by linarith)
          have : k ≤ fMaxM f := (dyad_le_iff _ _ (fMaxE f)).1 le
          omega
        · linarith
      · obtain ⟨-, b⟩ := h.rounds.cut_scaled hc
        rw [dyad_succ] at b
        linarith [e.2.1 hc]
      · linarith [e.2.2 hr hc, (h.rounds.away_scaled hr hc).2]
    · have step := (dyad_le_iff _ _ (fMaxE f)).2 lt
      rw [Nat.succ_eq_add_one, dyad_succ] at step
      refine ⟨?_, fun hc => by linarith [(h.rounds.cut_scaled hc).1], fun hr hc => by linarith [(h.rounds.away_scaled hr hc).1]⟩
      rintro rfl
      obtain ⟨-, lo, tie⟩ := h.rounds.near_scaled
      refine ⟨by linarith, or_iff_not_imp_right.2 fun at_ => ?_⟩
      have even : k % 2 = 0 := tie (.inr (by linarith))
      have : k ≤ fMaxM f + 1 := (dyad_le_iff _ _ (fMaxE f)).1 (by rw [dyad_succ]; linarith)
      omega
  · have large : dyad (fMaxM f) (fMaxE f) + 2 ^ fMaxE f ≤ 2 ^ (fMbits f + q : Int) := by
      rw [← dyad_succ]
      refine ((dyad_le_iff _ _ _).2 hi).trans ?_
      rw [dyad_two_pow]
      exact two_zpow_le (by push_cast; omega)
    have hk : (2 : ℝ) ^ (fMbits f + q : Int) ≤ dyad k q := by
      rw [← dyad_two_pow]
      exact (dyad_le_iff _ _ _).2 (form.full.resolve_left (by omega))
    have hv := h.full.resolve_left (by omega)
    exact iff_of_true ⟨fun _ => ⟨by linarith, .inr (by linarith)⟩, fun _ => by linarith, fun _ _ => by linarith⟩ (by linarith)

theorem tiny_iff_bounds : Tiny f r neg (fun a x => dyad a x ≤ V) (fun a x => V ≤ dyad a x) ↔
    (r = .rn → V < 2 ^ (1 - fBias f) - 2 ^ (1 - fBias f - fMbits f - 2)) ∧ (Cuts r neg → V < 2 ^ (1 - fBias f)) ∧
    (r ≠ .rn → ¬Cuts r neg → V ≤ 2 ^ (1 - fBias f) - 2 ^ (1 - fBias f - fMbits f - 1)) := by
  have pred (n : Nat) (e : Int) : dyad (2 ^ n - 1) e = 2 ^ (n + e : Int) - 2 ^ e := by
    rw [← dyad_two_pow, ← Nat.sub_add_cancel (Nat.one_le_two_pow (n := n)), dyad_succ, Nat.add_sub_cancel]
    ring
  have one (e : Int) : dyad 1 e = 2 ^ e := by simp [dyad]
  unfold Tiny
  simp only [not_le]
  rw [pred, pred, one]
  rw [show ((fMbits f + 2 : Nat) : Int) + (1 - fBias f - fMbits f - 2) = 1 - fBias f by push_cast; ring,
    show ((fMbits f + 1 : Nat) : Int) + (1 - fBias f - fMbits f - 1) = 1 - fBias f by push_cast; ring]

/-- V and its rounding k with unbounded exponent: to the last place 2 ^ q of a value with all its bits. -/
structure Unbounded (f : FFmt) (r : Rnd) (neg : Bool) (V : ℝ) (q : Int) (k : Nat) : Prop where
  full   : (2 : ℝ) ^ (fMbits f + q : Int) ≤ V
  below  : V < 2 ^ (fMbits f + 1 + q : Int)
  rounds : RoundsReal r neg (V / 2 ^ q) k

/-- Rounding with unbounded exponent stays below the least normal value exactly where V is tiny. -/
theorem Unbounded.tiny_iff (h : Unbounded f r neg V q k) :
    Tiny f r neg (fun a x => dyad a x ≤ V) (fun a x => V ≤ dyad a x) ↔ dyad k q < 2 ^ (1 - fBias f) := by
  have pos := two_zpow_pos q
  rw [tiny_iff_bounds]
  have le_full : dyad k q ≤ 2 ^ (fMbits f + 1 + q : Int) := by
    have hi := h.below.le
    rw [two_zpow_add, ← div_le_iff₀ pos] at hi
    have le : k ≤ 2 ^ (fMbits f + 1) := h.rounds.le_of_le (by exact_mod_cast hi)
    refine ((dyad_le_iff _ _ q).2 le).trans_eq ?_
    rw [dyad_two_pow]
    push_cast
    rfl
  rcases lt_trichotomy (fMbits f + 1 + q : Int) (1 - fBias f) with lt | eq | gt
  · have double : (2 : ℝ) ^ (1 - fBias f) = 2 * 2 ^ (1 - fBias f - 1) := by
      rw [zpow_sub_one₀ two_ne_zero]
      ring
    have small : (2 : ℝ) ^ (fMbits f + 1 + q : Int) ≤ 2 ^ (1 - fBias f - 1) := two_zpow_le (by omega)
    have half : (2 : ℝ) ^ (1 - fBias f - fMbits f - 2) ≤ 2 ^ (1 - fBias f - 1) := two_zpow_le (by omega)
    have place : (2 : ℝ) ^ (1 - fBias f - fMbits f - 1) ≤ 2 ^ (1 - fBias f - 1) := two_zpow_le (by omega)
    have hv := h.below
    have pos := two_zpow_pos (1 - fBias f - 1)
    exact iff_of_true ⟨fun _ => by linarith, fun _ => by linarith, fun _ _ => by linarith⟩ (by linarith)
  · have hq : (2 : ℝ) ^ (1 - fBias f - fMbits f - 1) = 2 ^ q := by
      congr 1
      omega
    have hh : (2 : ℝ) ^ (1 - fBias f - fMbits f - 2) = 2 ^ q / 2 := by
      rw [div_eq_mul_inv, ← zpow_sub_one₀ two_ne_zero]
      congr 1
      omega
    have top : (2 : ℝ) ^ (1 - fBias f) = dyad (2 ^ (fMbits f + 1)) q := by
      rw [dyad_two_pow, ← eq]
      push_cast
      rfl
    have hv := h.below
    rw [eq] at le_full hv
    rw [hq, hh]
    rw [top] at le_full hv ⊢
    refine ⟨fun t => lt_of_le_of_ne le_full fun e => ?_, fun lt => ?_⟩
    · refine mode_cases r neg (fun hr => ?_) (fun hc => ?_) (fun hr hc => ?_)
      · subst hr
        linarith [t.1 rfl, h.rounds.near_scaled.2.1]
      · linarith [(h.rounds.cut_scaled hc).1]
      · linarith [t.2.2 hr hc, (h.rounds.away_scaled hr hc).1]
    · have step := (dyad_le_iff _ _ q).2 ((dyad_lt_iff _ _ _).1 lt)
      rw [Nat.succ_eq_add_one, dyad_succ] at step
      refine ⟨?_, fun _ => hv, fun hr hc => by linarith [(h.rounds.away_scaled hr hc).2]⟩
      rintro rfl
      obtain ⟨up, -, tie⟩ := h.rounds.near_scaled
      by_contra ge
      have even : k % 2 = 0 := tie (.inl (by linarith))
      have last : 2 ^ (fMbits f + 1) ≤ k + 1 := (dyad_le_iff _ _ q).1 (by rw [dyad_succ]; linarith)
      have lt := (dyad_lt_iff _ _ _).1 lt
      have : 2 ∣ 2 ^ (fMbits f + 1) := dvd_pow_self 2 (by omega)
      omega
  · have large : (2 : ℝ) ^ (1 - fBias f) ≤ 2 ^ (fMbits f + q : Int) := two_zpow_le (by omega)
    have hk : (2 : ℝ) ^ (fMbits f + q : Int) ≤ dyad k q := by
      have lo := h.full
      rw [two_zpow_add, ← le_div_iff₀ pos] at lo
      rw [← dyad_two_pow]
      exact (dyad_le_iff _ _ _).2 (h.rounds.ge_of_ge (by exact_mod_cast lo))
    have hv := h.full
    have half := two_zpow_pos (1 - fBias f - fMbits f - 2)
    have place := two_zpow_pos (1 - fBias f - fMbits f - 1)
    refine iff_of_false (fun t => ?_) (by linarith)
    exact mode_cases r neg (fun hr => by linarith [t.1 hr]) (fun hc => by linarith [t.2.1 hc]) (fun hr hc => by linarith [t.2.2 hr hc])

end

/-! ### roundFin (R127, R128, R132) -/

/-- The last place of m * 2 ^ e at a format's precision, with unbounded exponent, and in the format. -/
def unboundedPlace (f : FFmt) (m : Nat) (e : Int) : Int := e + bitLen m - (fMbits f + 1)
def lastPlace (f : FFmt) (m : Nat) (e : Int) : Int := max (unboundedPlace f m e) (fQmin f)

/-- The rounding of m * 2 ^ e to its last place. -/
def atLastPlace (f : FFmt) (r : Rnd) (neg : Bool) (m : Nat) (e : Int) : Nat × Bool := onGrid r neg m e (lastPlace f m e)

/-- Does m * 2 ^ e overflow, once rounded? -/
def overflows (f : FFmt) (r : Rnd) (neg : Bool) (m : Nat) (e : Int) : Bool :=
  ltScaled (fMaxM f) (fMaxE f) (atLastPlace f r neg m e).1 (lastPlace f m e)

/-- Is m * 2 ^ e, rounded with unbounded exponent, below the normal values? -/
def tinyAt (f : FFmt) (r : Rnd) (neg : Bool) (m : Nat) (e : Int) : Bool :=
  ltScaled (onGrid r neg m e (unboundedPlace f m e)).1 (unboundedPlace f m e) 1 (1 - fBias f)

theorem roundFin_zero (f : FFmt) (r : Rnd) (sat neg : Bool) (e : Int) : roundFin f r sat neg 0 e = ⟨fSign f neg, 0⟩ := rfl

section
variable {f : FFmt} {r : Rnd} {neg : Bool} {m : Nat} {e : Int}

theorem roundFin_overflow (sat : Bool) (hm : m ≠ 0) (h : overflows f r neg m e = true) :
    roundFin f r sat neg m e = ⟨overflowCode f r sat neg, fOVERFLOW ||| fINEXACT⟩ := by
  unfold roundFin
  rw [if_neg hm]
  exact if_pos h

theorem roundFin_fits (sat : Bool) (hm : m ≠ 0) (h : overflows f r neg m e = false) : roundFin f r sat neg m e =
    ⟨fSign f neg + gridCode f (lastPlace f m e) (atLastPlace f r neg m e).1,
      if (atLastPlace f r neg m e).2 then 0 else if tinyAt f r neg m e then fINEXACT ||| fUNDERFLOW else fINEXACT⟩ := by
  unfold roundFin
  rw [if_neg hm]
  exact if_neg (Bool.eq_false_iff.1 h)

/-- A mode that cuts a magnitude gives the largest finite value for one that overflows; so does every mode in .e2m1 (R127, R132). -/
theorem overflowCode_max (h : Cuts r neg ∨ f = .e2m1) : overflowCode f r false neg = fSign f neg + fMax f := by
  obtain (rfl | ⟨rfl, rfl⟩ | ⟨rfl, rfl⟩) | rfl := h <;> simp [overflowCode]

theorem overflowCode_inf (h : ¬Cuts r neg) (hf : f ≠ .e2m1) :
    overflowCode f r false neg = if fHasInf f then fSign f neg + fInf f else fNaN f := by
  cases r <;> cases neg <;> simp_all [Cuts, overflowCode]

/-- V rounds as m * 2 ^ e does, at the precision of f. -/
structure RoundsLike (f : FFmt) (r : Rnd) (neg : Bool) (m : Nat) (e : Int) (V : ℝ) : Prop where
  lower : (2 : ℝ) ^ (e + bitLen m - 1) ≤ V
  upper : V < 2 ^ (e + bitLen m)
  grid  : ∀ q, unboundedPlace f m e ≤ q → OnGrid r neg V q (onGrid r neg m e q)

theorem RoundsLike.self (hm : m ≠ 0) : RoundsLike f r neg m e (dyad m e) :=
  ⟨(dyad_bounds hm e).1, (dyad_bounds hm e).2, fun q _ => onGrid_onGrid r neg m e q⟩

variable {V : ℝ}

namespace RoundsLike

theorem placed (h : RoundsLike f r neg m e V) : Placed f r neg V (lastPlace f m e) (atLastPlace f r neg m e).1 where
  least := le_max_right _ _
  full := by
    unfold lastPlace
    rcases le_total (unboundedPlace f m e) (fQmin f) with le | le
    · exact .inl (max_eq_right le)
    · rw [max_eq_left le, unboundedPlace]
      refine .inr ((two_zpow_le ?_).trans h.lower)
      omega
  below := by
    refine h.upper.trans_le (two_zpow_le ?_)
    have := le_max_left (unboundedPlace f m e) (fQmin f)
    unfold lastPlace
    unfold unboundedPlace at this ⊢
    omega
  pos := (two_zpow_pos _).trans_le h.lower
  rounds := (h.grid _ (le_max_left _ _)).rounds

theorem unbounded (h : RoundsLike f r neg m e V) :
    Unbounded f r neg V (unboundedPlace f m e) (onGrid r neg m e (unboundedPlace f m e)).1 where
  full := by
    refine (two_zpow_le ?_).trans h.lower
    unfold unboundedPlace
    omega
  below := by
    refine h.upper.trans_le (two_zpow_le ?_)
    unfold unboundedPlace
    omega
  rounds := (h.grid _ le_rfl).rounds

theorem exceeds_iff (h : RoundsLike f r neg m e V) :
    Exceeds f r neg (fun a x => dyad a x ≤ V) (fun a x => V ≤ dyad a x) ↔ overflows f r neg m e = true :=
  h.placed.exceeds_iff.trans (ltScaled_iff _ _ _ _).symm

theorem tiny_iff (h : RoundsLike f r neg m e V) :
    Tiny f r neg (fun a x => dyad a x ≤ V) (fun a x => V ≤ dyad a x) ↔ tinyAt f r neg m e = true := by
  rw [h.unbounded.tiny_iff, tinyAt, ltScaled_iff]
  simp [dyad]

/-- What rounds like m * 2 ^ e and does not overflow is rounded by roundFin, saturating or not. -/
theorem rounded_fits (h : RoundsLike f r neg m e V) (hm : m ≠ 0) (sat : Bool) (ho : overflows f r neg m e = false) :
    Rounded f r neg (fun a x => dyad a x ≤ V) (fun a x => V ≤ dyad a x) (roundFin f r sat neg m e) := by
  refine ⟨fun ex => ?_, fun _ => ?_⟩
  · rw [h.exceeds_iff, ho] at ex
    exact absurd ex Bool.false_ne_true
  have fits : dyad (atLastPlace f r neg m e).1 (lastPlace f m e) ≤ dyad (fMaxM f) (fMaxE f) := by
    rw [← not_lt, ← ltScaled_iff]
    exact Bool.eq_false_iff.1 ho
  obtain ⟨-, parity, n, x, code, value⟩ := fDecode_gridCode h.placed.inFormat fits neg
  have exact_iff : (atLastPlace f r neg m e).2 = true ↔ dyad n x ≤ V ∧ V ≤ dyad n x := by
    rw [← le_antisymm_iff, value]
    exact (h.grid (lastPlace f m e) (le_max_left _ _)).exact.trans eq_comm
  rw [roundFin_fits sat hm ho]
  refine ⟨?_, fun hc => h.placed.isBelow hc code value, fun hr hc => h.placed.isAbove hr hc code value, n, x, code, fun le ge => ?_,
    fun ne => ⟨fun tiny => ?_, fun tiny => ?_⟩⟩
  · rintro rfl
    exact h.placed.nearest code value parity
  · exact if_pos (exact_iff.2 ⟨le, ge⟩)
  · exact (if_neg (mt exact_iff.1 ne)).trans (if_pos (h.tiny_iff.1 tiny))
  · exact (if_neg (mt exact_iff.1 ne)).trans (if_neg (mt h.tiny_iff.2 tiny))

/-- One rounding of what rounds like m * 2 ^ e. -/
theorem rounded (h : RoundsLike f r neg m e V) (hm : m ≠ 0) :
    Rounded f r neg (fun a x => dyad a x ≤ V) (fun a x => V ≤ dyad a x) (roundFin f r false neg m e) := by
  cases ho : overflows f r neg m e
  · exact h.rounded_fits hm false ho
  refine ⟨fun _ => ?_, fun ex => absurd (h.exceeds_iff.2 ho) ex⟩
  rw [roundFin_overflow false hm ho]
  exact ⟨rfl, overflowCode_max, overflowCode_inf⟩

end RoundsLike

end

end Sys2Proof.Machine

/-!
PROOF. Sums, products and fused products (O12).
-/

namespace Sys2Proof.Machine

open Claim

/-- Zero exceeds no format. -/
theorem not_exceeds_zero (f : FFmt) (r : Rnd) (neg : Bool) : ¬Exceeds f r neg (fun a x => dyad a x ≤ 0) (fun a x => 0 ≤ dyad a x) := by
  intro ex
  obtain ⟨near, cut, away⟩ := exceeds_iff_bounds.1 ex
  have largest := dyad_nonneg (fMaxM f) (fMaxE f)
  have place := two_zpow_pos (fMaxE f)
  exact mode_cases r neg (fun hr => by linarith [(near hr).1]) (fun hc => by linarith [cut hc]) (fun hr hc => by linarith [away hr hc])

/-- Zero is its own rounding. -/
theorem rounded_zero (f : FFmt) (r : Rnd) (neg : Bool) :
    Rounded f r neg (fun a x => dyad a x ≤ 0) (fun a x => 0 ≤ dyad a x) ⟨fSign f neg, 0⟩ := by
  have code := fDecode_fSign f neg
  have zero : dyad 0 (fQmin f) = 0 := dyad_zero _
  refine ⟨fun ex => (not_exceeds_zero f r neg ex).elim, fun _ =>
    ⟨?_, fun _ => ?_, fun _ _ => ?_, 0, fQmin f, code, fun _ _ => rfl, fun ne => ?_⟩⟩
  · rintro rfl
    refine ⟨0, fQmin f, code, fun y n x _ => ?_⟩
    simp only [dyad_mid, atMost_iff, not_le, zero]
    refine ⟨fun lt => ⟨by linarith, fun _ => fSign_even f neg⟩, fun lt => absurd lt (not_lt.2 (dyad_nonneg n x))⟩
  · exact ⟨0, fQmin f, code, zero.le, fun y n x _ hn => by rwa [atMost_iff, zero]⟩
  · exact ⟨0, fQmin f, code, zero.ge, fun y n x _ _ => by rw [atMost_iff, zero]; exact dyad_nonneg n x⟩
  · exact absurd ⟨zero.le, zero.ge⟩ ne

/-- roundFin is the one rounding of a finite value. -/
theorem roundFin_roundsTo (f : FFmt) (r : Rnd) (neg : Bool) (m : Nat) (e : Int) : RoundsTo f r neg m e (roundFin f r false neg m e) := by
  unfold RoundsTo
  simp only [atMost_iff]
  by_cases hm : m = 0
  · subst hm
    simp only [dyad_zero, roundFin_zero]
    exact rounded_zero f r neg
  · exact (RoundsLike.self hm).rounded hm

/-! ### Sums, products, fused products (R129, R254) -/

section
variable (f : FFmt) (r : Rnd) {a b c : FVal} {na nb nc : Bool} {m n k : Nat} {e e' e₂ : Int}

theorem fAdd_nan (h : isNan a = true ∨ isNan b = true) : fAdd r a b = (.nan false, false) := by
  cases a <;> cases b <;> simp_all [isNan, fAdd]

theorem fMul_nan (h : isNan a = true ∨ isNan b = true) : fMul a b = (.nan false, false) := by
  cases a <;> cases b <;> simp_all [isNan, fMul]

theorem fFmaR_nan (h : isNan a = true ∨ isNan b = true ∨ isNan c = true) : (fFmaR f r a b c).code = fNaN f := by
  have sum : fAdd r (fMul a b).1 c = (.nan false, false) := by
    refine fAdd_nan r ?_
    obtain h | h | h := h
    · rw [fMul_nan (.inl h)]
      exact .inl rfl
    · rw [fMul_nan (.inr h)]
      exact .inl rfl
    · exact .inr h
  unfold fFmaR
  dsimp only
  rw [sum]
  rfl

/-- A status that an operation raises is set. -/
theorem or_invalid (x : Word32) (p : Bool) (h : p = true) : (x ||| invIf p) &&& fINVALID = fINVALID := by
  subst h
  ext i
  simp [invIf]
  tauto

/-- A NaN that arises from operands that are none is the canonical one, and invalid; in a fused product, whatever is added. -/
theorem fAddR_invalid (h : fAdd r a b = (.nan false, true)) :
    (fAddR f r a b).code = fNaN f ∧ (fAddR f r a b).flags &&& fINVALID = fINVALID := by
  unfold fAddR
  rw [h]
  exact ⟨rfl, or_invalid _ _ rfl⟩

theorem fMulR_invalid (h : fMul a b = (.nan false, true)) :
    (fMulR f r a b).code = fNaN f ∧ (fMulR f r a b).flags &&& fINVALID = fINVALID := by
  unfold fMulR
  rw [h]
  exact ⟨rfl, or_invalid _ _ rfl⟩

theorem fFmaR_invalid (h : fMul a b = (.nan false, true)) :
    (fFmaR f r a b c).code = fNaN f ∧ (fFmaR f r a b c).flags &&& fINVALID = fINVALID := by
  have sum : fAdd r (.nan false) c = (.nan false, false) := by cases c <;> rfl
  unfold fFmaR
  rw [h]
  dsimp only
  rw [sum]
  exact ⟨rfl, or_invalid _ _ rfl⟩

/-- No status is raised for operands that are no NaN beside that of the rounding. -/
theorem or_quiet (x : FR) : (⟨x.code, x.flags ||| invIf (false || false || false)⟩ : FR) = x := by
  simp [invIf]

theorem fMulR_fin : fMulR f r (.fin na m e) (.fin nb n e') = roundFin f r false (na != nb) (m * n) (e + e') := or_quiet _

/-- The exact sum of two finite values, on the finer of their grids. -/
def exactSum (na : Bool) (m : Nat) (e : Int) (nb : Bool) (n : Nat) (e' : Int) : Int :=
  (if na then -1 else 1) * (m * 2 ^ (e - min e e').toNat : Nat) + (if nb then -1 else 1) * (n * 2 ^ (e' - min e e').toNat : Nat)

theorem fAdd_fin : fAdd r (.fin na m e) (.fin nb n e') = if exactSum na m e nb n e' = 0
    then (.fin (if na == nb then na else r == .rd) 0 0, false)
    else (.fin (decide (exactSum na m e nb n e' < 0)) (exactSum na m e nb n e').natAbs (min e e'), false) := by
  unfold fAdd exactSum
  cases na <;> cases nb <;> simp

theorem fAddR_fin : fAddR f r (.fin na m e) (.fin nb n e') = if exactSum na m e nb n e' = 0
    then ⟨fSign f (if na == nb then na else r == .rd), 0⟩
    else roundFin f r false (decide (exactSum na m e nb n e' < 0)) (exactSum na m e nb n e').natAbs (min e e') := by
  unfold fAddR
  rw [fAdd_fin]
  by_cases h : exactSum na m e nb n e' = 0
  · rw [if_pos h, if_pos h]
    exact or_quiet ⟨_, 0⟩
  · rw [if_neg h, if_neg h]
    exact or_quiet _

theorem fFmaR_fin : fFmaR f r (.fin na m e) (.fin nb n e') (.fin nc k e₂) = fAddR f r (.fin (na != nb) (m * n) (e + e')) (.fin nc k e₂) := by
  simp [fFmaR, fAddR, fMul, isSig]

theorem overflowCode_finite_or_inf (sat neg : Bool) : overflowCode f r sat neg = fSign f neg + fMax f ∨
    (fHasInf f = true → overflowCode f r sat neg = fSign f neg + fInf f) :=
  (ite_eq_or_eq _ _ _).imp id fun h hf => h.trans (if_pos hf)

/-- The magnitude of a code that rounding gives leaves the sign alone, in a format with infinities. -/
theorem roundFin_sign (hf : fHasInf f = true) (sat : Bool) :
    (roundFin f r sat na m e).code / 2 ^ (fBits f - 1) = if na then 1 else 0 := by
  have sign {j : Nat} (h : j < 2 ^ (fMbits f + fEbits f)) : (fSign f na + j) / 2 ^ (fBits f - 1) = if na then 1 else 0 := by
    have width : fBits f - 1 = fMbits f + fEbits f := by
      unfold fBits
      omega
    rw [width, fSign_eq, Nat.mul_comm, Nat.mul_add_div (by positivity), Nat.div_eq_of_lt h]
    cases na <;> rfl
  have largest : fMax f < 2 ^ (fMbits f + fEbits f) := by cases f <;> decide
  have infinity : fInf f < 2 ^ (fMbits f + fEbits f) := by cases f <;> decide
  by_cases hm : m = 0
  · subst hm
    exact sign (j := 0) (by positivity)
  cases ho : overflows f r na m e
  · rw [roundFin_fits sat hm ho]
    refine sign (lt_of_le_of_lt ?_ largest)
    have fits : dyad (atLastPlace f r na m e).1 (lastPlace f m e) ≤ dyad (fMaxM f) (fMaxE f) := by
      rw [← not_lt, ← ltScaled_iff]
      exact Bool.eq_false_iff.1 ho
    exact (fDecode_gridCode (RoundsLike.self hm).placed.inFormat fits na).1
  · rw [roundFin_overflow sat hm ho]
    obtain h | h := overflowCode_finite_or_inf (f := f) r sat na
    · exact h ▸ sign largest
    · exact h hf ▸ sign infinity

end

/-- Settles O12: sums, products and fused products of finite values by the one rounding of roundFin, the others case by case. -/
theorem floatRules : Obligations.FloatRules := by
  unfold Obligations.FloatRules
  intro f r a b c na nb nc m n k e e' e₂
  have inf : fAdd r (.inf na) (.inf !na) = (.nan false, true) := by cases na <;> rfl
  refine ⟨fun h => ⟨?addNan, ?mulNan⟩, fFmaR_nan f r, (fAddR_invalid f r inf).1, (fAddR_invalid f r inf).2, (fMulR_invalid f r rfl).1,
    (fMulR_invalid f r rfl).1, (fMulR_invalid f r rfl).2, (fMulR_invalid f r rfl).2, (fFmaR_invalid f r rfl).1,
    (fFmaR_invalid f r rfl).2, (fFmaR_invalid f r rfl).1, (fFmaR_invalid f r rfl).2, ?zeros, ?cancel, ?zero, ?mul, fun h => ?add,
    fun h => ?fma, fun hf => ⟨fun hm => ⟨?infFin, ?finInf⟩, ?infInf, ?sign⟩, by decide, by decide, by decide, by decide⟩
  case addNan =>
    unfold fAddR
    rw [fAdd_nan r h]
    rfl
  case mulNan =>
    unfold fMulR
    rw [fMul_nan h]
    rfl
  case zeros =>
    rw [fAddR_fin, if_pos (by simp [exactSum])]
    simp
  case cancel =>
    rw [fAddR_fin, if_pos (by cases na <;> simp [exactSum])]
    simp
  case zero =>
    rw [fMulR_fin, Nat.zero_mul]
    rfl
  case mul =>
    rw [fMulR_fin]
    exact roundFin_roundsTo _ _ _ _ _
  case add =>
    rw [fAddR_fin]
    exact (if_neg h).symm ▸ roundFin_roundsTo _ _ _ _ _
  case fma =>
    have sign : (if na = nb then (1 : Int) else -1) = if (na != nb) = true then -1 else 1 := by cases na <;> cases nb <;> rfl
    rw [sign] at h ⊢
    rw [fFmaR_fin, fAddR_fin]
    exact (if_neg h).symm ▸ roundFin_roundsTo _ _ _ _ _
  case infFin => simp [fMulR, fMul, hm, fRound, hf, isSig, invIf]
  case finInf => simp [fMulR, fMul, hm, fRound, hf, isSig, invIf]
  case infInf => simp [fMulR, fMul, fRound, hf, isSig, invIf]
  case sign =>
    rw [fMulR_fin, roundFin_sign f r hf]
    cases na <;> cases nb <;> rfl

end Sys2Proof.Machine

/-!
PROOF. Results on their way (R233, R247), and the conversions (O11).
-/

namespace Sys2Proof.Machine

open Claim

/-! ### Instructions whose results are written later -/

theorem onItsWay_mono {s t : State} {wid id last n m : Nat} {ws : List RegW} {stat : Word32} (h : OnItsWay s t wid id last n ws stat)
    (hm : n ≤ m) : OnItsWay s t wid id last m ws stat :=
  h.imp_right fun ⟨k, hk, due⟩ => ⟨k, hk.trans hm, due⟩

/-- The register writes and the status bits of an instruction's threads. -/
def landed (outs : List FOut) : List RegW × Word32 := (outs.flatMap (·.writes), outs.foldl (fun a o => a ||| o.stat) 0)

section
variable {i : Instr} {cyc : State → Nat} {n : Nat}

/-- What an instruction of this kind gives for each thread, from the registers as they read whatever window has opened, is on its
way. -/
theorem sends_computeLater {sc : Bool} {g : Wave → Nat → Nat → FOut} (he : ∀ s, exec i s = computeLater i sc cyc g s) (hc : ∀ s, cyc s ≤ n)
    (hg : ∀ (v : Wave) m free x, g { v with win := m } free x = g v free x := by intros; rfl) :
    Sends i n fun s w act => landed ((lanesOf sc act).map (g w s.sch.free)) := by
  intro s c w h
  obtain ⟨t, ht, later⟩ := computeLater_next h sc cyc g
  have own : g (opened s c w) s.sch.free = g w s.sch.free :=
    opened_reads (fun v => g v s.sch.free) fun v m => funext (hg v m _)
  rw [own] at later
  exact ⟨t, (he s).trans ht, onItsWay_mono (landLater_onItsWay _ _ _ later) (hc _)⟩

/-- Pairs in the place of what threads give. -/
theorem landed_map (ts : List Nat) (g : Nat → FOut) :
    landed (ts.map g) = (let all := ts.map fun x => ((g x).writes, (g x).stat)
      (all.flatMap (·.1), all.foldl (fun m y => m ||| y.2) 0)) := by
  simp only [landed, List.flatMap_map, List.foldl_map]

/-- A floating-point or conversion instruction of up to three words, whose meaning is e, sends its results. -/
theorem sends_flt32 {o : Flt} {k : Nat} {f : In3 → FR} {e : State → Out} (he : ∀ s, exec i s = e s := by intros; rfl)
    (hf : ∀ s, e s = flt32 i o k cyc f s := by intros; rfl) (hc : ∀ s, cyc s ≤ n) :
    Sends i n (floats o k fun a b c => f ⟨a, b, c⟩) := by
  have sent := sends_computeLater (he := fun s => (he s).trans (hf s)) hc
  simp only [landed_map] at sent
  exact sent

end

/-! ### Conversions between formats (R131, R132) -/

section
variable {f : FFmt} {r : Rnd} {neg : Bool} {m : Nat} {e : Int}

/-- What exceeds a format is not zero, and overflows. -/
theorem overflows_of_exceeds (h : Exceeds f r neg (fun a z => AtMost a z m e) (fun a z => AtMost m e a z)) :
    m ≠ 0 ∧ overflows f r neg m e = true := by
  simp only [atMost_iff] at h
  have hm : m ≠ 0 := by
    rintro rfl
    rw [dyad_zero] at h
    exact (not_exceeds_zero f r neg) h
  exact ⟨hm, (RoundsLike.self hm).exceeds_iff.1 h⟩

/-- A saturating conversion gives the largest finite value where the rounded one exceeds it. -/
theorem roundFin_saturates (h : Exceeds f r neg (fun a z => AtMost a z m e) (fun a z => AtMost m e a z)) :
    roundFin f r true neg m e = ⟨fSign f neg + fMax f, fOVERFLOW ||| fINEXACT⟩ := by
  obtain ⟨hm, ho⟩ := overflows_of_exceeds h
  exact roundFin_overflow true hm ho

/-- Where nothing exceeds the format, a saturating conversion is the one rounding. -/
theorem roundFin_sat_eq (h : ¬Exceeds f r neg (fun a z => AtMost a z m e) (fun a z => AtMost m e a z)) :
    roundFin f r true neg m e = roundFin f r false neg m e := by
  by_cases hm : m = 0
  · subst hm
    rfl
  simp only [atMost_iff] at h
  have ho := Bool.eq_false_iff.2 (mt (RoundsLike.self hm).exceeds_iff.2 h)
  rw [roundFin_fits true hm ho, roundFin_fits false hm ho]

theorem fRound_inf (d : FFmt) (r : Rnd) (sat neg : Bool) : fRound d r sat (.inf neg) =
    if sat = true ∨ d = .e2m1 then ⟨fSign d neg + fMax d, fINVALID⟩
    else if d = .e4m3 then ⟨0x7F, fINVALID⟩ else ⟨fSign d neg + fInf d, 0⟩ := by
  cases sat <;> cases d <;> simp [fRound, fHasInf, fNaN]

end

/-! ### Integers (R131) -/

section
variable (r : Rnd) (neg : Bool) (m : Nat) (e : Int)

theorem dyad_neg (h : e < 0) : dyad m e = m / ((2 ^ (-e).toNat : Nat) : ℝ) := by
  rw [dyad, ← div_inv_eq_mul, ← zpow_neg, ← Int.toNat_of_nonneg (show 0 ≤ -e by omega), zpow_natCast, Int.toNat_natCast]
  push_cast
  rfl

/-- A value on the grid of the integers is rounded to one. -/
theorem onGrid_roundsToInt : RoundsToInt r neg m e (onGrid r neg m e 0).1 := by
  have rounds := (onGrid_onGrid r neg m e 0).rounds
  refine ⟨fun h => ?_, fun h => ?_⟩
  · unfold onGrid
    rw [if_pos h, sub_zero]
  · have pos : (0 : ℝ) < (2 ^ (-e).toNat : Nat) := by positivity
    have hd : 0 < 2 ^ (-e).toNat := by positivity
    rw [zpow_zero, div_one, dyad_neg m e h] at rounds
    generalize (onGrid r neg m e 0).1 = k at rounds ⊢
    generalize 2 ^ (-e).toNat = d at rounds pos hd ⊢
    refine ⟨fun hc => ?_, fun hr hc => ?_, fun hr => ?_⟩
    · obtain ⟨lo, hi⟩ := rounds.cut hc
      rw [le_div_iff₀ pos] at lo
      rw [div_lt_iff₀ pos] at hi
      exact (Nat.div_eq_of_lt_le (by exact_mod_cast lo) (by exact_mod_cast hi)).symm
    · obtain ⟨lo, hi⟩ := rounds.away hr hc
      rw [lt_div_iff₀ pos, sub_mul, one_mul, sub_lt_iff_lt_add] at lo
      rw [div_le_iff₀ pos] at hi
      have lo : k * d < m + d := by exact_mod_cast lo
      have hi : m ≤ k * d := by exact_mod_cast hi
      refine (Nat.div_eq_of_lt_le (by omega) ?_).symm
      rw [Nat.add_mul]
      omega
    · obtain ⟨up, lo, tie⟩ := rounds.near hr
      rw [← mul_div_assoc] at up lo tie
      rw [div_le_iff₀ pos] at up
      rw [le_div_iff₀ pos, sub_mul, sub_le_iff_le_add, one_mul] at lo
      rw [le_div_iff₀ pos, div_le_iff₀ pos, sub_mul, le_sub_iff_add_le, one_mul] at tie
      have up : 2 * m ≤ (2 * k + 1) * d := by exact_mod_cast up
      have lo : 2 * k * d ≤ 2 * m + d := by exact_mod_cast lo
      have tie : (2 * k + 1) * d ≤ 2 * m ∨ 2 * m + d ≤ 2 * k * d → k % 2 = 0 := by exact_mod_cast tie
      rw [Nat.add_mul, Nat.one_mul] at up tie
      exact ⟨lo, up, fun t => tie (t.symm.imp (fun t => t.ge) fun t => t.ge)⟩

theorem AtMost.antisymm_iff {a b : Nat} {x y : Int} : dyad a x = dyad b y ↔
    a * 2 ^ (x - min x y).toNat = b * 2 ^ (y - min x y).toNat := by
  simp only [le_antisymm_iff, ← atMost_iff, AtMost, min_comm y x]

/-- The rounding to an integer is exact where the two are equal. -/
theorem onGrid_exact : (onGrid r neg m e 0).2 = true ↔ (onGrid r neg m e 0).1 * 2 ^ (-e).toNat = m * 2 ^ e.toNat := by
  rw [(onGrid_onGrid r neg m e 0).exact, AtMost.antisymm_iff, eq_comm]
  rcases le_total e 0 with h | h
  · rw [min_eq_left h, Int.toNat_of_nonpos h, sub_self, zero_sub]
    rfl
  · rw [min_eq_right h, sub_zero, sub_zero, Int.toNat_of_nonpos (show -e ≤ 0 by omega)]
    rfl

end

/-! ### F2I and FRND (R131, R256) -/

theorem fToI_fin (ty : IType) (r : Rnd) (neg : Bool) (m : Nat) (e : Int) : fToI ty r (.fin neg m e) =
    (let k := (onGrid r neg m e 0).1
     let v : Int := if neg then -(k : Int) else k
     if v < iMin ty then (iMin ty, fINVALID) else if iMax ty < v then (iMax ty, fINVALID)
     else (v, if (onGrid r neg m e 0).2 then 0 else fINEXACT)) := rfl

theorem iMin_le_iMax (ty : IType) : iMin ty ≤ iMax ty := by cases ty <;> decide

/-- An integer of up to 24 bits is a value of FP32: rounding gives it back. -/
theorem fDecode_roundFin_nat (r : Rnd) (neg : Bool) {k : Nat} (hk : k < 2 ^ 24) :
    ∃ n y, fDecode .f32 (roundFin .f32 r false neg k 0).code = .fin neg n y ∧ dyad n y = dyad k 0 := by
  by_cases h0 : k = 0
  · subst h0
    exact ⟨0, _, fDecode_fSign .f32 neg, by simp⟩
  have bits : bitLen k ≤ 24 := by
    by_contra lt
    have lo := (bitLen_bounds h0).1
    have : 2 ^ 24 ≤ 2 ^ (bitLen k - 1) := Nat.pow_le_pow_right two_pos (by omega)
    omega
  have place : lastPlace .f32 k 0 ≤ 0 := by
    unfold lastPlace unboundedPlace
    exact max_le (by simp [fMbits]; omega) (by decide)
  have value : dyad (atLastPlace .f32 r neg k 0).1 (lastPlace .f32 k 0) = dyad k 0 := by
    unfold atLastPlace onGrid
    rw [if_pos place]
    exact dyad_shift k place
  have fits : dyad (atLastPlace .f32 r neg k 0).1 (lastPlace .f32 k 0) ≤ dyad (fMaxM .f32) (fMaxE .f32) := by
    rw [value]
    exact (atMost_iff _ _ _ _).1 (by unfold AtMost; simp [fMaxM, fMaxE, fMbits, fBias]; omega)
  have ho : overflows .f32 r neg k 0 = false := by
    rw [← Bool.not_eq_true, overflows, ltScaled_iff]
    exact not_lt.2 fits
  obtain ⟨-, -, n, y, code, same⟩ := fDecode_gridCode (RoundsLike.self h0).placed.inFormat fits neg
  exact ⟨n, y, by rw [roundFin_fits false h0 ho]; exact code, same.trans value⟩

/-- A fraction rounds to an integer of no more bits. -/
theorem onGrid_le (r : Rnd) (neg : Bool) (m : Nat) {e : Int} (h : e ≤ 0) : (onGrid r neg m e 0).1 ≤ m := by
  refine (onGrid_onGrid r neg m e 0).rounds.le_of_le ?_
  rw [zpow_zero, div_one]
  exact (mul_le_mul_of_nonneg_left (two_zpow_le h) m.cast_nonneg).trans_eq (by simp)

/-- FRND gives an integer, the operand's own where that is one. -/
theorem fRnd_rounds (r : Rnd) {x m : Nat} {neg : Bool} {e : Int} (h : fDecode .f32 x = .fin neg m e) :
    (∃ n y, fDecode .f32 (fRnd r x).code = .fin neg n y ∧ dyad n y = dyad (onGrid r neg m e 0).1 0) ∧ (fRnd r x).flags = 0 := by
  unfold fRnd
  rw [h]
  dsimp only
  by_cases he : 0 ≤ e
  · rw [if_pos he]
    refine ⟨⟨m, e, h, ?_⟩, rfl⟩
    unfold onGrid
    rw [if_pos he]
    exact (dyad_shift m he).symm
  · rw [if_neg he]
    have small : (onGrid r neg m e 0).1 < 2 ^ 24 := (onGrid_le r neg m (by omega)).trans_lt (fDecode_fin h).1
    exact ⟨fDecode_roundFin_nat .rn neg small, rfl⟩

/-- Settles O11: what each instruction sends, then a conversion of each kind of value by the one rounding of roundFin. -/
theorem conversions : Obligations.Conversions := by
  unfold Obligations.Conversions
  refine ⟨fun o d sf sat j k ty => ⟨?fcvt, ?fcvtx, ?i2f, ?f2i, ?fcvtp⟩, fun d sf r sat x hx => ?formats, fun r v => roundFin_roundsTo _ _ _ _ _,
    fun ty r sig neg => ⟨rfl, rfl⟩, fun ty r neg m e => ⟨_, onGrid_roundsToInt r neg m e, ?low, ?high, ?mid⟩, fun r x m neg e h => ?frnd⟩
  case fcvt =>
    exact sends_flt32 (i := .fcvt d sf sat o) (e := execFcvt d sf sat o) (f := fun x => fCvt d sf o.rnd sat x.a.toNat)
      (hc := fun _ => le_rfl)
  case fcvtx =>
    exact sends_flt32 (i := .fcvtx sf k o) (e := execFcvtx sf k o)
      (f := fun x => fCvt .f32 sf .rn false (x.a.toNat / 2 ^ (fBits sf * k.toNat))) (hc := fun _ => le_rfl)
  case i2f =>
    exact sends_flt32 (i := .i2f ty o) (e := execI2f ty o) (f := fun x => fRound .f32 o.rnd false (fOfInt (tyExt ty x.a)))
      (hc := fun _ => le_rfl)
  case f2i =>
    exact sends_flt32 (i := .f2i ty o) (e := execF2i ty o)
      (f := fun x => ⟨(tyFit ty false (fToI ty o.rnd (f32 x.a)).1).toNat, (fToI ty o.rnd (f32 x.a)).2⟩) (hc := fun _ => le_rfl)
  case fcvtp =>
    have sent := sends_computeLater (i := .fcvtp d sat j o) (n := 4) (he := fun s => (rfl : _ = execFcvtp d sat j o s)) fun _ => le_rfl
    simp only [landed_map] at sent
    exact sent
  case formats =>
    have code : fCvt d sf r sat x = fRound d r sat (fDecode sf x) := by rw [fCvt, Nat.mod_eq_of_lt hx]
    rw [code]
    refine ⟨fun sig h => ?_, fun neg h => h ▸ fRound_inf d r sat neg, fun neg m e h => ⟨?_, ?_, ?_⟩⟩
    · rw [h]
      simp [fRound]
    all_goals rw [h]
    · rintro rfl
      exact roundFin_roundsTo d r neg m e
    · rintro rfl ex
      exact roundFin_saturates ex
    · rintro rfl ex
      rw [show fRound d r true (.fin neg m e) = roundFin d r true neg m e from rfl, roundFin_sat_eq ex]
      exact roundFin_roundsTo d r neg m e
  case low => exact fun lt => (fToI_fin ty r neg m e).trans (if_pos lt)
  case high =>
    have le := iMin_le_iMax ty
    exact fun lt => (fToI_fin ty r neg m e).trans ((if_neg (not_lt.2 (le.trans lt.le))).trans (if_pos lt))
  case mid =>
    refine fun lo hi => (fToI_fin ty r neg m e).trans ((if_neg (not_lt.2 lo)).trans ((if_neg (not_lt.2 hi)).trans ?_))
    simp only [← onGrid_exact]
  case frnd =>
    obtain ⟨⟨n, y, code, value⟩, flags⟩ := fRnd_rounds r h
    exact ⟨_, n, y, onGrid_roundsToInt r neg m e, code, (atMost_iff _ _ _ _).2 value.le, (atMost_iff _ _ _ _).2 value.ge, flags⟩

end Sys2Proof.Machine

/-!
PROOF. The special functions (O10).
-/

namespace Sys2Proof.Machine

open Claim

/-! ### A sticky last bit -/

/-- Two numbers that compare alike with every half of an integer round alike. -/
theorem RoundsReal.congr {r : Rnd} {neg : Bool} {v w : ℝ} {k : Nat} (h : RoundsReal r neg v k) (lo : ∀ t : Int, t ≤ 2 * v ↔ t ≤ 2 * w)
    (hi : ∀ t : Int, 2 * v ≤ t ↔ 2 * w ≤ t) : RoundsReal r neg w k := by
  have up := hi (2 * k + 1)
  have down := lo (2 * k - 1)
  have tieUp := lo (2 * k + 1)
  have tieDown := hi (2 * k - 1)
  have ge := lo (2 * k)
  have lt := lo (2 * k + 2)
  have gt := hi (2 * k - 2)
  have le := hi (2 * k)
  push_cast at up down tieUp tieDown ge lt gt le
  refine ⟨fun hr => ?_, fun hc => ?_, fun hr hc => ?_⟩
  · rw [← up, ← down, ← tieUp, ← tieDown]
    exact h.near hr
  · obtain ⟨a, b⟩ := h.cut hc
    have a := ge.1 (by linarith)
    have b := mt lt.2 (by linarith)
    exact ⟨by linarith, by linarith⟩
  · obtain ⟨a, b⟩ := h.away hr hc
    have a := mt gt.2 (by linarith)
    have b := le.1 (by linarith)
    exact ⟨by linarith, by linarith⟩

/-- A number strictly between two neighbours on a grid compares alike with every number of the grid. -/
theorem grid_between {j : Nat} {e : Int} {S V : ℝ} (hS : dyad j e < S ∧ S < dyad (j + 1) e) (hV : dyad j e < V ∧ V < dyad (j + 1) e)
    (t : Int) : (t * 2 ^ e ≤ S ↔ t * 2 ^ e ≤ V) ∧ (S ≤ t * 2 ^ e ↔ V ≤ t * 2 ^ e) := by
  have pos := two_zpow_pos e
  simp only [dyad] at hS hV
  push_cast at hS hV
  rcases le_or_gt t j with h | h
  · have : (t : ℝ) * 2 ^ e ≤ j * 2 ^ e := mul_le_mul_of_nonneg_right (by exact_mod_cast h) pos.le
    exact ⟨iff_of_true (by linarith) (by linarith), iff_of_false (by linarith) (by linarith)⟩
  · have : ((j : ℝ) + 1) * 2 ^ e ≤ t * 2 ^ e := mul_le_mul_of_nonneg_right (by exact_mod_cast h) pos.le
    exact ⟨iff_of_false (by linarith) (by linarith), iff_of_true (by linarith) (by linarith)⟩

/-- A number with j places of 2 ^ e and a rest rounds, on a grid of 2 ^ (e + 1) or coarser, as these with a sticky bit. -/
theorem onGrid_sticky {r : Rnd} {neg : Bool} {j : Nat} {e q : Int} {V : ℝ} (hV : dyad j e < V ∧ V < dyad (j + 1) e) (hq : e + 1 ≤ q) :
    OnGrid r neg V q (onGrid r neg (2 * j + 1) (e - 1) q) := by
  have pos := two_zpow_pos q
  have hS : dyad j e < dyad (2 * j + 1) (e - 1) ∧ dyad (2 * j + 1) (e - 1) < dyad (j + 1) e := by
    rw [dyad_half, dyad_succ]
    have := two_zpow_pos e
    constructor <;> linarith
  obtain ⟨rounds, exact_iff⟩ := onGrid_onGrid r neg (2 * j + 1) (e - 1) q
  have half (t : Int) : (t : ℝ) * 2 ^ q = 2 * ((t * 2 ^ (q - 1 - e).toNat : Int) * 2 ^ e) := by
    have split : (2 : ℝ) ^ q = 2 * (2 ^ (q - 1 - e).toNat * 2 ^ e) := by
      rw [← zpow_natCast, ← two_zpow_add, ← zpow_one_add₀ two_ne_zero]
      congr 1
      omega
    rw [split]
    push_cast
    ring
  have between (t : Int) := grid_between hS hV (t * 2 ^ (q - 1 - e).toNat)
  refine ⟨rounds.congr (fun t => ?_) (fun t => ?_), exact_iff.trans ?_⟩
  · rw [← mul_div_assoc, ← mul_div_assoc, le_div_iff₀ pos, le_div_iff₀ pos, half, mul_le_mul_iff_right₀ two_pos,
      mul_le_mul_iff_right₀ two_pos]
    exact (between t).1
  · rw [← mul_div_assoc, ← mul_div_assoc, div_le_iff₀ pos, div_le_iff₀ pos, half, mul_le_mul_iff_right₀ two_pos,
      mul_le_mul_iff_right₀ two_pos]
    exact (between t).2
  · generalize (onGrid r neg (2 * j + 1) (e - 1) q).1 = k
    have grid : dyad k q = ((2 * k * 2 ^ (q - 1 - e).toNat : Int) : ℝ) * 2 ^ e := by
      have := half k
      rw [dyad]
      push_cast at this ⊢
      linarith
    rw [grid, le_antisymm_iff, le_antisymm_iff]
    exact and_congr (grid_between hS hV _).2 (grid_between hS hV _).1

theorem bitLen_sticky {j : Nat} (hj : j ≠ 0) (b : Bool) : bitLen (2 * j + if b then 1 else 0) = bitLen j + 1 := by
  have half : (2 * j + if b then 1 else 0) / 2 = j := by
    cases b
    · simp
    · simp
      omega
  rw [bitLen, bitLen, if_neg (by omega), if_neg hj, Nat.log2_def, if_pos (by omega), half]

/-- V, of j places of 2 ^ e and perhaps a rest, rounds as these with a sticky bit, once j has more bits than the format. -/
theorem RoundsLike.sticky {f : FFmt} {r : Rnd} {neg : Bool} {j : Nat} {e : Int} {V : ℝ} {rest : Bool} (big : 2 ^ (fMbits f + 1) ≤ j)
    (lo : dyad j e ≤ V) (hi : V < dyad (j + 1) e) (hr : rest = true ↔ dyad j e ≠ V) :
    RoundsLike f r neg (2 * j + if rest then 1 else 0) (e - 1) V := by
  have hj : j ≠ 0 := (Nat.two_pow_pos _ |>.trans_le big).ne'
  have bits : fMbits f + 1 < bitLen j := (Nat.pow_lt_pow_iff_right one_lt_two).1 (big.trans_lt (bitLen_bounds hj).2.1)
  have len := bitLen_sticky hj rest
  refine ⟨?_, ?_, fun q hq => ?_⟩
  · rw [len]
    refine (le_of_eq ?_).trans ((dyad_bounds hj e).1.trans lo)
    congr 1
    push_cast
    ring
  · rw [len]
    refine hi.trans_le (((dyad_le_iff _ _ e).2 (bitLen_bounds hj).2.1).trans_eq ?_)
    rw [dyad_two_pow]
    congr 1
    push_cast
    ring
  · have place : e + 1 ≤ q := by
      unfold unboundedPlace at hq
      omega
    cases rest
    · have value : dyad (2 * j) (e - 1) = V := by
        rw [show (2 : Nat) = 2 ^ 1 from rfl, Nat.mul_comm, ← show dyad j e = V from by simpa using hr]
        simpa using dyad_shift j (show e - 1 ≤ e by omega)
      exact value ▸ onGrid_onGrid r neg (2 * j) (e - 1) q
    · exact onGrid_sticky ⟨lo.lt_of_ne (hr.1 rfl), hi⟩ place

/-- A value known to j places of 2 ^ e, more than those of FP32, and a sticky bit is rounded once. -/
theorem fRound_sticky {neg : Bool} {j : Nat} {e : Int} {V : ℝ} {rest : Bool} (big : 2 ^ 24 ≤ j)
    (lo : dyad j e ≤ V) (hi : V < dyad (j + 1) e) (hr : rest = true ↔ dyad j e ≠ V) :
    Rounded .f32 .rn neg (fun a x => dyad a x ≤ V) (fun a x => V ≤ dyad a x) (fRound .f32 .rn false (sticky neg j e rest)) :=
  (RoundsLike.sticky (f := .f32) big lo hi hr).rounded (by omega)

/-! ### Reciprocals and roots -/

theorem dyad_pos {m : Nat} (h : m ≠ 0) (e : Int) : 0 < dyad m e := mul_pos (by exact_mod_cast Nat.pos_of_ne_zero h) (two_zpow_pos e)

theorem dyad_two_pow_neg (k : Nat) : dyad (2 ^ k) (-k) = 1 := by rw [dyad_two_pow, add_neg_cancel, zpow_zero]

theorem dyad_one : dyad 1 0 = 1 := by simp [dyad]

theorem dyad_sq (a : Nat) (y : Int) : dyad a y ^ 2 = dyad (a * a) (2 * y) := by rw [two_mul, dyad_mul, sq]

section
variable {m : Nat} {e : Int} (hm : m ≠ 0)
include hm

theorem le_inv_dyad (a : Nat) (y : Int) : dyad a y ≤ (dyad m e)⁻¹ ↔ dyad (a * m) (y + e) ≤ 1 := by
  rw [dyad_mul, ← one_div, le_div_iff₀ (dyad_pos hm e)]

theorem inv_dyad_le (a : Nat) (y : Int) : (dyad m e)⁻¹ ≤ dyad a y ↔ 1 ≤ dyad (a * m) (y + e) := by
  rw [dyad_mul, ← one_div, div_le_iff₀ (dyad_pos hm e)]

end

theorem le_sqrt_iff {V : ℝ} (hV : 0 ≤ V) (a : Nat) (y : Int) : dyad a y ≤ √V ↔ dyad (a * a) (2 * y) ≤ V := by
  rw [Real.le_sqrt (dyad_nonneg a y) hV, dyad_sq]

theorem sqrt_le_iff {V : ℝ} (a : Nat) (y : Int) : √V ≤ dyad a y ↔ V ≤ dyad (a * a) (2 * y) := by
  rw [Real.sqrt_le_iff, and_iff_right (dyad_nonneg a y), dyad_sq]

theorem dyad_inj {a b : Nat} {e : Int} : dyad a e = dyad b e ↔ a = b := by
  rw [le_antisymm_iff, dyad_le_iff, dyad_le_iff, ← Nat.le_antisymm_iff]

/-- A reciprocal is rounded once. -/
theorem fRound_rcpVal (neg : Bool) {m : Nat} (hm : m ≠ 0) (e : Int) :
    Rounded .f32 .rn neg (fun a y => dyad a y ≤ (dyad m e)⁻¹) (fun a y => (dyad m e)⁻¹ ≤ dyad a y)
      (fRound .f32 .rn false (rcpVal neg m e)) := by
  have size : 2 ^ 24 * m ≤ 2 ^ (bitLen m + 40) :=
    calc 2 ^ 24 * m ≤ 2 ^ 40 * 2 ^ bitLen m := Nat.mul_le_mul (by decide) (bitLen_bounds hm).2.1.le
      _ = 2 ^ (bitLen m + 40) := by rw [pow_add, Nat.mul_comm]
  unfold rcpVal
  dsimp only
  generalize bitLen m + 40 = k at size ⊢
  have le (a : Nat) : dyad a (-e - k) ≤ (dyad m e)⁻¹ ↔ a * m ≤ 2 ^ k := by
    rw [le_inv_dyad hm, ← dyad_two_pow_neg k, show -e - (k : Int) + e = -k by ring, dyad_le_iff]
  have ge (a : Nat) : (dyad m e)⁻¹ ≤ dyad a (-e - k) ↔ 2 ^ k ≤ a * m := by
    rw [inv_dyad_le hm, ← dyad_two_pow_neg k, show -e - (k : Int) + e = -k by ring, dyad_le_iff]
  have pos := Nat.pos_of_ne_zero hm
  refine fRound_sticky ((Nat.le_div_iff_mul_le pos).2 size) ((le _).2 (Nat.div_mul_le_self _ _)) (lt_of_not_ge fun h => ?_) ?_
  · exact absurd ((le _).1 h) (not_le.2 ((Nat.div_lt_iff_lt_mul pos).1 (Nat.lt_succ_self _)))
  · rw [bne_iff_ne, ne_eq, ne_eq, le_antisymm_iff (b := (dyad m e)⁻¹), le, ge, ← Nat.le_antisymm_iff,
      ← Nat.dvd_iff_mod_eq_zero, Nat.dvd_iff_div_mul_eq]

/-- The square root by bits stays below the root, and within its bits of it. -/
theorem isqrtFrom_spec (k : Nat) {n r : Nat} (lo : r * r ≤ n) (hi : n < (r + 2 ^ k) * (r + 2 ^ k)) :
    isqrtFrom k n r * isqrtFrom k n r ≤ n ∧ n < (isqrtFrom k n r + 1) * (isqrtFrom k n r + 1) := by
  induction k generalizing r with
  | zero => exact ⟨lo, hi⟩
  | succ k ih =>
    unfold isqrtFrom
    dsimp only
    split
    · next h => exact ih h (by rwa [Nat.add_assoc, ← Nat.two_mul, ← pow_succ'])
    · next h => exact ih lo (not_le.1 h)

theorem isqrt_spec (n : Nat) : isqrt n * isqrt n ≤ n ∧ n < (isqrt n + 1) * (isqrt n + 1) := by
  refine isqrtFrom_spec _ (Nat.zero_le _) ?_
  by_cases h : n = 0
  · subst h
    decide
  · refine (bitLen_bounds h).2.1.trans_le ?_
    rw [Nat.zero_add, ← pow_add]
    exact Nat.pow_le_pow_right two_pos (by omega)

/-- The root of a number of 2 k + 1 bits or more has more than k bits. -/
theorem isqrt_big {b n : Nat} (h : b * b ≤ n) : b ≤ isqrt n := by
  by_contra lt
  have := Nat.mul_self_le_mul_self (Nat.succ_le_of_lt (not_le.1 lt))
  exact absurd (this.trans h) (not_le.2 (isqrt_spec n).2)

/-- An even exponent changes no value. -/
theorem evenExp_spec {m : Nat} (hm : m ≠ 0) (e : Int) : ∃ m' k, evenExp m e = (m', 2 * k) ∧ dyad m' (2 * k) = dyad m e ∧ m' ≠ 0 ∧
    m' ≤ 2 * m := by
  unfold evenExp
  split
  · next h =>
    have two : 2 * (e / 2) = e := by omega
    exact ⟨m, e / 2, by rw [two], by rw [two], hm, by omega⟩
  · next h =>
    have two : 2 * ((e - 1) / 2) = e - 1 := by omega
    refine ⟨2 * m, (e - 1) / 2, by rw [two], ?_, by omega, le_rfl⟩
    rw [two, Nat.mul_comm]
    simpa using dyad_shift m (show e - 1 ≤ e by omega)

/-- A square root is rounded once. -/
theorem fRound_sqrtVal {m : Nat} (hm : m ≠ 0) (e : Int) :
    Rounded .f32 .rn false (fun a y => dyad a y ≤ √(dyad m e)) (fun a y => √(dyad m e) ≤ dyad a y)
      (fRound .f32 .rn false (sqrtVal m e)) := by
  obtain ⟨m', k, even, value, hm', -⟩ := evenExp_spec hm e
  unfold sqrtVal
  rw [even, ← value]
  dsimp only
  have scale : dyad m' (2 * k) = dyad (m' * 2 ^ 80) (2 * (k - 40)) := by
    have := dyad_shift m' (show 2 * (k - 40) ≤ 2 * k by omega)
    rwa [show (2 * k - 2 * (k - 40)).toNat = 80 by omega, eq_comm] at this
  rw [Int.mul_ediv_cancel_left k two_ne_zero, scale]
  generalize hn : m' * 2 ^ 80 = n
  obtain ⟨lo, hi⟩ := isqrt_spec n
  refine fRound_sticky (isqrt_big (by omega)) ?_ ?_ ?_
  · rwa [le_sqrt_iff (dyad_nonneg _ _), dyad_le_iff]
  · rwa [← not_le, le_sqrt_iff (dyad_nonneg _ _), dyad_le_iff, not_le]
  · rw [bne_iff_ne, ne_eq, ne_eq, le_antisymm_iff (b := √_), le_sqrt_iff (dyad_nonneg _ _), sqrt_le_iff, ← le_antisymm_iff, dyad_inj]

/-- The reciprocal of a square root is rounded once. -/
theorem fRound_rsqVal {m : Nat} (hm : m ≠ 0) (small : m < 2 ^ 24) (e : Int) :
    Rounded .f32 .rn false (fun a y => dyad a y ≤ √(dyad m e)⁻¹) (fun a y => √(dyad m e)⁻¹ ≤ dyad a y)
      (fRound .f32 .rn false (rsqVal m e)) := by
  obtain ⟨m', k, even, value, hm', le_m⟩ := evenExp_spec hm e
  unfold rsqVal
  rw [even, ← value]
  dsimp only
  rw [Int.mul_ediv_cancel_left k two_ne_zero]
  have le (a : Nat) : dyad a (-k - 80) ≤ √(dyad m' (2 * k))⁻¹ ↔ a * a * m' ≤ 2 ^ 160 := by
    rw [le_sqrt_iff (inv_nonneg.2 (dyad_nonneg _ _)), le_inv_dyad hm', ← dyad_two_pow_neg 160,
      show 2 * (-k - 80) + 2 * k = -(160 : Nat) by push_cast; ring, dyad_le_iff]
  have ge (a : Nat) : √(dyad m' (2 * k))⁻¹ ≤ dyad a (-k - 80) ↔ 2 ^ 160 ≤ a * a * m' := by
    rw [sqrt_le_iff, inv_dyad_le hm', ← dyad_two_pow_neg 160,
      show 2 * (-k - 80) + 2 * k = -(160 : Nat) by push_cast; ring, dyad_le_iff]
  have pos := Nat.pos_of_ne_zero hm'
  obtain ⟨lo, hi⟩ := isqrt_spec (2 ^ 160 / m')
  refine fRound_sticky (isqrt_big ((Nat.le_div_iff_mul_le pos).2 ?_)) ((le _).2 ((Nat.le_div_iff_mul_le pos).1 lo))
    (lt_of_not_ge fun h => ?_) ?_
  · calc 2 ^ 24 * 2 ^ 24 * m' ≤ 2 ^ 24 * 2 ^ 24 * 2 ^ 25 := Nat.mul_le_mul_left _ (by omega)
      _ ≤ 2 ^ 160 := by decide
  · exact absurd ((le _).1 h) (not_le.2 ((Nat.div_lt_iff_lt_mul pos).1 hi))
  · rw [bne_iff_ne, ne_eq, ne_eq, le_antisymm_iff (b := √_), le, ge, ← Nat.le_antisymm_iff]

/-! ### Powers and logarithms of two -/

/-- 2 ^ i from 2 ^ 128 on overflows FP32. -/
theorem roundFin_one_overflow {i : Int} (h : 128 ≤ i) :
    roundFin .f32 .rn false false 1 i = ⟨overflowCode .f32 .rn false false, fOVERFLOW ||| fINEXACT⟩ := by
  refine roundFin_overflow false one_ne_zero ((RoundsLike.self one_ne_zero).exceeds_iff.1 (exceeds_iff_bounds.2 ⟨fun _ => ⟨?_, .inl rfl⟩,
    fun hc => (not_cuts_rn hc).elim, fun hr => (hr rfl).elim⟩))
  have half : dyad (fMaxM .f32) (fMaxE .f32) + 2 ^ fMaxE .f32 ≤ 2 ^ (128 : Int) := by
    rw [← dyad_succ, show fMaxM .f32 + 1 = 2 ^ 24 from rfl, dyad_two_pow]
    exact two_zpow_le (by decide)
  have : dyad 1 i = 2 ^ i := by simp [dyad]
  linarith [two_zpow_le h, two_zpow_pos (fMaxE .f32)]

/-- 2 ^ i up to 2 ^ -151 is below half the least value of FP32. -/
theorem roundFin_one_tiny {i : Int} (h : i ≤ -151) : roundFin .f32 .rn false false 1 i = ⟨0, fINEXACT ||| fUNDERFLOW⟩ := by
  obtain ⟨d, hd⟩ : ∃ d : Nat, (-149 - i).toNat = d + 2 := ⟨(-151 - i).toNat, by omega⟩
  have place : lastPlace .f32 1 i = -149 := by
    unfold lastPlace unboundedPlace
    exact max_eq_right (by simp [fQmin, fBias, fMbits, bitLen, Nat.log2_def]; omega)
  have large : 4 ≤ 2 ^ (d + 2) := by
    rw [pow_add]
    exact Nat.le_mul_of_pos_left _ (Nat.two_pow_pos d)
  have rounded : atLastPlace .f32 .rn false 1 i = (0, false) := by
    unfold atLastPlace onGrid
    rw [place, if_neg (by omega), hd, roundShift_eq, Nat.mod_eq_of_lt (by omega), Nat.div_eq_of_lt (by omega)]
    have up : roundsUp .rn false 0 1 (2 ^ (d + 2)) = false := by
      simp [roundsUp]
    simp [up]
  have fits : overflows .f32 .rn false 1 i = false := by
    rw [← Bool.not_eq_true, overflows, rounded, ltScaled_iff, dyad_zero]
    exact not_lt.2 (dyad_nonneg _ _)
  have tiny : tinyAt .f32 .rn false 1 i = true := by
    refine (RoundsLike.self one_ne_zero).tiny_iff.1 (tiny_iff_bounds.2 ⟨fun _ => ?_, fun hc => (not_cuts_rn hc).elim, fun hr => (hr rfl).elim⟩)
    have : dyad 1 i = 2 ^ i := by simp [dyad]
    have small := two_zpow_le h
    have : (2 : ℝ) ^ (-151 : Int) + 2 ^ (1 - fBias .f32 - fMbits .f32 - 2) < 2 ^ (1 - fBias .f32) := by
      norm_num [fBias, fMbits]
    linarith
  rw [roundFin_fits false one_ne_zero fits, rounded, tiny]
  rfl

/-- An integral value. -/
theorem dyad_eq_nat {m k : Nat} {e : Int} (h : m * 2 ^ e.toNat = k * 2 ^ (-e).toNat) : dyad m e = dyad k 0 := by
  rw [AtMost.antisymm_iff]
  rcases le_total e 0 with he | he
  · rw [Int.toNat_of_nonpos he] at h
    rw [min_eq_left he, sub_self, zero_sub]
    exact h
  · rw [Int.toNat_of_nonpos (show -e ≤ 0 by omega)] at h
    rw [min_eq_right he, sub_zero, sub_zero]
    exact h

/-- An integer with n fraction bits. -/
theorem dyad_nat_shift (k n : Nat) : dyad (k * 2 ^ n) (-n) = dyad k 0 := by
  simpa using dyad_shift k (show -(n : Int) ≤ 0 by omega)

/-- The fixed-point form of a value that is an integer. -/
theorem toFx_eq {m k : Nat} {e : Int} (he : -149 ≤ e) (h : m * 2 ^ e.toNat = k * 2 ^ (-e).toNat) : toFx m e = k * fxOne := by
  have le : -(fxBits : Int) ≤ e := le_trans (by decide) he
  have fx := dyad_shift m le
  have int := dyad_nat_shift k fxBits
  rw [← dyad_eq_nat h, ← fx, sub_neg_eq_add, dyad_inj] at int
  exact int.symm

theorem fRound_fin (f : FFmt) (r : Rnd) (sat neg : Bool) (m : Nat) (e : Int) : fRound f r sat (.fin neg m e) = roundFin f r sat neg m e := rfl

/-- FEXP2 of an integral value is a power of two, rounded once. -/
theorem fRound_exp2Val {neg : Bool} {m k : Nat} {e : Int} (he : -149 ≤ e) (h : m * 2 ^ e.toNat = k * 2 ^ (-e).toNat) :
    fRound .f32 .rn false (exp2Val neg m e) = roundFin .f32 .rn false false 1 (if neg then -(k : Int) else k) := by
  have fx := toFx_eq he h
  have pos : 0 < fxOne := Nat.two_pow_pos _
  unfold exp2Val
  split
  · next h0 =>
    obtain rfl : k = 0 := by
      rw [toFx, h0, Nat.zero_mul, eq_comm, mul_eq_zero] at fx
      exact fx.resolve_right pos.ne'
    cases neg <;> rfl
  · next hm =>
    split
    · next large =>
      have lo := (dyad_bounds hm e).1
      have ge : 2 ^ 10 ≤ k := by
        rw [dyad_eq_nat h] at lo
        rw [← dyad_le_iff _ _ 0, dyad_two_pow]
        exact (two_zpow_le (by simp at large ⊢; omega)).trans lo
      rw [fRound_fin]
      cases neg
      · rw [roundFin_one_overflow (by decide), roundFin_one_overflow (by simp; omega)]
      · rw [roundFin_one_tiny (by decide), roundFin_one_tiny (by simp; omega)]
    · rw [fx]
      generalize fxOne = F at pos
      have whole : (if neg = true then -((k * F : Nat) : Int) else (k * F : Nat)) = (if neg then -(k : Int) else k) * F := by
        cases neg <;> simp
      dsimp only
      rw [whole, Int.mul_emod_left, Int.mul_ediv_cancel _ (by omega), Int.toNat_zero, if_pos rfl, fRound_fin]

/-- FLOG2 of a power of two is an integer. -/
theorem log2Val_two_pow (j : Nat) (e : Int) : log2Val (2 ^ j) e = fOfInt (j + e) := by
  have bits : bitLen (2 ^ j) = j + 1 := by simp [bitLen]
  unfold log2Val
  rw [bits]
  dsimp only
  rw [if_pos (by simp)]
  congr 1
  push_cast
  ring

/-! ### Sines -/

/-- A multiple of F within a turn of 2 F. -/
theorem mul_add_mod_turn (k : Nat) {F h : Nat} (hh : h < F) : (k * F + h) % (2 * F) = k % 2 * F + h := by
  conv_lhs => rw [← Nat.div_add_mod k 2, Nat.add_mul, Nat.mul_right_comm, Nat.add_assoc, Nat.mul_add_mod_self_left]
  refine Nat.mod_eq_of_lt ?_
  obtain h0 | h1 := Nat.mod_two_eq_zero_or_one k
  · rw [h0]; omega
  · rw [h1]; omega

/-- Which half of the turn that is. -/
theorem le_turn (k : Nat) {F h : Nat} (hh : h < F) : decide (F ≤ (k * F + h) % (2 * F)) = decide (k % 2 = 1) := by
  rw [mul_add_mod_turn k hh]
  obtain h0 | h1 := Nat.mod_two_eq_zero_or_one k
  · rw [h0]; simpa using hh
  · rw [h1]; simp

theorem sinPi_integral (neg : Bool) (k : Nat) : sinPi neg (k * fxOne % (2 * fxOne)) = .fin neg 0 0 := by
  unfold sinPi
  exact if_pos (by rw [Nat.mod_mod_of_dvd _ (Nat.dvd_mul_left _ 2), Nat.mul_mod_left])

theorem sinPi_half (neg : Bool) (k : Nat) : sinPi neg ((k * fxOne + fxOne / 2) % (2 * fxOne)) = .fin (neg != decide (k % 2 = 1)) 1 0 := by
  have even : 2 * (fxOne / 2) = fxOne := Nat.mul_div_cancel' (dvd_pow_self 2 (by decide))
  have pos : 0 < fxOne := Nat.two_pow_pos _
  unfold sinPi
  dsimp only
  generalize fxOne = F at even pos ⊢
  have lt : F / 2 < F := by omega
  rw [le_turn k lt, Nat.mod_mod_of_dvd _ (Nat.dvd_mul_left _ 2), Nat.mul_add_mod_self_right, Nat.mod_eq_of_lt lt,
    if_neg (by omega), if_pos even]

/-! ### The seven instructions -/

theorem special_fin (neg : Bool) (m : Nat) (e : Int) (k : Bool → Nat → Int → FR) (p n : FR) : special (.fin neg m e) k p n = k neg m e := rfl

theorem fRound_one (neg : Bool) : fRound .f32 .rn false (.fin neg 1 0) = ⟨if neg then 0xBF800000 else 0x3F800000, 0⟩ := by
  cases neg <;> decide

theorem fRound_zero (neg : Bool) : fRound .f32 .rn false (.fin neg 0 0) = ⟨if neg then 0x80000000 else 0, 0⟩ := by
  cases neg <;> decide

section
variable {x m k : Nat} {neg : Bool} {e : Int} (h : fDecode .f32 x = .fin neg m e)
include h

theorem le_expo_f32 : -149 ≤ e := (fDecode_fin h).2

/-- The zeros have two codes. -/
theorem code_of_zero (hx : x < 2 ^ 32) (hm : m = 0) : x = if neg then 0x80000000 else 0 := by
  rw [fDecode_eq] at h
  split at h
  · cases h
  split at h
  · cases h
  unfold finValue at h
  split at h
  · next expo =>
    obtain ⟨rfl, mant, -⟩ := FVal.fin.inj h
    obtain sign | sign := Nat.mod_two_eq_zero_or_one (x / 2 ^ (fMbits .f32 + fEbits .f32))
    · rw [sign]
      simp only [fMbits, fEbits] at expo mant sign
      simp
      omega
    · rw [sign]
      simp only [fMbits, fEbits] at expo mant sign
      simp
      omega
  · obtain ⟨-, mant, -⟩ := FVal.fin.inj h
    simp [fMbits] at mant
    omega

/-- FSIN and FCOS of an integer. -/
theorem fSinCos_integral (hk : m * 2 ^ e.toNat = k * 2 ^ (-e).toNat) : fSinPi x = ⟨if neg then 0x80000000 else 0, 0⟩ ∧
    fCosPi x = ⟨if k % 2 = 1 then 0xBF800000 else 0x3F800000, 0⟩ := by
  have half := sinPi_half false k
  have whole := sinPi_integral neg k
  rw [← toFx_eq (le_expo_f32 h) hk] at half whole
  rw [fSinPi, fCosPi, h, special_fin, special_fin, half, whole]
  split
  · next large =>
    have even : k % 2 = 0 := by
      obtain ⟨j, hj⟩ : ∃ j, e.toNat = j + 1 := ⟨e.toNat - 1, by omega⟩
      rw [Int.toNat_of_nonpos (show -e ≤ 0 by omega), hj, pow_succ, ← Nat.mul_assoc] at hk
      omega
    rw [even]
    exact ⟨by cases neg <;> rfl, fRound_one false⟩
  · exact ⟨fRound_zero neg, by simp [fRound_one]⟩

/-- FSIN and FCOS of an integer and a half. -/
theorem fSinCos_half (hk : 2 * m * 2 ^ e.toNat = (2 * k + 1) * 2 ^ (-e).toNat) :
    fSinPi x = ⟨if neg = decide (k % 2 = 1) then 0x3F800000 else 0xBF800000, 0⟩ ∧ fCosPi x = ⟨0, 0⟩ := by
  have small : ¬2 ≤ e := by
    intro large
    rw [Int.toNat_of_nonpos (show -e ≤ 0 by omega), Nat.mul_assoc] at hk
    omega
  have even : 2 * (fxOne / 2) = fxOne := Nat.mul_div_cancel' (dvd_pow_self 2 (by decide))
  have fx : 2 * toFx m e = (2 * k + 1) * fxOne := by
    rw [← toFx_eq (le_expo_f32 h) hk, toFx, toFx, Nat.mul_assoc]
  have half : toFx m e = k * fxOne + fxOne / 2 := by
    generalize fxOne = F at *
    rw [Nat.add_mul, Nat.mul_assoc] at fx
    omega
  have next : toFx m e + fxOne / 2 = (k + 1) * fxOne := by
    rw [half]
    generalize fxOne = F at *
    rw [Nat.add_mul]
    omega
  rw [fSinPi, fCosPi, h, special_fin, special_fin, if_neg small, if_neg small, next, half, sinPi_half, sinPi_integral, fRound_one]
  exact ⟨by cases neg <;> cases decide (k % 2 = 1) <;> rfl, fRound_zero false⟩

end

/-- Settles O10: every value by the one rounding of roundFin, or exact by the fixed point of the series. -/
theorem specialFunctions : Obligations.SpecialFunctions := by
  unfold Obligations.SpecialFunctions
  refine ⟨fun o => ⟨?frcp, ?frsq, ?fsqrt, ?fexp2, ?flog2, ?fsin, ?fcos⟩, fun x sig h => ?nan, fun x neg h => ?inf, fun x neg e hx h => ?zero,
    fun x m neg e h hm => ⟨?rcp, ?negative, fun hn => ⟨?rsq, ?sqrt, ?log2⟩⟩,
    fun x m k neg e h => ⟨fun hk => ⟨?exp2, fSinCos_integral h hk⟩, fSinCos_half h⟩⟩
  case frcp =>
    exact sends_flt32 (i := .frcp o) (e := execFrcp o) (f := fun x => fRcp x.a.toNat) (hc := fun _ => Nat.min_le_left _ _)
  case frsq =>
    exact sends_flt32 (i := .frsq o) (e := execFrsq o) (f := fun x => fRsq x.a.toNat) (hc := fun _ => Nat.min_le_left _ _)
  case fsqrt =>
    exact sends_flt32 (i := .fsqrt o) (e := execFsqrt o) (f := fun x => fSqrt x.a.toNat) (hc := fun _ => Nat.min_le_left _ _)
  case fexp2 =>
    exact sends_flt32 (i := .fexp2 o) (e := execFexp2 o) (f := fun x => fExp2 x.a.toNat) (hc := fun _ => Nat.min_le_left _ _)
  case flog2 =>
    exact sends_flt32 (i := .flog2 o) (e := execFlog2 o) (f := fun x => fLog2 x.a.toNat) (hc := fun _ => Nat.min_le_left _ _)
  case fsin =>
    exact sends_flt32 (i := .fsin o) (e := execFsin o) (f := fun x => fSinPi x.a.toNat) (hc := fun _ => Nat.min_le_left _ _)
  case fcos =>
    exact sends_flt32 (i := .fcos o) (e := execFcos o) (f := fun x => fCosPi x.a.toNat) (hc := fun _ => Nat.min_le_left _ _)
  case nan =>
    simp only [List.forall_mem_cons, fRcp, fRsq, fSqrt, fExp2, fLog2, fSinPi, fCosPi, h, special]
    simp [fNaN, invIf]
  case inf =>
    simp only [List.forall_mem_cons, fRcp, fRsq, fSqrt, fExp2, fLog2, fSinPi, fCosPi, h, special]
    cases neg <;> simp [fNaN, invNaN, fInf, fSign, f32Inf, fEbits, fMbits, fBits]
  case zero =>
    obtain rfl := code_of_zero h hx rfl
    cases neg <;> decide
  case rcp =>
    simp only [atMost_iff, dyad_one, ← le_inv_dyad hm, ← inv_dyad_le hm]
    rw [fRcp, h, special_fin, if_neg hm]
    exact fRound_rcpVal neg hm e
  case negative =>
    rintro rfl
    simp [fRsq, fSqrt, fLog2, h, special, hm, invNaN, fNaN]
  case rsq =>
    subst hn
    have nonneg := inv_nonneg.2 (dyad_nonneg m e)
    simp only [atMost_iff, dyad_one, ← le_inv_dyad hm, ← inv_dyad_le hm, ← le_sqrt_iff nonneg, ← sqrt_le_iff]
    rw [fRsq, h, special_fin, if_neg hm, if_neg Bool.false_ne_true]
    exact fRound_rsqVal hm (fDecode_fin h).1 e
  case sqrt =>
    subst hn
    simp only [atMost_iff, ← le_sqrt_iff (dyad_nonneg m e), ← sqrt_le_iff]
    rw [fSqrt, h, special_fin, if_neg hm, if_neg Bool.false_ne_true]
    exact fRound_sqrtVal hm e
  case log2 =>
    rintro j rfl
    subst hn
    rw [fLog2, h, special_fin, if_neg hm, if_neg Bool.false_ne_true, log2Val_two_pow]
    exact roundFin_roundsTo _ _ _ _ _
  case exp2 =>
    rw [fExp2, h, special_fin, fRound_exp2Val (le_expo_f32 h) hk]
    exact roundFin_roundsTo _ _ _ _ _

end Sys2Proof.Machine

/-!
PROOF. Operations enter the array queue of a core (R327, R331, R332, R336).
-/

namespace Sys2Proof.Machine

open Claim

section
variable {s : State} {core acc : Nat}

/-! ### The queue -/

/-- The entry that an operation makes. -/
theorem arrPut_entry (c wid seq : Nat) (kind : ArrKind) (done total : Nat) (reads writes : List Nat) (byp pz : Bool) :
    ∃ x : ArrOp, ((arrPut s core c wid seq acc kind done total reads writes byp pz).core core).arrayQ = (s.core core).arrayQ ++ [x] ∧
      x.kind = kind ∧ x.acc = acc ∧ x.ctx = c ∧ x.wave = wid ∧ x.seq = seq ∧ x.total = total ∧ x.poison = pz := by
  refine ⟨{ id := s.fresh.1, ctx := c, wave := wid, seq := seq, acc := acc, kind := kind, done := done, total := total, poison := pz },
    ?_, rfl, rfl, rfl, rfl, rfl, rfl, rfl⟩
  unfold arrPut
  dsimp only
  split
  · rw [State.core_setCore]
    rfl
  · rw [State.addTileOp, State.core_setCore, State.core_setCore]
    rfl

theorem takeBypass_arrayQ (a : Nat) : ((takeBypass s core a).core core).arrayQ = (s.core core).arrayQ := by
  rw [takeBypass, State.core_setCore]

theorem takeStopped_arrayQ (total : Nat) : ((takeStopped s core acc total).2.core core).arrayQ = (s.core core).arrayQ := by
  rw [takeStopped, State.setMprog, State.core_setCore]

theorem setOwner_arrayQ (t : Nat) (c : Option Nat) : ((s.setOwner core t c).core core).arrayQ = (s.core core).arrayQ := by
  unfold State.setOwner
  rw [State.core_setCore]

theorem clearAcc_arrayQ : ((s.clearAcc core acc).core core).arrayQ = (s.core core).arrayQ := by
  rw [State.clearAcc, State.setImode, State.core_setCore]
  rfl

end

section
variable {i : Instr} {s t : State} {c : Cur} {w : Wave}

/-- An instruction completes its issue with one operation of its wave more at the tail of the array queue. -/
def TakesEntry (i : Instr) (s : State) (c : Cur) (w : Wave) (acc : Nat) (kind : ArrKind) (total : Nat) (pz : Bool) : Prop :=
  ∃ t x, exec i s = .next t ∧ (t.core (coreOf c.wave)).arrayQ = (s.core (coreOf c.wave)).arrayQ ++ [x] ∧ x.kind = kind ∧ x.acc = acc ∧
    x.ctx = w.ctx ∧ x.wave = c.wave ∧ x.seq = w.seq ∧ x.total = total ∧ x.poison = pz

/-- So does one whose own part puts an operation on the queue. -/
theorem issue_arrPut {act : Iss → State → Act} {acc done total : Nat} {kind : ArrKind} {reads writes : List Nat} {byp pz : Bool}
    (h : Begins i s c w) (he : exec i s = issue i s act)
    (ha : act (issOf i s c w) (begun s c w) =
      .later (arrPut t (coreOf c.wave) (opened s c w).ctx c.wave w.seq acc kind done total reads writes byp pz))
    (hq : (t.core (coreOf c.wave)).arrayQ = (s.core (coreOf c.wave)).arrayQ) : TakesEntry i s c w acc kind total pz := by
  obtain ⟨x, queue, entry⟩ := arrPut_entry (s := t) (core := coreOf c.wave) (acc := acc) (opened s c w).ctx c.wave w.seq kind done total
    reads writes byp pz
  rw [opened_ctx] at entry
  refine ⟨_, x, (he.trans (issue_acts h _)).trans (congrArg (actOut i s c w (issOf i s c w)) ha), ?_, entry⟩
  rw [State.core, ((finish_later _ _ _ _ _).trans (fireStep_later _ _)).cores, ← hq]
  exact queue

/-! ### MMA, TDRAIN, AZERO (R331, R332, R336) -/

/-- The plane count of an MMA.BP, a scalar register; the other forms have none. -/
def planesOf (kind : Nat) (o : Mma) (w : Wave) (free : Nat) : VWord := if kind == 4 then w.readS free o.preg.toNat else ⟨0, false⟩

theorem issueMma_puts {kind : Nat} {o : Mma} {x : Iss} {u : State} {n p : VWord} (hn : srcS x.w u.sch.free o.n = n)
    (hp : planesOf kind o x.w u.sch.free = p)
    (check : mmaCheck u (coreOf x.cur.wave) x.w.ctx kind o.acc.toNat o.a.toNat o.b.toNat n.val.toNat p.val.toNat = none)
    (ready : mmaWaits u (coreOf x.cur.wave) x.w.ctx o.acc.toNat o.a.toNat o.b.toNat n.val.toNat = false) :
    issueMma kind o x u = .later (
      let total := mmaTotal kind n.val.toNat (tcSteps (u.tcOf (coreOf x.cur.wave) o.a.toNat)) p.val.toNat
      let t := takeStopped u (coreOf x.cur.wave) o.acc.toNat total
      arrPut (takeBypass t.2 (coreOf x.cur.wave) o.a.toNat) (coreOf x.cur.wave) x.w.ctx x.cur.wave x.id o.acc.toNat
        (.mma kind o.a.toNat o.b.toNat n.val.toNat p.val.toNat o.za) t.1 total
        (o.a.toNat :: groupOf t.2 (coreOf x.cur.wave) o.b.toNat n.val.toNat) [] false (n.poison || p.poison)) := by
  subst hn hp
  unfold issueMma
  dsimp only
  rw [← planesOf, check]
  exact if_neg (ne_true_of_eq_false ready)

theorem takes_mma {kind : Nat} {o : Mma} (h : Begins i s c w) (he : exec i s = issue i s (issueMma kind o)) :
    let core := coreOf c.wave
    let n := (srcS w s.sch.free o.n).val.toNat
    let p := planesOf kind o w s.sch.free
    mmaCheck s core w.ctx kind o.acc.toNat o.a.toNat o.b.toNat n p.val.toNat = none →
    mmaWaits s core w.ctx o.acc.toNat o.a.toNat o.b.toNat n = false →
    TakesEntry i s c w o.acc.toNat (.mma kind o.a.toNat o.b.toNat n p.val.toNat o.za)
      (mmaTotal kind n (tcSteps (s.tcOf core o.a.toNat)) p.val.toNat) ((srcS w s.sch.free o.n).poison || p.poison) := by
  intro core n p check ready
  rw [← opened_ctx s c w] at check ready
  have acts := issueMma_puts (x := issOf i s c w) (u := begun s c w) (opened_readS s c w s.sch.free o.n.toNat)
    (opened_reads (planesOf kind o · s.sch.free) fun _ _ => rfl) check ready
  exact issue_arrPut h he acts ((takeBypass_arrayQ o.a.toNat).trans (takeStopped_arrayQ _))

/-- The columns of a drain, of the register or as many as there is room for. -/
def columnsOf (r : Drn) (s : State) (core : Nat) (w : Wave) (free : Nat) : VWord :=
  if r.ncv then srcS w free r.sn
  else ⟨BitVec.ofNat 32 (drainCols (s.tcOf core r.tile.toNat) (s.tcOf core r.tv.toNat) r.scv (16 * r.c0.toNat)), false⟩

theorem execTdrain_puts (r : Drn) : ∃ act, (∀ s, exec (.tdrain r) s = issue (.tdrain r) s act) ∧ ∀ (x : Iss) (u : State) (n : VWord),
    columnsOf r u (coreOf x.cur.wave) x.w u.sch.free = n → drainCheck u (coreOf x.cur.wave) x.w.ctx r n.val.toNat = none →
    tileBusy (u.core (coreOf x.cur.wave)) (if r.scv then [r.tv.toNat] else []) [r.tile.toNat] none = false →
    arrWaits u (coreOf x.cur.wave) x.w.ctx r.acc.toNat (u.core (coreOf x.cur.wave)).tileOps = false →
    act x u = .later (arrPut (takeStopped u (coreOf x.cur.wave) r.acc.toNat (n.val.toNat / 16)).2 (coreOf x.cur.wave) x.w.ctx x.cur.wave x.id
      r.acc.toNat (.drain r.tile.toNat r.tv.toNat (16 * r.c0.toNat) n.val.toNat r.scv r.sat r.zero)
      (takeStopped u (coreOf x.cur.wave) r.acc.toNat (n.val.toNat / 16)).1 (n.val.toNat / 16) (if r.scv then [r.tv.toNat] else [])
      [r.tile.toNat] r.byp n.poison) := by
  refine ⟨_, fun s => (show exec (.tdrain r) s = execTdrain r s from rfl).trans (by rw [execTdrain]), fun x u n hn check idle ready => ?_⟩
  subst hn
  dsimp only
  rw [← columnsOf, check]
  exact if_neg (by simp [idle, ready])

theorem drainCols_le (v t : Word32) (scv : Bool) (c : Nat) : drainCols v t scv c ≤ 512 := (min_le_right _ _).trans (Nat.sub_le _ _)

theorem takes_drain {r : Drn} (h : Begins (.tdrain r) s c w) :
    let core := coreOf c.wave
    let n := columnsOf r s core w s.sch.free
    drainCheck s core w.ctx r n.val.toNat = none →
    tileBusy (s.core core) (if r.scv then [r.tv.toNat] else []) [r.tile.toNat] none = false →
    arrWaits s core w.ctx r.acc.toNat (s.core core).tileOps = false →
    TakesEntry (.tdrain r) s c w r.acc.toNat (.drain r.tile.toNat r.tv.toNat (16 * r.c0.toNat) n.val.toNat r.scv r.sat r.zero)
      (n.val.toNat / 16) n.poison := by
  intro core n check idle ready
  rw [← opened_ctx s c w] at check ready
  obtain ⟨act, he, puts⟩ := execTdrain_puts r
  have acts := puts (issOf (.tdrain r) s c w) (begun s c w) n (opened_reads (columnsOf r s core · s.sch.free) fun _ _ => rfl) check idle ready
  exact issue_arrPut h (he s) acts (takeStopped_arrayQ _)

theorem zeroAcc_puts {x : Iss} {u : State} {acc : Nat} {rel : Bool}
    (own : (u.tileOwner (coreOf x.cur.wave) (16 + acc) != some x.w.ctx &&
      (rel || (u.tileOwner (coreOf x.cur.wave) (16 + acc)).isSome)) = false)
    (ready : arrWaits u (coreOf x.cur.wave) x.w.ctx acc (u.core (coreOf x.cur.wave)).tileOps = false) :
    zeroAcc x u acc rel = .later (arrPut (if (u.tileOwner (coreOf x.cur.wave) (16 + acc)).isNone
        then (u.setOwner (coreOf x.cur.wave) (16 + acc) (some x.w.ctx)).clearAcc (coreOf x.cur.wave) acc else u)
      (coreOf x.cur.wave) x.w.ctx x.cur.wave x.id acc (if rel then .arel else .azero) 0 1 [] [] false false) := by
  unfold zeroAcc
  dsimp only
  rw [if_neg (ne_true_of_eq_false own)]
  exact if_neg (ne_true_of_eq_false ready)

theorem takes_azero {acc : Nat} {rel : Bool} (h : Begins i s c w) (he : exec i s = issue i s fun x s => zeroAcc x s acc rel)
    (own : s.tileOwner (coreOf c.wave) (16 + acc) = some w.ctx ∨ (rel = false ∧ s.tileOwner (coreOf c.wave) (16 + acc) = none))
    (ready : arrWaits s (coreOf c.wave) w.ctx acc (s.core (coreOf c.wave)).tileOps = false) :
    TakesEntry i s c w acc (if rel then .arel else .azero) 1 false := by
  rw [← opened_ctx s c w] at own ready
  have allowed : (s.tileOwner (coreOf c.wave) (16 + acc) != some (opened s c w).ctx &&
      (rel || (s.tileOwner (coreOf c.wave) (16 + acc)).isSome)) = false := by
    obtain own | ⟨rfl, own⟩ := own <;> simp [own]
  have acts := zeroAcc_puts (x := issOf i s c w) (u := begun s c w) allowed ready
  refine issue_arrPut h he acts ?_
  split
  · exact clearAcc_arrayQ.trans (setOwner_arrayQ ..)
  · rfl

end

end Sys2Proof.Machine

/-!
PROOF. A step of the array looks at the matrix state and at the core alone, and a cycle takes it (R327).
-/

namespace Sys2Proof.Machine

open Claim

/-! ### The parts of a drain (R336, R337) -/

/-- The values of a row that a step of a drain converts, with their tags. -/
def drainVals (s : State) (core acc tile tv c0 : Nat) (scv : Bool) (i m : Nat) : List (Drained × Bool) :=
  (List.range 16).map fun x => drainVal s core acc tv m (c0 + 16 * i + x) (16 * i + x) scv (!scv && (fmtInt (tcFmt (s.tcOf core tile))).isSome)

/-- The scale code of their block. -/
def drainScale (v : Word32) (vals : List (Drained × Bool)) : Nat :=
  if tcScl v then scaleCode ((fmtFloat (tcFmt v)).getD .e4m3) (vals.filterMap fun y => match y.1 with
    | .flt c => some c
    | .int _ => none) else 127

/-- Their bytes. -/
def drainBytes (v : Word32) (sat : Bool) (vals : List (Drained × Bool)) : List Byte :=
  packCodes (fmtHalf (tcFmt v)) (vals.map fun y => drainCode (tcFmt v) sat ((drainScale v vals : Int) - 127) y.1)

/-- The word of column n of row m is tagged. -/
def tagElem (s : State) (core tile : Nat) (v : Word32) (m n : Nat) : State :=
  s.setMx { s.mx with wpoison := Sp.put false s.mx.wpoison (wordKey core tile (elemAt v m n / 4)) true }

/-- The words of the tagged values of a row, from column n on, are tagged. -/
def tagRow (s : State) (core tile : Nat) (v : Word32) (pz : Bool) (m n : Nat) (vals : List (Drained × Bool)) : State :=
  vals.zipIdx.foldl (fun s y => if y.1.2 || pz then tagElem s core tile v m (n + y.2) else s) s

/-- The elements that a step drains from a row are reset. -/
def zeroRow (s : State) (core acc m c : Nat) : State :=
  (List.range 16).foldl (fun s x => s.setAcc core acc m (c + x) (zeroElem (s.imodeOf core acc))) s

theorem drainRow_eq (s : State) (core acc tile tv c0 : Nat) (scv sat zero pz : Bool) (i m : Nat) :
    drainRow s core acc tile tv c0 scv sat zero pz i m =
      let v := s.tcOf core tile
      let vals := drainVals s core acc tile tv c0 scv i m
      let u := tagRow (s.putImg core tile (elemAt v m (16 * i)) (drainBytes v sat vals) false) core tile v pz m (16 * i) vals
      let u := if tcScl v then u.putScl core tile (scaleAt v m (16 * i)) false [BitVec.ofNat 8 (drainScale v vals)] else u
      if zero then zeroRow u core acc m (c0 + 16 * i) else u := rfl

/-- The rest of a row after a drain of nc columns. -/
def tailRow (s : State) (core tile : Nat) (v : Word32) (nc m : Nat) : State :=
  let used := nc * fmtHalf (tcFmt v) / 2
  let s := s.putImg core tile (rowBytes v * m + used) (List.replicate (rowBytes v - used) 0) false
  if tcScl v then
    ((List.range ((rowBytes v * 2 / fmtHalf (tcFmt v)) / 16)).filter fun j => decide (nc ≤ 16 * j)).foldl (fun s j =>
      s.putScl core tile (scaleAt v m (16 * j)) false [0x7F]) s
  else s

theorem drainTail_eq (s : State) (core tile nc : Nat) :
    drainTail s core tile nc = (List.range 32).foldl (fun u m => tailRow u core tile (s.tcOf core tile) nc m) s := rfl

/-! ### What a step of the array looks at -/

/-- s with the tiles, accumulators and cores of t. -/
def graft (s t : State) : State := { s with mx := t.mx, cores := t.cores }

theorem graft_self {s t : State} (hm : s.mx = t.mx) (hc : s.cores = t.cores) : graft s t = s := by
  unfold graft
  rw [← hm, ← hc]

section
variable (s t : State) (core acc a b m n : Nat)

theorem dotFloat_graft (scaled : Bool) (k c : Nat) (e : AccElem) :
    dotFloat (graft s t) core a b m n scaled k c e = dotFloat t core a b m n scaled k c e := by
  induction c generalizing k e with
  | zero => rfl
  | succ c ih => exact ih _ _

theorem dotInt_graft (k c : Nat) : dotInt (graft s t) core a b m n k c = dotInt t core a b m n k c := by
  induction c generalizing k with
  | zero => rfl
  | succ c ih =>
    unfold dotInt
    rw [ih]
    rfl

theorem dotPlane_graft (p j k c : Nat) : dotPlane (graft s t) core a b m n p j k c = dotPlane t core a b m n p j k c := by
  induction c generalizing k with
  | zero => rfl
  | succ c ih =>
    unfold dotPlane
    rw [ih]
    rfl

theorem eachElem_graft (wraps : List (Nat × Int)) (cols : List Nat) (f : Nat → Nat → AccElem → AccElem × Int) :
    eachElem (graft s t) core acc wraps cols f =
      (graft s (eachElem t core acc wraps cols f).1, (eachElem t core acc wraps cols f).2) := by
  unfold eachElem
  refine List.foldl_hom (fun x : State × List (Nat × Int) => (graft s x.1, x.2)) (init := (t, wraps)) fun x m => ?_
  exact List.foldl_hom (fun x : State × List (Nat × Int) => (graft s x.1, x.2)) (init := x) fun x n => rfl

theorem mmaStep_graft (kind p i : Nat) (za pz : Bool) (wraps : List (Nat × Int)) :
    mmaStep (graft s t) core acc kind a b n p za pz i wraps =
      (graft s (mmaStep t core acc kind a b n p za pz i wraps).1, (mmaStep t core acc kind a b n p za pz i wraps).2) := by
  have mode (v : Bool) : (graft s t).setImode core acc v = graft s (t.setImode core acc v) := rfl
  have conf (x : Nat) : (graft s t).tcOf core x = t.tcOf core x := rfl
  unfold mmaStep
  dsimp only
  rw [mode, conf]
  split
  · simp only [dotPlane_graft]
    exact eachElem_graft ..
  · simp only [dotInt_graft, dotFloat_graft]
    exact eachElem_graft ..

theorem putScl_graft (tile off : Nat) (pz : Bool) (bs : List Byte) :
    (graft s t).putScl core tile off pz bs = graft s (t.putScl core tile off pz bs) := by
  induction bs generalizing t off with
  | nil => rfl
  | cons b bs ih => exact ih (t.setMx { t.mx with scales := Sp.put Memory.scaleFresh t.mx.scales (sclKey core tile off) b,
                                                  spoison := Sp.put false t.mx.spoison (sclKey core tile off) pz }) (off + 1)

theorem ite_graft (p : Prop) [Decidable p] (u v : State) : (if p then graft s u else graft s v) = graft s (if p then u else v) := by
  split <;> rfl

theorem tagRow_graft (tile : Nat) (v : Word32) (pz : Bool) (vals : List (Drained × Bool)) :
    tagRow (graft s t) core tile v pz m n vals = graft s (tagRow t core tile v pz m n vals) :=
  List.foldl_hom (graft s) fun u y => ite_graft s _ (tagElem u core tile v m (n + y.2)) u

theorem zeroRow_graft (c : Nat) : zeroRow (graft s t) core acc m c = graft s (zeroRow t core acc m c) :=
  List.foldl_hom (graft s) fun _ _ => rfl

theorem drainRow_graft (tile tv c0 i : Nat) (scv sat zero pz : Bool) :
    drainRow (graft s t) core acc tile tv c0 scv sat zero pz i m = graft s (drainRow t core acc tile tv c0 scv sat zero pz i m) := by
  have conf : (graft s t).tcOf core tile = t.tcOf core tile := rfl
  have vals : drainVals (graft s t) core acc tile tv c0 scv i m = drainVals t core acc tile tv c0 scv i m := rfl
  have img (off : Nat) (bs : List Byte) : (graft s t).putImg core tile off bs false = graft s (t.putImg core tile off bs false) := rfl
  rw [drainRow_eq, drainRow_eq]
  dsimp only
  rw [conf, vals, img, tagRow_graft, putScl_graft, ite_graft, zeroRow_graft, ite_graft]

theorem drainTail_graft (tile nc : Nat) : drainTail (graft s t) core tile nc = graft s (drainTail t core tile nc) := by
  have scales (u : State) (l : List Nat) (at_ : Nat → Nat) : l.foldl (fun u j => u.putScl core tile (at_ j) false [0x7F]) (graft s u) =
      graft s (l.foldl (fun u j => u.putScl core tile (at_ j) false [0x7F]) u) := List.foldl_hom (graft s) fun _ _ => rfl
  rw [drainTail_eq, drainTail_eq]
  refine List.foldl_hom (graft s) fun u m => ?_
  have img (off : Nat) (bs : List Byte) : (graft s u).putImg core tile off bs false = graft s (u.putImg core tile off bs false) := rfl
  unfold tailRow
  dsimp only
  rw [img, scales, ite_graft]
  rfl

theorem drainStep_graft (tile tv c0 nc i : Nat) (scv sat zero pz : Bool) :
    drainStep (graft s t) core acc tile tv c0 nc scv sat zero pz i = graft s (drainStep t core acc tile tv c0 nc scv sat zero pz i) := by
  unfold drainStep
  rw [List.foldl_hom (graft s) fun x m => drainRow_graft s x core acc m tile tv c0 i scv sat zero pz]
  dsimp only
  split
  · exact drainTail_graft ..
  · rfl

theorem arrStep_graft (o : ArrOp) : arrStep (graft s t) core o = graft s (arrStep t core o) := by
  unfold arrStep
  dsimp only
  split
  · rfl
  · rfl
  · rw [mmaStep_graft]
    rfl
  · rw [drainStep_graft]
    rfl

end

/-! ### The cycle -/

theorem countLanes_arrays (ls : List Nat) (s : State) : (countLanes s ls).mx = s.mx ∧ (countLanes s ls).ctxs = s.ctxs := by
  induction ls generalizing s with
  | nil => exact ⟨rfl, rfl⟩
  | cons l ls ih => exact ih (countLane s l)

theorem foldl_soon_arrays (is : List Instr) (s : State) : (is.foldl State.soon s).mx = s.mx ∧ (is.foldl State.soon s).ctxs = s.ctxs := by
  induction is generalizing s with
  | nil => exact ⟨rfl, rfl⟩
  | cons i is ih => exact ih (s.soon i)

theorem advanceTime_arrays (s : State) : (advanceTime s).mx = s.mx ∧ (advanceTime s).ctxs = s.ctxs := by
  unfold advanceTime
  dsimp only
  split
  · exact foldl_soon_arrays _ _
  · exact ⟨rfl, rfl⟩

/-- What no step of a fold changes. -/
theorem foldl_keeps {σ α β : Type} (g : σ → β) {f : σ → α → σ} (h : ∀ s a, g (f s a) = g s) (l : List α) (s : σ) :
    g (l.foldl f s) = g s := by
  induction l generalizing s with
  | nil => rfl
  | cons a l ih => exact (ih _).trans (h s a)

theorem serveLane_mx (s : State) (lp : Nat) : (serveLane s lp).mx = s.mx := by
  have soon (e : Instr) : (s.ensureSoon e).mx = s.mx := (Later.ensureSoon s e).mx
  unfold serveLane
  split
  · split
    · exact soon _
    · split
      · exact soon _
      · rfl
  · split
    · split
      · exact soon _
      · rfl
    · rfl

theorem watchWaves_mx (s : State) : (watchWaves s).mx = s.mx := by
  unfold watchWaves
  dsimp only
  refine (foldl_keeps State.mx serveLane_mx _ _).trans (foldl_keeps State.mx (fun t w => ?_) _ _)
  split
  · exact (Later.ensureSoon t _).mx
  · split
    · split
      · exact (Later.ensureSoon t _).mx
      · rfl
    · rfl

section
variable {s : State} {core k : Nat} {o : ArrOp}

/-- A cycle of an array whose entry has started takes one step of it. -/
theorem arrCycle_steps (ho : arrHead s core = some o) (hs : o.start = some k) (hk : k < s.clk.cycle) (hd : o.done < o.total) :
    (arrCycle s core).mx = (arrStep s core o).mx ∧ (arrCycle s core).copies = (arrStep s core o).copies := by
  unfold arrCycle
  rw [ho]
  dsimp only
  rw [hs]
  dsimp only
  rw [if_neg (Nat.not_le.2 hk), if_neg (Nat.not_le.2 hd)]
  split
  · exact ⟨(Later.ensureSoon _ _).mx, (Later.ensureSoon _ _).copies⟩
  · exact ⟨rfl, rfl⟩

/-- So does a cycle of the device, where no copy moves and no other array works. -/
theorem cycleOf_steps (hc : s.copies = []) (ha : arrCores s = [core]) (ho : arrHead s core = some o) (hs : o.start = some k)
    (hk : k ≤ s.clk.cycle) (hd : o.done < o.total) : (cycleOf s).mx = (arrStep s core o).mx := by
  generalize hv : advanceTime (countLanes s (turnedLanes s)) = v
  obtain ⟨lcopies, lcores, lclk⟩ := countLanes_kept (turnedLanes s) s
  obtain ⟨lmx, lctxs⟩ := countLanes_arrays (turnedLanes s) s
  obtain ⟨copies, cores, cycle⟩ := advanceTime_kept (countLanes s (turnedLanes s))
  obtain ⟨mx, ctxs⟩ := advanceTime_arrays (countLanes s (turnedLanes s))
  rw [hv, lcopies, hc] at copies
  rw [hv, lcores] at cores
  rw [hv, lclk] at cycle
  rw [hv, lmx] at mx
  rw [hv, lctxs] at ctxs
  have works : arrCores v = [core] := by rw [arrCores, cores, ← arrCores, ha]
  have head : arrHead v core = some o := by
    have runs : ctxRuns v = ctxRuns s := by
      funext c
      rw [ctxRuns, ctxRuns, State.ctx?, State.ctx?, ctxs]
    rw [arrHead, runs, State.core, cores]
    exact ho
  have step : arrStep v core o = graft v (arrStep s core o) := by
    rw [← arrStep_graft, graft_self mx cores]
  obtain ⟨stepped, still⟩ := arrCycle_steps head hs (by omega) hd
  rw [step] at stepped still
  have quiet : copyCycles (arrCycle v core) = arrCycle v core := by
    rw [copyCycles, still.trans copies]
    rfl
  unfold cycleOf
  dsimp only
  rw [hv, works, arrCycles, arrCycles, quiet, watchWaves_mx, stepped]
  rfl

end

end Sys2Proof.Machine

/-!
PROOF. A step of a product (R139, R333, R334).
-/

namespace Sys2Proof.Machine

open Claim

/-! ### Folds that update one part at a time -/

/-- A fold whose step at a writes what is read at a, and nothing else, writes each place of its list once. -/
theorem foldl_updates {σ β : Type} {get : σ → Nat → β} {F : Nat → β → β} {step : σ → Nat → σ} {P : Nat → Prop} {l : List Nat}
    (nd : l.Nodup)
    (h : ∀ s, ∀ a ∈ l, ∀ k, P k → get (step s a) k = if k = a then F a (get s a) else get s k) (s : σ) {k : Nat} (hk : P k) :
    get (l.foldl step s) k = if k ∈ l then F k (get s k) else get s k := by
  induction l generalizing s with
  | nil => simp
  | cons a l ih =>
    obtain ⟨new, nd⟩ := List.nodup_cons.1 nd
    rw [List.foldl_cons, ih nd (fun s b hb => h s b (List.mem_cons_of_mem a hb)), h s a List.mem_cons_self k hk]
    by_cases e : k = a
    · subst e
      simp [new]
    · simp [e]

/-! ### Elements of an accumulator -/

section
variable {s : State} {core acc : Nat}

theorem accElem_setAcc {m n x : Nat} (hn : n < 512) (hx : x < 512) (m' : Nat) (e : AccElem) :
    (s.setAcc core acc m n e).accElem core acc m' x = if m' = m ∧ x = n then e else s.accElem core acc m' x := by
  unfold State.setAcc State.accElem
  split
  · next h =>
    obtain ⟨rfl, rfl⟩ := h
    exact Sp.get_put ..
  · next h => exact Sp.get_put_ne _ _ _ (by unfold accKey; omega)

variable {f : Nat → Nat → AccElem → AccElem × Int}

/-- One element takes what f gives. -/
def elemStep (core acc : Nat) (f : Nat → Nat → AccElem → AccElem × Int) (m : Nat) (x : State × List (Nat × Int)) (n : Nat) :
    State × List (Nat × Int) :=
  let y := f m n (x.1.accElem core acc m n)
  (x.1.setAcc core acc m n y.1, if y.2 == 0 then x.2 else addOver x.2 (m * 512 + n) y.2)

theorem eachElem_eq (wraps : List (Nat × Int)) (cols : List Nat) : eachElem s core acc wraps cols f =
    (List.range 32).foldl (fun x m => cols.foldl (elemStep core acc f m) x) (s, wraps) := rfl

/-- Its image, scales and cores stay. -/
theorem eachElem_keeps (wraps : List (Nat × Int)) (cols : List Nat) : (eachElem s core acc wraps cols f).1.mx.image = s.mx.image ∧
    (eachElem s core acc wraps cols f).1.mx.scales = s.mx.scales ∧ (eachElem s core acc wraps cols f).1.cores = s.cores := by
  have keeps {β : Type} (g : State → β) (hg : ∀ u m n e, g (State.setAcc u core acc m n e) = g u) :
      g (eachElem s core acc wraps cols f).1 = g s :=
    foldl_keeps (fun x : State × List (Nat × Int) => g x.1) (fun x m => foldl_keeps (fun x : State × List (Nat × Int) => g x.1)
      (f := elemStep core acc f m) (fun x n => hg ..) cols x) (List.range 32) (s, wraps)
  exact ⟨keeps (·.mx.image) fun _ _ _ _ => rfl, keeps (·.mx.scales) fun _ _ _ _ => rfl, keeps (·.cores) fun _ _ _ _ => rfl⟩

/-- Every element of the columns takes what f gives; the others stay. -/
theorem eachElem_accElem {wraps : List (Nat × Int)} {cols : List Nat} (nd : cols.Nodup) (hc : ∀ n ∈ cols, n < 512) {m x : Nat} (hm : m < 32)
    (hx : x < 512) : (eachElem s core acc wraps cols f).1.accElem core acc m x =
      if x ∈ cols then (f m x (s.accElem core acc m x)).1 else s.accElem core acc m x := by
  have row (u : State × List (Nat × Int)) (a m' x : Nat) (hx : x < 512) : (cols.foldl (elemStep core acc f a) u).1.accElem core acc m' x =
      if m' = a then if x ∈ cols then (f a x (u.1.accElem core acc a x)).1 else u.1.accElem core acc a x else u.1.accElem core acc m' x := by
    have one := foldl_updates (get := fun (u : State × List (Nat × Int)) x => u.1.accElem core acc m' x)
      (F := fun x e => if m' = a then (f a x e).1 else e) (step := elemStep core acc f a) (P := (· < 512)) nd
      (fun u n hn k hk => ?_) u hx
    · rw [one]
      by_cases e : m' = a
      · subst e
        simp
      · simp [e]
    · dsimp only [elemStep]
      rw [accElem_setAcc (hc n hn) hk]
      by_cases e : m' = a
      · subst e
        by_cases e : k = n
        · subst e
          simp
        · simp [e]
      · simp [e]
        rintro rfl
        rfl
  rw [eachElem_eq]
  have all := foldl_updates (get := fun (u : State × List (Nat × Int)) m => (u.1.accElem core acc m x))
    (F := fun m e => if x ∈ cols then (f m x e).1 else e) (P := fun _ => True) (List.nodup_range (n := 32))
    (fun u a _ k _ => row u a k x hx) (s, wraps) (k := m) trivial
  rw [all, if_pos (List.mem_range.2 hm)]

end

/-! ### Sums of products -/

section
variable (s : State) (core a b m n : Nat)

theorem dotInt_eq (k c : Nat) : dotInt s core a b m n k c =
    let tb := b + n / tcRows (s.tcOf core b)
    let r := n % tcRows (s.tcOf core b)
    (((List.range' k c).map fun k => (s.elemInt core a (s.tcOf core a) m k).1 * (s.elemInt core tb (s.tcOf core tb) r k).1).sum,
      (List.range' k c).any fun k => (s.elemInt core a (s.tcOf core a) m k).2 || (s.elemInt core tb (s.tcOf core tb) r k).2) := by
  induction c generalizing k with
  | zero => rfl
  | succ c ih =>
    unfold dotInt
    rw [ih, List.range'_succ]
    rfl

theorem dotPlane_eq (p j k c : Nat) : dotPlane s core a b m n p j k c =
    (((List.range' k c).map fun k => (if (planeBit s core b n k j).1 then (if j = 0 then -128 else 2 ^ (7 - j)) *
        (s.elemInt core a (s.tcOf core a) m k).1 else 0) +
        (if j = 0 ∧ p ≠ 8 then 2 ^ (7 - p) * (s.elemInt core a (s.tcOf core a) m k).1 else 0)).sum,
      (List.range' k c).any fun k => (s.elemInt core a (s.tcOf core a) m k).2 || (planeBit s core b n k j).2) := by
  induction c generalizing k with
  | zero => rfl
  | succ c ih =>
    unfold dotPlane
    rw [ih, List.range'_succ, List.map_cons, List.sum_cons, List.any_cons]
    dsimp only
    congr 2
    unfold planeWeight midpoint
    by_cases h0 : j = 0 <;> by_cases h8 : p = 8 <;> simp [h0, h8]

/-- The two chains of a float product. -/
def floatChain (ps : Nat → FVal × Bool) (ks : List Nat) (odd : Nat) (e : Word32) : Word32 :=
  (ks.filter fun k => k % 2 = odd).foldl (fun e k => w32 (fAddR .f32 .rn (f32 e) (ps k).1).code) e

theorem floatChain_cons (ps : Nat → FVal × Bool) (k : Nat) (ks : List Nat) (odd : Nat) (e : Word32) : floatChain ps (k :: ks) odd e =
    floatChain ps ks odd (if k % 2 = odd then w32 (fAddR .f32 .rn (f32 e) (ps k).1).code else e) := by
  unfold floatChain
  by_cases h : k % 2 = odd
  · rw [List.filter_cons_of_pos (by simp [h]), if_pos h]
    rfl
  · rw [List.filter_cons_of_neg (by simp [h]), if_neg h]

/-- A product of a float form. -/
def floatProduct (s : State) (core a b m n : Nat) (scaled : Bool) (k : Nat) : FVal × Bool :=
  let tb := b + n / tcRows (s.tcOf core b)
  let r := n % tcRows (s.tcOf core b)
  let x := if scaled then s.scaledVal core a (s.tcOf core a) m k else s.elemVal core a (s.tcOf core a) m k
  let y := if scaled then s.scaledVal core tb (s.tcOf core tb) r k else s.elemVal core tb (s.tcOf core tb) r k
  (capProduct (fMul x.1 y.1).1, x.2 || y.2)

theorem dotFloat_eq (scaled : Bool) (k c : Nat) (e : AccElem) : dotFloat s core a b m n scaled k c e =
    let ps := floatProduct s core a b m n scaled
    { e := floatChain ps (List.range' k c) 0 e.e, o := floatChain ps (List.range' k c) 1 e.o,
      poison := e.poison || (List.range' k c).any fun k => (ps k).2 } := by
  induction c generalizing k e with
  | zero => simp [dotFloat, floatChain]
  | succ c ih =>
    have step : dotFloat s core a b m n scaled k (c + 1) e =
        dotFloat s core a b m n scaled (k + 1) c (accumulate e k (floatProduct s core a b m n scaled k)) := rfl
    rw [step, ih, List.range'_succ]
    dsimp only
    rw [floatChain_cons, floatChain_cons, List.any_cons, ← Bool.or_assoc]
    obtain h | h := Nat.mod_two_eq_zero_or_one k <;> simp [accumulate, h]

end

/-! ### The steps -/

section
variable {s : State} {core acc kind a b n p i : Nat} {za pz : Bool} {wraps : List (Nat × Int)}

theorem tcOf_setImode (v : Bool) (t : Nat) : (s.setImode core acc v).tcOf core t = s.tcOf core t := by
  unfold State.tcOf State.setImode
  rw [State.core_setCore]

theorem imodeOf_setImode (v : Bool) : (s.setImode core acc v).imodeOf core acc = v := by
  unfold State.imodeOf State.setImode
  rw [State.core_setCore]
  exact Sp.get_put ..

theorem planeBit_setImode (v : Bool) (x k j : Nat) : planeBit (s.setImode core acc v) core b x k j = planeBit s core b x k j := by
  unfold planeBit bTile
  dsimp only
  rw [tcOf_setImode, tcOf_setImode]
  rfl

/-- The mode of an accumulator is no operand of a product. -/
theorem dotPlane_setImode (v : Bool) (m x j k c : Nat) :
    dotPlane (s.setImode core acc v) core a b m x p j k c = dotPlane s core a b m x p j k c := by
  simp only [dotPlane_eq, tcOf_setImode, planeBit_setImode]
  rfl

theorem dotInt_setImode (v : Bool) (m x k c : Nat) : dotInt (s.setImode core acc v) core a b m x k c = dotInt s core a b m x k c := by
  simp only [dotInt_eq, tcOf_setImode]
  rfl

theorem dotFloat_setImode (v scaled : Bool) (m x k c : Nat) (e : AccElem) :
    dotFloat (s.setImode core acc v) core a b m x scaled k c e = dotFloat s core a b m x scaled k c e := by
  have product : floatProduct (s.setImode core acc v) core a b m x scaled = floatProduct s core a b m x scaled := by
    funext k
    simp only [floatProduct, tcOf_setImode]
    rfl
  rw [dotFloat_eq, dotFloat_eq, product]

/-- A step of a product sets the mode of its accumulator, and no tile changes. -/
theorem mmaStep_keeps : let t := (mmaStep s core acc kind a b n p za pz i wraps).1
    t.imodeOf core acc = decide (3 ≤ kind) ∧ t.mx.image = s.mx.image ∧ t.mx.scales = s.mx.scales := by
  have each (wraps : List (Nat × Int)) (cols : List Nat) (f : Nat → Nat → AccElem → AccElem × Int) :
      let t := (eachElem (s.setImode core acc (decide (3 ≤ kind))) core acc wraps cols f).1
      t.imodeOf core acc = decide (3 ≤ kind) ∧ t.mx.image = s.mx.image ∧ t.mx.scales = s.mx.scales := by
    obtain ⟨image, scales, cores⟩ := eachElem_keeps (s := s.setImode core acc (decide (3 ≤ kind))) (core := core) (acc := acc)
      (f := f) wraps cols
    refine ⟨?_, image, scales⟩
    rw [State.imodeOf, State.core, cores, ← State.core, ← State.imodeOf, imodeOf_setImode]
  unfold mmaStep
  dsimp only
  split
  · exact each ..
  · exact each ..

/-- An element at the start of its columns, under ZA (R333). -/
def restarted (anew : Bool) (e : AccElem) : AccElem := if anew then { e with e := 0, poison := false } else e

/-- The columns of a step: 128 for planes, 16 for the other forms. -/
def planeCols (h n : Nat) : List Nat := (List.range 128).filterMap fun x => if 128 * h + x < n then some (128 * h + x) else none
def groupCols (g : Nat) : List Nat := (List.range 16).map fun x => 16 * g + x

theorem mem_planeCols {h n x : Nat} : x ∈ planeCols h n ↔ x / 128 = h ∧ x < n := by
  simp only [planeCols, List.mem_filterMap, List.mem_range, Option.ite_none_right_eq_some, Option.some.injEq]
  exact ⟨fun ⟨z, _, _, _⟩ => by omega, fun _ => ⟨x % 128, by omega, by omega, by omega⟩⟩

theorem planeCols_nodup (h n : Nat) : (planeCols h n).Nodup := by
  refine List.Nodup.filterMap (fun y z w hy hz => ?_) List.nodup_range
  simp only [Option.mem_def, Option.ite_none_right_eq_some, Option.some.injEq] at hy hz
  omega

theorem mem_groupCols {g x : Nat} : x ∈ groupCols g ↔ x / 16 = g := by
  simp only [groupCols, List.mem_map, List.mem_range]
  exact ⟨fun ⟨z, _, _⟩ => by omega, fun _ => ⟨x % 16, by omega, by omega⟩⟩

theorem groupCols_nodup (g : Nat) : (groupCols g).Nodup := List.nodup_range.map fun y z e => by simpa using e

theorem addInt_restarted (anew : Bool) (e : AccElem) (d : Int) (q : Bool) : (addInt (restarted anew e) (d, q)).1 =
    { e := BitVec.ofInt 32 ((if anew then 0 else e.e.toInt) + d), o := 0, poison := (!anew && e.poison) || q } := by
  cases anew <;> simp [addInt, restarted]

section
variable {m x : Nat} (hm : m < 32) (hx : x < 512)
include hm hx

/-- MMA.BP: 128 columns take the products of one plane of 48 weights. -/
theorem mmaStep_planes (hn : n ≤ 512) : (mmaStep s core acc 4 a b n p za pz i wraps).1.accElem core acc m x =
    let old := s.accElem core acc m x
    let round := tcSteps (s.tcOf core a) * p
    let d := dotPlane s core a b m x p (i % p) (48 * (i % round / p)) 48
    if x / 128 = i / round ∧ x < n then
      (addInt (restarted (za && decide (i % round / p = 0) && decide (i % p = 0)) old) (d.1, d.2 || pz)).1
    else old := by
  unfold mmaStep
  dsimp only
  rw [if_pos (beq_self_eq_true 4)]
  simp only [dotPlane_setImode]
  refine (eachElem_accElem (planeCols_nodup _ n) (fun y hy => (mem_planeCols.1 hy).2.trans_le hn) hm hx).trans ?_
  simp only [mem_planeCols]
  rfl

/-- The other forms: 16 columns take the products of one K-step. -/
theorem mmaStep_columns (hk : kind ≠ 4) (hn : n ≤ 512) (hi : i < mmaTotal kind n (tcSteps (s.tcOf core a)) p) :
    (mmaStep s core acc kind a b n p za pz i wraps).1.accElem core acc m x =
    let old := s.accElem core acc m x
    let st := tcSteps (s.tcOf core a)
    let ks := fmtStep (tcFmt (s.tcOf core a))
    let anew := za && decide (i % st = 0)
    if x / 16 = i / st ∧ x < n then
      if kind = 3 then
        let d := dotInt s core a b m x (i % st * ks) ks
        (addInt (restarted anew old) (d.1, d.2 || pz)).1
      else
        let d := dotFloat s core a b m x (kind == 2) (i % st * ks) ks (if anew then {} else old)
        { d with poison := d.poison || pz }
    else old := by
  have group : i / tcSteps (s.tcOf core a) < n / 16 := by
    rw [mmaTotal, if_neg (by simpa using hk)] at hi
    exact Nat.div_lt_of_lt_mul (by rwa [Nat.mul_comm])
  have inside : x / 16 = i / tcSteps (s.tcOf core a) ∧ x < n ↔ x ∈ groupCols (i / tcSteps (s.tcOf core a)) := by
    rw [mem_groupCols]
    omega
  unfold mmaStep
  dsimp only
  rw [if_neg (by simpa using hk)]
  simp only [dotInt_setImode, dotFloat_setImode, inside]
  refine (eachElem_accElem (groupCols_nodup _) (fun y hy => by have := mem_groupCols.1 hy; omega) hm hx).trans ?_
  by_cases h3 : kind = 3
  · subst h3
    rfl
  · rw [if_neg h3]
    simp only [beq_iff_eq, if_neg h3]
    rfl

end

end

end Sys2Proof.Machine

/-!
PROOF. What is read of tiles after a write (R322, R323), and codes in their bytes.
-/

namespace Sys2Proof.Machine

open Claim

/-! ### Codes in bytes -/

theorem leNat_leBytes (v n : Nat) : leNat (leBytes v n) = v % 256 ^ n := by
  induction n generalizing v with
  | zero => simp [leNat, leBytes, Nat.mod_one]
  | succ n ih =>
    rw [leBytes, leNat, ih, BitVec.toNat_ofNat, show (2 : Nat) ^ 8 = 256 from rfl, Nat.pow_succ', Nat.mod_mul]

/-- An element has 1, 2, 4 or 8 half-bytes (R322). -/
def ElemWidth (h : Nat) : Prop := h = 1 ∨ h = 2 ∨ h = 4 ∨ h = 8

theorem fmtHalf_width (f : Nat) : ElemWidth (fmtHalf f) := by
  unfold fmtHalf ElemWidth
  split <;> simp

/-- The bytes of two elements. -/
def pairBytes (h a b : Nat) : List Byte := if h == 1 then [BitVec.ofNat 8 (a + 16 * b)] else leBytes a (h / 2) ++ leBytes b (h / 2)

/-- The code of an element of an even or odd place, in the bytes from its own on. -/
def codeAt (h j : Nat) (bs : List Byte) : Nat :=
  let x := leNat (bs.take ((h + 1) / 2))
  if h == 1 then x / 16 ^ (j % 2) % 16 else x

section
variable {h : Nat} (hh : ElemWidth h)
include hh

theorem length_pairBytes (a b : Nat) : (pairBytes h a b).length = h := by
  unfold pairBytes
  obtain rfl | rfl | rfl | rfl := hh <;> simp [length_leBytes]

/-- The first of a pair of codes reads back. -/
theorem codeAt_fst {a b : Nat} (ha : a < 2 ^ (4 * h)) (hb : b < 2 ^ (4 * h)) (j : Nat) (bs : List Byte) :
    codeAt h (2 * j) (pairBytes h a b ++ bs) = a := by
  unfold codeAt pairBytes
  obtain rfl | rfl | rfl | rfl := hh
  · simp [leNat]
    omega
  all_goals
    simp only [Nat.reduceAdd, Nat.reduceDiv, Nat.reduceBEq, Bool.false_eq_true, if_false, List.append_assoc]
    rw [List.take_left' (length_leBytes _ _), leNat_leBytes, Nat.mod_eq_of_lt (by simpa using ha)]

/-- So does the second. -/
theorem codeAt_snd {a b : Nat} (ha : a < 2 ^ (4 * h)) (hb : b < 2 ^ (4 * h)) (j : Nat) (bs : List Byte) :
    codeAt h (2 * j + 1) ((pairBytes h a b ++ bs).drop (h / 2)) = b := by
  unfold codeAt pairBytes
  obtain rfl | rfl | rfl | rfl := hh
  · simp [leNat]
    omega
  all_goals
    simp only [Nat.reduceAdd, Nat.reduceDiv, Nat.reduceBEq, Bool.false_eq_true, if_false, List.append_assoc]
    rw [List.drop_left' (length_leBytes _ _), List.take_left' (length_leBytes _ _), leNat_leBytes, Nat.mod_eq_of_lt (by simpa using hb)]

theorem length_packCodes {l : List Nat} (even : l.length % 2 = 0) : 2 * (packCodes h l).length = h * l.length := by
  induction l using packCodes.induct with
  | case1 => rfl
  | case2 a => simp at even
  | case3 a b l ih =>
    have ih := ih (by simp only [List.length_cons] at even; omega)
    have split : packCodes h (a :: b :: l) = pairBytes h a b ++ packCodes h l := rfl
    rw [split, List.length_append, length_pairBytes hh, List.length_cons, List.length_cons]
    linarith

/-- Packed codes read back. -/
theorem codeAt_packCodes {l : List Nat} (even : l.length % 2 = 0) (small : ∀ c ∈ l, c < 2 ^ (4 * h)) {j : Nat} (hj : j < l.length) :
    codeAt h j ((packCodes h l).drop (j * h / 2)) = l[j] := by
  induction l using packCodes.induct generalizing j with
  | case1 => simp at hj
  | case2 a => simp at even
  | case3 a b l ih =>
    have ha := small a (by simp)
    have hb := small b (by simp)
    have split : packCodes h (a :: b :: l) = pairBytes h a b ++ packCodes h l := rfl
    rw [split]
    match j with
    | 0 => simpa using codeAt_fst hh ha hb 0 (packCodes h l)
    | 1 => simpa using codeAt_snd hh ha hb 0 (packCodes h l)
    | j + 2 =>
      have ih := ih (by simp only [List.length_cons] at even; omega) (fun c hc => small c (by simp [hc])) (j := j) (by simpa using hj)
      have place : (j + 2) * h / 2 = h + j * h / 2 := by
        rw [Nat.add_mul, Nat.add_comm, Nat.add_div_of_dvd_right ⟨h, rfl⟩]
        omega
      rw [place, ← List.drop_drop, List.drop_left' (length_pairBytes hh a b)]
      simp only [codeAt, Nat.add_mod_right] at ih ⊢
      exact ih

end

/-! ### Memory of a tile -/

theorem Memory.length_readN (m : List Host.Cell) (a n : Nat) : (Memory.readN m a n).length = n := by
  induction n generalizing a with
  | zero => rfl
  | succ n ih => simp [Memory.readN, ih]

theorem Memory.getElem_readN (m : List Host.Cell) (a n : Nat) {i : Nat} (h : i < (Memory.readN m a n).length) :
    (Memory.readN m a n)[i] = Memory.read m (a + i) := by
  induction n generalizing a i with
  | zero => simp [Memory.readN] at h
  | succ n ih =>
    cases i with
    | zero => rfl
    | succ i => simp [Memory.readN, ih, Nat.add_assoc, Nat.add_comm 1 i]

theorem Memory.readN_congr {m m' : List Host.Cell} {a n : Nat} (h : ∀ i, i < n → Memory.read m' (a + i) = Memory.read m (a + i)) :
    Memory.readN m' a n = Memory.readN m a n := by
  refine List.ext_getElem (by simp [Memory.length_readN]) fun i h1 h2 => ?_
  rw [Memory.getElem_readN, Memory.getElem_readN]
  exact h i (by simpa [Memory.length_readN] using h1)

section
variable {s : State} {core t off : Nat} {bs : List Byte} {pz : Bool}

/-- A byte of a tile outside the bytes written stays, and so does every byte of another tile. -/
theorem imgByte_putImg_out {u b : Nat} (ho : off + bs.length ≤ 32768) (hb : b < 32768) (h : u ≠ t ∨ b < off ∨ off + bs.length ≤ b) :
    (s.putImg core t off bs pz).imgByte core u b = s.imgByte core u b :=
  Memory.read_writeN_out _ _ _ _ (by unfold imgKey tileNo; omega)

/-- A byte written reads back. -/
theorem imgByte_putImg {d : Nat} (h : d < bs.length) : (s.putImg core t off bs pz).imgByte core t (off + d) = bs[d] := by
  rw [← Memory.read_writeN_in s.mx.image bs (imgKey core t off) d h]
  unfold State.imgByte imgKey
  rw [Nat.add_assoc]
  rfl

theorem imgBytes_congr {s' : State} {u b n : Nat} (h : ∀ i, i < n → s'.imgByte core u (b + i) = s.imgByte core u (b + i)) :
    s'.imgBytes core u b n = s.imgBytes core u b n := by
  refine Memory.readN_congr fun i hi => ?_
  have := h i hi
  unfold State.imgByte imgKey at this
  rwa [← Nat.add_assoc] at this

theorem length_imgBytes (s : State) (core u b n : Nat) : (s.imgBytes core u b n).length = n := Memory.length_readN _ _ _

theorem getElem_imgBytes {u b n i : Nat} (h : i < (s.imgBytes core u b n).length) : (s.imgBytes core u b n)[i] = s.imgByte core u (b + i) := by
  refine (Memory.getElem_readN _ _ _ h).trans ?_
  unfold State.imgByte imgKey
  rw [Nat.add_assoc]

theorem get_setWords (m : List (Nat × Bool)) (k : Nat) (b : Bool) (n w : Nat) :
    Sp.get false (setWords m k b n) w = if k ≤ w ∧ w < k + n then b else Sp.get false m w := by
  induction n generalizing m k with
  | zero =>
    rw [setWords, if_neg (by omega)]
  | succ n ih =>
    rw [setWords, ih]
    by_cases e : w = k
    · subst e
      rw [Sp.get_put, if_neg (by omega), if_pos (by omega)]
    · rw [Sp.get_put_ne _ _ _ e]
      exact if_congr (by omega) rfl rfl

/-- The words that the bytes written touch take their tag; the others keep theirs. -/
theorem wordPoison_putImg {u w : Nat} (ho : off + bs.length ≤ 32768) (hw : w < 8192) :
    (s.putImg core t off bs pz).wordPoison core u w =
      if u = t ∧ bs ≠ [] ∧ off / 4 ≤ w ∧ 4 * w < off + bs.length then pz else s.wordPoison core u w := by
  unfold State.wordPoison State.putImg State.setMx
  dsimp only
  rw [get_setWords]
  unfold wordKey tileNo
  cases bs with
  | nil => simp
  | cons b bs =>
    simp only [List.isEmpty_cons, Bool.false_eq_true, if_false, ne_eq, reduceCtorEq, not_false_eq_true, true_and, List.length_cons] at ho ⊢
    exact if_congr (by omega) rfl rfl

theorem sclByte_putScl {u o : Nat} {b : Byte} (ho : off < 4096) (hu : o < 4096) :
    (s.putScl core t off pz [b]).sclByte core u o = if u = t ∧ o = off then b else s.sclByte core u o := by
  unfold State.putScl State.putScl State.sclByte State.setMx
  dsimp only
  split
  · next h =>
    obtain ⟨rfl, rfl⟩ := h
    exact Sp.get_put ..
  · next h => exact Sp.get_put_ne _ _ _ (by unfold sclKey tileNo; omega)

end

end Sys2Proof.Machine

/-!
PROOF. A step of a drain (R336, R337).
-/

namespace Sys2Proof.Machine

open Claim

/-! ### Places of a row -/

/-- Where the block of 16 columns that step i drains to row m stands in the tile. -/
def blockAt (v : Word32) (i m : Nat) : Nat := 48 * (m * tcSteps v) + 8 * (fmtHalf (tcFmt v) * i)

/-- Step i is one of a tile of 32 rows: its block stands in the row. -/
structure DrainFits (v : Word32) (i : Nat) : Prop where
  steps : tcSteps v ≤ 16
  block : 8 * (fmtHalf (tcFmt v) * i) + 8 * fmtHalf (tcFmt v) ≤ 48 * tcSteps v

theorem rows_apart {m a : Nat} (h : a ≠ m) (n : Nat) : m * n + n ≤ a * n ∨ a * n + n ≤ m * n := by
  rcases Nat.lt_or_gt_of_ne h with lt | gt
  · have := Nat.mul_le_mul_right n lt
    rw [Nat.succ_mul] at this
    exact .inr this
  · have := Nat.mul_le_mul_right n gt
    rw [Nat.succ_mul] at this
    exact .inl this

/-- The steps of 32 rows of up to 16. -/
theorem row_le {v : Word32} {m : Nat} (hm : m < 32) (h : tcSteps v ≤ 16) : m * tcSteps v + tcSteps v ≤ 512 := by
  have := Nat.mul_le_mul (Nat.succ_le_of_lt hm) h
  rw [Nat.succ_mul] at this
  omega

theorem elemAt_block (v : Word32) (i m x : Nat) : elemAt v m (16 * i + x) = blockAt v i m + x * fmtHalf (tcFmt v) / 2 := by
  unfold elemAt blockAt
  obtain h | h | h | h := fmtHalf_width (tcFmt v) <;> rw [h] <;> omega

theorem elemAt_start (v : Word32) (i m : Nat) : elemAt v m (16 * i) = blockAt v i m := by
  have := elemAt_block v i m 0
  rwa [Nat.zero_mul, Nat.zero_div, Nat.add_zero, Nat.add_zero] at this

theorem blockAt_mod (v : Word32) (i m : Nat) : blockAt v i m % 4 = 0 := by
  unfold blockAt
  omega

section
variable {v : Word32} {i m : Nat} (fits : DrainFits v i)
include fits

theorem blockAt_le (hm : m < 32) : blockAt v i m + 8 * fmtHalf (tcFmt v) ≤ 24576 := by
  have row := row_le hm fits.steps
  have block := fits.block
  unfold blockAt
  omega

/-- Blocks of rows stand apart. -/
theorem blocks_apart {a : Nat} (h : a ≠ m) : blockAt v i a + 8 * fmtHalf (tcFmt v) ≤ blockAt v i m ∨
    blockAt v i m + 8 * fmtHalf (tcFmt v) ≤ blockAt v i a := by
  have rows := rows_apart h (tcSteps v)
  have block := fits.block
  unfold blockAt
  omega

end

/-- The places of 16 elements in a block. -/
theorem elem_in_block (v : Word32) {x : Nat} (hx : x < 16) : x * fmtHalf (tcFmt v) / 2 < 8 * fmtHalf (tcFmt v) := by
  obtain h | h | h | h := fmtHalf_width (tcFmt v) <;> rw [h] <;> omega

/-! ### What leaves a row alone -/

/-- What step i reads of row m, and what it writes there, is the same in u as in s. -/
structure RowSame (core acc tile tv : Nat) (scv : Bool) (v : Word32) (i m : Nat) (s u : State) : Prop where
  cores  : u.cores = s.cores
  vector : scv = true → ∀ b < 32768, u.imgByte core tv b = s.imgByte core tv b
  tags   : scv = true → ∀ w < 8192, u.wordPoison core tv w = s.wordPoison core tv w
  elems  : ∀ x < 512, u.accElem core acc m x = s.accElem core acc m x
  bytes  : ∀ d < 8 * fmtHalf (tcFmt v), u.imgByte core tile (blockAt v i m + d) = s.imgByte core tile (blockAt v i m + d)
  words  : ∀ d < 8 * fmtHalf (tcFmt v),
    u.wordPoison core tile ((blockAt v i m + d) / 4) = s.wordPoison core tile ((blockAt v i m + d) / 4)
  scale  : tcScl v = true → u.sclByte core tile (scaleAt v m (16 * i)) = s.sclByte core tile (scaleAt v m (16 * i))

namespace RowSame

variable {core acc tile tv i m : Nat} {scv : Bool} {v : Word32} {s u t : State}

theorem refl (s : State) : RowSame core acc tile tv scv v i m s s :=
  ⟨rfl, fun _ _ _ => rfl, fun _ _ _ => rfl, fun _ _ => rfl, fun _ _ => rfl, fun _ _ => rfl, fun _ => rfl⟩

theorem trans (h : RowSame core acc tile tv scv v i m s u) (k : RowSame core acc tile tv scv v i m u t) :
    RowSame core acc tile tv scv v i m s t where
  cores := k.cores.trans h.cores
  vector hs b hb := (k.vector hs b hb).trans (h.vector hs b hb)
  tags hs w hw := (k.tags hs w hw).trans (h.tags hs w hw)
  elems x hx := (k.elems x hx).trans (h.elems x hx)
  bytes d hd := (k.bytes d hd).trans (h.bytes d hd)
  words d hd := (k.words d hd).trans (h.words d hd)
  scale hs := (k.scale hs).trans (h.scale hs)

theorem foldl {α : Type} {f : State → α → State} {l : List α} 
    (h : ∀ u, ∀ a ∈ l, RowSame core acc tile tv scv v i m u (f u a)) (s : State) :
    RowSame core acc tile tv scv v i m s (l.foldl f s) := by
  induction l generalizing s with
  | nil => exact refl s
  | cons a l ih => exact (h s a List.mem_cons_self).trans (ih (fun u b hb => h u b (List.mem_cons_of_mem a hb)) _)

theorem ite {p : Prop} [Decidable p] (h : p → RowSame core acc tile tv scv v i m s u) :
    RowSame core acc tile tv scv v i m s (if p then u else s) := by
  split
  · next hp => exact h hp
  · exact refl s

section
variable (fits : DrainFits v i) (hm : m < 32) (apart : scv = true → tv ≠ tile)
include fits hm apart

/-- Whole words written beside the block of a row. -/
theorem putImg {off : Nat} {bs : List Byte} {pz : Bool} (ho : off + bs.length ≤ 32768) (hw : off % 4 = 0) (hl : bs.length % 4 = 0)
    (h : off + bs.length ≤ blockAt v i m ∨ blockAt v i m + 8 * fmtHalf (tcFmt v) ≤ off) :
    RowSame core acc tile tv scv v i m s (s.putImg core tile off bs pz) := by
  have inside := blockAt_le fits hm
  refine ⟨rfl, fun hs b hb => imgByte_putImg_out ho hb (.inl (apart hs)), fun hs w hw => ?_, fun _ _ => rfl, fun d hd => ?_, fun d hd => ?_,
    fun _ => rfl⟩
  · rw [wordPoison_putImg ho hw, if_neg fun e => apart hs e.1]
  · exact imgByte_putImg_out ho (by omega) (.inr (by omega))
  · rw [wordPoison_putImg ho (by omega), if_neg]
    have := blockAt_mod v i m
    omega

theorem tagElem {a n : Nat} (ha : elemAt v a n / 4 < 8192) (h : elemAt v a n / 4 < blockAt v i m / 4 ∨
    blockAt v i m + 8 * fmtHalf (tcFmt v) ≤ elemAt v a n) :
    RowSame core acc tile tv scv v i m s (Machine.tagElem s core tile v a n) := by
  have inside := blockAt_le fits hm
  have whole := blockAt_mod v i m
  have other {t w : Nat} (hw : w < 8192) (h : t ≠ tile ∨ w ≠ elemAt v a n / 4) :
      (Machine.tagElem s core tile v a n).wordPoison core t w = s.wordPoison core t w := by
    exact Sp.get_put_ne false s.mx.wpoison true (by unfold wordKey tileNo; omega)
  refine ⟨rfl, fun _ _ _ => rfl, fun hs w hw => other hw (.inl (apart hs)), fun _ _ => rfl, fun _ _ => rfl, fun d hd => ?_, fun _ => rfl⟩
  exact other (by omega) (.inr (by omega))

end

theorem putScl {off : Nat} {b : Byte} (ho : off < 4096) (hs : tcScl v = true → scaleAt v m (16 * i) < 4096 ∧ scaleAt v m (16 * i) ≠ off) :
    RowSame core acc tile tv scv v i m s (s.putScl core tile off false [b]) := by
  refine ⟨rfl, fun _ _ _ => rfl, fun _ _ _ => rfl, fun _ _ => rfl, fun _ _ => rfl, fun _ _ => rfl, fun h => ?_⟩
  rw [sclByte_putScl ho (hs h).1, if_neg fun e => (hs h).2 e.2]

theorem setAcc {a x : Nat} {e : AccElem} (hx : x < 512) (ha : a ≠ m) : RowSame core acc tile tv scv v i m s (s.setAcc core acc a x e) :=
  ⟨rfl, fun _ _ _ => rfl, fun _ _ _ => rfl, fun y hy => by rw [accElem_setAcc hx hy, if_neg fun e => ha e.1.symm], fun _ _ => rfl,
    fun _ _ => rfl, fun _ => rfl⟩

end RowSame

/-! ### Scale bytes of blocks -/

/-- The scale byte of an element is that of its block of 16, of which a step of a row has 3 or 6. -/
theorem scaleAt_block {v : Word32} (hf : scaledFmt (tcFmt v) = true) : ∃ q, (q = 3 ∨ q = 6) ∧ q * fmtHalf (tcFmt v) = 6 ∧
    ∀ m n, scaleAt v m n = 6 * (m * tcSteps v) + (6 * (n / 16 / q) + n / 16 % q) := by
  unfold scaledFmt at hf
  simp only [Bool.or_eq_true, beq_iff_eq] at hf
  unfold scaleAt fmtStep
  obtain (hf | hf) | hf := hf <;> rw [hf]
  · exact ⟨3, .inl rfl, rfl, fun m n => by simp only [fmtHalf]; omega⟩
  · exact ⟨3, .inl rfl, rfl, fun m n => by simp only [fmtHalf]; omega⟩
  · exact ⟨6, .inr rfl, rfl, fun m n => by simp only [fmtHalf]; omega⟩

/-- Blocks of the rows of a tile have scale bytes of their own. -/
theorem scaleAt_apart {v : Word32} (hf : scaledFmt (tcFmt v) = true) (hs : tcSteps v ≤ 16) {m a i j : Nat} (hm : m < 32)
    (hi : fmtHalf (tcFmt v) * i + fmtHalf (tcFmt v) ≤ 6 * tcSteps v) (hj : fmtHalf (tcFmt v) * j + fmtHalf (tcFmt v) ≤ 6 * tcSteps v) :
    scaleAt v m (16 * i) < 4096 ∧ (a ≠ m ∨ j ≠ i → scaleAt v m (16 * i) ≠ scaleAt v a (16 * j)) := by
  obtain ⟨q, hq, width, at_⟩ := scaleAt_block hf
  rw [at_, at_, Nat.mul_div_cancel_left _ (by decide), Nat.mul_div_cancel_left _ (by decide)]
  have row := row_le hm hs
  have apart (h : a ≠ m) := rows_apart h (tcSteps v)
  have same (h : a = m) : a * tcSteps v = m * tcSteps v := by rw [h]
  generalize m * tcSteps v = M, a * tcSteps v = A, tcSteps v = n at *
  obtain rfl | rfl := hq
  · have h2 : fmtHalf (tcFmt v) = 2 := by omega
    rw [h2] at hi hj
    refine ⟨by omega, fun h => ?_⟩
    by_cases e : a = m
    · have := same e
      omega
    · have := apart e
      omega
  · have h1 : fmtHalf (tcFmt v) = 1 := by omega
    rw [h1] at hi hj
    refine ⟨by omega, fun h => ?_⟩
    by_cases e : a = m
    · have := same e
      omega
    · have := apart e
      omega

/-! ### One row -/

section
variable {s : State} {core acc tile tv c0 i m : Nat} {v : Word32} {scv sat zero pz : Bool} {vals : List (Drained × Bool)}

theorem tagElem_word {n u w : Nat} (hn : elemAt v m n / 4 < 8192) (hw : w < 8192) : (tagElem s core tile v m n).wordPoison core u w =
    (s.wordPoison core u w || decide (u = tile ∧ w = elemAt v m n / 4)) := by
  by_cases h : u = tile ∧ w = elemAt v m n / 4
  · obtain ⟨rfl, rfl⟩ := h
    simp [tagElem, State.wordPoison, State.setMx]
  · rw [decide_eq_false h, Bool.or_false]
    exact Sp.get_put_ne false s.mx.wpoison true (by unfold wordKey tileNo; omega)

/-- A word is tagged once a tagged value stands in it. -/
theorem tagRow_word {n w : Nat} (hn : ∀ x < vals.length, elemAt v m (n + x) / 4 < 8192) (hw : w < 8192) :
    (tagRow s core tile v pz m n vals).wordPoison core tile w =
      (s.wordPoison core tile w || vals.zipIdx.any fun y => (y.1.2 || pz) && decide (w = elemAt v m (n + y.2) / 4)) := by
  have small : ∀ y ∈ vals.zipIdx, elemAt v m (n + y.2) / 4 < 8192 := fun y hy => hn _ (by simpa using (List.mem_zipIdx hy).2.1)
  unfold tagRow
  generalize vals.zipIdx = l at small
  induction l generalizing s with
  | nil => simp
  | cons y l ih =>
    rw [List.foldl_cons, ih (fun z hz => small z (List.mem_cons_of_mem y hz)), List.any_cons, ← Bool.or_assoc]
    congr 1
    split
    · next h => rw [tagElem_word (small y List.mem_cons_self) hw, h, Bool.true_and, decide_eq_decide.2 (and_iff_right rfl)]
    · next h => rw [Bool.eq_false_iff.2 h, Bool.false_and, Bool.or_false]

/-- Tags change no byte, scale, element or core. -/
theorem tagRow_keeps (n : Nat) : let u := tagRow s core tile v pz m n vals
    u.mx.image = s.mx.image ∧ u.mx.accs = s.mx.accs ∧ u.mx.scales = s.mx.scales ∧ u.cores = s.cores := by
  have keeps {β : Type} (g : State → β) (hg : ∀ u n, g (tagElem u core tile v m n) = g u) : g (tagRow s core tile v pz m n vals) = g s :=
    foldl_keeps g (fun u y => (apply_ite g _ _ _).trans (ite_eq_right_iff.2 fun _ => hg _ _)) _ _
  exact ⟨keeps (·.mx.image) fun _ _ => rfl, keeps (·.mx.accs) fun _ _ => rfl, keeps (·.mx.scales) fun _ _ => rfl,
    keeps (·.cores) fun _ _ => rfl⟩

/-- Nor does a reset, but for elements. -/
theorem zeroRow_keeps (c : Nat) : let u := zeroRow s core acc m c
    u.mx.image = s.mx.image ∧ u.mx.wpoison = s.mx.wpoison ∧ u.mx.scales = s.mx.scales ∧ u.cores = s.cores := by
  have keeps {β : Type} (g : State → β) (hg : ∀ u n e, g (State.setAcc u core acc m n e) = g u) : g (zeroRow s core acc m c) = g s :=
    foldl_keeps g (fun u x => hg ..) _ _
  exact ⟨keeps (·.mx.image) fun _ _ _ => rfl, keeps (·.mx.wpoison) fun _ _ _ => rfl, keeps (·.mx.scales) fun _ _ _ => rfl,
    keeps (·.cores) fun _ _ _ => rfl⟩

/-- The 16 elements from column c on are reset by the mode of their accumulator. -/
theorem accElem_zeroRow {c x : Nat} (hc : c + 16 ≤ 512) (hx : x < 512) (a : Nat) : (zeroRow s core acc m c).accElem core acc a x =
    if a = m ∧ c ≤ x ∧ x < c + 16 then zeroElem (s.imodeOf core acc) else s.accElem core acc a x := by
  have cols (y : Nat) : y ∈ (List.range 16).map (c + ·) ↔ c ≤ y ∧ y < c + 16 := by
    simp only [List.mem_map, List.mem_range]
    exact ⟨fun ⟨z, _, _⟩ => by omega, fun _ => ⟨y - c, by omega, by omega⟩⟩
  have row := foldl_updates (get := fun (u : State) x => (u.accElem core acc a x, u.imodeOf core acc))
    (F := fun _ e => (if a = m then zeroElem e.2 else e.1, e.2)) (step := fun u x => u.setAcc core acc m x (zeroElem (u.imodeOf core acc)))
    (P := (· < 512)) (l := (List.range 16).map (c + ·)) (List.nodup_range.map fun y z e => by simpa using e)
    (fun u y hy k hk => by
      have := (cols y).1 hy
      rw [accElem_setAcc (by omega) hk]
      by_cases e : k = y
      · subst e
        by_cases ea : a = m <;> simp [ea] <;> rfl
      · simp [e]
        rfl) s hx
  rw [List.foldl_map] at row
  have row := congrArg Prod.fst row
  dsimp only at row
  simp only [cols] at row
  rw [zeroRow, row]
  by_cases ea : a = m <;> by_cases ec : c ≤ x ∧ x < c + 16 <;> simp [ea, ec]

theorem length_drainVals : (drainVals s core acc tile tv c0 scv i m).length = 16 := by simp [drainVals]

theorem length_drainBytes (hl : vals.length = 16) : (drainBytes v sat vals).length = 8 * fmtHalf (tcFmt v) := by
  have len := length_packCodes (fmtHalf_width (tcFmt v))
    (l := vals.map fun y => drainCode (tcFmt v) sat ((drainScale v vals : Int) - 127) y.1) (by simp [hl])
  rw [List.length_map, hl] at len
  unfold drainBytes
  omega

/-- A drain of a row changes no configuration. -/
theorem drainRow_cores : (drainRow s core acc tile tv c0 scv sat zero pz i m).cores = s.cores := by
  rw [drainRow_eq]
  dsimp only
  generalize drainVals s core acc tile tv c0 scv i m = vals
  generalize hu : tagRow _ core tile (s.tcOf core tile) pz m (16 * i) vals = u
  have tagged : u.cores = s.cores := by
    rw [← hu]
    exact (tagRow_keeps (16 * i)).2.2.2
  have scaled (p : Prop) [Decidable p] (o : Nat) (b : Byte) : (if p then u.putScl core tile o false [b] else u).cores = u.cores := by
    split <;> rfl
  split
  · exact ((zeroRow_keeps _).2.2.2.trans (scaled ..)).trans tagged
  · exact (scaled ..).trans tagged

section
variable (hv : s.tcOf core tile = v) (fits : DrainFits v i) (scaled : tcScl v = true → scaledFmt (tcFmt v) = true) (hm : m < 32)
  (apart : scv = true → tv ≠ tile) (hc : c0 + 16 * (i + 1) ≤ 512)
include hv fits scaled hm apart hc

/-- A drain of a row leaves the other rows alone. -/
theorem drainRow_same {a : Nat} (ha : a < 32) (ne : a ≠ m) :
    RowSame core acc tile tv scv v i m s (drainRow s core acc tile tv c0 scv sat zero pz i a) := by
  subst hv
  generalize hw : s.tcOf core tile = v at *
  have inside := blockAt_le fits ha
  have beside := blocks_apart fits ne
  have whole := blockAt_mod v i a
  have len := length_drainBytes (v := v) (sat := sat) (length_drainVals (s := s) (core := core) (acc := acc) (tile := tile) (tv := tv)
    (c0 := c0) (scv := scv) (i := i) (m := a))
  have block := fits.block
  rw [drainRow_eq]
  dsimp only
  rw [hw]
  have vals16 := length_drainVals (s := s) (core := core) (acc := acc) (tile := tile) (tv := tv) (c0 := c0) (scv := scv) (i := i) (m := a)
  generalize drainVals s core acc tile tv c0 scv i a = vals at len vals16 ⊢
  have image : RowSame core acc tile tv scv v i m s (s.putImg core tile (elemAt v a (16 * i)) (drainBytes v sat vals) false) := by
    rw [elemAt_start]
    exact RowSame.putImg fits hm apart (by omega) whole (by omega) (by omega)
  have tags (u : State) : RowSame core acc tile tv scv v i m u (tagRow u core tile v pz a (16 * i) vals) := by
    refine RowSame.foldl (fun u y hy => RowSame.ite fun _ => ?_) u
    have hy : y.2 < 16 := by simpa [vals16] using (List.mem_zipIdx hy).2.1
    have place := elem_in_block v hy
    have own := blockAt_mod v i m
    exact RowSame.tagElem fits hm apart (by rw [elemAt_block]; omega) (by rw [elemAt_block]; omega)
  have scale (u : State) : RowSame core acc tile tv scv v i m u (if tcScl v then u.putScl core tile (scaleAt v a (16 * i)) false
      [BitVec.ofNat 8 (drainScale v vals)] else u) := by
    refine RowSame.ite fun hs => ?_
    obtain ⟨small, -⟩ := scaleAt_apart (scaled hs) fits.steps (a := m) ha (i := i) (j := i) (by omega) (by omega)
    obtain ⟨small', other⟩ := scaleAt_apart (scaled hs) fits.steps (a := a) hm (i := i) (j := i) (by omega) (by omega)
    exact RowSame.putScl small fun _ => ⟨small', other (.inl ne)⟩
  have reset (u : State) : RowSame core acc tile tv scv v i m u (if zero then zeroRow u core acc a (c0 + 16 * i) else u) :=
    RowSame.ite fun _ => RowSame.foldl (fun u x hx => RowSame.setAcc (by have := List.mem_range.1 hx; omega) ne) u
  exact ((image.trans (tags _)).trans (scale _)).trans (reset _)

end

/-- What step i of a drain leaves in row m, of what stood in s. -/
structure RowDrained (core acc tile tv c0 : Nat) (scv sat zero pz : Bool) (v : Word32) (i m : Nat) (s u : State) : Prop where
  bytes : ∀ d < 8 * fmtHalf (tcFmt v), some (u.imgByte core tile (blockAt v i m + d)) =
    (drainBytes v sat (drainVals s core acc tile tv c0 scv i m))[d]?
  words : ∀ d < 8 * fmtHalf (tcFmt v), u.wordPoison core tile ((blockAt v i m + d) / 4) =
    (drainVals s core acc tile tv c0 scv i m).zipIdx.any fun y => (y.1.2 || pz) &&
      decide ((blockAt v i m + d) / 4 = elemAt v m (16 * i + y.2) / 4)
  scale : tcScl v = true → u.sclByte core tile (scaleAt v m (16 * i)) =
    BitVec.ofNat 8 (drainScale v (drainVals s core acc tile tv c0 scv i m))
  elems : ∀ x < 512, u.accElem core acc m x = if zero = true ∧ c0 + 16 * i ≤ x ∧ x < c0 + 16 * i + 16
    then zeroElem (s.imodeOf core acc) else s.accElem core acc m x

/-- An element reads as before where the accumulators are as before, and so does a mode where the cores are. -/
theorem accElem_of_accs {u : State} (h : u.mx.accs = s.mx.accs) (a x : Nat) : u.accElem core acc a x = s.accElem core acc a x := by
  unfold State.accElem
  rw [h]

theorem imodeOf_of_cores {u : State} (h : u.cores = s.cores) : u.imodeOf core acc = s.imodeOf core acc := by
  unfold State.imodeOf State.core
  rw [h]

/-- A drain of a row writes the block of its 16 values. -/
theorem drainRow_drained (hv : s.tcOf core tile = v) (fits : DrainFits v i) (scaled : tcScl v = true → scaledFmt (tcFmt v) = true)
    (hm : m < 32) (hc : c0 + 16 * (i + 1) ≤ 512) :
    RowDrained core acc tile tv c0 scv sat zero pz v i m s (drainRow s core acc tile tv c0 scv sat zero pz i m) := by
  have inside := blockAt_le fits hm
  have whole := blockAt_mod v i m
  have block := fits.block
  have vals16 := length_drainVals (s := s) (core := core) (acc := acc) (tile := tile) (tv := tv) (c0 := c0) (scv := scv) (i := i) (m := m)
  have len := length_drainBytes (v := v) (sat := sat) vals16
  have eq := drainRow_eq s core acc tile tv c0 scv sat zero pz i m
  dsimp only at eq
  rw [hv, elemAt_start] at eq
  generalize hvals : drainVals s core acc tile tv c0 scv i m = vals at eq vals16 len
  generalize hp : s.putImg core tile (blockAt v i m) (drainBytes v sat vals) false = p at eq
  obtain ⟨timage, taccs, tscales, tcores⟩ := tagRow_keeps (s := p) (core := core) (tile := tile) (v := v) (pz := pz) (m := m)
    (vals := vals) (16 * i)
  generalize ht : tagRow p core tile v pz m (16 * i) vals = t at eq timage taccs tscales tcores
  have scale : ∃ c : State, (if tcScl v then t.putScl core tile (scaleAt v m (16 * i)) false [BitVec.ofNat 8 (drainScale v vals)] else t) = c ∧
      c.mx.image = t.mx.image ∧ c.mx.wpoison = t.mx.wpoison ∧ c.mx.accs = t.mx.accs ∧ c.cores = t.cores ∧
      (tcScl v = true → c.sclByte core tile (scaleAt v m (16 * i)) = BitVec.ofNat 8 (drainScale v vals)) := by
    cases hs : tcScl v
    · exact ⟨t, rfl, rfl, rfl, rfl, rfl, fun h => absurd h Bool.false_ne_true⟩
    · obtain ⟨small, -⟩ := scaleAt_apart (scaled hs) fits.steps (a := m) hm (i := i) (j := i) (by omega) (by omega)
      exact ⟨_, rfl, rfl, rfl, rfl, rfl, fun _ => (sclByte_putScl small small).trans (if_pos ⟨rfl, rfl⟩)⟩
  obtain ⟨c, hcs, cimage, cwpoison, caccs, ccores, cscale⟩ := scale
  rw [hcs] at eq
  have reset : ∃ u : State, (if zero then zeroRow c core acc m (c0 + 16 * i) else c) = u ∧ u.mx.image = c.mx.image ∧
      u.mx.wpoison = c.mx.wpoison ∧ u.mx.scales = c.mx.scales ∧ ∀ x < 512, u.accElem core acc m x =
        if zero = true ∧ c0 + 16 * i ≤ x ∧ x < c0 + 16 * i + 16 then zeroElem (c.imodeOf core acc) else c.accElem core acc m x := by
    cases zero
    · exact ⟨c, rfl, rfl, rfl, rfl, fun x _ => (if_neg fun h => absurd h.1 Bool.false_ne_true).symm⟩
    · obtain ⟨image, wpoison, scales, -⟩ := zeroRow_keeps (s := c) (core := core) (acc := acc) (m := m) (c0 + 16 * i)
      refine ⟨_, rfl, image, wpoison, scales, fun x hx => (accElem_zeroRow (by omega) hx m).trans ?_⟩
      simp
  obtain ⟨u, hu, uimage, uwpoison, uscales, uelems⟩ := reset
  rw [hu] at eq
  rw [eq]
  subst hp ht
  refine ⟨fun d hd => ?_, fun d hd => ?_, fun hs => ?_, fun x hx => ?_⟩
  · rw [State.imgByte, uimage, cimage, timage, ← State.imgByte, imgByte_putImg (by omega), hvals, List.getElem?_eq_getElem]
  · rw [State.wordPoison, uwpoison, cwpoison, ← State.wordPoison, hvals, tagRow_word ?_ (by omega),
      wordPoison_putImg (by omega) (by omega), if_pos]
    · rfl
    · refine ⟨rfl, ?_, by omega, by omega⟩
      rintro e
      rw [e, List.length_nil] at len
      omega
    · intro x hx
      rw [elemAt_block]
      have := elem_in_block v (vals16 ▸ hx)
      omega
  · rw [State.sclByte, uscales, ← State.sclByte, cscale hs, hvals]
  · rw [uelems x hx, imodeOf_of_cores (ccores.trans tcores), accElem_of_accs (caccs.trans taccs)]
    rfl

end

end Sys2Proof.Machine

/-!
PROOF. All rows of a step of a drain, and the rest of the rows after the last (R336).
-/

namespace Sys2Proof.Machine

open Claim

/-- A fold of which every step but that at m leaves the part that R compares alone: at m, it does what the step does. -/
theorem foldl_at {σ : Type} {step : σ → Nat → σ} {I : σ → Prop} {R : σ → σ → Prop} {m : Nat} {l : List Nat} (refl : ∀ s, R s s)
    (trans : ∀ {s u t}, R s u → R u t → R s t) (inv : ∀ s a, I s → I (step s a))
    (h : ∀ s, I s → ∀ a ∈ l, a ≠ m → R s (step s a))
    (nd : l.Nodup) (hm : m ∈ l) {s : σ} (hs : I s) : ∃ u, I u ∧ R s u ∧ R (step u m) (l.foldl step s) := by
  have rest {l : List Nat} (h : ∀ s, I s → ∀ a ∈ l, a ≠ m → R s (step s a)) (out : m ∉ l) {s : σ} (hs : I s) :
      R s (l.foldl step s) := by
    induction l generalizing s with
    | nil => exact refl s
    | cons a l ih =>
      have ne : a ≠ m := fun e => out (e ▸ List.mem_cons_self)
      exact trans (h s hs a List.mem_cons_self ne)
        (ih (fun u hu b hb => h u hu b (List.mem_cons_of_mem a hb)) (fun hb => out (List.mem_cons_of_mem a hb)) (inv s a hs))
  induction l generalizing s with
  | nil => cases hm
  | cons a l ih =>
    obtain ⟨new, nd⟩ := List.nodup_cons.1 nd
    have h' := fun u hu b hb => h u hu b (List.mem_cons_of_mem a hb)
    by_cases e : a = m
    · subst e
      exact ⟨s, hs, refl s, rest h' new (inv s a hs)⟩
    · obtain ⟨u, hu, before, after⟩ := ih h' nd ((List.mem_cons.1 hm).resolve_left (Ne.symm e)) (inv s a hs)
      exact ⟨u, hu, trans (h s hs a List.mem_cons_self e) before, after⟩

section
variable {s u t : State} {core acc tile tv c0 nc i m : Nat} {v : Word32} {scv sat zero pz : Bool}

/-! ### What a step reads -/

theorem tcOf_of_cores (h : u.cores = s.cores) (x : Nat) : u.tcOf core x = s.tcOf core x := by
  unfold State.tcOf State.core
  rw [h]

/-- A row that reads the same drains the same values. -/
theorem drainVals_same (h : RowSame core acc tile tv scv v i m s u) (hc : c0 + 16 * (i + 1) ≤ 512) :
    drainVals u core acc tile tv c0 scv i m = drainVals s core acc tile tv c0 scv i m := by
  unfold drainVals
  rw [tcOf_of_cores h.cores]
  refine List.map_congr_left fun x hx => ?_
  have hx := List.mem_range.1 hx
  unfold drainVal
  rw [h.elems _ (by omega), imodeOf_of_cores h.cores]
  cases scv
  · simp
  · rw [h.tags rfl _ (by omega), imgBytes_congr fun k hk => h.vector rfl _ (by omega)]

theorem RowDrained.of_same (before : RowSame core acc tile tv scv v i m s u)
    (h : RowDrained core acc tile tv c0 scv sat zero pz v i m u t) (hc : c0 + 16 * (i + 1) ≤ 512) :
    RowDrained core acc tile tv c0 scv sat zero pz v i m s t := by
  have vals := drainVals_same before hc
  refine ⟨fun d hd => ?_, fun d hd => ?_, fun hs => ?_, fun x hx => ?_⟩
  · rw [h.bytes d hd, vals]
  · rw [h.words d hd, vals]
  · rw [h.scale hs, vals]
  · rw [h.elems x hx, imodeOf_of_cores before.cores, before.elems x hx]

theorem RowDrained.then_same {w : State} (h : RowDrained core acc tile tv c0 scv sat zero pz v i m s w)
    (after : RowSame core acc tile tv scv v i m w t) : RowDrained core acc tile tv c0 scv sat zero pz v i m s t := by
  refine ⟨fun d hd => ?_, fun d hd => ?_, fun hs => ?_, fun x hx => ?_⟩
  · rw [after.bytes d hd, h.bytes d hd]
  · rw [after.words d hd, h.words d hd]
  · rw [after.scale hs, h.scale hs]
  · rw [after.elems x hx, h.elems x hx]

/-! ### The rest of the rows -/

section
variable (fits : DrainFits v i) (scaled : tcScl v = true → scaledFmt (tcFmt v) = true) (apart : scv = true → tv ≠ tile)
  (last : 16 * (i + 1) = nc)

theorem tailRow_image (s : State) (core tile : Nat) (v : Word32) (nc a : Nat) : (tailRow s core tile v nc a).mx.image =
    (s.putImg core tile (rowBytes v * a + nc * fmtHalf (tcFmt v) / 2)
      (List.replicate (rowBytes v - nc * fmtHalf (tcFmt v) / 2) 0) false).mx.image := by
  unfold tailRow
  dsimp only
  split
  · exact foldl_keeps (fun u : State => u.mx.image) (f := fun u j => u.putScl core tile (scaleAt v a (16 * j)) false [0x7F]) (fun u j => rfl) _ _
  · rfl

include last

/-- The columns drained take the bytes of a row up to the end of the last block. -/
theorem used_eq : nc * fmtHalf (tcFmt v) / 2 = 8 * (fmtHalf (tcFmt v) * i) + 8 * fmtHalf (tcFmt v) := by
  subst last
  obtain h | h | h | h := fmtHalf_width (tcFmt v) <;> rw [h] <;> omega

include fits

include scaled apart in
theorem RowSame.tailRow (hm : m < 32) {a : Nat} (ha : a < 32) :
    RowSame core acc tile tv scv v i m s (tailRow s core tile v nc a) := by
  have used := used_eq (v := v) last
  have row := row_le hm fits.steps
  have row' := row_le ha fits.steps
  have block := fits.block
  have rows (h : a ≠ m) := rows_apart h (tcSteps v)
  have start : rowBytes v * a = 48 * (a * tcSteps v) := by rw [rowBytes, Nat.mul_assoc, Nat.mul_comm (tcSteps v)]
  have image : RowSame core acc tile tv scv v i m s (s.putImg core tile (rowBytes v * a + nc * fmtHalf (tcFmt v) / 2)
      (List.replicate (rowBytes v - nc * fmtHalf (tcFmt v) / 2) 0) false) := by
    rw [used, start, rowBytes]
    have length : (List.replicate (48 * tcSteps v - (8 * (fmtHalf (tcFmt v) * i) + 8 * fmtHalf (tcFmt v))) (0 : Byte)).length =
      48 * tcSteps v - (8 * (fmtHalf (tcFmt v) * i) + 8 * fmtHalf (tcFmt v)) := List.length_replicate
    refine RowSame.putImg fits hm apart (by omega) (by omega) (by omega) ?_
    · unfold blockAt
      by_cases e : a = m
      · subst e
        omega
      · have := rows e
        omega
  unfold Machine.tailRow
  dsimp only
  split
  · next hs =>
    refine image.trans (RowSame.foldl (fun u j hj => ?_) _)
    obtain ⟨hj, beyond⟩ := List.mem_filter.1 hj
    have hj := List.mem_range.1 hj
    have beyond := of_decide_eq_true beyond
    have there : fmtHalf (tcFmt v) * j + fmtHalf (tcFmt v) ≤ 6 * tcSteps v := by
      unfold rowBytes at hj
      obtain h | h | h | h := fmtHalf_width (tcFmt v) <;> rw [h] at hj ⊢ <;> omega
    obtain ⟨small, -⟩ := scaleAt_apart (scaled hs) fits.steps (a := m) ha there (j := i) (by omega)
    obtain ⟨small', other⟩ := scaleAt_apart (scaled hs) fits.steps (a := a) hm (i := i) (by omega) there
    exact RowSame.putScl small fun _ => ⟨small', other (.inr (by omega))⟩
  · exact image

/-- The rest of every row is cleared. -/
theorem drainTail_clears (hm : m < 32) {off : Nat} (lo : nc * fmtHalf (tcFmt v) / 2 ≤ off) (hi : off < rowBytes v) :
    ((List.range 32).foldl (fun u a => tailRow u core tile v nc a) s).imgByte core tile (rowBytes v * m + off) = 0 := by
  have used := used_eq (v := v) last
  have row := row_le hm fits.steps
  have start (a : Nat) : rowBytes v * a = 48 * (a * tcSteps v) := by rw [rowBytes, Nat.mul_assoc, Nat.mul_comm (tcSteps v)]
  have m0 := start m
  have others (u : State) (_ : True) (a : Nat) (ha : a ∈ List.range 32) (ne : a ≠ m) :
      (tailRow u core tile v nc a).imgByte core tile (rowBytes v * m + off) = u.imgByte core tile (rowBytes v * m + off) := by
    have rows := rows_apart ne (tcSteps v)
    have row' := row_le (List.mem_range.1 ha) fits.steps
    have a0 := start a
    have length : (List.replicate (rowBytes v - nc * fmtHalf (tcFmt v) / 2) (0 : Byte)).length = rowBytes v - nc * fmtHalf (tcFmt v) / 2 :=
      List.length_replicate
    unfold rowBytes at *
    rw [State.imgByte, tailRow_image, ← State.imgByte]
    unfold rowBytes
    exact imgByte_putImg_out (by omega) (by omega) (.inr (by omega))
  obtain ⟨u, -, -, after⟩ := foldl_at (step := fun u a => tailRow u core tile v nc a) (I := fun _ => True)
    (R := fun s u => u.imgByte core tile (rowBytes v * m + off) = s.imgByte core tile (rowBytes v * m + off)) (fun _ => rfl)
    (fun h k => k.trans h) (fun _ _ _ => trivial) others List.nodup_range (List.mem_range.2 hm) (s := s) trivial
  rw [after, State.imgByte, tailRow_image, ← State.imgByte, show rowBytes v * m + off = rowBytes v * m + nc * fmtHalf (tcFmt v) / 2 +
    (off - nc * fmtHalf (tcFmt v) / 2) by omega, imgByte_putImg (by rw [List.length_replicate]; omega), List.getElem_replicate]

end

end

end Sys2Proof.Machine

/-!
PROOF. The codes, scales and tags that a step of a drain leaves (R336, R337).
-/

namespace Sys2Proof.Machine

open Claim

/-! ### Codes have the width of their format -/

theorem sign_lt (f : FFmt) (neg : Bool) : fSign f neg + fMax f < 2 ^ fBits f ∧ fSign f neg + fInf f < 2 ^ fBits f ∧ fNaN f < 2 ^ fBits f := by
  cases f <;> cases neg <;> decide

theorem overflowCode_lt (f : FFmt) (r : Rnd) (sat neg : Bool) : overflowCode f r sat neg < 2 ^ fBits f := by
  obtain ⟨largest, infinity, nan⟩ := sign_lt f neg
  have choice (b c : Bool) : (if b then fSign f neg + fMax f else if c then fSign f neg + fInf f else fNaN f) < 2 ^ fBits f := by
    split
    · exact largest
    · split
      · exact infinity
      · exact nan
  exact choice _ _

theorem roundFin_lt (f : FFmt) (r : Rnd) (sat neg : Bool) (m : Nat) (e : Int) : (roundFin f r sat neg m e).code < 2 ^ fBits f := by
  have largest := (sign_lt f neg).1
  by_cases hm : m = 0
  · subst hm
    rw [roundFin_zero]
    exact (Nat.le_add_right _ _).trans_lt largest
  cases ho : overflows f r neg m e
  · rw [roundFin_fits sat hm ho]
    have fits : dyad (atLastPlace f r neg m e).1 (lastPlace f m e) ≤ dyad (fMaxM f) (fMaxE f) := by
      rw [← not_lt, ← ltScaled_iff]
      exact Bool.eq_false_iff.1 ho
    exact (Nat.add_le_add_left (fDecode_gridCode (RoundsLike.self hm).placed.inFormat fits neg).1 _).trans_lt largest
  · rw [roundFin_overflow sat hm ho]
    exact overflowCode_lt f r sat neg

theorem fRound_lt (f : FFmt) (r : Rnd) (sat : Bool) (v : FVal) : (fRound f r sat v).code < 2 ^ fBits f := by
  cases v with
  | nan sig => exact (sign_lt f false).2.2
  | inf neg =>
    obtain ⟨largest, infinity, nan⟩ := sign_lt f neg
    simp only [fRound]
    split
    · exact infinity
    · split
      · exact largest
      · exact nan
  | fin neg m e => exact roundFin_lt f r sat neg m e

/-- A format of tiles has elements as wide as its codes. -/
theorem fmtFloat_width {f : Nat} {g : FFmt} (h : fmtFloat f = some g) : fBits g = 4 * fmtHalf f ∧ fmtInt f = none := by
  unfold fmtFloat at h
  split at h <;> cases h <;> exact ⟨rfl, rfl⟩

section
variable {s t u : State} {core acc tile tv c0 nc i m : Nat} {v : Word32} {scv sat zero pz : Bool}

/-! ### The values of a drain -/

/-- The sum of the chains of an element, or its integer, as an FP32 code. -/
def sumCode (s : State) (core acc m c : Nat) : Nat :=
  if s.imodeOf core acc then
    (roundFin .f32 .rn false (decide ((s.accElem core acc m c).e.toInt < 0)) (s.accElem core acc m c).e.toInt.natAbs 0).code
  else (addRne (s.accElem core acc m c).e (s.accElem core acc m c).o).toNat

/-- The same under the scale vector. -/
def drainedCode (s : State) (core acc tv c0 : Nat) (scv : Bool) (m n : Nat) : Nat :=
  if scv then (fMulR .f32 .rn (fDecode .f32 (sumCode s core acc m (c0 + n))) (fDecode .f32 (leNat (s.imgBytes core tv (4 * n) 4)))).code
  else sumCode s core acc m (c0 + n)

theorem sumCode_lt (c : Nat) : sumCode s core acc m c < 2 ^ 32 := by
  unfold sumCode
  split
  · exact roundFin_lt .f32 _ _ _ _ _
  · exact BitVec.isLt _

theorem drainedCode_lt (n : Nat) : drainedCode s core acc tv c0 scv m n < 2 ^ 32 := by
  unfold drainedCode
  split
  · exact fRound_lt .f32 .rn false _
  · exact sumCode_lt _

/-- Is a drained value tagged? -/
def drainedTag (s : State) (core acc tv c0 : Nat) (scv : Bool) (m n : Nat) : Bool :=
  (s.accElem core acc m (c0 + n)).poison || (scv && s.wordPoison core tv n)

theorem drainVal_eq (n : Nat) (exact_ : Bool) : drainVal s core acc tv m (c0 + n) n scv (!scv && exact_) =
    (if s.imodeOf core acc && (!scv && exact_) then .int (s.accElem core acc m (c0 + n)).e.toInt
      else .flt (drainedCode s core acc tv c0 scv m n), drainedTag s core acc tv c0 scv m n) := by
  unfold drainVal drainedCode sumCode drainedTag
  cases s.imodeOf core acc
  · rfl
  · cases (!scv && exact_) <;> simp

/-- Value n of row m, before its conversion. -/
def drainedVal (s : State) (core acc tv c0 : Nat) (scv exact_ : Bool) (m n : Nat) : Drained :=
  if s.imodeOf core acc && (!scv && exact_) then .int (s.accElem core acc m (c0 + n)).e.toInt else .flt (drainedCode s core acc tv c0 scv m n)

theorem drainVals_eq (hv : s.tcOf core tile = v) : drainVals s core acc tile tv c0 scv i m = (List.range 16).map fun x =>
    (drainedVal s core acc tv c0 scv (fmtInt (tcFmt v)).isSome m (16 * i + x), drainedTag s core acc tv c0 scv m (16 * i + x)) := by
  unfold drainVals
  rw [hv]
  refine List.map_congr_left fun x _ => ?_
  rw [Nat.add_assoc, drainVal_eq]
  rfl

theorem drainedVal_flt {exact_ : Bool} {n c : Nat} (h : drainedVal s core acc tv c0 scv exact_ m n = .flt c) : c < 2 ^ 32 := by
  unfold drainedVal at h
  split at h
  · cases h
  · cases h
    exact drainedCode_lt n

theorem drainCode_lt {f : Nat} {d : Int} {x : Drained} (h : ∀ c, x = .flt c → c < 2 ^ 32) : drainCode f sat d x < 2 ^ (4 * fmtHalf f) := by
  have pos : 0 < 2 ^ (4 * fmtHalf f) := Nat.two_pow_pos _
  unfold drainCode
  split
  · exact Nat.mod_lt _ pos
  · split
    · next g hg =>
      split
      · next e =>
        rw [beq_iff_eq] at e
        subst e
        exact h _ rfl
      · rw [← (fmtFloat_width hg).1]
        exact fRound_lt _ _ _ _
    · exact pos

/-! ### A step -/

/-- A step of a drain leaves in every row what it makes of the state before it. -/
theorem drainStep_drained (hv : s.tcOf core tile = v) (fits : DrainFits v i) (scaled : tcScl v = true → scaledFmt (tcFmt v) = true)
    (apart : scv = true → tv ≠ tile) (hc : c0 + 16 * (i + 1) ≤ 512) (hm : m < 32) :
    RowDrained core acc tile tv c0 scv sat zero pz v i m s (drainStep s core acc tile tv c0 nc scv sat zero pz i) := by
  have conf (u : State) (a : Nat) (hu : u.tcOf core tile = v) : (drainRow u core acc tile tv c0 scv sat zero pz i a).tcOf core tile = v :=
    (tcOf_of_cores drainRow_cores tile).trans hu
  obtain ⟨u, hu, before, after⟩ := foldl_at (step := fun u a => drainRow u core acc tile tv c0 scv sat zero pz i a)
    (I := fun u => u.tcOf core tile = v) (R := RowSame core acc tile tv scv v i m) RowSame.refl RowSame.trans conf
    (fun u hu a ha ne => drainRow_same hu fits scaled hm apart hc (List.mem_range.1 ha) ne) List.nodup_range (List.mem_range.2 hm) hv
  have rows := ((drainRow_drained hu fits scaled hm hc).of_same before hc).then_same after
  unfold drainStep
  dsimp only
  split
  · next last =>
    rw [drainTail_eq, tcOf_of_cores (after.cores.trans drainRow_cores), hu]
    exact rows.then_same (RowSame.foldl (fun u a ha => RowSame.tailRow fits scaled apart (beq_iff_eq.1 last) hm (List.mem_range.1 ha)) _)
  · exact rows

theorem drainStep_clears (hv : s.tcOf core tile = v) (fits : DrainFits v i) (last : 16 * (i + 1) = nc) (hm : m < 32) {off : Nat}
    (lo : nc * fmtHalf (tcFmt v) / 2 ≤ off) (hi : off < rowBytes v) :
    (drainStep s core acc tile tv c0 nc scv sat zero pz i).imgByte core tile (rowBytes v * m + off) = 0 := by
  have cores := foldl_keeps (State.cores) (f := fun u a => drainRow u core acc tile tv c0 scv sat zero pz i a) (fun _ _ => drainRow_cores)
    (List.range 32) s
  unfold drainStep
  dsimp only
  rw [if_pos (beq_iff_eq.2 last), drainTail_eq, tcOf_of_cores cores, hv]
  exact drainTail_clears fits last hm lo hi

/-! ### What it leaves, element by element -/

section
variable (h : RowDrained core acc tile tv c0 scv sat zero pz v i m s t) (hv : s.tcOf core tile = v)
include h hv

/-- The code of an element. -/
theorem RowDrained.elemCode {n : Nat} (hn : n / 16 = i) : t.elemCode core tile v m n =
    drainCode (tcFmt v) sat ((drainScale v (drainVals s core acc tile tv c0 scv i m) : Int) - 127)
      (drainedVal s core acc tv c0 scv (fmtInt (tcFmt v)).isSome m n) := by
  have width := fmtHalf_width (tcFmt v)
  obtain ⟨x, hx, rfl⟩ : ∃ x < 16, n = 16 * i + x := ⟨n % 16, by omega, by omega⟩
  have bytes := h.bytes
  unfold drainBytes at bytes
  generalize (drainScale v (drainVals s core acc tile tv c0 scv i m) : Int) - 127 = d at bytes ⊢
  rw [drainVals_eq hv, List.map_map] at bytes
  generalize hl : List.map _ (List.range 16) = l at bytes
  have length : l.length = 16 := by rw [← hl, List.length_map, List.length_range]
  have value (y : Nat) (hy : y < l.length) :
      l[y] = drainCode (tcFmt v) sat d (drainedVal s core acc tv c0 scv (fmtInt (tcFmt v)).isSome m (16 * i + y)) := by
    subst hl
    rw [List.getElem_map, List.getElem_range]
    rfl
  have small : ∀ c ∈ l, c < 2 ^ (4 * fmtHalf (tcFmt v)) := by
    intro c hc
    obtain ⟨y, hy, rfl⟩ := List.getElem_of_mem hc
    rw [value y hy]
    exact drainCode_lt fun c hc => drainedVal_flt hc
  have code := codeAt_packCodes width (by omega) small (j := x) (by omega)
  have len := length_packCodes width (l := l) (by omega)
  rw [length] at len
  have here : x * fmtHalf (tcFmt v) / 2 + (fmtHalf (tcFmt v) + 1) / 2 ≤ 8 * fmtHalf (tcFmt v) := by
    obtain h | h | h | h := width <;> rw [h] <;> omega
  have read : t.imgBytes core tile (blockAt v i m + x * fmtHalf (tcFmt v) / 2) ((fmtHalf (tcFmt v) + 1) / 2) =
      ((packCodes (fmtHalf (tcFmt v)) l).drop (x * fmtHalf (tcFmt v) / 2)).take ((fmtHalf (tcFmt v) + 1) / 2) := by
    refine List.ext_getElem (by rw [length_imgBytes, List.length_take, List.length_drop]; omega) fun k hk hk' => ?_
    rw [length_imgBytes] at hk
    have byte := bytes (x * fmtHalf (tcFmt v) / 2 + k) (by omega)
    rw [List.getElem?_eq_getElem (by omega), Option.some.injEq] at byte
    rw [getElem_imgBytes, List.getElem_take, List.getElem_drop, ← byte, Nat.add_assoc]
  rw [← value x (by omega), ← code]
  unfold State.elemCode codeAt
  dsimp only
  rw [elemAt_block, read, show (16 * i + x) % 2 = x % 2 by omega]

/-- It is tagged if one of the values in its word is. -/
theorem RowDrained.elemPoison_iff {n : Nat} (hn : n / 16 = i) : t.elemPoison core tile v m n = true ↔ ∃ k, k / 16 = i ∧
    (drainedTag s core acc tv c0 scv m k || pz) = true ∧ elemAt v m n / 4 = elemAt v m k / 4 := by
  obtain ⟨x, hx, rfl⟩ : ∃ x < 16, n = 16 * i + x := ⟨n % 16, by omega, by omega⟩
  have words := h.words _ (elem_in_block v hx)
  rw [← elemAt_block, drainVals_eq hv] at words
  rw [State.elemPoison, words, List.any_eq_true]
  simp only [List.mem_zipIdx_iff_getElem?, List.getElem?_map, Option.map_eq_some_iff, Bool.and_eq_true, decide_eq_true_iff]
  constructor
  · rintro ⟨⟨y, k⟩, hy, tag, word⟩
    obtain ⟨z, hz, rfl⟩ := hy
    dsimp only at hz tag word
    obtain ⟨hk, rfl⟩ := List.getElem?_eq_some_iff.1 hz
    rw [List.length_range] at hk
    rw [List.getElem_range] at tag
    exact ⟨16 * i + k, by omega, tag, word⟩
  · rintro ⟨k, hk, tag, word⟩
    have place : 16 * i + k % 16 = k := by omega
    refine ⟨((drainedVal s core acc tv c0 scv (fmtInt (tcFmt v)).isSome m (16 * i + k % 16),
      drainedTag s core acc tv c0 scv m (16 * i + k % 16)), k % 16), ⟨k % 16, List.getElem?_range (by omega), rfl⟩, ?_⟩
    dsimp only
    rw [place]
    exact ⟨tag, word⟩

end

end

/-! ### Block scales (R337) -/

/-- A value is at most the largest one of a format under a scale code. -/
def FitsUnder (g : FFmt) (e c : Nat) : Prop :=
  ∀ neg m x, fDecode .f32 c = .fin neg m x → AtMost m x (fMaxM g) (fMaxE g + (e : Int) - 127)

/-- The scale code is the least of 0 to 253 under which all values fit, or 254. -/
theorem scaleCode_least (g : FFmt) (cs : List Nat) : scaleCode g cs ≤ 254 ∧
    (scaleCode g cs = 254 ∨ ∀ c ∈ cs, FitsUnder g (scaleCode g cs) c) ∧
    ∀ e < scaleCode g cs, ¬∀ c ∈ cs, FitsUnder g e c := by
  unfold scaleCode
  dsimp only
  generalize hf : (fun e : Nat => cs.all fun c => match fDecode .f32 c with
    | .fin _ m x => !ltScaled (fMaxM g) (fMaxE g + (e : Int) - 127) m x
    | _ => true) = fits
  have iff (e : Nat) : fits e = true ↔ ∀ c ∈ cs, FitsUnder g e c := by
    rw [← hf, List.all_eq_true]
    refine forall₂_congr fun c _ => ?_
    unfold FitsUnder
    cases fDecode .f32 c with
    | nan sig => simp
    | inf neg => simp
    | fin neg m x =>
      rw [Bool.not_eq_true', ← Bool.not_eq_true, ltScaled_iff, not_lt, ← atMost_iff]
      exact ⟨fun h _ _ _ e => by cases e; exact h, fun h => h _ _ _ rfl⟩
  cases h : (List.range 255).find? fits with
  | none =>
    refine ⟨le_rfl, .inl rfl, fun e he ok => ?_⟩
    exact List.find?_eq_none.1 h e (List.mem_range.2 (by simp at he; omega)) ((iff e).2 ok)
  | some e =>
    obtain ⟨ok, mem, before⟩ := List.find?_range_eq_some.1 h
    have lt := List.mem_range.1 mem
    refine ⟨by simp; omega, .inr ((iff e).1 ok), fun k hk all => ?_⟩
    have := before k hk
    rw [(iff k).2 all] at this
    exact absurd this Bool.false_ne_true

end Sys2Proof.Machine

/-!
PROOF. The array (O39).
-/

namespace Sys2Proof.Machine

open Claim

section
variable {s t : State} {core acc tile tv c0 nc i m n : Nat} {v : Word32} {scv sat zero pz : Bool} {g : FFmt}

/-- What TCFG accepts, of a tile that a step drains to. -/
theorem DrainFits.of_valid (hv : tcValid v = true) (hi : 16 * (i + 1) ≤ nc) (hn : nc * fmtHalf (tcFmt v) ≤ 2 * rowBytes v) :
    DrainFits v i ∧ (tcScl v = true → scaledFmt (tcFmt v) = true) := by
  unfold tcValid at hv
  simp only [Bool.and_eq_true, Bool.or_eq_true, Bool.not_eq_true', decide_eq_true_iff] at hv
  obtain ⟨⟨⟨⟨-, steps⟩, -⟩, scl⟩, -⟩ := hv
  refine ⟨⟨steps, ?_⟩, fun h => scl.resolve_left (by simp [h])⟩
  have := (Nat.mul_le_mul_right (fmtHalf (tcFmt v)) hi).trans hn
  unfold rowBytes at this
  rw [Nat.mul_assoc, Nat.add_mul, Nat.mul_comm i] at this
  omega

theorem drainCode_flt {f c : Nat} (hf : fmtFloat f = some g) (d : Int) : drainCode f sat d (.flt c) =
    if f = 9 then c else (fRound g .rn (sat && scaledFmt f) (scaleBy (-d) (fDecode .f32 c))).code := by
  simp only [drainCode, (fmtFloat_width hf).2, hf, beq_iff_eq]

section
variable (h : RowDrained core acc tile tv c0 scv sat zero pz v i m s t) (hv : s.tcOf core tile = v) (hn : n / 16 = i)
include h hv hn

/-- An integer tile takes the integer, or the rounded value, each saturated. -/
theorem RowDrained.int {ty : IType} (hf : fmtInt (tcFmt v) = some ty) : t.elemCode core tile v m n =
    (BitVec.ofInt 32 (if s.imodeOf core acc && !scv then max (iMin ty) (min (iMax ty) (s.accElem core acc m (c0 + n)).e.toInt)
      else (fToI ty .rn (fDecode .f32 (drainedCode s core acc tv c0 scv m n))).1)).toNat % 2 ^ (4 * fmtHalf (tcFmt v)) := by
  rw [h.elemCode hv hn]
  unfold drainCode drainedVal
  rw [hf]
  dsimp only
  rw [Option.isSome_some, Bool.and_true]
  cases s.imodeOf core acc && !scv <;> rfl

/-- A tile of floats drains FP32 codes. -/
theorem RowDrained.flt (hf : fmtFloat (tcFmt v) = some g) : t.elemCode core tile v m n =
    if tcFmt v = 9 then drainedCode s core acc tv c0 scv m n
    else (fRound g .rn (sat && scaledFmt (tcFmt v)) (scaleBy (-((drainScale v (drainVals s core acc tile tv c0 scv i m) : Int) - 127))
      (fDecode .f32 (drainedCode s core acc tv c0 scv m n)))).code := by
  rw [h.elemCode hv hn, (fmtFloat_width hf).2, drainedVal, Option.isSome_none, Bool.and_false, Bool.and_false, if_neg Bool.false_ne_true,
    drainCode_flt hf]

end

theorem drainScale_plain (hs : tcScl v = false) (vals : List (Drained × Bool)) : drainScale v vals = 127 := by
  rw [drainScale, hs]
  rfl

/-- The scale of a block of floats. -/
theorem drainScale_block (hv : s.tcOf core tile = v) (hs : tcScl v = true) (hf : fmtFloat (tcFmt v) = some g) :
    drainScale v (drainVals s core acc tile tv c0 scv i m) =
      scaleCode g ((List.range 16).map fun x => drainedCode s core acc tv c0 scv m (16 * i + x)) := by
  rw [drainScale, if_pos hs, hf, drainVals_eq hv, List.filterMap_map, (fmtFloat_width hf).2]
  unfold drainedVal
  simp

/-- The codes of the block that column n stands in. -/
def blockCodes (s : State) (core acc tv c0 : Nat) (scv : Bool) (i m : Nat) : List Nat :=
  (List.range 16).map fun x => drainedCode s core acc tv c0 scv m (16 * i + x)

theorem forall_blockCodes {P : Nat → Prop} : (∀ c ∈ blockCodes s core acc tv c0 scv i m, P c) ↔
    ∀ k, k / 16 = i → P (drainedCode s core acc tv c0 scv m k) := by
  unfold blockCodes
  simp only [List.forall_mem_map, List.mem_range]
  constructor
  · intro h k hk
    have := h (k % 16) (by omega)
    rwa [show 16 * i + k % 16 = k by omega] at this
  · exact fun h x hx => h _ (by omega)

/-- The scale byte of an element is the scale code of its block. -/
theorem RowDrained.scaleCode (h : RowDrained core acc tile tv c0 scv sat zero pz v i m s t) (hv : s.tcOf core tile = v) (hn : n / 16 = i)
    (hs : tcScl v = true) (scaled : scaledFmt (tcFmt v) = true) (hf : fmtFloat (tcFmt v) = some g) :
    (t.sclByte core tile (scaleAt v m n)).toNat = Machine.scaleCode g (blockCodes s core acc tv c0 scv i m) := by
  obtain ⟨q, -, -, at_⟩ := scaleAt_block scaled
  have same : scaleAt v m n = scaleAt v m (16 * i) := by
    rw [at_, at_, hn, Nat.mul_div_cancel_left _ (by decide)]
  have small := (scaleCode_least g (blockCodes s core acc tv c0 scv i m)).1
  rw [same, h.scale hs, drainScale_block hv hs hf, ← blockCodes, BitVec.toNat_ofNat, Nat.mod_eq_of_lt (by omega)]

end

/-! ### Operands -/

section
variable {i : Instr} {c : Cur} {w : Wave}

theorem planesOf_eq (kind : Nat) (o : Mma) (w : Wave) (free : Nat) :
    (planesOf kind o w free).val.toNat = (if kind = 4 then (w.readS free o.preg.toNat).val.toNat else 0) ∧
    (planesOf kind o w free).poison = (decide (kind = 4) && (w.readS free o.preg.toNat).poison) := by
  unfold planesOf
  by_cases e : kind = 4 <;> simp [e]

theorem columnsOf_eq (r : Drn) (s : State) (core : Nat) (w : Wave) (free : Nat) :
    (columnsOf r s core w free).val.toNat = (if r.ncv then (srcS w free r.sn).val.toNat
      else drainCols (s.tcOf core r.tile.toNat) (s.tcOf core r.tv.toNat) r.scv (16 * r.c0.toNat)) ∧
    (columnsOf r s core w free).poison = (r.ncv && (srcS w free r.sn).poison) := by
  have small := drainCols_le (s.tcOf core r.tile.toNat) (s.tcOf core r.tv.toNat) r.scv (16 * r.c0.toNat)
  unfold columnsOf
  cases r.ncv
  · exact ⟨Nat.mod_eq_of_lt (by omega), rfl⟩
  · exact ⟨rfl, rfl⟩

theorem exec_mma {kind : Nat} {o : Mma} (h : (kind, i) ∈ [(1, Instr.mmaF o), (2, .mmaX o), (3, .mmaI8 o), (4, .mmaBp o)]) :
    exec i s = issue i s (issueMma kind o) := by
  simp only [List.mem_cons, Prod.mk.injEq, List.not_mem_nil, or_false] at h
  obtain ⟨rfl, rfl⟩ | ⟨rfl, rfl⟩ | ⟨rfl, rfl⟩ | ⟨rfl, rfl⟩ := h <;> rfl

end

/-- Settles O39: what enters the queue, what a cycle does, the elements of a product, and those of a drain. -/
theorem arrayTakes : Obligations.ArrayTakes := by
  unfold Obligations.ArrayTakes
  refine ⟨fun kind i o r ctl acc s c w => ⟨fun hk h => ?mma, fun h => ?drain, ?azero⟩,
    fun s core k o hc ha ho hs hk hd => ⟨_, rfl, cycleOf_steps hc ha ho hs hk hd⟩,
    fun s core acc kind a b n p i za pz wraps hacc h1 h4 hn hi =>
      ⟨mmaStep_keeps.1, mmaStep_keeps.2.1, mmaStep_keeps.2.2, fun m x hm hx => ?product⟩,
    fun s core acc tile tv c0 nc i scv sat zero pz hacc hv h32 h0 h8 hi hnc hcols hrow htv => ?drained⟩
  case mma =>
    obtain ⟨planes, tag⟩ := planesOf_eq kind o w s.sch.free
    rw [← planes, ← tag]
    exact takes_mma h (exec_mma hk)
  case drain =>
    obtain ⟨columns, tag⟩ := columnsOf_eq r s (coreOf c.wave) w s.sch.free
    rw [← columns, ← tag]
    exact takes_drain h
  case azero =>
    intro rel j h own ready
    cases rel
    · exact takes_azero h rfl own ready
    · exact takes_azero h rfl own ready
  case product =>
    dsimp only
    refine ⟨fun out => ?outside, fun hg hxn => ⟨fun h3 => ?ints, fun h4 => ?planes, fun h2 => ?floats⟩⟩
    case outside =>
      by_cases h : kind = 4
      · subst h
        exact (mmaStep_planes hm hx hn).trans (if_neg fun e => out.elim (fun ne => ne e.1) fun le => absurd e.2 (Nat.not_lt.2 le))
      · simp only [if_neg h] at out
        exact (mmaStep_columns hm hx h hn hi).trans (if_neg fun e => out.elim (fun ne => ne e.1) fun le => absurd e.2 (Nat.not_lt.2 le))
    case ints =>
      subst h3
      simp only [Nat.reduceEqDiff, if_false] at hg ⊢
      rw [← List.range'_eq_map_range, mmaStep_columns hm hx (by decide) hn hi, if_pos ⟨hg, hxn⟩, if_pos rfl, dotInt_eq, addInt_restarted,
        decide_true, Bool.and_true]
      exact ⟨rfl, rfl, by ac_rfl⟩
    case planes =>
      subst h4
      simp only [if_true] at hg ⊢
      rw [← List.range'_eq_map_range, mmaStep_planes hm hx hn, if_pos ⟨hg, hxn⟩, dotPlane_eq, addInt_restarted, Nat.mul_comm 48]
      exact ⟨rfl, rfl, by ac_rfl⟩
    case floats =>
      have h : kind ≠ 4 := by omega
      simp only [if_neg h] at hg ⊢
      rw [← List.range'_eq_map_range, mmaStep_columns hm hx h hn hi, if_pos ⟨hg, hxn⟩, if_neg (by omega), dotFloat_eq, decide_true,
        Bool.and_true]
      dsimp only
      generalize (za && decide (i % tcSteps (s.tcOf core a) = 0)) = anew
      obtain rfl | rfl : kind = 1 ∨ kind = 2 := by omega
      · cases anew <;> exact ⟨rfl, rfl, by ac_rfl⟩
      · cases anew <;> exact ⟨rfl, rfl, by ac_rfl⟩
  case drained =>
    intro E sum val bad
    obtain ⟨fits, scaled⟩ := DrainFits.of_valid hv hi hrow
    have rows (m : Nat) (hm : m < 32) : RowDrained core acc tile tv c0 scv sat zero pz (s.tcOf core tile) i m s
        (drainStep s core acc tile tv c0 nc scv sat zero pz i) :=
      drainStep_drained rfl fits scaled (fun h => (htv h).1) (by omega) hm
    refine ⟨fun m n hm hn => ⟨fun ty => (rows m hm).int rfl hn, fun h9 => ?fp32,
      fun g h9 hg => ⟨?code, fun hs => ?scale⟩, fun hb => ?tagged,
      fun hb => ?clear⟩, fun last m off hm lo hi => drainStep_clears rfl fits last hm lo hi, fun m x hm hx => ?elems⟩
    case fp32 =>
      rw [(rows m hm).flt rfl hn (g := .f32) (by rw [h9]; rfl), if_pos h9]
      rfl
    case code =>
      rw [(rows m hm).flt rfl hn hg, if_neg h9]
      cases hs : tcScl (s.tcOf core tile)
      · rw [drainScale_plain hs]
        rfl
      · rw [drainScale_block rfl hs hg, ← blockCodes, ← (rows m hm).scaleCode rfl hn hs (scaled hs) hg]
        rfl
    case scale =>
      have scale := (rows m hm).scaleCode rfl hn hs (scaled hs) hg
      have least := scaleCode_least g (blockCodes s core acc tv c0 scv i m)
      rw [← scale] at least
      simp only [forall_blockCodes] at least
      obtain ⟨le, at_, before⟩ := least
      exact ⟨le, at_.imp_right fun h k neg x y hk => h k hk neg x y, fun e he all => before e he fun k hk neg x y => all k neg x y hk⟩
    case tagged => exact ((rows m hm).elemPoison_iff rfl hn).2 ⟨n, hn, hb, rfl⟩
    case clear =>
      refine Bool.eq_false_iff.2 fun p => ?_
      obtain ⟨k, hk, tag, -⟩ := ((rows m hm).elemPoison_iff rfl hn).1 p
      exact Bool.eq_false_iff.1 (hb k hk) tag
    case elems =>
      rw [(rows m hm).elems x hx, show c0 + 16 * (i + 1) = c0 + 16 * i + 16 by ring]
      rfl

end Sys2Proof.Machine
